-- ==== Sys2Proof/Word.lean ====
section
/-!
DEFINITION. The words of the CS1280: bytes, registers, timeline ticks and the sparse maps that hold its memories.
-/
namespace Sys2Proof

/-- One byte; bit 0 is the least significant (R6). -/
abbrev Byte := BitVec 8

/-- A 32-bit word. -/
abbrev W32 := BitVec 32

/-- A 64-bit word. -/
abbrev W64 := BitVec 64

/-- A TL40 value: a count of timeline ticks of 2^-20 s in 40 bits (R9, R415). -/
abbrev Tick := BitVec 40

/-- The number a fetched command takes in this model; it names one command of the module. -/
abbrev Uid := Nat

/-- A sparse map in canonical form: keys strictly rising, no entry equal to what an unlisted key reads as. -/
abbrev SMap (α : Type) := List (Nat × α)

end Sys2Proof
end

