-- ==== Sys2Proof/Syntax.lean ====
section
/-!
DEFINITION. The commands of the block: one constructor of `Instr` for each row of spec/opcode_table.json.
What only the outside world or an analog part can decide (a sensor reading, a voltage, a training result, a bit
flip, how long a step ran) is an operand of the row it belongs to.
-/
namespace Sys2Proof

/-- A die of the module, 0 to 7 (R17). -/
abbrev DieIx := Fin 8

/-- A cluster index within a die (R76). -/
abbrev ClusterIx := Fin 8192

/-- A module ring number (R363). -/
abbrev RingIx := Fin 4096

/-- A Zweve port of the module (R273). -/
abbrev PortIx := Fin 16

/-- A partition index (R390). -/
abbrev PartIx := Fin 8

/-- A die-local HBM channel index, 32·stack + channel (R244). -/
abbrev ChanIx := Fin 64

/-- A PCIe function: 0 is the PF, 1 to 63 the VFs (R359). -/
abbrev FuncIx := Fin 64

/-- A context tag (R392). -/
abbrev CtxTag := BitVec 12

/-- Bits of one stored scratchpad word that a disturbance flipped before a read: positions 0 to 63 are data bits,
64 to 71 check bits (R84, R105). -/
inductive SpFlips where
  | none
  | single (bit : Fin 72)
  | double (bit₁ bit₂ : Fin 72)
  deriving DecidableEq, Repr

/-- Damage that a burst met on its way from a stack: each entry names a symbol of the codeword (0 to 31 data,
32 to 35 check) and the bits inverted in it (R248, R249). -/
abbrev BurstDamage := List (Fin 36 × Byte)

/-- A direction of a tile group's logical grid (R81). -/
inductive Dir where
  | north | east | south | west
  deriving DecidableEq, Repr

/-- What a scratchpad write brings: bytes for one cluster, or a tile that was fetched once for a bridle of the cluster's macro tile and
is delivered to each of its members: the row bridle (`true`) or the column bridle (R151). -/
structure SpData where
  bridle : Option Bool
  bytes : List Byte
  deriving DecidableEq, Repr

/-- Who issues a scratchpad access (R79, R84). -/
inductive SpUser where
  | array | stream | fill | neighbour
  deriving DecidableEq, Repr

/-- The operand pairings of the array, one per row of R40 and of R89. -/
inductive Pairing where
  /-- 8-bit streamed, non-MX. -/
  | byte8
  /-- E2M1 with E2M1. -/
  | fp4
  /-- MX-FP8 streamed. -/
  | mx8
  /-- MX-FP4 with MX-FP4. -/
  | mx4
  /-- BF16 with BF16 or FP16 with FP16. -/
  | half
  deriving DecidableEq, Repr

/-- A defect of the array in one pass: the column (16 is the checksum column) whose value is off on one row slot,
and by how many units of the last place of the path's exact contribution (R96, R105). -/
structure PassDefect where
  row : Nat
  column : Fin 17
  delta : Int
  deriving DecidableEq, Repr

/-- One pass of the array (R89, R90). Addresses are scratchpad byte addresses; scale addresses matter on the MX
path only, where they name one E8M0 byte per streamed row and per stationary column. -/
structure Pass where
  pairing : Pairing
  streamFmt : Byte
  stationFmt : Byte
  /-- Load the tile at `tileAddr` before the pass; otherwise the loaded tile is used again (R94). -/
  loadTile : Bool
  /-- The codebook that the stationary tile's indices are decoded by (R145). -/
  codebook : Option (Fin 16)
  tileAddr : BitVec 18
  tileScaleAddr : BitVec 18
  rowsAddr : BitVec 18
  rowScaleAddr : BitVec 18
  slotAddr : BitVec 18
  /-- Data rows streamed, 1 to 65,536 (R90). -/
  rows : Nat
  /-- First pass of a canonical segment: slots take the path's starting value (R91). -/
  firstOfSegment : Bool
  defect : Option PassDefect
  deriving DecidableEq, Repr

/-- What a neighbour access does (R81, R82). -/
inductive NeighbourOp where
  | read (bytes : Nat)
  | write (data : List Byte)
  deriving DecidableEq, Repr

/-- What a channel's training or retraining found (R261, R262). Lanes 0 to 31 are data, 32 to 35 ECC. -/
structure ChanTraining where
  channel : ChanIx
  /-- Command and address training, or retraining in any other way than a lane, failed. -/
  otherFailure : Bool
  /-- Lanes that failed and that no redundant lane repairs, with their pseudo-channel. -/
  badLanes : List (Fin 2 × Fin 36)
  /-- Sectors (by channel sector number) that read back uncorrectable. -/
  readBackBad : List Nat
  deriving DecidableEq, Repr

/-- What identification and training of one stack found (R243, R260). -/
structure StackTraining where
  /-- The identification reports 16 high, 40 Gib per die and 32 channels. -/
  identified : Bool
  channels : List ChanTraining
  /-- Pending rows whose bank has a hard spare, by index in the repair list (R268). -/
  hardSpares : List Nat
  /-- Ticks that the stack's pending hard repairs have taken, their wait for the end of the inhibit included (R464, R465). -/
  repairTicks : Nat
  deriving DecidableEq, Repr

/-- What a powered sensor of a zone gives (R455, R488). -/
inductive ZoneReading where
  /-- Integer degrees Celsius, which may be negative. -/
  | celsius (t : Int)
  /-- The thermistor of zone 30 or 31 is open or shorted. -/
  | openOrShorted
  deriving DecidableEq, Repr

/-- The sensors of one governor epoch (R447, R453, R455). A zone without a powered sensor has no reading. -/
structure EpochReadings where
  /-- The reading of zone z at place z, `none` where no sensor is powered. -/
  zones : List (Option ZoneReading)
  /-- The latest sample of the input voltage in mV, a multiple of 10 (R447). -/
  inputMv : Nat
  inputW : Nat
  otherW : Nat
  dieW : List Nat
  deriving DecidableEq, Repr

/-- A sag: the lowest and the latest of its samples, in mV (R448). -/
structure SagSamples where
  lowestMv : Nat
  latestMv : Nat
  deriving DecidableEq, Repr

/-- The decision to shut down: its cause, and the latest sample of the input in mV (R448, R451). -/
structure ShutdownCause where
  cause : Fin 3
  inputMv : Nat
  deriving DecidableEq, Repr

/-- How the module comes to a cold reset (R451, R460). -/
inductive PowerReturn where
  /-- Input power is applied. -/
  | applied (inputMv : Nat)
  /-- After a shutdown the input has held this voltage or more for `heldMs` ms; `dipped`: it was below 38.0 V before. -/
  | restored (inputMv heldMs : Nat) (dipped : Bool)
  deriving DecidableEq, Repr

/-- What the shelf's SMBus write brings (R492). -/
inductive LimitWrite where
  /-- SET_LIMIT with its word, in W. -/
  | limit (watts : Nat)
  /-- A frame with a bad PEC, or with a command code that the module does not have. -/
  | badFrame
  deriving DecidableEq, Repr

/-- What a port's connector shows: the level of ZWp_PRSNT_N, and, with a cable seated, a signal on a lane (R277, R487). -/
structure CableEvent where
  port : PortIx
  seated : Bool
  deriving DecidableEq, Repr

/-- A join fingerprint received from another module's member, as its fields in the order of R322 or R214. -/
structure PeerPrint where
  rank : Nat
  fields : List Nat
  deriving DecidableEq, Repr

/-- The partner of a member's step, and news of a member elsewhere: that it has failed, or that this partner has released the slot
that the step is to fill (R328, R333). -/
structure StepPeer where
  rank : Nat
  failed : Bool
  released : Bool
  deriving DecidableEq, Repr

/-- What members elsewhere tell of a yield: the steps they run, and, of a ring attention, the boundary agreed there (R331). -/
structure YieldNews where
  steps : List Nat
  agreed : Option Nat
  deriving DecidableEq, Repr

/-- A ring member's turn: its command, and news that a member elsewhere has failed (R215, R221). -/
structure RingTurn where
  cmd : Uid
  peerFailed : Bool
  deriving DecidableEq, Repr

/-- A function that drains (R442, R443). -/
inductive Drain where
  | ring (r : RingIx)
  | vf (f : FuncIx)
  | partition (p : PartIx)
  | codec (d : DieIx)
  | port (p : PortIx)
  deriving DecidableEq, Repr

/-- A selector of a staged register, with the selection written (R496). -/
inductive Selection where
  | ring (f : FuncIx) (index : BitVec 12)
  | window (index : BitVec 6)
  | ringGroup (group : BitVec 4) (member : BitVec 6)
  deriving DecidableEq, Repr

/-- A merge performed on one sector (R253, R296). -/
inductive RmwOp where
  /-- A partial write: the bytes enabled by the mask, byte i by bit i. -/
  | merge (mask : BitVec 32) (data : BitVec 256)
  | add (offset : Fin 4) (x : W64)
  | max (offset : Fin 4) (x : W64)
  | cas (offset : Fin 4) (x y : W64)
  deriving DecidableEq, Repr

/-- A PCIe event that AER reports (R360). -/
structure AerEvent where
  uncorrectable : Bool
  status : W64
  header0 : W64
  header1 : W64
  deriving DecidableEq, Repr

/-- The DRAM row that a repair names (R444). -/
structure RowName where
  die : DieIx
  channel : ChanIx
  pseudo : Fin 2
  bank : BitVec 5
  row : BitVec 19
  deriving DecidableEq, Repr

/-- The commands of the block, one constructor per row of spec/opcode_table.json, in its order. -/
inductive Instr where
  -- device commands, by the number of the started command
  | nop (c : Uid)
  | fence (c : Uid)
  | eventSignal (c : Uid)
  | eventWait (c : Uid)
  | waitTime (c : Uid)
  /-- `hostFault`: a host read or write of it failed (R360). -/
  | copy (c : Uid) (hostFault : Bool)
  | fill (c : Uid) (hostFault : Bool)
  | matmul (c : Uid)
  | matmulList (c : Uid)
  | matmulChain (c : Uid)
  | conv (c : Uid)
  | attend (c : Uid)
  | attendBwd (c : Uid)
  | kvAppend (c : Uid)
  | kvIndex (c : Uid)
  | vecchain (c : Uid)
  | reduce (c : Uid)
  | random (c : Uid)
  | sampleTokens (c : Uid)
  /-- `ran`: the running ticks of the steps still to run, in order (R232). -/
  | refine (c : Uid) (ran : List Nat)
  /-- `peerFailed`: news that a member elsewhere has failed (R333). -/
  | collective (c : Uid) (peerFailed : Bool)
  | encode (c : Uid)
  | decode (c : Uid)
  | motion (c : Uid)
  | modelBind (c : Uid)
  | tableLoad (c : Uid)
  | spoolLoad (c : Uid)
  -- rings and the life of a command
  /-- A write to wake page `page` of function `f`'s BAR2; `hostFault`: a host-memory read of it failed (R360). -/
  | ringWake (f : FuncIx) (page : RingIx) (hostFault : Option Nat)
  | ringPoll (r : RingIx) (hostFault : Option Nat)
  | commandFetch (r : RingIx)
  | commandStart (c : Uid)
  | eventRecheck (c : Uid)
  | commandDeadline (c : Uid)
  | completionPost (r : RingIx) (hostFault : Bool)
  | cqHeadRecheck (r : RingIx) (hostFault : Bool)
  | irqDelayExpire (r : RingIx)
  | timeWaitReached (c : Uid)
  -- tile groups and clusters
  /-- The sequencer of `region` starts the chosen command's next unit on `clusters`. -/
  | tileGroupStart (d : DieIx) (region : Fin 32) (clusters : List ClusterIx)
  | arrayPass (d : DieIx) (k : ClusterIx) (p : Pass)
  | spRead (d : DieIx) (k : ClusterIx) (addr : BitVec 18) (user : SpUser) (flips : SpFlips)
  | spWrite (d : DieIx) (k : ClusterIx) (addr : BitVec 18) (data : SpData)
  | spScrubRead (d : DieIx) (k : ClusterIx) (word : Fin 8) (flips : SpFlips)
  | spScrubEpochEnd (d : DieIx)
  | neighbourAccess (d : DieIx) (k : ClusterIx) (dir : Dir) (addr : BitVec 18) (op : NeighbourOp)
  | neighbourSignal (d : DieIx) (k : ClusterIx) (dir : Dir)
  | healthWindowEnd (d : DieIx)
  -- steps of commands
  | tableSwap (p : PartIx) (table : Fin 64)
  | statLinkDecision (c : Uid)
  | refineGraphCommand (c : Uid)
  | refineUpdate (c : Uid)
  | refineStepBoundary (c : Uid)
  | collectiveJoin (c : Uid) (prints : List PeerPrint)
  | collectiveStep (c : Uid) (peer : StepPeer)
  | collectiveYield (c : Uid) (news : YieldNews)
  | ringAttendStep (turn : RingTurn)
  | encodeRelease (c : Uid)
  | spoolSwap
  | spoolWindowChange
  | huskWrite (c : Uid)
  | partitionQuiesce (p : PartIx)
  | drainComplete (what : Drain)
  -- HBM
  | hbmRead (d : DieIx) (offset : BitVec 38) (c : Option Uid) (damage : BurstDamage)
  | hbmWrite (d : DieIx) (offset : BitVec 38) (data : BitVec 256)
  | hbmRmw (d : DieIx) (offset : BitVec 38) (op : RmwOp) (c : Option Uid) (damage : BurstDamage)
  | hbmSoftRepair (row : RowName) (spare : Bool)
  | hbmRefresh (d : DieIx) (stack : Fin 2)
  | hbmRfm (d : DieIx) (stack : Fin 2)
  | hbmScrubRead (d : DieIx) (ch : ChanIx) (damage : BurstDamage)
  | hbmScrubEpochEnd (d : DieIx)
  | hbmLaneRetrain (d : DieIx) (result : ChanTraining)
  | hbmTraining (d : DieIx) (stack : Fin 2) (result : StackTraining)
  | hbmMaintenance (d : DieIx) (results : List StackTraining)
  -- power
  | governorEpoch (r : EpochReadings)
  | fastLimiter
  | sagEnter (x : SagSamples)
  | sagClampLift
  | sagInhibitLift
  | flashHistoryWrite (failedAt : Option W64)
  | orderlyShutdown (x : ShutdownCause)
  | coldReset (x : PowerReturn)
  | moduleReset
  | pfFlr
  | vfFlr (f : FuncIx)
  | vfEnable (f : FuncIx)
  | bootComplete (firmware : BitVec 16) (baseboard : Option (List Byte))
  | sramRepair
  /-- `failed`: the clusters of the die that fail the test (R463). -/
  | clusterSelfTest (d : DieIx) (failed : List ClusterIx)
  /-- `implicated`: clusters implicated twice; `passed`: every result equals its stored answer (R464). -/
  | functionalSelfTest (d : DieIx) (implicated : List ClusterIx) (passed : Bool)
  | selfTestTimeout (d : DieIx)
  | moduleReady
  | dieOff (d : DieIx)
  | dieOn (d : DieIx)
  | requestedShutdown
  | retest (value : Bool)
  | spiEnLow
  | powerExtract
  | powerOff
  | powerOn
  | setLimit (w : LimitWrite)
  | readStatus
  | histRead (selector : BitVec 16)
  -- timeline
  /-- `second`: the number of the whole second, from SOURCE (R416). -/
  | tbPpsEdge (second : Nat)
  | tbRefChange (present : Bool)
  | timeRxGo (length : BitVec 7)
  | timeHoldover
  | ptpSyncSend (p : PortIx)
  | ptpAnnounceSend (p : PortIx)
  -- Zweve link
  | portDetect (x : CableEvent)
  /-- `lanes`: the lanes trained after lane ordering (R277, R278). -/
  | portTrainDone (p : PortIx) (lanes : BitVec 4)
  | neg (p : PortIx) (data : BitVec 512)
  | portTrainLimit (p : PortIx)
  | portDownRetry (p : PortIx)
  | portRetrain (p : PortIx)
  | portRetrainLimit (p : PortIx)
  /-- `lane`: the connector's lane; `word`: the 544 symbols as received, the first in bits `[9:0]`. -/
  | codewordReceive (p : PortIx) (lane : Fin 4) (word : BitVec 5440)
  | flitReceive (p : PortIx)
  | packetTransmit (p : PortIx)
  -- packets, taken from the front of a port's received packets
  | rd (p : PortIx)
  | wr (p : PortIx)
  | wrm (p : PortIx)
  | atomic (p : PortIx)
  | rsp (p : PortIx)
  | nak (p : PortIx)
  | quarantineEnd (p : PortIx)
  | nakWindowEnd (p : PortIx)
  | requestTimeout (d : DieIx) (tag : BitVec 13)
  | desc (p : PortIx)
  | descTimeout (c : Uid)
  | completion (p : PortIx)
  | configRd (p : PortIx)
  | configWr (p : PortIx)
  | error (p : PortIx)
  | time (p : PortIx)
  | memberProbe (index : Fin 64)
  | memberProbeTimeout (index : Fin 64)
  | quietPeriodEnd (index : Fin 64)
  | anchorSilence
  | remoteConfigGo (value : W64)
  | remoteConfigTimeout
  -- host port and registers
  | bar4Read (offset : BitVec 41) (bytes : Nat)
  | bar4Write (offset : BitVec 41) (data : List Byte)
  | bar4Resize (log2 : Fin 12)
  | pcieError (e : AerEvent)
  | registerWrite (f : FuncIx) (offset : Nat) (size : Nat) (value : W64)
  | registerLowRead (f : FuncIx) (offset : Nat) (size : Nat)
  | stageSelect (s : Selection)
  | ringConfigCommit (f : FuncIx)
  | ringEnable (r : RingIx)
  | ringDisable (r : RingIx)
  | zwWinCommit
  | ringGroupCommit
  | partModeWrite (mode : BitVec 1)
  | partitionConfig (p : PartIx) (value : BitVec 32)
  | partitionHold (p : PartIx)
  | partitionUnhold (p : PartIx)
  | partitionEvict (p : PartIx)
  | suspend (ctx : CtxTag)
  | release (ctx : CtxTag)
  | evict (ctx : CtxTag)
  | partKeyWrite (p : PartIx) (key : W32)
  /-- `byAnchor`: the write is a CONFIG_WR of the current anchor, else a write on the module's own port (R308). -/
  | moduleIdWrite (id anchor : BitVec 12) (byAnchor : Bool)
  | portDisable (p : PortIx)
  | portEnable (p : PortIx)
  | codecDisable (d : DieIx)
  | codecEnable (d : DieIx)
  | hbmFence (d : DieIx) (ch : ChanIx)
  | hbmMaint (d : DieIx)
  | hbmInjArm (d : DieIx) (value : W32)
  | dieCluInjArm (d : DieIx) (value : W32)
  -- errors
  | clearLog
  | errRingEnable
  | errRingDisable
  | errHeadReread
  | coalWindowEnd
  | errIrq
  -- events added at the end of the table
  | tileGroupEnd (g : Nat)
  | tagReuseTimeout (d : DieIx) (tag : BitVec 13)
  | managementWatchdog (d : DieIx)
  | ppsOkLost
  | spiEnRelease
  | perstRelease
  deriving DecidableEq, Repr

end Sys2Proof
end

