-- ==== Sys2Proof/Decode.lean ====
section
/-!
DEFINITION. The command that a word of the opcode table spells. No row of spec/opcode_table.json has bits ("fields"
is empty on every row), so no word spells a command.
-/
namespace Sys2Proof

/-- The table gives no row any bits: no word is a command. -/
def decodeTableWord (_nbits _w : Nat) : Option Instr := none

end Sys2Proof
end

