-- ==== Sys2Proof/Config.lean ====
section
/-!
DEFINITION. What the spec leaves to the part, to a published standard or to no rule at all: constants without a body.
-/
namespace Sys2Proof

/-- A value the spec leaves unspecified; the step applies it to a fresh number each time (log entry 6). -/
opaque Config.freeWord : Nat → W64

/-- The DRAM row of a channel's sector, by die, channel and sector number: ROW in bits `[23:5]` and BANK in `[4:0]`.
The spec gives no such map (R244, log entry 14). -/
opaque Config.dramRow : Nat → Nat → Nat → BitVec 24

/-- Activations of a bank at which a stack asks for refresh management, by die and stack (R255, log entry 14). -/
opaque Config.rfmThreshold : Nat → Nat → Nat

/-- The fused-out physical column of a die's region row, if it has one: by die, region, and row of the region (R77, log entry
42). -/
opaque Config.fusedColumn : Nat → Nat → Nat → Option (Fin 17)

/-- An input element, by the bits of its format, its code and its scale code, where binary32 does not hold its value
(R107 asks for an exact widening, and the spec states no value; log entry 22). -/
opaque Config.widened : Nat → Nat → Nat → W32

/-- The code of a value in an integer operand format, by the format's bits and the value as binary32: no rule states a conversion
into INT8 or INT4, and a prologue over an INT8 A asks for one (R158, log entry 22). -/
opaque Config.integerCode : Nat → W32 → Byte

/-- The score of a page past MAXP, which has no centroid and for which R211 states no score: by the query's values as binary32,
the slot, the key-value head and the page (log entry 35). -/
opaque Config.farScore : List W32 → Nat → Nat → Nat → W32

/-- Tools of the codecs that R336 names. -/
inductive VideoTool where
  | superblock128 | palette | intraBlockCopy | warpedMotion | globalMotion | obmc | superResolution | filmGrain
  | operatingPoints | referenceScaling | largeScaleTile | lengthDelimited | wavefront | pcm | scalingLists | interlaced
  | rangeExtensions | paff | mbaff | fmo | aso | redundantSlices | spSlices | siSlices
  | cdef | loopRestoration | sao | amp | transformSkip | longTerm | qpSegmentation
  deriving DecidableEq, Repr

/-- What a bitstream is by its headers (R335, R336): level as 10 times its number, and the side of its superblocks or CTBs. -/
structure StreamForm where
  codec : Nat
  profile : Nat
  depth : Nat
  level : Nat
  highTier : Bool
  block : Nat
  uniformTiles : Bool
  tools : List VideoTool
  deriving DecidableEq, Repr

/-- What the encoder makes of a frame: its coded data, the level that they need, at most 5.1 (R335), reconstruction planes, and the
stream context's device state (R344). -/
structure EncodeOut where
  payload : List Byte
  level : Fin 52
  luma : List Byte
  chroma : List Byte
  context : List Byte
  deriving Inhabited

/-- How a frame is to be coded: at a QP, or in the form that fits the least OUT_SIZE, all-skip or DC-only (R343). -/
inductive EncodeForm where
  | coded (qp : Nat)
  | least
  deriving DecidableEq, Repr

/-- The encoder of the part: the context's bytes without the engine's number, source planes, reference planes in slot order, the
command's OUT_SIZE and its fields from RECON_SLOT on, and the form (R344, log entry 13). -/
opaque Config.encoder : List Byte → List (List Byte) → List (List (List Byte)) → Nat → EncodeForm → EncodeOut

/-- The bitstream of some coded data that has a form, by the codec's standard: it conforms to the profile and level of the form (R344,
log entry 13). -/
opaque Config.bitstream : StreamForm → List Byte → List Byte

/-- A bitstream of at most `n` bytes. -/
structure ShortStream (n : Nat) where
  size : Fin (n + 1)
  byte : Nat → Byte
  deriving Inhabited

def ShortStream.bytes {n : Nat} (x : ShortStream n) : List Byte := (List.range x.size.val).map x.byte

/-- The same of a frame in its least form, which fits `n` bytes, the least OUT_SIZE of R342 (R343). -/
opaque Config.leastStream : (n : Nat) → StreamForm → List Byte → ShortStream n

/-- The QP that the rate control of CBR and VBR asks for, by the same, and by the bits that the present run of frames has left of its
budget (R343, log entry 13). -/
opaque Config.rateQp : List Byte → List (List Byte) → Nat → Int → Nat

/-- A picture that a unit's data decode to. -/
structure DecodedPicture where
  /-- Luma, and chroma unless 4:0:0. -/
  planes : List (List Byte)
  /-- The 16 × 16 luma areas that damage left undecoded, by their number in row-major order (R348). -/
  lost : List Nat
  mark : Fin 3
  /-- It is to be output, at this place of the output order. -/
  shown : Bool
  turn : Nat
  /-- New marks of slots that the reference process gives before it places this picture. -/
  marks : List (Nat × Fin 3)
  /-- Film grain parameters of an AV1 picture, `[]` for none (R336). -/
  grain : List Byte
  deriving Inhabited

/-- What the parts of a unit that damage has left hold, by the video standard: its headers, profile, level (10 times the number) and
tier, whether it is 4:0:0, its size and depth, the tools of R336 that it uses, its pictures in decoding order, how many pending
pictures the output process then releases, and the context's device state. -/
structure DecodeOut where
  headers : Bool
  profile : Nat
  level : Nat
  highTier : Bool
  mono : Bool
  width : Nat
  height : Nat
  depth : Nat
  tools : List VideoTool
  pictures : List DecodedPicture
  released : Nat
  context : List Byte
  deriving Inhabited

/-- The decoder, by the context's bytes, the undamaged parts of the unit, the pictures in the 32 slots, and a fresh number (log
entry 13). -/
opaque Config.decoder : List Byte → List (List Byte) → List (List (List Byte)) → Nat → DecodeOut

/-- The planes of a picture after film grain synthesis, by bit depth and grain parameters (R336, log entry 13). -/
opaque Config.filmGrain : Nat → List Byte → List (List Byte) → List (List Byte)

/-- The first place from a place on where, by the context's bytes, a syntax element is out of its range or trailing bits are wrong, and
the first where the data end inside a syntax structure (R347, log entry 13). -/
opaque Config.syntaxDamage : List Byte → List Byte → Nat → Option Nat
opaque Config.cutShort : List Byte → List Byte → Nat → Option Nat

/-- The places at which a unit refers to slots as they stand before it, with the slots (R347, log entry 13). -/
opaque Config.references : List Byte → List Byte → List (Nat × Nat)

/-- The governor's model of die power in watts, by epoch number and the steps wanted for dies 0 to 7 (R453, log entry
15). -/
opaque Config.predict : Nat → List Nat → Nat

/-- A forwarded command whose completion record says DEADLINE_MISSED had performed all of its work (R381, R437, log
entry 43). -/
opaque Config.memberWorked : BitVec 256 → Bool

end Sys2Proof
end

