-- ==== Sys2Proof/Machine/SMap.lean ====
section
/-!
DEFINITION. Sparse maps in canonical form, and bit-field and byte-order helpers.
-/
namespace Sys2Proof.Machine

open Sys2Proof

/-- What key `k` reads as; `d` is what an unlisted key reads as. -/
def smGet {α : Type} (d : α) : SMap α → Nat → α
  | [], _ => d
  | (k', v) :: m, k => if k = k' then v else smGet d m k

/-- Writes key `k`, keeping the keys rising and listing no default value. -/
def smSet {α : Type} [DecidableEq α] (d : α) : SMap α → Nat → α → SMap α
  | [], k, v => if v = d then [] else [(k, v)]
  | (k', v') :: m, k, v =>
    if v = d then (if k = k' then smSet d m k v else (k', v') :: smSet d m k v)
    else if k < k' then (k, v) :: (k', v') :: m
    else if k = k' then (k, v) :: m
    else (k', v') :: smSet d m k v

/-- Applies `f` to the listed entries whose key satisfies `p`, dropping those that become the default. -/
def smMap {α : Type} [DecidableEq α] (d : α) (p : Nat → Bool) (f : α → α) (m : SMap α) : SMap α :=
  (m.map (fun x => (x.1, if p x.1 then f x.2 else x.2))).filter (fun x => decide (x.2 ≠ d))

/-- Keeps the entries whose key satisfies `p`; the others become the default. -/
def smKeep {α : Type} (p : Nat → Bool) (m : SMap α) : SMap α := m.filter (fun x => p x.1)

/-- Every key is above `lo` (no bound for `none`), keys rise, and no entry is the default. -/
def smWfFrom {α : Type} [DecidableEq α] (d : α) (lo : Option Nat) : SMap α → Bool
  | [] => true
  | (k, v) :: m => (match lo with | none => true | some l => decide (l < k)) && decide (v ≠ d) && smWfFrom d (some k) m

/-- The canonical form of a sparse map. -/
def smWf {α : Type} [DecidableEq α] (d : α) (m : SMap α) : Bool := smWfFrom d none m

/-- The keys listed. -/
def smKeys {α : Type} (m : SMap α) : List Nat := m.map Prod.fst

/-- Bits `[lo + w - 1 : lo]` of a register, descriptor or record. -/
def field {n : Nat} (x : BitVec n) (lo w : Nat) : BitVec w := x.extractLsb' lo w

/-- The same as a number. -/
def fieldN {n : Nat} (x : BitVec n) (lo w : Nat) : Nat := (field x lo w).toNat

/-- Bit `i`. -/
def bit {n : Nat} (x : BitVec n) (i : Nat) : Bool := x.getLsbD i

/-- Replaces bits `[lo + w - 1 : lo]`. -/
def setField {n : Nat} (x : BitVec n) (lo w : Nat) (v : Nat) : BitVec n :=
  (x &&& ~~~(BitVec.ofNat n ((2 ^ w - 1) * 2 ^ lo))) ||| BitVec.ofNat n ((v % 2 ^ w) * 2 ^ lo)

/-- The little-endian number of a list of bytes (R6). -/
def bytesToNat : List Byte → Nat
  | [] => 0
  | b :: bs => b.toNat + 256 * bytesToNat bs

/-- `n` little-endian bytes of a number (R6). -/
def natToBytes : Nat → Nat → List Byte
  | 0, _ => []
  | n + 1, v => BitVec.ofNat 8 v :: natToBytes n (v / 256)

/-- A list of bytes as a bit vector, byte 0 in bits `[7:0]`. -/
def bytesToBv (n : Nat) (bs : List Byte) : BitVec n := BitVec.ofNat n (bytesToNat bs)

/-- `n` bytes of a bit vector, bits `[7:0]` first. -/
def bvToBytes {w : Nat} (n : Nat) (x : BitVec w) : List Byte := natToBytes n x.toNat

/-- `n` addresses or indices from `a` upward. -/
def range (a n : Nat) : List Nat := (List.range n).map (a + ·)

/-- The value a saturating count shows in `w` bits. -/
def saturate (w n : Nat) : Nat := min n (2 ^ w - 1)

/-- Whether `n` is a multiple of `k`. -/
def aligned (k n : Nat) : Bool := n % k == 0

/-- Division rounded up. -/
def ceilDiv (a b : Nat) : Nat := (a + b - 1) / b

end Sys2Proof.Machine
end

