-- ==== Sys2Proof/Machine/State.lean ====
section
/-!
DEFINITION. The state of the module as plain data, the reasons a command can stop, and the state after a cold reset.
A sparse map's default (what an unlisted key reads as) stands beside the type it holds.
-/
namespace Sys2Proof.Machine

open Sys2Proof

/-! ### Why a command stops -/

/-- The model's faults. -/
inductive Fault where
  /-- Raised by COLD_RESET and GOVERNOR_EPOCH when a sample of the supply lies above 60 V, where the spec specifies no
  behaviour (R447, R493). Safe: nothing is claimed of such a module. -/
  | beyondRatings
  deriving DecidableEq, Repr

/-- The model's refusals. -/
inductive Refusal where
  /-- Raised by the dispatcher for a row that has no meaning yet. Safe. -/
  | notModelled (mnemonic : String)
  deriving DecidableEq, Repr

/-! ### Completion statuses and error records -/

/-- Completion statuses (R374). -/
inductive Status where
  | ok | okDowngraded | okConcealed | okRetried
  | illegalDescriptor | reservedNonzero | accessDenied
  | dependencyFailed | aborted
  | memUncorrectable | channelOffline
  | fabricUnreachable | fabricTimeout
  | deadlineMissed | streamUnrecoverable | checksumPersistent
  deriving DecidableEq, Repr

/-- Error classes (R425). -/
inductive ErrClass where
  | info | corrected | uncorrected | degraded | fatal
  deriving DecidableEq, Repr

/-- Error sources (R426). -/
inductive ErrSource where
  | device | cluster | hbm | zweve | pcie | ring | command | time | power | config | flash
  deriving DecidableEq, Repr

/-- The fields that tie a record to one command (R427, CMD = 1). -/
structure RecCmd where
  ring : BitVec 12
  function : BitVec 6
  ctx : BitVec 16
  opcode : Byte
  seqTag : W32
  deriving DecidableEq, Repr

/-- An error record before it has a place in the ring (R427). -/
structure ErrRec where
  seq : W32
  cls : ErrClass
  source : ErrSource
  code : BitVec 16
  injected : Bool
  /-- `some t`: a record of repeats whose last came at tick t (R434). -/
  coalesced : Option Tick
  cmd : Option RecCmd
  tick : Tick
  count : W32
  module : BitVec 12
  die : BitVec 3
  d0 : W64
  d1 : W64
  d2 : W64
  d3 : W64
  deriving DecidableEq, Repr

/-! ### Commands -/

/-- Where a fetched command stands (R379, R393, R406). -/
inductive Phase where
  /-- Checked and issued or on the wait list, header waits unmet (R379). -/
  | waiting
  /-- Header waits met, not started. -/
  | issued
  | started
  /-- Pre-empted; its husk is parked (R406). -/
  | suspended
  /-- Its work is done or has failed; remote answers or signals are outstanding (R299, R380). -/
  | ending
  /-- Everything but its completion record has been done. -/
  | finished
  /-- Sent to a member module, which runs it (R310). -/
  | forwarded
  deriving DecidableEq, Repr

/-- What a REFINE does next (R241). -/
inductive RefinePhase where
  | warp | boundary | graph | update | entry | ballastBoundary | ballastGraph | ballastUpdate | final | ballastFinal | done
  deriving DecidableEq, Repr

/-- A REFINE's progress (R241). -/
structure RefineProg where
  phase : RefinePhase
  boundary : Nat
  index : Nat
  entered : Option Nat
  row : Nat
  ewma : Nat
  ran : Nat
  stepStart : Tick
  /-- Ring groups that the ATTENDs of its graphs name (R482). -/
  groups : List Nat
  deriving DecidableEq, Repr

/-- One query row's partial over a run of keys (R192): m, l and o as binary32. -/
structure RowPartial where
  m : W32
  l : W32
  o : List W32
  bad : Bool
  deriving DecidableEq, Repr

/-- The partials a ring member holds for a node of the tree over shards: `width` shards from `first` (R215). -/
structure HeldPartial where
  first : Nat
  width : Nat
  rows : List RowPartial
  deriving DecidableEq, Repr

/-- The partials of a query tile's rows over one key segment (R191, R193). -/
structure TilePart where
  tile : Nat
  segment : Nat
  rows : List RowPartial
  deriving DecidableEq, Repr

/-- The partials of a chain's unit: the accumulator slots of a band's rows over one segment of the second product (R171). -/
structure ChainSum where
  band : Nat
  segment : Nat
  rows : List (List Byte)
  deriving DecidableEq, Repr

/-- Progress of a collective or of ring attention (R215, R322, R331, R332). -/
structure CollProg where
  rank : Nat
  joined : Bool
  step : Nat
  /-- Ranks that this step's data, and its counter signal, have gone to (R328). -/
  sent : List Nat
  signalled : List Nat
  /-- Step counters of the own scratch area that have been taken, by rank (R321). -/
  taken : SMap W64
  yieldAt : Option Nat
  partials : List HeldPartial
  /-- It met another group that uses its instance or its scratch area: what it writes is unspecified (R214, R321). -/
  breach : Bool
  /-- The flow of its packets: one for all members of a group instance (R329). -/
  flow : Nat
  /-- Scratch areas of its group, by rank (R320). -/
  areas : List Nat
  /-- No step from this one on begins before the next message of a member that asked for a boundary (R331). -/
  paused : Option Nat
  /-- GROUP_ID, INSTANCE, rank and algorithm that its husk recorded (R332). -/
  held : Option (List Nat)
  /-- A member elsewhere has failed, and what would come from there does not (R333). -/
  lost : Bool
  deriving DecidableEq, Repr

/-- A group's progress before any step. -/
def CollProg.dflt : CollProg := ⟨0, false, 0, [], [], [], none, [], false, 0, [], none, none, false⟩

/-- What a consumer knows of the producer it is linked to (R167). -/
inductive StatLink where
  | none
  /-- This command consumes the spill area of `c`, whose descriptor is kept. -/
  | producer (c : Uid) (desc : BitVec 1024)
  deriving DecidableEq, Repr

/-- A slot of an engine's reference pool (R339). -/
structure PoolSlot where
  frame : BitVec 512
  /-- The stream context; a slot whose picture awaits output keeps it without a mark. -/
  owner : W64
  mark : BitVec 2
  pending : Bool
  /-- Planes of a decoded picture, luma and then chroma; `[]` for a picture that its frame buffer holds. -/
  picture : List (List Byte)
  /-- Number of a decoded picture on its engine, and its place in the output order (R346, R348). -/
  order : Nat
  turn : Nat
  /-- The output process has released it, and no OUT entry was left (R346). -/
  due : Bool
  /-- Width and bit depth of a decoded picture, and its film grain parameters, `[]` for none (R336, R348). -/
  width : Nat
  depth : Nat
  grain : List Byte
  deriving DecidableEq, Repr

def PoolSlot.dflt : PoolSlot := ⟨0, 0, 0, false, [], 0, 0, false, 0, 0, []⟩

/-- A fetched command of a ring, or a forwarded one at a member. -/
structure Cmd where
  uid : Uid
  ring : Nat
  /-- Submission number on its ring (R379, R385). -/
  sub : Nat
  desc : BitVec 1024
  sync : BitVec 1024
  module : BitVec 6
  dies : Byte
  phase : Phase
  /-- The deadline, release or wait tick has been found reached (R423). -/
  tickReached : Bool
  status : Status
  /-- All of its work has been performed (R374, R381). -/
  worked : Bool
  /-- Its work is done, but its last write has not been answered: TICK and the deadline are still to be judged (R237, R377). -/
  unjudged : Bool
  mode : Byte
  steps : W32
  errSeq : Option W32
  tick : Tick
  /-- Writes of every unit so far; units done (R410). -/
  unitsDone : List Nat
  retried : Bool
  /-- Tables bound at start with their generations and tags (R136, R410). -/
  gens : List (Nat × Nat × Nat)
  /-- The run-time row count read at start (R154). -/
  rows : Option Nat
  /-- Key segments of each query tile of a retrieving ATTEND, by its selections at start (R202). -/
  segs : List Nat
  /-- The record of the bound model, read at start; `[]` for none (R153, R403). -/
  record : List Byte
  nans : Nat
  invalid : Nat
  suspending : Bool
  evicting : Bool
  /-- It completes with ABORTED at its next tile boundary: the anchor has fallen silent (R311). -/
  aborting : Bool
  /-- No husk could hold it: it runs on to completion (R407). -/
  runOn : Bool
  husk : Option W64
  link : StatLink
  /-- The consumer that this producer was found to have at its start's decision (R167). -/
  linkTo : Option Uid
  refine : RefineProg
  coll : CollProg
  /-- Partials of query tiles whose other key segments are still to come (R191, R193). -/
  parts : List TilePart
  /-- Partials of chain bands whose other segments are still to come (R171). -/
  sums : List ChainSum
  /-- Bytes of other modules that have arrived, by global address. -/
  remoteData : SMap (Option Byte)
  /-- Writes to other modules that a run has made, in order; and those that a run sent which has to be repeated (R298). -/
  written : List (Nat × List Byte)
  ahead : List (Nat × List Byte)
  /-- Signals performed so far (R380). -/
  signalNext : Nat
  /-- Set at a member: the TAG of the anchor's DESC and the port it came by (R387). -/
  origin : Option (Nat × Nat)
  /-- The tag of the DESC by which the anchor forwarded it (R387). -/
  forwardTag : Option Nat
  /-- The module ID that it was forwarded to (R387, R484). -/
  forwardId : BitVec 12
  /-- Its anchor has fallen silent: it ends with ABORTED and logs that (R311, R428). -/
  orphan : Bool
  /-- The REFINE of which it is an instance: a COLLECTIVE or a ring ATTEND of a graph on one die (R226). -/
  parent : Option Uid
  /-- The tick of its last write (R377). -/
  lastWrite : Option Tick
  ballastBase : W64
  /-- Slots of an engine's pool that the command sets when its last write has been answered: die, slot, contents (R340, R342). -/
  pool : List (Nat × Nat × PoolSlot)
  deriving DecidableEq, Repr

/-- How the clusters of a tile group are chosen (R146, R164, R187, R191). -/
inductive Placing where
  /-- Any clusters of one region. -/
  | free
  /-- One cluster: a unit of attention. -/
  | single
  /-- Sixteen clusters of one region: a resident row band. -/
  | band
  /-- All the clusters of a region's 16 × 16 grid: a macro tile, or a unit of a chain. -/
  | grid
  /-- A rectangle of mesh neighbours: spatial tiles. -/
  | exchange
  deriving DecidableEq, Repr

/-- A bridle of a macro tile: the members of a grid row, which receive its tiles of A, or of a grid column, which receive its tiles
of B (R151). -/
structure Bridle where
  row : Bool
  index : Nat
  members : List Nat
  deriving DecidableEq, Repr

/-- A tile group: the unit of dispatch and of retry (R80, R99). -/
structure TileGroup where
  id : Nat
  cmd : Uid
  unit : Nat
  die : Nat
  /-- The clusters it runs on; empty while it waits for a retry, and for movers. -/
  clusters : List Nat
  running : Bool
  failures : Nat
  failedOn : List Nat
  /-- The last failure was a mismatch, and not a scratchpad error, and came of an injection (R100, R105). -/
  lastMismatch : Bool
  lastInjected : Bool
  placing : Placing
  region : Nat
  /-- Clusters missing from the region's grid, each with the cluster that computes its share (R150). -/
  shares : List (Nat × Nat)
  bridles : List Bridle
  /-- Members that wait for a signal before they read their halo, each with the direction it comes from (R187). -/
  waits : List (Nat × Nat)
  deriving DecidableEq, Repr

/-- A group that has not yet been placed. -/
def TileGroup.fresh (id : Nat) (cmd : Uid) (unit : Nat) (p : Placing) : TileGroup where
  id := id
  cmd := cmd
  unit := unit
  die := 0
  clusters := []
  running := false
  failures := 0
  failedOn := []
  lastMismatch := false
  lastInjected := false
  placing := p
  region := 0
  shares := []
  bridles := []
  waits := []

/-! ### Rings -/

/-- States shared by the functions that drain (R442). -/
inductive RunState where
  | off | on | draining | error
  deriving DecidableEq, Repr

/-- A fetched slot pair: the descriptor and its sync record (R372). -/
structure Slot where
  desc : BitVec 1024
  sync : BitVec 1024
  deriving DecidableEq, Repr

/-- One ring: its committed `HQ_RING` contents and what the device keeps for it (R364 to R370, R378, R382). -/
structure Ring where
  cfg : BitVec 512
  state : RunState
  enableHeld : Bool
  cause : BitVec 4
  sqHead : BitVec 17
  sqTail : BitVec 17
  cqNext : BitVec 17
  cqHead : BitVec 17
  wakeNeeded : Bool
  fetched : List Slot
  irqPending : Nat
  irqFirst : Tick
  subs : Nat
  posted : Nat
  /-- A command posted since the last posted fence point, or since the enable, has failed (R382). -/
  failedSince : Bool
  deriving DecidableEq, Repr

/-- A ring at reset: SQ_LOG2 and CQ_LOG2 read 6, IRQ_COUNT 1 (R366). -/
def Ring.dflt : Ring where
  cfg := (6#512 <<< 256) ||| (6#512 <<< 264) ||| (1#512 <<< 288)
  state := .off
  enableHeld := false
  cause := 0
  sqHead := 0
  sqTail := 0
  cqNext := 0
  cqHead := 0
  wakeNeeded := false
  fetched := []
  irqPending := 0
  irqFirst := 0
  subs := 0
  posted := 0
  failedSince := false

/-- A virtual function: VF Enable and an FLR in progress (R363, R442), and its ring selector (R366). -/
structure VfState where
  enabled : Bool
  draining : Bool
  enableHeld : Bool
  select : BitVec 12
  deriving DecidableEq, Repr

def VfState.dflt : VfState := ⟨false, false, false, 0⟩

/-- The HQ_ block. -/
structure HqBlock where
  ringSel : BitVec 12
  stage : BitVec 512
  /-- The VFs share no stage with the PF: one each (R366, R496). -/
  vfStage : SMap (BitVec 512)
  rings : SMap Ring
  vfs : SMap VfState
  bar4Base : BitVec 41
  cntWakeIgnored : W64
  cntFlrDiscard : W64
  /-- MSI-X vectors by function·2048 + vector: mask (an unlisted vector is masked), pending, and message address
  and data (R378, log entry 16). -/
  msixMasked : SMap Bool
  msixEntries : SMap (BitVec 96)
  msixPending : SMap Bool
  deriving DecidableEq, Repr

/-! ### Partitions, spool, tables -/

/-- One partition's set-up (R390, R391). -/
structure Partition where
  dies : Byte
  ringEligible : Bool
  tblGib : BitVec 4
  bgReserve : BitVec 4
  hold : Bool
  /-- HOLD was set and the partition has not yet quiesced (R391). -/
  draining : Bool
  /-- HOLD was cleared during that drain (R443). -/
  enableHeld : Bool
  /-- The commands that the last EVICT found started (R391). -/
  evicting : List Uid
  /-- `ZW_PART_KEY` in force and the held write (R292). -/
  key : W32
  keyHeld : Option W32
  deriving DecidableEq, Repr

/-- An unused partition (R390); partition 0 is listed at reset with all eight dies. -/
def Partition.dflt : Partition where
  dies := 0
  ringEligible := false
  tblGib := 1
  bgReserve := 2
  hold := false
  draining := false
  enableHeld := false
  evicting := []
  key := 0
  keyHeld := none

/-- One bank of a table (R133, R404). -/
structure Bank where
  gen : BitVec 8
  tag : W32
  image : List Byte
  deriving DecidableEq, Repr

/-- A table with its two banks (R136). -/
structure Table where
  current : Bank
  other : Bank
  /-- A load has written the shadow bank and its swap has not happened (R138). -/
  pending : Bool
  /-- The command whose load is in progress. -/
  loader : Option Uid
  deriving DecidableEq, Repr

def Bank.empty : Bank := ⟨0, 0, []⟩

def Table.dflt : Table := ⟨Bank.empty, Bank.empty, false, none⟩

/-- The spool's two banks (R396, R400). -/
structure SpoolBlock where
  current : List Byte
  gen : BitVec 8
  shadow : Option (List Byte)
  loader : Option Uid
  /-- Tick at which the shadow was written (R400). -/
  writtenAt : Tick
  deriving DecidableEq, Repr

/-- Dispatch state of a die (R394). -/
structure DispatchRound where
  starts : Nat
  background : Nat
  turnCtx : Nat
  turnUsed : Nat
  deriving DecidableEq, Repr

/-- One ring group: COUNT and PARTITION, and its members (MODULE, DIE, BUF) as register contents (R482). -/
structure RingGroup where
  cfg : W32
  members : SMap (BitVec 128)
  deriving DecidableEq, Repr

def RingGroup.dflt : RingGroup := ⟨0, []⟩

/-- The PART_ block. -/
structure PartBlock where
  mode : BitVec 1
  sel : BitVec 3
  parts : SMap Partition
  ctxBase : W64
  preemptCtx : CtxTag
  preemptAction : BitVec 2
  /-- The commands that the last accepted action affects (R405). -/
  preempted : List Uid
  suspended : SMap Bool
  rgrpGroup : BitVec 4
  rgrpMember : BitVec 6
  rgrpCfgStage : W32
  rgrpMemberStage : BitVec 128
  rgroups : SMap RingGroup
  rounds : SMap DispatchRound
  tables : SMap Table
  models : SMap (List Byte)
  deriving DecidableEq, Repr

/-! ### Errors and flash -/

/-- A coalescing tracker (R434). -/
structure Tracker where
  source : ErrSource
  code : BitVec 16
  die : BitVec 3
  injected : Bool
  d0 : W64
  cls : ErrClass
  count : Nat
  first : Tick
  last : Tick
  d1 : W64
  d2 : W64
  d3 : W64
  deriving DecidableEq, Repr

/-- The pending overflow summary: five drop counts and the first and last SEQ counted (R432). -/
structure Summary where
  info : Nat
  corrected : Nat
  uncorrected : Nat
  degraded : Nat
  fatal : Nat
  firstSeq : W32
  lastSeq : W32
  deriving DecidableEq, Repr

/-- The ERR_ block (R430 to R439). -/
structure ErrBlock where
  ringBase : W64
  ctrlBase : W64
  cfg : W32
  coalLog2 : Nat
  /-- Tick at which the coalescing window in force began (R434). -/
  coalBegan : Tick
  nextSeq : W32
  writeIx : BitVec 17
  head : BitVec 17
  badHead : Bool
  held : List ErrRec
  buffer : List ErrRec
  summary : Option Summary
  trackers : List Tracker
  irqOwed : Nat
  irqLast : Option Tick
  histSel : W32
  cntCreated : W64
  cntWritten : W64
  cntDropped : W64
  deriving DecidableEq, Repr

/-- A write waiting for the flash (R445): a map-out entry set or removed, a repair entry, a log copy, the retest
record, or the erase of the log. -/
inductive HistWrite where
  | addMapOut (entry : W64)
  | dropMapOut (entry : W64)
  | addRepair (entry : W64)
  | setRepair (entry : W64) (state : BitVec 2)
  | logCopy (record : BitVec 512)
  | retest (value : Bool)
  | clearLog
  deriving DecidableEq, Repr

/-- The persistent history (R444, R459). A free slot of a table is `none`. -/
structure Flash where
  mapOuts : List (Option W64)
  repairs : List W64
  log : List (BitVec 512)
  retest : Bool
  queue : List HistWrite
  deriving DecidableEq, Repr

/-! ### Power -/

/-- One die as the PWR_ block shows it (R459, R461). -/
structure PwrDie where
  cap : BitVec 6
  /-- OFF as last written (R11). -/
  off : Bool
  grant : BitVec 6
  state : BitVec 2
  temp : Byte
  thermCeil : BitVec 6
  powerW : BitVec 16
  /-- The last write of OFF came during the change in progress, and against it: it acts when that change ends (R461). -/
  held : Bool
  /-- Ticks since the rails came up that pending hard repairs have taken, which R464 excludes. -/
  repairTicks : Nat
  deriving DecidableEq, Repr

def PwrDie.dflt : PwrDie := ⟨24, false, 0, 0, 0, 32, 0, false, 0⟩

/-- One thermal zone (R455, R458, R459). -/
structure Zone where
  temp : Byte
  max : Byte
  critical : Bool
  /-- A reading has been taken since the last reset that clears the registers that report the zone. -/
  read : Bool
  hotReads : Nat
  deriving DecidableEq, Repr

def Zone.dflt : Zone := ⟨0, 0, false, false, 0⟩

/-- The PWR_ block, the supply and the management controller (17, 19). -/
structure PwrBlock where
  limitW : BitVec 11
  retest : Bool
  /-- RETEST as this bring-up found it when it began: it tests the items of the map-out table (R459, R463). -/
  retesting : Bool
  inputMv : BitVec 16
  inputW : BitVec 12
  clamp : Bool
  inhibit : Bool
  shelfLimitW : BitVec 11
  stage : BitVec 3
  dieSel : BitVec 3
  dies : SMap PwrDie
  thermCfg : W32
  zoneSel : BitVec 5
  zones : SMap Zone
  regClamp : SMap Bool
  /-- Tick at which the governor epoch in force began (R452). -/
  epochBegan : Tick
  fastLimit : Bool
  /-- Tick at which a sag in service set the inhibit; `none` at power-on (R449). -/
  sagSince : Option Tick
  /-- The last tick at which the input is known to have been below 44.0 V: the counts of R448 begin behind it. -/
  lowAt : Tick
  /-- Tick at which the rails of the dies were up (R464). -/
  railsAt : Tick
  running : Bool
  lastCause : Byte
  alertN : Bool
  spiEnN : Bool
  perstN : Bool
  presN : Bool
  /-- Ports with a cable seated: ZWp_PRSNT_N is low (R487). -/
  cables : BitVec 16
  baseId : BitVec 12
  baseAnchor : BitVec 12
  smbusAddr : BitVec 7
  firmware : BitVec 16
  deriving DecidableEq, Repr

/-! ### Timeline -/

/-- The Sync exchange in progress: timestamps in units of 2^-20 ns, of which a tick has 10^9 (R417). -/
structure PtpExchange where
  seqId : BitVec 16
  t1 : Option Int
  t2 : Int
  t3 : Option Int
  t4 : Option Int
  deriving DecidableEq, Repr

/-- The TIME_ block and the clock (R415 to R421, R481). -/
structure TimeBlock where
  now : Tick
  /-- The tick before this one, or the one from which a forward step came: every tick behind it up to `now` is reached at `now`
  (R420). -/
  cameFrom : Tick
  /-- How often the timeline has wrapped: seconds beyond 2^20 (R415). -/
  wraps : Nat
  /-- Ticks of the reference, for slewing (R419). -/
  refCount : BitVec 10
  cfg : W32
  locked : Bool
  holdover : Bool
  refOk : Bool
  offsetNs : BitVec 24
  txAddr : W64
  rxData : BitVec 512
  goodSamples : Nat
  sampled : Bool
  lastSample : Tick
  exchange : Option PtpExchange
  /-- Ticks that slewing still adds or withholds. -/
  slew : Int
  /-- Ticks of the TB_PPS edges of the last two seconds (R421). -/
  pps : List Tick
  stepsRemoved : BitVec 16
  delaySeq : BitVec 16
  syncSeq : BitVec 16
  announceSeq : BitVec 16
  discarded : Nat
  deriving DecidableEq, Repr

/-! ### Zweve -/

/-- A packet of the fabric: header fields of R286 and R289, with its data (R287). -/
structure Packet where
  type : BitVec 4
  tc : BitVec 2
  hops : BitVec 4
  dst : BitVec 12
  src : BitVec 12
  tag : BitVec 16
  len : BitVec 4
  op : BitVec 4
  addr : BitVec 38
  key : W32
  /-- RSP: STATUS. NAK: reason in `[3:0]` and refused TYPE in `[7:4]`. -/
  status : BitVec 16
  /-- Any other bit that the packet's type reserves. -/
  reserved : Bool
  data : List Byte
  mask : BitVec 128
  /-- Tick of the codeword that brought the header slot (R313). -/
  stamp : Tick
  /-- At its source, the flow that it belongs to; 0 for an answer and for a packet of another module (R329). -/
  flow : Nat
  deriving DecidableEq, Repr

/-- Training stages of a port (R277, R315). -/
inductive PortStage where
  | off | detect | train | negotiate | active | draining | down
  deriving DecidableEq, Repr

/-- One Zweve port (11). -/
structure Port where
  enable : Bool
  maxWidth : BitVec 2
  /-- MAX_WIDTH as of the last Detect (R315). -/
  limit : BitVec 2
  stage : PortStage
  enableHeld : Bool
  retries : Nat
  stageStart : Tick
  /-- Retraining from Active: its queues are kept (R280). -/
  retraining : Bool
  lanes : BitVec 4
  width : BitVec 3
  partnerId : BitVec 12
  partnerPort : BitVec 4
  partnerRole : BitVec 1
  lanesOk : BitVec 4
  /-- Quarantined until this tick (R306). -/
  quarUntil : Option Tick
  quarAnswer : Option Tick
  nakCount : Nat
  /-- Tick at which the window of that count began (R305). -/
  nakBegan : Tick
  txSeq : BitVec 12
  rxSeq : BitVec 12
  /-- The next control slot sets NAK (R283). -/
  nakDue : Bool
  nakSent : Bool
  idleReplays : Nat
  /-- Active again after retraining: replay resumes from the partner's first ACK (R280). -/
  resync : Bool
  lastAck : BitVec 12
  /-- Uncorrectable codewords of the 2^10-tick interval `uncorrectedIn` (R280). -/
  uncorrected : Nat
  uncorrectedIn : Nat
  /-- Unacknowledged payload flits, with the TAG of this module's own request in them. -/
  replay : List (BitVec 12 × BitVec 1024 × Option (BitVec 16))
  /-- Credits held, slots received less credits returned, and credits owed but not yet returned, by pool (R284, R285). -/
  credits : SMap Nat
  occupied : SMap Nat
  owed : SMap Nat
  /-- Packets to send, by pool. -/
  txq : SMap (List Packet)
  rxPackets : List Packet
  /-- A packet whose slots go on in the next flit (R281). -/
  partialSlots : List (BitVec 128)
  partialStamp : Tick
  /-- The number of the partner's lane that each lane carries, from its markers (R275). -/
  laneOrder : SMap (Option Nat)
  /-- Codewords that wait for those of other lanes, by lane number: tick and flits; and the lane whose turn it is. -/
  rxLanes : SMap (List (Tick × List (BitVec 1024)))
  rxTurn : Nat
  /-- Codewords in a row without a marker (R280). -/
  unlocked : Nat
  /-- Flits of received codewords, with the tick of their codeword. -/
  rxFlits : List (Tick × BitVec 1024)
  /-- Flits that wait for their codeword, codewords sent since training, and the codewords sent, each with its lane (R275). -/
  txFlits : List (BitVec 1024)
  txWords : Nat
  wire : List (Nat × BitVec 5440)
  /-- TIME packets whose header slot is still to leave in a codeword, by the SEQ of its flit (R313). -/
  timesOut : List (BitVec 12 × Packet)
  /-- Malformed or misrouted answers discarded (R289), and packets that a quarantine left unanswered (R306). -/
  badAnswers : Nat
  quarDropped : Nat
  tc0Slots : Nat
  wrrClass : Nat
  wrrUsed : Nat
  /-- The flow of TC3 whose turn it is, and its slots in this turn (R329). -/
  flowNow : Nat
  flowUsed : Nat
  /-- Ticks of the last Sync and Announce that this master port has sent (R418). -/
  syncAt : Option Tick
  announceAt : Option Tick
  counters : SMap W64
  deriving DecidableEq, Repr

def Port.dflt : Port where
  enable := true
  maxWidth := 0
  limit := 0
  stage := .off
  enableHeld := false
  retries := 0
  stageStart := 0
  retraining := false
  lanes := 0
  width := 0
  partnerId := 0
  partnerPort := 0
  partnerRole := 0
  lanesOk := 0
  quarUntil := none
  quarAnswer := none
  nakCount := 0
  nakBegan := 0
  txSeq := 0
  rxSeq := 0
  nakDue := false
  nakSent := false
  idleReplays := 0
  resync := false
  lastAck := 0xFFF
  uncorrected := 0
  uncorrectedIn := 0
  replay := []
  credits := []
  occupied := []
  owed := []
  txq := []
  rxPackets := []
  partialSlots := []
  partialStamp := 0
  laneOrder := []
  rxLanes := []
  rxTurn := 0
  unlocked := 0
  rxFlits := []
  txFlits := []
  txWords := 0
  wire := []
  timesOut := []
  badAnswers := 0
  quarDropped := 0
  tc0Slots := 0
  wrrClass := 1
  wrrUsed := 0
  flowNow := 0
  flowUsed := 0
  syncAt := none
  announceAt := none
  counters := []

/-- Why a request was sent (R290, R295, R310, R311, R478). -/
inductive ReqKind where
  | read | write | atomic | signal | desc | probe | rcfg
  deriving DecidableEq, Repr

/-- A request that has left, with its tag (R298). -/
structure Request where
  die : Nat
  tag : BitVec 13
  cmd : Option Uid
  kind : ReqKind
  dst : BitVec 12
  type : BitVec 4
  addr : W64
  bytes : Nat
  sent : Tick
  /-- Timed out: an answer is late, the tag is not free yet (R298). -/
  late : Bool
  port : Nat
  deriving DecidableEq, Repr

/-- What the anchor keeps for one member (R310, R311). -/
structure Member where
  id : BitVec 12
  valid : Bool
  probeSent : Option Tick
  quietUntil : Option Tick
  /-- Tick of the last probe, answered or not. -/
  lastProbe : Option Tick
  deriving DecidableEq, Repr

def Member.dflt : Member := ⟨0, false, none, none, none⟩

/-- The ZW_ block. -/
structure ZwBlock where
  id : BitVec 12
  anchorId : BitVec 12
  heldId : Option (BitVec 12 × BitVec 12)
  linkCfg : W64
  portSel : BitVec 4
  ports : SMap Port
  winSel : BitVec 6
  winStage : BitVec 128
  windows : SMap (BitVec 128)
  routeSel : BitVec 12
  routes : SMap (BitVec 16)
  members : SMap Member
  requests : List Request
  nextTag : SMap Nat
  anchorHeard : Tick
  /-- The first DESC of a pair that waits for its sync record (R387). -/
  descFirst : Option Packet
  /-- SEQs that the anchor gave to members' command records, by member and the member's SEQ (R437). -/
  memberSeqs : List (BitVec 12 × W32 × W32)
  deriving DecidableEq, Repr

/-! ### Codecs -/

/-- One codec engine (R339, R357, R358). -/
structure Codec where
  enable : Bool
  state : RunState
  enableHeld : Bool
  slots : SMap PoolSlot
  counters : SMap W64
  /-- Pictures decoded so far, as slots number them (R348). -/
  decodes : Nat
  deriving DecidableEq, Repr

def Codec.dflt : Codec := ⟨true, .on, false, [], [], 0⟩

/-! ### Dies, clusters, channels -/

/-- A stored sector: byte 0 in bits `[7:0]`, the four check symbols in bits `[287:256]`, whether its damage is an injection
(R271), and whether a read has found it uncorrectable, which it stays until a write of the whole sector (R248, R250). -/
structure Sector where
  code : BitVec 288
  injected : Bool
  lost : Bool
  deriving DecidableEq, Repr

/-- A sector of zeros (R260). -/
def Sector.dflt : Sector := ⟨0, false, false⟩

/-- Error counts and limits in force for a health window (R101, R270). -/
structure HealthCfg where
  windowLog2 : BitVec 6
  mismatchLimit : BitVec 4
  ueLimit : BitVec 4
  ceLimit : BitVec 12
  rowCeLimit : Byte
  chUeLimit : Byte
  deriving DecidableEq, Repr

/-- One die: its DIE_, HBM_ and TBL_ blocks (04, 10, 05). -/
structure DieBlock where
  scrubCfg : W32
  /-- LINES and EPOCH_LOG2 in force (R87). -/
  scrubLines : Nat
  scrubEpoch : Nat
  /-- Lines that every cluster was to scrub up to the end of this epoch (R87). -/
  scrubQuota : Nat
  /-- Tick at which the scrub epoch and the health window in force began (R86, R101). -/
  scrubBegan : Tick
  healthBegan : Tick
  chkCfg : W32
  health : HealthCfg
  cluSel : BitVec 13
  cluInj : W32
  counters : SMap W64
  hbmScrubCfg : W32
  hbmScrubRate : Nat
  hbmScrubEpoch : Nat
  /-- Sectors that every channel was to scrub up to the end of this epoch (R256). -/
  hbmScrubQuota : Nat
  /-- Tick at which the HBM scrub epoch in force began (R256). -/
  hbmScrubBegan : Tick
  thermCfg : W32
  throttle0 : BitVec 3
  throttle1 : BitVec 3
  mapGen : Byte
  live : W64
  shadow : W64
  maintHeld : Bool
  chSel : BitVec 6
  healthCfg : BitVec 16
  hbmInj : W32
  hbmCounters : SMap W64
  tblSel : BitVec 11
  selfRefresh : Bool
  trained0 : Bool
  trained1 : Bool
  /-- Activations since the last refresh management and the open row (as row + 1), by bank of a channel (R255). -/
  activations : SMap Nat
  openRows : SMap Nat
  lastRefresh : SMap Tick
  /-- This bring-up's cluster self-test has run on the die (R463). -/
  tested : Bool
  deriving DecidableEq, Repr

def HealthCfg.dflt : HealthCfg := ⟨26, 3, 1, 256, 4, 16⟩

def DieBlock.dflt : DieBlock where
  scrubCfg := 17 ||| (64 <<< 8)
  scrubLines := 64
  scrubEpoch := 17
  scrubQuota := 64
  scrubBegan := 0
  healthBegan := 0
  chkCfg := 26 ||| (3 <<< 8) ||| (1 <<< 12) ||| (256 <<< 16)
  health := HealthCfg.dflt
  cluSel := 0
  cluInj := 0
  counters := []
  hbmScrubCfg := 20 ||| (20 <<< 8)
  hbmScrubRate := 20
  hbmScrubEpoch := 20
  hbmScrubQuota := 1048576
  hbmScrubBegan := 0
  thermCfg := 95 ||| (3 <<< 8)
  throttle0 := 0
  throttle1 := 0
  mapGen := 0
  live := 0
  shadow := 0xFFFFFFFFFFFFFFFF
  maintHeld := false
  chSel := 0
  healthCfg := 4 ||| (16 <<< 8)
  hbmInj := 0
  hbmCounters := []
  tblSel := 0
  selfRefresh := false
  trained0 := false
  trained1 := false
  activations := []
  openRows := []
  lastRefresh := []
  tested := false

/-- One HBM channel (R261, R263, R267, R270). -/
structure Chan where
  fenced : Bool
  mappedOut : Bool
  deg0 : Option (Fin 36)
  deg1 : Option (Fin 36)
  ueWin : Nat
  ceWin : Nat
  softRepairs : Nat
  scrubNext : Nat
  scrubbed : Nat
  /-- Corrected errors of each DRAM row in this window, by row number (R267). -/
  rowCe : SMap Nat
  /-- Rows found faulty and waiting for a soft repair (R267, R269). -/
  faulty : List Nat
  /-- Tick of the last periodic lane retraining (R262). -/
  retrainedAt : Option Tick
  deriving DecidableEq, Repr

def Chan.dflt : Chan := ⟨false, false, none, none, 0, 0, 0, 0, 0, [], [], none⟩

/-- A scratchpad word: data, the stored bits in error, and the poison mark (R84, R88). -/
structure SpWord where
  data : W64
  flips : BitVec 72
  poison : Bool
  injected : Bool
  deriving DecidableEq, Repr

def SpWord.dflt : SpWord := ⟨0, 0, false, false⟩

/-- Cluster states (R104). -/
inductive ClusterMark where
  | enabled | quarantined | mappedOut
  deriving DecidableEq, Repr

/-- The loaded stationary tile (R89, R93): element codes in row-major (K, 16) order, and on the MX path one scale
code per column. -/
structure Tile where
  pairing : Pairing
  fmt : Byte
  codes : List Nat
  scales : List Byte
  deriving DecidableEq, Repr

/-- One cluster (04). -/
structure Cluster where
  mark : ClusterMark
  mismatchWin : Nat
  ueWin : Nat
  ceWin : Nat
  words : SMap SpWord
  written : SMap Bool
  signals : SMap W32
  /-- The active tile and the shadow copy beside it, which loads take first (R93). -/
  tile : Option Tile
  shadow : Option Tile
  scrubLine : Nat
  /-- Lines scrubbed since the quota began. -/
  scrubbed : Nat
  deriving DecidableEq, Repr

def Cluster.dflt : Cluster := ⟨.enabled, 0, 0, 0, [], [], [], none, none, 0, 0⟩

/-! ### Answers and messages -/

/-- What the last read of the block answered. -/
inductive Answer where
  | none
  | value (v : W64)
  | bytes (b : List Byte)
  | completerAbort
  | nack
  /-- Request Retry Status of a configuration request (R466). -/
  | retryStatus
  deriving DecidableEq, Repr

/-- The host port's outgoing side (R360, R378, R472). -/
structure HostPort where
  bar4Log2 : Nat
  msix : List (Nat × Nat)
  aer : Option AerEvent
  snapshots : SMap (Option (BitVec 512))
  answer : Answer
  deriving DecidableEq, Repr

/-- Identity and remote configuration (R476, R478). -/
structure GlbBlock where
  rcfgCtrl : W64
  rcfgData : W64
  /-- The access in flight is a write. -/
  rcfgWrite : Bool
  /-- The access waits for a free tag (R298, R478). -/
  rcfgWaits : Bool
  deriving DecidableEq, Repr

/-! ### The state -/

/-- The module. -/
structure State where
  pending : List Instr
  /-- Number of free values drawn so far: the model's own (log entry 6). -/
  freeCount : Nat
  nextUid : Nat
  nextGroup : Nat
  host : SMap Byte
  hbm : SMap Sector
  glb : GlbBlock
  pwr : PwrBlock
  time : TimeBlock
  hq : HqBlock
  cmds : List Cmd
  /-- Instances of graph commands on single dies, which COLLECTIVE and ring ATTEND have in a REFINE (R226). -/
  kids : List Cmd
  part : PartBlock
  spool : SpoolBlock
  err : ErrBlock
  flash : Flash
  zw : ZwBlock
  /-- `CODEC_SEL.ENGINE` (R357). -/
  codecSel : BitVec 3
  codecs : SMap Codec
  dies : SMap DieBlock
  clusters : SMap Cluster
  chans : SMap Chan
  groups : List TileGroup
  /-- Scratch areas of this module that a COLLECTIVE has named (R321). -/
  scratchNamed : List Nat
  io : HostPort
  deriving DecidableEq, Repr

/-! ### Reset -/

/-- Partition 0 after reset holds all eight dies (R390). -/
def Partition.zero : Partition := { Partition.dflt with dies := 0xFF }

def PwrBlock.reset : PwrBlock where
  limitW := 2000
  retest := false
  retesting := false
  inputMv := 0
  inputW := 0
  clamp := true
  inhibit := true
  shelfLimitW := 2000
  stage := 0
  dieSel := 0
  dies := []
  thermCfg := 100 ||| (3 <<< 8)
  zoneSel := 0
  zones := []
  regClamp := []
  epochBegan := 0
  fastLimit := false
  sagSince := none
  lowAt := 0
  railsAt := 0
  running := true
  lastCause := 0xFF
  alertN := true
  spiEnN := true
  perstN := false
  presN := true
  cables := 0xFFFF
  baseId := 0
  baseAnchor := 0
  smbusAddr := 0x58
  firmware := 0

def TimeBlock.reset : TimeBlock where
  now := 0
  cameFrom := 0xFFFFFFFFFF
  wraps := 0
  refCount := 0
  cfg := 0
  locked := false
  holdover := false
  refOk := false
  offsetNs := 0
  txAddr := 0
  rxData := 0
  goodSamples := 0
  sampled := false
  lastSample := 0
  exchange := none
  slew := 0
  pps := []
  stepsRemoved := 0
  delaySeq := 0
  syncSeq := 0
  announceSeq := 0
  discarded := 0

def HqBlock.reset : HqBlock where
  ringSel := 0
  stage := Ring.dflt.cfg
  vfStage := []
  rings := []
  vfs := []
  bar4Base := 0
  cntWakeIgnored := 0
  cntFlrDiscard := 0
  msixMasked := []
  msixEntries := []
  msixPending := []

def PartBlock.reset : PartBlock where
  mode := 0
  sel := 0
  parts := [(0, Partition.zero)]
  ctxBase := 0
  preemptCtx := 0
  preemptAction := 0
  preempted := []
  suspended := []
  rgrpGroup := 0
  rgrpMember := 0
  rgrpCfgStage := 0
  rgrpMemberStage := 0
  rgroups := []
  rounds := []
  tables := []
  models := []

def SpoolBlock.reset : SpoolBlock := ⟨[], 0, none, none, 0⟩

def ErrBlock.reset : ErrBlock where
  ringBase := 0
  ctrlBase := 0
  cfg := (8 <<< 1) ||| (20 <<< 8)
  coalLog2 := 20
  coalBegan := 0
  nextSeq := 0
  writeIx := 0
  head := 0
  badHead := false
  held := []
  buffer := []
  summary := none
  trackers := []
  irqOwed := 0
  irqLast := none
  histSel := 0
  cntCreated := 0
  cntWritten := 0
  cntDropped := 0

def Flash.blank : Flash := ⟨[], [], [], false, []⟩

/-- `ZW_LINK_CFG` after reset (R314). -/
def zwLinkCfgReset : W64 :=
  8 ||| (14 <<< 4) ||| (64 <<< 16) ||| (20 <<< 24) ||| (20 <<< 29) ||| (4 <<< 36) ||| (8 <<< 40) ||| (4 <<< 44)

def ZwBlock.reset : ZwBlock where
  id := 0
  anchorId := 0
  heldId := none
  linkCfg := zwLinkCfgReset
  portSel := 0
  ports := []
  winSel := 0
  winStage := 0
  windows := []
  routeSel := 0
  routes := []
  members := []
  requests := []
  nextTag := []
  anchorHeard := 0
  descFirst := none
  memberSeqs := []

def HostPort.reset : HostPort := ⟨30, [], none, [], .none⟩

/-- The module right after a cold reset: bring-up stands at BOOT, the sag clamp and inhibit are in force (R449,
R460, R462). Values that the spec does not state are those of log entries 3, 4 and 5. -/
def State.reset : State where
  pending := []
  freeCount := 0
  nextUid := 0
  nextGroup := 0
  host := []
  hbm := []
  glb := ⟨0, 0, false, false⟩
  pwr := PwrBlock.reset
  time := TimeBlock.reset
  hq := HqBlock.reset
  cmds := []
  kids := []
  part := PartBlock.reset
  spool := SpoolBlock.reset
  err := ErrBlock.reset
  flash := Flash.blank
  zw := ZwBlock.reset
  codecSel := 0
  codecs := []
  dies := []
  clusters := []
  chans := []
  groups := []
  scratchNamed := []
  io := HostPort.reset

end Sys2Proof.Machine
end

