-- ==== Sys2Proof/Machine/Flags.lean ====
section
/-!
DEFINITION. Status codes, record codes and the comparisons of TL40 values (R374, R422, R425 to R429).
-/
namespace Sys2Proof.Machine

open Sys2Proof

/-! ### Statuses -/

/-- The status code of R374. -/
def Status.code : Status → Nat
  | .ok => 0x0000
  | .okDowngraded => 0x0001
  | .okConcealed => 0x0002
  | .okRetried => 0x0003
  | .illegalDescriptor => 0x0100
  | .reservedNonzero => 0x0101
  | .accessDenied => 0x0102
  | .dependencyFailed => 0x0200
  | .aborted => 0x0201
  | .memUncorrectable => 0x0300
  | .channelOffline => 0x0301
  | .fabricUnreachable => 0x0400
  | .fabricTimeout => 0x0401
  | .deadlineMissed => 0x0500
  | .streamUnrecoverable => 0x0600
  | .checksumPersistent => 0x0700

/-- The statuses, for reading a code back. -/
def Status.all : List Status :=
  [.ok, .okDowngraded, .okConcealed, .okRetried, .illegalDescriptor, .reservedNonzero, .accessDenied,
   .dependencyFailed, .aborted, .memUncorrectable, .channelOffline, .fabricUnreachable, .fabricTimeout,
   .deadlineMissed, .streamUnrecoverable, .checksumPersistent]

/-- The status of a code; an unlisted code reads as FABRIC_UNREACHABLE. -/
def Status.ofCode (n : Nat) : Status := (Status.all.find? (fun s => s.code == n)).getD .fabricUnreachable

/-- A command with this status has failed (R374); DEADLINE_MISSED after all of the work is told apart by the
caller. -/
def Status.failing (s : Status) : Bool := decide (0x0100 ≤ s.code)

/-- The rank of a rejection's status in R373. -/
def Status.rank : Status → Nat
  | .reservedNonzero => 2
  | .accessDenied => 4
  | _ => 3

/-! ### TL40 (R422) -/

/-- a strictly after b. -/
def later (a b : Tick) : Bool := decide (0 < (a - b).toNat) && decide ((a - b).toNat < 2 ^ 39)

/-- a at or after b. -/
def reached (a b : Tick) : Bool := decide ((a - b).toNat < 2 ^ 39)

/-- A tick that a command carries is not more than 2^39 ticks ahead. -/
def validTick (v now : Tick) : Bool := decide ((v - now).toNat < 2 ^ 39) || decide ((now - v).toNat ≤ 2 ^ 38)

/-- Ticks from b to a, modulo 2^40. -/
def elapsed (a b : Tick) : Nat := (a - b).toNat

/-! ### Records (R425 to R429) -/

def ErrClass.code : ErrClass → Nat
  | .info => 0 | .corrected => 1 | .uncorrected => 2 | .degraded => 3 | .fatal => 4

def ErrSource.code : ErrSource → Nat
  | .device => 0x00 | .cluster => 0x01 | .hbm => 0x02 | .zweve => 0x03 | .pcie => 0x04 | .ring => 0x05
  | .command => 0x06 | .time => 0x07 | .power => 0x08 | .config => 0x09 | .flash => 0x0A

/-- Class and source of a code read from another module's record. -/
def ErrClass.ofCode (n : Nat) : ErrClass :=
  match n with
  | 0 => .info | 1 => .corrected | 2 => .uncorrected | 3 => .degraded | _ => .fatal

def ErrSource.ofCode (n : Nat) : ErrSource :=
  match n with
  | 1 => .cluster | 2 => .hbm | 3 => .zweve | 4 => .pcie | 5 => .ring | 6 => .command | 7 => .time | 8 => .power
  | 9 => .config | 10 => .flash | _ => .device

/-- Die-level sources (R427, R434). -/
def ErrSource.dieLevel : ErrSource → Bool
  | .cluster => true | .hbm => true | .zweve => true | _ => false

/-- A row of R429. -/
structure Event where
  source : ErrSource
  code : BitVec 16
  cls : ErrClass
  deriving DecidableEq, Repr

def evSummary : Event := ⟨.device, 1, .info⟩
def evSpCorrected : Event := ⟨.cluster, 1, .corrected⟩
def evSpUncorrected : Event := ⟨.cluster, 2, .uncorrected⟩
def evChkMismatch : Event := ⟨.cluster, 3, .corrected⟩
def evChkPersistent : Event := ⟨.cluster, 4, .uncorrected⟩
def evQuarantined : Event := ⟨.cluster, 5, .degraded⟩
def evMappedOut : Event := ⟨.cluster, 6, .degraded⟩
def evScrubBehind : Event := ⟨.cluster, 7, .info⟩
def evHbmCorrected : Event := ⟨.hbm, 1, .corrected⟩
def evHbmUncorrectable : Event := ⟨.hbm, 2, .uncorrected⟩
def evLaneDegraded : Event := ⟨.hbm, 3, .degraded⟩
def evChannelFenced : Event := ⟨.hbm, 4, .degraded⟩
def evChannelMappedOut : Event := ⟨.hbm, 5, .degraded⟩
def evRowRepair : Event := ⟨.hbm, 6, .info⟩
def evAboveTop : Event := ⟨.hbm, 7, .uncorrected⟩
def evStackRejected : Event := ⟨.hbm, 8, .degraded⟩
def evDieFailed : Event := ⟨.hbm, 9, .fatal⟩
def evNoSpare : Event := ⟨.hbm, 10, .degraded⟩
def evTableArea : Event := ⟨.hbm, 11, .uncorrected⟩
def evNegFailed : Event := ⟨.zweve, 1, .degraded⟩
def evPortDown : Event := ⟨.zweve, 2, .degraded⟩
def evRequestFailed : Event := ⟨.zweve, 3, .uncorrected⟩
def evQuarStart : Event := ⟨.zweve, 4, .degraded⟩
def evQuarEnd : Event := ⟨.zweve, 5, .info⟩
def evAer (uncorrectable : Bool) : Event := ⟨.pcie, 1, if uncorrectable then .uncorrected else .corrected⟩
def evBar4Refused : Event := ⟨.pcie, 2, .uncorrected⟩
def evBar4BaseCleared : Event := ⟨.pcie, 3, .info⟩
def evRingError : Event := ⟨.ring, 1, .uncorrected⟩
def evRejected : Event := ⟨.command, 1, .uncorrected⟩
def evNanConverted : Event := ⟨.command, 2, .info⟩
def evInvalidRows : Event := ⟨.command, 3, .info⟩
def evStatTwoPass : Event := ⟨.command, 4, .info⟩
def evBallastEntered : Event := ⟨.command, 5, .info⟩
def evEvicted : Event := ⟨.command, 6, .info⟩
def evNoHuskSlot : Event := ⟨.command, 7, .info⟩
def evRebindFailed : Event := ⟨.command, 8, .uncorrected⟩
def evRecordLost : Event := ⟨.command, 9, .uncorrected⟩
def evFailed : Event := ⟨.command, 10, .uncorrected⟩
def evHoldover : Event := ⟨.time, 1, .degraded⟩
def evStepped : Event := ⟨.time, 2, .info⟩
def evSupplySag : Event := ⟨.power, 1, .degraded⟩
def evSagCleared : Event := ⟨.power, 2, .info⟩
def evShutdown : Event := ⟨.power, 3, .fatal⟩
def evCriticalTemp : Event := ⟨.power, 4, .degraded⟩
def evWriteIgnored : Event := ⟨.config, 1, .info⟩
def evHistoryFull : Event := ⟨.flash, 1, .degraded⟩
def evFlashFailed : Event := ⟨.flash, 2, .degraded⟩

/-- The 64 bytes of a record with its PHASE (R427), as 512 bits. -/
def encodeRec (r : ErrRec) (phase : Bool) : BitVec 512 :=
  let last : BitVec 40 := match r.cmd, r.coalesced with
    | some c, _ => c.seqTag.zeroExtend 40
    | none, some t => t
    | none, none => 0
  let c : RecCmd := r.cmd.getD ⟨0, 0, 0, 0, 0⟩
  let lo : BitVec 64 :=
    r.code ++ BitVec.ofNat 8 r.source.code ++ (0#1) ++ BitVec.ofBool phase ++ BitVec.ofBool r.cmd.isSome
      ++ BitVec.ofBool (r.coalesced.isSome && r.cmd.isNone) ++ BitVec.ofBool r.injected ++ BitVec.ofNat 3 r.cls.code
      ++ r.seq
  let mid : BitVec 128 := (0#1) ++ r.die ++ r.module ++ r.count ++ last ++ r.tick
  let cmdw : BitVec 64 := (0#16) ++ c.opcode ++ c.ctx ++ (0#6) ++ c.function ++ c.ring
  r.d3 ++ r.d2 ++ r.d1 ++ r.d0 ++ cmdw ++ mid ++ lo

/-- Reads a record back from its 64 bytes (R436). -/
def decodeRec (b : BitVec 512) : ErrRec where
  seq := field b 0 32
  cls := ErrClass.ofCode (fieldN b 32 3)
  source := ErrSource.ofCode (fieldN b 40 8)
  code := field b 48 16
  injected := bit b 35
  coalesced := if bit b 36 then some (field b 104 40) else none
  cmd := if bit b 37 then some ⟨field b 192 12, field b 204 6, field b 216 16, field b 232 8, field b 104 32⟩ else none
  tick := field b 64 40
  count := field b 144 32
  module := field b 176 12
  die := field b 188 3
  d0 := field b 256 64
  d1 := field b 320 64
  d2 := field b 384 64
  d3 := field b 448 64

end Sys2Proof.Machine
end

