-- ==== Sys2Proof/Machine/Num.lean ====
section
/-!
DEFINITION. Exact values, the number formats of R29 to R39 with their conversions, and IEEE 754 arithmetic in
binary32 and binary64 (R14).
-/
namespace Sys2Proof.Machine

open Sys2Proof

/-- A value of a floating-point format: a finite value is (−1)^neg · m · 2^e exactly. -/
inductive Val where
  | nan
  | inf (neg : Bool)
  | fin (neg : Bool) (m : Nat) (e : Int)
  deriving DecidableEq, Repr

/-- +0 and −0. -/
def Val.zero (neg : Bool) : Val := .fin neg 0 0

/-- The value of an integer. -/
def valOfInt (i : Int) : Val := .fin (decide (i < 0)) i.natAbs 0

/-- `b` times a power of two as a natural number: `m · 2^k` for k ≥ 0. -/
def scaleUp (m : Nat) (k : Int) : Nat := m * 2 ^ k.toNat

/-- floor(log2 (m · 2^e)) of a positive value. -/
def expOf (m : Nat) (e : Int) : Int := (Nat.log2 m : Int) + e

/-! ### Rounding -/

/-- Rounding directions: nearest with ties to even, toward zero, toward +infinity (R35, R97). -/
inductive Rm where
  | nearest | zero | up
  deriving DecidableEq, Repr

/-- A binary format: precision with the hidden bit, and the exponents of its normal range. -/
structure Bin where
  p : Nat
  emin : Int
  emax : Int
  deriving DecidableEq, Repr

def b32 : Bin := ⟨24, -126, 127⟩

def b64 : Bin := ⟨53, -1022, 1023⟩

/-- The integer nearest to m · 2^e / 2^q in direction `rm`. -/
def roundMag (rm : Rm) (neg : Bool) (m : Nat) (e q : Int) : Nat :=
  if q ≤ e then scaleUp m (e - q)
  else
    let d := 2 ^ (q - e).toNat
    let k := m / d
    let r := m % d
    match rm with
    | .zero => k
    | .up => if r = 0 || neg then k else k + 1
    | .nearest => if 2 * r > d || (2 * r == d && k % 2 == 1) then k + 1 else k

/-- Rounds an exact value once into a binary format; subnormals are kept (R33). -/
def roundBin (B : Bin) (rm : Rm) : Val → Val
  | .nan => .nan
  | .inf n => .inf n
  | .fin neg m e =>
    if m = 0 then .zero neg
    else
      let q := max (expOf m e) B.emin - ((B.p : Int) - 1)
      let k := roundMag rm neg m e q
      if k = 0 then .zero neg
      else if expOf k q > B.emax then
        let top := Val.fin neg (2 ^ B.p - 1) (B.emax - ((B.p : Int) - 1))
        match rm with
        | .nearest => .inf neg
        | .zero => top
        | .up => if neg then top else .inf neg
      else .fin neg k q

/-! ### Exact operations -/

/-- The exact signed integer of a finite value at exponent `q ≤ e`. -/
def fixedAt (neg : Bool) (m : Nat) (e q : Int) : Int :=
  let k : Int := (scaleUp m (e - q) : Nat)
  if neg then -k else k

/-- The exact sum of two finite values; `none` of them is infinite. An exact zero sum of nonzero values is +0. -/
def addFin (n₁ : Bool) (m₁ : Nat) (e₁ : Int) (n₂ : Bool) (m₂ : Nat) (e₂ : Int) : Val :=
  if m₁ = 0 && m₂ = 0 then .zero (n₁ && n₂)
  else if m₁ = 0 then .fin n₂ m₂ e₂
  else if m₂ = 0 then .fin n₁ m₁ e₁
  else
    let q := min e₁ e₂
    let s := fixedAt n₁ m₁ e₁ q + fixedAt n₂ m₂ e₂ q
    if s = 0 then .zero false else .fin (decide (s < 0)) s.natAbs q

/-- IEEE 754 addition before rounding. -/
def addX : Val → Val → Val
  | .nan, _ => .nan
  | _, .nan => .nan
  | .inf a, .inf b => if a = b then .inf a else .nan
  | .inf a, _ => .inf a
  | _, .inf b => .inf b
  | .fin n₁ m₁ e₁, .fin n₂ m₂ e₂ => addFin n₁ m₁ e₁ n₂ m₂ e₂

/-- IEEE 754 multiplication before rounding. -/
def mulX : Val → Val → Val
  | .nan, _ => .nan
  | _, .nan => .nan
  | .inf a, .inf b => .inf (a != b)
  | .inf a, .fin n m _ => if m = 0 then .nan else .inf (a != n)
  | .fin n m _, .inf b => if m = 0 then .nan else .inf (n != b)
  | .fin n₁ m₁ e₁, .fin n₂ m₂ e₂ => .fin (n₁ != n₂) (m₁ * m₂) (e₁ + e₂)

def negX : Val → Val
  | .nan => .nan
  | .inf a => .inf (!a)
  | .fin n m e => .fin (!n) m e

def absX : Val → Val
  | .nan => .nan
  | .inf _ => .inf false
  | .fin _ m e => .fin false m e

def isNan : Val → Bool
  | .nan => true
  | _ => false

def isInf : Val → Bool
  | .inf _ => true
  | _ => false

def isFinite : Val → Bool
  | .fin _ _ _ => true
  | _ => false

def isZero : Val → Bool
  | .fin _ m _ => m == 0
  | _ => false

def signOf : Val → Bool
  | .nan => false
  | .inf n => n
  | .fin n _ _ => n

/-- Ordered comparison of values that are not NaN: the sign of a − b. +0 and −0 compare equal. -/
def cmpVal : Val → Val → Int
  | .inf a, .inf b => if a = b then 0 else if a then -1 else 1
  | .inf a, _ => if a then -1 else 1
  | _, .inf b => if b then 1 else -1
  | .fin n₁ m₁ e₁, .fin n₂ m₂ e₂ =>
    let q := min e₁ e₂
    let d := fixedAt n₁ m₁ e₁ q - fixedAt n₂ m₂ e₂ q
    if d < 0 then -1 else if d > 0 then 1 else 0
  | _, _ => 0

def eqV (a b : Val) : Bool := !isNan a && !isNan b && cmpVal a b == 0

def ltV (a b : Val) : Bool := !isNan a && !isNan b && cmpVal a b < 0

def leV (a b : Val) : Bool := !isNan a && !isNan b && cmpVal a b ≤ 0

/-! ### Division and roots, to a quotient with a sticky bit -/

/-- m₁/m₂ with `k` more bits than needed and a last bit that marks an inexact quotient. -/
def divSticky (m₁ m₂ k : Nat) : Nat :=
  let q := (m₁ * 2 ^ k) / m₂
  2 * q + (if (m₁ * 2 ^ k) % m₂ = 0 then 0 else 1)

/-- Integer square root, bit by bit from bit `b − 1` down. -/
def isqrtFrom : Nat → Nat → Nat → Nat
  | 0, _, acc => acc
  | b + 1, n, acc =>
    let t := acc + 2 ^ b
    isqrtFrom b n (if t * t ≤ n then t else acc)

def isqrt (n : Nat) : Nat := isqrtFrom (Nat.log2 n / 2 + 1) n 0

/-- IEEE 754 division in format `B`, nearest-even. -/
def divB (B : Bin) : Val → Val → Val
  | .nan, _ => .nan
  | _, .nan => .nan
  | .inf a, .inf _ => if a then .nan else .nan
  | .inf a, .fin n _ _ => .inf (a != n)
  | .fin n _ _, .inf b => .zero (n != b)
  | .fin n₁ m₁ e₁, .fin n₂ m₂ e₂ =>
    if m₂ = 0 then (if m₁ = 0 then .nan else .inf (n₁ != n₂))
    else if m₁ = 0 then .zero (n₁ != n₂)
    else
      let k := Nat.log2 m₂ + B.p + 3
      roundBin B .nearest (.fin (n₁ != n₂) (divSticky m₁ m₂ k) (e₁ - e₂ - k - 1))

/-- m · 2^e with an even exponent. -/
def evenExp (m : Nat) (e : Int) : Nat × Int := if e % 2 = 0 then (m, e) else (2 * m, e - 1)

/-- √x rounded once (R126), for a finite value above 0. -/
def sqrtFin (B : Bin) (m : Nat) (e : Int) : Val :=
  let (m', e') := evenExp m e
  let k := B.p + 4
  let n := m' * 2 ^ (2 * k)
  let s := isqrt n
  roundBin B .nearest (.fin false (2 * s + (if s * s = n then 0 else 1)) (e' / 2 - k - 1))

/-- 1/√x rounded once (R126), for a finite value above 0. -/
def rsqrtFin (B : Bin) (m : Nat) (e : Int) : Val :=
  let (m', e') := evenExp m e
  let k := B.p + 4 + Nat.log2 m'
  let s := isqrt (2 ^ (2 * k) / m')
  roundBin B .nearest (.fin false (2 * s + (if s * s * m' = 2 ^ (2 * k) then 0 else 1)) (-(e' / 2) - k - 1))

/-! ### binary32 operations, nearest-even, one rounding each -/

def fadd (a b : Val) : Val := roundBin b32 .nearest (addX a b)

def fsub (a b : Val) : Val := roundBin b32 .nearest (addX a (negX b))

def fmul (a b : Val) : Val := roundBin b32 .nearest (mulX a b)

def ffma (a b c : Val) : Val := roundBin b32 .nearest (addX (mulX a b) c)

def fdiv (a b : Val) : Val := divB b32 a b

/-- The MAX stage operation: NaN when either is NaN, +0 when +0 meets −0 (R114). -/
def fmax (a b : Val) : Val :=
  if isNan a || isNan b then .nan
  else if isZero a && isZero b then .zero (signOf a && signOf b)
  else if ltV a b then b else a

/-- The MIN stage operation (R114). -/
def fmin (a b : Val) : Val :=
  if isNan a || isNan b then .nan
  else if isZero a && isZero b then .zero (signOf a || signOf b)
  else if ltV b a then b else a

/-- The nearest integer, ties to even, of a finite value. -/
def rneInt : Val → Int
  | .fin n m e => let k : Int := (roundMag .nearest n m e 0 : Nat); if n then -k else k
  | _ => 0

/-- floor of a finite value. -/
def floorInt : Val → Int
  | .fin n m e => if e ≥ 0 then fixedAt n m e 0 else fixedAt n m 0 0 / (2 ^ (-e).toNat : Nat)
  | _ => 0

/-! ### Formats -/

/-- The float formats that elements take (R29, R32). -/
inductive Flt where
  | fp32 | fp16 | bf16 | e4m3 | e5m2 | e2m1 | e3m2 | e2m3
  deriving DecidableEq, Repr

def Flt.ebits : Flt → Nat
  | .fp32 => 8 | .fp16 => 5 | .bf16 => 8 | .e4m3 => 4 | .e5m2 => 5 | .e2m1 => 2 | .e3m2 => 3 | .e2m3 => 2

def Flt.fbits : Flt → Nat
  | .fp32 => 23 | .fp16 => 10 | .bf16 => 7 | .e4m3 => 3 | .e5m2 => 2 | .e2m1 => 1 | .e3m2 => 2 | .e2m3 => 3

def Flt.bias : Flt → Int
  | .fp32 => 127 | .fp16 => 15 | .bf16 => 127 | .e4m3 => 7 | .e5m2 => 15 | .e2m1 => 1 | .e3m2 => 3 | .e2m3 => 1

/-- The format has infinities, and its all-ones exponent is special (R32). -/
def Flt.hasInf : Flt → Bool
  | .fp32 => true | .fp16 => true | .bf16 => true | .e5m2 => true | .e4m3 => false
  | .e2m1 => false | .e3m2 => false | .e2m3 => false

/-- The canonical NaN's code; `none` in a format without NaN (R34). -/
def Flt.nanCode : Flt → Option Nat
  | .fp32 => some 0x7FC00000 | .fp16 => some 0x7E00 | .bf16 => some 0x7FC0 | .e4m3 => some 0x7F | .e5m2 => some 0x7E
  | .e2m1 => none | .e3m2 => none | .e2m3 => none

/-- The code of the largest finite value (R32). -/
def Flt.maxCode : Flt → Nat
  | .fp32 => 0x7F7FFFFF | .fp16 => 0x7BFF | .bf16 => 0x7F7F | .e4m3 => 0x7E | .e5m2 => 0x7B
  | .e2m1 => 0x7 | .e3m2 => 0x1F | .e2m3 => 0x1F

/-- Bits of one element. -/
def Flt.bits (f : Flt) : Nat := 1 + f.ebits + f.fbits

/-- The format's smallest normal exponent. -/
def Flt.emin (f : Flt) : Int := 1 - f.bias

/-- The value of a code (R32). Every NaN encoding is NaN (R34). -/
def decodeFlt (f : Flt) (code : Nat) : Val :=
  let neg := code / 2 ^ (f.ebits + f.fbits) % 2 == 1
  let ex := code / 2 ^ f.fbits % 2 ^ f.ebits
  let fr := code % 2 ^ f.fbits
  if f.hasInf && ex == 2 ^ f.ebits - 1 then (if fr = 0 then .inf neg else .nan)
  else if f == .e4m3 && code % 128 == 0x7F then .nan
  else if ex = 0 then .fin neg fr (f.emin - f.fbits)
  else .fin neg (2 ^ f.fbits + fr) ((ex : Int) - f.bias - f.fbits)

/-- The sign bit of a format, as a code. -/
def signCode (f : Flt) (neg : Bool) : Nat := if neg then 2 ^ (f.ebits + f.fbits) else 0

/-- The code of a magnitude k · 2^q that lies on the format's grid and range. -/
def gridCode (f : Flt) (k : Nat) (q : Int) : Nat :=
  if k = 0 then 0
  else
    let l := expOf k q
    if l < f.emin then (scaleUp k (q - (f.emin - f.fbits)))
    else
      let fr := if q ≥ l - f.fbits then scaleUp k (q - (l - f.fbits)) else k / 2 ^ ((l - f.fbits) - q).toNat
      ((l + f.bias).toNat) * 2 ^ f.fbits + (fr - 2 ^ f.fbits)

/-- The largest finite magnitude of a format. -/
def maxVal (f : Flt) : Val := decodeFlt f f.maxCode

/-- The MODE of an output conversion control (R35). -/
inductive ConvMode where
  | nearest | zero | stochastic
  deriving DecidableEq, Repr

/-- An output conversion control (R35). -/
structure Conv where
  mode : ConvMode
  sat : Bool
  deriving DecidableEq, Repr

/-- Nearest-even without saturation. -/
def Conv.rne : Conv := ⟨.nearest, false⟩

/-- The pseudocode of R38 on the magnitude m · 2^e: the rounded multiple of 2^q. -/
def stochMag (w : Nat) (m : Nat) (e lsb q : Int) : Nat :=
  if q - lsb ≤ 0 then roundMag .nearest false m e q
  else
    let n := min (q - lsb).toNat 32
    let k := roundMag .zero false m e q
    let t := roundMag .zero false m e (q - n) - k * 2 ^ n
    let r := w % 2 ^ n
    if t + r ≥ 2 ^ n then k + 1 else k

/-- The exponent of the last place of a binary32 value (R38). -/
def lsbF32 : Val → Int
  | .fin _ m e => if m = 0 then -149 else max (expOf m e) (-126) - 23
  | _ => -149

/-- Converts a finite magnitude into a float format: rounding by MODE, then the overflow rule of R36. `alwaysSat` is
set for the formats and MX elements that always saturate. -/
def convertFin (f : Flt) (c : Conv) (alwaysSat : Bool) (w : Nat) (lsb : Int) (neg : Bool) (m : Nat) (e : Int) : Nat :=
  if m = 0 then signCode f neg
  else
    let q := max (expOf m e) f.emin - f.fbits
    let k := match c.mode with
      | .nearest => roundMag .nearest neg m e q
      | .zero => roundMag .zero neg m e q
      | .stochastic => stochMag w m e lsb q
    let tooBig : Bool := match maxVal f with
      | .fin _ mm me => decide (cmpVal (.fin false k q) (.fin false mm me) > 0)
      | _ => false
    if tooBig then
      match c.mode with
      | .zero => signCode f neg + f.maxCode
      | _ =>
        if !f.hasInf || alwaysSat || c.sat then signCode f neg + f.maxCode
        else signCode f neg + (2 ^ f.ebits - 1) * 2 ^ f.fbits
    else signCode f neg + gridCode f k q

/-- Converts a value into a float format under a control (R35 to R38): the code, and whether a NaN became +0 (R37). -/
def convertFlt (f : Flt) (c : Conv) (w : Nat) (lsb : Int) (v : Val) : Nat × Bool :=
  match v with
  | .nan => match f.nanCode with
    | some n => (n, false)
    | none => (0, true)
  | .inf n => (signCode f n + (if f.hasInf then (2 ^ f.ebits - 1) * 2 ^ f.fbits else f.maxCode), false)
  | .fin n m e => (convertFin f c (!f.hasInf) w lsb n m e, false)

/-- binary32 bits of a value of the binary32 grid. -/
def toBits32 (v : Val) : W32 := BitVec.ofNat 32 (convertFlt .fp32 Conv.rne 0 0 v).1

/-- The value of binary32 bits. -/
def ofBits32 (x : W32) : Val := decodeFlt .fp32 x.toNat

/-- The binary32 constant with these bits. -/
def c32 (n : Nat) : Val := decodeFlt .fp32 n

/-- The value of a binary64 encoding that is finite. -/
def c64 (n : Nat) : Val :=
  let ex : Nat := n / 2 ^ 52 % 2 ^ 11
  let fr : Nat := n % 2 ^ 52
  if ex = 0 then .fin (n / 2 ^ 63 == 1) fr (-1074) else .fin (n / 2 ^ 63 == 1) (2 ^ 52 + fr) ((ex : Int) - 1075)

/-- 1.0 -/
def one : Val := .fin false 1 0

/-! ### Integer outputs (R494) -/

/-- The integer formats of R494. -/
inductive IntFmt where
  | u8 | u16 | u32 | i32
  deriving DecidableEq, Repr

def IntFmt.lo : IntFmt → Int
  | .u8 => 0 | .u16 => 0 | .u32 => 0 | .i32 => -2147483648

def IntFmt.hi : IntFmt → Int
  | .u8 => 255 | .u16 => 65535 | .u32 => 4294967295 | .i32 => 2147483647

/-- Converts a binary32 value into an integer format (R494): the integer, and whether a NaN became 0 (R37). -/
def convertInt (f : IntFmt) (mode : ConvMode) (w : Nat) (v : Val) : Int × Bool :=
  match v with
  | .nan => (0, true)
  | .inf n => (if n then f.lo else f.hi, false)
  | .fin n m e =>
    let k : Int := match mode with
      | .nearest => (roundMag .nearest n m e 0 : Nat)
      | .zero => (roundMag .zero n m e 0 : Nat)
      | .stochastic => (stochMag w m e (lsbF32 v) 0 : Nat)
    (max f.lo (min f.hi (if n then -k else k)), false)

/-! ### MX blocks (R39) -/

/-- emax of an MX element format (R39). -/
def mxEmax : Flt → Int
  | .e4m3 => 8 | .e5m2 => 15 | .e3m2 => 4 | .e2m3 => 2 | _ => 2

/-- Scales a value by 2^n exactly. -/
def scaleVal (v : Val) (n : Int) : Val :=
  match v with
  | .fin s m e => .fin s m (e + n)
  | v => v

/-- The larger magnitude exponent floor(log2 |v|) of a block's finite nonzero values; `none` when all are zero. -/
def blockExp : List Val → Option Int
  | [] => none
  | v :: vs =>
    match v, blockExp vs with
    | .fin _ m e, r => if m = 0 then r else match r with
      | none => some (expOf m e)
      | some x => some (max x (expOf m e))
    | _, r => r

/-- One MX block: its scale code and element codes. `ws` holds one rounding word an element, `lsbs` the last places
of the sources (R38, R39). -/
def convertBlock (f : Flt) (c : Conv) (vs : List (Val × Nat × Int)) : Nat × List Nat :=
  if vs.any (fun x => !isFinite x.1) then (0xFF, vs.map (fun _ => 0))
  else match blockExp (vs.map Prod.fst) with
    | none => (0x7F, vs.map (fun x => signCode f (signOf x.1)))
    | some ex =>
      let x := max (-127) (min 127 (ex - mxEmax f))
      ((x + 127).toNat, vs.map (fun v => match v.1 with
        | .fin n m e => convertFin f c true v.2.1 (v.2.2 - x) n m (e - x)
        | _ => 0))

end Sys2Proof.Machine
end

