-- ==== Sys2Proof/Machine/Rng.lean ====
section
/-!
DEFINITION. The random block function, draw words, uniform and dropout draws (R53 to R62).
-/
namespace Sys2Proof.Machine

open Sys2Proof

/-- The purpose codes of R54. -/
inductive Purpose where
  | general | rounding | dropout | noise | sampling
  deriving DecidableEq, Repr

def Purpose.code : Purpose → Nat
  | .general => 0 | .rounding => 1 | .dropout => 2 | .noise => 3 | .sampling => 4

/-- The four words of the generator's state. -/
structure RngState where
  x0 : W32
  x1 : W32
  x2 : W32
  x3 : W32
  deriving DecidableEq, Repr

/-- One round of the block function (R56). -/
def rngRound (k0 k1 : W32) (x : RngState) : RngState :=
  let p0 : W64 := x.x0.zeroExtend 64 * 0xCA5E1B3D
  let p1 : W64 := x.x2.zeroExtend 64 * 0xD0E14F6B
  { x0 := field p1 32 32 ^^^ x.x1 ^^^ k0
    x1 := field p1 0 32
    x2 := field p0 32 32 ^^^ x.x3 ^^^ k1
    x3 := (field p0 0 32).rotateLeft 11 }

/-- `n` rounds under a key that steps by the round constants (R56). -/
def rngRounds : Nat → W32 → W32 → RngState → RngState
  | 0, _, _, x => x
  | n + 1, k0, k1, x => rngRounds n (k0 + 0x9A3C5E71) (k1 + 0xB4617C2F) (rngRound k0 k1 x)

/-- The random block of a counter under a seed (R53, R56). -/
def rngBlock (seed : W64) (ctr : BitVec 128) : RngState :=
  rngRounds 10 (field seed 0 32) (field seed 32 32)
    ⟨field ctr 0 32, field ctr 32 32, field ctr 64 32, field ctr 96 32⟩

/-- Word `i` of a block, `i` taken modulo 4. -/
def rngWord (x : RngState) (i : Nat) : W32 :=
  match i % 4 with
  | 0 => x.x0
  | 1 => x.x1
  | 2 => x.x2
  | _ => x.x3

/-- The counter of R53. -/
def rngCounter (p : Purpose) (stream : BitVec 28) (element : W64) (block : W32) : BitVec 128 :=
  BitVec.ofNat 4 p.code ++ stream ++ element ++ block

/-- word(seed, purpose and stream, element, draw) of R57. -/
def drawWord (p : Purpose) (seed : W64) (stream : BitVec 28) (element draw : Nat) : W32 :=
  rngWord (rngBlock seed (rngCounter p stream (BitVec.ofNat 64 element) (BitVec.ofNat 32 (draw / 4)))) draw

/-- The rounding word of an output element (R59): draw 0 of the tensor's rounding stream. -/
def roundingWord (seed : W64) (stream : BitVec 28) (element : Nat) : Nat :=
  (drawWord .rounding seed stream element 0).toNat

/-- Whether a dropout word drops its element (R60). -/
def drops (w threshold : W32) : Bool := decide (w.toNat < threshold.toNat)

/-- The precision of a uniform float by output format (R61). -/
def uniformBits : Flt → Nat
  | .fp32 => 24
  | .fp16 => 11
  | _ => 8

/-- The uniform float of a word: `[0, 1)`, or `(0, 1]` with `oc` (R61). -/
def uniform (p : Nat) (oc : Bool) (w : W32) : Val :=
  let k := w.toNat / 2 ^ (32 - p)
  .fin false (if oc then k + 1 else k) (-(p : Int))

/-- A uniform value over a range (R62). -/
def uniformRange (p : Nat) (oc : Bool) (w : W32) (lo hi : Val) : Val :=
  ffma (uniform p oc w) (fsub hi lo) lo

end Sys2Proof.Machine
end

