-- ==== Sys2Proof/Machine/Special.lean ====
section
/-!
DEFINITION. The special functions by their reference algorithms (R122 to R127), the composite operations (R115), and
Normal values (R63).
-/
namespace Sys2Proof.Machine

open Sys2Proof

/-! ### binary64 operations, nearest-even -/

def dadd (a b : Val) : Val := roundBin b64 .nearest (addX a b)

def dsub (a b : Val) : Val := roundBin b64 .nearest (addX a (negX b))

def dmul (a b : Val) : Val := roundBin b64 .nearest (mulX a b)

def ddiv (a b : Val) : Val := divB b64 a b

/-- `rn32` of R122. -/
def rn32 (v : Val) : Val := roundBin b32 .nearest v

/-- `p * x + c` for each constant in turn, each operation rounded. -/
def horner (x : Val) (p : Val) : List Val → Val
  | [] => p
  | c :: cs => horner x (dadd (dmul p x) c) cs

/-! ### Constants of R123 -/

def kLn2 : Val := c64 0x3FE62E42FEFA39EF
def kLog2e : Val := c64 0x3FF71547652B82FE
def kPi : Val := c64 0x400921FB54442D18
def kTwoRsqrtPi : Val := c64 0x3FF20DD750429B6D
def kExp : List Val := [0x3950_0D01, 0x3AB6_0B61, 0x3C08_8889, 0x3D2A_AAAB, 0x3E2A_AAAB, 0x3F00_0000].map c32
def kSin : List Val := [0xB950_0D01, 0x3C08_8889, 0xBE2A_AAAB].map c32
def kCos : List Val := [0x37D0_0D01, 0xBAB6_0B61, 0x3D2A_AAAB, 0xBF00_0000].map c32
def kLog : List Val := [0x3DBA_2E8C, 0x3DE3_8E39, 0x3E12_4925, 0x3E4C_CCCD, 0x3EAA_AAAB].map c32

/-- floor(π · 2^512). DEDUCED (log entry 20): enough of π for every binary32 argument. -/
def piScaled : Nat :=
  0x3243f6a8885a308d313198a2e03707344a4093822299f31d0082efa98ec4e6c89452821e638d01377be5466cf34e90c6cc0ac29b7c97c50dd3f84d5b5b5470917

/-! ### exp2 and log2 (R124) -/

/-- em1 of R124. -/
def em1 (r : Val) : Val :=
  dadd (dmul (horner r (c32 0x37D0_0D01) kExp) (dmul r r)) r

/-- exp2 of a finite nonzero operand. -/
def exp2Fin (x : Val) : Val :=
  if leV (valOfInt 128) x then .inf false
  else if ltV x (valOfInt (-150)) then .zero false
  else
    let n := rneInt x
    let r := dmul (addX x (valOfInt (-n))) kLn2
    rn32 (scaleVal (dadd one (em1 r)) n)

/-- log2 of a positive finite operand m · 2^e. -/
def log2Fin (m : Nat) (e : Int) : Val :=
  let l : Int := Nat.log2 m
  let m₁ : Val := .fin false m (-l - 1)
  let low := ltV m₁ (.fin false 3 (-2))
  let m₂ := if low then scaleVal m₁ 1 else m₁
  let ex : Int := if low then e + l else e + l + 1
  let f := ddiv (dsub m₂ one) (dadd m₂ one)
  let s := dmul f f
  let q := horner s (c32 0x3D9D_89D9) kLog
  let a := dadd (dmul (dmul q s) f) f
  rn32 (dadd (valOfInt ex) (dmul (dadd a a) kLog2e))

def exp2V : Val → Val
  | .nan => .nan
  | .inf n => if n then .zero false else .inf false
  | .fin n m e => if m = 0 then one else exp2Fin (.fin n m e)

def log2V : Val → Val
  | .nan => .nan
  | .inf n => if n then .nan else .inf false
  | .fin n m e => if m = 0 then .inf true else if n then .nan else log2Fin m e

/-! ### Trigonometric functions (R125) -/

/-- (sin r, cos r) for |r| ≤ π/4. -/
def scPair (r : Val) : Val × Val :=
  let z := dmul r r
  let ps := horner z (c32 0x3638_EF1D) kSin
  let pc := horner z (c32 0xB493_F27E) kCos
  (dadd (dmul (dmul ps z) r) r, dadd (dmul pc z) one)

/-- The quadrant's value of sin, or of cos with `cosine`. -/
def quadrant (cosine : Bool) (n : Int) (sn cs : Val) : Val :=
  match ((if cosine then n + 1 else n) % 4).toNat with
  | 0 => sn
  | 1 => cs
  | 2 => negX sn
  | _ => negX cs

/-- A zero result is +0 but for the exceptions of R125. -/
def plusZero (v : Val) : Val := if isZero v then .zero false else v

/-- The integer nearest x · 2/π, and x − n·π/2 rounded once to binary64. -/
def reducePi (x : Val) : Int × Val :=
  match x with
  | .fin neg m e =>
    let num := fixedAt neg (m * 2 ^ (513 + (max e (-200) + 200).toNat)) 0 0
    let den : Int := (piScaled * 2 ^ 200 : Nat)
    let n := if e < -200 then 0 else (2 * num + den) / (2 * den)
    let half : Val := .fin false piScaled (-513)
    (n, roundBin b64 .nearest (addX x (negX (mulX (valOfInt n) half))))
  | _ => (0, x)

/-- sin or cos of a finite operand that is not a zero. -/
def trigFin (cosine : Bool) (x : Val) : Val :=
  let (n, r) := reducePi x
  let (sn, cs) := scPair r
  plusZero (rn32 (quadrant cosine n sn cs))

/-- sinpi or cospi of a finite operand that is not a zero. -/
def trigPiFin (cosine : Bool) (x : Val) : Val :=
  let n := rneInt (scaleVal x 1)
  let r := dmul (addX x (negX (.fin (decide (n < 0)) n.natAbs (-1)))) kPi
  let (sn, cs) := scPair r
  let v := rn32 (quadrant cosine n sn cs)
  let negInt := signOf x && eqV (valOfInt (floorInt x)) x
  if isZero v then .zero (!cosine && negInt) else v

def sinV : Val → Val
  | .fin n m e => if m = 0 then .zero n else trigFin false (.fin n m e)
  | _ => .nan

def cosV : Val → Val
  | .fin n m e => if m = 0 then one else trigFin true (.fin n m e)
  | _ => .nan

def sinpiV : Val → Val
  | .fin n m e => if m = 0 then .zero n else trigPiFin false (.fin n m e)
  | _ => .nan

def cospiV : Val → Val
  | .fin n m e => if m = 0 then one else trigPiFin true (.fin n m e)
  | _ => .nan

/-! ### Reciprocal and roots (R126) -/

def rcpV : Val → Val
  | .nan => .nan
  | .inf n => .zero n
  | .fin n m e => if m = 0 then .inf n else divB b32 one (.fin n m e)

def sqrtV : Val → Val
  | .nan => .nan
  | .inf n => if n then .nan else .inf false
  | .fin n m e => if m = 0 then .zero n else if n then .nan else sqrtFin b32 m e

def rsqrtV : Val → Val
  | .nan => .nan
  | .inf n => if n then .nan else .zero false
  | .fin n m e => if m = 0 then .inf n else if n then .nan else rsqrtFin b32 m e

/-! ### tanh and erf (R127) -/

/-- The magnitude with the sign of the operand. -/
def copySign (neg : Bool) (v : Val) : Val := if neg then negX (absX v) else absX v

def tanhFin (x : Val) : Val :=
  let a := absX x
  if leV (valOfInt 10) a then copySign (signOf x) one
  else if ltV a (.fin false 1 (-12)) then x
  else
    let z := negX (addX a a)
    let n := rneInt (dmul z kLog2e)
    let r := dsub z (dmul (valOfInt n) kLn2)
    let m := dadd (scaleVal (em1 r) n) (dsub (.fin false 1 n) one)
    let t := ddiv (negX m) (dadd m (valOfInt 2))
    rn32 (copySign (signOf x) t)

/-- Terms k, k + 1, … of the series of erf; `fuel` terms remain. -/
def erfTerms : Nat → Nat → Val → Val → Val → Val
  | 0, _, _, _, s => s
  | fuel + 1, k, y, t, s =>
    let t' := ddiv (dmul t y) (valOfInt k)
    erfTerms fuel (k + 1) y t' (dadd s (ddiv t' (valOfInt (2 * k + 1))))

def erfFin (x : Val) : Val :=
  if leV (valOfInt 4) (absX x) then copySign (signOf x) one
  else rn32 (dmul (erfTerms 63 1 (negX (mulX x x)) x x) kTwoRsqrtPi)

def tanhV : Val → Val
  | .nan => .nan
  | .inf n => copySign n one
  | .fin n m e => if m = 0 then .zero n else tanhFin (.fin n m e)

def erfV : Val → Val
  | .nan => .nan
  | .inf n => copySign n one
  | .fin n m e => if m = 0 then .zero n else erfFin (.fin n m e)

/-! ### Composite operations (R115) -/

def expV (a : Val) : Val := exp2V (fmul a (c32 0x3FB8_AA3B))

def sigmoidV (a : Val) : Val := rcpV (fadd one (expV (negX a)))

def siluV (a : Val) : Val := fmul a (sigmoidV a)

def geluV (a : Val) : Val :=
  let e := erfV (fmul a (c32 0x3F35_04F3))
  fmul (fmul (.fin false 1 (-1)) a) (fadd one e)

def geluTanhV (a : Val) : Val :=
  let u := ffma (fmul a a) (c32 0x3D37_2713) one
  let e := tanhV (fmul (fmul a (c32 0x3F4C_422A)) u)
  fmul (fmul (.fin false 1 (-1)) a) (fadd one e)

/-! ### Normal values (R63) -/

/-- The standard Normal value of two words. -/
def normalZ (w1 w2 : W32) : Val :=
  let u1 : Val := .fin false (w1.toNat / 256 + 1) (-24)
  let u2 : Val := .fin false (w2.toNat / 256) (-24)
  let t := fsub (.zero false) (log2V u1)
  let r := sqrtV (fmul t (c32 0x3FB1_7218))
  fmul r (cospiV (fadd u2 u2))

/-- The Normal value of an element at draw number `d` (R63). -/
def normalValue (seed : W64) (stream : BitVec 28) (element d : Nat) (mu sigma : Val) : Val :=
  ffma (normalZ (drawWord .noise seed stream element d) (drawWord .noise seed stream element (d + 1))) sigma mu

end Sys2Proof.Machine
end

