-- ==== Sys2Proof/Machine/Operands.lean ====
section
/-!
DEFINITION. Operand forms: element formats, tensor descriptors with their layouts, conversion controls, and the
checks of R373 with their failing offsets.
-/
namespace Sys2Proof.Machine

open Sys2Proof

/-! ### Checks (R373, R497) -/

/-- A failed check: the status it calls for and its offset. -/
abbrev Bad := Status × Nat

/-- A check that cannot be made yet: it is on a table whose load on the same ring has not swapped (R137). -/
def notYet : Bad := (.ok, 0)

/-- A check other than a reserved field. -/
def need (ok : Bool) (off : Nat) : List Bad := if ok then [] else [(.illegalDescriptor, off)]

/-- A reserved field must be zero. -/
def needZero (ok : Bool) (off : Nat) : List Bad := if ok then [] else [(.reservedNonzero, off)]

/-- Bits `[hi:lo]` of the descriptor are reserved. -/
def reserved (d : BitVec 1024) (lo hi : Nat) : List Bad := needZero (fieldN d lo (hi - lo + 1) == 0) (lo / 8)

/-- Bits `[hi:lo]` are not used and must be zero. -/
def unused (d : BitVec 1024) (lo hi : Nat) : List Bad := need (fieldN d lo (hi - lo + 1) == 0) (lo / 8)

/-- The first of two failures: the better rank, then the lower offset (R373, R497). -/
def firstBad (a b : Bad) : Bad :=
  if a.1.rank < b.1.rank then a
  else if b.1.rank < a.1.rank then b
  else if b.2 < a.2 then b else a

/-- The failure that is reported. -/
def judge : List Bad → Option Bad
  | [] => none
  | b :: bs => match judge bs with
    | none => some b
    | some c => some (firstBad b c)

/-- A global address in a descriptor: bits `[51:41]` zero (R291) and a multiple of `al`. -/
def addrOk (a al : Nat) : Bool := a / 2 ^ 41 % 2 ^ 11 == 0 && aligned al a

/-- The same for an address that may be 0. -/
def addrOk0 (a al : Nat) : Bool := a == 0 || addrOk a al

/-! ### Element formats (R29) -/

/-- An element format of R29. -/
inductive Fmt where
  | flt (f : Flt)
  | mx (f : Flt)
  | int8 | int4 | u32 | i32 | u8 | u16
  deriving DecidableEq, Repr

/-- The format of a code; `none` for a code that R29 does not list, and for E8M0, which no descriptor may name. -/
def fmtOf (code : Nat) : Option Fmt :=
  match code with
  | 0x01 => some (.flt .fp32)
  | 0x02 => some (.flt .fp16)
  | 0x03 => some (.flt .bf16)
  | 0x10 => some (.flt .e4m3)
  | 0x11 => some (.flt .e5m2)
  | 0x12 => some (.flt .e2m1)
  | 0x20 => some (.mx .e4m3)
  | 0x21 => some (.mx .e5m2)
  | 0x22 => some (.mx .e3m2)
  | 0x23 => some (.mx .e2m3)
  | 0x24 => some (.mx .e2m1)
  | 0x30 => some .int8
  | 0x31 => some .int4
  | 0x38 => some .u32
  | 0x39 => some .i32
  | 0x3A => some .u8
  | 0x3B => some .u16
  | _ => none

/-- A format of other than matrix operands: INT8 and INT4 are nothing else, and the device writes no element of theirs (R29, R40). -/
def Fmt.plain : Fmt → Bool
  | .int8 => false
  | .int4 => false
  | _ => true

/-- Bits of one stored element. -/
def Fmt.bits : Fmt → Nat
  | .flt f => f.bits
  | .mx f => f.bits
  | .int8 => 8 | .int4 => 4 | .u32 => 32 | .i32 => 32 | .u8 => 8 | .u16 => 16

/-- 4-bit formats and MX-FP6 pack several elements into bytes (R30). -/
def Fmt.packed (f : Fmt) : Bool := f.bits == 4 || f.bits == 6

/-- Bytes of one element of a format that is not packed. -/
def Fmt.size (f : Fmt) : Nat := f.bits / 8

def Fmt.isMx : Fmt → Bool
  | .mx _ => true
  | _ => false

/-- Formats that take a conversion control as float outputs (R35). -/
def Fmt.isFloat : Fmt → Bool
  | .flt _ => true
  | .mx _ => true
  | _ => false

/-- Integer outputs of R494. -/
def Fmt.intOut : Fmt → Option IntFmt
  | .u8 => some .u8
  | .u16 => some .u16
  | .u32 => some .u32
  | .i32 => some .i32
  | _ => none

/-- Two's complement of an `n`-bit code. -/
def signedOf (n code : Nat) : Int := if code % 2 ^ n < 2 ^ (n - 1) then (code % 2 ^ n : Nat) else (code % 2 ^ n : Nat) - 2 ^ n

/-- The exact value of an element code with its block's scale code; the scale matters for MX formats only. -/
def elemVal (f : Fmt) (code scale : Nat) : Val :=
  match f with
  | .flt g => decodeFlt g code
  | .mx g => if scale = 0xFF then .nan else scaleVal (decodeFlt g code) ((scale : Int) - 127)
  | .int8 => valOfInt (signedOf 8 code)
  | .int4 => valOfInt (signedOf 4 code)
  | .i32 => valOfInt (signedOf 32 code)
  | .u32 => valOfInt (code : Int)
  | .u8 => valOfInt (code : Int)
  | .u16 => valOfInt (code : Int)

/-- The value widened to binary32 (R107). Where binary32 does not hold it exactly, which only integers above 2^24
and extreme MX scales reach, the spec states no value: a free one (log entry 22). -/
def widen (f : Fmt) (code scale : Nat) : Val :=
  let v := elemVal f code scale
  let r := roundBin b32 .nearest v
  if isFinite v && !(isFinite r && eqV r v) then ofBits32 (Config.widened f.bits code scale) else r

/-- The code of +0 in a format (R175). -/
def Fmt.zeroCode : Fmt → Nat := fun _ => 0

/-! ### Tensor descriptors (R375, R376) -/

/-- A parsed tensor descriptor. -/
structure Tensor where
  base : Nat
  fmt : Fmt
  fmtCode : Nat
  ndim : Nat
  layout : Nat
  bucket : Nat
  /-- Module and offset of the scale tensor; both 0 when absent. -/
  mxModule : Nat
  mxOffset : Nat
  dims : List Nat
  strides : List Nat
  /-- Its descriptor fails a check of its own, so no check relates it to another operand. -/
  bad : Bool
  deriving DecidableEq, Repr

def Tensor.none : Tensor := ⟨0, .flt .fp32, 1, 1, 0, 0, 0, 0, [1], [4], false⟩

/-- Product of the extents. -/
def prod : List Nat → Nat
  | [] => 1
  | n :: ns => n * prod ns

/-- Elements of the logical shape. -/
def Tensor.count (t : Tensor) : Nat := prod t.dims

/-- The last extent. -/
def Tensor.cols (t : Tensor) : Nat := t.dims.getLastD 1

/-- The product of the outer extents (R108). -/
def Tensor.rows (t : Tensor) : Nat := prod t.dims.dropLast

/-- Parses the 64 bytes of a descriptor. -/
def parseTensor (d : BitVec 512) : Tensor :=
  let n := fieldN d 72 3
  let code := fieldN d 64 8
  { base := fieldN d 0 64
    fmt := (fmtOf code).getD (.flt .fp32)
    fmtCode := code
    ndim := n
    layout := fieldN d 75 2
    bucket := fieldN d 77 6
    mxModule := fieldN d 83 12
    mxOffset := fieldN d 95 35 * 64
    dims := (List.range n).map (fun i => fieldN d (130 + 25 * i) 25)
    strides := (List.range n).map (fun i => fieldN d (280 + 38 * i) 38)
    bad := false }

/-- Channels of a block in a blocked layout. -/
def Tensor.blockC (t : Tensor) : Nat := if t.layout = 1 then 16 else 32

/-- Blocked layouts accept these formats (R175). -/
def blockedFmt (t : Tensor) : Bool :=
  match t.fmt with
  | .flt .fp32 => true | .flt .fp16 => true | .flt .bf16 => true | .flt .e4m3 => true | .flt .e5m2 => true
  | .u8 => true | .u16 => true | .u32 => true | .i32 => true
  | .mx .e4m3 => t.layout == 2 | .mx .e5m2 => t.layout == 2
  | _ => false

/-- Extent and stride pairs that a blocked layout spans beyond one pixel's channels: N, channel blocks, H (R174). -/
def Tensor.blockDims (t : Tensor) : List (Nat × Nat) :=
  [(t.dims.getD 0 1, t.strides.getD 0 0), (ceilDiv (t.dims.getD 3 1) t.blockC, t.strides.getD 3 0),
   (t.dims.getD 1 1, t.strides.getD 1 0)]

/-- Bytes of one dense run: a row of a packed format, one element, or a pixel row's W·Cb elements. -/
def Tensor.runBytes (t : Tensor) : Nat :=
  if t.layout ≠ 0 then t.dims.getD 2 1 * t.blockC * t.fmt.size
  else if t.fmt.packed then t.cols * t.fmt.bits / 8
  else t.fmt.size

/-- Extent and stride pairs outside the run. -/
def Tensor.outer (t : Tensor) : List (Nat × Nat) :=
  if t.layout ≠ 0 then t.blockDims
  else if t.fmt.packed then (t.dims.zip t.strides).dropLast
  else t.dims.zip t.strides

/-- Sorts extent and stride pairs by stride, ascending; of equal strides the lesser extent goes first. -/
def insertStride (x : Nat × Nat) : List (Nat × Nat) → List (Nat × Nat)
  | [] => [x]
  | y :: ys => if x.2 < y.2 || (x.2 == y.2 && decide (x.1 ≤ y.1)) then x :: y :: ys else y :: insertStride x ys

def sortStrides : List (Nat × Nat) → List (Nat × Nat)
  | [] => []
  | x :: xs => insertStride x (sortStrides xs)

/-- Each stride is at least the inner extent times its stride (R376). -/
def stridesDistinct (size : Nat) : List (Nat × Nat) → Bool
  | [] => true
  | (n, st) :: rest => decide (size ≤ st) && stridesDistinct (n * st) rest

/-- Distinct elements have distinct bytes, by the check of R376 over all dimensions, those of one index among them. -/
def Tensor.distinct (t : Tensor) : Bool := stridesDistinct t.runBytes (sortStrides t.outer)

/-- No two channel blocks' rows of a blocked tensor share a byte: for every difference of their places but none, the rows lie a
row's bytes apart. A block's padding lanes count among its bytes (R174). -/
def Tensor.apart (t : Tensor) : Bool :=
  let run : Int := t.runBytes
  let st (i : Nat) : Int := t.strides.getD i 0
  let h := t.dims.getD 1 1
  let cb := ceilDiv (t.dims.getD 3 1) t.blockC
  (h == 1 || decide (run ≤ st 1))
  && (List.range (t.dims.getD 0 1)).all (fun dn => (List.range (2 * cb - 1)).all (fun i =>
    let dc : Int := (i : Int) - (cb - 1 : Nat)
    let v : Int := dn * st 0 + dc * st 3
    let q : Int := -(v / st 1)
    [0, q - 1, q, q + 1].all (fun dh =>
      decide (h ≤ dh.natAbs) || (dn == 0 && dc == 0 && dh == 0) || decide (run ≤ (v + dh * st 1).natAbs))))

/-- Bytes from BASE to the end of the bounding byte range (R376). -/
def Tensor.extent (t : Tensor) : Nat := (t.outer.map (fun x => (x.1 - 1) * x.2)).sum + t.runBytes

/-- The scale pointer is absent. -/
def Tensor.noScale (t : Tensor) : Bool := t.mxModule == 0 && t.mxOffset == 0

/-- Base address of the scale tensor. -/
def Tensor.scaleBase (t : Tensor) : Nat := t.mxModule * 2 ^ 52 + t.mxOffset

/-- The checks of R30, R173 to R175, R291 and R376 on a descriptor; `at_` gives the offset reported for the field
whose lowest bit is at a place of the descriptor (R497). -/
def tensorChecksAt (d : BitVec 512) (at_ : Nat → Nat) : List Bad :=
  let t := parseTensor d
  let blocked := t.layout == 1 || t.layout == 2
  let s := t.fmt.size
  let last := t.ndim - 1
  needZero (fieldN d 508 4 == 0) (at_ 508)
  ++ need (addrOk t.base 1) (at_ 0)
  ++ need (fmtOf t.fmtCode).isSome (at_ 64)
  ++ need (decide (1 ≤ t.ndim) && decide (t.ndim ≤ 6)) (at_ 72)
  ++ need (t.layout != 3) (at_ 75)
  ++ (List.range 6).flatMap (fun i =>
      need (decide (i < t.ndim) || fieldN d (130 + 25 * i) 25 == 0) (at_ (130 + 25 * i))
      ++ need (decide (i < t.ndim) || fieldN d (280 + 38 * i) 38 == 0) (at_ (280 + 38 * i))
      ++ need (decide (t.ndim ≤ i) || (t.dims.getD i 0 != 0 && decide (t.dims.getD i 0 ≤ 2 ^ 24))) (at_ (130 + 25 * i)))
  ++ need (if t.fmt.isMx then !t.noScale else t.noScale) (at_ (if t.fmt.isMx then 64 else 83))
  ++ need (!t.fmt.packed || blocked || t.strides.getLastD 0 == 0) (at_ (280 + 38 * last))
  ++ need (!(t.fmt.bits == 4) || t.cols % 2 == 0) (at_ 64)
  ++ need (!t.fmt.isMx || t.cols % 32 == 0) (at_ 64)
  ++ need (!blocked || t.ndim == 4) (at_ 72)
  ++ need (!blocked || blockedFmt t) (at_ 64)
  ++ need (!blocked || t.strides.getD 2 0 == t.blockC * s) (at_ 64)
  ++ need (!blocked || t.strides.getD 0 0 % 64 == 0) (at_ 280)
  ++ need (!blocked || t.strides.getD 1 0 % 64 == 0) (at_ 318)
  ++ need (!blocked || t.strides.getD 3 0 % 64 == 0) (at_ 394)
  ++ need (!blocked || t.distinct || t.apart) (at_ 75)

/-- The same for a descriptor in memory, reached through descriptor byte `off`. -/
def tensorChecks (d : BitVec 512) (off : Nat) : List Bad := tensorChecksAt d (fun _ => off)

/-- A check that relates operands, at the lowest offset of their fields (R497). It says nothing of an operand whose own
descriptor is faulty. -/
def relate (ts : List Tensor) (ok : Bool) (off : Nat) : List Bad := need (ts.any Tensor.bad || ok) off

/-- Byte ranges `[a, a + n)` and `[b, b + m)` of global addresses meet. -/
def overlaps (a n b m : Nat) : Bool := decide (a < b + m) && decide (b < a + n)

/-- Bounding byte ranges of two tensors meet (R376). -/
def Tensor.meets (t u : Tensor) : Bool := overlaps t.base t.extent u.base u.extent

/-- Identical in base, format, layout, shape and strides (R118, R179). -/
def Tensor.identical (t u : Tensor) : Bool :=
  t.base == u.base && t.fmtCode == u.fmtCode && t.layout == u.layout && t.dims == u.dims && t.strides == u.strides

/-! ### Element places -/

/-- Coordinates of a flat row-major index. -/
def unflatten : List Nat → Nat → List Nat
  | [], _ => []
  | n :: ns, i => (i / prod ns) % n :: unflatten ns i

/-- Σ index · stride. -/
def dot : List Nat → List Nat → Nat
  | x :: xs, y :: ys => x * y + dot xs ys
  | _, _ => 0

/-- Row-major index of coordinates (R55). -/
def flatten : List Nat → List Nat → Nat
  | _ :: ns, i :: is => i * prod ns + flatten ns is
  | _, _ => 0

/-- Byte offset of a row's first element in a ROW_MAJOR tensor. -/
def Tensor.rowOffset (t : Tensor) (r : Nat) : Nat := dot (unflatten t.dims.dropLast r) t.strides

/-- Byte offset from BASE of element (row r, column c): R174 in blocked layouts, the strides otherwise. The element
of a packed format is found in the row's bytes. -/
def Tensor.elemOffset (t : Tensor) (r c : Nat) : Nat :=
  if t.layout = 0 then t.rowOffset r + c * t.strides.getLastD 0
  else
    let i := unflatten t.dims.dropLast r
    i.getD 0 0 * t.strides.getD 0 0 + (c / t.blockC) * t.strides.getD 3 0 + i.getD 1 0 * t.strides.getD 1 0
      + i.getD 2 0 * t.blockC * t.fmt.size + (c % t.blockC) * t.fmt.size

/-- Runs of bytes of row `r`: offset from BASE and length, in column order. A packed row and a dense row are one run;
a blocked row has one a channel block. -/
def Tensor.rowRuns (t : Tensor) (r : Nat) : List (Nat × Nat) :=
  if t.layout ≠ 0 then
    (List.range (ceilDiv t.cols t.blockC)).map (fun b => (t.elemOffset r (b * t.blockC), t.blockC * t.fmt.size))
  else if t.fmt.packed then [(t.rowOffset r, t.cols * t.fmt.bits / 8)]
  else if t.strides.getLastD 0 == t.fmt.size || t.cols == 1 then [(t.rowOffset r, t.cols * t.fmt.size)]
  else (List.range t.cols).map (fun c => (t.elemOffset r c, t.fmt.size))

/-- Splits a list of bytes into little-endian numbers of `k` bytes. -/
def chunkNums (k : Nat) : Nat → List Byte → List Nat
  | 0, _ => []
  | n + 1, bs => bytesToNat (bs.take k) :: chunkNums k n (bs.drop k)

/-- Element codes of one byte run that holds `n` of them (R30). -/
def codesOfBytes (f : Fmt) (n : Nat) (bs : List Byte) : List Nat :=
  if f.packed then
    let x := bytesToNat bs
    (List.range n).map (fun i => x / 2 ^ (f.bits * i) % 2 ^ f.bits)
  else chunkNums f.size n bs

/-- The bytes of element codes. -/
def bytesOfCodes (f : Fmt) (cs : List Nat) : List Byte :=
  if f.packed then
    natToBytes (cs.length * f.bits / 8) (cs.foldr (fun c acc => c % 2 ^ f.bits + acc * 2 ^ f.bits) 0)
  else cs.flatMap (natToBytes f.size)

/-- Bytes to write for codes of row `r` from column `c0` on: (offset from BASE, bytes). `c0` starts a channel block or
a packed byte. Padding lanes of a channel block get the +0 code (R175). -/
def Tensor.partWrites (t : Tensor) (r c0 : Nat) (cs : List Nat) : List (Nat × List Byte) :=
  if t.layout ≠ 0 then
    (List.range (ceilDiv cs.length t.blockC)).map (fun b =>
      (t.elemOffset r (c0 + b * t.blockC),
        bytesOfCodes t.fmt ((List.range t.blockC).map (fun j => cs.getD (b * t.blockC + j) 0))))
  else if t.fmt.packed then [(t.rowOffset r + c0 * t.fmt.bits / 8, bytesOfCodes t.fmt cs)]
  else if t.strides.getLastD 0 == t.fmt.size || t.cols == 1 then
    [(t.rowOffset r + c0 * t.fmt.size, bytesOfCodes t.fmt cs)]
  else (List.range cs.length).map (fun c => (t.elemOffset r (c0 + c), natToBytes t.fmt.size (cs.getD c 0)))

/-! ### Conversion into an output format (R35 to R39, R494) -/

/-- MODE of a conversion control; 3 is reserved and refused before use. -/
def convOf (c : Nat) : Conv :=
  ⟨match c % 4 with | 1 => .zero | 2 => .stochastic | _ => .nearest, decide (c / 4 % 2 = 1)⟩

/-- The checks of R35 on a control at descriptor byte `off`; MODE 2 is allowed only with a rounding stream. -/
def convChecks (c off : Nat) (stochastic : Bool) : List Bad :=
  needZero (c / 8 == 0) off ++ need (c % 4 != 3 && (stochastic || c % 4 != 2)) off

/-- What a row of output values becomes: element codes, scale codes (MX), and NaN conversions to be counted
(R37). -/
structure RowCodes where
  codes : List Nat
  scales : List Nat
  nans : Nat
  deriving DecidableEq, Repr

/-- Splits a list into blocks of 32. -/
def blocks32 {α : Type} : Nat → List α → List (List α)
  | 0, _ => []
  | n + 1, xs => xs.take 32 :: blocks32 n (xs.drop 32)

/-- Converts a row of values. Each value comes with its rounding word and the exponent of its last place (R38). For INT8, which
an A may have behind a prologue (R158), the spec states no conversion: each code is free (log entry 22). -/
def convertRow (f : Fmt) (c : Conv) (vs : List (Val × Nat × Int)) : RowCodes :=
  match f with
  | .flt g =>
    let xs := vs.map (fun v => convertFlt g c v.2.1 v.2.2 v.1)
    ⟨xs.map Prod.fst, [], (xs.filter Prod.snd).length⟩
  | .mx g =>
    let bs := (blocks32 (vs.length / 32) vs).map (convertBlock g c)
    ⟨bs.flatMap Prod.snd, bs.map Prod.fst, 0⟩
  | _ =>
    match f.intOut with
    | some g =>
      let xs := vs.map (fun v => convertInt g c.mode v.2.1 v.1)
      ⟨xs.map (fun x => (x.1 % 2 ^ f.bits).toNat), [], (xs.filter Prod.snd).length⟩
    | none => ⟨vs.map (fun v => (Config.integerCode f.bits (toBits32 v.1)).toNat % 2 ^ f.bits), [], 0⟩

/-- A binary32 value with its last place. -/
def withLsb (w : Nat) (v : Val) : Val × Nat × Int := (v, w, lsbF32 v)

/-- Rounding words of a row when MODE is stochastic; zeros otherwise. -/
def rowWords (c : Conv) (seed : W64) (stream : BitVec 28) (first n : Nat) : List Nat :=
  (List.range n).map (fun i => if c.mode == .stochastic then roundingWord seed stream (first + i) else 0)

/-- Converts a row of binary32 values whose first element has logical index `first` (R59). -/
def convertRow32 (f : Fmt) (conv : Nat) (seed : W64) (stream : BitVec 28) (first : Nat) (vs : List Val) : RowCodes :=
  let c := convOf conv
  convertRow f c ((vs.zip (rowWords c seed stream first vs.length)).map (fun x => withLsb x.2 x.1))

end Sys2Proof.Machine
end

