-- ==== Sys2Proof/Machine/Rs.lean ====
section
/-!
DEFINITION. The burst code RS(36,32) over GF(2^8) with its decoder (R248, R249), and CRC-32C (R281).
-/
namespace Sys2Proof.Machine

open Sys2Proof

/-! ### GF(2^8) with polynomial 0x11D (R248) -/

/-- Multiplication by α. -/
def gfX2 (a : Byte) : Byte := (a <<< 1) ^^^ (if bit a 7 then 0x1D else 0)

/-- Sum of a · 2^i over the set bits i of `b` among the `n` lowest. -/
def gfMulFrom : Nat → Byte → Byte → Byte
  | 0, _, _ => 0
  | n + 1, a, b => (if bit b 0 then a else 0) ^^^ gfMulFrom n (gfX2 a) (b >>> 1)

/-- `gmul` of R248. -/
def gfMul (a b : Byte) : Byte := gfMulFrom 8 a b

def gfPow (a : Byte) : Nat → Byte
  | 0 => 1
  | n + 1 => gfMul a (gfPow a n)

/-- α^k. -/
def gfAlpha (k : Nat) : Byte := gfPow 2 k

/-- Inverse of a nonzero element: its 254th power. -/
def gfInv (a : Byte) : Byte := gfPow a 254

/-! ### Encoding (R248) -/

/-- The four check symbols of R248 after the symbols given. -/
def rsCheckFrom (p : Byte × Byte × Byte × Byte) : List Byte → Byte × Byte × Byte × Byte
  | [] => p
  | d :: ds =>
    let f := d ^^^ p.1
    rsCheckFrom (p.2.1 ^^^ gfMul f 0x0F, p.2.2.1 ^^^ gfMul f 0x36, p.2.2.2 ^^^ gfMul f 0x78, gfMul f 0x40) ds

/-- Check symbols of a sector. An all-zero sector has zero check symbols. -/
def rsCheck (data : BitVec 256) : BitVec 32 :=
  if data = 0 then 0
  else
    let p := rsCheckFrom (0, 0, 0, 0) (bvToBytes 32 data)
    p.2.2.2 ++ p.2.2.1 ++ p.2.1 ++ p.1

/-- The codeword of a sector: symbol i in bits `[8i + 7 : 8i]`, data symbols first. -/
def rsEncode (data : BitVec 256) : BitVec 288 := rsCheck data ++ data

/-! ### Decoding (R249) -/

/-- c(x) at `x`, symbols in order from x^35 down. -/
def rsEval (x : Byte) (acc : Byte) : List Byte → Byte
  | [] => acc
  | c :: cs => rsEval x (gfMul acc x ^^^ c) cs

/-- The four syndromes. -/
def rsSyndromes (cw : BitVec 288) : List Byte :=
  let cs := bvToBytes 36 cw
  [rsEval 1 0 cs, rsEval 2 0 cs, rsEval 4 0 cs, rsEval 8 0 cs]

/-- The locator of symbol i: α^(35 − i). -/
def rsLoc (i : Nat) : Byte := gfAlpha (35 - i)

/-- The syndrome S_k of values at two places. -/
def rsSynd (k p q : Nat) (vp vq : Byte) : Byte := gfMul vp (gfPow (rsLoc p) k) ^^^ gfMul vq (gfPow (rsLoc q) k)

/-- Values at places p and q that give S_0 and S_1, when they also give S_2 and S_3. -/
def rsSolve2 (s : List Byte) (p q : Nat) : Option (Byte × Byte) :=
  let s0 := s.getD 0 0
  let s1 := s.getD 1 0
  let vq := gfMul (s1 ^^^ gfMul s0 (rsLoc p)) (gfInv (rsLoc p ^^^ rsLoc q))
  let vp := s0 ^^^ vq
  if rsSynd 2 p q vp vq = s.getD 2 0 ∧ rsSynd 3 p q vp vq = s.getD 3 0 then some (vp, vq) else none

/-- Errors of one symbol: (place, value). -/
def rsSolve1 (s : List Byte) (p : Nat) : Option (Nat × Byte) :=
  let v := s.getD 0 0
  if v ≠ 0 ∧ rsSynd 1 p p v 0 = s.getD 1 0 ∧ rsSynd 2 p p v 0 = s.getD 2 0 ∧ rsSynd 3 p p v 0 = s.getD 3 0 then
    some (p, v)
  else none

/-- The error pattern of R249, as (place, value) pairs: at most two errors without a degraded lane, and with one the
lane's erasure and at most one error. -/
def rsPattern (deg : Option (Fin 36)) (s : List Byte) : Option (List (Nat × Byte)) :=
  match deg with
  | none =>
    match (List.range 36).findSome? (rsSolve1 s) with
    | some e => some [e]
    | none => (List.range 36).findSome? (fun p => (List.range p).findSome? (fun q =>
        match rsSolve2 s q p with
        | some (vq, vp) => if vq ≠ 0 ∧ vp ≠ 0 then some [(q, vq), (p, vp)] else none
        | none => none))
  | some d =>
    match rsSolve1 s d.val with
    | some e => some [e]
    | none => (List.range 36).findSome? (fun p =>
        if p = d.val then none
        else match rsSolve2 s p d.val with
          | some (vp, vd) =>
            if vp = 0 then none else some (if vd = 0 then [(p, vp)] else if p < d.val then [(p, vp), (d.val, vd)]
              else [(d.val, vd), (p, vp)])
          | none => none)

/-- Exclusive-or of symbol values into a codeword. -/
def xorSymbols (cw : BitVec 288) : List (Nat × Byte) → BitVec 288
  | [] => cw
  | (p, v) :: es => xorSymbols (cw ^^^ BitVec.ofNat 288 (v.toNat * 2 ^ (8 * p))) es

/-- What a read finds (R249). -/
inductive RsOutcome where
  | clean
  /-- The corrected codeword and the places corrected. -/
  | corrected (cw : BitVec 288) (places : List Nat)
  | uncorrectable
  deriving DecidableEq, Repr

/-- Decodes a received codeword, taking the degraded lane as an erasure (R249). -/
def rsDecode (deg : Option (Fin 36)) (cw : BitVec 288) : RsOutcome :=
  if cw = 0 then .clean
  else
    let s := rsSyndromes cw
    if s = [0, 0, 0, 0] then .clean
    else match rsPattern deg s with
      | some es => .corrected (xorSymbols cw es) (es.map Prod.fst)
      | none => .uncorrectable

/-! ### CRC-32C (R281) -/

/-- One bit of the reflected CRC. -/
def crcBits : Nat → BitVec 32 → BitVec 32
  | 0, c => c
  | n + 1, c => crcBits n ((c >>> 1) ^^^ (if bit c 0 then 0x82F63B78 else 0))

def crcBytes : List Byte → BitVec 32 → BitVec 32
  | [], c => c
  | b :: bs, c => crcBytes bs (crcBits 8 (c ^^^ b.zeroExtend 32))

/-- CRC-32C of a list of bytes. -/
def crc32c (bs : List Byte) : BitVec 32 := crcBytes bs 0xFFFFFFFF ^^^ 0xFFFFFFFF

end Sys2Proof.Machine
end

