-- ==== Sys2Proof/Machine/Ops.lean ====
section
/-!
DEFINITION. The named operations over State: its maps, host memory, interrupts, routes, error records, and sectors.
-/
namespace Sys2Proof.Machine

open Sys2Proof

/-! ### Reading and replacing parts of State -/

def dieOf (s : State) (d : Nat) : DieBlock := smGet DieBlock.dflt s.dies d
def setDie (s : State) (d : Nat) (v : DieBlock) : State := { s with dies := smSet DieBlock.dflt s.dies d v }
def modDie (s : State) (d : Nat) (f : DieBlock → DieBlock) : State := setDie s d (f (dieOf s d))

def clusterOf (s : State) (d k : Nat) : Cluster := smGet Cluster.dflt s.clusters (d * 8192 + k)
def setCluster (s : State) (d k : Nat) (v : Cluster) : State :=
  { s with clusters := smSet Cluster.dflt s.clusters (d * 8192 + k) v }
def modCluster (s : State) (d k : Nat) (f : Cluster → Cluster) : State := setCluster s d k (f (clusterOf s d k))

def chanOf (s : State) (d c : Nat) : Chan := smGet Chan.dflt s.chans (d * 64 + c)
def setChan (s : State) (d c : Nat) (v : Chan) : State := { s with chans := smSet Chan.dflt s.chans (d * 64 + c) v }
def modChan (s : State) (d c : Nat) (f : Chan → Chan) : State := setChan s d c (f (chanOf s d c))

def ringOf (s : State) (r : Nat) : Ring := smGet Ring.dflt s.hq.rings r
def setRing (s : State) (r : Nat) (v : Ring) : State :=
  { s with hq := { s.hq with rings := smSet Ring.dflt s.hq.rings r v } }
def modRing (s : State) (r : Nat) (f : Ring → Ring) : State := setRing s r (f (ringOf s r))

def vfOf (s : State) (f : Nat) : VfState := smGet VfState.dflt s.hq.vfs f
def setVf (s : State) (f : Nat) (v : VfState) : State :=
  { s with hq := { s.hq with vfs := smSet VfState.dflt s.hq.vfs f v } }

def partOf (s : State) (p : Nat) : Partition := smGet Partition.dflt s.part.parts p
def setPart (s : State) (p : Nat) (v : Partition) : State :=
  { s with part := { s.part with parts := smSet Partition.dflt s.part.parts p v } }
def modPart (s : State) (p : Nat) (f : Partition → Partition) : State := setPart s p (f (partOf s p))

def tableOf (s : State) (p t : Nat) : Table := smGet Table.dflt s.part.tables (p * 64 + t)
def setTable (s : State) (p t : Nat) (v : Table) : State :=
  { s with part := { s.part with tables := smSet Table.dflt s.part.tables (p * 64 + t) v } }
def modTable (s : State) (p t : Nat) (f : Table → Table) : State := setTable s p t (f (tableOf s p t))

def portOf (s : State) (p : Nat) : Port := smGet Port.dflt s.zw.ports p
def setPort (s : State) (p : Nat) (v : Port) : State :=
  { s with zw := { s.zw with ports := smSet Port.dflt s.zw.ports p v } }
def modPort (s : State) (p : Nat) (f : Port → Port) : State := setPort s p (f (portOf s p))

def memberOf (s : State) (i : Nat) : Member := smGet Member.dflt s.zw.members i
def setMember (s : State) (i : Nat) (v : Member) : State :=
  { s with zw := { s.zw with members := smSet Member.dflt s.zw.members i v } }

def codecOf (s : State) (d : Nat) : Codec := smGet Codec.dflt s.codecs d
def setCodec (s : State) (d : Nat) (v : Codec) : State := { s with codecs := smSet Codec.dflt s.codecs d v }
def modCodec (s : State) (d : Nat) (f : Codec → Codec) : State := setCodec s d (f (codecOf s d))

def pwrDieOf (s : State) (d : Nat) : PwrDie := smGet PwrDie.dflt s.pwr.dies d
def setPwrDie (s : State) (d : Nat) (v : PwrDie) : State :=
  { s with pwr := { s.pwr with dies := smSet PwrDie.dflt s.pwr.dies d v } }
def modPwrDie (s : State) (d : Nat) (f : PwrDie → PwrDie) : State := setPwrDie s d (f (pwrDieOf s d))

def zoneOf (s : State) (z : Nat) : Zone := smGet Zone.dflt s.pwr.zones z
def setZone (s : State) (z : Nat) (v : Zone) : State :=
  { s with pwr := { s.pwr with zones := smSet Zone.dflt s.pwr.zones z v } }

def roundOf (s : State) (d : Nat) : DispatchRound := smGet ⟨0, 0, 0, 0⟩ s.part.rounds d
def setRound (s : State) (d : Nat) (v : DispatchRound) : State :=
  { s with part := { s.part with rounds := smSet ⟨0, 0, 0, 0⟩ s.part.rounds d v } }

/-! ### Windows aligned in TL40 (R86, R101, R256, R305) -/

/-- Ticks since `t`; none if `t` lies ahead, as after a backward step of the timeline. -/
def since (now t : Tick) : Nat := if reached now t then elapsed now t else 0

/-- A multiple of 2^log2 ticks is reached at the present tick: the tick is one, or a doubled tick or a forward step has passed one
(R419, R420). -/
def boundaryNow (s : State) (log2 : Nat) : Bool :=
  decide (s.time.now.toNat % 2 ^ log2 < elapsed s.time.now s.time.cameFrom)

/-- A boundary of 2^log2 ticks is reached, and the window in force did not begin at it. -/
def atBoundary (s : State) (log2 : Nat) (began : Tick) : Bool := boundaryNow s log2 && s.time.now != began

/-- An epoch ends at a boundary of the setting in force, and at the first one that a new setting defines (log entry 66). -/
def epochEnds (s : State) (inForce new : Nat) (began : Tick) : Bool :=
  atBoundary s inForce began || atBoundary s new began

/-- Adds to a 64-bit counter of a map of counters. -/
def bump (m : SMap W64) (k n : Nat) : SMap W64 := smSet 0 m k (smGet 0 m k + BitVec.ofNat 64 n)

/-- HBM counters of a die, in the order of R272: HBM_CE, UE, OFFLINE, SCRUB_SECT, PPR_SOFT, PPR_HARD, RFM. -/
def bumpHbm (s : State) (d k : Nat) : State := modDie s d (fun b => { b with hbmCounters := bump b.hbmCounters k 1 })

/-- Bit `i` of a die mask. -/
def hasDie (mask : Byte) (d : Nat) : Bool := bit mask d

/-- The dies of a mask, ascending. -/
def diesOf (mask : Byte) : List Nat := (List.range 8).filter (hasDie mask)

/-- The partition that a die belongs to (R390). -/
def partOfDie (s : State) (d : Nat) : Option Nat := (List.range 8).find? (fun p => hasDie (partOf s p).dies d)

/-! ### Commands -/

/-- Commands of queues, and instances of graph commands. -/
def allCmds (s : State) : List Cmd := s.cmds ++ s.kids

/-- Applies `f` to every one. -/
def mapCmds (s : State) (f : Cmd → Cmd) : State := { s with cmds := s.cmds.map f, kids := s.kids.map f }

def findCmd (s : State) (u : Uid) : Option Cmd := (allCmds s).find? (fun c => c.uid == u)

/-- Replaces the command with this number. -/
def modCmd (s : State) (u : Uid) (f : Cmd → Cmd) : State := mapCmds s (fun c => if c.uid == u then f c else c)

/-- The instances of a REFINE's graph command. -/
def kidsOf (s : State) (u : Uid) : List Cmd := s.kids.filter (fun c => c.parent == some u)

/-- Forgets them. -/
def dropKids (s : State) (u : Uid) : State := { s with kids := s.kids.filter (fun c => c.parent != some u) }

/-- Forgets a command, with its instances. -/
def dropCmd (s : State) (u : Uid) : State := { dropKids s u with cmds := s.cmds.filter (fun c => c.uid != u) }

/-- The command of a queue that a command is or belongs to. -/
def rootOf (s : State) (c : Cmd) : Cmd := (c.parent.bind (findCmd s)).getD c

/-- A tile group of the command runs. -/
def groupsRunning (s : State) (u : Uid) : Bool := s.groups.any (fun g => g.cmd == u && g.running)

/-- Forgets the command's tile groups. -/
def dropGroups (s : State) (u : Uid) : State := { s with groups := s.groups.filter (fun g => g.cmd != u) }

/-- Replaces a command and its instances. -/
def modTree (s : State) (u : Uid) (f : Cmd → Cmd) : State :=
  mapCmds s (fun c => if c.uid == u || c.parent == some u then f c else c)

/-- OPCODE of a descriptor (R371). -/
def opcodeOf (desc : BitVec 1024) : Nat := fieldN desc 0 8

/-- The function that owns a ring (R366). -/
def ringFunction (s : State) (r : Nat) : Nat := fieldN (ringOf s r).cfg 320 6

/-- The ring's partition (R366). -/
def ringPartition (s : State) (r : Nat) : Nat := fieldN (ringOf s r).cfg 328 3

/-! ### Host memory -/

/-- `n` bytes of host memory. An unlisted byte reads as zero (log entry 4). -/
def hostRead (s : State) (addr n : Nat) : List Byte := (List.range n).map (fun i => smGet 0 s.host (addr + i))

/-- Writes bytes at consecutive keys of a byte map. -/
def putBytes (m : SMap Byte) (addr : Nat) : List Byte → SMap Byte
  | [] => m
  | b :: bs => putBytes (smSet 0 m addr b) (addr + 1) bs

def hostWrite (s : State) (addr : Nat) (bs : List Byte) : State := { s with host := putBytes s.host addr bs }

/-! ### Interrupts -/

/-- Sends an MSI-X message, or sets the pending bit of a masked vector (R378). -/
def sendMsix (s : State) (fn vec : Nat) : State :=
  if smGet true s.hq.msixMasked (fn * 2048 + vec) then
    { s with hq := { s.hq with msixPending := smSet false s.hq.msixPending (fn * 2048 + vec) true } }
  else { s with io := { s.io with msix := s.io.msix ++ [(fn, vec)] } }

/-! ### Index words (R365) -/

/-- An index word as a number below twice the ring size. -/
def ixLin (size : Nat) (w : BitVec 17) : Nat := fieldN w 0 16 + (if bit w 16 then size else 0)

/-- Entries from index word `b` forward to index word `a`. -/
def ixDist (size : Nat) (a b : BitVec 17) : Nat := (ixLin size a + 2 * size - ixLin size b) % (2 * size)

/-- The next index word. -/
def ixNext (size : Nat) (w : BitVec 17) : BitVec 17 :=
  let n := (ixLin size w + 1) % (2 * size)
  if n < size then BitVec.ofNat 17 n else BitVec.ofNat 17 (n - size + 65536)

/-- The index word `n` places on. -/
def ixAdd (size : Nat) (w : BitVec 17) (n : Nat) : BitVec 17 :=
  let n := (ixLin size w + n) % (2 * size)
  if n < size then BitVec.ofNat 17 n else BitVec.ofNat 17 (n - size + 65536)

/-! ### Routes (R302) -/

/-- The module's anchor is another module (R308). -/
def isMember (s : State) : Bool := s.zw.id != s.zw.anchorId

/-- The ports that may carry packets to a destination: in its mask, Active and not Draining (R302). -/
def routePorts (s : State) (dst : Nat) : List Nat :=
  (List.range 16).filter (fun p => bit (smGet 0 s.zw.routes dst) p && (portOf s p).stage == .active)

/-- The port that R302 chooses; `none` without a route. -/
def routePort (s : State) (dst tc srcDie : Nat) : Option Nat :=
  let ps := routePorts s dst
  ps[(srcDie + 8 * tc + dst) % ps.length]?

/-- The receive pool of a packet (R284). -/
def poolOf (k : Packet) : Nat := 2 * k.tc.toNat + (if k.type == 8 || k.type == 9 then 1 else 0)

/-- Queues a packet at a port behind the others of its pool. -/
def txPush (s : State) (p : Nat) (k : Packet) : State :=
  modPort s p (fun q => { q with txq := smSet [] q.txq (poolOf k) (smGet [] q.txq (poolOf k) ++ [k]) })

/-- HOP_LIMIT of `ZW_LINK_CFG` (R314). -/
def hopLimit (s : State) : BitVec 4 := field s.zw.linkCfg 0 4

/-- 2^TIMEOUT_LOG2 ticks (R298). -/
def timeoutTicks (s : State) : Nat := 2 ^ fieldN s.zw.linkCfg 4 5

/-- LEN code of a number of data bytes (R287). -/
def lenCode (n : Nat) : BitVec 4 :=
  if n = 0 then 0 else if n ≤ 16 then 1 else if n ≤ 32 then 2 else if n ≤ 64 then 3 else if n ≤ 128 then 4 else 5

/-- A MSG packet of this module (R289, R290). Its TAG names die 0 (log entry 17). -/
def msgPacket (s : State) (kind : BitVec 4) (dst : BitVec 12) (tag : BitVec 16) (addr : BitVec 38)
    (data : List Byte) : Packet where
  type := 0xA
  tc := 0
  hops := hopLimit s
  dst := dst
  src := s.zw.id
  tag := tag
  len := lenCode data.length
  op := kind
  addr := addr
  key := 0
  status := 0
  reserved := false
  data := data
  mask := 0
  stamp := 0
  flow := 0

/-- Sends a MSG packet by its route with something in KEY; `none` without a route. -/
def sendKeyed (s : State) (kind : BitVec 4) (dst : BitVec 12) (tag : BitVec 16) (addr : BitVec 38) (key : W32)
    (data : List Byte) : Option State :=
  (routePort s dst.toNat 0 (tag.toNat / 8192)).map (fun p =>
    txPush s p { msgPacket s kind dst tag addr data with key := key })

/-- Sends a MSG packet by its route; `none` without a route. -/
def sendMsg (s : State) (kind : BitVec 4) (dst : BitVec 12) (tag : BitVec 16) (addr : BitVec 38)
    (data : List Byte) : Option State := sendKeyed s kind dst tag addr 0 data

/-! ### The persistent history (R444, R445) -/

/-- Queues a history write. While the sag inhibit is in force, a log copy that finds 512 entries queued is
dropped (R445). -/
def queueHistory (s : State) (w : HistWrite) : State :=
  let drop := match w with
    | .logCopy _ => s.pwr.inhibit && decide (512 ≤ s.flash.queue.length)
    | _ => false
  if drop then s else { s with flash := { s.flash with queue := s.flash.queue ++ [w] } }

/-! ### The error ring (R430 to R438) -/

/-- Entries of the error ring. -/
def errSize (s : State) : Nat := 2 ^ fieldN s.err.cfg 1 5

def errEnabled (s : State) : Bool := bit s.err.cfg 0

/-- Entries written and not consumed, by the last valid HEAD (R431). -/
def errUsed (s : State) : Nat := ixDist (errSize s) s.err.writeIx s.err.head

/-- Reads HEAD; an invalid one sets BAD_HEAD and leaves the last valid one in force (R431). -/
def errReadHead (s : State) : State :=
  let h : BitVec 17 := bytesToBv 17 (hostRead s s.err.ctrlBase.toNat 4)
  let ok := decide (fieldN h 0 16 < errSize s) && decide (ixDist (errSize s) h s.err.head ≤ errUsed s)
  if ok then { s with err := { s.err with head := h, badHead := false } }
  else { s with err := { s.err with badHead := true } }

/-- Writes one record into the ring with one 64 B write, and sends the message that a DEGRADED or FATAL record
calls for (R430, R438). -/
def errPut (s : State) (r : ErrRec) : State :=
  let ix := s.err.writeIx
  let b := encodeRec r (!bit ix 16)
  let s := hostWrite s (s.err.ringBase.toNat + 64 * fieldN ix 0 16) (bvToBytes 64 b)
  let s := { s with err := { s.err with
    writeIx := ixNext (errSize s) ix, cntWritten := s.err.cntWritten + 1, irqOwed := s.err.irqOwed + 1 } }
  if bit s.err.cfg 27 && (r.cls == .degraded || r.cls == .fatal) then
    let s := sendMsix s 0 (fieldN s.err.cfg 16 11)
    { s with err := { s.err with irqOwed := 0, irqLast := some s.time.now } }
  else s

/-- SEQ `a` comes before SEQ `b` in modular order (R433). -/
def seqBefore (a b : W32) : Bool := decide (0 < (b - a).toNat) && decide ((b - a).toNat < 2 ^ 31)

/-- Adds one dropped record to the pending summary (R432). -/
def countDrop (s : State) (r : ErrRec) : State :=
  let m : Summary := s.err.summary.getD ⟨0, 0, 0, 0, 0, r.seq, r.seq⟩
  let m := { m with firstSeq := if seqBefore r.seq m.firstSeq then r.seq else m.firstSeq
                    lastSeq := if seqBefore m.lastSeq r.seq then r.seq else m.lastSeq }
  let m := match r.cls with
    | .info => { m with info := saturate 32 (m.info + 1) }
    | .corrected => { m with corrected := saturate 32 (m.corrected + 1) }
    | .uncorrected => { m with uncorrected := saturate 32 (m.uncorrected + 1) }
    | .degraded => { m with degraded := saturate 32 (m.degraded + 1) }
    | .fatal => { m with fatal := saturate 32 (m.fatal + 1) }
  { s with err := { s.err with summary := some m, cntDropped := s.err.cntDropped + 1 } }

/-- The summary record of R432, taking the next SEQ (R433). -/
def summaryRec (s : State) (m : Summary) : ErrRec where
  seq := s.err.nextSeq
  cls := .info
  source := .device
  code := 1
  injected := false
  coalesced := none
  cmd := none
  tick := s.time.now
  count := 1
  module := s.zw.id
  die := 0
  d0 := BitVec.ofNat 32 m.corrected ++ BitVec.ofNat 32 m.info
  d1 := BitVec.ofNat 32 m.degraded ++ BitVec.ofNat 32 m.uncorrected
  d2 := BitVec.ofNat 64 m.fatal
  d3 := m.lastSeq ++ m.firstSeq

/-- Writes held fatal records while there is room, oldest first (R431). -/
def errPutHeld : List ErrRec → State → State
  | [], s => { s with err := { s.err with held := [] } }
  | r :: rs, s =>
    if errUsed s < errSize s then errPutHeld rs (errPut s r)
    else { s with err := { s.err with held := r :: rs } }

/-- Room for a record that is not fatal (R431). -/
def errRoom (s : State) : Bool := decide (errUsed s + 16 < errSize s)

/-- Writes held records, then the pending summary, as far as the HEAD in force permits (R431, R432). -/
def errFlush (s : State) : State :=
  let s := errPutHeld s.err.held s
  match s.err.summary with
  | none => s
  | some m =>
    if errRoom s && s.err.held.isEmpty then
      let r := summaryRec s m
      errPut { s with err := { s.err with
        summary := none, nextSeq := s.err.nextSeq + 1, cntCreated := s.err.cntCreated + 1 } } r
    else s

/-- Flushes, and reads HEAD again when something still waits or the next record would find no room (R431). -/
def errPrepare (s : State) (fatal : Bool) : State :=
  let s := errFlush s
  let waits := !s.err.held.isEmpty || s.err.summary.isSome
  let full := if fatal then decide (errSize s ≤ errUsed s) else !errRoom s
  if waits || full then errFlush (errReadHead s) else s

/-- Writes a created record into the ring, holds it, or drops it (R431). -/
def errSubmit (s : State) (r : ErrRec) : State :=
  if r.cls == .fatal then
    if errUsed s < errSize s && s.err.held.isEmpty then errPut s r
    else if s.err.held.length < 64 then { s with err := { s.err with held := s.err.held ++ [r] } }
    else countDrop s r
  else if errRoom s && s.err.held.isEmpty then errPut s r
  else countDrop s r

/-- Writes the buffered records into the ring in creation order, reading HEAD again before one is dropped or held, and
then what is pending (R431, R435). -/
def flushRecords : List ErrRec → State → State
  | [], s => errFlush s
  | r :: rs, s =>
    let s := if errRoom s && s.err.held.isEmpty then s else (let s := errReadHead s; errPutHeld s.err.held s)
    flushRecords rs (errSubmit s r)

/-- The buffer goes into the ring of a module that is its own anchor and whose ring is enabled. -/
def flushBuffer (s : State) : State :=
  if isMember s || !errEnabled s then s
  else flushRecords s.err.buffer { s with err := { s.err with buffer := [] } }

/-- The newest record without CMD = 1 and the list without it (R437). -/
def takeNewestPlain : List ErrRec → Option (ErrRec × List ErrRec)
  | [] => none
  | r :: rs =>
    match takeNewestPlain rs with
    | some (x, ys) => some (x, r :: ys)
    | none => if r.cmd.isNone then some (r, rs) else none

/-- Keeps a created record in the internal buffer of 256 (R435). At a member, a command's record is never dropped:
it displaces the newest record of no command, and waits behind the buffer when there is none (R437). -/
def errBuffer (s : State) (r : ErrRec) : State :=
  if s.err.buffer.length < 256 then { s with err := { s.err with buffer := s.err.buffer ++ [r] } }
  else if isMember s && r.cmd.isSome then
    match takeNewestPlain s.err.buffer with
    | some (x, rest) => countDrop { s with err := { s.err with buffer := rest ++ [r] } } x
    | none => { s with err := { s.err with buffer := s.err.buffer ++ [r] } }
  else countDrop s r

/-- Sends buffered records to the anchor as ERROR packets, in creation order, while it has a route (R436). -/
def sendRecords : List ErrRec → State → State
  | [], s => { s with err := { s.err with buffer := [] } }
  | r :: rs, s =>
    match sendMsg s 5 s.zw.anchorId 0 0 (bvToBytes 64 (encodeRec r false)) with
    | some s' => sendRecords rs s'
    | none => { s with err := { s.err with buffer := r :: rs } }

/-- A member's unsent records go out, then its pending summary (R436). -/
def memberFlush (s : State) : State :=
  if isMember s then
    let s := sendRecords s.err.buffer s
    match s.err.summary with
    | none => s
    | some m =>
      if s.err.buffer.isEmpty then
        let r := summaryRec s m
        sendRecords [r] { s with err := { s.err with
          summary := none, nextSeq := s.err.nextSeq + 1, cntCreated := s.err.cntCreated + 1 } }
      else s
  else s

/-- Gives a record the next SEQ, copies it to the event log, and passes it on to the ring, the buffer or the anchor
(R433, R435, R436, R444). `logCopy` is false for SHUTDOWN, a member's too (R450). A POWER record, one that arrives from a member
too, pulls SMB_SHELF_ALERT_N low (R436, R492). -/
def createRecord (s : State) (r : ErrRec) (logCopy : Bool) : State :=
  let s := if isMember s || !errEnabled s then s else errPrepare s (r.cls == .fatal)
  let r := { r with seq := s.err.nextSeq }
  let s := { s with err := { s.err with nextSeq := s.err.nextSeq + 1, cntCreated := s.err.cntCreated + 1 } }
  let s := if logCopy && (r.cls == .degraded || r.cls == .fatal) then queueHistory s (.logCopy (encodeRec r false)) else s
  let s := if isMember s || !errEnabled s then errBuffer s r else errSubmit s r
  let s := if r.source == .power then { s with pwr := { s.pwr with alertN := false } } else s
  memberFlush s

/-- The record of an event, before SEQ. -/
def eventRec (s : State) (ev : Event) (die : Nat) (inj : Bool) (cmd : Option RecCmd) (d0 d1 d2 d3 : W64) : ErrRec where
  seq := 0
  cls := ev.cls
  source := ev.source
  code := ev.code
  injected := inj
  coalesced := none
  cmd := cmd
  tick := s.time.now
  count := 1
  module := s.zw.id
  die := if ev.source.dieLevel then BitVec.ofNat 3 die else 0
  d0 := d0
  d1 := d1
  d2 := d2
  d3 := d3

/-- The tracker of an occurrence's key (R434). -/
def Tracker.matches (t : Tracker) (r : ErrRec) : Bool :=
  t.source == r.source && t.code == r.code && t.die == r.die && t.injected == r.injected && t.d0 == r.d0

/-- Counts a repeat. -/
def Tracker.hit (t : Tracker) (r : ErrRec) : Tracker :=
  { t with count := t.count + 1, first := if t.count = 0 then r.tick else t.first, last := r.tick
           d1 := r.d1, d2 := r.d2, d3 := r.d3 }

/-- A tracker free for a source: 64 a die for die-level sources, 64 for the others together (R434). -/
def trackerFree (s : State) (r : ErrRec) : Bool :=
  let used := s.err.trackers.filter (fun t =>
    if r.source.dieLevel then t.source.dieLevel && t.die == r.die else !t.source.dieLevel)
  decide (used.length < 64)

/-- The window of 2^log2 ticks that began at `began` is over: the timeline stands in another one. -/
def windowLeft (s : State) (log2 : Nat) (began : Tick) : Bool := s.time.now.toNat / 2 ^ log2 != began.toNat / 2 ^ log2

/-- The coalesced record of a tracker (R434). -/
def trackerRec (s : State) (t : Tracker) : ErrRec where
  seq := 0
  cls := t.cls
  source := t.source
  code := t.code
  injected := t.injected
  coalesced := some t.last
  cmd := none
  tick := t.first
  count := BitVec.ofNat 32 (saturate 32 t.count)
  module := s.zw.id
  die := t.die
  d0 := t.d0
  d1 := t.d1
  d2 := t.d2
  d3 := t.d3

/-- The coalescing window in force after a boundary: a changed COAL_LOG2 takes effect at the next boundary that it defines
(ERR_CFG). -/
def coalAfter (s : State) : Nat :=
  let n := fieldN s.err.cfg 8 5
  if boundaryNow s n || windowLeft s n s.err.coalBegan then n else s.err.coalLog2

/-- The window ends: each tracker with repeats creates its record, and the next window begins. -/
def endCoalWindow (s : State) : State :=
  let ts := s.err.trackers
  let s0 := { s with err := { s.err with trackers := [], coalLog2 := coalAfter s, coalBegan := s.time.now } }
  ts.foldl (fun s t => if t.count = 0 then s else createRecord s (trackerRec s t) true) s0

/-- A window that is over when an occurrence comes ends first, whether or not its boundary has been acted on (R434). -/
def leaveCoalWindow (s : State) : State := if windowLeft s s.err.coalLog2 s.err.coalBegan then endCoalWindow s else s

/-- An occurrence that can coalesce: a first one in its window creates its record at once, a repeat is counted (R434). -/
def occurInWindow (s : State) (r : ErrRec) (logCopy : Bool) : State :=
  if s.err.trackers.any (fun t => t.matches r) then
    { s with err := { s.err with
      trackers := s.err.trackers.map (fun t => if t.matches r then t.hit r else t) } }
  else
    let s := if trackerFree s r then
        { s with err := { s.err with trackers := s.err.trackers ++
          [⟨r.source, r.code, r.die, r.injected, r.d0, r.cls, 0, r.tick, r.tick, r.d1, r.d2, r.d3⟩] } }
      else s
    createRecord s r logCopy

/-- An occurrence: records of commands and FATAL records are never coalesced (R434). -/
def occur (s : State) (r : ErrRec) (logCopy : Bool) : State :=
  if r.cmd.isSome || r.cls == .fatal then createRecord s r logCopy
  else occurInWindow (leaveCoalWindow s) r logCopy

/-- Logs an event of no command. -/
def logEvent (s : State) (ev : Event) (die : Nat) (d0 d1 : W64) : State :=
  occur s (eventRec s ev die false none d0 d1 0 0) true

/-- The fields that name a command in its records (R427). -/
def recCmdOf (s : State) (c : Cmd) : RecCmd where
  ring := BitVec.ofNat 12 c.ring
  function := if c.origin.isSome then 0 else BitVec.ofNat 6 (ringFunction s c.ring)
  ctx := field c.desc 16 16
  opcode := field c.desc 0 8
  seqTag := field c.desc 32 32

/-- Logs a command's event with CMD = 1, for a graph command as its REFINE's; its first record gives the completion's ERR_SEQ
(R428). -/
def logCmd (s : State) (u : Uid) (ev : Event) (die : Nat) (inj : Bool) (d0 d1 d2 d3 : W64) : State :=
  match findCmd s u with
  | none => occur s (eventRec s ev die inj none d0 d1 d2 d3) true
  | some c =>
    let c := rootOf s c
    let q := if isMember s || !errEnabled s then s.err.nextSeq else (errPrepare s false).err.nextSeq
    let s := createRecord s (eventRec s ev die inj (some (recCmdOf s c)) d0 d1 d2 d3) true
    modCmd s c.uid (fun c => if c.errSeq.isNone then { c with errSeq := some q } else c)

/-- Logs for a command when there is one, else as an event of none. -/
def logFor (s : State) (u : Option Uid) (ev : Event) (die : Nat) (inj : Bool) (d0 d1 d2 d3 : W64) : State :=
  match u with
  | some c => logCmd s c ev die inj d0 d1 d2 d3
  | none => occur s (eventRec s ev die inj none d0 d1 d2 d3) true

/-- Logs an ignored register write (R429). -/
def logIgnored (s : State) (offset : Nat) (value : W64) : State :=
  logEvent s evWriteIgnored 0 (BitVec.ofNat 64 offset) value

/-! ### HBM: addresses (R244 to R247) -/

/-- The live channels of a die, ascending. -/
def liveList (s : State) (d : Nat) : List Nat := (List.range 64).filter (fun c => bit (dieOf s d).live c)

/-- Top of memory of a die: 2.5 GiB a live channel (R245). -/
def topOf (s : State) (d : Nat) : Nat := (liveList s d).length * 2684354560

/-- Channel and channel offset of a window offset below the top of memory (R247). -/
def interleave (live : List Nat) (a : Nat) : Nat × Nat :=
  let g := a / 2048
  let row := g / live.length
  let slot := (g + 9 * row) % live.length
  (live.getD slot 0, row * 2048 + a % 2048)

/-- The window offset of a channel offset of a live channel: the inverse of R247. -/
def windowOffset (live : List Nat) (chan coff : Nat) : Nat :=
  let n := live.length
  let row := coff / 2048
  let slot := live.findIdx (· == chan)
  let q := (slot + n * 9 * row - 9 * row) % n
  (row * n + q) * 2048 + coff % 2048

/-- Key of a channel's sector number. -/
def sectorKey (d c i : Nat) : Nat := (d * 64 + c) * 2 ^ 27 + i

def sectorOf (s : State) (d c i : Nat) : Sector := smGet Sector.dflt s.hbm (sectorKey d c i)

def setSector (s : State) (d c i : Nat) (v : Sector) : State :=
  { s with hbm := smSet Sector.dflt s.hbm (sectorKey d c i) v }

/-- Pseudo-channel of a channel's sector number: bit 5 of the channel offset (R244). -/
def pseudoOf (i : Nat) : Nat := i % 2

/-- The degraded lane of a sector's pseudo-channel. -/
def degLane (ch : Chan) (i : Nat) : Option (Fin 36) := if pseudoOf i = 0 then ch.deg0 else ch.deg1

/-! ### HBM: health (R263, R267) -/

/-- Fences a channel for a cause of R429 (R263). -/
def fenceChannel (s : State) (d c : Nat) (cause : W64) : State :=
  if (chanOf s d c).fenced then s
  else
    logEvent (modChan s d c (fun x => { x with fenced := true })) evChannelFenced d (BitVec.ofNat 64 c) cause

/-- The DRAM row of a channel's sector: BANK, ROW and pseudo-channel in one number (log entry 14). -/
def rowKey (d c i : Nat) : Nat := (Config.dramRow d c i).toNat + 2 ^ 24 * (i % 2)

/-- The pending entry of the repair list for a row of a channel (R444). -/
def pendingEntry (d c row : Nat) : W64 :=
  BitVec.ofNat 64 (d + c * 2 ^ 3 + row / 2 ^ 24 * 2 ^ 9 + row % 2 ^ 24 * 2 ^ 10)

/-- Sets STATE of the first entry of the repair list that reads `e`. -/
def setRepairState : List W64 → W64 → BitVec 2 → List W64
  | [], _, _ => []
  | x :: xs, e, v => if x = e then setField x 34 2 v.toNat :: xs else x :: setRepairState xs e v

/-- The repair list as it will be once the writes that wait for the flash have been performed. -/
def repairList (s : State) : List W64 :=
  s.flash.queue.foldl (fun xs w => match w with
    | .addRepair e => if 4096 ≤ xs.length then xs else xs ++ [e]
    | .setRepair e v => setRepairState xs e v
    | _ => xs) s.flash.repairs

/-- Lists a row as pending, once. -/
def listRow (s : State) (d c row : Nat) : State :=
  if (repairList s).contains (pendingEntry d c row) then s else queueHistory s (.addRepair (pendingEntry d c row))

/-- Marks a row faulty: it waits for its soft repair, which lists it; under the inhibit its list entry waits with the held flash
writes (R267, R269). DESIGN CHOICE (log entry 83): a row that has been soft-repaired becomes faulty again with the next event of
R267. -/
def markFaulty (s : State) (d c row : Nat) : State :=
  if (chanOf s d c).faulty.contains row then s
  else
    let s := modChan s d c (fun x => { x with faulty := x.faulty ++ [row] })
    if s.pwr.inhibit then listRow s d c row else s

/-- Counts an uncorrectable read and fences the channel at its limit (R263, R267, R272). -/
def countUe (s : State) (d c i : Nat) (injected : Bool) : State :=
  let s := bumpHbm s d 1
  if injected then s
  else
    let s := markFaulty (modChan s d c (fun x => { x with ueWin := x.ueWin + 1 })) d c (rowKey d c i)
    let lim := (dieOf s d).health.chUeLimit.toNat
    if lim ≠ 0 && decide (lim ≤ (chanOf s d c).ueWin) then fenceChannel s d c 1 else s

/-- Counts a corrected read; a row whose count reaches the limit becomes faulty, symbols of a degraded lane apart
(R267, R272). -/
def countCe (s : State) (d c i : Nat) (injected counts : Bool) : State :=
  let s := bumpHbm s d 0
  if injected then s
  else
    let s := modChan s d c (fun x => { x with ceWin := x.ceWin + 1 })
    if counts then
      let k := rowKey d c i
      let lim := (dieOf s d).health.rowCeLimit.toNat
      let n := smGet 0 (chanOf s d c).rowCe k + 1
      let s := modChan s d c (fun x => { x with rowCe := smSet 0 x.rowCe k n })
      if lim ≠ 0 && decide (lim ≤ n) then markFaulty s d c k else s
    else s

/-- Word 0 of a CORRECTED or UNCORRECTABLE record: channel and pseudo-channel (R429). -/
def chanWord (c i : Nat) : W64 := BitVec.ofNat 64 (c + 64 * pseudoOf i)

/-- Word 2: corrected symbol positions, 6 bits each, 0x3F for none (R429). -/
def placesWord (ps : List Nat) : W64 := BitVec.ofNat 64 (ps.getD 0 0x3F + 64 * ps.getD 1 0x3F)

/-! ### HBM: sectors (R248 to R254) -/

/-- Inverts symbol bits of a burst. -/
def damaged (cw : BitVec 288) (dmg : List (Fin 36 × Byte)) : BitVec 288 :=
  xorSymbols cw (dmg.map (fun x => (x.1.val, x.2)))

/-- A bank of a die: channel, pseudo-channel and bank in one number (log entry 14). -/
def bankKey (d c i : Nat) : Nat := c * 64 + pseudoOf i * 32 + (Config.dramRow d c i).toNat % 32

/-- An access opens its sector's row. An activation is counted for refresh management when another row, or none, was open
(R255, log entry 14). -/
def activate (s : State) (d c i : Nat) : State :=
  let k := bankKey d c i
  let row := (Config.dramRow d c i).toNat / 32 + 1
  modDie s d (fun b =>
    { b with openRows := smSet 0 b.openRows k row
             activations := if smGet 0 b.openRows k = row then b.activations
               else smSet 0 b.activations k (smGet 0 b.activations k + 1) })

/-- What a read of a stored sector finds, with the damage that this burst meets. One found uncorrectable stays so (R249,
R250). -/
def decodeSector (deg : Option (Fin 36)) (sec : Sector) (dmg : List (Fin 36 × Byte)) : RsOutcome :=
  if sec.lost then .uncorrectable else rsDecode deg (damaged sec.code dmg)

/-- Reads a sector of channel `c` by its number: the data, or `none` when it is uncorrectable (R249, R250). -/
def readChan (s : State) (u : Option Uid) (d c i : Nat) (dmg : List (Fin 36 × Byte)) : Option (BitVec 256) × State :=
  let s := activate s d c i
  let sec := sectorOf s d c i
  let deg := degLane (chanOf s d c) i
  let off := BitVec.ofNat 64 (windowOffset (liveList s d) c (32 * i))
  match decodeSector deg sec dmg with
  | .clean => (some (field (damaged sec.code dmg) 0 256), s)
  | .corrected cw ps =>
    let counts := ps.any (fun p => match deg with | some l => p != l.val | none => true)
    let s := countCe s d c i sec.injected counts
    let s := occur s (eventRec s evHbmCorrected d sec.injected none (chanWord c i) off (placesWord ps) 0) true
    (some (field cw 0 256), s)
  | .uncorrectable =>
    let s := countUe (setSector s d c i { sec with lost := true }) d c i sec.injected
    (none, logFor s u evHbmUncorrectable d sec.injected (chanWord c i) off (placesWord []) 0)

/-- The word that an armed injection leaves of a sector: its first KIND data symbols inverted (R271). -/
def injectSector (cw : BitVec 288) (kind : Nat) : BitVec 288 :=
  xorSymbols cw ((List.range kind).map (fun i => (i, 0xFF)))

/-- Stores a sector with its check symbols; an injection armed for the channel damages it (R248, R271). -/
def storeChan (s : State) (d c i : Nat) (data : BitVec 256) : State :=
  let s := activate s d c i
  let inj := (dieOf s d).hbmInj
  if bit inj 31 && fieldN inj 0 6 == c then
    let s := modDie s d (fun b => { b with hbmInj := setField b.hbmInj 31 1 0 })
    setSector s d c i ⟨injectSector (rsEncode data) (fieldN inj 8 2), true, false⟩
  else setSector s d c i ⟨rsEncode data, false, false⟩

/-- What an access to HBM ends in when it is not performed. -/
inductive HbmStop where
  | uncorrectable | offline
  deriving DecidableEq, Repr

/-- A die refuses accesses while it is failed or OFF (R441, log entry 21). -/
def dieRefuses (s : State) (d : Nat) : Bool := (pwrDieOf s d).state != 1

/-- Bytes `[off, off + n)` of a die's window are not wholly below its top of memory (R246). A die that refuses every access has no
top: they end with CHANNEL_OFFLINE (R441). -/
def aboveTopAt (s : State) (d off n : Nat) : Bool := !dieRefuses s d && decide (topOf s d < off + n)

/-- The channel of a window offset is fenced, or its die refuses: the access is counted in HBM_OFFLINE (R263). -/
def offlineAt (s : State) (d off : Nat) : Bool :=
  dieRefuses s d || (chanOf s d (interleave (liveList s d) off).1).fenced

/-- Reads the sector at a window offset below the top of memory (R249, R263). -/
def readSector (s : State) (u : Option Uid) (d off : Nat) (dmg : List (Fin 36 × Byte)) :
    Except HbmStop (BitVec 256) × State :=
  if offlineAt s d off then (.error .offline, bumpHbm s d 2)
  else
    let (c, coff) := interleave (liveList s d) off
    match readChan s u d c (coff / 32) dmg with
    | (some x, s) => (.ok x, s)
    | (none, s) => (.error .uncorrectable, s)

/-- Writes the whole sector at a window offset below the top of memory (R248, R263). -/
def writeSector (s : State) (d off : Nat) (data : BitVec 256) : Except HbmStop Unit × State :=
  if offlineAt s d off then (.error .offline, bumpHbm s d 2)
  else
    let (c, coff) := interleave (liveList s d) off
    (.ok (), storeChan s d c (coff / 32) data)

/-- Replaces the bytes of a sector from `o` on. -/
def mergeSector (x : BitVec 256) (o : Nat) (bs : List Byte) : BitVec 256 :=
  setField x (8 * o) (8 * bs.length) (bytesToNat bs)

/-- A partial write or an atomic as one step: read, merge, write (R253). -/
def rmwSector (s : State) (u : Option Uid) (d off : Nat) (f : BitVec 256 → BitVec 256)
    (dmg : List (Fin 36 × Byte)) : Except HbmStop (BitVec 256) × State :=
  match readSector s u d off dmg with
  | (.error e, s) => (.error e, s)
  | (.ok x, s) =>
    match writeSector s d off (f x) with
    | (.error e, s) => (.error e, s)
    | (.ok (), s) => (.ok x, s)

/-- Atomic operations (R296). -/
inductive AtomicOp where
  | add | max | cas
  deriving DecidableEq, Repr

/-- The value that an atomic stores (R296). -/
def atomicStore (op : AtomicOp) (old x y : W64) : W64 :=
  match op with
  | .add => old + x
  | .max => if old.toNat < x.toNat then x else old
  | .cas => if old = x then y else old

end Sys2Proof.Machine
end

