-- ==== Sys2Proof/Machine/Access.lean ====
section
/-!
DEFINITION. Memory accesses of commands and of requesters outside the die: access checks, local and remote reads and
writes, atomics, and the requests that leave for other modules (R246, R291 to R299, R401).
-/
namespace Sys2Proof.Machine

open Sys2Proof

/-! ### A command's run -/

/-- Why a command's run stops before its end. -/
inductive Stop where
  /-- A check of R373 fails at this offset (R497). -/
  | reject (st : Status) (off : Nat)
  /-- A cause that has been logged. -/
  | fail (st : Status)
  /-- Remote data have been requested; the run is repeated when they have arrived (log entry 18). -/
  | wait
  deriving DecidableEq, Repr

/-- A run of a command: it may stop, and keeps the state either way. -/
abbrev CmdM := ExceptT Stop (StateM State)

/-- What a run knows of its command: the ring command's number, the descriptor it runs (a graph command's own, in a
REFINE), its partition, function, dies, and bound tables. -/
structure Ctx where
  uid : Uid
  desc : BitVec 1024
  sync : BitVec 1024
  part : Nat
  func : Nat
  dies : Byte
  gens : List (Nat × Nat × Nat)
  /-- Run-time rows read at start, and the bound model's record (R153, R154). -/
  rows : Option Nat
  segs : List Nat
  record : List Byte
  deriving DecidableEq, Repr

/-- The partition of a command: its ring's, or at a member the one its dies belong to (R386, log entry 23). -/
def cmdPart (s : State) (c : Cmd) : Nat :=
  match c.origin with
  | none => ringPartition s c.ring
  | some _ => ((diesOf c.dies).head?.bind (partOfDie s)).getD 0

def ctxOf (s : State) (c : Cmd) : Ctx where
  uid := c.uid
  desc := c.desc
  sync := c.sync
  part := cmdPart s c
  func := if c.origin.isSome then 0 else ringFunction s c.ring
  dies := c.dies
  gens := c.gens
  rows := c.rows
  segs := c.segs
  record := c.record

/-- The die that issues a command's requests: the lowest of its dies. -/
def Ctx.die (k : Ctx) : Nat := (diesOf k.dies).headD 0

/-- Sets the command's status and stops; for a cause whose record has been created. -/
def stopWith {α : Type} (st : Status) : CmdM α := throw (.fail st)

/-- Logs COMMAND FAILED with its detail words and stops (R428). -/
def failWith {α : Type} (k : Ctx) (st : Status) (d1 d2 : W64) : CmdM α := do
  modify (fun s => logCmd s k.uid evFailed 0 false (BitVec.ofNat 64 st.code) d1 d2 0)
  throw (.fail st)

/-- Stops on the reported one of failed checks; a check that cannot be made yet lets the command wait. -/
def rejectOn (bs : List Bad) : CmdM Unit :=
  if bs.contains notYet then throw .wait
  else
    match judge bs with
    | none => pure ()
    | some (st, off) => throw (.reject st off)

/-- The checks that a reading makes, with the one that it stops at: for structures that other structures' faults do not keep from
being checked (R373, R497). -/
def tryChecks (m : CmdM (List Bad)) : CmdM (List Bad) :=
  tryCatch m (fun e => match e with
    | .reject st off => pure [(st, off)]
    | e => throw e)

/-- A reading with its answer, or `dflt` and the check that it stops at. -/
def tryWith {α : Type} (dflt : α) (m : CmdM α) : CmdM (α × List Bad) :=
  tryCatch (do pure (← m, [])) (fun e => match e with
    | .reject st off => pure (dflt, [(st, off)])
    | e => throw e)

/-! ### Local access checks -/

/-- A field of a window of `ZW_WIN` (R293). -/
def winBase (w : BitVec 128) : Nat := fieldN w 64 20 * 2097152
def winSize (w : BitVec 128) : Nat := fieldN w 84 20 * 2097152

/-- Access types of a window. -/
inductive AccKind where
  | rd | wr | atom
  deriving DecidableEq, Repr

/-- A window admits an access (R293). -/
def winAdmits (w : BitVec 128) (kind : AccKind) (src : Nat) (key : W32) (addr n : Nat) : Bool :=
  bit w 0 && (match kind with | .rd => bit w 1 | .wr => bit w 2 | .atom => bit w 3)
  && decide (winBase w ≤ addr) && decide (addr + n ≤ winBase w + winSize w)
  && decide (fieldN w 8 12 ≤ src) && decide (src ≤ fieldN w 20 12) && field w 32 32 == key

/-- Some window admits the access. -/
def windowOk (s : State) (kind : AccKind) (src : Nat) (key : W32) (addr n : Nat) : Bool :=
  (List.range 64).any (fun i => winAdmits (smGet 0 s.zw.windows i) kind src key addr n)

/-- Bytes of the table area on a die (R401). -/
def tableArea (s : State) (d : Nat) : Nat :=
  match partOfDie s d with
  | some p => (partOf s p).tblGib.toNat * 2 ^ 30
  | none => 0

/-- Why a local access is refused; `window` names the first address that no window admits. -/
inductive Refused where
  | aboveTop | window (at_ : Nat) | tableArea
  deriving DecidableEq, Repr

/-- Die of a local offset, and offset in its window (R245). -/
def dieOfAddr (a : Nat) : Nat := a / 2 ^ 38 % 8
def winOff (a : Nat) : Nat := a % 2 ^ 38

/-- The first sector of the local bytes `[a, a + n)` that no window admits for partition `p` (R294). Windows are checked
sector by sector: they begin and end on 2 MiB, which no request of a carrier link crosses (R295). -/
def windowRefusal (s : State) (p : Nat) (kind : AccKind) (a n : Nat) : Option Nat :=
  ((List.range ((winOff a % 32 + n + 31) / 32)).find? (fun i =>
    let lo := max a (a / 32 * 32 + 32 * i)
    let hi := min (a + n) (a / 32 * 32 + 32 * (i + 1))
    !windowOk s kind s.zw.id.toNat (partOf s p).key lo (hi - lo))).map (fun i => max a (a / 32 * 32 + 32 * i))

/-- The checks of R246 and R401 on the bytes `[a, a + n)` of this module. An access that a die refuses as a whole passes them: it
ends with CHANNEL_OFFLINE (R441). -/
def placeRefused (s : State) (a n : Nat) : Option Refused :=
  let d := dieOfAddr a
  if dieRefuses s d then none
  else if aboveTopAt s d (winOff a) n then some .aboveTop
  else if winOff a < tableArea s d then some .tableArea
  else none

/-- The checks of R246, R294 and R401 on the local bytes `[a, a + n)` for a command of partition `p`. Of an access to a die of
another partition the windows are checked first: what they accept is then held to the top of memory (R293). -/
def localRefused (s : State) (p : Nat) (kind : AccKind) (a n : Nat) : Option Refused :=
  match if hasDie (partOf s p).dies (dieOfAddr a) then none else windowRefusal s p kind a n with
  | some x => some (.window x)
  | none => placeRefused s a n

/-- Word 0 of a REQUEST_FAILED record (R429). -/
def requestWord (dst : Nat) (type reason status : Nat) : W64 :=
  BitVec.ofNat 64 (dst + type * 2 ^ 12 + reason * 2 ^ 16 + status * 2 ^ 20)

/-- TYPE of the request that carries `n` bytes of an access from address `a` on (R286, R295). -/
def accType (kind : AccKind) (a n : Nat) : Nat :=
  match kind with
  | .rd => 1
  | .wr => if a % 32 = 0 && 32 ≤ n then 2 else 3
  | .atom => 4

/-- Logs a refused local access of `n` bytes of a command and stops with ACCESS_DENIED: a carrier link's refusal is a failed
request, whose DIE is the lower of the link's two (R246, R294, R297, R401, R428). -/
def refuseLocal {α : Type} (k : Ctx) (r : Refused) (kind : AccKind) (a n : Nat) : CmdM α := do
  let d := dieOfAddr a
  match r with
  | .aboveTop => modify (fun s => logCmd s k.uid evAboveTop d false (BitVec.ofNat 64 a) 0 0 0)
  | .window x => modify (fun s => logCmd s k.uid evRequestFailed (min k.die d) false
      (requestWord s.zw.id.toNat (accType kind x (a + n - x)) 0 Status.accessDenied.code)
      (BitVec.ofNat 64 (s.zw.id.toNat * 2 ^ 52 + x)) 0 0)
  | .tableArea =>
    let path := if hasDie k.dies d then 0 else 2
    modify (fun s => logCmd s k.uid evTableArea d false (BitVec.ofNat 64 a) path 0 0)
  throw (.fail .accessDenied)

/-- A command's access that HBM does not perform (R250, R263). -/
def stopHbm {α : Type} (k : Ctx) (off : Nat) : HbmStop → CmdM α
  | .uncorrectable => throw (.fail .memUncorrectable)
  | .offline => failWith k .channelOffline (BitVec.ofNat 64 off) 0

/-- Checks a command's local access. -/
def checkLocal (k : Ctx) (kind : AccKind) (a n : Nat) : CmdM Unit := do
  match localRefused (← get) k.part kind a n with
  | none => pure ()
  | some r => refuseLocal k r kind a n

/-- One sector read of a command. -/
def cmdReadSector (k : Ctx) (d off : Nat) : CmdM (BitVec 256) := do
  let (r, s) := readSector (← get) (some k.uid) d off []
  set s
  match r with
  | .ok x => pure x
  | .error e => stopHbm k off e

/-- One whole-sector write of a command. -/
def cmdWriteSector (k : Ctx) (d off : Nat) (x : BitVec 256) : CmdM Unit := do
  let (r, s) := writeSector (← get) d off x
  set s
  match r with
  | .ok _ => pure ()
  | .error e => stopHbm k off e

/-- One partial write or atomic of a command; answers the old sector. -/
def cmdRmwSector (k : Ctx) (d off : Nat) (f : BitVec 256 → BitVec 256) : CmdM (BitVec 256) := do
  let (r, s) := rmwSector (← get) (some k.uid) d off f []
  set s
  match r with
  | .ok x => pure x
  | .error e => stopHbm k off e

/-- The sectors that bytes `[a, a + n)` touch: sector-aligned address, first byte within it, byte count. -/
def sectorSpans (a n : Nat) : List (Nat × Nat × Nat) :=
  (List.range ((a % 32 + n + 31) / 32)).map (fun i =>
    let lo := max a (a / 32 * 32 + 32 * i)
    let hi := min (a + n) (a / 32 * 32 + 32 * (i + 1))
    (a / 32 * 32 + 32 * i, lo % 32, hi - lo))

/-- Reads local bytes of an access already checked. -/
def readSpans (k : Ctx) : List (Nat × Nat × Nat) → CmdM (List Byte)
  | [] => pure []
  | (a, o, n) :: rest => do
    let x ← cmdReadSector k (dieOfAddr a) (winOff a)
    let more ← readSpans k rest
    pure (((bvToBytes 32 x).drop o).take n ++ more)

/-- Writes local bytes of an access already checked. -/
def writeSpans (k : Ctx) : List (Nat × Nat × Nat) → List Byte → CmdM Unit
  | [], _ => pure ()
  | (a, o, n) :: rest, bs => do
    if n = 32 then cmdWriteSector k (dieOfAddr a) (winOff a) (bytesToBv 256 (bs.take 32))
    else
      let _ ← cmdRmwSector k (dieOfAddr a) (winOff a) (fun x => mergeSector x o (bs.take n))
    writeSpans k rest (bs.drop n)

/-! ### Requests that leave the module (R295, R298) -/

/-- A tag of a die is in use: its request is unanswered, or answered late (R298). -/
def tagBusy (s : State) (d tag : Nat) : Bool :=
  s.zw.requests.any (fun r => r.die == d && r.tag.toNat == tag)

/-- The next free tag of a die, searching upward from where the last search ended. -/
def freeTag (s : State) (d : Nat) : Option Nat :=
  let first := smGet 0 s.zw.nextTag d
  if s.zw.requests.isEmpty then some (first % 8192)
  else (range first 8192).findSome? (fun t => if tagBusy s d (t % 8192) then none else some (t % 8192))

/-- A request packet of R286. -/
structure ReqShape where
  type : BitVec 4
  tc : BitVec 2
  op : BitVec 4
  addr : Nat
  len : BitVec 4
  data : List Byte
  mask : BitVec 128
  deriving DecidableEq, Repr

/-- The flow of a command's packets: its group's, or its own (R329). -/
def flowOf (s : State) (u : Uid) : Nat :=
  match findCmd s u with
  | some c => if c.coll.flow = 0 then u + 1 else c.coll.flow
  | none => u + 1

/-- Sends a request of die `d` with a key; `none` when the die has no free tag, `some none` when there is no route
(R297, R298, R302). -/
def sendRequest (s : State) (d : Nat) (key : W32) (kind : ReqKind) (cmd : Option Uid) (bytes : Nat) (q : ReqShape) :
    Option (Option State) :=
  let dst : BitVec 12 := BitVec.ofNat 12 (q.addr / 2 ^ 52)
  match freeTag s d with
  | none => none
  | some tag =>
    some ((routePort s dst.toNat q.tc.toNat d).map (fun p =>
      let s := txPush s p
        { type := q.type, tc := q.tc, hops := hopLimit s, dst := dst, src := s.zw.id
          tag := BitVec.ofNat 16 (d * 8192 + tag), len := q.len, op := q.op
          addr := BitVec.ofNat 38 (q.addr % 2 ^ 41 / 8), key := key, status := 0, reserved := false, data := q.data
          mask := q.mask, stamp := 0, flow := cmd.elim 0 (flowOf s) }
      { s with zw := { s.zw with
        requests := s.zw.requests ++ [⟨d, BitVec.ofNat 13 tag, cmd, kind, dst, q.type, BitVec.ofNat 64 q.addr, bytes,
          s.time.now, false, p⟩]
        nextTag := smSet 0 s.zw.nextTag d ((tag + 1) % 8192) } }))

/-- An access of the command to one of the sectors of `[a, a + n)` is unanswered (R299). -/
def sectorBusy (s : State) (u : Uid) (a n : Nat) : Bool :=
  s.zw.requests.any (fun r => r.cmd == some u && !r.late
    && decide (r.addr.toNat / 32 * 32 < a + n) && decide (a < (r.addr.toNat + max 1 r.bytes + 31) / 32 * 32))

/-- A command's request: waits for the answer to an earlier one to the same sector and for a tag, or fails with
FABRIC_UNREACHABLE without a route (R297, R298, R299). -/
def cmdRequest (k : Ctx) (kind : ReqKind) (bytes : Nat) (q : ReqShape) : CmdM Unit := do
  let s ← get
  if sectorBusy s k.uid (q.addr / 32 * 32) (max 1 bytes) then throw .wait
  match sendRequest s k.die (partOf s k.part).key kind (some k.uid) bytes q with
  | none => throw .wait
  | some (some s) => set s
  | some none =>
    set (logCmd s k.uid evRequestFailed k.die false
      (requestWord (q.addr / 2 ^ 52) q.type.toNat 0 Status.fabricUnreachable.code) (BitVec.ofNat 64 q.addr) 0 0)
    throw (.fail .fabricUnreachable)

/-- The byte that the command's last write to an address left there. -/
def writtenByte (ws : List (Nat × List Byte)) (a : Nat) : Option Byte :=
  (ws.reverse.find? (fun w => decide (w.1 ≤ a) && decide (a < w.1 + w.2.length))).bind (fun w => w.2[a - w.1]?)

/-- A byte of another module that the command holds: as it last wrote it, else as it arrived (R299, log entry 18). -/
def heldByte (c : Cmd) (a : Nat) : Option Byte := (writtenByte c.written a).or (smGet none c.remoteData a)

/-- Asks for the sectors that hold bytes not yet held (R295); one with an unanswered access of the command waits for it
(R299). -/
def requestSectors (k : Ctx) (tc : BitVec 2) : List (Nat × Nat × Nat) → CmdM Unit
  | [] => pure ()
  | (a, o, n) :: rest => do
    let s ← get
    let held := match findCmd s k.uid with
      | some c => (range (a + o) n).all (fun x => (heldByte c x).isSome)
      | none => true
    if !held && !sectorBusy s k.uid a 32 then cmdRequest k .read 32 ⟨1, tc, 0, a, 2, [], 0⟩
    requestSectors k tc rest

/-- Reads bytes of another module: from what has arrived, else by RD requests (R295, log entry 18). -/
def remoteRead (k : Ctx) (tc : BitVec 2) (a n : Nat) : CmdM (List Byte) := do
  let s ← get
  match findCmd s k.uid with
  | none => pure (List.replicate n 0)
  | some c =>
    match (range a n).mapM (heldByte c) with
    | some bs => pure bs
    | none =>
      requestSectors k tc (sectorSpans a n)
      throw .wait

/-- The pieces of a remote write: whole sectors, up to 256 B in one granule, and parts of one sector (R252, R287, R295). -/
def writePieces : Nat → Nat → List Byte → List (Nat × List Byte)
  | 0, _, _ => []
  | _ + 1, _, [] => []
  | fuel + 1, a, bs =>
    let n := if a % 32 ≠ 0 || bs.length < 32 then min (32 - a % 32) bs.length
      else if a % 2048 + 256 ≤ 2048 && 256 ≤ bs.length then 256
      else if a % 2048 + 128 ≤ 2048 && 128 ≤ bs.length then 128
      else if a % 2048 + 64 ≤ 2048 && 64 ≤ bs.length then 64
      else 32
    (a, bs.take n) :: writePieces fuel (a + n) (bs.drop n)

/-- One request of a remote write: WR for whole sectors, a WRM of one 32 B sector otherwise (R295). -/
def writeReq (tc : BitVec 2) (a : Nat) (bs : List Byte) : ReqShape :=
  if a % 32 = 0 && bs.length % 32 = 0 then ⟨2, tc, 0, a, lenCode bs.length, bs, 0⟩
  else
    let o := a % 32
    ⟨3, tc, 0, a / 32 * 32, 2, List.replicate o 0 ++ bs ++ List.replicate (32 - o - bs.length) 0,
      BitVec.ofNat 128 ((2 ^ bs.length - 1) * 2 ^ o)⟩

/-- Sends the pieces of a write, but for those that a run sent which is being repeated (log entry 18). -/
def sendPieces (k : Ctx) (tc : BitVec 2) : List (Nat × List Byte) → CmdM Unit
  | [] => pure ()
  | (a, bs) :: rest => do
    let ahead := (findCmd (← get) k.uid).elim [] Cmd.ahead
    if ahead.contains (a, bs) then
      modify (fun s => modCmd s k.uid (fun c => { c with ahead := c.ahead.erase (a, bs) }))
    else cmdRequest k .write bs.length (writeReq tc a bs)
    modify (fun s => modCmd s k.uid (fun c => { c with written := c.written ++ [(a, bs)] }))
    sendPieces k tc rest

/-! ### Accesses by global address -/

/-- Module ID of a global address, and its local offset (R291). -/
def moduleOf (a : Nat) : Nat := a / 2 ^ 52 % 4096
def localOf (a : Nat) : Nat := a % 2 ^ 41

def isLocal (s : State) (a : Nat) : Bool := moduleOf a == s.zw.id.toNat

/-- Bytes `[a, a + n)` run past the last local offset of their module, 2^41 - 1: they lie above the top of its die 7, on whatever
module, and the access performs nothing (R246, R291, log entry 79). -/
def checkRange (k : Ctx) (a n : Nat) : CmdM Unit := do
  if a % 2 ^ 52 + n ≤ 2 ^ 41 then pure ()
  else
    modify (fun s => logCmd s k.uid evAboveTop 7 false (BitVec.ofNat 64 (a % 2 ^ 52)) 0 0 0)
    throw (.fail .accessDenied)

/-- Reads `n` bytes at a global address. `tc`: the class of a remote access (R300). -/
def readMem (k : Ctx) (tc : BitVec 2) (a n : Nat) : CmdM (List Byte) := do
  checkRange k a n
  if n = 0 then pure []
  else if isLocal (← get) a then
    checkLocal k .rd (localOf a) n
    readSpans k (sectorSpans (localOf a) n)
  else remoteRead k tc a n

/-- Bytes of a collective's scratch area (R321). -/
def scratchBytes : Nat := 8392704

/-- A COLLECTIVE that has started and not completed. -/
def liveCollective (c : Cmd) : Bool := opcodeOf c.desc == 0x38 && (c.phase == .started || c.phase == .suspended)

/-- Bytes `[a, a + n)` meet a scratch area of the collective that `c` is a member of. -/
def scratchHit (a n : Nat) (c : Cmd) : Bool :=
  liveCollective c && c.coll.areas.any (fun b => overlaps a n b scratchBytes)

/-- A write by anything but the group itself is a breach of R321 for the collectives whose scratch memory it meets; `own` tells of a
collective whether the write is its group's. -/
def breachAt (own : Cmd → Bool) (a n : Nat) (s : State) : State :=
  if (allCmds s).any (scratchHit a n) then
    mapCmds s (fun c => if scratchHit a n c && !own c then { c with coll := { c.coll with breach := true } } else c)
  else s

/-- A write of command `u`, or of the host where there is no such command. -/
def touchScratch (u : Uid) (a n : Nat) (s : State) : State :=
  breachAt (fun c => (findCmd s u).elim false (fun w => w.coll.areas == c.coll.areas)) a n s

/-- A write that arrives from module `src`: a group that has a member there takes it for that member's (log entry 63). -/
def touchFrom (src a n : Nat) (s : State) : State := breachAt (fun c => c.coll.areas.any (fun b => moduleOf b == src)) a n s

/-- The tick of a command's last write (R377). -/
def noteWrite (u : Uid) (s : State) : State := modCmd s u (fun c => { c with lastWrite := some s.time.now })

/-- Writes bytes at a global address. -/
def writeMem (k : Ctx) (tc : BitVec 2) (a : Nat) (bs : List Byte) : CmdM Unit := do
  checkRange k a bs.length
  modify (touchScratch k.uid a bs.length)
  if bs.isEmpty then pure ()
  else if isLocal (← get) a then
    checkLocal k .wr (localOf a) bs.length
    writeSpans k (sectorSpans (localOf a) bs.length) bs
    modify (noteWrite k.uid)
  else sendPieces k tc (writePieces bs.length a bs)

/-- Traffic classes (R300): narrow accesses, tile fetches, bulk copies. -/
def tcSync : BitVec 2 := 1
def tcOperand : BitVec 2 := 2
def tcBulk : BitVec 2 := 3

/-- Reads a little-endian number of `n` bytes. -/
def readNum (k : Ctx) (tc : BitVec 2) (a n : Nat) : CmdM Nat := do
  pure (bytesToNat (← readMem k tc a n))

/-! ### Atomics -/

/-- The 64-bit value at byte `o` of a sector. -/
def sectorWord (x : BitVec 256) (o : Nat) : W64 := field x (8 * o) 64

/-- Performs an atomic on the local counter at offset `a`, whose sector is reachable; answers the old value. -/
def atomicLocal (s : State) (u : Option Uid) (a : Nat) (op : AtomicOp) (x y : W64) : Except HbmStop W64 × State :=
  let o := a % 32
  match rmwSector s u (dieOfAddr a) (winOff a / 32 * 32)
      (fun c => setField c (8 * o) 64 (atomicStore op (sectorWord c o) x y).toNat) [] with
  | (.ok c, s) => (.ok (sectorWord c o), s)
  | (.error e, s) => (.error e, s)

/-! ### Tensors -/

/-- Reads a tensor descriptor reached through descriptor byte `off`, with the checks it fails. -/
def readTensor (k : Ctx) (a off : Nat) : CmdM (Tensor × List Bad) := do
  let d : BitVec 512 := bytesToBv 512 (← readMem k tcSync a 64)
  let b := tensorChecks d off
  pure ({ parseTensor d with bad := !b.isEmpty }, b)

def readRuns (k : Ctx) (tc : BitVec 2) (base : Nat) : List (Nat × Nat) → CmdM (List Byte)
  | [] => pure []
  | (o, n) :: rest => do
    let b ← readMem k tc (base + o) n
    let more ← readRuns k tc base rest
    pure (b ++ more)

/-- Element codes of row `r`; padding lanes are not among them. -/
def readRowCodes (k : Ctx) (tc : BitVec 2) (t : Tensor) (r : Nat) : CmdM (List Nat) := do
  let bs ← readRuns k tc t.base (t.rowRuns r)
  pure (codesOfBytes t.fmt t.cols bs)

/-- Scale codes of row `r` of an MX tensor, one a block (R30). -/
def readRowScales (k : Ctx) (tc : BitVec 2) (t : Tensor) (r : Nat) : CmdM (List Nat) := do
  if t.fmt.isMx then
    let bs ← readMem k tc (t.scaleBase + r * (t.cols / 32)) (t.cols / 32)
    pure (bs.map BitVec.toNat)
  else pure []

/-- Codes of row `r` with their scale codes. -/
def readRow (k : Ctx) (tc : BitVec 2) (t : Tensor) (r : Nat) : CmdM (List (Nat × Nat)) := do
  let cs ← readRowCodes k tc t r
  let ss ← readRowScales k tc t r
  pure ((List.range cs.length).zip cs |>.map (fun x => (x.2, ss.getD (x.1 / 32) 0x7F)))

/-- Values of row `r` widened to binary32. -/
def readRow32 (k : Ctx) (tc : BitVec 2) (t : Tensor) (r : Nat) : CmdM (List Val) := do
  let xs ← readRow k tc t r
  pure (xs.map (fun x => widen t.fmt x.1 x.2))

def writeRuns (k : Ctx) (tc : BitVec 2) (base : Nat) : List (Nat × List Byte) → CmdM Unit
  | [] => pure ()
  | (o, bs) :: rest => do
    writeMem k tc (base + o) bs
    writeRuns k tc base rest

/-- Adds to a command's count of NaN conversions (R37). -/
def addNans (k : Ctx) (n : Nat) : CmdM Unit :=
  modify (fun s => modCmd s k.uid (fun c => { c with nans := c.nans + n }))

/-- Writes codes of row `r` from column `c0` on; an MX row starts at a block. -/
def writePart (k : Ctx) (tc : BitVec 2) (t : Tensor) (r c0 : Nat) (x : RowCodes) : CmdM Unit := do
  writeRuns k tc t.base (t.partWrites r c0 x.codes)
  if t.fmt.isMx then
    writeMem k tc (t.scaleBase + (r * t.cols + c0) / 32) (x.scales.map (fun n => BitVec.ofNat 8 n))
  addNans k x.nans

/-- Writes row `r`. -/
def writeRow (k : Ctx) (tc : BitVec 2) (t : Tensor) (r : Nat) (x : RowCodes) : CmdM Unit := writePart k tc t r 0 x

/-! ### Requests that arrive from another module (R293, R401) -/

/-- The checks on a request from another module for the bytes `[a, a + n)`. -/
def requestRefused (s : State) (kind : AccKind) (src : Nat) (key : W32) (a n : Nat) : Option Refused :=
  if !windowOk s kind src key a n then some (.window a) else placeRefused s a n

end Sys2Proof.Machine
end

