-- ==== Sys2Proof/Machine/Finish.lean ====
section
/-!
DEFINITION. The end of a command: event entries, signals, rejections, its completion record, and a member's COMPLETION
packets (R372, R377, R380, R381, R387, R437).
-/
namespace Sys2Proof.Machine

open Sys2Proof

/-! ### Event entries (R372, R383) -/

/-- The entry of 128 bits at bit `lo`: a counter address, then a value. -/
def entryAt (d : BitVec 1024) (lo : Nat) : Nat × Nat := (fieldN d lo 64, fieldN d (lo + 64) 64)

/-- WAIT_COUNT, SIGNAL_COUNT, FENCE, PLACED (R371). -/
def waitCount (d : BitVec 1024) : Nat := fieldN d 8 3
def signalCount (d : BitVec 1024) : Nat := fieldN d 11 2
def fenceFlag (d : BitVec 1024) : Bool := bit d 13
def placedFlag (d : BitVec 1024) : Bool := bit d 14

/-- A command takes a sync record (R372). -/
def hasSync (d : BitVec 1024) : Bool := waitCount d != 0 || signalCount d != 0 || placedFlag d

/-- Header waits of a command. -/
def headerWaits (desc sync : BitVec 1024) : List (Nat × Nat) :=
  (List.range (waitCount desc)).map (fun i => entryAt sync (64 + 128 * i))

/-- The entries that an EVENT_SIGNAL or EVENT_WAIT carries itself (R383). -/
def ownEntries (desc : BitVec 1024) : List (Nat × Nat) :=
  (List.range (fieldN desc 128 3)).map (fun i => entryAt desc (256 + 128 * i))

/-- The signals of a command in the order in which they are performed: an EVENT_SIGNAL's own, then its header's. -/
def signalEntries (desc sync : BitVec 1024) : List (Nat × Nat) :=
  (if opcodeOf desc == 0x03 then ownEntries desc else [])
  ++ (List.range (signalCount desc)).map (fun i => entryAt sync (576 + 128 * i))

/-- The checks of R372 on entry `i` of `count` at bit `lo`; `off` is the byte that R497 reports for bit 0. -/
def entryChecks (d : BitVec 1024) (lo off count i : Nat) (signal : Bool) : List Bad :=
  let (a, v) := entryAt d lo
  if count ≤ i then need (a == 0) off ++ need (v == 0) (off + 8)
  else need (addrOk a 8) off ++ need (decide (v < 2 ^ 63) && (!signal || v != 0)) (off + 8)

/-! ### Whether a command has failed (R374, R381) -/

/-- A status of 0x0100 or above, DEADLINE_MISSED after all of its work apart. -/
def cmdFailed (c : Cmd) : Bool := c.status.failing && !(c.status == .deadlineMissed && c.worked)

/-- DEADLINE of a descriptor (R371). -/
def deadlineOf (d : BitVec 1024) : Tick := field d 64 40

/-- The deadline has passed: found reached before, or reached now and nonzero (R381, R423). -/
def deadlineReached (s : State) (c : Cmd) : Bool :=
  deadlineOf c.desc != 0 && (c.tickReached || reached s.time.now (deadlineOf c.desc))

/-! ### Signals (R380) -/

/-- 0x8000_0000_0000_0000, the mark of a failed counter. -/
def failedMark : W64 := BitVec.ofNat 64 (2 ^ 63)

/-- Performs one signal, or sends it: an ADD of its increment, or a MAX with the failed mark (R296, R380). -/
def signalOne (k : Ctx) (a inc : Nat) (failed : Bool) : CmdM Unit := do
  let op : AtomicOp := if failed then .max else .add
  let x : W64 := if failed then failedMark else BitVec.ofNat 64 inc
  if isLocal (← get) a then
    checkLocal k .atom (localOf a) 8
    modify (touchScratch k.uid a 8)
    let (r, s) := atomicLocal (← get) (some k.uid) (localOf a) op x 0
    set s
    match r with
    | .ok _ => pure ()
    | .error e => stopHbm k (winOff (localOf a)) e
  else
    cmdRequest k .signal 8 ⟨4, tcSync, if failed then 1 else 0, a, 1, bvToBytes 8 x ++ List.replicate 8 0, 0⟩

/-- A write, atomic or signal of the command is unanswered (R299). -/
def outstanding (s : State) (u : Uid) : Bool :=
  s.zw.requests.any (fun r => r.cmd == some u && !r.late && (r.kind == .write || r.kind == .atomic || r.kind == .signal))

/-- A cause of failure that is found while a command ends: it counts unless the command has failed already (R380). -/
def failEnding (c : Cmd) (st : Status) : Cmd := if cmdFailed c then c else { c with status := st }

/-- RELEASE of an ENCODE (R345). -/
def releaseTick (d : BitVec 1024) : Tick := field d 512 40

/-- An ENCODE that has done its work before its release: its completion and signals are held (R345). -/
def heldForRelease (c : Cmd) : Bool :=
  c.worked && opcodeOf c.desc == 0x40 && releaseTick c.desc != 0 && !c.tickReached

/-! ### Reference pools at completion (R339, R340) -/

def slotOf (s : State) (d i : Nat) : PoolSlot := smGet PoolSlot.dflt (codecOf s d).slots i
def setSlot (s : State) (d i : Nat) (v : PoolSlot) : State :=
  modCodec s d (fun c => { c with slots := smSet PoolSlot.dflt c.slots i v })

/-- Forgets the slots that a command was to set: an access of it has failed, and the marks stay as they are (R340). -/
def dropPool (s : State) (u : Uid) : State := modCmd s u (fun c => { c with pool := [] })

/-- Sets the slots of a command whose writes are all answered (R340, R342). -/
def settlePool (s : State) (u : Uid) : State :=
  match findCmd s u with
  | some c =>
    if c.pool.isEmpty || outstanding s u then s else dropPool (c.pool.foldl (fun s x => setSlot s x.1 x.2.1 x.2.2) s) u
  | none => s

/-- The last write of a command that has done its work is answered: TICK is that write's, or now without one, and a TICK after the deadline gives
DEADLINE_MISSED with the record of R428 (R237, R377, R381). -/
def judgeEnd (s : State) (c : Cmd) : State :=
  let dl := deadlineOf c.desc
  let tick := c.lastWrite.getD s.time.now
  let missed := !cmdFailed c && dl != 0 && later tick dl
  let s := if missed then logCmd s c.uid evFailed 0 false (BitVec.ofNat 64 Status.deadlineMissed.code)
    (tick.zeroExtend 64) (dl.zeroExtend 64) 0 else s
  modCmd s c.uid (fun c =>
    { c with unjudged := false, tick := tick, status := if missed then .deadlineMissed else c.status })

/-- Judges an ending command whose writes are all answered. -/
def judged (s : State) (u : Uid) : State :=
  match findCmd s u with
  | some c => if c.phase == .ending && c.unjudged && !outstanding s u then judgeEnd s c else s
  | none => s

/-- Performs an ending command's signals in order while nothing of it is unanswered, and finishes it after the last
(R299, R380). `fuel` bounds the signals. -/
def advance : Nat → State → Uid → State
  | 0, s, _ => s
  | n + 1, s, u =>
    match findCmd s u with
    | none => s
    | some c =>
      if c.phase != .ending || outstanding s u || heldForRelease c then s
      else
        match (signalEntries c.desc c.sync)[c.signalNext]? with
        | none => modCmd s u (fun c => { c with phase := .finished })
        | some (a, inc) =>
          let (r, t) := (signalOne (ctxOf s c) a inc (cmdFailed c)).run.run s
          match r with
          | .ok _ => advance n (modCmd t u (fun c => { c with signalNext := c.signalNext + 1 })) u
          | .error .wait => s
          | .error (.fail st) =>
            advance n (modCmd t u (fun c => { failEnding c st with signalNext := c.signalNext + 1 })) u
          | .error (.reject st _) =>
            advance n (modCmd t u (fun c => { failEnding c st with signalNext := c.signalNext + 1 })) u

/-- At most four entries of its own and two of its header. -/
def maxSignals : Nat := 7

/-! ### Completion records (R377) -/

/-- The completion record of a command. -/
def completionRec (c : Cmd) (phase : Bool) : BitVec 256 :=
  BitVec.ofBool phase ++ (0#62) ++ BitVec.ofBool c.errSeq.isSome ++ c.steps ++ c.errSeq.getD 0 ++ (0#8)
    ++ field c.desc 16 16 ++ c.tick ++ field c.desc 0 8 ++ c.mode ++ BitVec.ofNat 16 c.status.code
    ++ field c.desc 32 32

/-- A run that waits is repeated from where it began: the remote requests that it sent stay sent, and its repetition does not
send the writes among them again (R298, log entry 18). -/
def waitRun (before after : State) (u : Uid) : State :=
  match findCmd before u, findCmd after u with
  | some b, some a =>
    modCmd { before with zw := after.zw } u (fun c => { c with ahead := a.ahead ++ a.written.drop b.written.length })
  | _, _ => { before with zw := after.zw }

/-- Sets VALID and PARKED of a husk. -/
def setHuskFlags (k : Ctx) (a : Nat) (valid parked : Bool) : CmdM Unit := do
  let x ← readNum k tcSync (a + 5) 1
  writeMem k tcSync (a + 5) [BitVec.ofNat 8 (x / 4 * 4 + (if valid then 1 else 0) + (if parked then 2 else 0))]

/-- Clears VALID of a completing command's husk (R408). One on another module is read and written by requests, which the completion
waits for; one that cannot be reached stays as it is. -/
def clearHusk (s : State) (c : Cmd) : State :=
  let gone (t : State) : State := modCmd t c.uid (fun c => { c with husk := none, remoteData := [] })
  match c.husk with
  | none => s
  | some a =>
    match (setHuskFlags (ctxOf s c) a.toNat false false).run.run s with
    | (.ok _, t) => gone t
    | (.error .wait, t) => waitRun s t c.uid
    | (.error _, t) => gone t

/-- A finished command's completion may go out: no husk of it is VALID, and nothing that it wrote is unanswered (R385, R408). -/
def mayPost (s : State) (u : Uid) : Bool := (findCmd s u).elim false (fun c => c.husk.isNone) && !outstanding s u

/-- Sends the COMPLETION packets of a member's finished commands in order, once no record waits before them
(R387, R437). -/
def postMembers : List Cmd → State → State
  | [], s => s
  | c :: cs, s =>
    match c.origin with
    | some (tag, _) =>
      let s := if c.phase == .finished then clearHusk s c else s
      if c.phase == .finished && mayPost s c.uid && s.err.buffer.isEmpty then
        match sendMsg s 2 s.zw.anchorId (BitVec.ofNat 16 tag) 0
            (bvToBytes 32 (completionRec ((findCmd s c.uid).getD c) false)) with
        | some t => postMembers cs (dropCmd t c.uid)
        | none => postMembers cs s
      else postMembers cs s
    | none => postMembers cs s

def memberPost (s : State) : State := if isMember s then let s := memberFlush s; postMembers s.cmds s else s

/-- Goes on with an ending command. -/
def advanceEnd (s : State) (u : Uid) : State := memberPost (advance maxSignals (judged (settlePool s u) u) u)

/-! ### Ending a command -/

/-- The counts that a command reports when it ends (R37, R73); those of an instance in a graph become its REFINE's. -/
def logCounts (s : State) (u : Uid) : State :=
  match (findCmd s u).filter (fun c => c.parent.isNone) with
  | none => s
  | some c =>
    let s := if c.nans = 0 then s else logCmd s u evNanConverted 0 false (BitVec.ofNat 64 c.nans) 0 0 0
    if c.invalid = 0 then s else logCmd s u evInvalidRows 0 false (BitVec.ofNat 64 c.invalid) 0 0 0

/-- Statuses with which a command logs no record of its own, where no other cause of them has logged one (R428). -/
def Status.silent (st : Status) : Bool := st == .dependencyFailed || st == .aborted

/-- The records of a command that ends with ABORTED by a cause of its own, neither a drain nor its group's failure: FAILED, and its
counts (R37, R428). -/
def logAborted (s : State) (u : Uid) : State :=
  logCounts (logCmd s u evFailed 0 false (BitVec.ofNat 64 Status.aborted.code) 0 0 0) u

/-- MODE of a REFINE's record: BALLAST when the ballast was entered (R239). -/
def refineMode (c : Cmd) : Byte := if c.refine.entered.isSome then 4 else 0

/-- Its work is over: its counts are logged, and signals follow. TICK is that of its last write, or now (R377); of a REFINE MODE tells
of the ballast alone (R239). -/
def endWith (s : State) (u : Uid) (st : Status) (worked : Bool) : State :=
  let s := if st.silent then s else logCounts s u
  advanceEnd (modCmd s u (fun c =>
    { c with status := st, worked := worked, mode := if opcodeOf c.desc == 0x30 then refineMode c else c.mode
             tick := c.lastWrite.getD s.time.now, phase := .ending, remoteData := [], written := [], ahead := [] })) u

/-- Stands among the done units of a command whose work is done and whose end is still to come. -/
def workDone : Nat := 2 ^ 32

/-- Ends a command that has failed; the records it logs have been created, and DEPENDENCY_FAILED and ABORTED log none
(R428). -/
def failCmd (s : State) (u : Uid) (st : Status) : State := endWith s u st false

/-- Ends a command with DEADLINE_MISSED and the record of R428. -/
def missDeadline (s : State) (u : Uid) (worked : Bool) : State :=
  match findCmd s u with
  | none => s
  | some c =>
    endWith (logCmd s u evFailed 0 false (BitVec.ofNat 64 Status.deadlineMissed.code)
      (s.time.now.zeroExtend 64) ((deadlineOf c.desc).zeroExtend 64) 0) u .deadlineMissed worked

/-- Ends a command that has performed all its work, with the status of its opcode: OK becomes OK_RETRIED after a
retry, and a TICK after the deadline gives DEADLINE_MISSED (R100, R237, R374, R381). -/
def doneCmd (s : State) (u : Uid) (st : Status) : State :=
  match findCmd s u with
  | none => s
  | some c =>
    let st := if st == .ok && c.retried then .okRetried else st
    endWith (modCmd s u (fun c => { c with unjudged := true })) u st true

/-- GRAPH's offset in a record about a graph command (R497). -/
def graphOffset : RefinePhase → Nat
  | .graph => 16
  | .final => 56
  | _ => 13

/-- The record of a rejection: of an instance of a graph command one record for all, with the offset of the field that leads to the
graph (R373, R497). -/
def logRejected (s : State) (u : Uid) (st : Status) (off : Nat) : State :=
  let put (off : Nat) : State := logCmd s u evRejected 0 false (BitVec.ofNat 64 (st.code + off * 65536)) 0 0 0
  match (findCmd s u).bind Cmd.parent with
  | none => logCounts (put off) u
  | some p =>
    if (kidsOf s p).any (fun x => x.phase == .finished && x.status.failing) then s
    else put ((findCmd s p).elim 0xFFFF (fun c => graphOffset c.refine.phase))

/-- Rejects a command: the record of R497, its counts if it had begun, no signal (R373). -/
def rejectCmd (s : State) (u : Uid) (st : Status) (off : Nat) : State :=
  let s := dropKids (logRejected s u st off) u
  memberPost (modCmd s u (fun c => { c with status := st, tick := c.lastWrite.getD s.time.now, phase := .finished }))

/-- What a stopped run makes of its command. -/
def settleStop (before after : State) (u : Uid) : Stop → State
  | .reject st off => rejectCmd after u st off
  | .fail st => failCmd after u st
  | .wait => waitRun before after u

end Sys2Proof.Machine
end

