-- ==== Sys2Proof/Machine/Chain.lean ====
section
/-!
DEFINITION. Chain programs: their format and checks, the stage operations, row reductions, row statistics and function
tables (R110 to R116, R120, R121, R129 to R134).
-/
namespace Sys2Proof.Machine

open Sys2Proof

/-! ### Programs (R110, R111) -/

/-- A stage record. -/
structure Stage where
  op : Nat
  srcA : Nat
  srcB : Nat
  srcC : Nat
  dest : Nat
  aux : Nat
  imm : W32
  imm2 : W32
  stream : BitVec 28
  /-- A reserved bit is nonzero. -/
  dirty : Bool
  deriving DecidableEq, Repr

/-- A chain program. -/
structure Program where
  count : Nat
  bcast : List Nat
  redop : Nat
  varMode : Bool
  rms : Bool
  eps : W32
  dirty : Bool
  stages : List Stage
  deriving DecidableEq, Repr

def parseStage (b : BitVec 128) : Stage where
  op := fieldN b 0 8
  srcA := fieldN b 8 4
  srcB := fieldN b 12 4
  srcC := fieldN b 16 4
  dest := fieldN b 20 3
  aux := fieldN b 24 8
  imm := field b 32 32
  imm2 := field b 64 32
  stream := field b 96 28
  dirty := bit b 23 || fieldN b 124 4 != 0

def parseHeader (b : BitVec 128) (stages : List Stage) : Program where
  count := fieldN b 0 4
  bcast := (List.range 4).map (fun i => fieldN b (8 + 2 * i) 2)
  redop := fieldN b 16 4
  varMode := bit b 20
  rms := bit b 21
  eps := field b 32 32
  dirty := fieldN b 4 4 != 0 || fieldN b 22 10 != 0 || fieldN b 64 64 != 0
  stages := stages

/-- Reads a program: its header, then its stage records. -/
def readProgram (k : Ctx) (a : Nat) : CmdM Program := do
  let h : BitVec 128 := bytesToBv 128 (← readMem k tcSync a 16)
  let n := min (fieldN h 0 4) 8
  let bs ← readMem k tcSync (a + 16) (16 * n)
  pure (parseHeader h ((List.range n).map (fun i => parseStage (bytesToBv 128 ((bs.drop (16 * i)).take 16)))))

/-- A program of no stages, for a command without one. -/
def Program.empty : Program := ⟨0, [0, 0, 0, 0], 0, false, false, 0, false, []⟩

/-! ### Operations (R114) -/

/-- Operands that an operation takes; `none` for an unlisted one. -/
def opArity (op : Nat) : Option Nat :=
  match op with
  | 0x01 => some 1
  | 0x02 => some 2 | 0x03 => some 2 | 0x04 => some 2
  | 0x05 => some 3
  | 0x06 => some 2 | 0x07 => some 2 | 0x08 => some 2
  | 0x09 => some 1 | 0x0A => some 1
  | 0x0B => some 3
  | 0x0C => some 2
  | 0x0D => some 3
  | 0x0E => some 1
  | 0x10 => some 1 | 0x11 => some 1 | 0x12 => some 1 | 0x13 => some 1 | 0x14 => some 1 | 0x15 => some 1
  | 0x16 => some 1 | 0x17 => some 1 | 0x18 => some 1 | 0x19 => some 1 | 0x1A => some 1
  | 0x20 => some 1 | 0x21 => some 1 | 0x22 => some 1 | 0x23 => some 1 | 0x24 => some 1
  | 0x28 => some 1
  | 0x30 => some 2 | 0x31 => some 2
  | _ => none

/-- The formats that a CVT stage may name (R114). -/
def cvtFmt (aux : Nat) : Option Flt :=
  match aux with
  | 0x02 => some .fp16 | 0x03 => some .bf16 | 0x10 => some .e4m3 | 0x11 => some .e5m2 | 0x12 => some .e2m1
  | _ => none

/-- A stage names a source, or uses an operand. -/
def Stage.reads (g : Stage) (src : Nat) : Bool := g.srcA == src || g.srcB == src || g.srcC == src

/-- AUX is within the operation's selectors. -/
def auxOk (g : Stage) : Bool :=
  match g.op with
  | 0x0C => decide (g.aux ≤ 5)
  | 0x0E => (cvtFmt g.aux).isSome
  | 0x28 => decide (g.aux ≤ 15)
  | _ => g.aux == 0

/-- Immediates that nothing uses are zero. -/
def immOk (g : Stage) : Bool :=
  (g.reads 9 || g.op == 0x0E || g.imm == 0) && (g.reads 10 || g.op == 0x30 || g.imm2 == 0)
  && (g.op != 0x0E || (fieldN g.imm 8 24 == 0 && fieldN g.imm 0 2 < 2))
  && (g.op == 0x30 || g.op == 0x31 || g.stream == 0)

/-- What a program may use, by its place. -/
structure ProgEnv where
  /-- Bound input slots. -/
  ins : List Bool
  acc : Bool
  stats : Bool
  out0 : Bool
  out1 : Bool
  rows : Nat
  cols : Nat
  deriving DecidableEq, Repr

/-- An operand source is listed and available (R112, R116). -/
def srcOk (e : ProgEnv) (src : Nat) : Bool :=
  if src = 0 then false
  else if src ≤ 4 then e.ins.getD (src - 1) false
  else match src with
    | 5 => e.acc
    | 11 => e.stats | 12 => e.stats
    | 13 => decide (e.rows ≤ 2 ^ 24) && decide (e.cols ≤ 2 ^ 24)
    | 14 => decide (e.rows ≤ 2 ^ 24) && decide (e.cols ≤ 2 ^ 24)
    | 15 => false
    | _ => true

/-- Checks of one stage. `first`: it is stage 0. `t0`, `t1`: an earlier stage kept a value there. -/
def stageOk (e : ProgEnv) (redop : Nat) (first t0 t1 : Bool) (g : Stage) : Bool :=
  match opArity g.op with
  | none => false
  | some n =>
    srcOk e g.srcA && (if 2 ≤ n then srcOk e g.srcB else g.srcB == 0)
    && (if 3 ≤ n then srcOk e g.srcC else g.srcC == 0)
    && auxOk g && immOk g && decide (g.dest ≤ 4)
    && !(first && g.reads 6) && (t0 || !g.reads 7) && (t1 || !g.reads 8)
    && (g.dest != 3 || e.out0) && (g.dest != 4 || (e.out1 && redop == 0))

def stagesOk (e : ProgEnv) (redop : Nat) : Bool → Bool → Bool → List Stage → Bool
  | _, _, _, [] => true
  | first, t0, t1, g :: gs =>
    stageOk e redop first t0 t1 g && stagesOk e redop false (t0 || g.dest == 1) (t1 || g.dest == 2) gs

/-- How many stages write an output slot. -/
def writersOf (p : Program) (dest : Nat) : Nat := (p.stages.filter (fun g => g.dest == dest)).length

/-- EPS is finite and not negative; −0 counts as +0 (R110). -/
def epsOk (eps : W32) : Bool :=
  match ofBits32 eps with
  | .fin n m _ => !n || m == 0
  | _ => false

/-- The checks of R116 on a program reached through descriptor byte `off`. -/
def programChecks (e : ProgEnv) (p : Program) (off : Nat) : List Bad :=
  needZero (!p.dirty && p.stages.all (fun g => !g.dirty)) off
  ++ need (decide (1 ≤ p.count) && decide (p.count ≤ 8)) off
  ++ need (decide (p.redop ≤ 6)) off
  ++ need (epsOk p.eps) off
  ++ need (stagesOk e p.redop true false false p.stages) off
  ++ need (writersOf p 3 == (if e.out0 then 1 else 0)) off
  ++ need (writersOf p 4 == (if e.out1 && p.redop == 0 then 1 else 0)) off
  ++ need (p.stages.all (fun g => g.op != 0x0E || fieldN g.imm 3 5 == 0)) off

/-- The function tables that a program looks up. -/
def programTables (p : Program) : List Nat := (p.stages.filter (fun g => g.op == 0x28)).map Stage.aux

/-- The program reads row statistics. -/
def readsStats (p : Program) : Bool := p.stages.any (fun g => g.reads 11 || g.reads 12)

/-! ### Function tables (R134) -/

/-- Word `i` of a table image. -/
def imageWord (img : List Byte) (i : Nat) : Val := c32 (bytesToNat ((img.drop (4 * i)).take 4))

/-- The LUT stage. -/
def lutStage (img : List Byte) (a : Val) : Val :=
  let t := fmul (fsub a (imageWord img 0)) (imageWord img 1)
  if isNan t then .nan
  else
    let t := fmin (fmax t (.zero false)) (valOfInt 256)
    let i := min (floorInt t).toNat 255
    let f := fsub t (valOfInt i)
    ffma f (fsub (imageWord img (i + 3)) (imageWord img (i + 2))) (imageWord img (i + 2))

/-- The image of a table's generation, among its two banks (R136). -/
def bankImage (s : State) (part t gen : Nat) : List Byte :=
  let tb := tableOf s part t
  if tb.current.gen.toNat = gen then tb.current.image
  else if tb.other.gen.toNat = gen then tb.other.image
  else tb.current.image

/-- The image that a command bound at its start. -/
def boundImage (s : State) (k : Ctx) (t : Nat) : List Byte :=
  match k.gens.find? (fun g => g.1 == t) with
  | some g => bankImage s k.part t g.2.1
  | none => (tableOf s k.part t).current.image

/-! ### Stage evaluation (R112 to R115) -/

/-- The operands of one element. -/
structure Elem where
  ins : List Val
  acc : Val
  mean : Val
  rstd : Val
  row : Nat
  col : Nat
  index : Nat
  deriving DecidableEq, Repr

/-- Results so far. -/
structure Regs where
  prev : Val
  t0 : Val
  t1 : Val
  out0 : Val
  out1 : Val
  nans : Nat
  deriving DecidableEq, Repr

def Regs.start : Regs := ⟨.zero false, .zero false, .zero false, .zero false, .zero false, 0⟩

/-- The value of a source (R112). -/
def sourceVal (x : Elem) (g : Stage) (r : Regs) (src : Nat) : Val :=
  match src with
  | 1 => x.ins.getD 0 (.zero false) | 2 => x.ins.getD 1 (.zero false)
  | 3 => x.ins.getD 2 (.zero false) | 4 => x.ins.getD 3 (.zero false)
  | 5 => x.acc
  | 6 => r.prev
  | 7 => r.t0
  | 8 => r.t1
  | 9 => ofBits32 g.imm
  | 10 => ofBits32 g.imm2
  | 11 => x.mean
  | 12 => x.rstd
  | 13 => valOfInt x.row
  | 14 => valOfInt x.col
  | _ => .zero false

/-- The relation of a CMP stage. -/
def relation (aux : Nat) (a b : Val) : Bool :=
  match aux with
  | 0 => eqV a b
  | 1 => !eqV a b
  | 2 => ltV a b
  | 3 => leV a b
  | 4 => ltV b a
  | _ => leV b a

/-- A CVT stage: the value, and whether a NaN became +0. -/
def cvtStage (aux : Nat) (imm : W32) (a : Val) : Val × Bool :=
  match cvtFmt aux with
  | some f => let x := convertFlt f (convOf (fieldN imm 0 8)) 0 0 a; (decodeFlt f x.1, x.2)
  | none => (a, false)

/-- The result of a stage, and the NaN conversions it made. -/
def stageVal (seed : W64) (luts : List (Nat × List Byte)) (x : Elem) (g : Stage) (a b c : Val) : Val × Nat :=
  match g.op with
  | 0x01 => (a, 0)
  | 0x02 => (fadd a b, 0)
  | 0x03 => (fsub a b, 0)
  | 0x04 => (fmul a b, 0)
  | 0x05 => (ffma a b c, 0)
  | 0x06 => (fdiv a b, 0)
  | 0x07 => (fmax a b, 0)
  | 0x08 => (fmin a b, 0)
  | 0x09 => (absX a, 0)
  | 0x0A => (negX a, 0)
  | 0x0B => (fmin (fmax a b) c, 0)
  | 0x0C => (if relation g.aux a b then one else .zero false, 0)
  | 0x0D => (if isNan a || isZero a then c else b, 0)
  | 0x0E => let r := cvtStage g.aux g.imm a; (r.1, if r.2 then 1 else 0)
  | 0x10 => (sinV a, 0)
  | 0x11 => (cosV a, 0)
  | 0x12 => (sinpiV a, 0)
  | 0x13 => (cospiV a, 0)
  | 0x14 => (exp2V a, 0)
  | 0x15 => (log2V a, 0)
  | 0x16 => (rcpV a, 0)
  | 0x17 => (rsqrtV a, 0)
  | 0x18 => (sqrtV a, 0)
  | 0x19 => (tanhV a, 0)
  | 0x1A => (erfV a, 0)
  | 0x20 => (expV a, 0)
  | 0x21 => (sigmoidV a, 0)
  | 0x22 => (siluV a, 0)
  | 0x23 => (geluV a, 0)
  | 0x24 => (geluTanhV a, 0)
  | 0x28 => (lutStage ((luts.find? (fun l => l.1 == g.aux)).elim [] Prod.snd) a, 0)
  | 0x30 => (if drops (drawWord .dropout seed g.stream x.index 0) g.imm2 then .zero false else fmul a b, 0)
  | _ => (normalValue seed g.stream x.index 0 b a, 0)

/-- Runs the stages on one element. -/
def runStages (seed : W64) (luts : List (Nat × List Byte)) (x : Elem) : List Stage → Regs → Regs
  | [], r => r
  | g :: gs, r =>
    let v := stageVal seed luts x g (sourceVal x g r g.srcA) (sourceVal x g r g.srcB) (sourceVal x g r g.srcC)
    let r := { r with prev := v.1, nans := r.nans + v.2 }
    runStages seed luts x gs (match g.dest with
      | 1 => { r with t0 := v.1 }
      | 2 => { r with t1 := v.1 }
      | 3 => { r with out0 := v.1 }
      | 4 => { r with out1 := v.1 }
      | _ => r)

/-! ### The tree of R48 and reductions (R120, R121) -/

/-- One level of the tree: neighbours combine, an odd one moves up unchanged. -/
def pairUp {α : Type} (f : α → α → α) : List α → List α
  | a :: b :: rest => f a b :: pairUp f rest
  | l => l

/-- Levels of the tree until one is left; `n` bounds them. -/
def treeFrom {α : Type} (f : α → α → α) : Nat → List α → List α
  | 0, l => l
  | n + 1, l => match l with
    | [] => []
    | [a] => [a]
    | l => treeFrom f n (pairUp f l)

/-- The tree over segment partials or leaves; `d` for none. -/
def tree {α : Type} (f : α → α → α) (d : α) (l : List α) : α := (treeFrom f l.length l).headD d

/-- Columns of the greatest values: the lowest index holding the greatest, NaN ignored (R121). -/
def argmaxFrom : Nat → Option (Nat × Val) → List Val → Option (Nat × Val)
  | _, best, [] => best
  | i, best, v :: vs =>
    argmaxFrom (i + 1) (if isNan v then best else match best with
      | none => some (i, v)
      | some (j, w) => if ltV w v then some (i, v) else some (j, w)) vs

def argmax (vs : List Val) : Nat :=
  match argmaxFrom 0 none vs with
  | some (i, _) => i
  | none => 0xFFFFFFFF

/-- SUM, SUMSQ, MAX or MIN of a row. -/
def reduceRow (redop : Nat) (vs : List Val) : Val :=
  match redop with
  | 1 => tree fadd (.zero false) vs
  | 2 => tree fadd (.zero false) (vs.map (fun v => fmul v v))
  | 3 => match vs with | [] => .zero false | v :: vs => vs.foldl fmax v
  | _ => match vs with | [] => .zero false | v :: vs => vs.foldl fmin v

/-! ### Row statistics (R129 to R132) -/

/-- A row statistics record, or a partial of one. -/
structure StatRec where
  n : Val
  shift : Val
  mean : Val
  m2 : Val
  deriving DecidableEq, Repr

/-- One more value of a segment (R129). -/
def statStep (p : StatRec) (x : Val) : StatRec :=
  let d := fsub x p.shift
  let n := fadd p.n one
  let delta := fsub d p.mean
  let mean := fadd p.mean (fdiv delta n)
  ⟨n, p.shift, mean, ffma delta (fsub d mean) p.m2⟩

/-- A segment's partial (R129). -/
def statSegment (xs : List Val) : StatRec :=
  xs.foldl statStep ⟨.zero false, xs.headD (.zero false), .zero false, .zero false⟩

/-- Chan's merge (R130). -/
def statMerge (a b : StatRec) : StatRec :=
  let nt := fadd a.n b.n
  let delta := fadd (fsub b.shift a.shift) (fsub b.mean a.mean)
  ⟨nt, a.shift, fadd a.mean (fmul delta (fdiv b.n nt)),
   fadd (fadd a.m2 b.m2) (fmul (fmul delta delta) (fdiv (fmul a.n b.n) nt))⟩

/-- Cuts a list into pieces of `w`; `n` bounds their number. -/
def pieces {α : Type} (w : Nat) : Nat → List α → List (List α)
  | 0, _ => []
  | n + 1, xs => if xs.isEmpty then [] else xs.take w :: pieces w n (xs.drop w)

/-- The record of a row (R129, R130). -/
def statRow (xs : List Val) : StatRec :=
  let segs := (pieces 256 (xs.length / 256 + 1) xs).map statSegment
  let r := match segs with
    | [] => statSegment []
    | s :: ss => ss.foldl statMerge s
  if xs.all isFinite then r else { r with mean := .nan, m2 := .nan }

/-- The 16 bytes of a record (R131). -/
def statBytes (r : StatRec) : List Byte :=
  bvToBytes 4 (toBits32 r.n) ++ bvToBytes 4 (toBits32 r.shift) ++ bvToBytes 4 (toBits32 r.mean) ++ bvToBytes 4 (toBits32 r.m2)

def parseStat (bs : List Byte) : StatRec :=
  ⟨imageWord bs 0, imageWord bs 1, imageWord bs 2, imageWord bs 3⟩

/-- STAT_MEAN and STAT_RSTD of a record (R132). -/
def statOperands (p : Program) (r : StatRec) : Val × Val :=
  let mu := fadd r.mean r.shift
  let var := if p.varMode then (if eqV r.n one then .zero false else fdiv r.m2 (fsub r.n one)) else fdiv r.m2 r.n
  let var := if isNan var then var else if ltV var (.zero false) || isZero var then .zero false else var
  let eps := let e := ofBits32 p.eps; if isZero e then .zero false else e
  let rstd := if p.rms then rsqrtV (fadd (ffma mu mu var) eps) else rsqrtV (fadd var eps)
  (mu, rstd)

end Sys2Proof.Machine
end

