-- ==== Sys2Proof/Machine/Vec.lean ====
section
/-!
DEFINITION. VECCHAIN, REDUCE, RANDOM and SAMPLE_TOKENS: their checks, units and results (R65 to R74, R117 to R121).
-/
namespace Sys2Proof.Machine

open Sys2Proof

/-! ### Shared by the opcodes -/

/-- Bits `[hi:lo]` of a command's descriptor as a number. -/
def Ctx.field (k : Ctx) (lo w : Nat) : Nat := fieldN k.desc lo w

/-- A global address field of a descriptor at bit `lo` (R291), a multiple of `al`. -/
def addrCheck (d : BitVec 1024) (lo al : Nat) : List Bad := need (addrOk (fieldN d lo 64) al) (lo / 8)

/-- The same where 0 means absent. -/
def addrCheck0 (d : BitVec 1024) (lo al : Nat) : List Bad := need (addrOk0 (fieldN d lo 64) al) (lo / 8)

/-- Reads the tensor whose descriptor address is at bit `lo`; an absent one (0) reads as no tensor. -/
def tensorAt (k : Ctx) (lo : Nat) : CmdM (Option Tensor × List Bad) := do
  let a := k.field lo 64
  if a = 0 then pure (none, [])
  else
    let (t, b) ← readTensor k a (lo / 8)
    pure (some t, b)

/-- Reads the tensor of a slot that must be bound. -/
def tensorReq (k : Ctx) (lo : Nat) : CmdM (Tensor × List Bad) := do
  readTensor k (k.field lo 64) (lo / 8)

/-- An earlier TABLE_LOAD of the command's ring to this table has not swapped (R137). -/
def tableLoading (s : State) (k : Ctx) (t : Nat) : Bool :=
  match findCmd s k.uid with
  | some c => c.origin.isNone && s.cmds.any (fun x => x.ring == c.ring && x.origin.isNone && decide (x.sub < c.sub)
      && opcodeOf x.desc == 0x50 && fieldN x.desc 128 8 == t && x.phase != .finished)
  | none => false

/-- A table that the command uses has been swapped in (R137) and is not empty (R136). -/
def tableReady (s : State) (k : Ctx) (t off : Nat) : List Bad :=
  if tableLoading s k t then [notYet] else need ((tableOf s k.part t).current.gen != 0) off

/-- Rows of unit `u` when a unit is 64 rows (R411). -/
def unitRows (rows u : Nat) : List Nat := range (64 * u) (min 64 (rows - 64 * u))

/-- All values of a tensor in logical order. -/
def readAll32 (k : Ctx) (tc : BitVec 2) (t : Tensor) : Nat → Nat → CmdM (List Val)
  | 0, _ => pure []
  | n + 1, r => do
    let x ← readRow32 k tc t r
    let more ← readAll32 k tc t n (r + 1)
    pure (x ++ more)

/-! ### VECCHAIN and REDUCE -/

/-- What a VECCHAIN runs over (R117), REDUCE included (R119). -/
structure VecPlan where
  prog : Program
  seed : W64
  ins : List (Option Tensor)
  out0 : Option Tensor
  out1 : Option Tensor
  /-- Record array of STATS; 0 = none. -/
  recs : Nat
  /-- Records that STAT sources read; 0 = none. -/
  stats : Nat
  dims : List Nat
  stream0 : BitVec 28
  stream1 : BitVec 28
  conv0 : Nat
  conv1 : Nat
  deriving DecidableEq, Repr

def VecPlan.rows (p : VecPlan) : Nat := prod p.dims.dropLast
def VecPlan.cols (p : VecPlan) : Nat := p.dims.getLastD 1

/-- The row-shape of a chain's shape: its last dimension 1. -/
def rowShape (dims : List Nat) : List Nat := dims.dropLast ++ [1]

/-- An input's logical shape matches its broadcast mode (R118). -/
def bcastOk (dims : List Nat) (mode : Nat) (t : Tensor) : Bool :=
  match mode with
  | 0 => t.dims == dims
  | 1 => t.dims == rowShape dims
  | 2 => (List.range t.ndim).any (fun i =>
      t.dims.getD i 0 == dims.getLastD 1 && (List.range t.ndim).all (fun j => j == i || t.dims.getD j 0 == 1))
  | _ => t.count == 1

/-- A format that a chain's output may take (R118, R494). -/
def chainOutFmt (t : Tensor) : Bool := t.fmt.isFloat || t.fmt.intOut.isSome

/-- Descriptor byte of input slot `i`, and of the outputs, in VECCHAIN. -/
def vecInOff (i : Nat) : Nat := 32 + 8 * i

/-- The overlap rule of R118 for an output over `[base, base + n)`: no input, except one that it is identical to in place
(`same`), and no records that STAT sources read. The offset is the lower of the two fields (R497). -/
def vecOverlap (p : VecPlan) (inOff : Nat → Nat) (statsOff off base n : Nat) (same : Tensor → Bool) : List Bad :=
  (List.range 4).flatMap (fun i => match p.ins.getD i none with
    | none => []
    | some t => relate [t] (!overlaps base n t.base t.extent || (p.prog.bcast.getD i 0 == 0 && same t))
        (min (inOff i) off))
  ++ need (p.stats == 0 || !overlaps base n p.stats (16 * p.rows)) (min statsOff off)

/-- The checks of R116 and R118, with offsets of VECCHAIN's or REDUCE's fields. An INT8 or INT4 input is none, being a matrix operand
only (R29). -/
def vecChecks (p : VecPlan) (progOff : Nat) (inOff : Nat → Nat) (out0Off out1Off statsOff conv1Off : Nat) : List Bad :=
  let env : ProgEnv := ⟨p.ins.map Option.isSome, false, p.stats != 0, p.out0.isSome, p.out1.isSome || p.recs != 0,
    p.rows, p.cols⟩
  let red := p.prog.redop
  let shapeOff := if p.out0.isSome then out0Off else inOff 0
  let shape := (p.out0.orElse (fun _ => p.ins.getD 0 none)).toList
  programChecks env p.prog progOff
  ++ need (p.out0.isSome || (p.ins.getD 0 none).isSome) (min (inOff 0) out0Off)
  ++ need (red == 0 || p.out1.isSome || p.recs != 0) out1Off
  ++ (List.range 4).flatMap (fun i => match p.ins.getD i none with
      | none => []
      | some t => relate (t :: shape) (bcastOk p.dims (p.prog.bcast.getD i 0) t) (min (inOff i) shapeOff)
        ++ relate [t] t.fmt.plain (inOff i))
  ++ (match p.out0 with
      | none => []
      | some t => need (chainOutFmt t && t.distinct) out0Off
        ++ (if t.bad then [] else vecOverlap p inOff statsOff out0Off t.base t.extent (fun i => t.identical i)))
  ++ (match p.out1 with
      | none => []
      | some t =>
        relate (t :: shape) (t.dims == (if red = 0 then p.dims else rowShape p.dims)) (min shapeOff out1Off)
        ++ need (if red = 0 then chainOutFmt t else if red = 5 then t.fmtCode == 0x38 else t.fmt.isFloat) out1Off
        ++ need t.distinct out1Off
        ++ (if t.bad then [] else vecOverlap p inOff statsOff out1Off t.base t.extent (fun i => t.identical i))
        ++ (match p.out0 with | none => [] | some o => relate [o, t] (!o.meets t) (min out0Off out1Off)))
  ++ (if p.recs = 0 then [] else
        vecOverlap p inOff statsOff out1Off p.recs (16 * p.rows) (fun _ => false)
        ++ (match p.out0 with
            | none => []
            | some o => relate [o] (!overlaps o.base o.extent p.recs (16 * p.rows)) (min out0Off out1Off)))
  ++ need (addrOk p.stats 16) statsOff
  ++ need (red < 5 || p.conv1 % 4 != 2) conv1Off

/-- Reads VECCHAIN's operands with the checks they fail. -/
def vecPlan (k : Ctx) : CmdM (VecPlan × List Bad) := do
  let prog ← readProgram k (k.field 128 64)
  let (i0, b0) ← tensorAt k 256
  let (i1, b1) ← tensorAt k 320
  let (i2, b2) ← tensorAt k 384
  let (i3, b3) ← tensorAt k 448
  let (o0, b4) ← tensorAt k 512
  let stats := prog.redop == 6
  let (o1, b5) ← if stats then pure (none, []) else tensorAt k 576
  let dims := match o0, i0 with
    | some t, _ => t.dims
    | none, some t => t.dims
    | none, none => [1]
  let p : VecPlan := ⟨prog, field k.desc 192 64, [i0, i1, i2, i3], o0, o1, if stats then k.field 576 64 else 0,
    k.field 640 64, dims, field k.desc 704 28, field k.desc 736 28, k.field 768 8, k.field 776 8⟩
  let recBad := need (addrOk0 (k.field 576 64) (if stats then 16 else 64)) 72
  pure (p, b0 ++ b1 ++ b2 ++ b3 ++ b4 ++ b5 ++ recBad ++ vecChecks p 16 vecInOff 64 72 80 97)

/-- Fetch checks of VECCHAIN (R117, R373). -/
def fetchVecchain (d : BitVec 1024) : List Bad :=
  addrCheck d 128 64 ++ addrCheck0 d 256 64 ++ addrCheck0 d 320 64 ++ addrCheck0 d 384 64 ++ addrCheck0 d 448 64
  ++ addrCheck0 d 512 64 ++ addrCheck0 d 576 16 ++ addrCheck0 d 640 16
  ++ reserved d 732 735 ++ reserved d 764 767 ++ convChecks (fieldN d 768 8) 96 true
  ++ convChecks (fieldN d 776 8) 97 true ++ reserved d 784 1023

/-- REDUCE as a VECCHAIN (R119). -/
def reducePlan (k : Ctx) : CmdM (VecPlan × List Bad) := do
  let (t, b) ← tensorReq k 128
  let red := k.field 256 4
  let prog : Program := ⟨1, [0, 0, 0, 0], red, false, false, 0, false, [⟨1, 1, 0, 0, 0, 0, 0, 0, 0, false⟩]⟩
  let (o, b1) ← if red = 6 then pure (none, []) else tensorAt k 192
  let p : VecPlan := ⟨prog, 0, [some t, none, none, none], none, o, if red = 6 then k.field 192 64 else 0, 0, t.dims, 0, 0,
    0, k.field 264 8⟩
  pure (p, b ++ b1 ++ need (red != 6 || addrOk (k.field 192 64) 16) 24 ++ vecChecks p 32 (fun _ => 16) 24 24 24 33)

/-- Fetch checks of REDUCE (R119). -/
def fetchReduce (d : BitVec 1024) : List Bad :=
  addrCheck d 128 64 ++ need (fieldN d 128 64 != 0) 16 ++ addrCheck d 192 16 ++ need (decide (1 ≤ fieldN d 256 4) && decide (fieldN d 256 4 ≤ 6)) 32
  ++ need (fieldN d 256 4 == 6 || fieldN d 192 64 % 64 == 0) 24
  ++ reserved d 260 263 ++ convChecks (fieldN d 264 8) 33 false ++ reserved d 272 1023

/-- The values of an input tensor along row `r` of a shape with `cols` columns, by its broadcast mode (R110, R118). -/
def slotVals (k : Ctx) (t : Option Tensor) (mode cols r : Nat) : CmdM (List Val) := do
  match t with
  | none => pure []
  | some t =>
    match mode with
    | 0 => readRow32 k tcOperand t r
    | 1 => do
      let x ← readRow32 k tcOperand t r
      pure (List.replicate cols (x.headD (.zero false)))
    | 2 => readAll32 k tcOperand t t.rows 0
    | _ => do
      let x ← readRow32 k tcOperand t 0
      pure (List.replicate cols (x.headD (.zero false)))

/-- The four slots of a program along row `r`. -/
def slotsRow (k : Ctx) (ins : List (Option Tensor)) (bcast : List Nat) (cols r : Nat) : CmdM (List (List Val)) := do
  let x0 ← slotVals k (ins.getD 0 none) (bcast.getD 0 0) cols r
  let x1 ← slotVals k (ins.getD 1 none) (bcast.getD 1 0) cols r
  let x2 ← slotVals k (ins.getD 2 none) (bcast.getD 2 0) cols r
  let x3 ← slotVals k (ins.getD 3 none) (bcast.getD 3 0) cols r
  pure [x0, x1, x2, x3]

/-- STAT operands of a row, from its record at `a`. -/
def statsAt (k : Ctx) (p : Program) (a r : Nat) : CmdM (Val × Val) := do
  if a = 0 then pure (.zero false, .zero false)
  else
    let bs ← readMem k tcSync (a + 16 * r) 16
    pure (statOperands p (parseStat bs))

/-- Evaluates a program along a row whose values are given slot by slot. -/
def evalRow (p : Program) (seed : W64) (luts : List (Nat × List Byte)) (slots : List (List Val)) (acc : List Val)
    (st : Val × Val) (row cols : Nat) : List Regs :=
  (List.range cols).map (fun c =>
    runStages seed luts ⟨slots.map (fun v => v.getD c (.zero false)), acc.getD c (.zero false), st.1, st.2, row, c,
      row * cols + c⟩ p.stages Regs.start)

/-- The bound images of a program's function tables. -/
def boundTables (s : State) (k : Ctx) (p : Program) : List (Nat × List Byte) :=
  (programTables p).map (fun t => (t, boundImage s k t))

/-- The reduction of a row into OUT1 or the record array (R118, R120, R121). -/
def writeReduced (k : Ctx) (p : VecPlan) (r : Nat) (vs : List Val) : CmdM Unit := do
  if p.prog.redop = 6 then writeMem k tcOperand (p.recs + 16 * r) (statBytes (statRow vs))
  else match p.out1 with
    | none => pure ()
    | some t =>
      if p.prog.redop = 5 then writeRow k tcOperand t r ⟨[argmax vs], [], 0⟩
      else writeRow k tcOperand t r (convertRow32 t.fmt p.conv1 p.seed p.stream1 r [reduceRow p.prog.redop vs])

/-- One row of a VECCHAIN. -/
def vecRow (k : Ctx) (p : VecPlan) (r : Nat) : CmdM Unit := do
  let xs ← slotsRow k p.ins p.prog.bcast p.cols r
  let st ← statsAt k p.prog p.stats r
  let luts := boundTables (← get) k p.prog
  let rs := evalRow p.prog p.seed luts xs [] st r p.cols
  addNans k (rs.map Regs.nans).sum
  match p.out0 with
  | none => pure ()
  | some t => writeRow k tcOperand t r (convertRow32 t.fmt p.conv0 p.seed p.stream0 (r * p.cols) (rs.map Regs.out0))
  if p.prog.redop = 0 then
    match p.out1 with
    | none => pure ()
    | some t => writeRow k tcOperand t r (convertRow32 t.fmt p.conv1 p.seed p.stream1 (r * p.cols) (rs.map Regs.out1))
  else writeReduced k p r (rs.map Regs.prev)

/-- Runs a list of steps in order. -/
def forRows {α : Type} (f : α → CmdM Unit) : List α → CmdM Unit
  | [] => pure ()
  | x :: xs => do
    f x
    forRows f xs

/-- The function tables that a started command has bound are ready (R136). -/
def vecTables (k : Ctx) (p : Program) (off : Nat) : CmdM (List Bad) := do
  let s ← get
  pure ((programTables p).flatMap (fun t => tableReady s k t off))

/-- Start checks of VECCHAIN; answers the tables it uses. -/
def startVecchain (k : Ctx) : CmdM (List Nat) := do
  let (p, b) ← vecPlan k
  let tb ← vecTables k p.prog 16
  rejectOn (b ++ tb)
  pure (programTables p.prog)

def unitsVecchain (k : Ctx) : CmdM Nat := do
  let (p, b) ← vecPlan k
  rejectOn b
  pure (ceilDiv p.rows 64)

def unitVecchain (k : Ctx) (u : Nat) : CmdM Unit := do
  let (p, b) ← vecPlan k
  rejectOn b
  forRows (vecRow k p) (unitRows p.rows u)

def startReduce (k : Ctx) : CmdM (List Nat) := do
  let (_, b) ← reducePlan k
  rejectOn b
  pure []

def unitsReduce (k : Ctx) : CmdM Nat := do
  let (p, b) ← reducePlan k
  rejectOn b
  pure (ceilDiv p.rows 64)

def unitReduce (k : Ctx) (u : Nat) : CmdM Unit := do
  let (p, b) ← reducePlan k
  rejectOn b
  forRows (vecRow k p) (unitRows p.rows u)

/-! ### RANDOM (R65 to R67) -/

/-- The output tensor's descriptor, inline in bits `[1023:512]`. -/
def randomOut (d : BitVec 1024) : Tensor := parseTensor (field d 512 512)

/-- Fetch checks of RANDOM: its kind, formats, range, control and draw numbers (R57, R66, R67). -/
def fetchRandom (d : BitVec 1024) : List Bad :=
  let kind := fieldN d 224 8
  let t := randomOut d
  let floatKind := kind == 1 || kind == 2 || kind == 3
  let draws := fieldN d 256 64 + (if kind == 3 then 1 else 0)
  reserved d 220 223 ++ reserved d 240 255 ++ reserved d 416 511 ++ convChecks (fieldN d 232 8) 29 false
  ++ need (decide (kind ≤ 4)) 28
  ++ tensorChecksAt (field d 512 512) (fun lo => 64 + lo / 8)
  ++ need t.distinct 64
  ++ need ((fmtOf t.fmtCode).isNone || (if kind == 0 then t.fmtCode == 0x38
      else if kind == 4 then t.fmtCode == 0x3A
      else t.fmtCode == 1 || t.fmtCode == 2 || t.fmtCode == 3)) 28
  ++ need (!floatKind || isFinite (c32 (fieldN d 320 32))) 40
  ++ need (!floatKind || isFinite (c32 (fieldN d 352 32))) 44
  ++ need (decide (draws < 2 ^ 34)) 32
  ++ need (floatKind || fieldN d 232 8 == 0) 29
  ++ need (floatKind || fieldN d 320 32 == 0) 40
  ++ need (floatKind || fieldN d 352 32 == 0) 44
  ++ need (kind == 4 || fieldN d 384 32 == 0) 48

/-- The row of RANDOM values whose first element is `first` (R58, R66). -/
def randomRow (k : Ctx) (t : Tensor) (first : Nat) : RowCodes :=
  let seed : W64 := field k.desc 128 64
  let stream : BitVec 28 := field k.desc 192 28
  let d := k.field 256 64
  let lo := c32 (k.field 320 32)
  let hi := c32 (k.field 352 32)
  let is := range first t.cols
  let f := match t.fmt with | .flt g => g | _ => .fp32
  match k.field 224 8 with
  | 0 => ⟨is.map (fun i => (drawWord .general seed stream i d).toNat), [], 0⟩
  | 1 => convertRow32 t.fmt (k.field 232 8) 0 0 first
      (is.map (fun i => uniformRange (uniformBits f) false (drawWord .general seed stream i d) lo hi))
  | 2 => convertRow32 t.fmt (k.field 232 8) 0 0 first
      (is.map (fun i => uniformRange (uniformBits f) true (drawWord .general seed stream i d) lo hi))
  | 3 => convertRow32 t.fmt (k.field 232 8) 0 0 first (is.map (fun i => normalValue seed stream i d lo hi))
  | _ => ⟨is.map (fun i => if drops (drawWord .dropout seed stream i d) (field k.desc 384 32) then 0 else 1), [], 0⟩

def startRandom (_ : Ctx) : CmdM (List Nat) := pure []

def unitsRandom (k : Ctx) : CmdM Nat := pure (ceilDiv (randomOut k.desc).rows 64)

def unitRandom (k : Ctx) (u : Nat) : CmdM Unit := do
  let t := randomOut k.desc
  forRows (fun r => writeRow k tcOperand t r (randomRow k t (r * t.cols))) (unitRows t.rows u)

/-! ### SAMPLE_TOKENS (R68 to R74) -/

def fetchSample (d : BitVec 1024) : List Bad :=
  addrCheck d 128 64 ++ addrCheck d 192 32 ++ addrCheck d 256 8 ++ reserved d 320 1023

/-- The logits tensor with the checks of R68. -/
def samplePlan (k : Ctx) : CmdM (Tensor × List Bad) := do
  let (t, b) ← tensorReq k 128
  let n := t.rows
  pure (t, b ++ need (t.ndim == 2) 16 ++ need (decide (n ≤ 65536)) 16 ++ need (decide (t.cols ≤ 1048576)) 16
    ++ need (t.fmtCode == 1 || t.fmtCode == 2 || t.fmtCode == 3) 16
    ++ need (!overlaps (k.field 256 64) (8 * n) t.base t.extent) 16
    ++ need (!overlaps (k.field 256 64) (8 * n) (k.field 192 64) (32 * n)) 24)

/-- A row's parameter record (R69). -/
structure SampleParams where
  seed : W64
  stream : BitVec 28
  draw : Nat
  temp : Val
  topP : Val
  topK : Nat
  lpMode : Bool
  dirty : Bool
  deriving DecidableEq, Repr

def parseParams (b : BitVec 256) : SampleParams where
  seed := field b 0 64
  stream := field b 64 28
  draw := fieldN b 96 32
  temp := c32 (fieldN b 128 32)
  topP := c32 (fieldN b 160 32)
  topK := fieldN b 192 16
  lpMode := bit b 208
  dirty := fieldN b 92 4 != 0 || fieldN b 209 47 != 0

/-- Token `a` ranks before token `b`: the greater value, then the lower index (R71). -/
def ranksBefore (a b : Nat × Val) : Bool := ltV b.2 a.2 || (!ltV a.2 b.2 && decide (a.1 < b.1))

/-- Inserts a token into a ranked list of at most `n`. -/
def insertRank (n : Nat) (x : Nat × Val) : List (Nat × Val) → List (Nat × Val)
  | [] => if n = 0 then [] else [x]
  | y :: ys =>
    match n with
    | 0 => []
    | n + 1 => if ranksBefore x y then x :: (y :: ys).take n else y :: insertRank n x ys

/-- A value that can be drawn. -/
def drawable (v : Val) : Bool := !isNan v && v != .inf true

/-- The kept tokens of R71, by rank. -/
def rankTokens (n : Nat) (ys : List Val) : List (Nat × Val) :=
  (((List.range ys.length).zip ys).filter (fun x => drawable x.2)).foldl (fun l x => insertRank n x l) []

/-- Running sums. -/
def sums : Option Val → List Val → List Val
  | _, [] => []
  | none, e :: es => e :: sums (some e) es
  | some c, e :: es => fadd c e :: sums (some (fadd c e)) es

/-- ln 2 and log2 e as binary32. -/
def kLn2f : Val := c32 0x3F31_7218
def kLog2ef : Val := c32 0x3FB8_AA3B

/-- The log-probability over the whole row (R72). -/
def rowLogProb (xs : List Val) (token : Nat) : Val :=
  let ok := xs.filter drawable
  let m := match ok with | [] => .zero false | v :: vs => vs.foldl fmax v
  let term (x : Val) : Val := if isInf m then (if x == .inf false then one else .zero false)
    else exp2V (fmul (fsub x m) kLog2ef)
  let l := log2V ((sums none (ok.map term)).getLastD (.zero false))
  let x := xs.getD token (.zero false)
  let d := if isInf m && isInf x then .zero false else fsub x m
  fmul (fsub (fmul d kLog2ef) l) kLn2f

/-- Token and log-probability of a row; `none` for an invalid one (R71 to R73). -/
def sampleRow (p : SampleParams) (xs : List Val) : Option (Nat × Val) :=
  let badTemp := isNan p.temp || isInf p.temp || signOf p.temp
  let badTop := isNan p.topP || !ltV (.zero false) p.topP || ltV one p.topP
  if badTemp || badTop || decide (1024 < p.topK) || p.dirty then none
  else
    let k := if p.topK = 0 then 1024 else p.topK
    let greedy := isZero p.temp
    let ys := if greedy then xs else xs.map (fun x => fmul x (rcpV p.temp))
    match rankTokens k ys with
    | [] => none
    | c0 :: rest =>
      let cs := c0 :: rest
      let m := c0.2
      let as := cs.map (fun c => if m == .inf false then (if c.2 == .inf false then .zero false else .inf true)
        else fmul (fsub c.2 m) kLog2ef)
      let cum := sums none (as.map exp2V)
      let n := if greedy then 1
        else 1 + cum.findIdx (fun c => leV (fmul p.topP (cum.getLastD one)) c)
      let total := cum.getD (n - 1) one
      let w := drawWord .sampling p.seed p.stream 0 p.draw
      let th := fmul (uniform 24 false w) total
      let j := min ((cum.take n).findIdx (fun c => ltV th c)) (n - 1)
      let token := (cs.getD j c0).1
      let lp := fmul (fsub (as.getD j (.zero false)) (log2V total)) kLn2f
      some (token, if p.lpMode then rowLogProb xs token else lp)

/-- Reads, samples and writes one row (R73). -/
def sampleOne (k : Ctx) (t : Tensor) (r : Nat) : CmdM Unit := do
  let p := parseParams (bytesToBv 256 (← readMem k tcSync (k.field 192 64 + 32 * r) 32))
  let xs ← readRow32 k tcSync t r
  match sampleRow p xs with
  | some (token, lp) => writeMem k tcSync (k.field 256 64 + 8 * r) (natToBytes 4 token ++ bvToBytes 4 (toBits32 lp))
  | none =>
    writeMem k tcSync (k.field 256 64 + 8 * r) (natToBytes 4 0xFFFFFFFF ++ natToBytes 4 0x7FC00000)
    modify (fun s => modCmd s k.uid (fun c => { c with invalid := c.invalid + 1 }))

def startSample (k : Ctx) : CmdM (List Nat) := do
  let (_, b) ← samplePlan k
  rejectOn b
  pure []

def unitsSample (k : Ctx) : CmdM Nat := do
  let (t, b) ← samplePlan k
  rejectOn b
  pure (ceilDiv t.rows 64)

def unitSample (k : Ctx) (u : Nat) : CmdM Unit := do
  let (t, b) ← samplePlan k
  rejectOn b
  forRows (sampleOne k t) (unitRows t.rows u)

end Sys2Proof.Machine
end

