-- ==== Sys2Proof/Machine/Basic.lean ====
section
/-!
DEFINITION. NOP, FENCE, EVENT_SIGNAL, EVENT_WAIT, WAIT_TIME, COPY and FILL: their checks and effects (R383, R384).
-/
namespace Sys2Proof.Machine

open Sys2Proof

/-! ### Fetch checks -/

/-- NOP and FENCE have only reserved fields (R383). -/
def fetchNop (d : BitVec 1024) : List Bad := reserved d 128 1023

def fetchFence (d : BitVec 1024) : List Bad := reserved d 128 1023

/-- EVENT_SIGNAL and EVENT_WAIT: COUNT from 1 to 4 and the entries (R383). -/
def fetchEvents (d : BitVec 1024) (signal : Bool) : List Bad :=
  let n := fieldN d 128 3
  need (decide (1 ≤ n) && decide (n ≤ 4)) 16 ++ reserved d 131 255
  ++ (List.range 4).flatMap (fun i => entryChecks d (256 + 128 * i) (32 + 16 * i) n i signal)
  ++ reserved d 768 1023

def fetchEventSignal (d : BitVec 1024) : List Bad := fetchEvents d true

def fetchEventWait (d : BitVec 1024) : List Bad := fetchEvents d false

/-- The tick of WAIT_TIME. -/
def waitTick (d : BitVec 1024) : Tick := field d 128 40

/-- WAIT_TIME: a tick more than 2^39 ahead is refused (R383, R422). -/
def fetchWaitTime (now : Tick) (d : BitVec 1024) : List Bad :=
  need (validTick (waitTick d) now) 16 ++ reserved d 168 1023

/-- COPY's or FILL's LENGTH. -/
def moveLength (d : BitVec 1024) : Nat := fieldN d 256 40

/-- COPY (R384): overlapping ranges are two ranges of the host or two of global memory that share a byte. -/
def fetchCopy (d : BitVec 1024) : List Bad :=
  let n := moveLength d
  need (decide (1 ≤ n)) 32 ++ need (bit d 296 || addrOk (fieldN d 128 64) 1) 16
  ++ need (bit d 297 || addrOk (fieldN d 192 64) 1) 24
  ++ need (bit d 296 != bit d 297 || !overlaps (fieldN d 128 64) n (fieldN d 192 64) n) 16
  ++ reserved d 298 1023

/-- FILL (R384). -/
def fetchFill (d : BitVec 1024) : List Bad :=
  need (decide (1 ≤ moveLength d)) 32 ++ need (bit d 296 || addrOk (fieldN d 128 64) 1) 16
  ++ need (!bit d 297) 37 ++ reserved d 298 1023

/-! ### COPY and FILL -/

/-- A progress unit of the movers (R384, R411). -/
def mib : Nat := 1048576

/-- Names a host address. -/
def namesHost (d : BitVec 1024) : Bool :=
  (opcodeOf d == 0x08 && (bit d 296 || bit d 297)) || (opcodeOf d == 0x09 && bit d 296)

/-- Byte `i` of FILL's pattern. -/
def patternByte (d : BitVec 1024) (i : Nat) : Byte := BitVec.ofNat 8 (fieldN d 192 64 / 2 ^ (8 * (i % 8)))

/-- Reads host memory for a command; a failed read gives ACCESS_DENIED (R384). -/
def cmdHostRead (k : Ctx) (fault : Bool) (a n : Nat) : CmdM (List Byte) := do
  if fault then failWith k .accessDenied (BitVec.ofNat 64 a) 0
  else pure (hostRead (← get) a n)

/-- Writes host memory for a command. -/
def cmdHostWrite (k : Ctx) (fault : Bool) (a : Nat) (bs : List Byte) : CmdM Unit := do
  if fault then failWith k .accessDenied (BitVec.ofNat 64 a) 0
  else modify (fun s => noteWrite k.uid (hostWrite s a bs))

/-- Writes a unit's bytes to DST. -/
def moveOut (k : Ctx) (fault : Bool) (o : Nat) (bs : List Byte) : CmdM Unit := do
  let a := fieldN k.desc 128 64 + o
  if bit k.desc 296 then cmdHostWrite k fault a bs else writeMem k tcBulk a bs

/-- Bytes of unit `u`. -/
def moveBytes (d : BitVec 1024) (u : Nat) : Nat := min mib (moveLength d - u * mib)

def unitsMove (k : Ctx) : CmdM Nat := pure (ceilDiv (moveLength k.desc) mib)

/-- One range of COPY. -/
def unitCopy (fault : Bool) (k : Ctx) (u : Nat) : CmdM Unit := do
  let a := fieldN k.desc 192 64 + u * mib
  let n := moveBytes k.desc u
  let bs ← if bit k.desc 297 then cmdHostRead k fault a n else readMem k tcBulk a n
  moveOut k fault (u * mib) bs

/-- One range of FILL. -/
def unitFill (fault : Bool) (k : Ctx) (u : Nat) : CmdM Unit :=
  moveOut k fault (u * mib) ((range (u * mib) (moveBytes k.desc u)).map (patternByte k.desc))

/-! ### Waits on counters (R380) -/

/-- What reading waited counters finds. -/
inductive Waited where
  | met | unmet | failed
  deriving DecidableEq, Repr

/-- A counter meets its wait, or is failed. -/
def waitState (x v : Nat) : Waited :=
  if 2 ^ 63 ≤ x then .failed else if v ≤ x then .met else .unmet

/-- A failed counter decides, then an unmet one. -/
def joinWaited : Waited → Waited → Waited
  | .failed, _ => .failed
  | _, .failed => .failed
  | .unmet, _ => .unmet
  | .met, b => b

/-- Reads counters again. Bytes of another module are asked for afresh each time. -/
def readWaits (k : Ctx) : List (Nat × Nat) → CmdM Waited
  | [] => pure .met
  | (a, v) :: rest => do
    let x ← readNum k tcSync a 8
    let more ← readWaits k rest
    pure (joinWaited (waitState x v) more)

end Sys2Proof.Machine
end

