-- ==== Sys2Proof/Machine/Product.lean ====
section
/-!
DEFINITION. Matrix products: operand pairings, accumulators with their flags, canonical segments and the tree
(R40 to R50), and the walk over macro tiles (R146 to R148).
-/
namespace Sys2Proof.Machine

open Sys2Proof

/-! ### Pairings (R40) -/

/-- Accumulation paths. -/
inductive Path where
  | exact | mx | ordered
  deriving DecidableEq, Repr

/-- The path of a streamed and a stationary format; `none` for a pairing that R40 does not list. -/
def pathOf (a b : Fmt) : Option Path :=
  match a, b with
  | .flt .e4m3, b => if stationary8 b then some .exact else none
  | .flt .e5m2, b => if stationary8 b then some .exact else none
  | .int8, .int8 => some .exact
  | .int8, .int4 => some .exact
  | .flt .e2m1, .flt .e2m1 => some .exact
  | .mx .e4m3, .mx _ => some .mx
  | .mx .e5m2, .mx _ => some .mx
  | .mx .e2m1, .mx .e2m1 => some .mx
  | .flt .bf16, .flt .bf16 => some .ordered
  | .flt .fp16, .flt .fp16 => some .ordered
  | _, _ => none
where
  /-- Stationary formats that an FP8 streamed operand takes. -/
  stationary8 : Fmt → Bool
    | .flt .e4m3 => true
    | .flt .e5m2 => true
    | .flt .e2m1 => true
    | .int8 => true
    | .int4 => true
    | _ => false

/-! ### Accumulators (R42 to R48) -/

/-- The MX accumulator's 48-bit significand; no legal operand leaves its exponent range (R43). -/
def b48 : Bin := ⟨48, -1000000, 1000000⟩

def round48 (v : Val) : Val := roundBin b48 .nearest v

/-- A partial accumulator with the three flags of R45. -/
structure Acc where
  v : Val
  nan : Bool
  pinf : Bool
  ninf : Bool
  deriving DecidableEq, Repr

/-- The starting value of a path's accumulator. -/
def Acc.start (p : Path) : Acc := ⟨.zero (p == .ordered), false, false, false⟩

/-- One product: NaN and infinite ones set flags and do not enter the sum (R45). -/
def Acc.step (a : Acc) (x y : Val) : Acc :=
  match mulX x y with
  | .nan => { a with nan := true }
  | .inf n => if n then { a with ninf := true } else { a with pinf := true }
  | p => { a with v := addX a.v p }

/-- Exact sum of the products of two lists. -/
def dotExact (a : Acc) (xs : List (Val × Val)) : Acc := xs.foldl (fun a x => a.step x.1 x.2) a

/-- One MX block: its exact sum is added with one rounding to 48 bits (R43). The products come with their scales, so that a stationary
operand whose blocks lie along N (R30), where R43 wants one exponent a K block, counts each product at its own row's scale before
that rounding (log entry 74, DESIGN CHOICE). -/
def blockStep (a : Acc) (xs : List (Val × Val)) : Acc :=
  let s := dotExact ⟨.zero false, a.nan, a.pinf, a.ninf⟩ xs
  { s with v := round48 (addX a.v s.v) }

/-- A segment's partial (R42 to R44), from an accumulator so far. -/
def segmentFrom (p : Path) (a : Acc) (xs : List (Val × Val)) : Acc :=
  match p with
  | .exact => dotExact a xs
  | .mx => (pieces 32 (xs.length / 32 + 1) xs).foldl blockStep a
  | .ordered => { a with v := xs.foldl (fun v x => ffma x.1 x.2 v) a.v }

/-- The combine operation of R48. -/
def combine (p : Path) (a b : Acc) : Acc :=
  let v := match p with
    | .exact => addX a.v b.v
    | .mx => round48 (addX a.v b.v)
    | .ordered => fadd a.v b.v
  ⟨v, a.nan || b.nan, a.pinf || b.pinf, a.ninf || b.ninf⟩

/-- One output of a product: segments of 4,096 (R47) combined by the tree (R48). -/
def product (p : Path) (a b : List Val) : Acc :=
  let xs := a.zip b
  tree (combine p) (Acc.start p) ((pieces 4096 (xs.length / 4096 + 1) xs).map (segmentFrom p (Acc.start p)))

/-- The value that leaves the accumulator with the exponent of its last place (R38, R45, R46, R50). -/
def leave (p : Path) (a : Acc) : Val × Int :=
  match p with
  | .ordered => (a.v, lsbF32 a.v)
  | _ =>
    if a.nan || (a.pinf && a.ninf) then (.nan, 0)
    else if a.pinf then (.inf false, 0)
    else if a.ninf then (.inf true, 0)
    else match a.v with
      | .fin n m e =>
        if m = 0 then (.zero false, 0)
        else (.fin n m e, if p == .exact then -32 else expOf m e - 47)
      | v => (v, 0)

/-- The value converted to binary32 for an epilogue or a chain (R50). -/
def leave32 (p : Path) (a : Acc) : Val := rn32 (leave p a).1

/-! ### Accumulator slots (R91) -/

/-- Bytes of one slot. -/
def slotSize (p : Path) : Nat := if p == .ordered then 4 else 16

/-- The flags of a slot from bit `lo` on. -/
def flagBits (a : Acc) (lo : Nat) : Nat :=
  (if a.nan then 2 ^ lo else 0) + (if a.pinf then 2 ^ (lo + 1) else 0) + (if a.ninf then 2 ^ (lo + 2) else 0)

/-- A slot's contents. A nonzero MX significand has its top bit set (log entry 35). -/
def encodeSlot (p : Path) (a : Acc) : List Byte :=
  match p, a.v with
  | .ordered, v => bvToBytes 4 (toBits32 v)
  | .exact, .fin n m e => natToBytes 16 ((fixedAt n m e (-32) % 2 ^ 96).toNat + flagBits a 96)
  | .mx, .fin n m e =>
    if m = 0 then natToBytes 16 (flagBits a 60)
    else
      let l := Nat.log2 m
      let sig := if l ≤ 47 then m * 2 ^ (47 - l) else m / 2 ^ (l - 47)
      natToBytes 16 (sig + ((e + (l : Int) - 47) % 2 ^ 11).toNat * 2 ^ 48 + (if n then 2 ^ 59 else 0) + flagBits a 60)
  | .exact, _ => natToBytes 16 (flagBits a 96)
  | .mx, _ => natToBytes 16 (flagBits a 60)

/-- The accumulator that a slot holds. -/
def decodeSlot (p : Path) (bs : List Byte) : Acc :=
  let x := bytesToNat bs
  let fl (lo : Nat) (v : Val) : Acc := ⟨v, x / 2 ^ lo % 2 == 1, x / 2 ^ (lo + 1) % 2 == 1, x / 2 ^ (lo + 2) % 2 == 1⟩
  match p with
  | .ordered => ⟨ofBits32 (BitVec.ofNat 32 x), false, false, false⟩
  | .exact =>
    let i := signedOf 96 x
    fl 96 (if i = 0 then .zero false else .fin (decide (i < 0)) i.natAbs (-32))
  | .mx =>
    let sig := x % 2 ^ 48
    fl 60 (if sig = 0 then .zero false else .fin (x / 2 ^ 59 % 2 == 1) sig (signedOf 11 (x / 2 ^ 48)))

/-- Accumulators side by side in their slots, and back. -/
def encodeSlots (p : Path) (accs : List Acc) : List Byte := accs.flatMap (encodeSlot p)
def decodeSlots (p : Path) (n : Nat) (bs : List Byte) : List Acc :=
  (List.range n).map (fun i => decodeSlot p ((bs.drop (i * slotSize p)).take (slotSize p)))

/-! ### Rows and columns -/

def zipCons {α : Type} : List α → List (List α) → List (List α)
  | x :: xs, l :: ls => (x :: l) :: zipCons xs ls
  | x :: xs, [] => [x] :: zipCons xs []
  | [], _ => []

/-- Columns of a matrix given by rows. -/
def transpose {α : Type} (rows : List (List α)) : List (List α) := rows.foldr zipCons []

/-! ### Codebooks (R144, R145) -/

/-- INDEX_BITS and ELEM_FMT of an image. -/
def cbBits (img : List Byte) : Nat := (img.getD 1 0).toNat
def cbFmt (img : List Byte) : Nat := (img.getD 0 0).toNat

/-- ENTRY[i]. -/
def cbEntry (img : List Byte) (i : Nat) : Nat := bytesToNat ((img.drop (64 + 2 * i)).take 2)

/-- The format that an index of a codebook is stored like. -/
def cbStore (img : List Byte) : Fmt := if cbBits img = 4 then .int4 else .u8

/-- Values of row `r` of a stationary operand; with a codebook image, of indices. An MX element takes the scale of its own row's
block, along N (R30, log entry 74, DESIGN CHOICE). -/
def stationaryRow (k : Ctx) (t : Tensor) (cb : Option (List Byte)) (r : Nat) : CmdM (List Val) := do
  match cb with
  | none =>
    let xs ← readRow k tcOperand t r
    pure (xs.map (fun x => elemVal t.fmt x.1 x.2))
  | some img =>
    let cs ← readRowCodes k tcOperand { t with fmt := cbStore img } r
    pure (cs.map (fun c => elemVal t.fmt (cbEntry img c) 0))

/-- Rows of a stationary operand. -/
def stationaryRows (k : Ctx) (t : Tensor) (cb : Option (List Byte)) : Nat → Nat → CmdM (List (List Val))
  | 0, _ => pure []
  | n + 1, r => do
    let x ← stationaryRow k t cb r
    let more ← stationaryRows k t cb n (r + 1)
    pure (x :: more)

/-- The image of the command's codebook, when it names one (R145). -/
def codebookOf (s : State) (k : Ctx) (en : Bool) (cb : Nat) : Option (List Byte) :=
  if en then some (boundImage s k (0x10 + cb)) else none

/-- Checks of a codebook that descriptor byte `cbOff` names: loaded, of B's format, and B no MX operand (R136, R145). -/
def codebookChecks (s : State) (k : Ctx) (en : Bool) (cb : Nat) (b : Tensor) (off cbOff : Nat) : List Bad :=
  if en then
    match tableReady s k (0x10 + cb) cbOff with
    | [] =>
      let img := boundImage s k (0x10 + cb)
      relate [b] (cbFmt img == b.fmtCode && !b.fmt.isMx) (min off cbOff)
      ++ relate [b] (cbBits img != 4 || b.cols % 2 == 0) (min off cbOff)
    | bad => bad
  else []

/-! ### Shape buckets (R153, R154) -/

/-- A bucket list of a model record. -/
def bucketCounts (rec : List Byte) (j : Nat) : List Nat :=
  ((List.range 8).map (fun i => bytesToNat ((rec.drop (64 + 48 * (j - 1) + 4 * i)).take 4))).filter (· != 0)

/-- h of a list's sequencer template, 64 without one (R146, R402). -/
def templateH (rec : List Byte) (j : Nat) : Nat :=
  if j = 0 || rec.isEmpty then 64
  else match (rec.getD (64 + 48 * (j - 1) + 32) 0).toNat with | 0 => 16 | 1 => 32 | _ => 64

/-- BAND of a list's template, 256 without one (R171, R402). -/
def templateBand (rec : List Byte) (j : Nat) : Nat :=
  let b := if j = 0 || rec.isEmpty then 0 else bytesToNat ((rec.drop (64 + 48 * (j - 1) + 34)).take 2)
  if b = 0 then 256 else b

/-- A nonzero bucket index must have a list (R153). -/
def bucketChecks (rec : List Byte) (j off : Nat) : List Bad :=
  need (j == 0 || !(bucketCounts rec j).isEmpty) off

/-- Rows that are computed or padded for `r` real rows (R154); `none` when no bucket holds them. -/
def paddedRows (rec : List Byte) (j r : Nat) : Option Nat :=
  if j = 0 then some r else (bucketCounts rec j).find? (fun n => decide (r ≤ n))

/-- Checks of a run-time row count against the capacity (R154). A least bucket above the capacity fails also where the count is 0
(log entry 73, DESIGN CHOICE). -/
def rowsChecks (rec : List Byte) (j cap r off : Nat) : List Bad :=
  need (match paddedRows rec j r with
    | none => false
    | some n => decide (r ≤ cap) && decide (n ≤ cap)) off

/-! ### The walk (R147, R148) -/

/-- The Hilbert step of R147 from side `s` on; `fuel` bounds the doublings. -/
def hilbertFrom : Nat → Nat → Nat → Nat → Nat → Nat → Nat × Nat
  | 0, _, _, _, x, y => (x, y)
  | fuel + 1, n, t, s, x, y =>
    if s < n then
      let rx := t / 2 % 2
      let ry := (t % 2 + rx) % 2
      let (x, y) := if ry = 0 then
          let (x, y) := if rx = 1 then (s - 1 - x, s - 1 - y) else (x, y)
          (y, x)
        else (x, y)
      hilbertFrom fuel n (t / 4) (s * 2) (x + s * rx) (y + s * ry)
    else (x, y)

/-- The least p with 2^p ≥ n. -/
def log2Up (n : Nat) : Nat := if n ≤ 1 then 0 else Nat.log2 (n - 1) + 1

/-- Macro-tile column and row of visit d in a grid (R147). -/
def hilbert (p d : Nat) : Nat × Nat := hilbertFrom p (2 ^ p) d 1 0 0

/-- Macro tiles in visit order, as row-major numbers of a gm × gn grid; visits outside it are skipped (R147). -/
def visitOrder (gm gn : Nat) : List Nat :=
  let p := log2Up (max gm gn)
  (List.range (4 ^ p)).filterMap (fun d =>
    let (x, y) := hilbert p d
    if x < gn && y < gm then some (y * gn + x) else none)

/-- The run of region `g` of `n` regions over `t` tiles: first and end (R148). -/
def regionRun (t n g : Nat) : Nat × Nat := (g * t / n, (g + 1) * t / n)

end Sys2Proof.Machine
end

