-- ==== Sys2Proof/Machine/Attend.lean ====
section
/-!
DEFINITION. ATTEND, ATTEND_BWD, KV_APPEND and the coarse index: checks, key blocks, partials and their merge, page
retrieval (R188 to R220).
-/
namespace Sys2Proof.Machine

open Sys2Proof

/-! ### Partials (R192 to R194) -/

/-- A query row's partial over a run of keys. -/
structure Part where
  m : Val
  l : Val
  o : List Val
  bad : Bool
  deriving DecidableEq, Repr

/-- The partial of no keys. -/
def Part.empty (vd : Nat) : Part := ⟨.inf true, .zero false, List.replicate vd (.zero false), false⟩

/-- log2(e) as R192 writes it. -/
def log2e : Val := c32 0x3FB8AA3B

/-- A position of a key block: its key, its value row, and whether it is masked. -/
structure KeyPos where
  key : List Val
  value : List Val
  masked : Bool
  deriving DecidableEq, Repr

/-- What a row's attention uses: the two paths, the P operand's format, SCALE and VD. -/
structure AttMath where
  pathS : Path
  pathV : Path
  pFmt : Flt
  scale : Val
  vd : Nat
  deriving DecidableEq, Repr

/-- The greatest of a list (R192). -/
def maxOf (vs : List Val) : Val := vs.foldl fmax (.inf true)

def posInf (v : Val) : Bool := isInf v && !signOf v
def negInf (v : Val) : Bool := isInf v && signOf v

/-- One block of the loop of R192. -/
def attBlock (a : AttMath) (q : List Val) (p : Part) (blk : List KeyPos) : Part :=
  let ts := blk.map (fun x =>
    if x.masked then .inf true else fmul (fmul (leave32 a.pathS (product a.pathS q x.key)) a.scale) log2e)
  if p.bad || ts.any (fun t => isNan t || posInf t) then { p with bad := true }
  else
    let mb := maxOf ts
    if negInf mb then p
    else
      let mn := fmax p.m mb
      let c := exp2V (fsub p.m mn)
      let ps := ts.map (fun t => exp2V (fsub t mn))
      let pq := ps.map (fun x => decodeFlt a.pFmt (convertFlt a.pFmt Conv.rne 0 0 x).1)
      let pv := (transpose (blk.map KeyPos.value)).map (fun col => leave32 a.pathV (product a.pathV pq col))
      { p with
        m := mn
        l := ffma p.l c (tree fadd (.zero false) ps)
        o := (p.o.zip pv).map (fun x => ffma x.1 c x.2) }

/-- The partial of one key segment: its blocks in ascending order. -/
def attSegment (a : AttMath) (q : List Val) (blks : List (List KeyPos)) : Part :=
  blks.foldl (attBlock a q) (Part.empty a.vd)

/-- The combine operation of R193. -/
def Part.merge (a b : Part) : Part :=
  if a.bad || b.bad then { a with bad := true }
  else if negInf a.m then b
  else if negInf b.m then a
  else
    let m := fmax a.m b.m
    let ca := exp2V (fsub a.m m)
    let cb := exp2V (fsub b.m m)
    ⟨m, ffma a.l ca (fmul b.l cb), (a.o.zip b.o).map (fun x => ffma x.1 ca (fmul x.2 cb)), false⟩

/-- The row of O before conversion, and the STATS_OUT record (R194). -/
def Part.finish (p : Part) (vd : Nat) : List Val × W32 × W32 :=
  if p.bad then (List.replicate vd .nan, toBits32 .nan, toBits32 .nan)
  else if negInf p.m then (List.replicate vd (.zero false), toBits32 (.inf true), toBits32 (.inf true))
  else (p.o.map (fun x => fdiv x p.l), toBits32 p.m, toBits32 (log2V p.l))

/-! ### KV cache (R203 to R205) -/

/-- A KV cache descriptor. -/
structure Cache where
  table : Nat
  maxp : Nat
  slots : Nat
  fmtCode : Nat
  hkv : Nat
  hd : Nat
  vd : Nat
  deriving DecidableEq, Repr

def Cache.none : Cache := ⟨0, 1, 1, 0x10, 1, 16, 16⟩

def Cache.fmt (c : Cache) : Fmt := (fmtOf c.fmtCode).getD (.flt .e4m3)

/-- Bytes of one page (R205). -/
def Cache.pageBytes (c : Cache) : Nat := ceilDiv (c.hkv * 256 * (c.hd + c.vd) * c.fmt.size) 4096 * 4096

/-- Byte offsets in a page of a key row and of a value row. -/
def Cache.keyOff (c : Cache) (h t : Nat) : Nat := (h * 256 + t) * c.hd * c.fmt.size
def Cache.valueOff (c : Cache) (h t : Nat) : Nat :=
  c.hkv * 256 * c.hd * c.fmt.size + (h * 256 + t) * c.vd * c.fmt.size

/-- Reads a cache descriptor reached through descriptor byte `off`, with its checks (R203). -/
def readCache (k : Ctx) (a off : Nat) : CmdM (Cache × List Bad) := do
  let d : BitVec 512 := bytesToBv 512 (← readMem k tcSync a 64)
  let c : Cache := ⟨fieldN d 0 64, fieldN d 64 32, fieldN d 96 32, fieldN d 128 8, fieldN d 136 8, 16 * fieldN d 144 8,
    16 * fieldN d 152 8⟩
  let ok := addrOk c.table 8 && decide (1 ≤ c.maxp) && decide (c.maxp ≤ 65536) && decide (1 ≤ c.slots)
    && decide (c.slots ≤ 65536) && [0x10, 0x11, 0x03, 0x02].contains c.fmtCode && decide (1 ≤ c.hkv)
    && decide (c.hkv ≤ 64) && decide (16 ≤ c.hd) && decide (c.hd ≤ 256) && decide (16 ≤ c.vd) && decide (c.vd ≤ 256)
    && fieldN d 160 32 == c.pageBytes
  pure (c, need ok off ++ needZero (fieldN d 192 320 == 0) off)

/-- Reads the page-table entry of a page (R204): its address when it is valid, and the check. -/
def readPage (k : Ctx) (c : Cache) (slot p off : Nat) : CmdM (Nat × List Bad) := do
  let e ← readNum k tcSync (c.table + 8 * (slot * c.maxp + p)) 8
  pure (e / 4096 * 4096, need (e % 2 == 1 && addrOk (e / 4096 * 4096) 4096) off ++ needZero (e / 2 % 2048 == 0) off)

/-! ### Length tables (R198, R199) -/

/-- A record of a length table. -/
structure LenRec where
  qlen : Nat
  kvlen : Nat
  pos0 : Nat
  slot : Nat
  deriving DecidableEq, Repr

/-- Reads the record of batch entry `b`; without a table every row is real (R198). -/
def lenRec (k : Ctx) (ptr mq nk b : Nat) : CmdM LenRec := do
  if ptr = 0 then pure ⟨mq, nk, nk - mq, b⟩
  else
    let x ← readNum k tcSync (ptr + 16 * b) 16
    pure ⟨x % 2 ^ 32, x / 2 ^ 32 % 2 ^ 32, x / 2 ^ 64 % 2 ^ 32, x / 2 ^ 96⟩

def lenRecs (k : Ctx) (ptr mq nk : Nat) : List Nat → CmdM (List LenRec)
  | [] => pure []
  | b :: bs => do
    let r ← lenRec k ptr mq nk b
    let more ← lenRecs k ptr mq nk bs
    pure (r :: more)

/-- Checks of a length record (R198, R199). `kmax`: the most keys; `slots`: 0 in dense mode. -/
def lenChecks (r : LenRec) (fromTable : Bool) (mq kmax slots off : Nat) : List Bad :=
  need (decide (r.qlen ≤ mq)) 16 ++ need (decide (r.kvlen ≤ kmax)) 24
  ++ need (if slots = 0 then r.slot == 0 || !fromTable else decide (r.slot < slots)) (if slots = 0 then off else 24)
  ++ need (r.qlen == 0 || decide (r.pos0 + r.qlen - 1 < 2 ^ 32)) off

/-! ### The plan of an ATTEND (R188, R189, R196) -/

/-- Where keys and values come from. -/
inductive KeySrc where
  | dense (kt vt : Tensor)
  | paged (c : Cache)
  /-- A shard buffer of ring attention: base address, tokens, key-value heads; keys, then values in V's format (log entry 25). -/
  | buffer (base tokens hkv : Nat)
  deriving DecidableEq, Repr

structure AttPlan where
  q : Tensor
  o : Tensor
  src : KeySrc
  fmt : Fmt
  vfmt : Fmt
  hkv : Nat
  hd : Nat
  vd : Nat
  nk : Nat
  stats : Nat
  lens : List LenRec
  causal : Bool
  math : AttMath
  seed : W64
  conv : Nat
  rstream : BitVec 28
  /-- TOP_PAGES, SINK_PAGES, LOCAL_PAGES and the index table; `none` outside retrieval. -/
  retrieve : Option (Nat × Nat × Nat × Nat)
  /-- In bucket mode the padded query rows and key positions of each entry; `[]` in length-table mode (R201, R202). -/
  pads : List (Nat × Nat)
  /-- The global position of the first key: a ring member's shard begins there (R214). -/
  base : Nat
  /-- Key segments of each tile that retrieves, as its start found them (R202). -/
  segs : List Nat
  deriving DecidableEq, Repr

def AttPlan.batch (p : AttPlan) : Nat := p.q.dims.getD 0 1
def AttPlan.hq (p : AttPlan) : Nat := p.q.dims.getD 1 1
def AttPlan.mq (p : AttPlan) : Nat := p.q.dims.getD 2 1
def AttPlan.len (p : AttPlan) (b : Nat) : LenRec := p.lens.getD b ⟨0, 0, 0, 0⟩

/-- The key-value head of a query head (R188). -/
def AttPlan.kvHead (p : AttPlan) (h : Nat) : Nat := h / (p.hq / p.hkv)

/-- Key j is masked for query row i of entry b (R199). -/
def AttPlan.masked (p : AttPlan) (b i j : Nat) : Bool :=
  let r := p.len b
  decide (r.kvlen ≤ j) || (p.causal && decide (r.pos0 + i < j))

/-- Positions below this may hold a key unmasked for one of rows up to `i`. -/
def AttPlan.limit (p : AttPlan) (b i : Nat) : Nat :=
  let r := p.len b
  if p.causal then min r.kvlen (r.pos0 + i + 1) else r.kvlen

/-- Formats of R189: all three FP8, all BF16 or all FP16. -/
def attFormats (q key v : Nat) : Bool :=
  let f8 (x : Nat) := x == 0x10 || x == 0x11
  (f8 q && f8 key && f8 v) || (q == 0x03 && key == 0x03 && v == 0x03) || (q == 0x02 && key == 0x02 && v == 0x02)

/-- The P operand's format (R189). -/
def pFormat (q : Nat) : Flt := if q = 0x03 then .bf16 else if q = 0x02 then .fp16 else .e4m3

/-- Shapes of R188, for Q at byte 16, K or the cache at 24, O at 40, and what gives VD at `vOff`; `kv` are the tensors of K
and V. -/
def attShapes (q o : Tensor) (kv : List Tensor) (b hkv hd vd nk vOff : Nat) : List Bad :=
  let mq := q.dims.getD 2 1
  need (q.ndim == 4 && decide (b ≤ 65536) && decide (q.dims.getD 1 1 ≤ 256)) 16
  ++ relate [q, o] (o.dims.take 3 == [b, q.dims.getD 1 1, mq]) 16 ++ relate (o :: kv) (o.dims.drop 3 == [vd]) vOff
  ++ relate (q :: kv) (decide (1 ≤ hkv) && q.dims.getD 1 1 % hkv == 0 && q.dims.getD 3 1 == hd) 16
  ++ relate kv (hd % 16 == 0 && decide (16 ≤ hd) && decide (hd ≤ 256) && decide (nk ≤ 2 ^ 24)) 24
  ++ relate kv (vd % 16 == 0 && decide (16 ≤ vd) && decide (vd ≤ 256)) vOff

/-- Dense K and V beside Q (R188): four dimensions, Q's batch, and one another's heads and keys. -/
def denseShapes (q kt vt : Tensor) : List Bad :=
  need (kt.ndim == 4) 24 ++ need (vt.ndim == 4) 32
  ++ relate [q, kt] (kt.dims.getD 0 1 == q.dims.getD 0 1) 16 ++ relate [q, vt] (vt.dims.getD 0 1 == q.dims.getD 0 1) 16
  ++ relate [kt, vt] ((vt.dims.drop 1).take 2 == (kt.dims.drop 1).take 2) 24

/-- Checks of SCALE: finite and above 0. -/
def scaleOk (x : W32) : Bool :=
  let v := ofBits32 x
  isFinite v && !isZero v && !signOf v

/-- The bucket checks of R201 on the length records. -/
def attBuckets (rec : List Byte) (j mq : Nat) (lens : List LenRec) : List Bad :=
  bucketChecks rec j 16 ++ need (j == 0 || lens.all (fun r =>
    match paddedRows rec j r.qlen, paddedRows rec j r.kvlen with
    | some n, some _ => decide (n ≤ mq)
    | _, _ => false)) 16

/-- Q's descriptor and its batch are in order, so that a length table can be read by them. -/
def batchOk (q : Tensor) : Bool := !q.bad && q.ndim == 4 && decide (q.dims.getD 0 1 ≤ 65536)

/-- Reads the operands of an ATTEND, with the checks of R188, R189, R196, R198, R199, R201 and R213. DESIGN CHOICE (log entry 85): the
KV_LEN of a ring member is the group's, and Nk, which its shard has, is no bound of it (R199, R214). -/
def attPlan (k : Ctx) : CmdM (AttPlan × List Bad) := do
  let (q, bq) ← tensorReq k 128
  let (o, bo) ← tensorReq k 320
  let d := k.desc
  let paged := bit d 778
  let ptr := k.field 448 64
  let (src, bk, keyCode, vCode, hkv, hd, vd, nk) ← (do
    if paged then
      let (c, b) ← readCache k (k.field 192 64) 24
      pure (KeySrc.paged c, b, c.fmtCode, c.fmtCode, c.hkv, c.hd, c.vd, 256 * c.maxp)
    else
      let (kt, b1) ← tensorReq k 192
      let (vt, b2) ← tensorReq k 256
      let hk := kt.dims.getD 1 1
      let n := kt.dims.getD 2 1
      pure (KeySrc.dense kt vt, b1 ++ b2 ++ denseShapes q kt vt, kt.fmtCode, vt.fmtCode, hk, kt.dims.getD 3 1, vt.dims.getD 3 1, n)
    : CmdM (KeySrc × List Bad × Nat × Nat × Nat × Nat × Nat × Nat))
  let mq := q.dims.getD 2 1
  let kv := match src with | .dense kt vt => [kt, vt] | _ => [{ Tensor.none with bad := !bk.isEmpty }]
  let kvOk := !kv.any Tensor.bad
  let shapes := bq ++ bo ++ bk ++ attShapes q o kv (q.dims.getD 0 1) hkv hd vd nk (match src with | .dense _ _ => 32 | _ => 24)
  let lens ← if batchOk q then lenRecs k ptr mq nk (List.range (q.dims.getD 0 1)) else pure []
  let slots := match src with | .paged c => if kvOk then c.slots else 2 ^ 32 | _ => 0
  let kmax := match src with
    | .paged c => if kvOk then 256 * c.maxp else 2 ^ 32
    | _ => if k.field 808 4 = 0 && kvOk then nk else 2 ^ 32
  let causal := k.field 776 2 == 1
  let fmt := (fmtOf keyCode).getD (.flt .e4m3)
  let vfmt := (fmtOf vCode).getD (.flt .e4m3)
  let p : AttPlan :=
    { q := q, o := o, src := src, fmt := fmt, vfmt := vfmt, hkv := hkv, hd := hd, vd := vd, nk := nk, stats := k.field 384 64
      lens := lens, causal := causal, base := 0, segs := k.segs
      pads := if q.bucket = 0 then [] else lens.map (fun r =>
        (if r.qlen = 0 then 0 else (paddedRows k.record q.bucket r.qlen).getD 0, (paddedRows k.record q.bucket r.kvlen).getD 0))
      math := ⟨(pathOf q.fmt fmt).getD .ordered, (pathOf (.flt (pFormat q.fmtCode)) vfmt).getD .ordered,
        pFormat q.fmtCode, ofBits32 (field d 704 32), vd⟩
      seed := field d 640 64, conv := k.field 736 8, rstream := field d 744 28
      retrieve := if bit d 779 then some (k.field 784 7, k.field 792 4, k.field 796 4, k.field 800 8) else none }
  let bad := shapes ++ relate (q :: kv) (attFormats q.fmtCode keyCode vCode) 16 ++ relate [o] (o.fmt.isFloat && o.distinct) 40
    ++ relate (q :: kv) (ptr != 0 || !causal || decide (mq ≤ nk)) 16
    ++ lens.flatMap (fun r => lenChecks r (ptr != 0) mq kmax slots 56)
    ++ attBuckets k.record q.bucket mq lens
    ++ relate [q] (k.field 808 4 == 0 || q.dims.getD 0 1 == 1) 16
  pure (p, bad)

/-! ### Keys -/

/-- Element values of one row of bytes of a format. -/
def rowVals (f : Fmt) (bs : List Byte) : List Val := (chunkNums f.size (bs.length / f.size) bs).map (fun c => elemVal f c 0x7F)

/-- Zeros for positions past the last key. -/
def zeroRow (n : Nat) : List Val := List.replicate n (.zero false)

/-- The key and value rows of position `j`, key-value head `g`, of batch entry `b`; `page` is the address of the page
that holds it. -/
def keyAt (k : Ctx) (p : AttPlan) (b g j page : Nat) : CmdM (List Val × List Val) := do
  match p.src with
  | .dense kt vt =>
    if p.nk ≤ j then pure (zeroRow p.hd, zeroRow p.vd)
    else
      let r := (b * p.hkv + g) * p.nk + j
      let x ← readRow k tcOperand kt r
      let y ← readRow k tcOperand vt r
      pure (x.map (fun c => elemVal kt.fmt c.1 c.2), y.map (fun c => elemVal vt.fmt c.1 c.2))
  | .paged c =>
    let x ← readMem k tcOperand (page + c.keyOff g (j % 256)) (c.hd * c.fmt.size)
    let y ← readMem k tcOperand (page + c.valueOff g (j % 256)) (c.vd * c.fmt.size)
    pure (rowVals c.fmt x, rowVals c.fmt y)
  | .buffer base tokens hkv =>
    let e := p.fmt.size
    let x ← readMem k tcOperand (base + (g * tokens + j) * p.hd * e) (p.hd * e)
    let y ← readMem k tcOperand (base + hkv * tokens * p.hd * e + (g * tokens + j) * p.vd * e) (p.vd * e)
    pure (rowVals p.fmt x, rowVals p.vfmt y)

def keysOf (k : Ctx) (p : AttPlan) (b g page : Nat) : List Nat → CmdM (List (Nat × List Val × List Val))
  | [] => pure []
  | j :: js => do
    let x ← keyAt k p b g j page
    let more ← keysOf k p b g page js
    pure ((j, x) :: more)

/-- The address of page `n` of an entry's slot; 0 outside paged mode. -/
def pageOf (k : Ctx) (p : AttPlan) (b n : Nat) : CmdM Nat := do
  match p.src with
  | .paged c => do
    let (a, _) ← readPage k c (p.len b).slot n 24
    pure a
  | _ => pure 0

/-- Key block `n`: 256 positions with their rows. -/
def readBlock (k : Ctx) (p : AttPlan) (b g n : Nat) : CmdM (List (Nat × List Val × List Val)) := do
  let a ← pageOf k p b n
  keysOf k p b g a (range (256 * n) 256)

def readBlocks (k : Ctx) (p : AttPlan) (b g : Nat) : List Nat → CmdM (List (List (Nat × List Val × List Val)))
  | [] => pure []
  | n :: ns => do
    let x ← readBlock k p b g n
    let more ← readBlocks k p b g ns
    pure (x :: more)

/-- Blocks from position `lim` on, whose every key is masked, are not read: they contribute nothing (R192, R195). -/
def readNeeded (k : Ctx) (p : AttPlan) (b g lim : Nat) : List Nat → CmdM (List (List (Nat × List Val × List Val)))
  | [] => pure []
  | n :: ns => do
    let x ← if 256 * n < lim then readBlock k p b g n else pure []
    let more ← readNeeded k p b g lim ns
    pure (x :: more)

/-- Marks the masked positions of a block for query row `i`. -/
def maskBlock (p : AttPlan) (b i : Nat) (blk : List (Nat × List Val × List Val)) : List KeyPos :=
  blk.map (fun x => ⟨x.2.1, x.2.2, p.masked b i (p.base + x.1)⟩)

/-- The partial of a query row over one key segment's blocks (R190, R192). -/
def segmentPart (p : AttPlan) (q : List Val) (b i : Nat) (blks : List (List (Nat × List Val × List Val))) : Part :=
  attSegment p.math q (blks.map (maskBlock p b i))

/-! ### Retrieval (R208, R211, R212) -/

/-- A field of a coarse index image's header. -/
def kvSlots (img : List Byte) : Nat := bytesToNat (img.take 4)
def kvMaxp (img : List Byte) : Nat := bytesToNat ((img.drop 4).take 4)
def kvHkv (img : List Byte) : Nat := (img.getD 8 0).toNat
def kvHd (img : List Byte) : Nat := 16 * (img.getD 9 0).toNat

/-- Byte of the first centroid element of (slot, page, head). -/
def centroidOff (img : List Byte) (s p h : Nat) : Nat :=
  64 + ((s * kvMaxp img + p) * kvHkv img + h) * kvHd img * 2

/-- Size of an image with these fields (R208). -/
def kvSize (slots maxp hkv hd : Nat) : Nat := ceilDiv (64 + slots * maxp * hkv * hd * 2) 64 * 64

/-- The header of an index matches a cache. -/
def indexMatches (img : List Byte) (c : Cache) : Bool :=
  kvSlots img == c.slots && kvMaxp img == c.maxp && kvHkv img == c.hkv && kvHd img == c.hd

/-- Draws a free value (log entry 6). -/
def freeM : CmdM W64 := do
  let s ← get
  set { s with freeCount := s.freeCount + 1 }
  pure (Config.freeWord s.freeCount)

/-- `n` draws of eight free bytes. -/
def freeChunks : Nat → CmdM (List Byte)
  | 0 => pure []
  | n + 1 => do
    let w ← freeM
    let more ← freeChunks n
    pure (bvToBytes 8 w ++ more)

/-! ### Unspecified contents (R197, R214, R239, R321, R333, R340, log entry 6) -/

/-- Gives the bytes of one sector free values. A sector that cannot be written has no contents to change. -/
def spoilSpan (x : Nat × Nat × Nat) : CmdM Unit := do
  let bs := (← freeChunks (ceilDiv x.2.2 8)).take x.2.2
  modify (fun s =>
    if x.2.2 = 32 then
      match writeSector s (dieOfAddr x.1) (winOff x.1) (bytesToBv 256 bs) with
      | (.ok _, t) => t
      | (.error _, _) => s
    else
      match rmwSector s none (dieOfAddr x.1) (winOff x.1) (fun c => mergeSector c x.2.1 bs) [] with
      | (.ok _, t) => t
      | (.error _, _) => s)

/-- Gives bytes `[r.1, r.1 + r.2)` of this module that the command may write free values. -/
def spoilRange (k : Ctx) (r : Nat × Nat) : CmdM Unit := do
  let s ← get
  if isLocal s r.1 && r.2 != 0 && (localRefused s k.part .wr (localOf r.1) r.2).isNone then
    forRows spoilSpan (sectorSpans (localOf r.1) r.2)

/-- The same for a list of ranges, as a change of the state. -/
def spoilRanges (s : State) (k : Ctx) (rs : List (Nat × Nat)) : State := ((forRows (spoilRange k) rs).run.run s).2

/-- What a plan's reads give, without their effects; `none` where a check fails. -/
def peekOf {α : Type} (x : CmdM (α × List Bad)) (s : State) : Option α :=
  match (x.run.run s).1 with
  | .ok (a, []) => some a
  | _ => none

/-- The bytes of row `r` of a tensor, and of all its rows. -/
def Tensor.rowRanges (t : Tensor) (r : Nat) : List (Nat × Nat) :=
  (t.rowRuns r).map (fun x => (t.base + x.1, x.2))
    ++ (if t.fmt.isMx then [(t.scaleBase + r * (t.cols / 32), t.cols / 32)] else [])
def Tensor.ranges (t : Tensor) : List (Nat × Nat) := (List.range t.rows).flatMap t.rowRanges

/-- The status of a failed access to data. -/
def accessStatus (st : Status) : Bool :=
  match st with
  | .memUncorrectable => true
  | .channelOffline => true
  | .fabricUnreachable => true
  | .fabricTimeout => true
  | .accessDenied => true
  | _ => false

/-! ### Scores -/

/-- The score of a page (R211). A page past MAXP has no centroid, and the spec states no score for it: a free one. -/
def pageScore (img : List Byte) (q : List Val) (slot g p : Nat) : Val :=
  if kvMaxp img ≤ p then ofBits32 (Config.farScore (q.map toBits32) slot g p)
  else
    let bs := (img.drop (centroidOff img slot p g)).take (2 * kvHd img)
    let c := (chunkNums 2 (kvHd img) bs).map (decodeFlt .fp16)
    (q.zip c).foldl (fun acc x => ffma x.1 x.2 acc) (.zero true)

/-- Ranks above: a greater score; a NaN ranks below every other. -/
def scoreAbove (a b : Val) : Bool := if isNan a then false else if isNan b then true else ltV b a

/-- The best page; ties go to the lower ordinal, the pages being ascending. -/
def bestPage : List (Nat × Val) → Option (Nat × Val)
  | [] => none
  | x :: xs => match bestPage xs with
    | none => some x
    | some y => if scoreAbove y.2 x.2 then some y else some x

/-- The `n` best pages. -/
def topPages : Nat → List (Nat × Val) → List Nat
  | 0, _ => []
  | n + 1, xs => match bestPage xs with
    | none => []
    | some b => b.1 :: topPages n (xs.filter (fun x => x.1 != b.1))

/-- Eligible pages of query row `i`: those with ordinals 0 to E (R211). -/
def AttPlan.eligible (p : AttPlan) (b i : Nat) : Nat :=
  let r := p.len b
  if p.causal then (r.pos0 + i) / 256 + 1 else ceilDiv r.kvlen 256

/-- Page `n` of `count` eligible ones is a sink or a local page (R211). -/
def fixedPage (sel : Nat × Nat × Nat × Nat) (count n : Nat) : Bool := decide (n < sel.2.1) || decide (count ≤ n + sel.2.2.1)

/-- How many pages are selected for query row `i` (R211). -/
def AttPlan.selected (p : AttPlan) (sel : Nat × Nat × Nat × Nat) (b i : Nat) : Nat :=
  let count := p.eligible b i
  let n := ((List.range count).filter (fixedPage sel count)).length
  n + min sel.1 (count - n)

/-- The selected pages of query row `i`, ascending (R211). -/
def selectPages (k : Ctx) (p : AttPlan) (q : List Val) (b g i : Nat) (sel : Nat × Nat × Nat × Nat) : CmdM (List Nat) := do
  let r := p.len b
  let img := boundImage (← get) k sel.2.2.2
  let count := p.eligible b i
  let cand := (List.range count).filter (fun n => !fixedPage sel count n)
  let best := topPages sel.1 (cand.map (fun n => (n, pageScore img q r.slot g n)))
  pure ((List.range count).filter (fun n => fixedPage sel count n || best.contains n))

/-- Element values of query row `i`. -/
def queryRow (k : Ctx) (p : AttPlan) (b h i : Nat) : CmdM (List Val) := do
  let x ← readRow k tcOperand p.q ((b * p.hq + h) * p.mq + i)
  pure (x.map (fun c => elemVal p.q.fmt c.1 c.2))

/-! ### Rows of the output -/

/-- Writes a finished row and its record (R194). -/
def writeAtt (k : Ctx) (p : AttPlan) (b h i : Nat) (x : Part) : CmdM Unit := do
  let r := (b * p.hq + h) * p.mq + i
  let (vs, mx, ls) := x.finish p.vd
  writeRow k tcOperand p.o r (convertRow32 p.o.fmt p.conv p.seed p.rstream (r * p.vd) vs)
  if p.stats ≠ 0 then writeMem k tcOperand (p.stats + 8 * r) (bvToBytes 4 mx ++ bvToBytes 4 ls)

/-- The bytes of row `i` of O and of its record. -/
def AttPlan.rowRanges (p : AttPlan) (b h i : Nat) : List (Nat × Nat) :=
  let r := (b * p.hq + h) * p.mq + i
  p.o.rowRanges r ++ (if p.stats = 0 then [] else [(p.stats + 8 * r, 8)])

/-! ### Units: a query tile against a key segment (R191, R201, R202, R411) -/

/-- Query rows of entry `b` that units are made for: the real ones, or in bucket mode the padded ones. -/
def AttPlan.tiledRows (p : AttPlan) (b : Nat) : Nat := if p.pads.isEmpty then (p.len b).qlen else (p.pads.getD b (0, 0)).1

/-- The query tiles: batch entry, head, and the tile's number within them. -/
def AttPlan.tiles (p : AttPlan) : List (Nat × Nat × Nat) :=
  (List.range p.batch).flatMap (fun b => (List.range p.hq).flatMap (fun h =>
    (List.range (ceilDiv (p.tiledRows b) 64)).map (fun t => (b, h, t))))

/-- The real rows of a tile. -/
def AttPlan.tileRows (p : AttPlan) (x : Nat × Nat × Nat) : List Nat :=
  range (64 * x.2.2) (min 64 ((p.len x.1).qlen - 64 * x.2.2))

/-- Local key positions up to the last that is unmasked for one of a tile's rows: those that are read (R202, R204). -/
def AttPlan.realKeys (p : AttPlan) (x : Nat × Nat × Nat) : Nat :=
  min p.nk ((((p.tileRows x).getLast?).elim 0 (p.limit x.1)) - p.base)

/-- Local key positions that a tile is scored against: in bucket mode up to the padded count (R201, R202). -/
def AttPlan.tileKeys (p : AttPlan) (x : Nat × Nat × Nat) : Nat :=
  match p.pads[x.1]? with
  | some n => n.2 - p.base
  | none => p.realKeys x

/-- Key segments of tile `t`. -/
def AttPlan.segments (p : AttPlan) (t : Nat) : Nat :=
  let x := p.tiles.getD t (0, 0, 0)
  match p.retrieve with
  | some sel =>
    if p.pads.isEmpty then p.segs.getD t 0
    else (((p.tileRows x).map (fun i => ceilDiv (p.selected sel x.1 i) 16)).foldl max 0)
  | none => ceilDiv (ceilDiv (p.tileKeys x) 256) 16

/-- The units as (tile, segment). A tile whose every key is masked has one unit `least` = 1, which writes its rows (R194). -/
def AttPlan.units (p : AttPlan) (least : Nat) : List (Nat × Nat) :=
  (List.range p.tiles.length).flatMap (fun i => (List.range (max least (p.segments i))).map (fun g => (i, g)))

/-- Bits of a partial, for keeping. -/
def Part.pack (p : Part) : RowPartial := ⟨toBits32 p.m, toBits32 p.l, p.o.map toBits32, p.bad⟩
def Part.unpack (r : RowPartial) : Part := ⟨ofBits32 r.m, ofBits32 r.l, r.o.map ofBits32, r.bad⟩

/-- The blocks of segment `g` for one row in retrieval mode (R212). -/
def retrievedBlocks (k : Ctx) (p : AttPlan) (q : List Val) (b h i g : Nat) (sel : Nat × Nat × Nat × Nat) :
    CmdM (List (List (Nat × List Val × List Val))) := do
  let pages ← selectPages k p q b (p.kvHead h) i sel
  readNeeded k p b (p.kvHead h) (p.limit b i) ((pages.drop (16 * g)).take 16)

/-- The partials of a tile's rows over segment `g`; `blks`: its blocks, where they are one for all rows. -/
def tilePartials (k : Ctx) (p : AttPlan) (b h g : Nat) (blks : List (List (Nat × List Val × List Val))) :
    List Nat → CmdM (List RowPartial)
  | [] => pure []
  | i :: is => do
    let q ← queryRow k p b h i
    let mine ← match p.retrieve with
      | some sel => retrievedBlocks k p q b h i g sel
      | none => pure blks
    let more ← tilePartials k p b h g blks is
    pure ((segmentPart p q b i mine).pack :: more)

/-- Computes the unit of tile `x` and segment `g`. -/
def unitPartials (k : Ctx) (p : AttPlan) (x : Nat × Nat × Nat) (g : Nat) : CmdM (List RowPartial) := do
  let blks ← if p.retrieve.isSome then pure []
    else readNeeded k p x.1 (p.kvHead x.2.1) (p.realKeys x) (range (16 * g) 16)
  tilePartials k p x.1 x.2.1 g blks (p.tileRows x)

/-- The partials of row `j` of a tile, over its segments in ascending order, combined by R193. -/
def tileRow (p : AttPlan) (ps : List TilePart) (n j : Nat) : Part :=
  tree Part.merge (Part.empty p.vd) ((List.range n).filterMap (fun g =>
    (ps.find? (fun x => x.segment == g)).bind (fun x => (x.rows[j]?).map Part.unpack)))

/-- Rows of a tile one after another. After a failed access, the rows not yet written are unspecified and the tile's units
`us` count as settled (R197). -/
def attRows (k : Ctx) (p : AttPlan) (us : List Nat) (b h : Nat) (f : Nat → CmdM Unit) : List Nat → CmdM Unit
  | [] => pure ()
  | i :: is => do
    tryCatch (f i) (fun e => do
      match e with
      | .fail st =>
        if accessStatus st then
          forRows (spoilRange k) ((i :: is).flatMap (p.rowRanges b h))
          modify (fun s => modCmd s k.uid (fun c => { c with unitsDone := c.unitsDone ++ us }))
      | _ => pure ()
      throw e)
    attRows k p us b h f is

/-- The partials that a command holds of tile `t`. -/
def heldParts (s : State) (u : Uid) (t : Nat) : List TilePart :=
  (((findCmd s u).elim [] Cmd.parts)).filter (fun x => x.tile == t)

/-- Keeps the partials of a unit. -/
def keepPart (k : Ctx) (x : TilePart) : CmdM Unit :=
  modify (fun s => modCmd s k.uid (fun c =>
    { c with parts := c.parts.filter (fun y => !(y.tile == x.tile && y.segment == x.segment)) ++ [x] }))

/-- Unit `u` of an ATTEND; the last of its tile writes the tile's rows (R191, R193, R411). -/
def runAttUnit (k : Ctx) (p : AttPlan) (u : Nat) : CmdM Unit := do
  let us := p.units 1
  let (t, g) := us.getD u (0, 0)
  let x := p.tiles.getD t (0, 0, 0)
  let rows := p.tileRows x
  keepPart k ⟨t, g, ← unitPartials k p x g⟩
  let ps := heldParts (← get) k.uid t
  let n := (us.filter (fun y => y.1 == t)).length
  if ps.length = n then
    attRows k p ((List.range us.length).filter (fun v => (us.getD v (0, 0)).1 == t)) x.1 x.2.1
      (fun i => writeAtt k p x.1 x.2.1 i (tileRow p ps n (i - 64 * x.2.2))) rows
    modify (fun s => modCmd s k.uid (fun c => { c with parts := c.parts.filter (fun y => y.tile != t) }))

/-- The tiles whose units are all done. -/
def AttPlan.doneTiles (p : AttPlan) (done : List Nat) : List Nat :=
  let us := p.units 1
  (List.range p.tiles.length).filter (fun t =>
    (List.range us.length).all (fun v => (us.getD v (0, 0)).1 != t || done.contains v))

/-- The units of some tiles. -/
def AttPlan.unitsOf (p : AttPlan) (ts : List Nat) : List Nat :=
  let us := p.units 1
  (List.range us.length).filter (fun v => ts.contains (us.getD v (0, 0)).1)

/-- The rows of a ring member: heads, then real query rows. -/
def ringRows (p : AttPlan) : List (Nat × Nat) :=
  (List.range p.hq).flatMap (fun h => (List.range (p.len 0).qlen).map (fun i => (h, i)))

/-! ### Start checks of the pages -/

/-- Pages that a query row needs (R204). -/
def rowPages (k : Ctx) (p : AttPlan) (b h i : Nat) : CmdM (List Nat) := do
  match p.retrieve with
  | none => pure (List.range (ceilDiv (p.limit b i) 256))
  | some sel => do
    let q ← queryRow k p b h i
    let pages ← selectPages k p q b (p.kvHead h) i sel
    pure (pages.filter (fun n => decide (256 * n < p.limit b i)))

def rowsPages (k : Ctx) (p : AttPlan) (b h : Nat) : List Nat → CmdM (List Nat)
  | [] => pure []
  | i :: is => do
    let x ← rowPages k p b h i
    let more ← rowsPages k p b h is
    pure (x ++ more)

/-- Segments of the pages with a key unmasked for one of some query rows, each row having pages of its own (R202, R212). -/
def retrievedSegs (k : Ctx) (p : AttPlan) (b h : Nat) : List Nat → CmdM Nat
  | [] => pure 0
  | i :: is => do
    let x ← rowPages k p b h i
    let n ← retrievedSegs k p b h is
    pure (max (ceilDiv x.length 16) n)

/-- Those of each tile (R202). -/
def tilesSegs (k : Ctx) (p : AttPlan) : List (Nat × Nat × Nat) → CmdM (List Nat)
  | [] => pure []
  | x :: xs => do
    let n ← retrievedSegs k p x.1 x.2.1 (p.tileRows x)
    let more ← tilesSegs k p xs
    pure (n :: more)

/-- Heads whose selections differ; outside retrieval one head stands for all. -/
def headsPages (k : Ctx) (p : AttPlan) (b : Nat) : List Nat → CmdM (List Nat)
  | [] => pure []
  | h :: hs => do
    let n := (p.len b).qlen
    let x ← if p.retrieve.isSome then rowsPages k p b h (List.range n)
      else if n = 0 then pure [] else rowPages k p b h (n - 1)
    let more ← headsPages k p b hs
    pure (x ++ more)

def pagesBad (k : Ctx) (c : Cache) (slot off : Nat) : List Nat → CmdM (List Bad)
  | [] => pure []
  | n :: ns => do
    let (_, b) ← readPage k c slot n off
    let more ← pagesBad k c slot off ns
    pure (b ++ more)

def entriesBad (k : Ctx) (p : AttPlan) (c : Cache) : List Nat → CmdM (List Bad)
  | [] => pure []
  | b :: bs => do
    let ns ← headsPages k p b (if p.retrieve.isSome then List.range p.hq else [0])
    let x ← pagesBad k c (p.len b).slot 24 ns.dedup
    let more ← entriesBad k p c bs
    pure (x ++ more)

/-- Every page-table entry that the command will read is valid (R197, R204). What names the entries is in order. -/
def pageChecks (k : Ctx) (p : AttPlan) : CmdM (List Bad) := do
  match p.src with
  | .paged c => entriesBad k p c (List.range p.batch)
  | _ => pure []

/-- The index table of a retrieval matches the cache (R208). -/
def retrieveChecks (s : State) (k : Ctx) (p : AttPlan) : List Bad :=
  match p.retrieve, p.src with
  | some sel, .paged c =>
    let t := sel.2.2.2
    let ready := tableReady s k t 100
    ready ++ need (!ready.isEmpty || indexMatches (tableOf s k.part t).current.image c) 24
  | _, _ => []

/-! ### Ring groups (R213, R483) -/

/-- COUNT and PARTITION of a group, and a member's entry: module, die, BUF (R482). -/
def ringGroupOf (s : State) (g : Nat) : RingGroup := smGet RingGroup.dflt s.part.rgroups g
def RingGroup.count (g : RingGroup) : Nat := fieldN g.cfg 0 7
def RingGroup.member (g : RingGroup) (i : Nat) : Nat × Nat × Nat :=
  let m : BitVec 128 := smGet 0 g.members i
  (fieldN m 0 12, fieldN m 12 3, fieldN m 64 64)

/-- RING_GROUP, RING_INSTANCE and RING_SHARD_LOG2. -/
def ringGroupNo (d : BitVec 1024) : Nat := fieldN d 808 4
def ringShard (d : BitVec 1024) : Nat := 2 ^ fieldN d 812 4

/-- The rank of this module's die in a group. -/
def ringRank (s : State) (k : Ctx) (g : RingGroup) : Option Nat :=
  (List.range g.count).find? (fun i =>
    let (m, d, _) := g.member i
    m == s.zw.id.toNat && k.dies == BitVec.ofNat 8 (2 ^ d))

/-- The group checks at start (R483). -/
def ringChecks (s : State) (k : Ctx) : List Bad :=
  let n := ringGroupNo k.desc
  if n = 0 then []
  else
    let g := ringGroupOf s n
    let granted := g.count != 0 && fieldN g.cfg 8 3 == k.part && (partOf s k.part).ringEligible
    if !granted then [(.accessDenied, 101)]
    else
      let ds : List (Nat × Nat) := (List.range g.count).map (fun i => ((g.member i).1, (g.member i).2.1))
      need (decide ds.Nodup) 101
      ++ (match ringRank s k g with
          | none => need false 101
          | some i => need (fieldN k.desc 576 64 == (g.member i).2.2) 72)

/-! ### ATTEND -/

/-- The rows of an ATTEND that its finished units have not written. A ring member writes its rows at its end. -/
def attOutputs (s : State) (k : Ctx) (done : List Nat) : List (Nat × Nat) :=
  match peekOf (attPlan k) s with
  | none => []
  | some p =>
    if ringGroupNo k.desc ≠ 0 then (if !done.contains workDone then (ringRows p).flatMap (fun x => p.rowRanges 0 x.1 x.2) else [])
    else
      let tiles := p.tiles
      let finished := p.doneTiles done
      ((List.range tiles.length).filter (fun t => !finished.contains t)).flatMap (fun t =>
        let x := tiles.getD t (0, 0, 0)
        (p.tileRows x).flatMap (p.rowRanges x.1 x.2.1))

/-- Fetch checks of ATTEND (R196, R213). -/
def fetchAttend (d : BitVec 1024) : List Bad :=
  let paged := bit d 778
  let ret := bit d 779
  let ring := ringGroupNo d != 0
  addrCheck d 128 64 ++ need (fieldN d 128 64 != 0) 16 ++ addrCheck d 192 64 ++ need (fieldN d 192 64 != 0) 24
  ++ addrCheck0 d 256 64 ++ need ((fieldN d 256 64 == 0) == paged) 32
  ++ addrCheck d 320 64 ++ need (fieldN d 320 64 != 0) 40 ++ addrCheck0 d 384 8 ++ addrCheck0 d 448 16
  ++ addrCheck0 d 512 64 ++ addrCheck0 d 576 64 ++ need (ring || fieldN d 512 64 == 0) 64
  ++ need (ring || fieldN d 576 64 == 0) 72
  ++ need (scaleOk (field d 704 32)) 88 ++ convChecks (fieldN d 736 8) 92 true ++ reserved d 772 775
  ++ need (decide (fieldN d 776 2 ≤ 1)) 97 ++ need (!ret || paged) 97 ++ reserved d 780 783
  ++ need (decide (fieldN d 784 7 ≤ 64) && (ret || fieldN d 784 7 == 0)) 98 ++ reserved d 791 791
  ++ need (decide (fieldN d 792 4 ≤ 8) && (ret || fieldN d 792 4 == 0)) 99
  ++ need (if ret then fieldN d 796 4 != 0 else fieldN d 796 4 == 0) 99
  ++ need (if ret then fieldN d 800 8 / 32 == 1 else fieldN d 800 8 == 0) 100
  ++ need (decide (ringGroupNo d ≤ 8)) 101 ++ need (decide (fieldN d 812 4 ≤ 8) && (ring || fieldN d 812 4 == 0)) 101
  ++ need (ring || fieldN d 816 32 == 0) 102 ++ need (!ring || (!paged && !ret)) 97 ++ reserved d 848 1023

/-- A started ring ATTEND of the same group and instance at the same member: both are in breach of R214. -/
def sameRing (k : Ctx) (c : Cmd) : Bool :=
  c.uid != k.uid && opcodeOf c.desc == 0x18 && ringGroupNo c.desc == ringGroupNo k.desc
  && fieldN c.desc 816 32 == fieldN k.desc 816 32 && c.dies == k.dies && (c.phase == .started || c.phase == .suspended)

/-- Marks the ring ATTENDs of a breach of R214. -/
def markRing (k : Ctx) (s : State) : State :=
  if (allCmds s).any (sameRing k) then
    mapCmds s (fun c => if c.uid == k.uid || sameRing k c then { c with coll := { c.coll with breach := true } } else c)
  else s

/-- Every shard but the last holds exactly S · 4,096 keys, and the last at most as many (R214). -/
def shardChecks (s : State) (k : Ctx) (p : AttPlan) : List Bad :=
  let n := ringGroupNo k.desc
  if n = 0 then []
  else
    let g := ringGroupOf s n
    let last := (ringRank s k g).getD 0 + 1 == g.count
    let kv := match p.src with | .dense kt vt => [kt, vt] | _ => []
    if (ringChecks s k).isEmpty then
      relate kv (if last then decide (p.nk ≤ ringShard k.desc * 4096) else p.nk == ringShard k.desc * 4096) 24
    else []

/-- Start checks of ATTEND; answers the tables it uses. -/
def startAttend (k : Ctx) : CmdM (List Nat) := do
  let (p, b0) ← attPlan k
  let b := b0 ++ retrieveChecks (← get) k p
  let pages ← if b.isEmpty then pageChecks k p else pure []
  rejectOn (ringChecks (← get) k ++ b ++ shardChecks (← get) k p ++ pages)
  if ringGroupNo k.desc ≠ 0 then
    modify (markRing k)
    modify (fun s => modCmd s k.uid (fun c =>
      { c with coll := { c.coll with rank := (ringRank s k (ringGroupOf s (ringGroupNo k.desc))).getD 0 } }))
  let segs ← if p.retrieve.isSome && p.pads.isEmpty then tilesSegs k p p.tiles else pure []
  modify (fun s => modCmd s k.uid (fun c => { c with segs := segs }))
  pure (p.retrieve.elim [] (fun r => [r.2.2.2]))

def unitsAttend (k : Ctx) : CmdM Nat := do
  let (p, b) ← attPlan k
  rejectOn b
  pure (p.units 1).length

def unitAttend (k : Ctx) (u : Nat) : CmdM Unit := do
  let (p, b) ← attPlan k
  rejectOn b
  runAttUnit k p u

/-! ### KV_APPEND (R206) -/

/-- Fetch checks of KV_APPEND. -/
def fetchKvAppend (d : BitVec 1024) : List Bad :=
  addrCheck d 128 64 ++ addrCheck d 192 64 ++ addrCheck d 256 64 ++ addrCheck d 320 8
  ++ convChecks (fieldN d 384 8) 48 false ++ reserved d 392 1023

/-- A record of MAP: slot and position. -/
def mapRecs (k : Ctx) (a : Nat) : List Nat → CmdM (List (Nat × Nat))
  | [] => pure []
  | i :: is => do
    let x ← readNum k tcSync (a + 8 * i) 8
    let more ← mapRecs k a is
    pure ((x % 2 ^ 32, x / 2 ^ 32) :: more)

structure AppendPlan where
  cache : Cache
  kt : Tensor
  vt : Tensor
  recs : List (Nat × Nat)
  deriving DecidableEq, Repr

def mapPages (k : Ctx) (c : Cache) : List (Nat × Nat) → CmdM (List Bad)
  | [] => pure []
  | (s, p) :: rest => do
    let (_, b) ← readPage k c s p 16
    let more ← mapPages k c rest
    pure (b ++ more)

/-- A source of KV_APPEND: a float format of R29 that is not MX. -/
def appendFmt (f : Fmt) : Bool := match f with | .flt _ => true | _ => false

def appendPlan (k : Ctx) : CmdM (AppendPlan × List Bad) := do
  let (c, b0) ← readCache k (k.field 128 64) 16
  let (kt, b1) ← tensorReq k 192
  let (vt, b2) ← tensorReq k 256
  let n := kt.dims.getD 0 1
  let cache : Tensor := { Tensor.none with bad := !b0.isEmpty }
  let recs ← if kt.bad then pure [] else mapRecs k (k.field 320 64) (List.range n)
  let fits (r : Nat × Nat) : Bool := decide (r.1 < c.slots) && decide (r.2 < 256 * c.maxp)
  let b3 ← if cache.bad then pure [] else mapPages k c ((recs.filter fits).map (fun r => (r.1, r.2 / 256))).dedup
  pure (⟨c, kt, vt, recs⟩, b0 ++ b1 ++ b2 ++ relate [cache, kt] (kt.dims == [n, c.hkv, c.hd]) 16
    ++ relate [cache, kt, vt] (vt.dims == [n, c.hkv, c.vd]) 16 ++ relate [kt] (appendFmt kt.fmt) 24
    ++ relate [vt] (appendFmt vt.fmt) 32 ++ need (decide recs.Nodup) 40 ++ relate [cache] (recs.all fits) 16 ++ b3)

def startKvAppend (k : Ctx) : CmdM (List Nat) := do
  let (_, b) ← appendPlan k
  rejectOn b
  pure []

def unitsKvAppend (_ : Ctx) : CmdM Nat := pure 1

/-- Writes one head of one appended row. -/
def appendOne (k : Ctx) (p : AppendPlan) (r h : Nat) : CmdM Unit := do
  let (slot, pos) := p.recs.getD r (0, 0)
  let (page, _) ← readPage k p.cache slot (pos / 256) 16
  let conv := k.field 384 8
  let kv ← readRow32 k tcOperand p.kt (r * p.cache.hkv + h)
  let vv ← readRow32 k tcOperand p.vt (r * p.cache.hkv + h)
  let kc := convertRow32 p.cache.fmt conv 0 0 0 kv
  let vc := convertRow32 p.cache.fmt conv 0 0 0 vv
  writeMem k tcOperand (page + p.cache.keyOff h (pos % 256)) (bytesOfCodes p.cache.fmt kc.codes)
  writeMem k tcOperand (page + p.cache.valueOff h (pos % 256)) (bytesOfCodes p.cache.fmt vc.codes)
  addNans k (kc.nans + vc.nans)

def unitKvAppend (k : Ctx) (_ : Nat) : CmdM Unit := do
  let (p, b) ← appendPlan k
  rejectOn b
  forRows (fun r => forRows (appendOne k p r) (List.range p.cache.hkv)) (List.range p.recs.length)

/-! ### KV_INDEX (R209, R210) -/

/-- Fetch checks of KV_INDEX. -/
def fetchKvIndex (d : BitVec 1024) : List Bad :=
  addrCheck d 128 64 ++ need (fieldN d 192 8 / 32 == 1) 24 ++ reserved d 200 255 ++ addrCheck d 256 16
  ++ need (decide (1 ≤ fieldN d 320 32) && decide (fieldN d 320 32 ≤ 65536)) 40 ++ reserved d 352 1023

/-- Records of LIST: slot, ordinal, valid tokens, with their checks; those against the cache, where its descriptor is in order. -/
def indexRecs (k : Ctx) (c : Option Cache) (a : Nat) : List Nat → CmdM (List (Nat × Nat × Nat) × List Bad)
  | [] => pure ([], [])
  | i :: is => do
    let x ← readNum k tcSync (a + 16 * i) 16
    let s := x % 2 ^ 32
    let p := x / 2 ^ 32 % 2 ^ 32
    let n := x / 2 ^ 64 % 2 ^ 32
    let (more, b) ← indexRecs k c a is
    pure ((s, p, n) :: more, needZero (x / 2 ^ 96 == 0) 32 ++ need (decide (1 ≤ n) && decide (n ≤ 256)) 32
      ++ need (c.elim true (fun c => decide (s < c.slots) && decide (p < c.maxp))) 16 ++ b)

/-- The operands of KV_INDEX with its checks. -/
def indexPlan (k : Ctx) : CmdM (Cache × List (Nat × Nat × Nat)) := do
  let (c, b0) ← readCache k (k.field 128 64) 16
  let t := k.field 192 8
  let img := (tableOf (← get) k.part t).current.image
  let ready := tableReady (← get) k t 24
  let sound := b0.isEmpty
  let (rs, b1) ← indexRecs k (if sound then some c else none) (k.field 256 64) (List.range (k.field 320 32))
  let fits (r : Nat × Nat × Nat) : Bool := decide (r.1 < c.slots) && decide (r.2.1 < c.maxp)
  let b2 ← if sound then mapPages k c ((rs.filter fits).map (fun r => (r.1, r.2.1))).dedup else pure []
  rejectOn (b0 ++ ready ++ need (!sound || !ready.isEmpty || indexMatches img c) 16 ++ b1 ++ b2)
  pure (c, rs)

def startKvIndex (k : Ctx) : CmdM (List Nat) := do
  let _ ← indexPlan k
  pure []

def keyRows (k : Ctx) (c : Cache) (page h : Nat) : List Nat → CmdM (List (List Val))
  | [] => pure []
  | t :: ts => do
    let x ← readMem k tcOperand (page + c.keyOff h t) (c.hd * c.fmt.size)
    let more ← keyRows k c page h ts
    pure ((rowVals c.fmt x).map (roundBin b32 .nearest) :: more)

/-- The FP16 centroid codes of one head of a page (R209). -/
def centroid (k : Ctx) (c : Cache) (slot p h n : Nat) : CmdM (List Nat) := do
  let (page, _) ← readPage k c slot p 16
  let rows ← keyRows k c page h (List.range n)
  pure ((transpose rows).map (fun col =>
    (convertFlt .fp16 ⟨.nearest, true⟩ 0 0 (fdiv (col.foldl fadd (.zero false)) (valOfInt n))).1))

/-- Replaces bytes of an image from `o` on. -/
def patchImage (img : List Byte) (o : Nat) (bs : List Byte) : List Byte := img.take o ++ bs ++ img.drop (o + bs.length)

/-- The places and bytes of a record's entries, one a head. -/
def entryPatches (k : Ctx) (c : Cache) (img : List Byte) (r : Nat × Nat × Nat) : List Nat → CmdM (List (Nat × List Byte))
  | [] => pure []
  | h :: hs => do
    let cs ← centroid k c r.1 r.2.1 h r.2.2
    let more ← entryPatches k c img r hs
    pure ((centroidOff img r.1 r.2.1 h, cs.flatMap (natToBytes 2)) :: more)

def allPatches (k : Ctx) (c : Cache) (img : List Byte) : List (Nat × Nat × Nat) → CmdM (List (Nat × List Byte))
  | [] => pure []
  | r :: rs => do
    let x ← entryPatches k c img r (List.range c.hkv)
    let more ← allPatches k c img rs
    pure (x ++ more)

/-- The image with all listed entries computed from the pages. -/
def indexedImage (k : Ctx) : CmdM (List Byte) := do
  let (c, rs) ← indexPlan k
  let img := (tableOf (← get) k.part (k.field 192 8)).current.image
  let ps ← allPatches k c img rs
  pure (ps.foldl (fun im x => patchImage im x.1 x.2) img)

/-! ### ATTEND_BWD (R217 to R219) -/

/-- Fetch checks of ATTEND_BWD. -/
def fetchAttendBwd (d : BitVec 1024) : List Bad :=
  (List.range 9).flatMap (fun i =>
    let lo := 128 + 64 * i
    addrCheck d lo (if i = 5 then 8 else 64))
  ++ need (fieldN d 128 64 != 0) 16
  ++ addrCheck0 d 704 16 ++ need (scaleOk (field d 768 32)) 96 ++ need (decide (fieldN d 800 2 ≤ 1)) 100
  ++ reserved d 802 1023

structure BwdPlan where
  att : AttPlan
  go : Tensor
  fo : Tensor
  stats : Nat
  gq : Tensor
  gk : Tensor
  gv : Tensor
  flt : Flt
  deriving DecidableEq, Repr

/-- The operands of ATTEND_BWD with their checks. -/
def bwdPlan (k : Ctx) : CmdM (BwdPlan × List Bad) := do
  let (q, b0) ← tensorReq k 128
  let (kt, b1) ← tensorReq k 192
  let (vt, b2) ← tensorReq k 256
  let (o, b3) ← tensorReq k 320
  let (go, b4) ← tensorReq k 384
  let (gq, b5) ← tensorReq k 512
  let (gk, b6) ← tensorReq k 576
  let (gv, b7) ← tensorReq k 640
  let bn := q.dims.getD 0 1
  let hkv := kt.dims.getD 1 1
  let nk := kt.dims.getD 2 1
  let mq := q.dims.getD 2 1
  let hd := kt.dims.getD 3 1
  let vd := vt.dims.getD 3 1
  let ptr := k.field 704 64
  let shapes := b0 ++ b1 ++ b2 ++ b3 ++ b4 ++ b5 ++ b6 ++ b7 ++ attShapes q o [kt, vt] bn hkv hd vd nk 32 ++ denseShapes q kt vt
  let lens ← if batchOk q then lenRecs k ptr mq nk (List.range bn) else pure []
  let causal := k.field 800 2 == 1
  let stats := k.field 448 64
  let flt := pFormat q.fmtCode
  let p : AttPlan :=
    { q := q, o := o, src := .dense kt vt, fmt := kt.fmt, vfmt := vt.fmt, hkv := hkv, hd := hd, vd := vd, nk := nk, stats := 0
      lens := lens, causal := causal, pads := [], base := 0, segs := [], math := ⟨.ordered, .ordered, flt, ofBits32 (field k.desc 768 32), vd⟩, seed := 0, conv := 0
      rstream := 0, retrieve := none }
  let ins := [q, kt, vt, o, go]
  let outs := [gq, gk, gv]
  let half := (q.fmtCode == 0x03 || q.fmtCode == 0x02) && ins.all (fun t => t.fmtCode == q.fmtCode)
  let out (t : Tensor) : Bool := t.fmtCode == 0x01 && t.distinct
  let apart (x y : Tensor) : Bool := x.bad || y.bad || !x.meets y
  let bad := shapes ++ relate ins half 16
    ++ relate [o, go] (go.dims == o.dims) 40 ++ relate [q, kt] (decide (q.dims.getD 1 1 / max 1 hkv * mq ≤ 2 ^ 24)) 16
    ++ relate [q, gq] (gq.dims == q.dims) 16 ++ relate [kt, gk] (gk.dims == kt.dims) 24 ++ relate [vt, gv] (gv.dims == vt.dims) 32
    ++ relate [gq] (out gq) 64 ++ relate [gk] (out gk) 72 ++ relate [gv] (out gv) 80
    ++ relate [q, kt] (ptr != 0 || !causal || decide (mq ≤ nk)) 16
    ++ lens.flatMap (fun r => lenChecks r (ptr != 0) mq (if kt.bad then 2 ^ 32 else nk) 0 88)
    ++ need (apart gq gk && apart gq gv) 64 ++ need (apart gk gv) 72
    ++ [(q, 16), (kt, 24), (vt, 32), (o, 40), (go, 48)].flatMap (fun i => need (outs.all (fun t => apart t i.1)) i.2)
    ++ need (outs.all (fun t => t.bad || q.bad || !overlaps t.base t.extent stats (8 * (bn * q.dims.getD 1 1 * mq)))) 56
    ++ [(gq, 64), (gk, 72), (gv, 80)].flatMap (fun t =>
      need (ptr == 0 || t.1.bad || q.bad || !overlaps t.1.base t.1.extent ptr (16 * bn)) t.2)
  pure (⟨p, go, o, stats, gq, gk, gv, flt⟩, bad)

def startAttendBwd (k : Ctx) : CmdM (List Nat) := do
  let (_, b) ← bwdPlan k
  rejectOn b
  pure []

def unitsAttendBwd (_ : Ctx) : CmdM Nat := pure 1

/-- Element values of all rows `[r, r + n)` of a tensor. -/
def rowsVals (k : Ctx) (t : Tensor) : List Nat → CmdM (List (List Val))
  | [] => pure []
  | r :: rs => do
    let x ← readRow k tcOperand t r
    let more ← rowsVals k t rs
    pure (x.map (fun c => elemVal t.fmt c.1 c.2) :: more)

/-- An ordered product of two lists from −0.0 (R44). -/
def dotOrdered (a b : List Val) : Val := (a.zip b).foldl (fun acc x => ffma x.1 x.2 acc) (.zero true)

/-- What one (row, key) pair gives: its places on the contraction axes and converted p and ds. -/
structure BwdTerm where
  row : Nat
  key : Nat
  p : Val
  ds : Val
  deriving DecidableEq, Repr

/-- Rounds to the input format (R218). -/
def toInput (f : Flt) (v : Val) : Val := decodeFlt f (convertFlt f Conv.rne 0 0 v).1

/-- The terms of one real query row (R218). -/
def bwdRow (p : BwdPlan) (b i : Nat) (q go o : List Val) (mx ls : Val) (keys : List (Nat × List Val × List Val)) :
    List BwdTerm :=
  if negInf mx then []
  else
    let delta := dotOrdered go o
    (keys.filter (fun x => !p.att.masked b i x.1)).map (fun x =>
      let t := fmul (fmul (dotOrdered q x.2.1) p.att.math.scale) log2e
      let pr := exp2V (fsub (fsub t mx) ls)
      let ds := fmul (fmul pr (fsub (dotOrdered go x.2.2) delta)) p.att.math.scale
      ⟨i, x.1, toInput p.flt pr, toInput p.flt ds⟩)

/-- A contraction divided into segments of 4,096 indices (R219): terms are (index, a, b), ascending. -/
def contract (n : Nat) (terms : List (Nat × Val × Val)) : Val :=
  tree fadd (.zero true) ((List.range (ceilDiv n 4096)).map (fun g =>
    (terms.filter (fun x => x.1 / 4096 == g)).foldl (fun acc x => ffma x.2.1 x.2.2 acc) (.zero true)))

/-- Gradients of one contraction row: one value a column of `vecs`; +0 where no index takes part. -/
def gradRow (n width : Nat) (terms : List (Nat × Val × List Val)) : List Val :=
  (List.range width).map (fun c =>
    if terms.isEmpty then .zero false
    else contract n (terms.map (fun x => (x.1, x.2.1, x.2.2.getD c (.zero false)))))

def writeGrad (k : Ctx) (t : Tensor) (r : Nat) (vs : List Val) : CmdM Unit :=
  writeRow k tcOperand t r (convertRow32 t.fmt 0 0 0 0 vs)

/-- Terms of all real rows of head `h`; `base` is the head's first index on the combined axis. -/
def headTerms (k : Ctx) (p : BwdPlan) (b h : Nat) (keys : List (Nat × List Val × List Val)) :
    List Nat → CmdM (List (Nat × List Val × List Val × List BwdTerm))
  | [] => pure []
  | i :: is => do
    let r := (b * p.att.hq + h) * p.att.mq + i
    let q ← rowsVals k p.att.q [r]
    let go ← rowsVals k p.go [r]
    let o ← rowsVals k p.fo [r]
    let st ← readNum k tcOperand (p.stats + 8 * r) 8
    let ts := bwdRow p b i (q.headD []) (go.headD []) (o.headD []) (c32 (st % 2 ^ 32)) (c32 (st / 2 ^ 32)) keys
    let more ← headTerms k p b h keys is
    pure ((i, q.headD [], go.headD [], ts) :: more)

/-- GQ of one head: real rows from their terms, padding rows +0. -/
def writeGq (k : Ctx) (p : BwdPlan) (b h : Nat) (keys : List (Nat × List Val × List Val))
    (rows : List (Nat × List Val × List Val × List BwdTerm)) (i : Nat) : CmdM Unit := do
  let ts := match rows.find? (fun x => x.1 == i) with
    | some x => x.2.2.2
    | none => []
  let terms := ts.map (fun t => (t.key, t.ds, (keys.getD t.key (0, [], [])).2.1))
  writeGrad k p.gq ((b * p.att.hq + h) * p.att.mq + i) (gradRow p.att.nk p.att.hd terms)

def headsTerms (k : Ctx) (p : BwdPlan) (b g : Nat) (keys : List (Nat × List Val × List Val)) :
    List Nat → CmdM (List (Nat × List Val × List Val × BwdTerm))
  | [] => pure []
  | h' :: hs => do
    let h := g * (p.att.hq / p.att.hkv) + h'
    let rows ← headTerms k p b h keys (List.range (p.att.len b).qlen)
    forRows (writeGq k p b h keys rows) (List.range p.att.mq)
    let more ← headsTerms k p b g keys hs
    pure (rows.flatMap (fun x => x.2.2.2.map (fun t => (h' * p.att.mq + x.1, x.2.1, x.2.2.1, t))) ++ more)

/-- GK and GV of one key. -/
def writeGkv (k : Ctx) (p : BwdPlan) (b g : Nat) (all : List (Nat × List Val × List Val × BwdTerm)) (j : Nat) :
    CmdM Unit := do
  let mine := all.filter (fun x => x.2.2.2.key == j)
  let n := (p.att.hq / p.att.hkv) * p.att.mq
  let r := (b * p.att.hkv + g) * p.att.nk + j
  writeGrad k p.gk r (gradRow n p.att.hd (mine.map (fun x => (x.1, x.2.2.2.ds, x.2.1))))
  writeGrad k p.gv r (gradRow n p.att.vd (mine.map (fun x => (x.1, x.2.2.2.p, x.2.2.1))))

/-- All gradients of one batch entry and key-value head. -/
def bwdHead (k : Ctx) (p : BwdPlan) (b g : Nat) : CmdM Unit := do
  let keys ← keysOf k p.att b g 0 (List.range p.att.nk)
  let all ← headsTerms k p b g keys (List.range (p.att.hq / p.att.hkv))
  forRows (writeGkv k p b g all) (List.range p.att.nk)

def unitAttendBwd (k : Ctx) (_ : Nat) : CmdM Unit := do
  let (p, b) ← bwdPlan k
  rejectOn b
  forRows (fun e => forRows (bwdHead k p e) (List.range p.att.hkv)) (List.range p.att.batch)

end Sys2Proof.Machine
end

