-- ==== Sys2Proof/Machine/Video.lean ====
section
/-!
DEFINITION. ENCODE, DECODE and MOTION: stream contexts, the reference pool, result records and the motion search
(R334 to R356).
-/
namespace Sys2Proof.Machine

open Sys2Proof

/-! ### Frame buffers (R337) -/

structure Frame where
  luma : Nat
  chroma : Nat
  lumaPitch : Nat
  chromaPitch : Nat
  width : Nat
  height : Nat
  depth : Nat
  deriving DecidableEq, Repr

def parseFrame (d : BitVec 512) : Frame :=
  ⟨fieldN d 0 64, fieldN d 64 64, fieldN d 128 32, fieldN d 160 32, fieldN d 192 16, fieldN d 208 16, fieldN d 224 8⟩

/-- Bytes of a sample, of a luma row and of a chroma row. -/
def Frame.sample (f : Frame) : Nat := if f.depth = 10 then 2 else 1
def Frame.rowBytes (f : Frame) : Nat := f.width * f.sample

/-- The checks of R337 on a frame buffer reached through descriptor byte `off`. -/
def frameChecks (d : BitVec 512) (off : Nat) : List Bad :=
  let f := parseFrame d
  need (addrOk f.luma 64 && addrOk0 f.chroma 64 && f.lumaPitch % 64 == 0 && f.chromaPitch % 64 == 0) off
  ++ need (f.depth == 8 || f.depth == 10) off ++ needZero (fieldN d 232 280 == 0) off

def readFrame (k : Ctx) (a off : Nat) : CmdM (BitVec 512 × List Bad) := do
  let d : BitVec 512 := bytesToBv 512 (← readMem k tcOperand a 64)
  pure (d, frameChecks d off)

/-- Bits `[15:10]` of a 10-bit sample are ignored on read and written as zero. -/
def maskSamples (depth : Nat) (bs : List Byte) : List Byte :=
  if depth = 10 then ((List.range bs.length).zip bs).map (fun x => if x.1 % 2 = 1 then x.2 &&& 3 else x.2) else bs

/-- Exactly `n` bytes: cut, or filled with zeros. -/
def fitBytes (n : Nat) (bs : List Byte) : List Byte := bs.take n ++ List.replicate (n - bs.length) 0

def readPlane (k : Ctx) (a pitch bytes : Nat) : List Nat → CmdM (List Byte)
  | [] => pure []
  | y :: ys => do
    let x ← readMem k tcOperand (a + y * pitch) bytes
    let more ← readPlane k a pitch bytes ys
    pure (x ++ more)

def writePlane (k : Ctx) (a pitch bytes : Nat) (data : List Byte) : List Nat → CmdM Unit
  | [] => pure ()
  | y :: ys => do
    writeMem k tcOperand (a + y * pitch) ((data.drop (y * bytes)).take bytes)
    writePlane k a pitch bytes data ys

/-- Luma, then chroma. -/
def readPlanes (k : Ctx) (f : Frame) : CmdM (List (List Byte)) := do
  let y ← readPlane k f.luma f.lumaPitch f.rowBytes (List.range f.height)
  let c ← if f.chroma = 0 then pure [] else readPlane k f.chroma f.chromaPitch f.rowBytes (List.range (f.height / 2))
  pure [maskSamples f.depth y, maskSamples f.depth c]

def writePlanes (k : Ctx) (f : Frame) (ps : List (List Byte)) : CmdM Unit := do
  let fit (n : Nat) (bs : List Byte) := maskSamples f.depth (fitBytes n bs)
  writePlane k f.luma f.lumaPitch f.rowBytes (fit (f.rowBytes * f.height) (ps.getD 0 [])) (List.range f.height)
  if f.chroma ≠ 0 then
    writePlane k f.chroma f.chromaPitch f.rowBytes (fit (f.rowBytes * (f.height / 2)) (ps.getD 1 []))
      (List.range (f.height / 2))

/-! ### Stream contexts (R335, R338) -/

/-- Fields of a context's header. -/
structure StreamCtx where
  codec : Nat
  profile : Nat
  decode : Bool
  die : Nat
  depth : Nat
  width : Nat
  height : Nat
  rcMode : Nat
  qpMin : Nat
  qpMax : Nat
  qpKey : Nat
  qpInter : Nat
  /-- TARGET_KBPS, MAX_KBPS, BUF_KBITS, FPS_NUM and FPS_DEN. -/
  target : Nat
  peak : Nat
  buffer : Nat
  fpsNum : Nat
  fpsDen : Nat
  deriving DecidableEq, Repr

def parseCtx (h : BitVec 2048) : StreamCtx :=
  ⟨fieldN h 0 8, fieldN h 8 8, bit h 16, fieldN h 17 3, fieldN h 24 8, fieldN h 32 16, fieldN h 48 16, fieldN h 64 3,
    fieldN h 192 8, fieldN h 200 8, fieldN h 208 8, fieldN h 216 8, fieldN h 96 32, fieldN h 128 32, fieldN h 160 32,
    fieldN h 224 16, fieldN h 240 16⟩

/-- Codec, profile and depth of R335. -/
def profileOk (c : StreamCtx) : Bool :=
  match c.codec with
  | 1 => c.profile == 0 && (c.depth == 8 || c.depth == 10)
  | 2 => (c.profile == 1 && c.depth == 8) || (c.profile == 2 && (c.depth == 8 || c.depth == 10))
  | 3 => c.decode && (c.profile == 66 || c.profile == 77 || c.profile == 100) && c.depth == 8
  | _ => false

/-- Frame sizes of R335. -/
def sizeOk (w h : Nat) : Bool :=
  decide (64 ≤ w) && decide (w ≤ 3840) && decide (64 ≤ h) && decide (h ≤ 3840) && w % 2 == 0 && h % 2 == 0
  && decide (w * h ≤ 8294400)

/-- The checks of R334, R335 and R338 on a context at address `a` for die `die`. -/
def ctxChecks (s : State) (h : BitVec 2048) (a die : Nat) (decode : Bool) : List Bad :=
  let c := parseCtx h
  let lim := if c.codec = 2 then 51 else 255
  need (moduleOf a == s.zw.id.toNat && dieOfAddr (localOf a) == die) 16
  ++ need (profileOk c && sizeOk c.width c.height && c.decode == decode && c.die == die) 16
  ++ need (decide (c.rcMode ≤ 2) && (!decode || c.rcMode == 0)) 16
  ++ need (decide (c.qpMin ≤ c.qpKey) && decide (c.qpMin ≤ c.qpInter) && decide (c.qpKey ≤ c.qpMax)
      && decide (c.qpInter ≤ c.qpMax) && decide (c.qpMax ≤ lim)) 16
  ++ need (fieldN h 224 16 != 0 && fieldN h 240 16 != 0) 16
  ++ needZero (fieldN h 20 4 == 0 && fieldN h 67 29 == 0 && fieldN h 256 1792 == 0) 16

/-- What this model keeps in bytes 256 to 287 of a context: the marks used and broken, the level of the leaky bucket, and the bits and
frames of the present run (R342, R343, R349, log entry 13). -/
def ctxUsed (bs : List Byte) : Bool := bit (bs.getD 256 0) 0
def ctxBroken (bs : List Byte) : Bool := bit (bs.getD 256 0) 1
def ctxBucket (bs : List Byte) : Nat := bytesToNat ((bs.drop 264).take 8)
def ctxRunBits (bs : List Byte) : Nat := bytesToNat ((bs.drop 272).take 8)
def ctxRunFrames (bs : List Byte) : Nat := bytesToNat ((bs.drop 280).take 8)

/-- The 3,840 bytes of device state with these. `rate`: bucket, bits and frames. -/
def deviceState (bs : List Byte) (broken : Bool) (rate : Nat × Nat × Nat) : List Byte :=
  natToBytes 8 (if broken then 3 else 1)
  ++ [rate.1, rate.2.1, rate.2.2].flatMap (fun n => natToBytes 8 (saturate 64 n)) ++ (fitBytes 3840 bs).drop 32

/-- A context's bytes without DIE: nothing that the engine makes of them depends on its number (R344). -/
def withoutDie (bs : List Byte) : List Byte := bs.take 2 ++ [bs.getD 2 0 &&& 0xF1] ++ bs.drop 3

/-! ### The reference pool (R339) -/

def bumpCodec (s : State) (d i n : Nat) : State := modCodec s d (fun c => { c with counters := bump c.counters i n })

/-- Stands among the done units of a codec command that was stopped before it wrote anything. -/
def unwritten : Nat := 2 ^ 33

/-- A slot of another context. -/
def foreignSlot (s : State) (d a i : Nat) : Bool :=
  let p := slotOf s d i
  p.owner != 0 && p.owner.toNat != a

def freeSlot (s : State) (d i : Nat) : Bool := slotOf s d i == PoolSlot.dflt

/-- A slot with a mark; NONE has no owner and is free unless its picture awaits output. -/
def markSlot (p : PoolSlot) (mark : BitVec 2) : PoolSlot :=
  if mark = 0 then (if p.pending then { p with mark := 0 } else PoolSlot.dflt) else { p with mark := mark }

/-- The first slot of a mask that another context owns stops the command, which has written nothing and leaves its outputs and slots as
they are (R339). -/
def denySlots (k : Ctx) (d a : Nat) (mask : Nat) : CmdM Unit := do
  let s ← get
  match (List.range 32).find? (fun i => mask / 2 ^ i % 2 == 1 && foreignSlot s d a i) with
  | some i => do
    modify (fun s => modCmd s k.uid (fun c => { c with unitsDone := c.unitsDone ++ [unwritten] }))
    failWith k .accessDenied (BitVec.ofNat 64 i) 0
  | none => pure ()

/-- A codec command has its turn on its engine: it is the first started there, or a REFINE's graph has it and none is started. One
that reads or marks slots also waits until every earlier one has set its own (R340). -/
def engineTurn (s : State) (k : Ctx) (die : Nat) (slots : Bool) : Bool :=
  (s.cmds.find? (fun x => [0x40, 0x41, 0x42].contains (opcodeOf x.desc) && x.phase == .started && (ctxOf s x).die == die)).elim true
    (fun x => x.uid == k.uid)
  && (!slots || s.cmds.all (fun x => x.pool.all (fun y => y.1 != die)))

/-- Commands of an engine that is not ON complete with ABORTED (R357). -/
def engineOn (d : Nat) : CmdM Unit := do
  if (codecOf (← get) d).state != .on then throw (.fail .aborted)

/-! ### ENCODE (R341 to R345) -/

def fetchEncode (d : BitVec 1024) : List Bad :=
  addrCheck d 128 4096 ++ addrCheck d 192 64 ++ addrCheck d 256 64 ++ addrCheck d 320 64
  ++ reserved d 416 447 ++ addrCheck d 448 32
  ++ reserved d 558 567 ++ reserved d 577 607 ++ reserved d 736 1023

/-- Bit `i` of a 32-bit mask at bit `lo`. -/
def maskBit (d : BitVec 1024) (lo i : Nat) : Bool := bit d (lo + i)

/-- MARK_VAL of slot `i`. -/
def markVal (d : BitVec 1024) (i : Nat) : BitVec 2 := field d (672 + 2 * i) 2

/-- What an ENCODE works with. -/
structure EncodePlan where
  header : StreamCtx
  bytes : List Byte
  src : Frame
  recon : BitVec 512
  slot : Nat
  deriving DecidableEq, Repr

/-- The least OUT_SIZE (R342). -/
def leastSize (c : StreamCtx) : Nat := 4096 + c.width * c.height / 64

/-- Reads ENCODE's operands for an engine, with the checks of R342 that no earlier command can change. -/
def encodePlan (k : Ctx) (die : Nat) : CmdM (EncodePlan × List Bad) := do
  let d := k.desc
  let a := k.field 128 64
  let bytes ← readMem k tcOperand a 4096
  let (sd, b1) ← readFrame k (k.field 192 64) 24
  let (rd, b2) ← readFrame k (k.field 256 64) 32
  let h : BitVec 2048 := bytesToBv 2048 bytes
  let c := parseCtx h
  let s ← get
  let src := parseFrame sd
  let rec_ := parseFrame rd
  let fits (f : Frame) := f.width == c.width && f.height == c.height && f.depth == c.depth && f.chroma != 0
  let slot := k.field 552 5
  let all (p : Nat → Bool) := (List.range 32).all p
  let bad := ctxChecks s h a die false ++ b1 ++ b2 ++ need (fits src) 16 ++ need (fits rec_) 16
    ++ need (!bit d 557 || k.field 608 32 == 0) 69
    ++ need (decide (((List.range 32).filter (maskBit d 608)).length ≤ 4)) 76
    ++ need (!maskBit d 608 slot && maskBit d 640 slot) 69
    ++ need (all (fun i => markVal d i != 3 && (maskBit d 640 i || markVal d i == 0))) 80
    ++ need (decide (leastSize c ≤ k.field 384 32)) 16
  pure (⟨c, bytes, src, rd, slot⟩, bad)

/-- The checks of R342 on slots and on the context's first frame, made when the engine takes the command, after the earlier ones have
completed (R340). A slot of another context is R339's, and is left to it. -/
def slotChecks (s : State) (k : Ctx) (die : Nat) (p : EncodePlan) : List Bad :=
  let d := k.desc
  let a := k.field 128 64
  let owned (i : Nat) := (slotOf s die i).owner.toNat == a
  let all (q : Nat → Bool) := (List.range 32).all q
  need (bit d 557 || k.field 608 32 != 0 || ctxUsed p.bytes) 69
  ++ need (all (fun i => !maskBit d 608 i || foreignSlot s die a i || (owned i && (slotOf s die i).mark != 0))) 76
  ++ need (freeSlot s die p.slot || owned p.slot || foreignSlot s die a p.slot) 69
  ++ need (all (fun i => !maskBit d 640 i || i == p.slot || owned i || foreignSlot s die a i)) 80

/-- Start checks of ENCODE on engine `die`; RELEASE is judged by the start tick (R342). -/
def checkEncode (k : Ctx) (die : Nat) : CmdM Unit := do
  engineOn die
  let (_, b) ← encodePlan k die
  let now := (← get).time.now
  rejectOn (need ((diesOf k.dies).length == 1) 129 ++ b
    ++ need (releaseTick k.desc == 0 || validTick (releaseTick k.desc) now) 64)

/-- One die (R334). -/
def startEncode (k : Ctx) : CmdM (List Nat) := do
  checkEncode k k.die
  pure []

def refPlanes (k : Ctx) (die : Nat) : List Nat → CmdM (List (List (List Byte)))
  | [] => pure []
  | i :: is => do
    let x ← readPlanes k (parseFrame (slotOf (← get) die i).frame)
    let more ← refPlanes k die is
    pure (x :: more)

/-- A result record (R351). -/
def resultRec (bytes concealed resyncs out : Nat) (late fallback : Bool) (qp reason : Nat) : List Byte :=
  natToBytes 4 bytes ++ natToBytes 3 (saturate 24 concealed) ++ natToBytes 1 (saturate 8 resyncs)
  ++ natToBytes 1 (out + (if late then 16 else 0) + (if fallback then 32 else 0)) ++ natToBytes 1 qp
  ++ natToBytes 1 reason ++ List.replicate 21 0

/-- The bytes of a frame buffer's planes. -/
def Frame.ranges (f : Frame) : List (Nat × Nat) :=
  (List.range f.height).map (fun y => (f.luma + y * f.lumaPitch, f.rowBytes))
    ++ (if f.chroma = 0 then [] else (List.range (f.height / 2)).map (fun y => (f.chroma + y * f.chromaPitch, f.rowBytes)))

/-- ENCODE's outputs: bitstream, RECON and result (R340). -/
def encodeOutputs (s : State) (k : Ctx) (die : Nat) : List (Nat × Nat) :=
  match peekOf (encodePlan k die) s with
  | none => []
  | some p => (k.field 320 64, k.field 384 32) :: (k.field 448 64, 32) :: (parseFrame p.recon).ranges

/-- The level of the leaky bucket after a frame of some bytes, and its size, in bits times FPS_NUM: a frame's time drains it, then the
frame fills it (R343). -/
def bucketAfter (c : StreamCtx) (level bytes : Nat) : Nat :=
  (level - 1000 * (if c.rcMode = 1 then c.target else c.peak) * c.fpsDen) + 8 * bytes * c.fpsNum
def bucketSize (c : StreamCtx) : Nat := 1000 * c.buffer * c.fpsNum

/-- A frame of some bytes exceeds OUT_SIZE, or overfills the bucket of CBR and VBR, which FORCE_EN bypasses (R343). -/
def overRate (c : StreamCtx) (level size : Nat) (force : Bool) (bytes : Nat) : Bool :=
  decide (size < bytes) || (c.rcMode != 0 && !force && decide (bucketSize c < bucketAfter c level bytes))

/-- A run of FPS_NUM / FPS_DEN frames after one more of some bytes: its bits and frames, none once it is over (R343). -/
def runAfter (c : StreamCtx) (bits frames bytes : Nat) : Nat × Nat :=
  if c.fpsNum ≤ (frames + 1) * c.fpsDen then (0, 0) else (bits + 8 * bytes, frames + 1)

/-- The bits that the run has left of TARGET_KBPS up to and with the next frame, by which the average of VBR tends to it (R343). -/
def runLeft (c : StreamCtx) (bits frames : Nat) : Int := ((frames + 1) * (1000 * c.target * c.fpsDen / c.fpsNum) : Nat) - bits

/-- The rate control's state after a frame: bucket, bits and frames; CQP has none. -/
def rateAfter (c : StreamCtx) (bs : List Byte) (bytes : Nat) : Nat × Nat × Nat :=
  if c.rcMode = 0 then (ctxBucket bs, ctxRunBits bs, ctxRunFrames bs)
  else (bucketAfter c (ctxBucket bs) bytes, runAfter c (ctxRunBits bs) (ctxRunFrames bs) bytes)

/-- The tools that the encoder uses (R336). -/
def encodeTools (codec : Nat) : List VideoTool :=
  if codec = 1 then [.cdef, .loopRestoration, .qpSegmentation] else [.sao, .amp, .transformSkip, .longTerm]

/-- The form of an encoded stream: the context's profile, Main tier, 64 × 64 blocks, uniform tiles (R335, R336). -/
def encodeForm (c : StreamCtx) (level : Fin 52) : StreamForm :=
  ⟨c.codec, c.profile, c.depth, level.val, false, 64, true, encodeTools c.codec⟩

/-- The coding of a frame: at the chosen QP, again at QP_MAX when that is over the rate, and else in the least form, which fits. The
bitstream, with what else the encoder made, the QP used, and whether the least form was taken (R343). -/
def codeFrame (k : Ctx) (p : EncodePlan) (src : List (List Byte)) (refs : List (List (List Byte))) :
    List Byte × EncodeOut × Nat × Bool :=
  let d := k.desc
  let c := p.header
  let ctx := withoutDie p.bytes
  let fields := k.field 384 32 + 2 ^ 32 * fieldN d 552 184
  let force := bit d 576
  let qp := if force then k.field 568 8
    else if c.rcMode = 0 then (if bit d 557 then c.qpKey else c.qpInter)
    else max c.qpMin (min c.qpMax (Config.rateQp ctx src fields (runLeft c (ctxRunBits p.bytes) (ctxRunFrames p.bytes))))
  let stream (x : EncodeOut) : List Byte := Config.bitstream (encodeForm c x.level) x.payload
  let tooBig (x : EncodeOut) : Bool := overRate c (ctxBucket p.bytes) (k.field 384 32) force (stream x).length
  let x := Config.encoder ctx src refs fields (.coded qp)
  let y := Config.encoder ctx src refs fields (.coded c.qpMax)
  let z := Config.encoder ctx src refs fields .least
  if !tooBig x then (stream x, x, qp, false)
  else if !tooBig y then (stream y, y, c.qpMax, false)
  else ((Config.leastStream (leastSize c) (encodeForm c z.level) z.payload).bytes, z, c.qpMax, true)

/-- The slots that an ENCODE sets when it completes: RECON_SLOT with the reconstruction, and every other mark of MARK_SET (R342). -/
def encodePool (s : State) (k : Ctx) (die : Nat) (p : EncodePlan) : List (Nat × Nat × PoolSlot) :=
  ((List.range 32).filter (maskBit k.desc 640)).map (fun i =>
    let x := if i = p.slot then { PoolSlot.dflt with frame := p.recon, owner := BitVec.ofNat 64 (k.field 128 64) } else slotOf s die i
    (die, i, markSlot x (markVal k.desc i)))

/-- ENCODE on engine `die`, once it has its turn: bitstream, RECON, context and result, then the marks (R342 to R345). A failed access
frees the slot that was being written (R340). -/
def encodeOn (k : Ctx) (die : Nat) : CmdM Unit := do
  if !engineTurn (← get) k die true then throw .wait
  let (p, b) ← encodePlan k die
  rejectOn (b ++ slotChecks (← get) k die p)
  denySlots k die (k.field 128 64) (k.field 608 32 ||| k.field 640 32 ||| 2 ^ p.slot)
  let d := k.desc
  let a := k.field 128 64
  let src ← readPlanes k p.src
  let refs ← refPlanes k die ((List.range 32).filter (maskBit d 608))
  let (stream, x, qp, fallback) := codeFrame k p src refs
  let rel := releaseTick d
  let late := rel != 0 && reached (← get).time.now rel
  let slots := encodePool (← get) k die p
  modify (fun s => setSlot s die p.slot PoolSlot.dflt)
  writeMem k tcOperand (k.field 320 64) stream
  writePlanes k (parseFrame p.recon) [x.luma, x.chroma]
  writeMem k tcOperand (a + 256) (deviceState x.context false (rateAfter p.header p.bytes stream.length))
  writeMem k tcOperand (k.field 448 64) (resultRec stream.length 0 0 0 late fallback qp 0)
  modify (fun s =>
    let s := bumpCodec s die 0 1
    let s := bumpCodec s die 6 (if fallback then 1 else 0)
    let s := bumpCodec s die 7 (if late then 1 else 0)
    let s := modCmd s k.uid (fun c => { c with pool := slots, tickReached := c.tickReached || rel == 0 || late })
    settlePool s k.uid)

def unitsOne (_ : Ctx) : CmdM Nat := pure 1

def unitEncode (k : Ctx) (_ : Nat) : CmdM Unit := encodeOn k k.die

/-! ### DECODE (R346 to R351) -/

def fetchDecode (d : BitVec 1024) : List Bad :=
  addrCheck d 128 4096 ++ addrCheck d 192 1
  ++ need (decide (1 ≤ fieldN d 256 32) && decide (fieldN d 256 32 ≤ 2 ^ 28)) 32
  ++ addrCheck d 320 64 ++ addrCheck d 384 32
  ++ need (fieldN d 448 4 != 0) 56 ++ reserved d 453 1023

def readFrames (k : Ctx) (a : Nat) : List Nat → CmdM (List (BitVec 512) × List Bad)
  | [] => pure ([], [])
  | i :: is => do
    let (x, b) ← readFrame k (a + 64 * i) 40
    let (more, bs) ← readFrames k a is
    pure (x :: more, b ++ bs)

/-- The context's bytes and the OUT entries, with the checks of R346. -/
def decodePlan (k : Ctx) : CmdM (List Byte × List (BitVec 512) × List Bad) := do
  let a := k.field 128 64
  let bytes ← readMem k tcOperand a 4096
  let (outs, b) ← readFrames k (k.field 320 64) (List.range (k.field 448 4))
  pure (bytes, outs, ctxChecks (← get) (bytesToBv 2048 bytes) a k.die true ++ b)

/-- The same as a pair, for `peekOf`. -/
def decodePlan' (k : Ctx) : CmdM ((List Byte × List (BitVec 512)) × List Bad) := do
  let (x, y, b) ← decodePlan k
  pure ((x, y), b)

def startDecode (k : Ctx) : CmdM (List Nat) := do
  engineOn k.die
  let (_, _, b) ← decodePlan k
  rejectOn (need ((diesOf k.dies).length == 1) 129 ++ b)
  pure []

/-- DECODE's outputs: the OUT frames and the result (R340). -/
def decodeOutputs (s : State) (k : Ctx) : List (Nat × Nat) :=
  match peekOf (decodePlan' k) s with
  | none => []
  | some (_, outs) => (k.field 384 64, 32) :: outs.flatMap (fun f => (parseFrame f).ranges)

/-- A picture's frame buffer matches the stream's size. -/
def frameFits (x : DecodeOut) (f : Frame) : Bool :=
  f.width == x.width && f.height == x.height && f.depth == x.depth && (f.chroma == 0) == x.mono

def writePictures (k : Ctx) : List (BitVec 512) → List (List (List Byte)) → CmdM Unit
  | f :: fs, p :: ps => do
    writePlanes k (parseFrame f) p
    writePictures k fs ps
  | _, _ => pure ()

/-! ### The syntax of a unit (R336, R347, R349; log entry 13) -/

/-- A leb128 number: its value and its bytes. -/
def leb128 : Nat → List Byte → Option (Nat × Nat)
  | 0, _ => none
  | _ + 1, [] => none
  | n + 1, b :: bs =>
    if b.toNat < 128 then some (b.toNat, 1) else (leb128 n bs).map (fun x => (b.toNat - 128 + 128 * x.1, x.2 + 1))

/-- An OBU or a NAL unit: the places of its header, of its payload and of its end, and its type. -/
structure StreamUnit where
  start : Nat
  kind : Nat
  body : Nat
  stop : Nat
  deriving DecidableEq, Repr

/-- The OBUs of a unit from place `p` on, in the low-overhead format; one without a size runs to the end. `fuel` bounds them. -/
def obusFrom (unit : List Byte) : Nat → Nat → List StreamUnit
  | 0, _ => []
  | fuel + 1, p =>
    match unit.drop p with
    | [] => []
    | h :: rest =>
      let q := if bit h 2 then 1 else 0
      let x : StreamUnit := match (if bit h 1 then leb128 8 (rest.drop q) else none) with
        | some (n, m) => ⟨p, fieldN h 3 4, p + 1 + q + m, p + 1 + q + m + n⟩
        | none => ⟨p, fieldN h 3 4, p + 1 + q, unit.length⟩
      x :: obusFrom unit fuel x.stop

/-- The places behind the start codes of a byte stream. -/
def startCodes : List Byte → Nat → List Nat
  | [], _ => []
  | b :: bs, i => (if b = 0 && bs.take 2 == [0, 1] then [i + 3] else []) ++ startCodes bs (i + 1)

/-- The NAL units behind some start codes. -/
def nalsAt (hevc : Bool) (unit : List Byte) : List Nat → List StreamUnit
  | [] => []
  | p :: ps =>
    let h := unit.getD p 0
    (if hevc then ⟨p, fieldN h 1 6, p + 2, (ps.head?).elim unit.length (· - 3)⟩
      else ⟨p, fieldN h 0 5, p + 1, (ps.head?).elim unit.length (· - 3)⟩) :: nalsAt hevc unit ps

/-- The OBUs or NAL units of a unit. -/
def unitParts (codec : Nat) (unit : List Byte) : List StreamUnit :=
  if codec = 1 then obusFrom unit unit.length 0 else nalsAt (codec == 2) unit (startCodes unit 0)

/-- A NAL unit of a slice; a frame header or a frame of AV1. -/
def pictureUnit (codec : Nat) (x : StreamUnit) : Bool :=
  match codec with
  | 1 => x.kind == 3 || x.kind == 6
  | 2 => decide (x.kind ≤ 9) || (decide (16 ≤ x.kind) && decide (x.kind ≤ 21))
  | _ => x.kind == 1 || x.kind == 5

/-- The first resynchronisation marker past a place: an OBU header, or the NAL unit of a slice (R347). -/
def markerFrom (codec : Nat) (unit : List Byte) (p : Nat) : Option Nat :=
  (((unitParts codec unit).filter (fun x => codec == 1 || pictureUnit codec x)).map StreamUnit.start).find? (fun m => decide (p < m))

/-- The lesser of two places. -/
def firstPlace : Option Nat → Option Nat → Option Nat
  | some a, some b => some (min a b)
  | a, b => a.or b

/-- The first damage of a unit from a place on, with the pictures that the 32 slots hold (R347): a forbidden bit, an OBU size past the
end, a reference to an empty slot, or what the syntax of the standard tells. -/
def damageFrom (slots : List (List (List Byte))) (ctx unit : List Byte) (p : Nat) : Option Nat :=
  let parts := (unitParts (ctx.getD 0 0).toNat unit).filter (fun x => decide (p ≤ x.start))
  let bad := (parts.find? (fun x => bit (unit.getD x.start 0) 7 || decide (unit.length < x.stop))).map StreamUnit.start
  let empty := ((Config.references ctx unit).find? (fun x => decide (p ≤ x.1) && (slots.getD x.2 []).isEmpty)).map Prod.fst
  [bad, empty, Config.syntaxDamage ctx unit p, Config.cutShort ctx unit p].foldl firstPlace none

/-- A unit begins with a random access point: its first picture is an AV1 key frame, an HEVC IRAP picture or an H.264 IDR picture, with
its sequence header or parameter sets before it (R349). -/
def randomAccess (codec : Nat) (unit : List Byte) : Bool :=
  let xs := unitParts codec unit
  match xs.find? (pictureUnit codec) with
  | none => false
  | some x =>
    let ahead (kind : Nat) : Option StreamUnit := xs.find? (fun y => decide (y.start < x.start) && y.kind == kind)
    match codec with
    | 1 => (ahead 1).elim false (fun q => bit (unit.getD q.body 0) 3 || fieldN (unit.getD x.body 0) 5 3 == 0)
    | 2 => decide (16 ≤ x.kind) && [32, 33, 34].all (fun n => (ahead n).isSome)
    | _ => x.kind == 5 && [7, 8].all (fun n => (ahead n).isSome)

/-- An AV1 unit in the low-overhead format: each OBU has its size (R336). -/
def lowOverhead (unit : List Byte) : Bool := (obusFrom unit unit.length 0).all (fun x => bit (unit.getD x.start 0) 1)

/-- The undamaged parts of a unit from a place on, and the resumptions among them: data from a damage up to the next marker are
discarded (R347). `fuel` bounds the damages. -/
def intactParts (slots : List (List (List Byte))) (ctx unit : List Byte) : Nat → Nat → List (List Byte) × Nat
  | 0, _ => ([], 0)
  | fuel + 1, p =>
    match damageFrom slots ctx unit p with
    | none => ([unit.drop p], 0)
    | some d =>
      let part := (unit.drop p).take (d - p)
      match markerFrom (ctx.getD 0 0).toNat unit d with
      | none => ([part], 0)
      | some m =>
        let (more, n) := intactParts slots ctx unit fuel (max m (d + 1))
        (part :: more, n + 1)

/-! ### Concealment (R348) -/

/-- Sample bytes of a row of a plane, two of them a 10-bit sample, little-endian, that hold the mid value. -/
def midByte (depth i : Nat) : Byte := if depth = 10 then (if i % 2 = 1 then 2 else 0) else 128

/-- Bytes of a row of a picture's planes. -/
def rowBytesOf (width depth : Nat) : Nat := width * (if depth = 10 then 2 else 1)

/-- The byte of a plane of the reference picture at row `y` and byte `i` of the row; `none` past its edges, or without a picture of
the same depth (log entry 13). -/
def coLocated (ref : PoolSlot) (plane depth y i : Nat) : Option Byte :=
  let n := rowBytesOf ref.width ref.depth
  if ref.depth = depth && decide (i < n) then (ref.picture.getD plane [])[y * n + i]? else none

/-- A plane with the bytes of lost areas taken from the same places of a reference picture, or the mid value (R348). `bytes`: of a row;
`side`: rows of an area; an area's bytes of a row are as many in luma as in chroma, whose two components lie side by side. -/
def fillPlane (depth bytes side : Nat) (lost : List Nat) (ref : PoolSlot) (plane : Nat) (data : List Byte) : List Byte :=
  let w := rowBytesOf 16 depth
  ((List.range data.length).zip data).map (fun x =>
    let y := x.1 / bytes
    let i := x.1 % bytes
    if lost.contains (y / side * ceilDiv bytes w + i / w) then (coLocated ref plane depth y i).getD (midByte depth i) else x.2)

/-- A decoded picture with its lost areas concealed from a reference picture, the empty slot for none (R348). -/
def conceal (x : DecodeOut) (ref : PoolSlot) (p : DecodedPicture) : List (List Byte) :=
  ((List.range p.planes.length).zip p.planes).map (fun q =>
    fillPlane x.depth (rowBytesOf x.width x.depth) (if q.1 = 0 then 16 else 8) p.lost ref q.1 q.2)

/-- Areas of a frame (R348). -/
def areasOf (x : DecodeOut) : Nat := ceilDiv x.width 16 * ceilDiv x.height 16

/-- The slots of a stream as a unit's pictures are placed. -/
structure DecodeRun where
  slots : SMap PoolSlot
  /-- Decoded pictures without a mark, which need a slot only while they await output. -/
  loose : List PoolSlot
  order : Nat
  concealed : Nat
  /-- The reference process needed a slot and SLOT_MASK held none free (R350). -/
  exhausted : Bool
  deriving DecidableEq, Repr

def DecodeRun.slot (r : DecodeRun) (i : Nat) : PoolSlot := smGet PoolSlot.dflt r.slots i
def DecodeRun.setSlot (r : DecodeRun) (i : Nat) (v : PoolSlot) : DecodeRun := { r with slots := smSet PoolSlot.dflt r.slots i v }

/-- Slots of a mask. -/
def maskSlots (mask : Nat) : List Nat := (List.range 32).filter (fun i => mask / 2 ^ i % 2 == 1)

/-- Puts a picture into the lowest free slot of the mask. -/
def DecodeRun.place (r : DecodeRun) (mask : Nat) (p : PoolSlot) : DecodeRun :=
  match (maskSlots mask).find? (fun i => r.slot i == PoolSlot.dflt) with
  | some i => r.setSlot i p
  | none => { r with exhausted := true }

/-- The most recently decoded picture of a stream that holds a slot (R348). -/
def DecodeRun.latest (r : DecodeRun) (a : Nat) : PoolSlot :=
  (List.range 32).foldl (fun (best : PoolSlot) i =>
    let p := r.slot i
    if p.owner.toNat == a && !p.picture.isEmpty && (best.picture.isEmpty || decide (best.order < p.order)) then p else best)
    PoolSlot.dflt

/-- A value of MARK as bits. -/
def markBits (m : Fin 3) : BitVec 2 := BitVec.ofNat 2 m.val

/-- Takes in the next picture: new marks of the stream's slots in the mask, its concealment, and its slot (R346, R348). -/
def DecodeRun.take (a mask codec : Nat) (x : DecodeOut) (r : DecodeRun) (p : DecodedPicture) : DecodeRun :=
  let r := p.marks.foldl (fun r y =>
    if (maskSlots mask).contains y.1 && (r.slot y.1).owner.toNat == a then r.setSlot y.1 (markSlot (r.slot y.1) (markBits y.2)) else r) r
  let lost := (p.lost.filter (fun i => decide (i < areasOf x))).dedup
  let q : PoolSlot := ⟨0, BitVec.ofNat 64 a, markBits p.mark, p.shown, conceal x (r.latest a) p, r.order, p.turn, false,
    x.width, x.depth, if codec = 1 then p.grain else []⟩
  let r := { r with order := r.order + 1, concealed := r.concealed + lost.length }
  if p.mark = 0 then { r with loose := r.loose ++ [q] } else r.place mask q

/-- Sorts numbered pictures by their places in the output order. -/
def insertTurn (x : Nat × PoolSlot) : List (Nat × PoolSlot) → List (Nat × PoolSlot)
  | [] => [x]
  | y :: ys => if x.2.turn ≤ y.2.turn then x :: y :: ys else y :: insertTurn x ys

def sortTurns : List (Nat × PoolSlot) → List (Nat × PoolSlot)
  | [] => []
  | x :: xs => insertTurn x (sortTurns xs)

/-- The pictures of a stream that await output, numbered by slot, and from 32 on those without one. -/
def DecodeRun.waiting (r : DecodeRun) (a : Nat) : List (Nat × PoolSlot) :=
  ((List.range 32).map (fun i => (i, r.slot i)) ++ (List.range r.loose.length).map (fun i => (32 + i, r.loose.getD i PoolSlot.dflt))).filter
    (fun x => x.2.owner.toNat == a && x.2.pending)

/-- What the output process releases, in output order: those left over from before, then the next ones, all of them with FLUSH
(R346). -/
def DecodeRun.queue (r : DecodeRun) (a released : Nat) (flush : Bool) : List (Nat × PoolSlot) :=
  let fresh := sortTurns ((r.waiting a).filter (fun x => !x.2.due))
  sortTurns ((r.waiting a).filter (fun x => x.2.due)) ++ (if flush then fresh else fresh.take released)

/-- After the output of some pictures of a queue: they no longer wait, the rest of the queue is due, and a picture without a slot that
still waits takes one (R346). -/
def DecodeRun.settle (r : DecodeRun) (a mask : Nat) (out due : List Nat) : DecodeRun :=
  let left (i : Nat) (p : PoolSlot) : PoolSlot :=
    if out.contains i then markSlot { p with pending := false, due := false } p.mark else { p with due := p.due || due.contains i }
  let r := (List.range 32).foldl (fun r i => if (r.slot i).owner.toNat == a then r.setSlot i (left i (r.slot i)) else r) r
  ((List.range r.loose.length).map (fun i => left (32 + i) (r.loose.getD i PoolSlot.dflt))).foldl
    (fun r p => if p.pending then r.place mask p else r) { r with loose := [] }

/-- Pictures of a broken context that awaited output are discarded (R349). -/
def dropPending (a d : Nat) (s : State) : State :=
  (List.range 32).foldl (fun s i =>
    let p := slotOf s d i
    if p.owner.toNat == a && p.pending then setSlot s d i (markSlot { p with pending := false, due := false } p.mark) else s) s

/-- The tools that the decoders do not support (R336). Of more than one operating point the first is decoded, and fields are decoded
as frames, as the table has it (DEDUCED, log entry 13). -/
def refusedTools (codec : Nat) : List VideoTool :=
  match codec with
  | 1 => [.largeScaleTile, .lengthDelimited, .referenceScaling]
  | 2 => [.rangeExtensions]
  | _ => [.paff, .mbaff, .fmo, .aso, .redundantSlices, .spSlices, .siSlices]

/-- Profile, level, tier, depth, chroma format and frame limits of R335, and no tool that R336 leaves out, in a decoded stream. -/
def streamListed (h : StreamCtx) (x : DecodeOut) : Bool :=
  profileOk { h with profile := x.profile, depth := x.depth } && decide (x.level ≤ 51) && !(h.codec == 2 && x.highTier)
  && (!x.mono || h.codec == 1) && sizeOk x.width x.height && !x.tools.any (fun t => (refusedTools h.codec).contains t)

/-- The reason of R350 for which a unit cannot be recovered, 0 for none; SLOTS_EXHAUSTED apart. -/
def reasonOf (h : StreamCtx) (broken : Bool) (unit : List Byte) (x : DecodeOut) : Nat :=
  if broken && !randomAccess h.codec unit then 5
  else if h.codec == 1 && !lowOverhead unit then 2
  else if !x.headers then 1
  else if !streamListed h x then 2
  else if h.width < x.width || h.height < x.height || h.depth < x.depth then 3
  else 0

/-- Ends a DECODE whose unit cannot be recovered (R349). -/
def breakStream (k : Ctx) (bytes : List Byte) (consumed resyncs reason : Nat) : CmdM Unit := do
  let a := k.field 128 64
  writeMem k tcOperand (a + 256) (deviceState (bytes.drop 256) true (0, 0, 0))
  writeMem k tcOperand (k.field 384 64) (resultRec consumed 0 resyncs 0 false false 0 reason)
  modify (fun s => bumpCodec (bumpCodec (dropPending a k.die s) k.die 5 1) k.die 4 resyncs)
  failWith k .streamUnrecoverable (BitVec.ofNat 64 reason) 0

/-- The planes of a picture as it is output: with film grain where its stream asks for it (R336). -/
def shownPlanes (p : PoolSlot) : List (List Byte) := if p.grain.isEmpty then p.picture else Config.filmGrain p.depth p.grain p.picture

/-- The slots that a DECODE sets when it completes. -/
def decodePool (s : State) (d : Nat) (r : DecodeRun) : List (Nat × Nat × PoolSlot) :=
  ((List.range 32).filter (fun i => r.slot i != slotOf s d i)).map (fun i => (d, i, r.slot i))

/-- DECODE of one unit, once it has its turn on the engine (R346 to R350). -/
def unitDecode (k : Ctx) (_ : Nat) : CmdM Unit := do
  if !engineTurn (← get) k k.die true then throw .wait
  let (bytes, outs, b) ← decodePlan k
  let a := k.field 128 64
  let mask := k.field 288 32
  rejectOn b
  denySlots k k.die a mask
  let unit ← readMem k tcOperand (k.field 192 64) (k.field 256 32)
  let h := parseCtx (bytesToBv 2048 bytes)
  let s ← get
  let held := (List.range 32).map (fun i => (slotOf s k.die i).picture)
  let (parts, resyncs) := intactParts held bytes unit (unit.length + 1) 0
  let x := Config.decoder bytes parts held s.freeCount
  set { s with freeCount := s.freeCount + 1 }
  let r0 : DecodeRun := ⟨(codecOf s k.die).slots, [], (codecOf s k.die).decodes, 0, false⟩
  let r1 := x.pictures.foldl (DecodeRun.take a mask h.codec x) r0
  let queue := r1.queue a x.released (bit k.desc 452)
  let out := queue.take outs.length
  let r2 := r1.settle a mask (out.map Prod.fst) (queue.map Prod.fst)
  let reason := reasonOf h (ctxBroken bytes) unit x
  if reason ≠ 0 then breakStream k bytes unit.length (if reason = 5 then 0 else resyncs) reason
  else if r2.exhausted then breakStream k bytes unit.length resyncs 4
  else do
    rejectOn (need (outs.all (fun f => frameFits x (parseFrame f))) 40)
    let slots := decodePool s k.die r2
    modify (fun s => slots.foldl (fun s y => if y.2.2.order = (slotOf s k.die y.2.1).order then s else setSlot s k.die y.2.1 PoolSlot.dflt) s)
    writePictures k outs (out.map (fun y => shownPlanes y.2))
    writeMem k tcOperand (a + 256) (deviceState x.context false (0, 0, 0))
    writeMem k tcOperand (k.field 384 64) (resultRec unit.length r2.concealed resyncs out.length false false 0 0)
    modify (fun s =>
      let s := modCodec s k.die (fun c => { c with decodes := r2.order })
      let s := bumpCodec s k.die 1 1
      let s := bumpCodec s k.die 3 r2.concealed
      let s := bumpCodec s k.die 4 resyncs
      let s := modCmd s k.uid (fun c =>
        { c with pool := slots
                 status := if r2.concealed = 0 then c.status else .okConcealed
                 steps := if r2.concealed = 0 then c.steps else BitVec.ofNat 32 (saturate 32 r2.concealed) })
      settlePool s k.uid)

/-! ### MOTION (R353 to R356) -/

def motionBlock (d : BitVec 1024) : Nat := if bit d 395 then 16 else 8
def motionLevels (d : BitVec 1024) : Nat := fieldN d 396 2

def fetchMotion (d : BitVec 1024) : List Bad :=
  addrCheck d 128 64 ++ addrCheck d 192 64 ++ addrCheck d 256 16
  ++ need (decide (1 ≤ fieldN d 390 5) && decide (fieldN d 390 5 ≤ 16)) 48 ++ need (motionLevels d != 0) 49
  ++ need (decide (2 ≤ motionBlock d / 2 ^ (motionLevels d - 1))) 49 ++ reserved d 399 399
  ++ need (decide (1 ≤ fieldN d 400 7) && decide (fieldN d 400 7 ≤ 64)) 50 ++ reserved d 407 415 ++ reserved d 432 1023

/-- Bytes of a field of `bw` by `bh` blocks. -/
def fieldBytes (bw bh : Nat) : Nat := 16 + 8 * bw * bh

def motionFmt (code : Nat) : Bool := [0x3A, 0x3B, 0x02, 0x03].contains code

structure MotionPlan where
  cur : Tensor
  prev : Tensor
  deriving DecidableEq, Repr

def motionPlan (k : Ctx) : CmdM (MotionPlan × List Bad) := do
  let (c, b0) ← tensorReq k 128
  let (r, b1) ← tensorReq k 192
  let d := k.desc
  let h := c.dims.getD 1 1
  let w := c.dims.getD 2 1
  let ch := c.dims.getD 3 1
  let isFlt := c.fmtCode == 0x02 || c.fmtCode == 0x03
  let scale := field d 320 32
  let offset := field d 352 32
  let blk := motionBlock d
  let n := fieldBytes (ceilDiv w blk) (ceilDiv h blk)
  let bad := b0 ++ b1 ++ need (c.ndim == 4 && c.dims.getD 0 0 == 1) 16 ++ need (r.dims == c.dims && r.fmtCode == c.fmtCode) 16
    ++ need (motionFmt c.fmtCode) 16 ++ need (decide (16 ≤ h) && decide (h ≤ 4096) && decide (16 ≤ w) && decide (w ≤ 4096)
      && decide (ch ≤ 64)) 16
    ++ need (decide (fieldN d 384 6 + fieldN d 390 5 ≤ ch)) 16
    ++ need (if isFlt then scaleOk scale else scale == 0) (if isFlt then 40 else 16)
    ++ need (if isFlt then isFinite (ofBits32 offset) else offset == 0) (if isFlt then 44 else 16)
    ++ need (!overlaps (k.field 256 64) n c.base c.extent) 16 ++ need (!overlaps (k.field 256 64) n r.base r.extent) 24
  pure (⟨c, r⟩, bad)

def startMotion (k : Ctx) : CmdM (List Nat) := do
  engineOn k.die
  let (_, b) ← motionPlan k
  rejectOn (need ((diesOf k.dies).length == 1) 129 ++ b)
  pure []

/-- A sample of R354. -/
def motionSample (t : Tensor) (scale offset : Val) (code : Nat) : Nat :=
  match t.fmt with
  | .flt g =>
    match fmul (fsub (decodeFlt g code) offset) scale with
    | .nan => 0
    | .inf n => if n then 0 else 65535
    | v => (max 0 (min 65535 (rneInt v))).toNat
  | _ => code

/-- A plane set: channels, rows, samples. -/
abbrev Planes := List (List (List Nat))

/-- Sample (y, x) of a plane with coordinates clamped into it. -/
def planeAt (p : List (List Nat)) (y x : Int) : Nat :=
  let h := p.length
  let row := p.getD (min y.toNat (h - 1)) []
  row.getD (min x.toNat (row.length - 1)) 0

/-- The next level down (R354). -/
def halvePlane (p : List (List Nat)) : List (List Nat) :=
  let w := (p.getD 0 []).length
  (List.range (ceilDiv p.length 2)).map (fun (y : Nat) => (List.range (ceilDiv w 2)).map (fun (x : Nat) =>
    let y2 : Int := 2 * y
    let x2 : Int := 2 * x
    (planeAt p y2 x2 + planeAt p y2 (x2 + 1) + planeAt p (y2 + 1) x2 + planeAt p (y2 + 1) (x2 + 1) + 2) / 4))

def levelPlanes (p : Planes) : Nat → Planes
  | 0 => p
  | n + 1 => (levelPlanes p n).map halvePlane

/-- The reference sample at a quarter position (R355). -/
def quarterAt (p : List (List Nat)) (qy qx : Int) : Nat :=
  let iy := qy / 4
  let fy := (qy % 4).toNat
  let ix := qx / 4
  let fx := (qx % 4).toNat
  ((4 - fx) * (4 - fy) * planeAt p iy ix + fx * (4 - fy) * planeAt p iy (ix + 1)
    + (4 - fx) * fy * planeAt p (iy + 1) ix + fx * fy * planeAt p (iy + 1) (ix + 1) + 8) / 16

/-- Sum of absolute differences of a block of side `b` at (by, bx) of one plane; `ref` gives the displaced sample. -/
def blockSad (cur : List (List Nat)) (b by_ bx : Nat) (ref : Int → Int → Nat) : Nat :=
  let h := cur.length
  let w := (cur.getD 0 []).length
  ((range by_ (min b (h - by_))).map (fun (y : Nat) => ((range bx (min b (w - bx))).map (fun (x : Nat) =>
    ((planeAt cur y x : Int) - ref y x).natAbs)).sum)).sum

/-- A vector with its cost, in quarter samples of level 0. -/
structure Cand where
  cost : Nat
  vx : Int
  vy : Int
  deriving DecidableEq, Repr

/-- The better of two candidates (R355). -/
def Cand.better (a b : Cand) : Bool :=
  let la := a.vx.natAbs + a.vy.natAbs
  let lb := b.vx.natAbs + b.vy.natAbs
  if a.cost ≠ b.cost then decide (a.cost < b.cost)
  else if la ≠ lb then decide (la < lb)
  else if a.vy ≠ b.vy then decide (a.vy < b.vy)
  else decide (a.vx < b.vx)

def bestCand : List Cand → Option Cand
  | [] => none
  | c :: cs => match bestCand cs with
    | none => some c
    | some d => if d.better c then some d else some c

/-- Integers from -n to n. -/
def around (n : Nat) : List Int := (List.range (2 * n + 1)).map (fun (i : Nat) => (i : Int) - n)

/-- Integer search at level `l` around displacement (cy, cx), within `n`. -/
def searchLevel (cur prev : Planes) (lambda b by_ bx l n : Nat) (cy cx : Int) : Option Cand :=
  let cl := levelPlanes cur l
  let pl := levelPlanes prev l
  let u : Int := 4 * 2 ^ l
  bestCand ((around n).flatMap (fun i => (around n).map (fun j =>
    let dy := cy + i
    let dx := cx + j
    let sad := ((cl.zip pl).map (fun p =>
      blockSad p.1 (b / 2 ^ l) (by_ / 2 ^ l) (bx / 2 ^ l) (fun y x => planeAt p.2 (max 0 (y + dy)) (max 0 (x + dx))))).sum
    ⟨sad + lambda * ((u * dx).natAbs + (u * dy).natAbs), u * dx, u * dy⟩)))

/-- One sub-sample pass: offsets of `step` quarter samples. -/
def searchQuarter (cur prev : Planes) (lambda b by_ bx : Nat) (step : Int) (best : Cand) : Option Cand :=
  bestCand ([-step, 0, step].flatMap (fun i => [-step, 0, step].map (fun j =>
    let vy := best.vy + i
    let vx := best.vx + j
    let sad := ((cur.zip prev).map (fun p =>
      blockSad p.1 b by_ bx (fun y x => quarterAt p.2 (4 * y + vy) (4 * x + vx)))).sum
    ⟨sad + lambda * (vx.natAbs + vy.natAbs), vx, vy⟩)))

/-- Integer levels below the top. -/
def refineLevels (cur prev : Planes) (lambda b by_ bx : Nat) : Nat → Cand → Cand
  | 0, best => best
  | l + 1, best =>
    let u : Int := 4 * 2 ^ (l + 1)
    refineLevels cur prev lambda b by_ bx l
      ((searchLevel cur prev lambda b by_ bx l 2 (2 * (best.vy / u)) (2 * (best.vx / u))).getD best)

/-- The search of one block (R355). -/
def searchBlock (d : BitVec 1024) (cur prev : Planes) (by_ bx : Nat) : Cand :=
  let b := motionBlock d
  let lambda := fieldN d 416 16
  let top := motionLevels d - 1
  let c := (searchLevel cur prev lambda b by_ bx top (fieldN d 400 7) 0 0).getD ⟨0, 0, 0⟩
  let c := refineLevels cur prev lambda b by_ bx top c
  if bit d 398 then
    let c := (searchQuarter cur prev lambda b by_ bx 2 c).getD c
    (searchQuarter cur prev lambda b by_ bx 1 c).getD c
  else c

def planeRows (k : Ctx) (t : Tensor) (f : Nat → Nat) : List Nat → CmdM (List (List Nat))
  | [] => pure []
  | r :: rs => do
    let x ← readRowCodes k tcOperand t r
    let more ← planeRows k t f rs
    pure (x.map f :: more)

/-- The searched channels of a tensor as planes. -/
def readMotion (k : Ctx) (t : Tensor) : CmdM Planes := do
  let f := motionSample t (ofBits32 (field k.desc 320 32)) (ofBits32 (field k.desc 352 32))
  let h := t.dims.getD 1 1
  let w := t.dims.getD 2 1
  let rows ← planeRows k t f (List.range (h * w))
  pure ((range (k.field 384 6) (k.field 390 5)).map (fun c =>
    (List.range h).map (fun y => ((rows.drop (y * w)).take w).map (fun px => px.getD c 0))))

/-- The bytes of a motion field (R356). -/
def motionBytes (d : BitVec 1024) (cur prev : Planes) (h w : Nat) : List Byte :=
  let b := motionBlock d
  let bw := ceilDiv w b
  let bh := ceilDiv h b
  natToBytes 2 bw ++ natToBytes 2 bh
  ++ natToBytes 12 ((if b = 16 then 4 else 3) + 16 * motionLevels d + (if bit d 398 then 64 else 0))
  ++ (List.range bh).flatMap (fun y => (List.range bw).flatMap (fun x =>
      let c := searchBlock d cur prev (y * b) (x * b)
      natToBytes 2 (c.vx % 65536).toNat ++ natToBytes 2 (c.vy % 65536).toNat ++ natToBytes 4 c.cost))

/-- MOTION's output: its field (R340). -/
def motionOutputs (s : State) (k : Ctx) : List (Nat × Nat) :=
  match peekOf (motionPlan k) s with
  | none => []
  | some p =>
    let b := motionBlock k.desc
    [(k.field 256 64, fieldBytes (ceilDiv (p.cur.dims.getD 2 1) b) (ceilDiv (p.cur.dims.getD 1 1) b))]

/-- MOTION on engine `die`. -/
def motionOn (k : Ctx) (die : Nat) : CmdM Unit := do
  if !engineTurn (← get) k die false then throw .wait
  let (p, b) ← motionPlan k
  rejectOn b
  let cur ← readMotion k p.cur
  let prev ← readMotion k p.prev
  writeMem k tcOperand (k.field 256 64) (motionBytes k.desc cur prev (p.cur.dims.getD 1 1) (p.cur.dims.getD 2 1))
  modify (fun s => bumpCodec s die 2 1)

def unitMotion (k : Ctx) (_ : Nat) : CmdM Unit := motionOn k k.die

end Sys2Proof.Machine
end

