-- ==== Sys2Proof/Machine/Collective.lean ====
section
/-!
DEFINITION. COLLECTIVE: groups, fingerprints, the steps of both algorithms, reductions, and the steps of ring attention
(R214 to R216, R317 to R333).
-/
namespace Sys2Proof.Machine

open Sys2Proof

/-! ### Groups (R320, R321) -/

/-- Bytes of a receive slot. -/
def slotBytes : Nat := 4194304

/-- A group descriptor: GROUP_ID and the scratch address of each rank. -/
structure Group where
  id : Nat
  scratch : List Nat
  deriving DecidableEq, Repr

def Group.count (g : Group) : Nat := g.scratch.length
def Group.scratchOf (g : Group) (i : Nat) : Nat := g.scratch.getD i 0

/-- Module and die of a scratch address: the member it names. -/
def memberOfAddr (a : Nat) : Nat × Nat := (moduleOf a, dieOfAddr (localOf a))

/-- Reads the group descriptor, with the checks of R320; `byte` is GROUP's. -/
def readGroup (k : Ctx) (a byte : Nat) : CmdM (Group × List Bad) := do
  let h : BitVec 512 := bytesToBv 512 (← readMem k tcSync a 64)
  let n := fieldN h 32 7
  let bs ← readMem k tcSync (a + 64) (8 * n)
  let es := chunkNums 8 n bs
  pure (⟨fieldN h 0 32, es⟩,
    needZero (fieldN h 39 473 == 0) byte ++ need (decide (2 ≤ n) && decide (n ≤ 64)) byte
    ++ need (es.all (fun e => addrOk e 4096)) byte ++ need (decide (es.map memberOfAddr).Nodup) byte)

/-- The rank of a die of this module (R320). -/
def Group.rankOf (g : Group) (module die : Nat) : Option Nat :=
  (List.range g.count).find? (fun i => memberOfAddr (g.scratchOf i) == (module, die))

/-! ### The plan of a COLLECTIVE (R317 to R319, R325) -/

/-- Operations (R318). -/
inductive CollOp where
  | allReduce | reduceScatter | allGather | broadcast
  deriving DecidableEq, Repr

def collOp (n : Nat) : CollOp := match n with | 0 => .allReduce | 1 => .reduceScatter | 2 => .allGather | _ => .broadcast

def CollOp.reduces : CollOp → Bool
  | .allReduce => true | .reduceScatter => true | _ => false

structure CollPlan where
  op : CollOp
  redop : Nat
  src : Tensor
  dst : Tensor
  group : Group
  work : Nat
  rank : Nat
  ring : Bool
  root : Nat
  seed : W64
  conv : Nat
  rstream : BitVec 28
  inst : Nat
  opCode : Nat
  deriving DecidableEq, Repr

def CollPlan.n (p : CollPlan) : Nat := p.group.count
def CollPlan.e (p : CollPlan) : Nat := p.src.count
def CollPlan.isInt (p : CollPlan) : Bool := p.src.fmtCode == 0x39

/-- n is a power of two. -/
def pow2 (n : Nat) : Bool := n == 2 ^ Nat.log2 n

/-- RING is selected (R325). -/
def ringChosen (algo n size : Nat) : Bool :=
  match algo with
  | 1 => false
  | 2 => true
  | _ => decide (262144 ≤ size) && pow2 n

/-- Fetch checks of COLLECTIVE (R317). -/
def fetchCollective (d : BitVec 1024) : List Bad :=
  let op := fieldN d 480 4
  let red := op ≤ 1
  let r := fieldN d 484 4
  addrCheck d 128 64 ++ addrCheck d 192 64 ++ addrCheck d 256 64 ++ addrCheck d 320 64
  ++ need (red || fieldN d 320 64 == 0) 40
  ++ need (decide (op ≤ 3)) 60 ++ need (if red then r == 1 || r == 3 || r == 4 else r == 0) 60
  ++ convChecks (fieldN d 488 8) 61 true ++ reserved d 524 527 ++ need (op == 3 || fieldN d 528 6 == 0) 66
  ++ need (fieldN d 534 2 != 3) 66 ++ reserved d 536 1023

/-- Reads the operands of an instance on die `die`, with its checks. -/
def collPlan (k : Ctx) (die : Nat) : CmdM (CollPlan × List Bad) := do
  let (src, b0) ← tensorReq k 128
  let (dst, b1) ← tensorReq k 192
  let (g, b2) ← readGroup k (k.field 256 64) 32
  let op := collOp (k.field 480 4)
  let me := g.rankOf (← get).zw.id.toNat die
  let n := g.count
  let e := src.count
  let algo := k.field 534 2
  let p : CollPlan :=
    { op := op, redop := k.field 484 4, src := src, dst := dst, group := g, work := k.field 320 64, rank := me.getD 0
      ring := ringChosen algo n (e * src.fmt.bits / 8), root := k.field 528 6, seed := field k.desc 384 64
      conv := k.field 488 8, rstream := field k.desc 496 28, inst := k.field 448 32, opCode := k.field 480 4 }
  let srcRed := src.fmtCode == 0x01 || src.fmtCode == 0x03 || src.fmtCode == 0x02 || src.fmtCode == 0x39
  let dstRed := if p.isInt then dst.fmtCode == 0x39
    else [0x01, 0x02, 0x03, 0x10, 0x11].contains dst.fmtCode
  let inPlace := op == .allReduce && dst.identical src
  let listed : Tensor := { Tensor.none with bad := !b2.isEmpty }
  let bad := b0 ++ b1 ++ b2 ++ relate [listed] me.isSome 32
    ++ (if op.reduces then relate [src] srcRed 16 ++ relate [src, dst] dstRed 16 ++ relate [dst] (dst.fmtCode != 0x39 || p.conv == 0) 24
        else relate [src, dst] (src.fmtCode == dst.fmtCode) 16 ++ relate [src] (!src.fmt.isMx && e * src.fmt.bits % 128 == 0) 16
          ++ relate [dst] (dst.fmt.plain && (dst.fmtCode != 0x39 || p.conv == 0)) 24)
    ++ relate [src, dst, listed] (match op with
        | .allReduce => dst.count == e
        | .reduceScatter => n != 0 && e % n == 0 && dst.count == e / n
        | .allGather => dst.count == n * e
        | .broadcast => dst.count == e) 16
    ++ relate [listed] (decide (p.root < n) || op != .broadcast) 32
    ++ relate [listed] (algo != 2 || pow2 n) 32
    ++ relate [dst] dst.distinct 24
    ++ relate [src, dst] (inPlace || !dst.meets src) 16
    ++ relate [src, dst] (!op.reduces || !overlaps dst.base dst.extent p.work (4 * e)) 24
    ++ relate [dst, listed] (g.scratch.all (fun a => !overlaps dst.base dst.extent a scratchBytes)) 24
  pure (p, bad)

/-- Two lists of scratch areas name the same memory (R321). -/
def areasMeet (g h : List Nat) : Bool := g.any (fun a => h.any (fun b => overlaps a scratchBytes b scratchBytes))

/-- The local address of a listed sector. -/
def sectorAddr (s : State) (key : Nat) : Nat :=
  let d := key / 2 ^ 27 / 64
  d * 2 ^ 38 + windowOffset (liveList s d) (key / 2 ^ 27 % 64) (key % 2 ^ 27 * 32)

/-- The sectors of the local bytes `[a, a + n)` hold zeros. -/
def zeroArea (s : State) (a n : Nat) : Bool :=
  s.hbm.all (fun x => x.2.code == 0 || !overlaps (sectorAddr s x.1) 32 a n)

/-- Notes the scratch area of a starting member, and marks the COLLECTIVEs of a breach of R321: an area that is named for the
first time and is not zero, and two groups that name the same memory. -/
def markScratch (k : Ctx) (p : CollPlan) (s : State) : State :=
  let own := p.group.scratchOf p.rank
  let areas := p.group.scratch
  let mate (c : Cmd) : Bool := liveCollective c && c.coll.areas == areas
  let foe (c : Cmd) : Bool := liveCollective c && c.uid != k.uid && c.coll.areas != areas && areasMeet areas c.coll.areas
  let dirty := !s.scratchNamed.contains own && !zeroArea s (localOf own) scratchBytes
  let bad := dirty || (allCmds s).any foe || (allCmds s).any (fun c => mate c && c.coll.breach)
  mapCmds { s with scratchNamed := if s.scratchNamed.contains own then s.scratchNamed else s.scratchNamed ++ [own] } (fun c =>
    if c.uid == k.uid then { c with coll := { c.coll with rank := p.rank, areas := areas, breach := c.coll.breach || bad } }
    else if bad && (mate c || foe c) then { c with coll := { c.coll with breach := true } }
    else c)

/-- Start checks of COLLECTIVE: one die (R319). -/
def startCollective (k : Ctx) : CmdM (List Nat) := do
  let (p, b) ← collPlan k k.die
  rejectOn (need ((diesOf k.dies).length == 1) 129 ++ b)
  modify (markScratch k p)
  pure []

/-- The fingerprint of R322. -/
def CollPlan.print (p : CollPlan) : List Nat :=
  [p.group.id, p.inst, p.n, p.opCode, p.redop, p.src.fmtCode, p.dst.fmtCode, p.e, p.root, if p.ring then 2 else 1]

/-! ### Elements -/

/-- Codes of elements `[e0, e0 + n)` in row-major order; `fuel` bounds the rows. -/
def readElems (k : Ctx) (tc : BitVec 2) (t : Tensor) : Nat → Nat → Nat → CmdM (List Nat)
  | 0, _, _ => pure []
  | fuel + 1, e0, n =>
    if n = 0 then pure []
    else do
      let r := e0 / t.cols
      let c0 := e0 % t.cols
      let m := min n (t.cols - c0)
      let cs ← readRowCodes k tc t r
      let more ← readElems k tc t fuel (e0 + m) (n - m)
      pure ((cs.drop c0).take m ++ more)

/-- Writes codes into row `r` from column `c0` on. In a blocked layout a part of a channel block is written element by
element, with the padding lanes of the last block (R175). -/
def writeCols (k : Ctx) (tc : BitVec 2) (t : Tensor) (r c0 : Nat) (cs : List Nat) : CmdM Unit := do
  if t.layout = 0 then writeRuns k tc t.base (t.partWrites r c0 cs)
  else
    let last := ceilDiv t.cols t.blockC * t.blockC
    let pads := if c0 + cs.length = t.cols then range t.cols (last - t.cols) else []
    writeRuns k tc t.base
      (((List.range cs.length).map (fun i => (t.elemOffset r (c0 + i), natToBytes t.fmt.size (cs.getD i 0))))
        ++ pads.map (fun c => (t.elemOffset r c, natToBytes t.fmt.size 0)))

def writeElems (k : Ctx) (tc : BitVec 2) (t : Tensor) : Nat → Nat → List Nat → CmdM Unit
  | 0, _, _ => pure ()
  | fuel + 1, e0, cs =>
    if cs.isEmpty then pure ()
    else do
      let c0 := e0 % t.cols
      let m := min cs.length (t.cols - c0)
      writeCols k tc t (e0 / t.cols) c0 (cs.take m)
      writeElems k tc t fuel (e0 + m) (cs.drop m)

/-- A SRC element as the 32-bit value that is reduced: binary32 bits, or INT32 (R323). -/
def srcValue (t : Tensor) (code : Nat) : W32 :=
  if t.fmtCode = 0x39 then BitVec.ofNat 32 code else toBits32 (elemVal t.fmt code 0x7F)

/-- The combine operation of R323. -/
def collCombine (isInt : Bool) (redop : Nat) (a b : W32) : W32 :=
  if isInt then
    match redop with
    | 1 => a + b
    | 3 => if a.toInt < b.toInt then b else a
    | _ => if b.toInt < a.toInt then b else a
  else
    let x := ofBits32 a
    let y := ofBits32 b
    toBits32 (match redop with | 1 => fadd x y | 3 => fmax x y | _ => fmin x y)

/-- Converts reduced values of DST elements from index `e0` on (R324); codes and NaN conversions. -/
def dstCodes (p : CollPlan) (e0 : Nat) (vs : List W32) : RowCodes :=
  if p.isInt then ⟨vs.map BitVec.toNat, [], 0⟩
  else convertRow32 p.dst.fmt p.conv p.seed p.rstream e0 (vs.map ofBits32)

/-- Writes reduced values as DST elements from `e0` on. -/
def writeColl (k : Ctx) (p : CollPlan) (e0 : Nat) (vs : List W32) : CmdM Unit := do
  let x := dstCodes p e0 vs
  writeElems k tcBulk p.dst (vs.length + 1) e0 x.codes
  addNans k x.nans

/-! ### The result as a whole (R323) -/

/-- The reduction of all ranks' values, element by element. -/
def reduceAll (p : CollPlan) (vals : List (List W32)) : List W32 :=
  (List.range p.e).map (fun i => tree (collCombine p.isInt p.redop) 0 (vals.map (fun v => v.getD i 0)))

/-- Writes a member's DST from every rank's SRC: values for reductions, codes for moves. -/
def writeResult (k : Ctx) (p : CollPlan) (vals : List (List W32)) : CmdM Unit := do
  let codes (i : Nat) : List Nat := (vals.getD i []).map BitVec.toNat
  match p.op with
  | .allReduce => writeColl k p 0 (reduceAll p vals)
  | .reduceScatter =>
    let m := p.e / p.n
    writeColl k p 0 (((reduceAll p vals).drop (p.rank * m)).take m)
  | .allGather => writeElems k tcBulk p.dst (p.n * p.e + 1) 0 ((List.range p.n).flatMap codes)
  | .broadcast => writeElems k tcBulk p.dst (p.e + 1) 0 (codes p.root)

/-- A member's own contribution. -/
def ownValues (k : Ctx) (p : CollPlan) : CmdM (List W32) := do
  let cs ← readElems k tcBulk p.src (p.e + 1) 0 p.e
  pure (cs.map (fun c => if p.op.reduces then srcValue p.src c else BitVec.ofNat 32 c))

/-! ### Members of this module -/

/-- A descriptor of a member of a collective or of a ring attention. -/
def groupDesc (d : BitVec 1024) : Bool := opcodeOf d == 0x38 || (opcodeOf d == 0x18 && ringGroupNo d != 0)

/-- A command is such a member. -/
def groupCmd (c : Cmd) : Bool := groupDesc c.desc

/-- The die of a one-die command. -/
def Cmd.die (c : Cmd) : Nat := (diesOf c.dies).headD 0

/-- INSTANCE, or RING_INSTANCE (R317, R214). -/
def instanceOf (d : BitVec 1024) : Nat := if opcodeOf d == 0x38 then fieldN d 448 32 else fieldN d 816 32

/-- The plan of another member's command of this module, without effect on the state. -/
def peekPlan (s : State) (c : Cmd) : Option CollPlan :=
  match ((collPlan (ctxOf s c) c.die).run.run s).1 with
  | .ok (p, []) => some p
  | _ => none

/-- Ring members: module and die of each rank. -/
def ringMembers (g : RingGroup) : List (Nat × Nat) :=
  (List.range g.count).map (fun i => ((g.member i).1, (g.member i).2.1))

/-- The fingerprint of a ring attention (R214). -/
def ringPrint (s : State) (c : Cmd) : List Nat :=
  let d := c.desc
  let g := ringGroupOf s (ringGroupNo d)
  let shape := match ((attPlan (ctxOf s c)).run.run s).1 with
    | .ok (p, _) =>
      let (kc, vc) := match p.src with | .dense kt vt => (kt.fmtCode, vt.fmtCode) | _ => (0, 0)
      [p.batch, p.hq, p.hkv, p.hd, p.vd, p.q.fmtCode, kc, vc, p.o.fmtCode]
    | .error _ => []
  [ringGroupNo d, fieldN d 816 32, g.count]
    ++ (List.range g.count).flatMap (fun i => let m := g.member i; [m.1, m.2.1, m.2.2])
    ++ shape ++ [fieldN d 704 32, fieldN d 776 2, fieldN d 812 4]

/-- Module and die of every rank of a member's group, and its own fingerprint. -/
def groupView (s : State) (c : Cmd) : Option (List (Nat × Nat) × List Nat) :=
  if opcodeOf c.desc == 0x38 then (peekPlan s c).map (fun p => (p.group.scratch.map memberOfAddr, p.print))
  else some (ringMembers (ringGroupOf s (ringGroupNo c.desc)), ringPrint s c)

/-- Two commands use one group's memory: of a collective, the scratch area that one names for the other's member is the
other's own; of a ring attention, the ring group is one (R213, R321). -/
def sameArea (s : State) (c x : Cmd) (m : Nat × Nat) : Bool :=
  if opcodeOf c.desc == 0x38 then
    match peekPlan s c, peekPlan s x with
    | some p, some q => p.group.scratch.find? (fun a => memberOfAddr a == m) == some (q.group.scratchOf q.rank)
    | _, _ => false
  else ringGroupNo c.desc == ringGroupNo x.desc

/-- The first command of this module on the rank's die that stands for it in `c`'s group and satisfies `ok`. -/
def findMember (s : State) (c : Cmd) (ok : Cmd → Bool) (m : Nat × Nat) : Option Cmd :=
  if m.1 != s.zw.id.toNat then none
  else (allCmds s).find? (fun x => groupCmd x && opcodeOf x.desc == opcodeOf c.desc && ok x
    && x.dies == BitVec.ofNat 8 (2 ^ m.2) && sameArea s c x m)

/-- `x` belongs to the instance that `c` does, and has joined it or not as `c` has (R322). -/
def sameInstance (c x : Cmd) : Bool := instanceOf x.desc == instanceOf c.desc && x.coll.joined == c.coll.joined

/-- The started command of this module that stands for a rank of `c`'s group. -/
def memberCmd (s : State) (c : Cmd) (m : Nat × Nat) : Option Cmd :=
  findMember s c (fun x => x.phase == .started && sameInstance c x) m

/-- The command that a waiting member meets at a rank: its own instance's, else one that waits there with another, whose
fingerprint differs (R322). -/
def joinCmd (s : State) (c : Cmd) (m : Nat × Nat) : Option Cmd :=
  (memberCmd s c m).or (findMember s c (fun x => x.phase == .started && !x.coll.joined) m)

/-- The local members of `c`'s group, `c` included. -/
def localMembers (s : State) (c : Cmd) : List Cmd :=
  match groupView s c with
  | none => []
  | some (ms, _) => ms.filterMap (memberCmd s c)

/-- No rank of `c`'s group lies on another module. -/
def allLocal (s : State) (c : Cmd) : Bool :=
  (groupView s c).elim false (fun v => v.1.all (fun m => m.1 == s.zw.id.toNat))

/-- A member may take another step: no boundary has been agreed or is being agreed at or before this step (R331, R333). -/
def stepsOn (c : Cmd) : Bool :=
  c.coll.joined && c.coll.yieldAt.elim true (fun b => decide (c.coll.step < b))
  && c.coll.paused.elim true (fun b => decide (c.coll.step < b))

/-! ### Steps (R326 to R328) -/

/-- The partner of a rank in a round of DOUBLING (R326). -/
def dblPartner (n k r : Nat) : Option Nat :=
  let h := 2 ^ r
  let x := if k / h % 2 = 0 then k + h else k - h
  if x < n then some x
  else
    let s := k / (2 * h) * (2 * h) + h
    if n ≤ s then none else some (s + (k % h) % (n - s))

/-- Ranks that name `k` as their partner. -/
def dblTargets (n k r : Nat) : List Nat := (List.range n).filter (fun m => dblPartner n m r == some k)

/-- What a member does in one step: ranks it sends to and receives from, element ranges (first, count), and whether what
it receives is combined (`some lower`: its own value is the lower half's) or moved into DST. -/
structure CollStep where
  targets : List Nat
  send : List (Nat × Nat)
  peer : Option Nat
  recv : List (Nat × Nat)
  merge : Option Bool
  /-- The values sent are still SRC's: nothing has been combined into WORK. -/
  first : Bool
  deriving DecidableEq, Repr

/-- Elements in a list of ranges. -/
def rangeCount (rs : List (Nat × Nat)) : Nat := (rs.map Prod.snd).sum

/-- Elements `[lo, lo + cap)` of concatenated ranges. -/
def cutRanges : List (Nat × Nat) → Nat → Nat → List (Nat × Nat)
  | [], _, _ => []
  | (a, n) :: rs, lo, cap =>
    if n ≤ lo then cutRanges rs (lo - n) cap
    else
      let m := min (n - lo) cap
      if m = 0 then [] else (a + lo, m) :: cutRanges rs 0 (cap - m)

/-- Elements of a transfer of at most 4 MiB. -/
def CollPlan.cap (p : CollPlan) (merge : Bool) : Nat :=
  if merge then slotBytes / 4 else slotBytes * 8 / p.dst.fmt.bits

/-- Chunk c of RING (R327). -/
def CollPlan.chunk (p : CollPlan) (c : Nat) : Nat × Nat := (c * p.e / p.n, (c + 1) * p.e / p.n - c * p.e / p.n)

/-- Chunks that a member sends in round r of the reduce-scatter. -/
def rsChunks (n k r : Nat) : List Nat :=
  (List.range n).filter (fun c => c % 2 ^ r == k % 2 ^ r && c / 2 ^ r % 2 != k / 2 ^ r % 2)

/-- DST elements of rank `i` in a move. -/
def CollPlan.block (p : CollPlan) (i : Nat) : Nat × Nat :=
  match p.op with
  | .allGather => (i * p.e, p.e)
  | .broadcast => (0, p.e)
  | _ => p.chunk i

/-- DST elements of ranks `[a, a + w)` below n; for a BROADCAST all of it when ROOT is among them. -/
def CollPlan.run (p : CollPlan) (a w : Nat) : List (Nat × Nat) :=
  match p.op with
  | .broadcast => if a ≤ p.root && p.root < a + w then [(0, p.e)] else []
  | _ => (range a (min w (p.n - a))).map p.block

/-- Rounds as (transfers of this member before cutting, steps in the round). -/
def CollPlan.rounds (p : CollPlan) : List (CollStep × Nat) :=
  let n := p.n
  let k := p.rank
  let lg := Nat.log2 (2 * n - 1)
  if !p.ring then
    (List.range lg).map (fun r =>
      let pt := dblPartner n k r
      let h := 2 ^ r
      if p.op.reduces then
        (⟨dblTargets n k r, [(0, p.e)], pt, if pt.isSome then [(0, p.e)] else [], some (k / h % 2 == 0), r == 0⟩,
          ceilDiv p.e (p.cap true))
      else
        (⟨dblTargets n k r, p.run (k / h * h) h, pt, pt.elim [] (fun m => p.run (m / h * h) h), none, false⟩,
          ceilDiv (match p.op with | .broadcast => p.e | _ => h * p.e) (p.cap false)))
  else
    let next := (k + 1) % n
    let prev := (k + n - 1) % n
    let reduce := (List.range lg).map (fun r =>
      let m := if k / 2 ^ r % 2 = 0 then k + 2 ^ r else k - 2 ^ r
      (⟨[m], (rsChunks n k r).map p.chunk, some m, (rsChunks n m r).map p.chunk, some (k / 2 ^ r % 2 == 0), r == 0⟩,
        ceilDiv ((n / 2 ^ (r + 1)) * ceilDiv p.e n) (p.cap true)))
    let gather := (List.range (n - 1)).map (fun i =>
      ((⟨[next], [p.block ((k + n - i) % n)], some prev, [p.block ((k + 2 * n - i - 1) % n)], none, false⟩ : CollStep),
        ceilDiv (match p.op with | .allGather => p.e | _ => ceilDiv p.e n) (p.cap false)))
    match p.op with
    | .allReduce => reduce ++ gather
    | .reduceScatter => reduce
    | .allGather => gather
    | .broadcast => []

/-- Pieces of a broadcast around the ring, and the step of a member at distance d from ROOT (R327). -/
def CollPlan.bcastStep (p : CollPlan) (t : Nat) : CollStep :=
  let n := p.n
  let d := (p.rank + n - p.root) % n
  let piece (j : Nat) := cutRanges [(0, p.e)] (j * p.cap false) (p.cap false)
  ⟨if d + 1 < n && d ≤ t && !(piece (t - d)).isEmpty then [(p.rank + 1) % n] else [],
   if d ≤ t then piece (t - d) else [],
   if 1 ≤ d && d ≤ t + 1 && !(piece (t + 1 - d)).isEmpty then some ((p.rank + n - 1) % n) else none,
   if 1 ≤ d && d ≤ t + 1 then piece (t + 1 - d) else [], none, false⟩

/-- The step of a round list with number `t`. -/
def stepOf (p : CollPlan) : List (CollStep × Nat) → Nat → Option CollStep
  | [], _ => none
  | (x, m) :: rest, t =>
    if t < m then
      let cap := p.cap x.merge.isSome
      let send := cutRanges x.send (t * cap) cap
      let recv := cutRanges x.recv (t * cap) cap
      some { x with
        targets := if send.isEmpty then [] else x.targets
        send := send
        peer := if recv.isEmpty then none else x.peer
        recv := recv }
    else stepOf p rest (t - m)

/-- Steps of the whole operation. -/
def CollPlan.steps (p : CollPlan) : Nat :=
  if p.ring && p.op == .broadcast then ceilDiv p.e (p.cap false) + p.n - 2 else (p.rounds.map Prod.snd).sum

def CollPlan.stepAt (p : CollPlan) (t : Nat) : Option CollStep :=
  if p.ring && p.op == .broadcast then (if t < p.steps then some (p.bcastStep t) else none)
  else stepOf p p.rounds t

/-- Steps that combine: those of the reduce phase. -/
def CollPlan.mergeSteps (p : CollPlan) : Nat :=
  if !p.op.reduces then 0 else ((p.rounds.filter (fun x => x.1.merge.isSome)).map Prod.snd).sum

/-- Address of step counter `i` in a scratch header, and of receive slot `j` (log entry 26). -/
def counterAt (scratch i : Nat) : Nat := scratch + 8 * i
def slotAt (scratch j : Nat) : Nat := scratch + 4096 + slotBytes * (j % 2)

/-- 4-byte values of WORK elements. -/
def readWork (k : Ctx) (p : CollPlan) (r : Nat × Nat) : CmdM (List W32) := do
  let bs ← readMem k tcBulk (p.work + 4 * r.1) (4 * r.2)
  pure ((chunkNums 4 r.2 bs).map (BitVec.ofNat 32))

/-- A member's value of a range: SRC before the first combination, WORK afterwards. -/
def valueOf (k : Ctx) (p : CollPlan) (first : Bool) (r : Nat × Nat) : CmdM (List W32) := do
  if first then
    let cs ← readElems k tcBulk p.src (r.2 + 1) r.1 r.2
    pure (cs.map (srcValue p.src))
  else readWork k p r

def valuesOf (k : Ctx) (p : CollPlan) (first : Bool) : List (Nat × Nat) → CmdM (List W32)
  | [] => pure []
  | r :: rs => do
    let x ← valueOf k p first r
    let more ← valuesOf k p first rs
    pure (x ++ more)

def codesOf (k : Ctx) (p : CollPlan) : List (Nat × Nat) → CmdM (List Nat)
  | [] => pure []
  | r :: rs => do
    let x ← readElems k tcBulk p.dst (r.2 + 1) r.1 r.2
    let more ← codesOf k p rs
    pure (x ++ more)

/-- The bytes of a step's transfer. -/
def stepBytes (k : Ctx) (p : CollPlan) (x : CollStep) : CmdM (List Byte) := do
  if x.merge.isSome then
    let vs ← valuesOf k p x.first x.send
    pure (vs.flatMap (bvToBytes 4))
  else
    let cs ← codesOf k p x.send
    pure (bytesOfCodes p.dst.fmt cs)

/-- Combines a received range into WORK, lower half first (R326, R327). -/
def mergeRanges (k : Ctx) (p : CollPlan) (first lower : Bool) : List (Nat × Nat) → List W32 → CmdM Unit
  | [], _ => pure ()
  | r :: rs, vs => do
    let mine ← valueOf k p first r
    let theirs := vs.take r.2
    let z := (mine.zip theirs).map (fun x =>
      if lower then collCombine p.isInt p.redop x.1 x.2 else collCombine p.isInt p.redop x.2 x.1)
    writeMem k tcBulk (p.work + 4 * r.1) (z.flatMap (bvToBytes 4))
    mergeRanges k p first lower rs (vs.drop r.2)

/-- Keeps a range of SRC in WORK that nothing is combined into in the first round. -/
def keepRanges (k : Ctx) (p : CollPlan) : List (Nat × Nat) → CmdM Unit
  | [] => pure ()
  | r :: rs => do
    let mine ← valueOf k p true r
    writeMem k tcBulk (p.work + 4 * r.1) (mine.flatMap (bvToBytes 4))
    keepRanges k p rs

def moveRanges (k : Ctx) (p : CollPlan) : List (Nat × Nat) → List Nat → CmdM Unit
  | [], _ => pure ()
  | r :: rs, cs => do
    writeElems k tcBulk p.dst (r.2 + 1) r.1 (cs.take r.2)
    moveRanges k p rs (cs.drop r.2)

/-- Takes what has landed in the slot of step `t`. -/
def absorb (k : Ctx) (p : CollPlan) (x : CollStep) (t : Nat) : CmdM Unit := do
  let slot := slotAt (p.group.scratchOf p.rank) t
  let n := rangeCount x.recv
  match x.merge with
  | some lower =>
    if x.peer.isNone then (if x.first then keepRanges k p x.send else pure ())
    else
      let bs ← readMem k tcBulk slot (4 * n)
      mergeRanges k p x.first lower x.recv ((chunkNums 4 n bs).map (BitVec.ofNat 32))
  | none =>
    if x.peer.isNone then pure ()
    else
      let bs ← readMem k tcBulk slot (n * p.dst.fmt.bits / 8)
      moveRanges k p x.recv (codesOfBytes p.dst.fmt n bs)

/-- Before the first move, a member's own part stands in DST (R327). -/
def placeOwn (k : Ctx) (p : CollPlan) : CmdM Unit := do
  match p.op with
  | .allGather => do
    let cs ← readElems k tcBulk p.src (p.e + 1) 0 p.e
    writeElems k tcBulk p.dst (p.e + 1) (p.rank * p.e) cs
  | .broadcast =>
    if p.rank = p.root then do
      let cs ← readElems k tcBulk p.src (p.e + 1) 0 p.e
      writeElems k tcBulk p.dst (p.e + 1) 0 cs
    else pure ()
  | .allReduce => do
    let r := if p.ring then p.chunk p.rank else (0, p.e)
    writeColl k p r.1 (← readWork k p r)
  | .reduceScatter => do
    let m := p.e / p.n
    writeColl k p 0 (← readWork k p (p.rank * m, m))

/-- Replaces the progress of a command. -/
def modColl (k : Ctx) (f : CollProg → CollProg) : CmdM Unit :=
  modify (fun s => modCmd s k.uid (fun c => { c with coll := f c.coll }))

def collOf (s : State) (u : Uid) : CollProg := (findCmd s u).elim CollProg.dflt Cmd.coll

/-- Rank `peer` has released the slot of step `t`: it has completed step t − 2, which filled it before (R328). Of a member on
another module the data of its own step t − 1 say so, or news of it. -/
def released (s : State) (u : Uid) (p : CollPlan) (news : List Nat) (t peer : Nat) : Bool :=
  let m := memberOfAddr (p.group.scratchOf peer)
  decide (t < 2)
  || (if m.1 == s.zw.id.toNat then
        ((findCmd s u).bind (fun c => memberCmd s c m)).elim true (fun x => decide (t ≤ x.coll.step + 1))
      else news.contains peer || (p.stepAt (t - 1)).elim false (fun x => x.peer == some peer))

/-- Sends step `t` to `peer` once it has released the slot: the data, and once they are answered the counter signal (R328,
R299). -/
def sendStep (k : Ctx) (p : CollPlan) (news : List Nat) (x : CollStep) (t peer : Nat) : CmdM Unit := do
  let g := collOf (← get) k.uid
  let a := p.group.scratchOf peer
  if x.targets.contains peer && !g.sent.contains peer && released (← get) k.uid p news t peer then
    writeMem k tcBulk (slotAt a t) (← stepBytes k p x)
    modColl k (fun g => { g with sent := g.sent ++ [peer] })
  let g := collOf (← get) k.uid
  if g.sent.contains peer && !g.signalled.contains peer && !outstanding (← get) k.uid then
    signalOne k (counterAt a p.rank) 1 false
    modColl k (fun g => { g with signalled := g.signalled ++ [peer] })

def sendSteps (k : Ctx) (p : CollPlan) (news : List Nat) (x : CollStep) (t : Nat) (peers : List Nat) : CmdM Unit :=
  forRows (sendStep k p news x t) peers

/-- The data of step `t` have landed: the peer's counter has moved on (R328). A counter that stands where no member can have
put it has been written by software: a breach of R321. -/
def arrived (k : Ctx) (p : CollPlan) (x : CollStep) : CmdM Bool := do
  match x.peer with
  | none => pure true
  | some m =>
    let v ← readNum k tcSync (counterAt (p.group.scratchOf p.rank) m) 8
    let old := (smGet 0 (collOf (← get) k.uid).taken m).toNat
    if v < old || old + 2 < v then modColl k (fun g => { g with breach := true })
    pure (decide (old < v))

/-- Ends a step once everything is sent and the peer's data have landed. -/
def closeStep (k : Ctx) (p : CollPlan) (x : CollStep) (t : Nat) : CmdM Unit := do
  let g := collOf (← get) k.uid
  if x.targets.all (fun m => g.signalled.contains m) then
    if ← arrived k p x then
      absorb k p x t
      modColl k (fun g =>
        { g with
          step := t + 1, sent := [], signalled := []
          taken := match x.peer with | some m => bump g.taken m 1 | none => g.taken })
      if p.op.reduces && t + 1 == p.mergeSteps then placeOwn k p

/-- In breach of R321 or R214, what a member has written is unspecified. -/
def spoilBreach (k : Ctx) (rs : List (Nat × Nat)) : CmdM Unit := do
  if (collOf (← get) k.uid).breach then forRows (spoilRange k) rs

/-- A joined member's current step with some of its peers; `news` are ranks elsewhere that are known to have released the slot.
Answers whether the operation is done. -/
def runCollStep (k : Ctx) (p : CollPlan) (news peers : List Nat) : CmdM Bool := do
  let g := collOf (← get) k.uid
  match p.stepAt g.step with
  | none => do
    spoilBreach k p.dst.ranges
    pure true
  | some x => do
    if !p.op.reduces && g.step == 0 && g.sent.isEmpty then placeOwn k p
    sendSteps k p news x g.step peers
    closeStep k p x g.step
    let last := decide (p.steps ≤ (collOf (← get) k.uid).step)
    if last then spoilBreach k p.dst.ranges
    pure last

/-! ### Contents that a failure leaves unspecified (R197, R333, R340) -/

/-- The outputs that a command's failure leaves unspecified: of ATTEND the rows not yet written, of COLLECTIVE all of DST,
of a codec command all outputs. `acc`: the cause is a failed access. -/
def lostOutputs (s : State) (k : Ctx) (done : List Nat) (acc : Bool) : List (Nat × Nat) :=
  match opcodeOf k.desc with
  | 0x18 => if acc then attOutputs s k done else []
  | 0x38 => (diesOf k.dies).flatMap (fun d => (peekOf (collPlan k d) s).elim [] (fun p => p.dst.ranges))
  | 0x40 => if acc && !done.contains unwritten then encodeOutputs s k k.die else []
  | 0x41 => if acc && !done.contains unwritten then decodeOutputs s k else []
  | 0x42 => if acc then motionOutputs s k else []
  | _ => []

/-- Gives them free values; the slot that a failed ENCODE was writing becomes NONE. -/
def spoilWork (s : State) (k : Ctx) (done : List Nat) (acc : Bool) : State :=
  let t := spoilRanges s k (lostOutputs s k done acc)
  if opcodeOf k.desc == 0x40 && acc && !done.contains unwritten then setSlot t k.die (k.field 552 5) PoolSlot.dflt else t

/-- The same for a started command that fails with a status. -/
def spoilCmd (s : State) (u : Uid) (st : Status) : State :=
  match findCmd s u with
  | some c =>
    if c.phase == .started || c.phase == .suspended then spoilWork s (ctxOf s c) c.unitsDone (accessStatus st) else s
  | none => s

/-- When a member of a collective fails, every member's DST is unspecified (R333). -/
def spoilGroup (s : State) (c : Cmd) (others : List Uid) (st : Status) : State :=
  let s := spoilCmd s c.uid st
  if opcodeOf c.desc == 0x38 then others.foldl (fun s v => spoilCmd s v st) s else s

/-- The next step boundary that is common to a member and others: one above the largest step that any of them runs (R328, R331). -/
def nextCommon (s : State) (c : Cmd) (others : List Uid) : Nat :=
  (others.filterMap (findCmd s)).foldl (fun b x => max b x.coll.step) c.coll.step + 1

/-- A member is to complete with ABORTED at boundary `b`, or at an earlier one agreed; one that has not joined or is suspended does
at once (R333, R221). -/
def endMember (b : Nat) (lost : Bool) (s : State) (v : Uid) : State :=
  match findCmd s v with
  | none => s
  | some x =>
    if x.phase == .started && x.coll.joined then
      modCmd s v (fun x => { x with aborting := true, coll := { x.coll with
        yieldAt := some (x.coll.yieldAt.elim b (min b)), paused := none, lost := x.coll.lost || lost } })
    else failCmd s v .aborted

/-- Ends the group after one member has failed: every other member of this module completes with ABORTED, those that have joined at
the next boundary common to all (R333, R221). -/
def endGroup (s : State) (b : Nat) (others : List Uid) : State := others.foldl (endMember b false) s

/-- The other local members of a command's group, suspended ones among them. -/
def otherMembers (s : State) (c : Cmd) : List Uid :=
  if !groupCmd c then []
  else
    match groupView s c with
    | none => []
    | some (ms, _) =>
      ((ms.filterMap (findMember s c (fun x =>
        (x.phase == .started || x.phase == .suspended) && instanceOf x.desc == instanceOf c.desc))).map Cmd.uid).filter
          (fun v => v != c.uid)

/-- What an instance of a graph command leaves its REFINE: its counts, its retries and the tick of its last write. -/
def mergeKid (p x : Cmd) : Cmd :=
  { p with
    nans := p.nans + x.nans, invalid := p.invalid + x.invalid, retried := p.retried || x.retried
    lastWrite := match p.lastWrite, x.lastWrite with
      | some a, some b => some (if later b a then b else a)
      | a, b => a.or b }

/-- The instances of a graph command are forgotten. -/
def absorbKids (s : State) (u : Uid) : State :=
  let ks := kidsOf s u
  if ks.isEmpty then s else dropKids (modCmd s u (fun c => ks.foldl mergeKid c)) u

/-- The instances of a REFINE's graph command end with it, each with its group; `st`: they are lost by this failure (R226, R333). -/
def stopKids (s : State) (u : Uid) (st : Option Status) : State :=
  let mine := (kidsOf s u).map Cmd.uid
  let stop (s : State) (v : Uid) : State :=
    match findCmd s v with
    | none => s
    | some x =>
      if x.phase != .started && x.phase != .suspended then s
      else
        let others := otherMembers s x
        let s := dropGroups (st.elim s (spoilGroup s x others)) v
        endGroup s (nextCommon s x others) (others.filter (fun y => !mine.contains y))
  absorbKids (mine.foldl stop s) u

/-- Ends a member and with it its group, its outputs as they are. -/
def stopMember (s : State) (c : Cmd) (st : Status) : State :=
  let others := otherMembers s c
  endGroup (failCmd (stopKids s c.uid none) c.uid st) (nextCommon s c others) others

/-- Fails a member and with it its group. -/
def failMember (s : State) (c : Cmd) (st : Status) : State :=
  stopMember (spoilGroup (stopKids s c.uid (some st)) c (otherMembers s c) st) c st

/-- Settles a member's stopped run. -/
def settleMember (before after : State) (c : Cmd) (x : Stop) : State :=
  let others := otherMembers before c
  let b := nextCommon before c others
  match x with
  | .wait => settleStop before after c.uid .wait
  | .fail st => endGroup (settleStop before (spoilGroup after c others st) c.uid x) b others
  | .reject st _ => endGroup (settleStop before (spoilGroup after c others st) c.uid x) b others

/-! ### Ending with the group (R221, R333) -/

/-- A member has reached the boundary that was agreed; one that is to end and for which none was agreed ends at any. -/
def atAgreed (c : Cmd) : Bool := c.coll.yieldAt.elim c.aborting (fun b => decide (b ≤ c.coll.step))

/-- News of a failed member elsewhere: the members of this module that have joined end at their next common boundary (R333). -/
def hearFailure (s : State) (c : Cmd) : State :=
  if !c.coll.joined then failMember (dropGroups s c.uid) c .aborted
  else
    let others := otherMembers s c
    (c.uid :: others).foldl (endMember (nextCommon s c others) true) s

/-- The members that a member sends to or receives from in its current step. -/
def stepPartners (s : State) (c : Cmd) : List (Nat × Nat) :=
  if opcodeOf c.desc == 0x38 then
    (peekPlan s c).elim [] (fun p => (p.stepAt c.coll.step).elim [] (fun x =>
      (x.targets ++ x.peer.toList).map (fun r => memberOfAddr (p.group.scratchOf r))))
  else
    let g := ringGroupOf s (ringGroupNo c.desc)
    [c.coll.rank + 1, c.coll.rank + g.count - 1].map (fun i => (ringMembers g).getD (i % g.count) (0, 0))

/-- A member that will send and release nothing more. -/
def memberGone (s : State) (c : Cmd) (m : Nat × Nat) : Bool :=
  if m.1 == s.zw.id.toNat then (memberCmd s c m).isNone else c.coll.lost

/-- A member that ends with its group goes on by `f` to the common boundary and ends there; where a partner of its step is gone and
nothing of it is unanswered, it ends at the boundary that it has reached (R221, R333). -/
def endTogether (s : State) (c : Cmd) (f : State → Cmd → State) : State :=
  let t := if atAgreed c then s else f s c
  match findCmd t c.uid with
  | none => t
  | some x =>
    let stuck := x.coll.step == c.coll.step && !outstanding t x.uid && (stepPartners t x).any (memberGone t x)
    if x.phase == .started && !groupsRunning t x.uid && (atAgreed x || stuck) then failMember (dropGroups t x.uid) x .aborted else t

/-! ### Joining (R322, R214) -/

/-- Counters of the own scratch area at joining. -/
def readCounters (k : Ctx) (scratch : Nat) : List Nat → CmdM (SMap W64)
  | [] => pure []
  | i :: is => do
    let v ← readNum k tcSync (counterAt scratch i) 8
    let more ← readCounters k scratch is
    pure (smSet 0 more i (BitVec.ofNat 64 v))

/-- One member joins a group whose packets form flow `flow` (R329). -/
def joinOne (flow : Nat) (s : State) (c : Cmd) : State :=
  if !((findCmd s c.uid).elim false (fun c => c.phase == .started)) then s
  else
    match (do
      if opcodeOf c.desc == 0x38 then
        let k := ctxOf s c
        let (p, b) ← collPlan k c.die
        rejectOn b
        let t ← readCounters k (p.group.scratchOf p.rank) (List.range p.n)
        modColl k (fun g => { g with taken := t })
      modColl (ctxOf s c) (fun g => { g with joined := true, flow := flow, held := none }) : CmdM Unit).run.run s with
    | (.ok _, s') => s'
    | (.error e, s') => settleMember s s' c e

/-- The values that a husk recorded are the resumed member's: GROUP_ID, INSTANCE, rank and algorithm (R332). -/
def heldMatches (c : Cmd) (print : List Nat) : Bool :=
  c.coll.held.elim true (fun h => h == [print.getD 0 0, print.getD 1 0, c.coll.rank, print.getD 9 0])

/-- Another joined collective uses the group's scratch memory, or another ring attention the ring group's buffers. -/
def areaInUse (s : State) (c : Cmd) : Bool :=
  (allCmds s).any (fun x => x.coll.joined && x.phase == .started && groupCmd x && opcodeOf x.desc == opcodeOf c.desc
    && (if opcodeOf c.desc == 0x38 then x.coll.areas == c.coll.areas else ringGroupNo x.desc == ringGroupNo c.desc))

/-- The fingerprints of all ranks, `none` where a member has not come yet. -/
def groupPrints (s : State) (c : Cmd) (ms : List (Nat × Nat)) (prints : List PeerPrint) : List (Option (List Nat)) :=
  (List.range ms.length).map (fun i =>
    let m := ms.getD i (0, 0)
    if m.1 == s.zw.id.toNat then (joinCmd s c m).bind (fun x => (groupView s x).map Prod.snd)
    else (prints.find? (fun p => p.rank == i)).map PeerPrint.fields)

/-- COLLECTIVE_JOIN: when a fingerprint of every rank is known, members that meet a different one complete with
ILLEGAL_DESCRIPTOR, and the others join. A group waits while another holds its memory. -/
def joinGroup (s : State) (c : Cmd) (prints : List PeerPrint) : State :=
  match groupView s c with
  | none => s
  | some (ms, _) =>
    let seen := groupPrints s c ms prints
    if seen.any Option.isNone || areaInUse s c then s
    else
      let all := seen.filterMap id
      let mine := ms.filterMap (joinCmd s c)
      let agree (m : Cmd) : Bool := match groupView s m with
        | some (_, f) => all.all (fun x => x == f) && heldMatches m f
        | none => false
      if mine.all agree then mine.foldl (joinOne ((mine.map Cmd.uid).foldl min c.uid + 1)) s
      else
        let s := mine.foldl (fun s m => spoilCmd s m.uid .illegalDescriptor) s
        mine.foldl (fun s m => if agree m then failCmd s m.uid .aborted else rejectCmd s m.uid .illegalDescriptor 0xFFFF) s

/-! ### COLLECTIVE as a whole -/

/-- The values of every rank of a group of this module: its members' SRC. -/
def gatherValues (s : State) (c : Cmd) (p : CollPlan) : Option (List (List W32)) :=
  (List.range p.n).mapM (fun i =>
    (memberCmd s c (memberOfAddr (p.group.scratchOf i))).bind (fun m => (peekPlan s m).bind (fun q =>
      match ((ownValues (ctxOf s m) q).run.run s).1 with | .ok v => some v | .error _ => none)))

/-- Steps that a member sends to a rank. -/
def CollPlan.sends (p : CollPlan) (peer : Nat) : Nat :=
  ((List.range p.steps).filter (fun t => (p.stepAt t).elim false (fun x => x.targets.contains peer))).length

/-- Moves the step counters of the partners on by all of a member's steps (R321, R328). -/
def signalSteps (k : Ctx) (p : CollPlan) : CmdM Unit :=
  forRows (fun peer => if p.sends peer = 0 then pure () else signalOne k (counterAt (p.group.scratchOf peer) p.rank) (p.sends peer) false)
    (List.range p.n)

/-- Writes one local member's DST, with its counter signals, and ends it. -/
def finishMember (vals : List (List W32)) (s : State) (m : Cmd) : State :=
  match findCmd s m.uid with
  | none => s
  | some m =>
    if m.phase != .started then s
    else
      match peekPlan s m with
      | none => s
      | some p =>
        match (do
            writeResult (ctxOf s m) p vals
            signalSteps (ctxOf s m) p
            spoilBreach (ctxOf s m) p.dst.ranges : CmdM Unit).run.run s with
        | (.ok _, t) => doneCmd t m.uid .ok
        | (.error e, t) => settleMember s t m e

/-- A member's current step with some of its peers, as far as it can go; it ends after its last step. -/
def memberStep (s : State) (c : Cmd) (news peers : List Nat) : State :=
  if !stepsOn c then s
  else
    match (do
        let k := ctxOf s c
        let (p, b) ← collPlan k c.die
        rejectOn b
        runCollStep k p news peers : CmdM Bool).run.run s with
    | (.ok true, t) => doneCmd t c.uid .ok
    | (.ok false, t) => t
    | (.error e, t) => settleMember s t c e

/-- Every local member takes its current step with all its peers. -/
def stepAll (n : Nat) (s : State) (us : List Uid) : State :=
  us.foldl (fun s u => match findCmd s u with
    | some c => if c.phase == .started then memberStep s c [] (List.range n) else s
    | none => s) s

def stepRounds (n : Nat) (us : List Uid) : Nat → State → State
  | 0, s => s
  | f + 1, s => stepRounds n us f (stepAll n s us)

/-- COLLECTIVE as a whole: a group of this module that stands before its first step reads every SRC before any DST is written, so
that an in-place ALL_REDUCE is one event (R319). Any other group's local members, and those of a group that is to yield, go on by
steps as far as what has landed lets them (R331, log entry 27). -/
def runCollective (s : State) (c : Cmd) : State :=
  match peekPlan s c with
  | none => s
  | some p =>
    let ms := localMembers s c
    let whole (m : Cmd) : Bool :=
      m.coll.step == 0 && m.coll.sent.isEmpty && m.coll.yieldAt.isNone && m.coll.paused.isNone
    if !c.coll.joined then s
    else if allLocal s c && ms.all whole then
      match gatherValues s c p with
      | none => s
      | some vals => ms.foldl (finishMember vals) s
    else stepRounds p.n (ms.map Cmd.uid) (2 * p.steps + 2) s

/-! ### Yielding (R331) -/

/-- Where rank `r` puts its yield notice in a scratch header, and its answer to one (log entry 26). -/
def noticeAt (scratch r : Nat) : Nat := scratch + 2048 + 8 * r
def answerAt (scratch r : Nat) : Nat := scratch + 3072 + 8 * r

/-- Writes a yield notice into the scratch headers of members elsewhere: 1 asks for their steps, b + 2 tells the boundary b
(log entry 26). -/
def writeNotices (k : Ctx) (rank v : Nat) : List Nat → CmdM Unit
  | [] => pure ()
  | a :: rest => do
    writeMem k tcSync (noticeAt a rank) (natToBytes 8 v)
    writeNotices k rank v rest

/-- The scratch areas of a group's members elsewhere. -/
def remoteAreas (s : State) (p : CollPlan) : List Nat := p.group.scratch.filter (fun a => moduleOf a != s.zw.id.toNat)

/-- The boundary that a request agrees: one above the largest step that any member runs. -/
def yieldStep (s : State) (c : Cmd) (answers : List Nat) : Nat :=
  (((localMembers s c).map (fun m => m.coll.step)) ++ answers).foldl max c.coll.step + 1

/-- The local members suspend at boundary `b`. -/
def agreeYield (s : State) (c : Cmd) (b : Nat) : State :=
  (localMembers s c).foldl (fun s m => modCmd s m.uid (fun m => { m with coll := { m.coll with yieldAt := some b, paused := none } })) s

/-- A member asked to yield writes its notices and, with the answers of members elsewhere, agrees the boundary. -/
def askYield (s : State) (c : Cmd) (answers : List Nat) : State :=
  let b := yieldStep s c answers
  match (if opcodeOf c.desc == 0x38 then
      (do
        let k := ctxOf s c
        let (p, _) ← collPlan k c.die
        writeNotices k p.rank 1 (remoteAreas s p)
        writeNotices k p.rank (b + 2) (remoteAreas s p) : CmdM Unit)
    else pure ()).run.run s with
  | (.ok _, t) => agreeYield t c b
  | (.error e, t) => settleMember s t c e

/-- The first rank whose notice stands in the own scratch header, with the notice. -/
def findNotice (k : Ctx) (scratch : Nat) : List Nat → CmdM (Option (Nat × Nat))
  | [] => pure none
  | r :: rs => do
    let v ← readNum k tcSync (noticeAt scratch r) 8
    if v = 0 then findNotice k scratch rs else pure (some (r, v))

/-- Serves the notice of a member elsewhere: a request is answered with the step c that the member runs, and no step above c + 1
begins until the boundary comes. Requests that meet are one: a boundary agreed here already answers as its last step, and of two
boundaries the greater is taken. -/
def serveNotice (s : State) (c : Cmd) : State :=
  match (do
      let k := ctxOf s c
      let (p, b) ← collPlan k c.die
      rejectOn b
      let own := p.group.scratchOf p.rank
      match ← findNotice k own (List.range p.n) with
      | none => pure ()
      | some (r, v) =>
        if v = 1 then
          writeMem k tcSync (answerAt (p.group.scratchOf r) p.rank) (natToBytes 8 (c.coll.yieldAt.getD (c.coll.step + 1)))
          if c.coll.yieldAt.isNone then modColl k (fun g => { g with paused := some (c.coll.step + 2) })
        else modColl k (fun g => { g with yieldAt := some (g.yieldAt.elim (v - 2) (max (v - 2))), paused := none })
        writeMem k tcSync (noticeAt own r) (natToBytes 8 0) : CmdM Unit).run.run s with
  | (.ok _, t) => t
  | (.error e, t) => settleMember s t c e

/-! ### Ring attention (R214 to R216) -/

/-- Merges two nodes, the lower shards first. -/
def mergeNodes (a b : HeldPartial) : HeldPartial :=
  ⟨a.first, 2 * a.width, (a.rows.zip b.rows).map (fun x => ((Part.unpack x.1).merge (Part.unpack x.2)).pack)⟩

/-- One merge or promotion of the tree over n shards; `none` when nothing is ready. -/
def mergeOnce (n : Nat) (hs : List HeldPartial) : Option (List HeldPartial) :=
  hs.findSome? (fun a =>
    if a.first / a.width % 2 = 0 then
      let sib := a.first + a.width
      if n ≤ sib then
        (if a.first = 0 then none
         else some ((hs.filter (fun x => x != a)) ++ [{ a with width := 2 * a.width }]))
      else
        (hs.find? (fun b => b.first == sib && b.width == a.width)).map (fun b =>
          (hs.filter (fun x => x != a && x != b)) ++ [mergeNodes a b])
    else none)

def mergeHeld (n : Nat) : Nat → List HeldPartial → List HeldPartial
  | 0, hs => hs
  | f + 1, hs => match mergeOnce n hs with
    | some hs' => mergeHeld n f hs'
    | none => hs

/-- Tokens of a shard, and bytes of one shard buffer (R214, R216). -/
def shardTokens (d : BitVec 1024) : Nat := ringShard d * 4096
def shardBytes (p : AttPlan) (tokens : Nat) : Nat := tokens * p.hkv * (p.hd * p.fmt.size + p.vd * p.vfmt.size)

/-- Chunks of at most 4 MiB of a circulating shard (R214). -/
def ringChunks (p : AttPlan) (tokens : Nat) : Nat := max 1 (ceilDiv (shardBytes p tokens) slotBytes)

/-- Ring step and chunk of a member's step number `t` in a group of `n`: every ring step but the last forwards all chunks, and
the last forwards none (R215). -/
def ringPos (n chunks t : Nat) : Nat × Nat :=
  let s := min (n - 1) (t / chunks)
  (s, t - s * chunks)

/-- Where rank `m` keeps the shard that it receives in ring step `i` (R215). -/
def ringBuf (g : RingGroup) (p : AttPlan) (tokens m i : Nat) : Nat := (g.member m).2.2 + shardBytes p tokens * (i % 2)

/-- The plan of rank `k` against its shard of ring step `s`: its own operands, then what it received in step s − 1. Padded key positions
end with the shard (R201, R215). -/
def shardPlan (g : RingGroup) (p : AttPlan) (tokens k s : Nat) : AttPlan :=
  let base := (k + g.count - s) % g.count * tokens
  let p := { p with base := base, pads := p.pads.map (fun x => (x.1, min x.2 (base + tokens))) }
  if s = 0 then p
  else { p with src := .buffer (ringBuf g p tokens k (s - 1)) tokens p.hkv, nk := tokens }

/-- Codes of rows of a tensor as bytes. -/
def rowsBytes (k : Ctx) (t : Tensor) : List Nat → CmdM (List Byte)
  | [] => pure []
  | r :: rs => do
    let cs ← readRowCodes k tcOperand t r
    let more ← rowsBytes k t rs
    pure (bytesOfCodes t.fmt cs ++ more)

/-- One head's keys or values in a shard buffer, with zeros past the last key. -/
def headBytes (k : Ctx) (t : Tensor) (nk tokens g : Nat) : CmdM (List Byte) := do
  let bs ← rowsBytes k t (range (g * nk) (min nk tokens))
  pure (bs ++ List.replicate ((tokens - nk) * t.cols * t.fmt.size) 0)

def headsBytes (k : Ctx) (t : Tensor) (nk tokens : Nat) : List Nat → CmdM (List Byte)
  | [] => pure []
  | g :: gs => do
    let x ← headBytes k t nk tokens g
    let more ← headsBytes k t nk tokens gs
    pure (x ++ more)

/-- The bytes of a member's own shard as a buffer holds them (log entry 25): keys by head and token, then values. -/
def shardImage (k : Ctx) (p : AttPlan) (tokens : Nat) : CmdM (List Byte) := do
  match p.src with
  | .dense kt vt => do
    let x ← headsBytes k kt p.nk tokens (List.range p.hkv)
    let y ← headsBytes k vt p.nk tokens (List.range p.hkv)
    pure (x ++ y)
  | _ => pure []

/-- Chunk `c` of the shard that rank `m` holds in ring step `s`. -/
def chunkBytes (k : Ctx) (g : RingGroup) (p : AttPlan) (tokens m s c : Nat) : CmdM (List Byte) := do
  let n := min slotBytes (shardBytes p tokens - c * slotBytes)
  if s = 0 then
    let bs ← shardImage k p tokens
    pure ((bs.drop (c * slotBytes)).take n)
  else readMem k tcBulk (ringBuf g p tokens m (s - 1) + c * slotBytes) n

/-- Unit `u` of a member's current shard: a query tile against one of its segments (R191, R221). -/
def runShardUnit (k : Ctx) (q : AttPlan) (u : Nat) : CmdM Unit := do
  let (t, g) := (q.units 0).getD u (0, 0)
  keepPart k ⟨t, g, ← unitPartials k q (q.tiles.getD t (0, 0, 0)) g⟩

/-- The units of the shard that have not been done. -/
def runShardUnits (k : Ctx) (q : AttPlan) : List Nat → CmdM Unit
  | [] => pure ()
  | u :: us => do
    if !((findCmd (← get) k.uid).elim [] Cmd.unitsDone).contains u then
      runShardUnit k q u
      modify (fun s => modCmd s k.uid (fun c => { c with unitsDone := c.unitsDone ++ [u] }))
    runShardUnits k q us

/-- A row's partial over the shard; that of a shard whose keys are all masked is empty (R215). -/
def shardRow (s : State) (u : Uid) (q : AttPlan) (x : Nat × Nat) : RowPartial :=
  let t := q.tiles.findIdx (· == (0, x.1, x.2 / 64))
  (tileRow q (heldParts s u t) (((q.units 0).filter (fun y => y.1 == t)).length) (x.2 % 64)).pack

/-- Bytes of held partials in RING_SPILL: m, l and o of each row, one node after another (log entry 25). -/
def heldBytes (hs : List HeldPartial) : List Byte :=
  hs.flatMap (fun h => h.rows.flatMap (fun r =>
    bvToBytes 4 (if r.bad then toBits32 .nan else r.m) ++ bvToBytes 4 r.l ++ r.o.flatMap (bvToBytes 4)))

/-- Rows of O from the last partial (R194). After a failed access the rows not yet written are unspecified (R197). -/
def ringFinish (k : Ctx) (p : AttPlan) : List (Nat × Nat) → List RowPartial → CmdM Unit
  | (h, i) :: rest, r :: rs => do
    tryCatch (writeAtt k p 0 h i (Part.unpack r)) (fun e => do
      match e with
      | .fail st =>
        if accessStatus st then
          forRows (spoilRange k) (((h, i) :: rest).flatMap (fun x => p.rowRanges 0 x.1 x.2))
          modify (fun s => modCmd s k.uid (fun c => { c with unitsDone := [workDone] }))
      | _ => pure ()
      throw e)
    ringFinish k p rest rs
  | _, _ => pure ()

/-- The partials that a member holds after its current shard: all units of the shard, merged with those held (R215). -/
def shardHeld (k : Ctx) (q : AttPlan) (n shard : Nat) : CmdM (List HeldPartial) := do
  runShardUnits k q (List.range (q.units 0).length)
  let s ← get
  pure (mergeHeld n 64 ((collOf s k.uid).partials ++ [⟨shard, 1, (ringRows q).map (shardRow s k.uid q)⟩]))

/-- A member's shard is done: its units' partials are merged. -/
def endShard (k : Ctx) (held : List HeldPartial) : CmdM Unit :=
  modify (fun s => modCmd s k.uid (fun c => { c with parts := [], unitsDone := [], coll := { c.coll with partials := held } }))

/-- One step of a ring member: it forwards a chunk of its shard, after the last one its partial of the shard is computed and
merged, and the last step finishes the rows. Answers whether it was the last (R215). -/
def runRingStep (k : Ctx) : CmdM Bool := do
  let (p, b) ← attPlan k
  rejectOn b
  let g := ringGroupOf (← get) (ringGroupNo k.desc)
  let n := g.count
  let st := collOf (← get) k.uid
  let tokens := shardTokens k.desc
  let chunks := ringChunks p tokens
  let (s, c) := ringPos n chunks st.step
  if (n - 1) * chunks < st.step then pure true
  else
    let q := shardPlan g p tokens st.rank s
    let shard := (st.rank + n - s) % n
    if s + 1 < n then
      writeMem k tcBulk (ringBuf g p tokens ((st.rank + 1) % n) s + c * slotBytes) (← chunkBytes k g p tokens st.rank s c)
      if c + 1 = chunks then
        let held ← shardHeld k q n shard
        writeMem k tcBulk (k.field 512 64) (heldBytes held)
        endShard k held
      modColl k (fun g => { g with step := st.step + 1 })
      pure false
    else
      let held ← shardHeld k q n shard
      ringFinish k p (ringRows p) ((held.head?).elim [] HeldPartial.rows)
      spoilBreach k ((ringRows p).flatMap (fun x => p.rowRanges 0 x.1 x.2))
      endShard k []
      modColl k (fun g => { g with step := st.step + 1 })
      pure true

/-- Chunks of a ring command's shard. -/
def chunksOf (s : State) (c : Cmd) : Nat :=
  match ((attPlan (ctxOf s c)).run.run s).1 with
  | .ok (p, _) => ringChunks p (shardTokens c.desc)
  | .error _ => 1

/-- The step of the local member of `c`'s ring group at distance `d` after it; `none` elsewhere, and where it has done all its steps.
Of one that has ended with the group, or elsewhere after a failure, nothing more comes. -/
def ringNeighbour (s : State) (c : Cmd) (d : Nat) : Option Nat :=
  let g := ringGroupOf s (ringGroupNo c.desc)
  let m := (ringMembers g).getD ((c.coll.rank + d) % g.count) (0, 0)
  match memberCmd s c m with
  | some x => some x.coll.step
  | none => if (m.1 == s.zw.id.toNat && c.aborting) || (m.1 != s.zw.id.toNat && c.coll.lost) then some 0 else none

/-- Rank k has all of its shard of ring step `s`: its predecessor has forwarded every chunk. A member elsewhere is taken to
have. -/
def shardHere (s : State) (c : Cmd) (chunks i : Nat) : Bool :=
  i == 0 || (ringNeighbour s c ((ringGroupOf s (ringGroupNo c.desc)).count - 1)).elim true (fun t => decide (i * chunks ≤ t))

/-- A ring member may take its step: its predecessor has forwarded the chunk to be passed on, and the whole shard before it is
computed, and its successor has freed the buffer that it is to receive into; of members elsewhere the row's coming says so. -/
def ringReady (s : State) (c : Cmd) : Bool :=
  let n := (ringGroupOf s (ringGroupNo c.desc)).count
  let chunks := chunksOf s c
  let (i, j) := ringPos n chunks c.coll.step
  let pred := ringNeighbour s c (n - 1)
  if n ≤ i + 1 || j + 1 = chunks then shardHere s c chunks i && (n ≤ i + 1 || freed s c chunks i)
  else (i == 0 || pred.elim true (fun t => decide ((i - 1) * chunks + j < t))) && freed s c chunks i
where
  freed (s : State) (c : Cmd) (chunks i : Nat) : Bool :=
    decide (i ≤ 1) || (ringNeighbour s c 1).elim true (fun t => decide (i * chunks ≤ t))

/-- RING_ATTEND_STEP, and ATTEND on a ring command. -/
def ringStep (s : State) (c : Cmd) : State :=
  if !stepsOn c || !ringReady s c || s.groups.any (fun g => g.cmd == c.uid) then s
  else
    match (runRingStep (ctxOf s c)).run.run s with
    | (.ok true, t) => doneCmd t c.uid .ok
    | (.ok false, t) => t
    | (.error e, t) => settleMember s t c e

/-- The units of a ring member's current shard, once it holds it (R191, R221). -/
def shardUnits (s : State) (c : Cmd) : CmdM (Option (AttPlan × Nat)) := do
  let (p, b) ← attPlan (ctxOf s c)
  rejectOn b
  let g := ringGroupOf s (ringGroupNo c.desc)
  let chunks := ringChunks p (shardTokens c.desc)
  let i := (ringPos g.count chunks c.coll.step).1
  let q := shardPlan g p (shardTokens c.desc) c.coll.rank i
  pure (if stepsOn c && shardHere s c chunks i then some (q, (q.units 0).length) else none)

end Sys2Proof.Machine
end

