-- ==== Sys2Proof/Machine/Matmul.lean ====
section
/-!
DEFINITION. MATMUL, MATMUL_LIST and MATMUL_CHAIN: checks, prologues, epilogues, statistic-dependent programs, units
(R139 to R145, R153 to R172).
-/
namespace Sys2Proof.Machine

open Sys2Proof

/-! ### Programs of a product -/

/-- A statistic-dependent program (R160). -/
def statDep (p : Program) : Bool := readsStats p

/-- Rules of R160 on a statistic-dependent program: stage 0 reads no STAT source, and only stage 0 reads ACC, or IN3
with PAIR. -/
def statRules (p : Program) (pair : Bool) (off : Nat) : List Bad :=
  if statDep p then
    need (match p.stages with
      | [] => true
      | g :: gs => !g.reads 11 && !g.reads 12 && gs.all (fun g => !g.reads 5 && (!pair || !g.reads 4))) off
  else []

/-- How an epilogue or row function runs along a row. -/
structure RowProg where
  prog : Program
  seed : W64
  /-- Columns of its shape. -/
  cols : Nat
  deriving DecidableEq, Repr

/-- The columns of a row whose stage-0 values member `i` of a band's sixteen clusters holds: W / 16 columns, rounded up (R164). -/
def residentShare (w i : Nat) : List Nat :=
  let n := ceilDiv w 16
  range (n * i) (min n (w - n * i))

/-- Results of all stages along a row whose ACC values and slots are given; statistics are those of stage 0's results, which the
sixteen clusters of the band hold in their shares, when the program depends on them (R160, R164). The record comes with them. -/
def runRow (q : RowProg) (luts : List (Nat × List Byte)) (slots : List (List Val)) (acc : List Val) (row : Nat) :
    List Regs × StatRec :=
  let elem (st : Val × Val) (c : Nat) : Elem :=
    ⟨slots.map (fun v => v.getD c (.zero false)), acc.getD c (.zero false), st.1, st.2, row, c, row * q.cols + c⟩
  let z : Val × Val := (.zero false, .zero false)
  if statDep q.prog then
    let held (i : Nat) : List Regs := (residentShare q.cols i).map (fun c =>
      runStages q.seed luts (elem z c) (q.prog.stages.take 1) Regs.start)
    let first := (List.range 16).flatMap held
    let r := statRow (first.map Regs.prev)
    let st := statOperands q.prog r
    ((List.range q.cols).zip first |>.map (fun x =>
      runStages q.seed luts (elem st x.1) (q.prog.stages.drop 1) x.2), r)
  else
    ((List.range q.cols).map (fun c => runStages q.seed luts (elem z c) q.prog.stages Regs.start), statRow [])

/-- Stages 1 onward along a row whose stage-0 values and record are given: the second pass of R165. -/
def finishRow (q : RowProg) (luts : List (Nat × List Byte)) (slots : List (List Val)) (v0 : List Val) (r : StatRec)
    (row : Nat) : List Regs :=
  let st := statOperands q.prog r
  (List.range q.cols).map (fun c =>
    let x : Elem := ⟨slots.map (fun v => v.getD c (.zero false)), .zero false, st.1, st.2, row, c, row * q.cols + c⟩
    let v := v0.getD c (.zero false)
    let r0 : Regs := match (q.prog.stages.headD ⟨0, 0, 0, 0, 0, 0, 0, 0, 0, false⟩).dest with
      | 1 => { Regs.start with prev := v, t0 := v }
      | 2 => { Regs.start with prev := v, t1 := v }
      | 3 => { Regs.start with prev := v, out0 := v }
      | _ => { Regs.start with prev := v }
    runStages q.seed luts x (q.prog.stages.drop 1) r0)

/-- Stage 0 of a row, whose values go to the spill area. -/
def firstStage (q : RowProg) (luts : List (Nat × List Byte)) (slots : List (List Val)) (acc : List Val) (row : Nat) :
    List Regs :=
  (List.range q.cols).map (fun c =>
    runStages q.seed luts ⟨slots.map (fun v => v.getD c (.zero false)), acc.getD c (.zero false), .zero false,
      .zero false, row, c, row * q.cols + c⟩ (q.prog.stages.take 1) Regs.start)

/-! ### Spill areas (R166) -/

/-- Offset of the records behind `rows` × `w` values. -/
def spillRecs (rows w : Nat) : Nat := ceilDiv (rows * w * 4) 64 * 64

/-- Bytes of a spill area. -/
def spillBytes (rows w : Nat) : Nat := spillRecs rows w + 16 * rows

/-- Writes a row's stage-0 values and its record. -/
def writeSpill (k : Ctx) (spill rows w r : Nat) (vs : List Val) (rec : StatRec) : CmdM Unit := do
  writeMem k tcOperand (spill + r * w * 4) (vs.flatMap (fun v => bvToBytes 4 (toBits32 v)))
  writeMem k tcOperand (spill + spillRecs rows w + 16 * r) (statBytes rec)

/-- Spills stage 0 of a row with the record of its values; the NaN conversions of that stage count (R37, R165, R172). -/
def spillStage (k : Ctx) (spill rows w r : Nat) (rs : List Regs) : CmdM Unit := do
  addNans k (rs.map Regs.nans).sum
  let vs := rs.map Regs.prev
  writeSpill k spill rows w r vs (statRow vs)

/-- Reads a row's stage-0 values and its record. -/
def readSpill (k : Ctx) (spill rows w r : Nat) : CmdM (List Val × StatRec) := do
  let bs ← readMem k tcOperand (spill + r * w * 4) (w * 4)
  let rec ← readMem k tcOperand (spill + spillRecs rows w + 16 * r) 16
  pure ((List.range w).map (fun i => imageWord bs i), parseStat rec)

/-! ### Modes (R162, R163) -/

/-- Modes reported by R168. -/
def modeNone : Byte := 0
def modeResident : Byte := 1
def modeDeferred : Byte := 2
def modeTwoPass : Byte := 3

/-- The mode taken for a row of `w` columns (R163). -/
def modeOf (dep : Bool) (request : Nat) (fused : Bool) (w : Nat) : Byte :=
  if !dep then modeNone
  else match request with
    | 0 => if w ≤ 24576 then modeResident else if fused then modeDeferred else modeTwoPass
    | 1 => modeDeferred
    | _ => modeTwoPass

/-! ### MATMUL's operands -/

/-- What a MATMUL, or an entry of a list, runs over. -/
structure MmPlan where
  a : Tensor
  b : Tensor
  c : Tensor
  path : Path
  epi : Option Program
  pro : Option Program
  epiIns : List (Option Tensor)
  proIns : List (Option Tensor)
  /-- STATS_IN; 0 = none. -/
  statsIn : Nat
  statsOut : Option Tensor
  /-- Record array at STATS_OUT; 0 = none. -/
  recs : Nat
  spill : Nat
  seed : W64
  conv : Nat
  stream : BitVec 28
  proConv : Nat
  cb : Nat
  cbEn : Bool
  mode : Byte
  h : Nat
  /-- Entries of a list as (A, B, C bases, rows); one entry for MATMUL. -/
  entries : List (Nat × Nat × Nat × Nat)
  deriving DecidableEq, Repr

/-- Rows of a template entry: its row capacity. -/
def MmPlan.m (p : MmPlan) : Nat := p.a.rows
def MmPlan.n (p : MmPlan) : Nat := p.b.cols

/-- The epilogue's REDOP. -/
def MmPlan.redop (p : MmPlan) : Nat := match p.epi with | some e => e.redop | none => 0

/-- Reads a bound program; 0 = none. -/
def programAt (k : Ctx) (lo : Nat) : CmdM (Option Program) := do
  let a := k.field lo 64
  if a = 0 then pure none
  else
    let p ← readProgram k a
    pure (some p)

/-- Reads the eight entries of a binding block; 0 = every slot unbound (R143). -/
def bindBlock (k : Ctx) (lo : Nat) : CmdM (List Nat) := do
  let a := k.field lo 64
  if a = 0 then pure (List.replicate 8 0)
  else
    let bs ← readMem k tcSync a 64
    pure (chunkNums 8 8 bs)

/-- Reads a tensor named by a binding entry. -/
def boundTensor (k : Ctx) (addr off : Nat) : CmdM (Option Tensor × List Bad) := do
  if addr = 0 then pure (none, [])
  else
    let (t, b) ← readTensor k addr off
    pure (some t, b ++ need (addrOk addr 64) off)

/-- Reads the tensors named by binding entries. -/
def boundTensors (k : Ctx) (off : Nat) : List Nat → CmdM (List (Option Tensor) × List Bad)
  | [] => pure ([], [])
  | a :: as => do
    let (t, b) ← boundTensor k a off
    let (ts, bs) ← boundTensors k off as
    pure (t :: ts, b ++ bs)

/-- Checks of a program's bound inputs: their broadcasts against its shape, which the operands `of_` give (R118, R143), and no INT8 or
INT4 among them (R29). -/
def bindChecks (p : Program) (ins : List (Option Tensor)) (dims : List Nat) (of_ : List Tensor) (off : Nat) : List Bad :=
  (List.range 4).flatMap (fun i => match ins.getD i none with
    | none => []
    | some t => relate (t :: of_) (bcastOk dims (p.bcast.getD i 0) t) off ++ relate [t] t.fmt.plain off)

/-- Formats of C (R142). -/
def productOut (t : Tensor) : Bool := t.fmt.isFloat

/-- C meets no input but an identical FULL epilogue input (R142). Slots that are bound for an epilogue count among its inputs also
where there is no program (log entry 73, DEDUCED). -/
def outOverlapOk (c : Tensor) (epi : Option Program) (ins : List (Option Tensor)) : Bool :=
  (List.range 4).all (fun i => match ins.getD i none with
    | none => true
    | some t => c.bad || t.bad || !c.meets t || ((epi.map (fun e => e.bcast.getD i 0 == 0)).getD false && c.identical t))

/-- Byte offsets of the fields that MATMUL and MATMUL_CHAIN name differently. -/
structure MmOffs where
  a : Nat
  b : Nat
  c : Nat
  epi : Nat
  pro : Nat
  bind : Nat
  statsOut : Nat
  spill : Nat
  deriving DecidableEq, Repr

def mmOffs : MmOffs := ⟨16, 24, 32, 40, 48, 56, 64, 72⟩

/-- B as it is stored: index by index under a codebook (R145). -/
def storedB (s : State) (k : Ctx) (en : Bool) (cb : Nat) (b : Tensor) : Tensor :=
  match codebookOf s k en cb with
  | some img => { b with fmt := cbStore img }
  | none => b

/-- The overlap rules of R142 on the output `c` of a product from `a` and the stored `b`. -/
def outClear (p : MmPlan) (b c a : Tensor) (inPlace : Bool) (rows : Nat) (o : MmOffs) : List Bad :=
  relate [a, c] (!c.meets a) (min o.a o.c)
  ++ relate [b, c] (!c.meets b) (min o.b o.c)
  ++ need (outOverlapOk c (if inPlace then p.epi else none) p.epiIns) (min o.c o.bind)
  ++ (match p.statsOut with | none => [] | some t => relate [c, t] (!c.meets t) (min o.c o.statsOut))
  ++ relate [c] (p.recs == 0 || !overlaps c.base c.extent p.recs (16 * rows)) (min o.c o.statsOut)
  ++ relate [b, c] (p.spill == 0 || !overlaps c.base c.extent p.spill (spillBytes rows p.b.cols)) (min o.c o.spill)

/-- The fields of a MATMUL that its checks read, with the shape and row count of its epilogue. -/
def mmChecks (s : State) (k : Ctx) (p : MmPlan) (epiDims : List Nat) (rows : Nat) (statMode : Nat)
    (fused : Bool) (o : MmOffs) : List Bad :=
  let t := p.statsOut
  let red := p.redop
  let dep := (p.epi.map statDep).getD false
  need (decide (2 ≤ p.a.ndim)) o.a
  ++ need (p.b.ndim == 2) o.b
  ++ relate [p.a, p.b] (p.a.cols == p.b.rows) (min o.a o.b)
  ++ relate [p.a, p.c] (p.c.dims.dropLast == p.a.dims.dropLast) (min o.a o.c)
  ++ relate [p.b, p.c] (p.c.cols == p.b.cols) (min o.b o.c)
  ++ need (decide (p.a.rows ≤ 2 ^ 32 - 1)) o.a
  ++ relate [p.a, p.b] (pathOf p.a.fmt p.b.fmt).isSome (min o.a o.b)
  ++ need (productOut p.c && p.c.distinct) o.c
  ++ codebookChecks s k p.cbEn p.cb p.b o.b 127
  ++ bucketChecks k.record p.a.bucket o.a
  ++ (match p.epi with
      | none => need (t.isNone && p.recs == 0) o.epi
      | some e =>
        programChecks ⟨p.epiIns.map Option.isSome, true, true, true, red != 0, rows, p.b.cols⟩ e o.epi
        ++ statRules e false o.epi
        ++ bindChecks e p.epiIns epiDims [p.c] (min o.c o.bind)
        ++ (programTables e).flatMap (fun x => tableReady s k x o.epi)
        ++ (if red = 0 then need (t.isNone && p.recs == 0) (min o.epi o.statsOut)
            else if red = 6 then need (p.recs != 0) (min o.epi o.statsOut)
            else match t with
              | none => need false (min o.epi o.statsOut)
              | some t => relate [p.c, t] (t.dims == rowShape epiDims) (min o.c o.statsOut)
                ++ relate [t] (if red = 5 then t.fmtCode == 0x38 else t.fmt.isFloat) (min o.epi o.statsOut)
                ++ need t.distinct o.statsOut))
  ++ (match p.pro with
      | none => []
      | some e =>
        programChecks ⟨true :: (p.proIns.drop 1).map Option.isSome, false, p.statsIn != 0, true, false, p.a.rows, p.a.cols⟩
          e o.pro
        ++ need (e.redop == 0 && e.bcast.getD 0 0 == 0) o.pro
        ++ bindChecks e (none :: p.proIns.drop 1) p.a.dims [p.a] (min o.a o.bind)
        ++ (programTables e).flatMap (fun x => tableReady s k x o.pro))
  ++ need (!(fused && red != 0)) o.epi
  ++ need (!dep || (statMode != 3 && (statMode != 1 || fused))) 121
  ++ need (p.mode.toNat ≤ 1 || p.spill != 0) o.spill

/-- Fetch checks shared by MATMUL and MATMUL_LIST (R141, R156). BIND is held to 64 B, the size of the block, though no rule aligns it
(log entry 73, DESIGN CHOICE). -/
def fetchMm (d : BitVec 1024) : List Bad :=
  need (fieldN d 128 64 != 0) 16 ++ need (fieldN d 192 64 != 0) 24 ++ need (fieldN d 256 64 != 0) 32
  ++ addrCheck d 128 64 ++ addrCheck d 192 64 ++ addrCheck d 256 64 ++ addrCheck0 d 320 64 ++ addrCheck0 d 384 64
  ++ addrCheck0 d 448 64 ++ addrCheck0 d 512 16 ++ addrCheck0 d 576 64
  ++ convChecks (fieldN d 960 8) 120 true ++ reserved d 971 975 ++ reserved d 1004 1007
  ++ convChecks (fieldN d 1008 8) 126 false ++ reserved d 1021 1023

def fetchMatmul (d : BitVec 1024) : List Bad := fetchMm d ++ addrCheck0 d 704 4 ++ reserved d 768 959

def fetchMatmulList (d : BitVec 1024) : List Bad :=
  fetchMm d ++ addrCheck d 704 32 ++ need (decide (1 ≤ fieldN d 768 32) && decide (fieldN d 768 32 ≤ 65536)) 96
  ++ reserved d 800 959

/-- The shape of an epilogue over a list: (COUNT, M, N) (R157). -/
def listDims (count m n : Nat) : List Nat := [count, m, n]

/-- Reads the operands of a MATMUL or of a list's template. -/
def mmPlanOf (k : Ctx) (rowsOf : Tensor → CmdM (List (Nat × Nat × Nat × Nat))) (count : Option Nat) :
    CmdM (MmPlan × List Bad) := do
  let (a, ba) ← tensorReq k 128
  let (b, bb) ← tensorReq k 192
  let (c, bc) ← tensorReq k 256
  let epi ← programAt k 320
  let pro ← programAt k 384
  let bind ← bindBlock k 448
  let (epiIns, be) ← boundTensors k 56 (bind.take 4)
  let (proIns, bp) ← boundTensors k 56 ((bind.drop 4).take 3)
  let red := (epi.map Program.redop).getD 0
  let so := k.field 512 64
  let (statsOut, bs) ← if red = 0 || red = 6 || so = 0 then pure (none, []) else tensorAt k 512
  let fused := bit k.desc 970
  let dep := (epi.map statDep).getD false
  let entries ← rowsOf a
  let s ← get
  let p : MmPlan :=
    { a := a, b := b, c := c, path := (pathOf a.fmt b.fmt).getD .exact, epi := epi, pro := pro, epiIns := epiIns
      proIns := none :: proIns, statsIn := bind.getD 7 0, statsOut := statsOut, recs := if red = 6 then so else 0
      spill := k.field 576 64, seed := field k.desc 640 64, conv := k.field 960 8, stream := field k.desc 976 28
      proConv := k.field 1008 8, cb := k.field 1016 4, cbEn := bit k.desc 1020
      mode := modeOf dep (k.field 968 2) fused b.cols, h := templateH k.record a.bucket, entries := entries }
  let epiDims := match count with
    | none => c.dims
    | some n => listDims n a.rows b.cols
  let rows := match count with | none => a.rows | some n => n * a.rows
  let soBad := need (red != 0 || so == 0) (min 40 64) ++ need (addrOk0 (bind.getD 7 0) 16) 56
    ++ need (red == 0 || red == 6 || so % 64 == 0) 64
  pure (p, ba ++ bb ++ bc ++ be ++ bp ++ bs ++ soBad
    ++ mmChecks s k p epiDims rows (k.field 968 2) fused mmOffs)

/-- The run-time rows of a MATMUL: what ROWS_PTR holds, or all (R154). -/
def runRows (k : Ctx) (lo cap : Nat) : CmdM Nat := do
  match k.rows with
  | some r => pure r
  | none =>
    let a := k.field lo 64
    if a = 0 then pure cap else readNum k tcSync a 4

/-- MATMUL as one entry, with the checks of its row count. -/
def matmulPlan (k : Ctx) : CmdM (MmPlan × List Bad) := do
  let (p, b) ← mmPlanOf k (fun a => do
    let r ← runRows k 704 a.rows
    pure [(a.base, 0, 0, r)]) none
  let r := (p.entries.headD (0, 0, 0, 0)).2.2.2
  let p := { p with entries := [(p.a.base, p.b.base, p.c.base, r)] }
  let rb := if k.field 704 64 = 0 then [] else rowsChecks k.record p.a.bucket p.m r 16
  let s ← get
  pure (p, b ++ rb ++ outClear p (storedB s k p.cbEn p.cb p.b) p.c p.a true p.m mmOffs)

/-- Reads the entries of a list (R156): A, B and C bases, rows, and whether reserved bits are zero. -/
def readEntries (k : Ctx) (a : Nat) : Nat → CmdM (List ((Nat × Nat × Nat × Nat) × Bool))
  | 0 => pure []
  | n + 1 => do
    let e : BitVec 256 := bytesToBv 256 (← readMem k tcSync a 32)
    let more ← readEntries k (a + 32) n
    pure (((fieldN e 0 64, fieldN e 64 64, fieldN e 128 64, fieldN e 192 32), fieldN e 224 32 == 0) :: more)

/-- The output of a list entry. -/
def entryC (p : MmPlan) (e : Nat × Nat × Nat × Nat) : Tensor := { p.c with base := e.2.2.1 }
def entryA (p : MmPlan) (e : Nat × Nat × Nat × Nat) : Tensor := { p.a with base := e.1 }
def entryB (p : MmPlan) (e : Nat × Nat × Nat × Nat) : Tensor :=
  { p.b with base := if e.2.1 = 0 then p.b.base else e.2.1 }

/-- The output `c` of a list meets no prologue input and no STATS_IN record (R157). -/
def listClear (p : MmPlan) (c : Tensor) : List Bad :=
  p.proIns.flatMap (fun t => match t with
    | none => []
    | some t => relate [c, t] (!c.meets t) 32)
  ++ relate [c] (p.statsIn == 0 || !overlaps c.base c.extent p.statsIn (16 * p.m)) 32

/-- The entries of a list that are not skipped. -/
def MmPlan.liveEntries (p : MmPlan) : List (Nat × Nat × Nat × Nat) := p.entries.filter (fun e => e.2.2.2 != 0)

/-- No output range of a list overlaps another entry's output or any input (R157). -/
def listOverlaps (p : MmPlan) (s : State) (k : Ctx) : List Bad :=
  let es := p.liveEntries
  let out (i : Nat) : Tensor := entryC p (es.getD i (0, 0, 0, 0))
  (List.range es.length).flatMap (fun i =>
    listClear p (out i) ++ (List.range es.length).flatMap (fun j =>
      let e := es.getD j (0, 0, 0, 0)
      relate [p.c] (i == j || !(out i).meets (out j)) 32
      ++ outClear p (storedB s k p.cbEn p.cb (entryB p e)) (out i) (entryA p e) false (p.entries.length * p.m) mmOffs))

/-- MATMUL_LIST with the checks of its entries (R157). -/
def matmulListPlan (k : Ctx) : CmdM (MmPlan × List Bad) := do
  let n := k.field 768 32
  let raw ← readEntries k (k.field 704 64) n
  let (p, b) ← mmPlanOf k (fun _ => pure (raw.map Prod.fst)) (some n)
  pure (p, b
    ++ needZero (raw.all Prod.snd) 88
    ++ need (raw.all (fun e => addrOk e.1.1 1 && addrOk e.1.2.1 1 && addrOk e.1.2.2.1 1)) 88
    ++ (if p.a.bad then [] else p.liveEntries.flatMap (fun e => rowsChecks k.record p.a.bucket p.m e.2.2.2 16))
    ++ listOverlaps p (← get) k)

/-! ### A product's rows -/

/-- Rows of the template's A before an entry's first row. -/
def rowShift (t a : Tensor) : Nat :=
  let st := t.strides.getD (t.ndim - 2) 0
  if st = 0 then 0 else (a.base - t.base) / st

/-- The list row of a producer whose C would have held row `r` of A; `none` where no entry's C lies there (log entry 33). -/
def producedRow (p : MmPlan) (a : Tensor) (r : Nat) : Option Nat :=
  (List.range p.entries.length).findSome? (fun ei =>
    let c := entryC p (p.entries.getD ei (0, 0, 0, 0))
    ((List.range p.m).find? (fun i => c.base + c.rowOffset i == a.base + a.rowOffset r)).map (fun i => ei * p.m + i))

/-- The row of A that a linked producer left in its spill area: its stages 1 onward with the tables that it was bound to, the last of
the consumer's bindings, converted as it would have written C (R136, R167). `t`: the template of the consumer's A. The NaN conversions
count for the consumer, which makes them (R37). -/
def producerRow (k : Ctx) (c : Uid) (desc : BitVec 1024) (t a : Tensor) (i : Nat) : CmdM (List (Nat × Nat)) := do
  let kp := { k with desc := desc, uid := c, gens := k.gens.reverse }
  let list := opcodeOf desc == 0x11
  let n := if list then kp.field 768 32 else 1
  let raw ← if list then readEntries k (kp.field 704 64) n else pure []
  let (p, _) ← mmPlanOf kp (fun _ => pure (raw.map Prod.fst)) none
  match p.epi, (if list then producedRow p a i else some (i + rowShift t a)) with
  | none, _ => pure []
  | some _, none => readRow k tcOperand a i
  | some e, some r =>
    let (v0, rec) ← readSpill k p.spill (n * p.m) p.n r
    let slots ← slotsRow k p.epiIns e.bcast p.n r
    let luts := boundTables (← get) kp e
    let rs := finishRow ⟨e, p.seed, p.n⟩ luts slots v0 rec r
    let x := convertRow32 p.c.fmt p.conv p.seed p.stream (r * p.n) (rs.map Regs.out0)
    addNans k ((rs.map Regs.nans).sum + x.nans)
    pure ((List.range x.codes.length).zip x.codes |>.map (fun y => (y.2, x.scales.getD (y.1 / 32) 0x7F)))

/-- The streamed values of row `r` of A: after the prologue and its conversion, when there is one (R158). The prologue runs again for
each macro tile that the row streams into, and its NaN conversions count each time (R37, log entry 72, DESIGN CHOICE). -/
def streamedRow (k : Ctx) (p : MmPlan) (a : Tensor) (link : StatLink) (r : Nat) : CmdM (List Val) := do
  let xs ← match link with
    | .producer c desc => producerRow k c desc p.a a r
    | _ => readRow k tcOperand a r
  match p.pro with
  | none => pure (xs.map (fun x => elemVal a.fmt x.1 x.2))
  | some e =>
    let own := xs.map (fun x => widen a.fmt x.1 x.2)
    let slots ← slotsRow k p.proIns e.bcast a.cols r
    let st ← statsAt k e p.statsIn r
    let luts := boundTables (← get) k e
    let rs := evalRow e p.seed luts (own :: slots.drop 1) [] st r a.cols
    addNans k (rs.map Regs.nans).sum
    let x := convertRow32 a.fmt p.proConv 0 0 (r * a.cols) (rs.map Regs.out0)
    addNans k x.nans
    pure ((List.range x.codes.length).zip x.codes |>.map (fun y =>
      elemVal a.fmt y.2 (x.scales.getD (y.1 / 32) 0x7F)))

/-- Accumulators of one row against columns. -/
def rowAccs (p : Path) (a : List Val) (cols : List (List Val)) : List Acc := cols.map (product p a)

/-- Converts accumulators straight into C (R50). -/
def accCodes (c : Tensor) (path : Path) (conv : Nat) (seed : W64) (stream : BitVec 28) (first : Nat) (accs : List Acc) :
    RowCodes :=
  let cv := convOf conv
  convertRow c.fmt cv ((accs.zip (rowWords cv seed stream first accs.length)).map (fun x =>
    let v := leave path x.1
    (v.1, x.2, v.2)))

/-- The conversion control of a reduction into STATS_OUT: nearest-even in place of MODE 2 (R159). -/
def statsConv (conv : Nat) : Nat := if conv % 4 = 2 then conv - 2 else conv

/-- Writes an epilogue's reduction of list row `lr` (R159). -/
def writeStatsOut (k : Ctx) (p : MmPlan) (red lr : Nat) (vs : List Val) : CmdM Unit := do
  if red = 6 then writeMem k tcOperand (p.recs + 16 * lr) (statBytes (statRow vs))
  else match p.statsOut with
    | none => pure ()
    | some t =>
      if red = 5 then writeRow k tcOperand t lr ⟨[argmax vs], [], 0⟩
      else writeRow k tcOperand t lr (convertRow32 t.fmt (statsConv p.conv) 0 0 lr [reduceRow red vs])

/-- Writes columns `c0` on of row `r` of an entry from accumulators, or of the whole row for programs that need it.
`lr` is the row's index in the logical output (R157). -/
def writeProduct (k : Ctx) (p : MmPlan) (c : Tensor) (r lr c0 : Nat) (accs : List Acc) : CmdM Unit := do
  match p.epi with
  | none => writePart k tcOperand c r c0 (accCodes c p.path p.conv p.seed p.stream (lr * p.n + c0) accs)
  | some e =>
    let vs := accs.map (leave32 p.path)
    let slots ← slotsRow k p.epiIns e.bcast p.n lr
    let luts := boundTables (← get) k e
    let pad := List.replicate c0 (Val.zero false) ++ vs
    let rs := if statDep e || e.redop != 0 then (runRow ⟨e, p.seed, p.n⟩ luts slots pad lr).1
      else (range c0 vs.length).map (fun j =>
        runStages p.seed luts ⟨slots.map (fun v => v.getD j (.zero false)), pad.getD j (.zero false), .zero false,
          .zero false, lr, j, lr * p.n + j⟩ e.stages Regs.start)
    addNans k (rs.map Regs.nans).sum
    writePart k tcOperand c r c0 (convertRow32 c.fmt p.conv p.seed p.stream (lr * p.n + c0) (rs.map Regs.out0))
    if e.redop ≠ 0 then writeStatsOut k p e.redop lr (rs.map Regs.prev)

/-- One row of an entry's columns `c0 .. c0 + n − 1`. -/
def productRow (k : Ctx) (p : MmPlan) (e : Nat × Nat × Nat × Nat) (ei : Nat) (link : StatLink) (c0 : Nat)
    (cols : List (List Val)) (r : Nat) : CmdM Unit := do
  let a ← streamedRow k p (entryA p e) link r
  writeProduct k p (entryC p e) r (ei * p.m + r) c0 (rowAccs p.path a cols)

/-- First pass of one row in TWO_PASS and DEFERRED modes: its stage-0 values and record go to the spill area
(R165, R167). -/
def spillRow (k : Ctx) (p : MmPlan) (e : Nat × Nat × Nat × Nat) (ei count : Nat) (link : StatLink)
    (cols : List (List Val)) (r : Nat) : CmdM Unit := do
  match p.epi with
  | none => pure ()
  | some g =>
    let lr := ei * p.m + r
    let a ← streamedRow k p (entryA p e) link r
    let slots ← slotsRow k p.epiIns g.bcast p.n lr
    let luts := boundTables (← get) k g
    spillStage k p.spill (count * p.m) p.n lr
      (firstStage ⟨g, p.seed, p.n⟩ luts slots ((rowAccs p.path a cols).map (leave32 p.path)) lr)

/-- Second pass of one row (R165). -/
def secondRow (k : Ctx) (p : MmPlan) (e : Nat × Nat × Nat × Nat) (ei count : Nat) (r : Nat) : CmdM Unit := do
  match p.epi with
  | none => pure ()
  | some g =>
    let lr := ei * p.m + r
    let (v0, rec) ← readSpill k p.spill (count * p.m) p.n lr
    let slots ← slotsRow k p.epiIns g.bcast p.n lr
    let luts := boundTables (← get) k g
    let rs := finishRow ⟨g, p.seed, p.n⟩ luts slots v0 rec lr
    addNans k (rs.map Regs.nans).sum
    writeRow k tcOperand (entryC p e) r (convertRow32 p.c.fmt p.conv p.seed p.stream (lr * p.n) (rs.map Regs.out0))
    if g.redop ≠ 0 then writeStatsOut k p g.redop lr (rs.map Regs.prev)

/-! ### Units (R411) -/

/-- Units of a product are 16-row bands of whole rows; otherwise macro tiles. -/
def MmPlan.bands (p : MmPlan) : Bool := (p.epi.map statDep).getD false

/-- Row blocks and column blocks of an entry of `r` real rows: those of its M and N, whatever its rows are, and none for an entry
without rows (R147, R154, R156). -/
def MmPlan.grid (p : MmPlan) (r : Nat) : Nat × Nat :=
  let m := if r = 0 then 0 else p.m
  if p.bands then (ceilDiv m 16, 1) else (ceilDiv m (16 * p.h), ceilDiv p.n 256)

/-- The rows of a macro tile that the clusters of grid row `i` compute: h·i to h·i + h − 1 (R146). -/
def shareRows (h i : Nat) : List Nat := range (h * i) h

/-- The columns of a macro tile that the clusters of grid column `j` compute: 16·j to 16·j + 15 (R146). -/
def shareCols {α : Type} (j : Nat) (tile : List α) : List α := (tile.drop (16 * j)).take 16

/-- The real rows of row block `i` of an entry of `r` rows: the shares of the sixteen grid rows, or the sixteen rows of a band. -/
def MmPlan.blockRows (p : MmPlan) (r i : Nat) : List Nat :=
  let h := if p.bands then 1 else p.h
  (((List.range 16).flatMap (shareRows h)).map (16 * h * i + ·)).filter (fun x => decide (x < r))

/-- The columns of column block `j`: the shares of the sixteen grid columns. -/
def blockCols {α : Type} (j : Nat) (cols : List α) : List α :=
  (List.range 16).flatMap (fun i => shareCols i ((cols.drop (256 * j)).take 256))

/-- Units of one pass over all entries. -/
def MmPlan.passUnits (p : MmPlan) : Nat := (p.entries.map (fun e => let g := p.grid e.2.2.2; g.1 * g.2)).sum

/-- The entry of a unit, entry-major, with its index and the unit's number in it. -/
def locateUnit (p : MmPlan) : List (Nat × Nat × Nat × Nat) → Nat → Nat → Option ((Nat × Nat × Nat × Nat) × Nat × Nat)
  | [], _, _ => none
  | e :: es, i, u =>
    let g := p.grid e.2.2.2
    if u < g.1 * g.2 then some (e, i, u) else locateUnit p es (i + 1) (u - g.1 * g.2)

/-- The units that write the outputs of unit `u`: with a nonzero REDOP its row block is written whole by the block's last unit too
(R411). -/
def MmPlan.writers (p : MmPlan) (u : Nat) : List Nat :=
  if p.redop = 0 || p.bands then [u]
  else match locateUnit p p.entries 0 u with
    | none => [u]
    | some (e, _, v) =>
      let g := p.grid e.2.2.2
      [u, u - v + v / g.2 * g.2 + g.2 - 1].dedup

/-- Modes with two passes run a first pass of the same units. -/
def MmPlan.twoPass (p : MmPlan) : Bool := p.mode == modeTwoPass || p.mode == modeDeferred

/-- Runs unit `u`. In a mode with two passes, units below the pass count are the first pass and the next ones the
second. With a nonzero REDOP, a row band is written whole by its last column block. -/
def runProductUnit (k : Ctx) (p : MmPlan) (link : StatLink) (u : Nat) : CmdM Unit := do
  let per := p.passUnits
  let second := p.twoPass && decide (per ≤ u)
  match locateUnit p p.entries 0 (if second then u - per else u) with
  | none => pure ()
  | some (e, ei, v) =>
    let g := p.grid e.2.2.2
    let rows := p.blockRows e.2.2.2 (v / g.2)
    let c0 := if p.bands then 0 else 256 * (v % g.2)
    if second then forRows (secondRow k p e ei p.entries.length) rows
    else if p.redop ≠ 0 && !p.bands && v % g.2 + 1 ≠ g.2 then pure ()
    else
      let b ← stationaryRows k (entryB p e) (codebookOf (← get) k p.cbEn p.cb) p.b.rows 0
      let cols := transpose b
      if p.twoPass then forRows (spillRow k p e ei p.entries.length link cols) rows
      else if p.bands || p.redop ≠ 0 then forRows (productRow k p e ei link 0 cols) rows
      else forRows (productRow k p e ei link c0 (blockCols (v % g.2) cols)) rows

/-- Tables that a product's programs and codebook use. -/
def mmTables (p : MmPlan) : List Nat :=
  ((p.epi.map programTables).getD [] ++ (p.pro.map programTables).getD [] ++ (if p.cbEn then [0x10 + p.cb] else [])).dedup

/-- Start checks of MATMUL; answers the tables it uses. -/
def startMatmul (k : Ctx) : CmdM (List Nat) := do
  let (p, b) ← matmulPlan k
  rejectOn b
  modify (fun s => modCmd s k.uid (fun c =>
    { c with mode := p.mode, rows := some ((p.entries.headD (0, 0, 0, 0)).2.2.2) }))
  pure (mmTables p)

def startMatmulList (k : Ctx) : CmdM (List Nat) := do
  let (p, b) ← matmulListPlan k
  rejectOn b
  modify (fun s => modCmd s k.uid (fun c => { c with mode := p.mode }))
  pure (mmTables p)

/-- Units of a plan: both passes in TWO_PASS, the first alone in DEFERRED. -/
def mmUnits (p : MmPlan) : Nat := if p.mode == modeTwoPass then 2 * p.passUnits else p.passUnits

/-- The link of the command (R167). -/
def linkOf (s : State) (k : Ctx) : StatLink := (findCmd s k.uid).elim .none Cmd.link

def unitsMatmul (k : Ctx) : CmdM Nat := do
  let (p, b) ← matmulPlan k
  rejectOn b
  pure (mmUnits p)

def unitMatmul (k : Ctx) (u : Nat) : CmdM Unit := do
  let (p, b) ← matmulPlan k
  rejectOn b
  runProductUnit k p (linkOf (← get) k) u

def unitsMatmulList (k : Ctx) : CmdM Nat := do
  let (p, b) ← matmulListPlan k
  rejectOn b
  pure (mmUnits p)

def unitMatmulList (k : Ctx) (u : Nat) : CmdM Unit := do
  let (p, b) ← matmulListPlan k
  rejectOn b
  runProductUnit k p (linkOf (← get) k) u

/-! ### MATMUL_CHAIN (R169 to R172) -/

/-- What a chain runs over. -/
structure ChainPlan where
  a : Tensor
  b1 : Tensor
  b2 : Tensor
  y : Tensor
  path1 : Path
  path2 : Path
  fn : Program
  epi : Option Program
  fnIns : List (Option Tensor)
  epiIns : List (Option Tensor)
  spill : Nat
  seed : W64
  mid : Fmt
  midConv : Nat
  conv : Nat
  midStream : BitVec 28
  stream : BitVec 28
  pair : Bool
  cb1 : Option Nat
  cb2 : Option Nat
  mode : Byte
  band : Nat
  rows : Nat
  deriving DecidableEq, Repr

/-- W of R169. -/
def ChainPlan.w (p : ChainPlan) : Nat := if p.pair then p.b1.cols / 2 else p.b1.cols

/-- Rows of a chain's band: at most 1,024 for an 8-bit MID_FMT and 512 for a 16-bit one (R171). -/
def bandLimit (mid : Fmt) : Nat := if mid.bits = 16 then 512 else 1024

/-- Formats of G (R169). -/
def midFmt (code : Nat) : Bool :=
  code == 0x10 || code == 0x11 || code == 0x03 || code == 0x02 || code == 0x20 || code == 0x21

def fetchChain (d : BitVec 1024) : List Bad :=
  need (fieldN d 128 64 != 0) 16 ++ need (fieldN d 192 64 != 0) 24 ++ need (fieldN d 256 64 != 0) 32
  ++ need (fieldN d 320 64 != 0) 40 ++ need (fieldN d 384 64 != 0) 48
  ++ addrCheck d 128 64 ++ addrCheck d 192 64 ++ addrCheck d 256 64 ++ addrCheck d 320 64 ++ addrCheck d 384 64
  ++ addrCheck0 d 448 64 ++ addrCheck0 d 512 64 ++ addrCheck0 d 576 64 ++ addrCheck0 d 704 4
  ++ need (midFmt (fieldN d 768 8)) 96 ++ convChecks (fieldN d 776 8) 97 true ++ convChecks (fieldN d 784 8) 98 true
  ++ reserved d 795 799 ++ reserved d 828 831 ++ reserved d 860 863 ++ reserved d 869 871 ++ reserved d 877 1023

/-- Reads MATMUL_CHAIN's operands with the checks they fail. DESIGN CHOICE (log entry 85): a template's band of more than 512 rows is cut
to 512 under a 16-bit MID_FMT (R171). -/
def chainPlan (k : Ctx) : CmdM (ChainPlan × List Bad) := do
  let (a, ba) ← tensorReq k 128
  let (b1, bb1) ← tensorReq k 192
  let (b2, bb2) ← tensorReq k 256
  let (y, by_) ← tensorReq k 320
  let fn ← readProgram k (k.field 384 64)
  let epi ← programAt k 448
  let bind ← bindBlock k 512
  let (fnIns, bf) ← boundTensors k 64 (bind.take 4)
  let (epiIns, be) ← boundTensors k 64 (bind.drop 4)
  let r ← runRows k 704 a.rows
  let pair := bit k.desc 794
  let w := if pair then b1.cols / 2 else b1.cols
  let mid := (fmtOf (k.field 768 8)).getD (.flt .e4m3)
  let dep := statDep fn
  let req := k.field 792 2
  let mode := modeOf dep req true w
  let cb1 := if bit k.desc 868 then some (k.field 864 4) else none
  let cb2 := if bit k.desc 876 then some (k.field 872 4) else none
  let s ← get
  let p : ChainPlan :=
    { a := a, b1 := b1, b2 := b2, y := y, path1 := (pathOf a.fmt b1.fmt).getD .exact
      path2 := (pathOf mid b2.fmt).getD .exact, fn := fn, epi := epi, fnIns := fnIns, epiIns := epiIns
      spill := k.field 576 64, seed := field k.desc 640 64, mid := mid, midConv := k.field 776 8, conv := k.field 784 8
      midStream := field k.desc 800 28, stream := field k.desc 832 28, pair := pair, cb1 := cb1, cb2 := cb2, mode := mode
      band := min (templateBand k.record a.bucket) (bandLimit mid), rows := r }
  let dims := a.dims.dropLast
  let fnBound := (List.range 4).map (fun i => if i = 3 && pair then true else (fnIns.getD i none).isSome)
  pure (p, ba ++ bb1 ++ bb2 ++ by_ ++ bf ++ be
    ++ need (decide (2 ≤ a.ndim)) 16 ++ need (b1.ndim == 2) 24 ++ need (b2.ndim == 2) 32
    ++ relate [a, b1] (a.cols == b1.rows) 16
    ++ need (decide (b1.cols ≤ 65536)) 24 ++ need (!pair || b1.cols % 2 == 0) 24
    ++ relate [b1, b2] (b2.rows == w) 24
    ++ relate [a, y] (y.dims.dropLast == dims) 16 ++ relate [b2, y] (y.cols == b2.cols) 32
    ++ need (decide (a.rows ≤ 2 ^ 32 - 1)) 16
    ++ relate [a, b1] (pathOf a.fmt b1.fmt).isSome 16 ++ relate [b2] (pathOf mid b2.fmt).isSome 32
    ++ relate [b1] (!mid.isMx || w % 32 == 0) 24
    ++ need (productOut y && y.distinct) 40
    ++ codebookChecks s k cb1.isSome (cb1.getD 0) b1 24 108
    ++ codebookChecks s k cb2.isSome (cb2.getD 0) b2 32 109
    ++ bucketChecks k.record a.bucket 16
    ++ programChecks ⟨fnBound, true, true, true, false, a.rows, w⟩ fn 48
    ++ statRules fn pair 48 ++ need (fn.redop == 0) 48 ++ need (!pair || bind.getD 3 0 == 0) 64
    ++ bindChecks fn (if pair then fnIns.take 3 else fnIns) (dims ++ [w]) [a, b1] 16
    ++ (programTables fn).flatMap (fun x => tableReady s k x 48)
    ++ (match epi with
        | none => []
        | some e =>
          programChecks ⟨epiIns.map Option.isSome, true, false, true, false, a.rows, b2.cols⟩ e 56
          ++ need (!statDep e && e.redop == 0) 56 ++ bindChecks e epiIns y.dims [y] 40
          ++ (programTables e).flatMap (fun x => tableReady s k x 56))
    ++ relate [a, y] (!y.meets a) 16 ++ relate [b1, y] (!y.meets (storedB s k cb1.isSome (cb1.getD 0) b1)) 24
    ++ relate [b2, y] (!y.meets (storedB s k cb2.isSome (cb2.getD 0) b2)) 32
    ++ need (outOverlapOk y epi epiIns) 40
    ++ need (outOverlapOk y (some fn) (if pair then fnIns.take 3 else fnIns)) 40
    ++ relate [b1, y] (k.field 576 64 == 0 || !overlaps y.base y.extent (k.field 576 64) (spillBytes a.rows w)) 40
    ++ need (!dep || decide (req ≤ 1)) 99
    ++ need (decide (mode.toNat ≤ 1) || k.field 576 64 != 0) 72
    ++ (if k.field 704 64 = 0 then [] else rowsChecks k.record a.bucket a.rows r 16))

/-- Segments of the second product's contraction, and bands. -/
def ChainPlan.segs (p : ChainPlan) : Nat := ceilDiv p.w 4096
def ChainPlan.bands (p : ChainPlan) : Nat := ceilDiv p.rows p.band

/-- Bands that spill their first product before any second product begins: those of a DEFERRED chain (R172). -/
def ChainPlan.spills (p : ChainPlan) : Nat := if p.mode == modeDeferred then p.bands else 0

/-- Rows of band `b`. -/
def ChainPlan.bandRows (p : ChainPlan) (b : Nat) : List Nat := range (p.band * b) (min p.band (p.rows - p.band * b))

/-- Units of band `b`: its spill, if it has one, and its segments (R171, R411). -/
def ChainPlan.unitsOfBand (p : ChainPlan) (b : Nat) : List Nat :=
  (if b < p.spills then [b] else []) ++ range (p.spills + p.segs * b) p.segs

/-- The columns of G that segment `g` covers. -/
def inSegment (g j : Nat) : Bool := decide (4096 * g ≤ j) && decide (j < 4096 * g + 4096)

/-- Row `r` of H in the columns that `need` names: the first product (R169). -/
def chainH (k : Ctx) (p : ChainPlan) (link : StatLink) (cols1 : List (List Val)) (need : Nat → Bool) (r : Nat) :
    CmdM (List Val) := do
  let xs ← match link with
    | .producer c desc => producerRow k c desc p.a p.a r
    | _ => readRow k tcOperand p.a r
  let a := xs.map (fun x => elemVal p.a.fmt x.1 x.2)
  pure (((List.range cols1.length).zip cols1).map (fun x =>
    if need x.1 then leave32 p.path1 (product p.path1 a x.2) else .zero false))

/-- Input slots of the row function along row `r`; with PAIR, IN3 is the partner column of H (R169). -/
def chainSlots (k : Ctx) (p : ChainPlan) (h : List Val) (r : Nat) : CmdM (List (List Val)) := do
  let slots ← slotsRow k (if p.pair then p.fnIns.take 3 else p.fnIns) p.fn.bcast p.w r
  pure (if p.pair then slots.take 3 ++ [h.drop p.w] else slots)

/-- The row function as it runs along a row of the chain. -/
def ChainPlan.rowFn (p : ChainPlan) : RowProg := ⟨p.fn, p.seed, p.w⟩

/-- The first product of row `r` of a DEFERRED chain: stage 0 goes to the spill area (R172). -/
def chainSpill (k : Ctx) (p : ChainPlan) (link : StatLink) (cols1 : List (List Val)) (r : Nat) : CmdM Unit := do
  let h ← chainH k p link cols1 (fun _ => true) r
  let slots ← chainSlots k p h r
  spillStage k p.spill p.a.rows p.w r (firstStage p.rowFn (boundTables (← get) k p.fn) slots h r)

/-- What the row function gives along row `r`, in the columns of segment `g` at least: from the spill area in DEFERRED mode, from
the first product otherwise, whose whole row a statistic needs (R160, R172). -/
def chainFn (k : Ctx) (p : ChainPlan) (link : StatLink) (cols1 : List (List Val)) (g r : Nat) : CmdM (List Regs) := do
  let luts := boundTables (← get) k p.fn
  if p.mode == modeDeferred then do
    let (v0, rec) ← readSpill k p.spill p.a.rows p.w r
    pure (finishRow p.rowFn luts (← chainSlots k p [] r) v0 rec r)
  else do
    let h ← chainH k p link cols1 (fun j => statDep p.fn || inSegment g (j % p.w)) r
    pure (runRow p.rowFn luts (← chainSlots k p h r) h r).1

/-- Row `r` of the G slice of segment `g`, converted into MID_FMT (R169, R171). -/
def chainSlice (k : Ctx) (p : ChainPlan) (link : StatLink) (cols1 : List (List Val)) (g r : Nat) : CmdM (List Val) := do
  let rs := ((← chainFn k p link cols1 g r).drop (4096 * g)).take 4096
  let x := convertRow32 p.mid p.midConv p.seed p.midStream (r * p.w + 4096 * g) (rs.map Regs.out0)
  addNans k ((rs.map Regs.nans).sum + x.nans)
  pure (((List.range x.codes.length).zip x.codes).map (fun y => elemVal p.mid y.2 (x.scales.getD (y.1 / 32) 0x7F)))

/-- The partials of row `r` over segment `g`, in their slots. -/
def chainPartial (k : Ctx) (p : ChainPlan) (link : StatLink) (cols1 cols2 : List (List Val)) (g r : Nat) :
    CmdM (List Byte) := do
  let x ← chainSlice k p link cols1 g r
  pure (encodeSlots p.path2 (cols2.map (fun c =>
    segmentFrom p.path2 (Acc.start p.path2) (x.zip ((c.drop (4096 * g)).take 4096)))))

/-- The partials of some rows. -/
def chainPartials (k : Ctx) (p : ChainPlan) (link : StatLink) (cols1 cols2 : List (List Val)) (g : Nat) :
    List Nat → CmdM (List (List Byte))
  | [] => pure []
  | r :: rs => do
    let x ← chainPartial k p link cols1 cols2 g r
    let more ← chainPartials k p link cols1 cols2 g rs
    pure (x :: more)

/-- The partials that a band's segments have given so far. -/
def bandSums (s : State) (u : Uid) (b : Nat) : List ChainSum := ((findCmd s u).elim [] Cmd.sums).filter (fun x => x.band == b)

/-- Keeps the partials of a unit, in place of those of an earlier run of it. -/
def keepSum (k : Ctx) (x : ChainSum) : CmdM Unit :=
  modify (fun s => modCmd s k.uid (fun c =>
    { c with sums := c.sums.filter (fun y => !(y.band == x.band && y.segment == x.segment)) ++ [x] }))

/-- The accumulators of row `i` of a band, its segments combined by the tree (R48, R171). -/
def bandRowAccs (p : ChainPlan) (sums : List ChainSum) (i : Nat) : List Acc :=
  let n := p.b2.cols
  let parts := (List.range p.segs).map (fun g =>
    decodeSlots p.path2 n (((sums.find? (fun x => x.segment == g)).elim [] ChainSum.rows).getD i []))
  (List.range n).map (fun j =>
    tree (combine p.path2) (Acc.start p.path2) (parts.map (fun l => l.getD j (Acc.start p.path2))))

/-- Row `r` of Y: the epilogue, then the conversion (R169). -/
def chainOut (k : Ctx) (p : ChainPlan) (accs : List Acc) (r : Nat) : CmdM Unit := do
  let n := p.b2.cols
  match p.epi with
  | none => writeRow k tcOperand p.y r (accCodes p.y p.path2 p.conv p.seed p.stream (r * n) accs)
  | some e =>
    let slots ← slotsRow k p.epiIns e.bcast n r
    let luts := boundTables (← get) k e
    let (rs, _) := runRow ⟨e, p.seed, n⟩ luts slots (accs.map (leave32 p.path2)) r
    addNans k (rs.map Regs.nans).sum
    writeRow k tcOperand p.y r (convertRow32 p.y.fmt p.conv p.seed p.stream (r * n) (rs.map Regs.out0))

/-- Runs unit `u`: a band's spill, or a band and a segment. The band's last segment completes its rows of Y (R171). -/
def runChainUnit (k : Ctx) (p : ChainPlan) (link : StatLink) (cols1 cols2 : List (List Val)) (u : Nat) : CmdM Unit := do
  if u < p.spills then forRows (chainSpill k p link cols1) (p.bandRows u)
  else
    let b := (u - p.spills) / p.segs
    let g := (u - p.spills) % p.segs
    keepSum k ⟨b, g, ← chainPartials k p link cols1 cols2 g (p.bandRows b)⟩
    let sums := bandSums (← get) k.uid b
    if sums.length = p.segs then
      forRows (fun r => chainOut k p (bandRowAccs p sums (r - p.band * b)) r) (p.bandRows b)
      modify (fun s => modCmd s k.uid (fun c => { c with sums := c.sums.filter (fun x => x.band != b) }))

def startChain (k : Ctx) : CmdM (List Nat) := do
  let (p, b) ← chainPlan k
  rejectOn b
  modify (fun s => modCmd s k.uid (fun c => { c with mode := p.mode, rows := some p.rows }))
  pure ((programTables p.fn ++ (p.epi.map programTables).getD [] ++ p.cb1.toList.map (0x10 + ·)
    ++ p.cb2.toList.map (0x10 + ·)).dedup)

def unitsChain (k : Ctx) : CmdM Nat := do
  let (p, b) ← chainPlan k
  rejectOn b
  pure (p.spills + p.bands * p.segs)

def unitChain (k : Ctx) (u : Nat) : CmdM Unit := do
  let (p, b) ← chainPlan k
  rejectOn b
  let s ← get
  let r1 ← stationaryRows k p.b1 (p.cb1.bind (fun c => codebookOf s k true c)) p.b1.rows 0
  let r2 ← stationaryRows k p.b2 (p.cb2.bind (fun c => codebookOf s k true c)) p.b2.rows 0
  runChainUnit k p (linkOf s k) (transpose r1) (transpose r2) u

/-! ### Statistic links (R167) -/

/-- A MATMUL or MATMUL_LIST, which has MATMUL's fields and modes (R156). -/
def productOp (d : BitVec 1024) : Bool := opcodeOf d == 0x10 || opcodeOf d == 0x11

/-- The mode taken is DEFERRED: bits as the completion record has them (R168). -/
def isDeferred (c : Cmd) : Bool := productOp c.desc && c.mode == modeDeferred

/-- The next command's descriptor can be linked: a product whose A field equals the producer's C field, with FENCE 0
(R167). -/
def linkable (prod cons : BitVec 1024) : Bool :=
  [0x10, 0x11, 0x12].contains (opcodeOf cons) && fieldN cons 128 64 == fieldN prod 256 64 && !bit cons 13

/-- The second pass of R165 over all entries of a product. -/
def secondPass (k : Ctx) : CmdM Unit := do
  let (p, b) ← if opcodeOf k.desc = 0x11 then matmulListPlan k else matmulPlan k
  rejectOn b
  let link := linkOf (← get) k
  forRows (fun u => runProductUnit k p link (p.passUnits + u)) (List.range p.passUnits)

end Sys2Proof.Machine
end

