-- ==== Sys2Proof/Machine/Conv.lean ====
section
/-!
DEFINITION. CONV: convolution, pooling, resampling and folding on image tensors (R173 to R186).
-/
namespace Sys2Proof.Machine

open Sys2Proof

/-- What a CONV runs over (R177). -/
structure ConvPlan where
  x : Tensor
  wt : Option Tensor
  y : Tensor
  epi : Option Program
  ins : List (Option Tensor)
  mode : Nat
  seed : W64
  kh : Nat
  kw : Nat
  sh : Nat
  sw : Nat
  dh : Nat
  dw : Nat
  padT : Nat
  padB : Nat
  padL : Nat
  padR : Nat
  groups : Nat
  padMode : Nat
  avgExcl : Bool
  conv : Nat
  stream : BitVec 28
  deriving DecidableEq, Repr

def ConvPlan.dim (p : ConvPlan) (i : Nat) : Nat := p.x.dims.getD i 1

/-- H′ and W′ (R179). -/
def ConvPlan.h' (p : ConvPlan) : Nat := if p.mode = 1 then 2 * p.dim 1 else p.dim 1
def ConvPlan.w' (p : ConvPlan) : Nat := if p.mode = 1 then 2 * p.dim 2 else p.dim 2

/-- OH or OW of a windowed mode (R179). -/
def outExtent (n pad0 pad1 d k st : Nat) : Int :=
  (((n + pad0 + pad1 : Nat) : Int) - (d * (k - 1) + 1 : Nat)) / (st : Int) + 1

def ConvPlan.oh (p : ConvPlan) : Int := outExtent p.h' p.padT p.padB p.dh p.kh p.sh
def ConvPlan.ow (p : ConvPlan) : Int := outExtent p.w' p.padL p.padR p.dw p.kw p.sw

/-- The modes with a window, with weights, and with an epilogue. -/
def windowed (mode : Nat) : Bool := decide (mode ≤ 3)
def weighted (mode : Nat) : Bool := decide (mode ≤ 1)
def foldMode (mode : Nat) : Bool := mode == 6 || mode == 7

/-- A nearest-neighbour move of integers or of MX blocks already in Y's format, which is exact (R186). Values of the other formats are
what they were after the conversion too. -/
def ConvPlan.exactMove (p : ConvPlan) : Bool :=
  p.mode == 4 && p.epi.isNone && p.x.fmtCode == p.y.fmtCode && (p.x.fmt.intOut.isSome || p.x.fmt.isMx)

/-- Fetch checks of CONV: fields in range, and zero where the mode does not use them (R177 to R179). Modes 0 and 1 take either AVG_EXCL,
which only AVGPOOL reads. -/
def fetchConv (d : BitVec 1024) : List Bad :=
  let mode := fieldN d 596 4
  let inR (lo w a b : Nat) : List Bad := need (decide (a ≤ fieldN d lo w) && decide (fieldN d lo w ≤ b)) (lo / 8)
  let zero (lo w : Nat) : List Bad := need (fieldN d lo w == 0) (lo / 8)
  addrCheck d 128 64 ++ addrCheck0 d 192 64 ++ addrCheck d 256 64 ++ addrCheck0 d 320 64 ++ addrCheck0 d 384 64
  ++ need (fieldN d 128 64 != 0) 16 ++ need (fieldN d 256 64 != 0) 32
  ++ need (decide (mode ≤ 7)) 74
  ++ (if windowed mode then
        inR 512 8 1 16 ++ inR 520 8 1 16 ++ inR 528 4 1 8 ++ inR 532 4 1 8 ++ inR 536 4 1 8 ++ inR 540 4 1 8
        ++ need (fieldN d 592 2 != 3) 74
        ++ (if weighted mode then need (fieldN d 192 64 != 0) 24 ++ inR 576 16 1 65535
            else zero 192 64 ++ zero 576 16 ++ zero 592 2)
        ++ (if mode = 2 then zero 594 1 else [])
      else
        zero 192 64 ++ zero 512 8 ++ zero 520 8 ++ zero 536 4 ++ zero 540 4 ++ zero 544 8 ++ zero 552 8 ++ zero 560 8
        ++ zero 568 8 ++ zero 576 16 ++ zero 592 2 ++ zero 594 1
        ++ (if mode = 5 then
              need (fieldN d 528 4 == 2 || fieldN d 528 4 == 4 || fieldN d 528 4 == 8) 66
              ++ need (fieldN d 532 4 == 2 || fieldN d 532 4 == 4 || fieldN d 532 4 == 8) 66
            else inR 528 4 1 8 ++ inR 532 4 1 8))
  ++ (if foldMode mode then zero 320 64 ++ zero 384 64 ++ zero 448 64 ++ zero 600 8 ++ zero 608 28 else [])
  ++ reserved d 595 595 ++ convChecks (fieldN d 600 8) 75 true ++ reserved d 636 1023

/-- The shape of Y that a mode defines; `none` where X admits none (R179, R184, R185). -/
def convShape (p : ConvPlan) : Option (List Nat) :=
  let n := p.dim 0
  let h := p.dim 1
  let w := p.dim 2
  let c := p.dim 3
  match p.mode with
  | 4 => some [n, h * p.sh, w * p.sw, c]
  | 5 => some [n, h * p.sh, w * p.sw, c]
  | 6 => if h % p.sh = 0 && w % p.sw = 0 then some [n, h / p.sh, w / p.sw, p.sh * p.sw * c] else none
  | 7 => if c % (p.sh * p.sw) = 0 then some [n, h * p.sh, w * p.sw, c / (p.sh * p.sw)] else none
  | _ =>
    if p.oh < 1 || p.ow < 1 then none
    else some [n, p.oh.toNat, p.ow.toNat,
      if weighted p.mode then (p.wt.map (fun t => t.dims.getD 0 1)).getD 1 else c]

/-- Reads CONV's operands with the checks they fail (R179). REFLECT over a dimension of 1 fails also where that dimension has no pads
(log entry 73, DEDUCED). -/
def convPlan (k : Ctx) : CmdM (ConvPlan × List Bad) := do
  let (x, bx) ← tensorReq k 128
  let (wt, bw) ← tensorAt k 192
  let (y, by_) ← tensorReq k 256
  let epi ← programAt k 320
  let bind ← bindBlock k 384
  let (ins, bi) ← boundTensors k 48 (bind.take 4)
  let s ← get
  let p : ConvPlan :=
    { x := x, wt := wt, y := y, epi := epi, ins := ins, mode := k.field 596 4, seed := field k.desc 448 64
      kh := k.field 512 8, kw := k.field 520 8, sh := k.field 528 4, sw := k.field 532 4, dh := k.field 536 4
      dw := k.field 540 4, padT := k.field 544 8, padB := k.field 552 8, padL := k.field 560 8, padR := k.field 568 8
      groups := k.field 576 16, padMode := k.field 592 2, avgExcl := bit k.desc 594, conv := k.field 600 8
      stream := field k.desc 608 28 }
  let cin := p.dim 3
  let reflectBad (n a b : Nat) : Bool := decide (n ≤ a) || decide (n ≤ b) || n == 1
  pure (p, bx ++ bw ++ by_ ++ bi
    ++ need (x.ndim == 4) 16 ++ need (y.ndim == 4) 32
    ++ need (decide (p.dim 1 ≤ 16384) && decide (p.dim 2 ≤ 16384)) 16
    ++ (match convShape p with
        | none => need false 16
        | some ds =>
          relate (x :: y :: wt.toList) (y.dims.take 3 == ds.take 3 && (weighted p.mode || y.dims.drop 3 == ds.drop 3)) 16
          ++ relate (y :: wt.toList) (!weighted p.mode || y.dims.drop 3 == ds.drop 3) 24)
    ++ relate [x] (weighted p.mode || x.fmt.plain) 16
    ++ need y.distinct 32
    ++ need ((bind.drop 4).all (· == 0)) 48
    ++ (match wt with
        | none => []
        | some t =>
          let cg := t.dims.getD 3 1
          need (t.ndim == 4 && t.layout == 0) 24
          ++ need (cin % p.groups == 0) 16 ++ need (t.dims.getD 0 1 % p.groups == 0) 24
          ++ relate [t] ((t.dims.drop 1).take 2 == [p.kh, p.kw]) 24
          ++ relate [x, t] (t.dims.drop 3 == [cin / p.groups]) 16
          ++ relate [x, t] (pathOf x.fmt t.fmt).isSome 16
          ++ need (decide (p.kh * p.kw * cg ≤ 2 ^ 24)) 24
          ++ relate [x, t] (!(x.fmt.isMx || t.fmt.isMx) || cg % 32 == 0) 16
          ++ relate [y, t] (!y.meets t) 24)
    ++ need (!(windowed p.mode && p.padMode == 2 && (reflectBad p.h' p.padT p.padB || reflectBad p.w' p.padL p.padR))) 16
    ++ relate [x, y] (!y.meets x) 16
    ++ need (outOverlapOk y epi ins) 32
    ++ (if foldMode p.mode then relate [x, y] (x.fmtCode == y.fmtCode && !x.fmt.isMx) 16 ++ relate [y] y.fmt.plain 32 else need (chainOutFmt y) 32)
    ++ (match epi with
        | none => []
        | some e =>
          programChecks ⟨ins.map Option.isSome, true, false, true, false, y.rows, y.cols⟩ e 40
          ++ need (!statDep e && e.redop == 0) 40 ++ bindChecks e ins y.dims [y] 32
          ++ (programTables e).flatMap (fun t => tableReady s k t 40)))

/-- The row or column that a coordinate reads; `none` for a position padded with zero (R180). -/
def resolvePad (mode : Nat) (n : Nat) (i : Int) : Option Nat :=
  if 0 ≤ i ∧ i < n then some i.toNat
  else match mode with
    | 1 => some (if i < 0 then 0 else n - 1)
    | 2 => some (if i < 0 then (-i).toNat else (2 * (n : Int) - 2 - i).toNat)
    | _ => none

/-- Window positions in (kh, kw) order. -/
def windowPos (p : ConvPlan) : List (Nat × Nat) :=
  (List.range p.kh).flatMap (fun i => (List.range p.kw).map (fun j => (i, j)))

/-- The input pixel of a window position: its row in X, or a padded position (R178, R180). -/
def windowPixel (p : ConvPlan) (n oh ow : Nat) (q : Nat × Nat) : Option Nat :=
  let ih : Int := (oh * p.sh + q.1 * p.dh : Nat) - (p.padT : Int)
  let iw : Int := (ow * p.sw + q.2 * p.dw : Nat) - (p.padL : Int)
  match resolvePad p.padMode p.h' ih, resolvePad p.padMode p.w' iw with
  | some i, some j =>
    let (i, j) := if p.mode = 1 then (i / 2, j / 2) else (i, j)
    some ((n * p.dim 1 + i) * p.dim 2 + j)
  | _, _ => none

/-- The elements of X at window positions, each as `val` reads its code and scale code; a padded position reads none. -/
def gather (k : Ctx) (p : ConvPlan) (val : Nat → Nat → Val) : List (Option Nat) → CmdM (List (Option (List Val)))
  | [] => pure []
  | none :: rest => do
    let more ← gather k p val rest
    pure (none :: more)
  | some r :: rest => do
    let xs ← readRow k tcOperand p.x r
    let more ← gather k p val rest
    pure (some (xs.map (fun x => val x.1 x.2)) :: more)

/-- Columns of the weight matrix: weights of one output channel in the order of R176. -/
def weightCols (k : Ctx) (t : Tensor) : CmdM (List (List Val)) := do
  let rows ← stationaryRows k t none t.rows 0
  let n := t.dims.getD 1 1 * t.dims.getD 2 1
  pure ((List.range (t.dims.getD 0 1)).map (fun j => ((rows.drop (j * n)).take n).flatten))

/-- A gathered window as one streamed row of group `g` (R181). -/
def groupRow (p : ConvPlan) (cg g : Nat) (win : List (Option (List Val))) : List Val :=
  let _ := p
  win.flatMap (fun x => match x with
    | some vs => (vs.drop (g * cg)).take cg
    | none => List.replicate cg (Val.zero false))

/-- Real elements of channel `c` in a window, in (kh, kw) order. -/
def realElems (win : List (Option (List Val))) (c : Nat) : List Val :=
  win.filterMap (fun x => x.map (fun vs => vs.getD c (.zero false)))

/-- Half-pixel source of UP_BILINEAR: lower and upper index, and the fraction (R184). -/
def bilinear (o s n : Nat) : Nat × Nat × Val :=
  let num : Int := 2 * (o : Int) + 1 - s
  let y0 : Int := num / (2 * (s : Int))
  let clampN (i : Int) : Nat := (max 0 (min i ((n : Int) - 1))).toNat
  (clampN y0, clampN (y0 + 1), fdiv (valOfInt (num - y0 * (2 * s))) (valOfInt (2 * (s : Int))))

/-- fma(f, b − a, a). -/
def lerp (f a b : Val) : Val := ffma f (fsub b a) a

/-- Output values of one pixel, as accumulators of `path`; all modes but the weighted ones give binary32 values. -/
def convPixel (k : Ctx) (p : ConvPlan) (cols : List (List Val)) (m : Nat) : CmdM (Path × List Acc) := do
  let oH := p.y.dims.getD 1 1
  let oW := p.y.dims.getD 2 1
  let n := m / (oH * oW)
  let oh := m / oW % oH
  let ow := m % oW
  let wrap (vs : List Val) : Path × List Acc := (.ordered, vs.map (fun v => ⟨v, false, false, false⟩))
  match p.mode with
  | 4 => do
    let xs ← readRow32 k tcOperand p.x ((n * p.dim 1 + oh / p.sh) * p.dim 2 + ow / p.sw)
    pure (wrap xs)
  | 5 => do
    let (ya, yb, fy) := bilinear oh p.sh (p.dim 1)
    let (xa, xb, fx) := bilinear ow p.sw (p.dim 2)
    let row (i j : Nat) : CmdM (List Val) := readRow32 k tcOperand p.x ((n * p.dim 1 + i) * p.dim 2 + j)
    let aa ← row ya xa
    let ab ← row ya xb
    let ba ← row yb xa
    let bb ← row yb xb
    pure (wrap ((List.range (p.dim 3)).map (fun c =>
      let z := Val.zero false
      lerp fy (lerp fx (aa.getD c z) (ab.getD c z)) (lerp fx (ba.getD c z) (bb.getD c z)))))
  | mode => do
    let win ← gather k p (if weighted mode then elemVal p.x.fmt else widen p.x.fmt) ((windowPos p).map (windowPixel p n oh ow))
    if mode = 2 then
      pure (wrap ((List.range (p.dim 3)).map (fun c => match realElems win c with
        | [] => .inf true
        | v :: vs => vs.foldl fmax v)))
    else if mode = 3 then
      pure (wrap ((List.range (p.dim 3)).map (fun c => match realElems win c with
        | [] => .zero false
        | v :: vs => fdiv (vs.foldl fadd v)
            (valOfInt ((if p.avgExcl then vs.length + 1 else p.kh * p.kw : Nat) : Int)))))
    else
      let cg := p.dim 3 / p.groups
      let cog := cols.length / p.groups
      let path := (p.wt.bind (fun t => pathOf p.x.fmt t.fmt)).getD .exact
      pure (path, (List.range p.groups).flatMap (fun g =>
        rowAccs path (groupRow p cg g win) ((cols.drop (g * cog)).take cog)))

/-- Codes of one pixel of a folding mode (R185). -/
def foldPixel (k : Ctx) (p : ConvPlan) (m : Nat) : CmdM (List Nat) := do
  let oH := p.y.dims.getD 1 1
  let oW := p.y.dims.getD 2 1
  let n := m / (oH * oW)
  let oh := m / oW % oH
  let ow := m % oW
  let row (i j : Nat) : CmdM (List Nat) := readRowCodes k tcOperand p.x ((n * p.dim 1 + i) * p.dim 2 + j)
  if p.mode = 6 then
    let rec go : List (Nat × Nat) → CmdM (List Nat)
      | [] => pure []
      | (i, j) :: rest => do
        let x ← row (oh * p.sh + i) (ow * p.sw + j)
        let more ← go rest
        pure (x ++ more)
    go ((List.range p.sh).flatMap (fun i => (List.range p.sw).map (fun j => (i, j))))
  else
    let c := p.dim 3 / (p.sh * p.sw)
    let x ← row (oh / p.sh) (ow / p.sw)
    pure ((x.drop ((oh % p.sh * p.sw + ow % p.sw) * c)).take c)

/-- The code of an element that UP_NEAREST moves: of MX elements, a NaN's is the canonical one (R34, log entry 22). -/
def movedCode (f : Fmt) (code : Nat) : Nat :=
  match f with
  | .mx g => if isNan (decodeFlt g code) then g.nanCode.getD code else code
  | _ => code

/-- Codes of one pixel that are moved as they are, and of MX blocks the scale codes (R185, R186). -/
def movedPixel (k : Ctx) (p : ConvPlan) (m : Nat) : CmdM RowCodes := do
  if p.exactMove then
    let oH := p.y.dims.getD 1 1
    let oW := p.y.dims.getD 2 1
    let r := (m / (oH * oW) * p.dim 1 + m / oW % oH / p.sh) * p.dim 2 + m % oW / p.sw
    let cs ← readRowCodes k tcOperand p.x r
    let ss ← readRowScales k tcOperand p.x r
    pure ⟨cs.map (movedCode p.x.fmt), ss, 0⟩
  else
    let cs ← foldPixel k p m
    pure ⟨cs, [], 0⟩

/-- Writes channels `c0 .. c0 + 255` of pixel `m`: the epilogue, then one conversion (R50, R186, log entry 24). -/
def convRow (k : Ctx) (p : ConvPlan) (cols : List (List Val)) (c0 m : Nat) : CmdM Unit := do
  let cy := p.y.cols
  let part {α : Type} (l : List α) : List α := (l.drop c0).take 256
  if foldMode p.mode || p.exactMove then
    let x ← movedPixel k p m
    writePart k tcOperand p.y m c0 ⟨part x.codes, (x.scales.drop (c0 / 32)).take 8, 0⟩
  else
    let (path, accs) ← convPixel k p cols m
    match p.epi with
    | none =>
      if p.y.fmt.isFloat then
        writePart k tcOperand p.y m c0 (accCodes p.y path p.conv p.seed p.stream (m * cy + c0) (part accs))
      else
        writePart k tcOperand p.y m c0
          (convertRow32 p.y.fmt p.conv p.seed p.stream (m * cy + c0) ((part accs).map (leave32 path)))
    | some e =>
      let slots ← slotsRow k p.ins e.bcast cy m
      let luts := boundTables (← get) k e
      let vs := accs.map (leave32 path)
      let z := Val.zero false
      let rs := (range c0 (part accs).length).map (fun j =>
        runStages p.seed luts ⟨slots.map (fun v => v.getD j z), vs.getD j z, z, z, m, j, m * cy + j⟩ e.stages Regs.start)
      addNans k (rs.map Regs.nans).sum
      writePart k tcOperand p.y m c0 (convertRow32 p.y.fmt p.conv p.seed p.stream (m * cy + c0) (rs.map Regs.out0))

def startConv (k : Ctx) : CmdM (List Nat) := do
  let (p, b) ← convPlan k
  rejectOn b
  pure ((p.epi.map programTables).getD [])

/-- Row and column blocks of Y: macro tiles of 1,024 rows by 256 channels (R146, R411). -/
def convGrid (p : ConvPlan) : Nat × Nat := (ceilDiv p.y.rows 1024, ceilDiv p.y.cols 256)

def unitsConv (k : Ctx) : CmdM Nat := do
  let (p, b) ← convPlan k
  rejectOn b
  pure ((convGrid p).1 * (convGrid p).2)

def unitConv (k : Ctx) (u : Nat) : CmdM Unit := do
  let (p, b) ← convPlan k
  rejectOn b
  let cols ← match p.wt with
    | some t => weightCols k t
    | none => pure []
  let g := (convGrid p).2
  let r0 := 1024 * (u / g)
  forRows (convRow k p cols (256 * (u % g))) (range r0 (min 1024 (p.y.rows - r0)))

end Sys2Proof.Machine
end

