-- ==== Sys2Proof/Machine/Opcodes.lean ====
section
/-!
DEFINITION. The opcodes whose work is a list of progress units: their checks, units and effects by opcode (R373, R411).
-/
namespace Sys2Proof.Machine

open Sys2Proof

/-- What an opcode does: its fetch checks, its start checks with the tables it uses, its units, and one unit. -/
structure OpSem where
  fetch : BitVec 1024 → List Bad
  start : Ctx → CmdM (List Nat)
  units : Ctx → CmdM Nat
  /-- The flag tells that the host accesses of COPY and FILL fail (R360). -/
  unit : Bool → Ctx → Nat → CmdM Unit

/-- An opcode without units of its own. -/
def OpSem.plain (fetch : BitVec 1024 → List Bad) : OpSem :=
  ⟨fetch, fun _ => pure [], fun _ => pure 0, fun _ _ _ => pure ()⟩

/-- The opcodes that run by units; `none` for the others. -/
def opSem (op : Nat) : Option OpSem :=
  match op with
  | 0x01 => some (OpSem.plain fetchNop)
  | 0x08 => some ⟨fetchCopy, fun _ => pure [], unitsMove, unitCopy⟩
  | 0x09 => some ⟨fetchFill, fun _ => pure [], unitsMove, unitFill⟩
  | 0x10 => some ⟨fetchMatmul, startMatmul, unitsMatmul, fun _ => unitMatmul⟩
  | 0x11 => some ⟨fetchMatmulList, startMatmulList, unitsMatmulList, fun _ => unitMatmulList⟩
  | 0x12 => some ⟨fetchChain, startChain, unitsChain, fun _ => unitChain⟩
  | 0x14 => some ⟨fetchConv, startConv, unitsConv, fun _ => unitConv⟩
  | 0x18 => some ⟨fetchAttend, startAttend, unitsAttend, fun _ => unitAttend⟩
  | 0x19 => some ⟨fetchAttendBwd, startAttendBwd, unitsAttendBwd, fun _ => unitAttendBwd⟩
  | 0x1A => some ⟨fetchKvAppend, startKvAppend, unitsKvAppend, fun _ => unitKvAppend⟩
  | 0x20 => some ⟨fetchVecchain, startVecchain, unitsVecchain, fun _ => unitVecchain⟩
  | 0x21 => some ⟨fetchReduce, startReduce, unitsReduce, fun _ => unitReduce⟩
  | 0x24 => some ⟨fetchRandom, startRandom, unitsRandom, fun _ => unitRandom⟩
  | 0x28 => some ⟨fetchSample, startSample, unitsSample, fun _ => unitSample⟩
  | 0x40 => some ⟨fetchEncode, startEncode, unitsOne, fun _ => unitEncode⟩
  | 0x41 => some ⟨fetchDecode, startDecode, unitsOne, fun _ => unitDecode⟩
  | 0x42 => some ⟨fetchMotion, startMotion, unitsOne, fun _ => unitMotion⟩
  | _ => none

/-- Marks a unit done. -/
def markUnit (k : Ctx) (u : Nat) : CmdM Unit :=
  modify (fun s => modCmd s k.uid (fun c => { c with unitsDone := c.unitsDone ++ [u] }))

/-- Runs the units not yet done, in order; a unit is done when all its outputs have been written (R411). -/
def runUnits (op : OpSem) (fault : Bool) (k : Ctx) : List Nat → CmdM Unit
  | [] => pure ()
  | u :: us => do
    let done := (findCmd (← get) k.uid).elim [] Cmd.unitsDone
    if !done.contains u then
      op.unit fault k u
      markUnit k u
    runUnits op fault k us

/-- Opcodes whose work runs as tile groups on clusters. -/
def tileOp (op : Nat) : Bool := [0x10, 0x11, 0x12, 0x14, 0x18, 0x19, 0x1A, 0x20, 0x21, 0x24, 0x28].contains op

/-- ENCODE, DECODE and MOTION, which pre-emption never cuts within a frame (R340). -/
def codecOp (op : Nat) : Bool := [0x40, 0x41, 0x42].contains op

/-- TABLE_LOAD, SPOOL_LOAD, MODEL_BIND and KV_INDEX run to completion (R406). -/
def neverCut (op : Nat) : Bool := [0x1B, 0x48, 0x50, 0x58].contains op

/-- A pre-emption request has no tile boundary to take effect at: it waits for the end of the command, or of its engine work (R340,
R406). -/
def uncut (op : Nat) : Bool := codecOp op || neverCut op

/-- A started command that may go on: nothing waits for its next tile boundary (R311, R406). -/
def goesOn (c : Cmd) : Bool :=
  c.phase == .started
  && (codecOp (opcodeOf c.desc) || (!c.aborting && (neverCut (opcodeOf c.desc) || (!c.suspending && !c.evicting))))

end Sys2Proof.Machine
end

