-- ==== Sys2Proof/Machine/Spool.lean ====
section
/-!
DEFINITION. The spool: its image and checks, the entry in force, open windows, and the counting of open ticks (R396 to
R400, R232, R233).
-/
namespace Sys2Proof.Machine

open Sys2Proof

/-- A parsed spool. -/
structure SpoolImage where
  log2 : Nat
  phase : Nat
  guard : Nat
  /-- START and SLICES of the entries in use. -/
  entries : List (Nat × W32)
  deriving DecidableEq, Repr

def SpoolImage.period (p : SpoolImage) : Nat := 2 ^ p.log2

def parseSpool (bs : List Byte) : SpoolImage :=
  let h : BitVec 512 := bytesToBv 512 (bs.take 64)
  { log2 := fieldN h 0 5
    phase := fieldN h 32 24
    guard := fieldN h 64 16
    entries := (List.range (fieldN h 8 9)).map (fun i =>
      let e : BitVec 64 := bytesToBv 64 ((bs.drop (64 + 8 * i)).take 8)
      (fieldN e 0 32, field e 32 32)) }

/-- STARTs are strictly ascending and below the period. -/
def ascending (p : Nat) : List Nat → Bool
  | [] => true
  | [a] => decide (a < p)
  | a :: b :: rest => decide (a < b) && ascending p (b :: rest)

/-- The checks of R397; `off` is SRC's byte. -/
def spoolChecks (bs : List Byte) (off : Nat) : List Bad :=
  let h : BitVec 512 := bytesToBv 512 (bs.take 64)
  let n := fieldN h 8 9
  let p := parseSpool bs
  needZero (fieldN h 5 3 == 0 && fieldN h 17 15 == 0 && fieldN h 56 8 == 0 && fieldN h 80 432 == 0) off
  ++ need (decide (10 ≤ p.log2) && decide (p.log2 ≤ 24) && decide (1 ≤ n) && decide (n ≤ 256) && decide (p.phase < p.period)) off
  ++ need ((p.entries.map Prod.fst).head? == some 0 && ascending p.period (p.entries.map Prod.fst)) off
  ++ need (((bs.drop (64 + 8 * n)).take (8 * (256 - n))).all (· == 0)) off

/-- Offset of a tick in its cycle. -/
def SpoolImage.offset (p : SpoolImage) (t : Nat) : Nat := (t + p.period - p.phase % p.period) % p.period

/-- Index of the entry in force at a cycle offset (R398). -/
def SpoolImage.entryAt (p : SpoolImage) (o : Nat) : Nat :=
  ((List.range p.entries.length).filter (fun i => decide ((p.entries.getD i (0, 0)).1 ≤ o))).getLastD 0

/-- Entry `i` opens a context of this slice on partition `part`. -/
def SpoolImage.opens (p : SpoolImage) (i part slice : Nat) : Bool :=
  let x := fieldN (p.entries.getD i (0, 0)).2 (4 * part) 4
  x == 14 || (x == slice && decide (x ≤ 13))

/-- The spool in force; `none` before the first load (R398). -/
def currentSpool (s : State) : Option SpoolImage := if s.spool.gen = 0 then none else some (parseSpool s.spool.current)

/-- ENTRY of SPOOL_STATUS. -/
def entryInForce (s : State) : Nat :=
  match currentSpool s with
  | some p => p.entryAt (p.offset s.time.now.toNat)
  | none => 0

/-- Windows of a cycle that are open for a slice: (start, length). -/
def SpoolImage.windows (p : SpoolImage) (part slice : Nat) : List (Nat × Nat) :=
  ((List.range p.entries.length).filter (fun i => p.opens i part slice)).map (fun i =>
    let a := (p.entries.getD i (0, 0)).1
    (a, (p.entries.getD (i + 1) (p.period, 0)).1 - a))

/-- Open ticks with cycle offsets in [a, b). -/
def openBetween (ws : List (Nat × Nat)) (a b : Nat) : Nat := (ws.map (fun w => min b (w.1 + w.2) - max a w.1)).sum

/-- Open ticks among the `n` ticks from offset `o` on. -/
def openCount (period : Nat) (ws : List (Nat × Nat)) (o n : Nat) : Nat :=
  let total := openBetween ws 0 period
  let upTo (x : Nat) : Nat := x / period * total + openBetween ws 0 (x % period)
  upTo (o + n) - upTo o

/-- Least offset in a cycle after which `k` open ticks have passed; `k` is at least 1 and at most the cycle's total. -/
def openReach : List (Nat × Nat) → Nat → Nat
  | [], _ => 0
  | (a, n) :: ws, k => if k ≤ n then a + k else openReach ws (k - n)

/-- The tick after `work` open ticks from a tick (R233); `none` when no tick is open. -/
def SpoolImage.advance (p : SpoolImage) (part slice now work : Nat) : Option Nat :=
  let ws := p.windows part slice
  let total := openBetween ws 0 p.period
  if total = 0 then none
  else if work = 0 then some now
  else
    let o := p.offset now
    let w := openBetween ws 0 o + work
    let cycles := (w - 1) / total
    some (now - o + cycles * p.period + openReach ws (w - cycles * total))

/-! ### Context entries (R392) -/

/-- Reads 64 bytes of this module's HBM for the device itself; `none` where a sector cannot be read. -/
def devRead (s : State) (a : Nat) : Nat → Option (List Byte)
  | 0 => some []
  | n + 1 =>
    match devRead s a n with
    | none => none
    | some bs =>
      let o := a + 32 * n
      match (readSector s none (dieOfAddr o) (winOff o / 32 * 32) []).1 with
      | .ok x => some (bs ++ bvToBytes 32 x)
      | .error _ => none

/-- A context table entry; without a table, SLICE 0, WEIGHT 1 and nothing else (R392). -/
def ctxEntry (s : State) (tag : Nat) : BitVec 512 :=
  if s.part.ctxBase = 0 then 1#512 <<< 16
  else bytesToBv 512 ((devRead s (localOf (s.part.ctxBase.toNat + 64 * tag)) 2).getD (natToBytes 64 (2 ^ 16)))

def ctxSlice (e : BitVec 512) : Nat := fieldN e 12 4
def ctxWeight (e : BitVec 512) : Nat := fieldN e 16 4
def ctxHuskBase (e : BitVec 512) : Nat := fieldN e 64 64
def ctxHuskSlots (e : BitVec 512) : Nat := 2 ^ fieldN e 20 3
def ctxHuskSize (e : BitVec 512) : Nat := 2 ^ fieldN e 23 5
def ctxModel (e : BitVec 512) : Option Nat := if bit e 8 then some (fieldN e 0 8) else none

/-- The checks of R392 on a context entry. No descriptor field holds an address that leads to it (R497). -/
def ctxEntryChecks (e : BitVec 512) : List Bad :=
  need (decide (ctxSlice e ≤ 13) && ctxWeight e != 0) 0xFFFF
  ++ need (ctxHuskBase e == 0 || (decide (12 ≤ fieldN e 23 5) && decide (fieldN e 23 5 ≤ 30))) 0xFFFF
  ++ need (decide (fieldN e 20 3 ≤ 6)) 0xFFFF
  ++ needZero (fieldN e 9 3 == 0 && fieldN e 28 36 == 0 && fieldN e 128 384 == 0) 0xFFFF

/-- The context tag of a command, as the table is indexed. -/
def ctxTag (desc : BitVec 1024) : Nat := fieldN desc 16 16

/-- The spool leaves a context open on a partition (R389, R398). -/
def spoolOpen (s : State) (part tag : Nat) : Bool :=
  if s.part.mode = 1 then true
  else
    match currentSpool s with
    | none => true
    | some p => p.opens (entryInForce s) part (ctxSlice (ctxEntry s tag))

/-- A command's context is open: not suspended, and its window open (R398, R405). -/
def ctxOpen (s : State) (c : Cmd) : Bool :=
  !smGet false s.part.suspended (ctxTag c.desc) && spoolOpen s (cmdPart s c) (ctxTag c.desc)

/-- Ticks that remain before a window closes, as far as the end of the next cycle (R399). -/
def ticksToClose (p : SpoolImage) (part slice o : Nat) : Nat :=
  let n := p.entries.length
  let rec go : Nat → Nat → Nat
    | 0, _ => 2 ^ 40
    | f + 1, i =>
      if p.opens (i % n) part slice then go f (i + 1)
      else (p.entries.getD (i % n) (0, 0)).1 + p.period * (i / n) - o
  go n (p.entryAt o + 1)

/-- Fewer than GUARD ticks remain before the command's context closes (R399). -/
def inGuard (s : State) (c : Cmd) : Bool :=
  if s.part.mode = 1 then false
  else
    match currentSpool s with
    | none => false
    | some p =>
      let slice := ctxSlice (ctxEntry s (ctxTag c.desc))
      decide (ticksToClose p (cmdPart s c) slice (p.offset s.time.now.toNat) < p.guard)

/-- The command may start tile groups: its context is open for GUARD ticks more, or it runs on (R398, R399, R407). -/
def startsGroups (s : State) (c : Cmd) : Bool := c.runOn || (ctxOpen s c && !inGuard s c)

/-- Running ticks between two ticks for a command (R232). -/
def runningTicks (s : State) (part tag : Nat) (t0 t1 : Tick) : Nat :=
  let n := elapsed t1 t0
  if s.part.mode = 1 then n
  else
    match currentSpool s with
    | none => n
    | some p => openCount p.period (p.windows part (ctxSlice (ctxEntry s tag))) (p.offset t0.toNat) n

/-- `advance` of R233. -/
def advanceTicks (s : State) (part tag : Nat) (now : Tick) (work : Nat) : Option Tick :=
  if s.part.mode = 1 then some (now + BitVec.ofNat 40 work)
  else
    match currentSpool s with
    | none => some (now + BitVec.ofNat 40 work)
    | some p =>
      (p.advance part (ctxSlice (ctxEntry s tag)) (now.toNat + 2 ^ 40) work).map (fun t => BitVec.ofNat 40 t)

end Sys2Proof.Machine
end

