-- ==== Sys2Proof/Machine/Refine.lean ====
section
/-!
DEFINITION. REFINE: its checks, the recorded graphs and their patches, the warp, the update, step boundaries with the
deadline monitor, and the ballast (R222 to R241).
-/
namespace Sys2Proof.Machine

open Sys2Proof

/-! ### Fields -/

/-- The graphs, table and tensors of a REFINE, or of its ballast (R222, R235). -/
structure RefSrc where
  graph : Nat
  graphLen : Nat
  patch : Nat
  patchCount : Nat
  table : Nat
  steps : Nat
  latent : Nat
  pred : Nat
  final : Nat
  finalLen : Nat
  conv : Nat
  deriving DecidableEq, Repr

def primarySrc (d : BitVec 1024) : RefSrc :=
  ⟨fieldN d 128 64, fieldN d 704 16, fieldN d 192 64, fieldN d 720 16, fieldN d 256 64, fieldN d 736 16, fieldN d 320 64,
    fieldN d 384 64, fieldN d 448 64, fieldN d 752 16, fieldN d 768 8⟩

/-- The ballast descriptor's fields (R235). -/
def ballastSrc (b : BitVec 1024) : RefSrc :=
  ⟨fieldN b 64 64, fieldN b 16 16, fieldN b 128 64, fieldN b 32 16, fieldN b 192 64, fieldN b 528 16, fieldN b 256 64,
    fieldN b 320 64, fieldN b 384 64, fieldN b 48 16, fieldN b 640 8⟩

def ballastEn (d : BitVec 1024) : Bool := bit d 924
def forceEn (d : BitVec 1024) : Bool := bit d 925
def onMissAbandon (d : BitVec 1024) : Bool := bit d 926
def forceAt (d : BitVec 1024) : Nat := fieldN d 904 16
def warpField (d : BitVec 1024) : Nat := fieldN d 576 64
def estUnit (d : BitVec 1024) : Nat := fieldN d 872 32

/-- The ballast pointer of a header. -/
def ballastPtr (d : BitVec 1024) : Nat := fieldN d 104 24

/-- Fetch checks of REFINE (R222, R223). -/
def fetchRefine (d : BitVec 1024) : List Bad :=
  let p := primarySrc d
  let warp := warpField d != 0
  addrCheck d 128 64 ++ addrCheck0 d 192 8 ++ addrCheck d 256 64 ++ addrCheck d 320 64 ++ addrCheck d 384 64 ++ addrCheck0 d 448 64
  ++ addrCheck0 d 576 16 ++ addrCheck0 d 640 64 ++ need (warp == (fieldN d 640 64 != 0)) 72
  ++ need (decide (1 ≤ p.graphLen) && decide (p.graphLen ≤ 4096)) 88
  ++ need ((p.patchCount == 0) == (p.patch == 0)) 24 ++ need (decide (1 ≤ p.steps) && decide (p.steps ≤ 1024)) 92
  ++ need (decide (p.finalLen ≤ 4096)) 94 ++ need ((p.finalLen == 0) == (p.final == 0)) 56
  ++ convChecks p.conv 96 true ++ need (warp || fieldN d 776 28 == 0) 97 ++ reserved d 804 807
  ++ need (decide (forceAt d < p.steps)) 92 ++ need (forceEn d || forceAt d == 0) 113
  ++ need (!forceEn d || ballastEn d) 115 ++ need (ballastEn d || ballastPtr d == 0) 13 ++ reserved d 927 927
  ++ need (warp || fieldN d 928 32 == 0) 116 ++ need (warp || fieldN d 960 32 == 0) 120 ++ reserved d 992 1023

/-! ### Step tables (R228) -/

structure StepRow where
  timestep : W32
  sigma : W32
  guidance : W32
  cx : W32
  ce : W32
  cz : W32
  noise : BitVec 28
  round : BitVec 28
  cost : Nat
  guide : Bool
  noiseEn : Bool
  deriving DecidableEq, Repr

def parseRow (b : BitVec 512) : StepRow :=
  ⟨field b 0 32, field b 32 32, field b 64 32, field b 96 32, field b 128 32, field b 160 32, field b 192 28, field b 224 28,
    fieldN b 256 8, bit b 264, bit b 265⟩

def rowBits (k : Ctx) (table i : Nat) : CmdM (BitVec 512) := do
  pure (bytesToBv 512 (← readMem k tcSync (table + 64 * i) 64))

/-- The checks of R228 on a row. -/
def rowChecks (b : BitVec 512) (off : Nat) : List Bad :=
  let r := parseRow b
  needZero (fieldN b 220 4 == 0 && fieldN b 252 4 == 0 && fieldN b 266 246 == 0) off
  ++ need (decide (1 ≤ r.cost)) off
  ++ need ([r.timestep, r.sigma, r.guidance, r.cx, r.ce, r.cz].all (fun x => isFinite (ofBits32 x))) off

/-- Checks of rows, and whether one sets GUIDE_EN. -/
def rowsOf (k : Ctx) (table off : Nat) : List Nat → CmdM (List StepRow × List Bad)
  | [] => pure ([], [])
  | i :: is => do
    let b ← rowBits k table i
    let (more, bad) ← rowsOf k table off is
    pure (parseRow b :: more, rowChecks b off ++ bad)

/-! ### Patches (R227) -/

/-- A float source. -/
def floatSource (n : Nat) : Bool := decide (n ≤ 2)

/-- The checks of R227 and R372 on a patch entry; `syncs` are the slots that hold sync records. -/
def patchChecks (e : BitVec 64) (len : Nat) (syncs : List Nat) (off : Nat) : List Bad :=
  let c := fieldN e 0 12
  let src := fieldN e 24 4
  needZero (fieldN e 19 5 == 0 && fieldN e 28 4 == 0) off
  ++ need (decide (c < len) && !syncs.contains c && decide (16 ≤ fieldN e 12 7) && decide (fieldN e 12 7 ≤ 124)
    && decide (src ≤ 5) && (!floatSource src || fieldN e 32 32 == 0)) off

/-- The four bytes that a patch writes. -/
def patchValue (e : BitVec 64) (r : StepRow) (i : Nat) : W32 :=
  let a := fieldN e 32 32
  match fieldN e 24 4 with
  | 0 => r.timestep
  | 1 => r.sigma
  | 2 => r.guidance
  | 3 => BitVec.ofNat 32 ((r.noise.toNat + a) % 2 ^ 28)
  | 4 => BitVec.ofNat 32 ((r.round.toNat + a) % 2 ^ 28)
  | _ => BitVec.ofNat 32 (i + a)

def patchesOf (k : Ctx) (a : Nat) : List Nat → CmdM (List (BitVec 64))
  | [] => pure []
  | i :: is => do
    let x ← readNum k tcSync (a + 8 * i) 8
    let more ← patchesOf k a is
    pure (BitVec.ofNat 64 x :: more)

/-- A graph command formed from its recorded descriptor, later entries overwriting earlier ones. -/
def formCommand (desc : BitVec 1024) (ps : List (BitVec 64)) (i : Nat) (r : StepRow) (step : Nat) : BitVec 1024 :=
  ps.foldl (fun d e =>
    if fieldN e 0 12 = i then setField d (8 * fieldN e 12 7) 32 (patchValue e r step).toNat else d) desc

/-! ### Graphs (R225) -/

/-- Opcodes of a step graph; a final or entry graph may also hold ENCODE and MOTION. -/
def graphOpcode (last : Bool) (op : Nat) : Bool :=
  [0x01, 0x03, 0x08, 0x09, 0x10, 0x11, 0x12, 0x14, 0x18, 0x1A, 0x20, 0x21, 0x24, 0x38].contains op
  || (last && (op == 0x40 || op == 0x42))

def slotAtGraph (k : Ctx) (graph i : Nat) : CmdM (BitVec 1024) := do
  pure (bytesToBv 1024 (← readMem k tcSync (graph + 128 * i) 128))

/-- The checks of R372 on the sync record of a graph command. -/
def graphSyncChecks (desc sync : BitVec 1024) (off : Nat) : List Bad :=
  (needZero (fieldN sync 6 2 == 0 && fieldN sync 16 48 == 0 && fieldN sync 832 192 == 0) off
  ++ need (fieldN sync 0 6 == 0 && fieldN sync 8 8 == 0 && fieldN sync 64 512 == 0) off)
  ++ (List.range 2).flatMap (fun i =>
    (entryChecks sync (576 + 128 * i) off (signalCount desc) i true).map (fun b => (b.1, off)))

/-- Common-header checks of a graph's commands; answers the slots that hold sync records. -/
def graphChecks (k : Ctx) (graph len off : Nat) (last : Bool) : Nat → Nat → CmdM (List Nat × List Bad)
  | 0, _ => pure ([], [])
  | fuel + 1, i =>
    if len ≤ i then pure ([], [])
    else do
      let d ← slotAtGraph k graph i
      let sync := hasSync d
      let b := needZero (!bit d 15) off
        ++ need (graphOpcode last (opcodeOf d) && deadlineOf d == 0 && ballastPtr d == 0 && waitCount d == 0
          && decide (signalCount d ≤ 2) && !placedFlag d && (!sync || decide (i + 1 < len))) off
      let b' ← if sync && i + 1 < len then do
          let s ← slotAtGraph k graph (i + 1)
          pure (graphSyncChecks d s off)
        else pure []
      let (more, bs) ← graphChecks k graph len off last fuel (i + (if sync then 2 else 1))
      pure (if sync then (i + 1) :: more else more, b ++ b' ++ bs)

/-! ### The warp (R229) -/

/-- A field's header as the checks read it: BW, BH, block side. -/
def fieldHeaderOk (h : BitVec 128) (height width : Nat) : Bool :=
  let l := fieldN h 32 4
  let b := 2 ^ l
  (l == 3 || l == 4) && fieldN h 36 2 != 0 && fieldN h 0 16 == ceilDiv width b && fieldN h 16 16 == ceilDiv height b

/-- Addresses and headers of the N fields, with their checks. -/
def warpFields (k : Ctx) (height width : Nat) : Nat → Nat → CmdM (List (Nat × BitVec 128) × List Bad)
  | 0, _ => pure ([], [])
  | n + 1, a => do
    let h : BitVec 128 := bytesToBv 128 (← readMem k tcOperand a 16)
    let bad := need (fieldHeaderOk h height width) 72 ++ needZero (fieldN h 39 89 == 0) 72
    if bad.isEmpty then
      let (more, b) ← warpFields k height width n (ceilDiv (a + fieldBytes (fieldN h 0 16) (fieldN h 16 16)) 16 * 16)
      pure ((a, h) :: more, b)
    else pure ([], bad)

/-- The vector of the block that holds a pixel. -/
def warpVector (k : Ctx) (f : Nat × BitVec 128) (y x : Nat) : CmdM (Int × Int) := do
  let b := 2 ^ fieldN f.2 32 4
  let e ← readNum k tcOperand (f.1 + 16 + 8 * (y / b * fieldN f.2 0 16 + x / b)) 8
  pure (signedOf 16 e, signedOf 16 (e / 65536))

def clampTo (n : Nat) (x : Int) : Nat := min x.toNat (n - 1)

/-- One pixel row of channels after the warp. -/
def warpPixel (alpha beta fy fx : Val) (old aa ab ba bb : List Val) : List Val :=
  (List.range old.length).map (fun c =>
    let z := Val.zero false
    let g (l : List Val) := l.getD c z
    let top := ffma fx (fsub (g ab) (g aa)) (g aa)
    let bot := ffma fx (fsub (g bb) (g ba)) (g ba)
    let v := ffma fy (fsub bot top) top
    ffma alpha v (fmul beta (g old)))

/-- The warp of pixel row `r` of LATENT (R229): (n, h, w) flattened. -/
def warpRow (k : Ctx) (lat prev : Tensor) (fs : List (Nat × BitVec 128)) (r : Nat) : CmdM Unit := do
  let hh := lat.dims.getD 1 1
  let ww := lat.dims.getD 2 1
  let n := r / (hh * ww)
  let y := r / ww % hh
  let x := r % ww
  let (vx, vy) ← warpVector k (fs.getD n (0, 0)) y x
  let qy := 4 * (y : Int) + vy
  let qx := 4 * (x : Int) + vx
  let y0 := qy / 4
  let x0 := qx / 4
  let at_ (yy xx : Int) := readRow32 k tcOperand prev ((n * hh + clampTo hh yy) * ww + clampTo ww xx)
  let old ← readRow32 k tcOperand lat r
  let aa ← at_ y0 x0
  let ab ← at_ y0 (x0 + 1)
  let ba ← at_ (y0 + 1) x0
  let bb ← at_ (y0 + 1) (x0 + 1)
  let frac (q : Int) : Val := .fin false (q % 4).toNat (-2)
  let v := warpPixel (ofBits32 (field k.desc 928 32)) (ofBits32 (field k.desc 960 32)) (frac qy) (frac qx) old aa ab ba bb
  writeRow k tcOperand lat r (convertRow32 lat.fmt (k.field 768 8) (field k.desc 512 64) (field k.desc 776 28) (r * lat.cols) v)

/-- Unit `u` of the warp: 64 pixel rows (log entry 19). -/
def warpUnit (k : Ctx) (u : Nat) : CmdM Unit := do
  let (lat, _) ← readTensor k (k.field 320 64) 40
  let (prev, _) ← readTensor k (k.field 640 64) 80
  let (fs, _) ← warpFields k (lat.dims.getD 1 1) (lat.dims.getD 2 1) (lat.dims.getD 0 1) (warpField k.desc)
  forRows (warpRow k lat prev fs) (unitRows lat.rows u)

/-! ### The update (R230) -/

/-- The update of one row of LATENT; `half` rows separate the two predictions. -/
def updateRow (k : Ctx) (lat pred : Tensor) (r : StepRow) (conv : Nat) (i : Nat) : CmdM Unit := do
  let seed := field k.desc 512 64
  let xs ← readRow32 k tcOperand lat i
  let cs ← readRow32 k tcOperand pred i
  let us ← if r.guide then readRow32 k tcOperand pred (i + lat.rows) else pure []
  let z := Val.zero false
  let ys := (List.range lat.cols).map (fun j =>
    let c := cs.getD j z
    let u := us.getD j z
    let e := if r.guide then ffma (ofBits32 r.guidance) (fsub c u) u else c
    let y := ffma (ofBits32 r.ce) e (fmul (ofBits32 r.cx) (xs.getD j z))
    if r.noiseEn then
      let el := i * lat.cols + j
      ffma (ofBits32 r.cz) (normalZ (drawWord .noise seed r.noise el 0) (drawWord .noise seed r.noise el 1)) y
    else y)
  writeRow k tcOperand lat i (convertRow32 lat.fmt conv seed r.round (i * lat.cols) ys)

/-- Unit `u` of a step's update: 64 rows of LATENT (log entry 19). -/
def updateUnit (k : Ctx) (src : RefSrc) (step u : Nat) : CmdM Unit := do
  let (lat, _) ← readTensor k src.latent 40
  let (pred, _) ← readTensor k src.pred 48
  let b ← rowBits k src.table step
  forRows (updateRow k lat pred (parseRow b) src.conv) (unitRows lat.rows u)

/-! ### Start checks (R223, R224, R235, R236) -/

/-- LATENT and PRED of a source. -/
def latentChecks (k : Ctx) (src : RefSrc) (guide : Bool) (lo po : Nat) : CmdM (Tensor × List Bad) := do
  let (lat, b0) ← readTensor k src.latent lo
  let (pred, b1) ← readTensor k src.pred po
  pure (lat, b0 ++ b1 ++ need (lat.fmt.isFloat && !lat.fmt.isMx && lat.distinct) lo ++ need pred.fmt.isFloat po
    ++ need (pred.dims == (if guide then 2 :: lat.dims else lat.dims)) (min lo po))

/-- Checks shared by a REFINE and its ballast; the numbers are the offsets of GRAPH, PATCH, TABLE, LATENT, PRED,
FINAL. -/
def srcChecks (k : Ctx) (src : RefSrc) (og op ot ol opr of_ : Nat) : CmdM (Tensor × List Bad) := do
  let (rows, b0) ← rowsOf k src.table ot (List.range src.steps)
  let (syncs, b1) ← graphChecks k src.graph src.graphLen og false src.graphLen 0
  let (_, b2) ← graphChecks k src.final src.finalLen of_ true src.finalLen 0
  let ps ← patchesOf k src.patch (List.range src.patchCount)
  let (lat, b3) ← latentChecks k src (rows.any StepRow.guide) ol opr
  pure (lat, b0 ++ b1 ++ b2 ++ ps.flatMap (fun e => patchChecks e src.graphLen syncs op) ++ b3)

/-- Reads the ballast descriptor (R235). -/
def readBallast (k : Ctx) : CmdM (BitVec 1024) := do
  let base := (findCmd (← get) k.uid).elim 0 (fun c => c.ballastBase.toNat)
  pure (bytesToBv 1024 (← readMem k tcSync (base + ballastPtr k.desc) 128))

/-- Entry graph of a ballast: address and length. -/
def entryGraph (b : BitVec 1024) : Nat × Nat := (fieldN b 448 64, fieldN b 512 16)

/-- MAP[e]. -/
def mapEntry (k : Ctx) (b : BitVec 1024) (e : Nat) : CmdM Nat := readNum k tcSync (fieldN b 576 64 + 2 * e) 2

def mapEntries (k : Ctx) (b : BitVec 1024) : List Nat → CmdM (List Nat)
  | [] => pure []
  | e :: es => do
    let x ← mapEntry k b e
    let more ← mapEntries k b es
    pure (x :: more)

/-- The checks of R235 and R236 on the ballast; all are reported at the header's ballast pointer, byte 13. -/
def ballastChecks (k : Ctx) : CmdM (List Bad) := do
  let b ← readBallast k
  let src := ballastSrc b
  let (ea, el) := entryGraph b
  let fields := needZero (fieldN b 8 8 == 0 && fieldN b 544 32 == 0 && fieldN b 648 376 == 0) 13
    ++ need (decide (1 ≤ fieldN b 0 8) && decide (fieldN b 0 8 ≤ 3)) 13
    ++ need (decide (1 ≤ src.graphLen) && decide (src.graphLen ≤ 4096) && decide (src.finalLen ≤ 4096) && decide (el ≤ 4096)
      && decide (1 ≤ src.steps) && decide (src.steps ≤ 1024)) 13
    ++ need ((src.patchCount == 0) == (src.patch == 0) && (src.finalLen == 0) == (src.final == 0) && (el == 0) == (ea == 0)) 13
    ++ need (addrOk src.graph 64 && addrOk0 src.patch 8 && addrOk src.table 64 && addrOk src.latent 64 && addrOk src.pred 64
      && addrOk0 src.final 64 && addrOk0 ea 64 && addrOk (fieldN b 576 64) 2) 13
    ++ convChecks src.conv 13 true
  let b1 ← tryChecks (do
    let (_, b) ← srcChecks k src 13 13 13 13 13 13
    pure b)
  let (_, b2) ← graphChecks k ea el 13 true el 0
  let ms ← mapEntries k b (List.range (k.field 736 16))
  pure (fields ++ b1 ++ b2 ++ need (ms.all (fun m => m == 0xFFFF || decide (m ≤ src.steps))) 13
    ++ need (!forceEn k.desc || ms.getD (forceAt k.desc) 0xFFFF != 0xFFFF) 13)

/-- Checks of the warp's operands (R229). -/
def warpChecks (k : Ctx) (lat : Tensor) : CmdM (List Bad) := do
  if warpField k.desc = 0 then pure []
  else
    let (prev, b) ← readTensor k (k.field 640 64) 80
    let shapes := b ++ relate [lat] (lat.ndim == 4) 40 ++ relate [lat, prev] (prev.dims == lat.dims) 40
    if lat.bad || lat.ndim != 4 then pure shapes
    else
      let (_, b') ← warpFields k (lat.dims.getD 1 1) (lat.dims.getD 2 1) (lat.dims.getD 0 1) (warpField k.desc)
      pure (shapes ++ b')

/-- Rule 1 of R234. -/
def abandons (s : State) (d : BitVec 1024) : Bool :=
  deadlineOf d != 0 && onMissAbandon d && reached s.time.now (deadlineOf d)

/-! ### Graph commands (R226, R227) -/

/-- What a graph phase runs: address, slots, GRAPH's offset for records, patches and row when it is a step graph. -/
structure GraphRun where
  graph : Nat
  len : Nat
  off : Nat
  /-- Patch list, its length, table and row. -/
  step : Option (Nat × Nat × Nat × Nat)
  deriving DecidableEq, Repr

/-- The graph of the current phase; `none` outside a graph phase. -/
def graphOf (k : Ctx) (p : RefineProg) : CmdM (Option GraphRun) := do
  let src := primarySrc k.desc
  match p.phase with
  | .graph => pure (some ⟨src.graph, src.graphLen, 16, some (src.patch, src.patchCount, src.table, p.boundary)⟩)
  | .final => pure (some ⟨src.final, src.finalLen, 56, none⟩)
  | .entry => do
    let b ← readBallast k
    pure (some ⟨(entryGraph b).1, (entryGraph b).2, 13, none⟩)
  | .ballastGraph => do
    let b := ballastSrc (← readBallast k)
    pure (some ⟨b.graph, b.graphLen, 13, some (b.patch, b.patchCount, b.table, p.row)⟩)
  | .ballastFinal => do
    let b := ballastSrc (← readBallast k)
    pure (some ⟨b.final, b.finalLen, 13, none⟩)
  | _ => pure none

/-- The formed descriptor of slot `i`. -/
def formedAt (k : Ctx) (g : GraphRun) (i : Nat) : CmdM (BitVec 1024) := do
  let d ← slotAtGraph k g.graph i
  match g.step with
  | none => pure d
  | some (patch, n, table, row) => do
    let ps ← patchesOf k patch (List.range n)
    let b ← rowBits k table row
    pure (formCommand d ps i (parseRow b) row)

/-- The context in which a graph command runs: ENCODE and MOTION on the lowest die (R226). -/
def graphCtx (k : Ctx) (desc sync : BitVec 1024) (rows : Option Nat) : Ctx :=
  let one := opcodeOf desc == 0x40 || opcodeOf desc == 0x42
  { k with desc := desc, sync := sync, rows := rows, dies := if one then BitVec.ofNat 8 (2 ^ k.die) else k.dies }

/-- Every table of the command's partition that holds an image. -/
def allTables (s : State) (p : Nat) : List Nat := (List.range 64).filter (fun t => (tableOf s p t).current.gen != 0)

/-- The tables that a formed graph command uses. One that cannot be checked yet keeps the REFINE waiting, and one whose own checks
fail now may come to use any table (R136, R137, R224). Nothing that the checks do stays. -/
def commandTables (k : Ctx) (d : BitVec 1024) : CmdM (List Nat) := do
  match opSem (opcodeOf d) with
  | none => pure []
  | some op => do
    let s ← get
    let r ← tryCatch (do pure (some (← op.start { k with desc := d, sync := 0, rows := none }))) (fun e => match e with
      | .wait => throw .wait
      | _ => pure none)
    set s
    pure (r.getD (allTables s k.part))

/-- The commands of a graph from slot `i` on, formed for each of some rows (R226, R227). -/
def graphDescs (k : Ctx) (g : GraphRun) (rows : List Nat) : Nat → Nat → CmdM (List (BitVec 1024))
  | 0, _ => pure []
  | fuel + 1, i =>
    if g.len ≤ i then pure []
    else do
      let d ← slotAtGraph k g.graph i
      let here ← rowDescs rows i
      let more ← graphDescs k g rows fuel (i + (if hasSync d then 2 else 1))
      pure (here ++ more)
where
  rowDescs : List Nat → Nat → CmdM (List (BitVec 1024))
    | [], _ => pure []
    | r :: rs, i => do
      let d ← formedAt k { g with step := g.step.map (fun x => (x.1, x.2.1, x.2.2.1, r)) } i
      let more ← rowDescs rs i
      pure (d :: more)

/-- The tables that some formed graph commands use. -/
def tablesOf (k : Ctx) : List (BitVec 1024) → CmdM (List Nat)
  | [] => pure []
  | d :: ds => do
    let x ← commandTables (graphCtx k d 0 none) d
    let more ← tablesOf k ds
    pure (x ++ more)

/-- The rows for which the commands of a step graph can differ. -/
def stepRows (src : RefSrc) : List Nat := if src.patchCount = 0 then [0] else List.range src.steps

/-- The commands of a source's step graph and final graph. -/
def srcDescs (k : Ctx) (src : RefSrc) : CmdM (List (BitVec 1024)) := do
  let x ← graphDescs k ⟨src.graph, src.graphLen, 16, some (src.patch, src.patchCount, src.table, 0)⟩ (stepRows src) src.graphLen 0
  let y ← graphDescs k ⟨src.final, src.finalLen, 56, none⟩ [0] src.finalLen 0
  pure (x ++ y)

/-- The ring groups that some commands name (R482). -/
def ringsNamed (ds : List (BitVec 1024)) : List Nat :=
  ((ds.filter (fun d => opcodeOf d == 0x18 && ringGroupNo d != 0)).map ringGroupNo).dedup

/-- Start checks of REFINE; answers the tables that its graphs use (R224, R226). A warp is not begun when the command is to be
abandoned at its start (R234). -/
def startRefine (k : Ctx) : CmdM (List Nat) := do
  let d := k.desc
  let src := primarySrc d
  let now := (← get).time.now
  let (lat, b0) ← srcChecks k src 16 24 32 40 48 56
  let b1 ← tryChecks (warpChecks k lat)
  let b2 ← if ballastEn d then tryChecks (ballastChecks k) else pure []
  rejectOn (need (deadlineOf d == 0 || validTick (deadlineOf d) now) 8 ++ b0 ++ b1 ++ b2)
  let own ← srcDescs k src
  let spare ← if ballastEn d then do
      let b ← readBallast k
      let x ← srcDescs k (ballastSrc b)
      let y ← graphDescs k ⟨(entryGraph b).1, (entryGraph b).2, 13, none⟩ [0] (entryGraph b).2 0
      pure (x ++ y)
    else pure []
  let ts ← tablesOf k (own ++ spare)
  modify (fun s => modCmd s k.uid (fun c =>
    { c with refine := ⟨if warpField d = 0 || abandons s d then .boundary else .warp, 0, 0, none, 0, 0, 0, s.time.now,
      ringsNamed (own ++ spare)⟩ }))
  pure ts.dedup

/-! ### Instances of a graph's COLLECTIVE or ring ATTEND (R226, log entry 27) -/

/-- The descriptor of an instance: the tags are the REFINE's, its signals the REFINE's to perform, and it has no deadline (R225). -/
def kidDesc (own d : BitVec 1024) : BitVec 1024 :=
  setField (setField (setField d 8 8 0) 16 48 (fieldN own 16 48)) 64 64 0

/-- An instance of a graph command: a command that has started, on one die of its REFINE. -/
def kidOf (c : Cmd) (u : Uid) (desc : BitVec 1024) (dies : Byte) (coll : CollProg) : Cmd :=
  { c with
    uid := u, desc := desc, sync := 0, dies := dies, phase := .started, status := .ok, worked := false, unjudged := false
    mode := 0, steps := 0, errSeq := none, unitsDone := [], retried := false, rows := none, segs := [], nans := 0, invalid := 0, husk := none
    link := .none, linkTo := none, coll := coll, parts := [], sums := [], written := [], ahead := [], signalNext := 0
    forwardTag := none, orphan := false, parent := some c.uid, lastWrite := none, pool := [], tickReached := false }

/-- Adds an instance of the graph command of `k` on some dies; answers its number. -/
def addKid (k : Ctx) (dies : Byte) (coll : CollProg) : CmdM Uid := do
  let s ← get
  let u := s.nextUid
  set (match findCmd s k.uid with
    | none => s
    | some c => { s with nextUid := u + 1, kids := s.kids ++ [kidOf c u (kidDesc c.desc k.desc) dies coll] })
  pure u

/-- The plans of the instances of a COLLECTIVE, one a die, with their checks. -/
def kidPlans (k : Ctx) : List Nat → CmdM (List (Nat × CollPlan) × List Bad)
  | [] => pure ([], [])
  | d :: ds => do
    let (p, b) ← collPlan { k with dies := BitVec.ofNat 8 (2 ^ d) } d
    let (more, bs) ← kidPlans k ds
    pure ((d, p) :: more, b ++ bs)

def addMembers (k : Ctx) : List (Nat × CollPlan) → CmdM Unit
  | [] => pure ()
  | (d, p) :: rest => do
    let u ← addKid k (BitVec.ofNat 8 (2 ^ d)) CollProg.dflt
    modify (markScratch { k with uid := u } p)
    addMembers k rest

/-- Starts a COLLECTIVE on every die of the placement, each instance the member whose entry names its die, or a ring ATTEND, after
their checks (R226, R319). -/
def startKids (k : Ctx) : CmdM Unit := do
  if opcodeOf k.desc = 0x38 then
    rejectOn (fetchCollective k.desc)
    let (ps, b) ← kidPlans k (diesOf k.dies)
    rejectOn b
    addMembers k ps
  else
    rejectOn (fetchAttend k.desc)
    let _ ← startAttend k
    let _ ← addKid k k.dies (collOf (← get) k.uid)
    modColl k (fun _ => CollProg.dflt)

/-- An instance of a ring ATTEND goes on while its steps can be taken. -/
def ringRounds : Nat → State → Cmd → State
  | 0, s, _ => s
  | n + 1, s, c =>
    let t := ringStep s c
    match findCmd t c.uid with
    | none => t
    | some x => if x.phase == .started && c.coll.step < x.coll.step then ringRounds n t x else t

/-- An instance joins its group once every member is there, and goes on as far as it can. -/
def runKid (s : State) (u : Uid) : State :=
  match findCmd s u with
  | none => s
  | some c =>
    if c.phase != .started then s
    else
      let s := if c.coll.joined then s else joinGroup s c []
      match (findCmd s u).filter (fun c => c.phase == .started && c.coll.joined) with
      | none => s
      | some c =>
        let go (s : State) (c : Cmd) : State :=
          if opcodeOf c.desc == 0x38 then runCollective s c
          else ringRounds ((ringGroupOf s (ringGroupNo c.desc)).count * chunksOf s c + 1) s c
        if c.aborting then endTogether s c go else go s c

/-- All instances are over: their counts and retries are the REFINE's, and a failed one is its failure, one that failed of itself
before those that ended with it. -/
def takeKids (k : Ctx) : CmdM Unit := do
  let failed := (kidsOf (← get) k.uid).filter cmdFailed
  modify (fun s => absorbKids s k.uid)
  match (failed.find? (fun x => x.status != .aborted)).or failed.head? with
  | none => pure ()
  | some x => do
    modify (fun s => modCmd s k.uid (fun c => { c with unitsDone := [workDone] }))
    throw (.fail x.status)

/-- The instances of a graph command start and go on; answers whether all of them have ended, with all they write answered. -/
def runKids (k : Ctx) : CmdM Bool := do
  if (kidsOf (← get) k.uid).isEmpty then startKids k
  let us := (kidsOf (← get) k.uid).map Cmd.uid
  modify (fun s => us.foldl runKid s)
  if (kidsOf (← get) k.uid).all (fun x => x.phase == .finished) then
    takeKids k
    pure true
  else pure false

/-- Runs the work of a graph command, from its checks to its last write; answers false while an instance of it is to go on. -/
def graphWork (k : Ctx) : CmdM Bool := do
  let op := opcodeOf k.desc
  if groupDesc k.desc then runKids k
  else if op = 0x03 then do
    rejectOn (fetchEventSignal k.desc)
    pure true
  else
    match opSem op with
    | none => do
      rejectOn [(.illegalDescriptor, 0)]
      pure true
    | some m => do
      rejectOn (m.fetch k.desc)
      let _ ← m.start k
      let s ← get
      let k := { k with rows := (findCmd s k.uid).bind Cmd.rows, segs := (findCmd s k.uid).elim [] Cmd.segs }
      let n ← m.units k
      runUnits m false k (List.range n)
      pure true

/-- A graph command's signals not yet performed, in order, each once nothing of the command is unanswered (R299, R380).
Answers false while one is. -/
def graphSignals (k : Ctx) (entries : List (Nat × Nat)) : Nat → CmdM Bool
  | 0 => pure false
  | n + 1 => do
    let s ← get
    if outstanding s k.uid then pure false
    else
      match entries[(findCmd s k.uid).elim 0 Cmd.signalNext]? with
      | none => pure true
      | some (a, v) => do
        modify (fun s => modCmd s k.uid (fun c => { c with signalNext := c.signalNext + 1 }))
        signalOne k a v false
        graphSignals k entries n

/-- A graph command of the REFINE is over: its units and link are forgotten, and nothing of what it read or wrote elsewhere is held. -/
def nextGraph (k : Ctx) (slots mode : Nat) (link : StatLink) : CmdM Unit :=
  modify (fun s => modCmd (settlePool s k.uid) k.uid (fun c =>
    { c with unitsDone := [], rows := none, segs := [], mode := BitVec.ofNat 8 mode, link := link, signalNext := 0, remoteData := [], written := []
             ahead := []
             refine := { c.refine with index := c.refine.index + slots } }))

/-- A DEFERRED product in a graph: linked to the next command when that one takes its C as A, else its second pass runs
(R167, R226). -/
def graphLink (k : Ctx) (kc : Ctx) (g : GraphRun) (i : Nat) : CmdM StatLink := do
  let deferred := (findCmd (← get) k.uid).elim false (fun c => productOp kc.desc && c.mode == modeDeferred)
  if !deferred then pure .none
  else if i < g.len then
    let next ← formedAt k g i
    if linkable kc.desc next then pure (.producer k.uid kc.desc)
    else do
      secondPass kc
      modify (fun s => logCmd s k.uid evStatTwoPass 0 false 0 0 0 0)
      pure .none
  else do
    secondPass kc
    modify (fun s => logCmd s k.uid evStatTwoPass 0 false 0 0 0 0)
    pure .none

/-- ENCODE of a graph is over when its release tick is reached (R345). -/
def graphHeld (s : State) (desc : BitVec 1024) : Bool :=
  opcodeOf desc == 0x40 && releaseTick desc != 0 && !reached s.time.now (releaseTick desc)

/-- Runs the next graph command; answers false when it has to wait for answers, for members of its group or for a release tick. -/
def graphStep (k : Ctx) (c : Cmd) (g : GraphRun) : CmdM Bool := do
  let i := c.refine.index
  let desc ← formedAt k g i
  let sync ← if hasSync desc then slotAtGraph k g.graph (i + 1) else pure 0
  let kc := graphCtx k desc sync c.rows
  let slots := if hasSync desc then 2 else 1
  let mode := if c.refine.entered.isSome then 4 else 0
  let worked ← if c.unitsDone.contains workDone then pure true
    else do
      let ended ← graphWork kc
      if ended then
        let link ← graphLink k kc g (i + slots)
        modify (fun s => modCmd s k.uid (fun c => { c with link := link, unitsDone := [workDone] }))
      pure ended
  let s ← get
  if !worked || graphHeld s desc then pure false
  else do
    let done ← graphSignals kc (signalEntries desc sync) maxSignals
    if done then nextGraph k slots mode ((findCmd s k.uid).elim .none Cmd.link)
    pure done

/-! ### Boundaries (R231 to R236) -/

/-- Sets the progress of a REFINE. -/
def modRefine (s : State) (u : Uid) (f : RefineProg → RefineProg) : State :=
  modCmd s u (fun c => { c with refine := f c.refine })

/-- Copies a step's row into the step record (R227). -/
def copyRow (k : Ctx) (src : RefSrc) (i : Nat) : CmdM Unit := do
  let bs ← readMem k tcSync (src.table + 64 * i) 64
  writeMem k tcSync (src.table + 64 * src.steps) bs

def setPhase (k : Ctx) (ph : RefinePhase) : CmdM Unit :=
  modify (fun s => modRefine s k.uid (fun p => { p with phase := ph, index := 0 }))

/-- Enters the ballast at boundary e with map entry `v` (R236). -/
def enterBallast (k : Ctx) (b : BitVec 1024) (e v : Nat) (p : Option Tick) (forced : Bool) : CmdM Unit := do
  let d1 : W64 := if forced then BitVec.ofNat 64 (forceAt k.desc) else p.elim 0 (·.zeroExtend 64)
  modify (fun s =>
    let s := logCmd s k.uid evBallastEntered 0 false (BitVec.ofNat 64 e) d1 (BitVec.ofNat 64 (fieldN b 0 8))
      (if forced then 1 else 0)
    modCmd s k.uid (fun c =>
      { c with mode := 4, steps := BitVec.ofNat 32 e
               refine := { c.refine with
                 entered := some e, row := v, index := 0
                 phase := if (entryGraph b).2 = 0 then .ballastBoundary else .entry } }))

/-- Goes on with the next step or the final graph. -/
def nextStep (k : Ctx) (src : RefSrc) (b : Nat) : CmdM Unit := do
  if b < src.steps then
    copyRow k src b
    modify (fun s => modRefine s k.uid (fun p => { p with phase := .graph, index := 0, ran := 0, stepStart := s.time.now }))
  else setPhase k (if src.finalLen = 0 then .done else .final)

/-- Cost of row `i`. -/
def costOf (k : Ctx) (src : RefSrc) (i : Nat) : CmdM Nat := do
  let b ← rowBits k src.table i
  pure (parseRow b).cost

def costSum (k : Ctx) (src : RefSrc) : List Nat → CmdM Nat
  | [] => pure 0
  | i :: is => do
    let x ← costOf k src i
    let more ← costSum k src is
    pure (x + more)

/-- The estimate at boundary b ≥ 1: (u, ewma) (R233). -/
def estimate (k : Ctx) (src : RefSrc) (p : RefineProg) (b : Nat) : CmdM (Nat × Nat) := do
  let s ← get
  let d := p.ran + runningTicks s k.part (ctxTag k.desc) p.stepStart s.time.now
  let cost ← costOf k src (b - 1)
  let u := d * 16 / cost
  let e := estUnit k.desc
  pure (u, if b = 1 then (if e = 0 then u else (3 * e + u) / 4) else (3 * p.ewma + u) / 4)

/-- `miss` with the projected tick (R233). -/
def projects (k : Ctx) (src : RefSrc) (est b : Nat) : CmdM (Bool × Option Tick) := do
  let rem ← costSum k src (range b (src.steps - b))
  let work := est * rem / 16 + k.field 840 32
  let s ← get
  let p := advanceTicks s k.part (ctxTag k.desc) s.time.now work
  let lim : Tick := deadlineOf k.desc - BitVec.ofNat 40 (k.field 808 32)
  pure (match p with
    | none => (true, none)
    | some t => (decide (2 ^ 39 ≤ work) || later t lim, some t))

/-- What a boundary answers: abandon, or go on. -/
def boundaryStep (k : Ctx) (c : Cmd) : CmdM Bool := do
  let d := k.desc
  let src := primarySrc d
  let b := c.refine.boundary
  modify (fun s => modCmd s k.uid (fun c => { c with steps := BitVec.ofNat 32 b }))
  let (u, ewma) ← if b = 0 then pure (estUnit d, c.refine.ewma) else estimate k src c.refine b
  modify (fun s => modRefine s k.uid (fun p => { p with ewma := ewma }))
  if abandons (← get) d then pure false
  else do
    let acts := deadlineOf d != 0 && ballastEn d && !forceEn d && decide (b < src.steps)
      && decide (k.field 920 4 ≤ b) && (decide (1 ≤ b) || estUnit d != 0)
    let (miss, p) ← if acts then projects k src (if b = 0 then u else max u ewma) b else pure (false, none)
    let force := forceEn d && b == forceAt d
    if force || miss then do
      let bd ← readBallast k
      let v ← mapEntry k bd b
      if v = 0xFFFF then nextStep k src b else enterBallast k bd b v p force
    else nextStep k src b
    pure true

/-- A boundary of the ballast: only rule 1 applies. -/
def ballastBoundaryStep (k : Ctx) (c : Cmd) : CmdM Bool := do
  if abandons (← get) k.desc then pure false
  else do
    let src := ballastSrc (← readBallast k)
    if c.refine.row < src.steps then
      copyRow k src c.refine.row
      setPhase k .ballastGraph
    else setPhase k (if src.finalLen = 0 then .done else .ballastFinal)
    pure true

/-! ### Progress -/

/-- Kinds of step of a REFINE. -/
inductive RefineKind where
  | boundary | graph | update
  deriving DecidableEq, Repr

def phaseKind : RefinePhase → RefineKind
  | .warp => .boundary
  | .boundary => .boundary
  | .ballastBoundary => .boundary
  | .update => .update
  | .ballastUpdate => .update
  | _ => .graph

/-- The phase after a graph's last command. -/
def afterGraph : RefinePhase → RefinePhase
  | .graph => .update
  | .entry => .ballastBoundary
  | .ballastGraph => .ballastUpdate
  | _ => .done

/-- What one step of a REFINE makes of it. -/
inductive RefineOut where
  | onward | held | abandoned
  deriving DecidableEq, Repr

/-- The work of a phase that rewrites LATENT, by units of 64 rows; `none` in another phase. -/
def rowSem (k : Ctx) (p : RefineProg) : CmdM (Option OpSem) := do
  let sem (a : Nat) (f : Nat → CmdM Unit) : OpSem :=
    ⟨fun _ => [], fun _ => pure [], fun k => do pure (ceilDiv (← readTensor k a 40).1.rows 64), fun _ _ => f⟩
  match p.phase with
  | .warp => pure (some (sem (primarySrc k.desc).latent (warpUnit k)))
  | .update => pure (some (sem (primarySrc k.desc).latent (updateUnit k (primarySrc k.desc) p.boundary)))
  | .ballastUpdate => do
    let src := ballastSrc (← readBallast k)
    pure (some (sem src.latent (updateUnit k src p.row)))
  | _ => pure none

/-- The progress after a phase that rewrites LATENT. -/
def afterRows (now : Tick) (p : RefineProg) : RefineProg :=
  match p.phase with
  | .warp => { p with phase := .boundary, stepStart := now }
  | .update => { p with phase := .boundary, boundary := p.boundary + 1 }
  | _ => { p with phase := .ballastBoundary, row := p.row + 1 }

/-- All units of a warp or an update that are not done yet, and with them the phase. -/
def runRowPhase (k : Ctx) (x : OpSem) : CmdM Unit := do
  runUnits x false k (List.range (← x.units k))
  modify (fun s => modCmd s k.uid (fun c => { c with unitsDone := [], refine := afterRows s.time.now c.refine }))

/-- One step: the warp, a boundary, a graph command or an update. A boundary is reached when the update before it has been written
everywhere (R231). -/
def refineStepM (k : Ctx) (c : Cmd) : CmdM RefineOut := do
  let p := c.refine
  match p.phase with
  | .done => pure .onward
  | ph => do
    if phaseKind ph == .boundary && ph != .warp then
      if outstanding (← get) k.uid then pure .held
      else do
        let ok ← if ph == .boundary then boundaryStep k c else ballastBoundaryStep k c
        pure (if ok then .onward else .abandoned)
    else
      match ← rowSem k p with
      | some x => do
        runRowPhase k x
        pure .onward
      | none =>
        match ← graphOf k p with
        | none => pure .held
        | some g =>
          let ok ← graphStep k c g
          let c' := (findCmd (← get) k.uid).getD c
          if ok && g.len ≤ c'.refine.index then setPhase k (afterGraph ph)
          pure (if ok then .onward else .held)

/-- The graph command in hand, with the context in which it signals, and its signals not yet performed. -/
def graphPending (k : Ctx) (c : Cmd) : CmdM (Ctx × List (Nat × Nat)) := do
  match ← graphOf k c.refine with
  | none => pure (k, [])
  | some g => do
    let desc ← formedAt k g c.refine.index
    let sync ← if hasSync desc then slotAtGraph k g.graph (c.refine.index + 1) else pure 0
    pure (graphCtx k desc sync none, (signalEntries desc sync).drop c.signalNext)

/-- Performs a failed signal; a refused one is logged and not repeated (R380). -/
def failedSignal (k : Ctx) (s : State) (e : Nat × Nat) : State :=
  match (signalOne k e.1 e.2 true).run.run s with
  | (.error .wait, _) => s
  | (_, t) => t

/-- The signals of the failed graph command that have not been performed, as failed ones (R225, R380). -/
def failGraphSignals (s : State) (c : Cmd) : State :=
  match (graphPending (ctxOf s c) c).run.run s with
  | (.ok (k, es), _) => es.foldl (failedSignal k) s
  | (.error _, _) => s

/-- The output of each entry of a product, its statistics and records. -/
def mmOutputs (p : MmPlan) : List (Nat × Nat) :=
  p.entries.flatMap (fun e => (List.range e.2.2.2).flatMap (entryC p e).rowRanges)
    ++ p.statsOut.elim [] Tensor.ranges ++ (if p.recs = 0 then [] else [(p.recs, 16 * (p.entries.length * p.m))])

/-- The pages of the rows that a KV_APPEND writes. -/
def appendOutputs (s : State) (k : Ctx) : List (Nat × Nat) :=
  match peekOf (appendPlan k) s with
  | none => []
  | some p =>
    let c := p.cache
    p.recs.flatMap (fun r =>
      match peekOf (readPage k c r.1 (r.2 / 256) 16) s with
      | none => []
      | some a => (List.range c.hkv).flatMap (fun h =>
          [(a + c.keyOff h (r.2 % 256), c.hd * c.fmt.size), (a + c.valueOff h (r.2 % 256), c.vd * c.fmt.size)]))

def vecOutputs (p : VecPlan) : List (Nat × Nat) :=
  p.out0.elim [] Tensor.ranges ++ p.out1.elim [] Tensor.ranges ++ (if p.recs = 0 then [] else [(p.recs, 16 * p.rows)])

/-- All outputs in this module of a command that a graph may hold (R225). -/
def graphOutputs (s : State) (k : Ctx) : List (Nat × Nat) :=
  match opcodeOf k.desc with
  | 0x08 => if bit k.desc 296 then [] else [(k.field 128 64, moveLength k.desc)]
  | 0x09 => if bit k.desc 296 then [] else [(k.field 128 64, moveLength k.desc)]
  | 0x10 => (peekOf (matmulPlan k) s).elim [] mmOutputs
  | 0x11 => (peekOf (matmulListPlan k) s).elim [] mmOutputs
  | 0x12 => (peekOf (chainPlan k) s).elim [] (fun p => p.y.ranges)
  | 0x14 => (peekOf (convPlan k) s).elim [] (fun p => p.y.ranges)
  | 0x1A => appendOutputs s k
  | 0x20 => (peekOf (vecPlan k) s).elim [] vecOutputs
  | 0x21 => (peekOf (reducePlan k) s).elim [] vecOutputs
  | 0x24 => (randomOut k.desc).ranges
  | _ => lostOutputs s k [] true

/-- The outputs of all commands of a graph from slot `i` on; the first number bounds them. -/
def allOutputs (s : State) (k : Ctx) (g : GraphRun) : Nat → Nat → List (Nat × Nat)
  | 0, _ => []
  | fuel + 1, i =>
    if g.len ≤ i then []
    else
      match ((formedAt k g i).run.run s).1 with
      | .error _ => []
      | .ok d => graphOutputs s (graphCtx k d 0 none) ++ allOutputs s k g fuel (i + (if hasSync d then 2 else 1))

/-- The bytes of a latent. -/
def latentRanges (s : State) (k : Ctx) (a off : Nat) : List (Nat × Nat) :=
  (peekOf (readTensor k a off) s).elim [] Tensor.ranges

/-- The latents that a failure in this phase leaves unspecified: of the primary for its warp, updates and final graph, of
the ballast for its own, of both for the entry graph (R239). -/
def lostLatents (s : State) (k : Ctx) (ph : RefinePhase) : List (Nat × Nat) :=
  let own := latentRanges s k (primarySrc k.desc).latent 40
  let low := match ((readBallast k).run.run s).1 with
    | .ok b => latentRanges s k (ballastSrc b).latent 13
    | .error _ => []
  match ph with
  | .warp => own
  | .update => own
  | .final => own
  | .entry => own ++ low
  | .ballastUpdate => low
  | .ballastFinal => low
  | .boundary => []
  | .graph => []
  | .ballastBoundary => []
  | .ballastGraph => []
  | .done => []

/-- What a failing REFINE leaves unspecified gets free values: latents and all outputs of a final or entry graph, and of a
step graph what the command in hand loses by its own rules (R197, R239, R333, R340). -/
def spoilRefine (s : State) (c : Cmd) : State :=
  let k := ctxOf s c
  let ph := c.refine.phase
  let t := spoilRanges s k (lostLatents s k ph)
  match ((graphOf k c.refine).run.run s).1 with
  | .ok (some g) =>
    if ph == .graph || ph == .ballastGraph then
      if c.unitsDone.contains workDone then t
      else
        match ((formedAt k g c.refine.index).run.run s).1 with
        | .ok d => spoilWork t (graphCtx k d 0 c.rows) c.unitsDone true
        | .error _ => t
    else spoilRanges t k (allOutputs s k g g.len 0)
  | _ => t

/-- The same for a REFINE that fails while a graph runs. -/
def failGraph (s : State) (u : Uid) : State :=
  match findCmd s u with
  | some c =>
    if opcodeOf c.desc == 0x30 then
      spoilRefine (if phaseKind c.refine.phase == .graph then failGraphSignals s c else s) c
    else s
  | none => s

/-- REFINE has run its final graph (R237). -/
def doneRefine (s : State) (c : Cmd) : State :=
  doneCmd s c.uid (if c.refine.entered.isSome then .okDowngraded else .ok)

/-- A REFINE's step fails, or a tile group of it: a failing graph command's rejection is logged, its instances end, and what the
failure leaves unspecified is free (R224, R239, R373). -/
def refineFails (s : State) (c : Cmd) (e : Stop) : State :=
  let inGraph := phaseKind c.refine.phase == .graph
  let t := match e with
    | .reject st _ =>
      if inGraph then
        logCmd s c.uid evRejected 0 false (BitVec.ofNat 64 (st.code + graphOffset c.refine.phase * 65536)) 0 0 0
      else s
    | _ => s
  let lost (st : Status) : State := failGraph (stopKids t c.uid (some st)) c.uid
  match e with
  | .reject st off => if inGraph then failCmd (lost st) c.uid st else rejectCmd (lost st) c.uid st off
  | .fail st => failCmd (lost st) c.uid st
  | .wait => t

/-- Settles one step; the flag tells that the REFINE goes on. -/
def refineOnce (s : State) (c : Cmd) : State × Bool :=
  let k := ctxOf s c
  match (refineStepM k c).run.run s with
  | (.ok .held, t) => (t, false)
  | (.ok .abandoned, t) => (missDeadline t c.uid false, false)
  | (.ok .onward, t) =>
    match findCmd t c.uid with
    | some c' => if c'.refine.phase == .done then (doneRefine t c', false) else (t, true)
    | none => (t, false)
  | (.error .wait, t) => (settleStop s t c.uid .wait, false)
  | (.error e, t) => (refineFails t c e, false)

/-- The step that is next may run: one that starts tile groups needs GUARD ticks before the context closes (R399). -/
def refineStarts (s : State) (c : Cmd) : Bool :=
  match c.refine.phase with
  | .boundary => true
  | .ballastBoundary => true
  | .done => true
  | .warp => startsGroups s c
  | .update => startsGroups s c
  | .ballastUpdate => startsGroups s c
  | _ =>
    let k := ctxOf s c
    match ((do
        match ← graphOf k c.refine with
        | some g => pure (some (← formedAt k g c.refine.index))
        | none => pure none : CmdM (Option (BitVec 1024))).run.run s).1 with
    | .ok (some d) => !tileOp (opcodeOf d) || startsGroups s c
    | _ => true

/-- The step of the given kind, when it is the next (REFINE_GRAPH_COMMAND, REFINE_UPDATE, REFINE_STEP_BOUNDARY). -/
def refineRow (s : State) (u : Uid) (kind : RefineKind) : State :=
  match findCmd s u with
  | some c =>
    if opcodeOf c.desc == 0x30 && goesOn c && refineStarts s c && phaseKind c.refine.phase == kind then (refineOnce s c).1 else s
  | none => s

/-- Lets `d` running ticks pass for a command (log entry 7). -/
def passTicks (s : State) (c : Cmd) (d : Nat) : State :=
  match advanceTicks s (cmdPart s c) (ctxTag c.desc) s.time.now d with
  | some t => { s with time := { s.time with now := t } }
  | none => s

/-- Steps until the REFINE ends or has to wait. Before each boundary after the first the next entry of `ran` passes. -/
def refineAll : Nat → State → Uid → List Nat → State
  | 0, s, _, _ => s
  | n + 1, s, u, ran =>
    match findCmd s u with
    | none => s
    | some c =>
      if opcodeOf c.desc != 0x30 || !goesOn c || !refineStarts s c then s
      else
        let ends := ((c.refine.phase == .boundary && decide (1 ≤ c.refine.boundary)) || c.refine.phase == .ballastBoundary)
          && !outstanding s u
        let s := if ends then passTicks s c (ran.headD 0) else s
        let (t, more) := refineOnce s c
        if more then refineAll n t u (if ends then ran.drop 1 else ran) else t

/-- More steps than a REFINE can take: 2,049 boundaries, each with 4,096 graph slots and an update, thrice. -/
def refineFuel : Nat := 30000000

end Sys2Proof.Machine
end

