-- ==== Sys2Proof/Machine/Tables.lean ====
section
/-!
DEFINITION. The two-bank tables of a partition, model records, and the work of TABLE_LOAD, KV_INDEX, MODEL_BIND and
SPOOL_LOAD with the swaps of tables and of the spool (R133 to R138, R144, R208, R210, R396 to R404).
-/
namespace Sys2Proof.Machine

open Sys2Proof

/-! ### Images -/

/-- The size of a function table or a codebook (R134, R144); a coarse index has none of its own. -/
def tableSize (t : Nat) : Option Nat := if t < 16 then some 1056 else if t < 32 then some 576 else none

/-- The size that an image of table `t` must have: a coarse index's follows from its header (R208). -/
def imageSize (t : Nat) (head : List Byte) : Nat :=
  (tableSize t).getD (kvSize (kvSlots head) (kvMaxp head) (kvHkv head) (kvHd head))

/-- A binary32 word is finite. -/
def finite32 (w : W32) : Bool := fieldN w 23 8 != 255

/-- The checks on a function table (R135). -/
def funcChecks (bs : List Byte) (off : Nat) : List Bad :=
  needZero ((bs.drop 1036).all (· == 0)) off
  ++ need (finite32 (bytesToBv 32 (bs.take 4)) && finite32 (bytesToBv 32 ((bs.drop 4).take 4))) off

/-- The checks on a codebook (R144). -/
def codebookImageChecks (bs : List Byte) (off : Nat) : List Bad :=
  let e := (bs.getD 0 0).toNat
  let n := (bs.getD 1 0).toNat
  needZero (((bs.take 64).drop 2).all (· == 0)) off
  ++ need ([0x10, 0x11, 0x03, 0x02].contains e && (n == 4 || n == 8)) off
  ++ need (!(e == 0x10 || e == 0x11) || (List.range 256).all (fun i => bs.getD (65 + 2 * i) 0 == 0)) off

/-- The checks on a coarse index (R208). -/
def kvidxChecks (bs : List Byte) (off : Nat) : List Bad := needZero (((bs.take 64).drop 10).all (· == 0)) off

/-- The checks of TABLE_LOAD on an image, reached by the field at byte `off`. -/
def imageChecks (t : Nat) (bs : List Byte) (off : Nat) : List Bad :=
  if t < 16 then funcChecks bs off else if t < 32 then codebookImageChecks bs off else kvidxChecks bs off

/-- Bytes of the table area that the directory and both banks of every table take when table `t` has `n` bytes (R401,
log entry 28). -/
def areaBytes (s : State) (p t n : Nat) : Nat :=
  2 ^ 20 + ((List.range 64).map (fun u =>
    let tb := tableOf s p u
    2 * (if u = t then n else max tb.current.image.length tb.other.image.length))).sum

/-- A table of `n` bytes fits (R401). -/
def tableFits (s : State) (p t n : Nat) : Bool := decide (areaBytes s p t n ≤ (partOf s p).tblGib.toNat * 2 ^ 30)

/-- Reads an image of `len` bytes for table `t`, with the checks it fails. -/
def readImage (k : Ctx) (t src len off : Nat) : CmdM (List Byte × List Bad) := do
  let head ← if t < 32 then pure [] else readMem k tcBulk src 64
  let n := imageSize t head
  let s ← get
  let b := need (len == n && decide (n ≤ 0xFFFFFFC0)) off ++ need (tableFits s k.part t n) off
  if len == n && decide (n ≤ 0xFFFFFFC0) then do
    let bs ← readMem k tcBulk src n
    pure (bs, b ++ imageChecks t bs off)
  else pure ([], b)

/-! ### Banks (R136, R137) -/

/-- The generation after one: 1 to 255, wrapping to 1. -/
def nextGen (g : BitVec 8) : BitVec 8 := if g = 0 || g = 255 then 1 else g + 1

/-- A running command is bound to the generation in the shadow bank. -/
def shadowHeld (s : State) (p t : Nat) : Bool :=
  let g := (tableOf s p t).other.gen.toNat
  g != 0 && s.cmds.any (fun c => c.phase == .started && cmdPart s c == p && c.gens.any (fun x => x.1 == t && x.2.1 == g))

/-- The shadow bank may be written: no load of the table is under way and no running command is bound to it. -/
def shadowFree (s : State) (p t : Nat) : Bool := (tableOf s p t).loader.isNone && !shadowHeld s p t

/-- Writes the shadow bank for a load; what it held is no longer live. -/
def writeShadow (s : State) (p t : Nat) (u : Uid) (tag : W32) (img : List Byte) : State :=
  modTable s p t (fun tb => { tb with other := ⟨0, tag, img⟩, pending := true, loader := some u })

/-- Swaps the banks of a table: the shadow takes the next generation and is current. -/
def swapBanks (tb : Table) : Table :=
  { tb with current := { tb.other with gen := nextGen tb.current.gen }, other := tb.current, pending := false }

/-- Gives up what a command was loading. -/
def dropLoads (s : State) (u : Uid) : State :=
  let s := (List.range 512).foldl (fun s i =>
    if (tableOf s (i / 64) (i % 64)).loader == some u then
      modTable s (i / 64) (i % 64) (fun tb => { tb with pending := false, loader := none })
    else s) s
  if s.spool.loader == some u then { s with spool := { s.spool with shadow := none, loader := none } } else s

/-- Every earlier command of its ring has started (R137). -/
def earlierStarted (s : State) (c : Cmd) : Bool :=
  s.cmds.all (fun x => x.ring != c.ring || x.origin != c.origin || decide (c.sub ≤ x.sub)
    || (x.phase != .waiting && x.phase != .issued))

/-- Settles the end of a run that answers whether its command has performed all its work. -/
def settleRun (s : State) (u : Uid) (m : CmdM Bool) : State :=
  match m.run.run s with
  | (.ok true, t) => doneCmd t u .ok
  | (.ok false, t) => t
  | (.error e, t) => settleStop s t u e

/-! ### TABLE_LOAD (R135) -/

def loadTableId (d : BitVec 1024) : Nat := fieldN d 128 8

def fetchTableLoad (d : BitVec 1024) : List Bad :=
  let t := loadTableId d
  need (decide (t < 64)) 16 ++ reserved d 136 191 ++ addrCheck d 192 64
  ++ need ((tableSize t).elim true (fun n => fieldN d 256 32 == n)) 32 ++ reserved d 288 1023

def startTableLoad (k : Ctx) : CmdM (List Nat) := do
  let (_, b) ← readImage k (loadTableId k.desc) (k.field 192 64) (k.field 256 32) 24
  rejectOn b
  pure []

/-- TABLE_LOAD: writes the shadow bank when it is free. The command completes at TABLE_SWAP. -/
def runTableLoad (s : State) (c : Cmd) : State :=
  let k := ctxOf s c
  let t := loadTableId c.desc
  if !c.unitsDone.isEmpty || !shadowFree s k.part t then s
  else settleRun s c.uid (do
    let (img, b) ← readImage k t (k.field 192 64) (k.field 256 32) 24
    rejectOn b
    modify (fun s => modCmd (writeShadow s k.part t c.uid 0 img) c.uid (fun c => { c with unitsDone := [0] }))
    pure false)

/-! ### KV_INDEX (R210) -/

def indexTableId (d : BitVec 1024) : Nat := fieldN d 192 8

/-- KV_INDEX: step 1 and 2, and after its swap steps 4 and 5. The image tag stays (log entry 29). -/
def runKvIndex (s : State) (c : Cmd) : State :=
  let k := ctxOf s c
  let t := indexTableId c.desc
  let tb := tableOf s k.part t
  if c.unitsDone.isEmpty then
    if !shadowFree s k.part t then s
    else settleRun s c.uid (do
      let img ← indexedImage k
      modify (fun s => modCmd (writeShadow s k.part t c.uid tb.current.tag img) c.uid (fun c => { c with unitsDone := [0] }))
      pure false)
  else if tb.pending || tb.loader != some c.uid || shadowHeld s k.part t then s
  else
    doneCmd (modTable s k.part t (fun tb => { tb with other := ⟨0, tb.current.tag, tb.current.image⟩, loader := none }))
      c.uid .ok

/-- Every die of a partition stands at a tile boundary: no tile group runs on it (R136). -/
def atTileBoundary (s : State) (p : Nat) : Bool := !s.groups.any (fun g => g.running && hasDie (partOf s p).dies g.die)

/-- TABLE_SWAP: the pending load of a table swaps at a tile boundary on every die of the partition; for a TABLE_LOAD once every
earlier command of its ring has started, and then it completes (R136, R137). -/
def tableSwapAt (s : State) (p t : Nat) : State :=
  let tb := tableOf s p t
  match tb.loader.bind (findCmd s) with
  | none => s
  | some c =>
    if !tb.pending || c.phase != .started || !atTileBoundary s p then s
    else if opcodeOf c.desc == 0x50 then
      if earlierStarted s c then doneCmd (modTable s p t (fun tb => { swapBanks tb with loader := none })) c.uid .ok else s
    else modTable s p t swapBanks

/-! ### Model records (R402, R153) -/

/-- A table reference of a model record. -/
structure TableRef where
  table : Nat
  tag : W32
  src : Nat
  length : Nat
  deriving DecidableEq, Repr

/-- Reference `r` as it stands. -/
def refBits (rec : List Byte) (r : Nat) : BitVec 256 := bytesToBv 256 ((rec.drop (3136 + 32 * r)).take 32)

/-- The VALID references of a record. -/
def tableRefs (rec : List Byte) : List TableRef :=
  ((List.range 16).map (refBits rec)).filterMap (fun b =>
    if bit b 8 then some ⟨fieldN b 0 8, field b 32 32, fieldN b 64 64, fieldN b 128 32⟩ else none)

/-- Row counts are nonzero and strictly ascending, then zeros. -/
def ascendingCounts : List Nat → Bool
  | [] => true
  | [_] => true
  | a :: b :: rest => (if b = 0 then (b :: rest).all (· == 0) else decide (a < b)) && ascendingCounts (b :: rest)

/-- The checks on bucket list `j`; an absent one has its reserved bytes alone checked. -/
def listChecks (rec : List Byte) (j off : Nat) : List Bad :=
  let bs := (rec.drop (64 + 48 * (j - 1))).take 48
  let ns := (List.range 8).map (fun i => bytesToNat ((bs.drop (4 * i)).take 4))
  let band := bytesToNat ((bs.drop 34).take 2)
  (if ns.headD 0 = 0 then []
    else need (ascendingCounts ns) off ++ need (decide ((bs.getD 32 0).toNat ≤ 2)) off
      ++ need (band % 16 == 0 && decide (band ≤ 1024)) off)
  ++ needZero (bs.getD 33 0 == 0 && (bs.drop 36).all (· == 0)) off

/-- The checks on a table reference that do not read its image. -/
def refChecks (rec : List Byte) (r off : Nat) : List Bad :=
  let b := refBits rec r
  needZero (fieldN b 9 23 == 0 && fieldN b 160 96 == 0) off
  ++ (if bit b 8 then need (decide (fieldN b 0 8 < 64) && fieldN b 32 32 != 0 && addrOk (fieldN b 64 64) 64) off else [])

/-- The checks of R402 and R153 on a model record, reached by the field at byte `off`. -/
def recordChecks (rec : List Byte) (off : Nat) : List Bad :=
  need (rec.getD 0 0 == 1) off ++ needZero (((rec.take 64).drop 1).all (· == 0)) off
  ++ (List.range 63).flatMap (fun i => listChecks rec (i + 1) off)
  ++ (List.range 16).flatMap (fun r => refChecks rec r off) ++ needZero ((rec.drop 3648).all (· == 0)) off

def modelOf (s : State) (p m : Nat) : List Byte := smGet [] s.part.models (p * 256 + m)

def setModel (s : State) (p m : Nat) (rec : List Byte) : State :=
  { s with part := { s.part with models := smSet [] s.part.models (p * 256 + m) rec } }

/-- The record of the model bound to a context on a partition; `[]` for none. -/
def boundRecord (s : State) (p tag : Nat) : List Byte := ((ctxModel (ctxEntry s tag)).map (modelOf s p)).getD []

/-- The images that a record's references name, with the checks they fail. -/
def refImages (k : Ctx) (off : Nat) : List TableRef → CmdM (List Bad)
  | [] => pure []
  | r :: rs => do
    let (_, b) ← if r.table < 64 && addrOk r.src 64 then readImage k r.table r.src r.length off else pure ([], [])
    let more ← refImages k off rs
    pure (b ++ more)

/-- Makes a reference current: loads its image under its tag and swaps at a tile boundary, once the shadow bank is free (R136,
R404). -/
def reloadRef (k : Ctx) (off : Nat) (r : TableRef) : CmdM Unit := do
  let s ← get
  let tb := tableOf s k.part r.table
  if tb.current.gen != 0 && tb.current.tag == r.tag then pure ()
  else if !shadowFree s k.part r.table || !atTileBoundary s k.part then throw .wait
  else do
    let (img, b) ← readImage k r.table r.src r.length off
    rejectOn b
    modify (fun s => modTable s k.part r.table (fun tb => swapBanks { tb with other := ⟨0, r.tag, img⟩ }))

def reloadRefs (k : Ctx) (off : Nat) : List TableRef → CmdM Unit
  | [] => pure ()
  | r :: rs => do
    reloadRef k off r
    reloadRefs k off rs

/-- Some reference of a record is not current. -/
def staleRefs (s : State) (p : Nat) (rec : List Byte) : Bool :=
  (tableRefs rec).any (fun r =>
    let tb := tableOf s p r.table
    tb.current.gen == 0 || tb.current.tag != r.tag)

/-! ### MODEL_BIND (R403) -/

def bindInstall (d : BitVec 1024) : Bool := bit d 136

/-- `vf`: the ring belongs to a VF. -/
def fetchModelBind (vf : Bool) (d : BitVec 1024) : List Bad :=
  reserved d 137 191 ++ addrCheck0 d 192 64 ++ need (bindInstall d || fieldN d 192 64 == 0) 24 ++ reserved d 256 1023
  ++ (if vf && bindInstall d then [(.accessDenied, 17)] else [])

/-- The record that MODEL_BIND binds, with its offset for records. -/
def bindRecord (k : Ctx) : CmdM (List Byte × Nat) := do
  if bindInstall k.desc then do
    let bs ← readMem k tcBulk (k.field 192 64) 4096
    pure (bs, 24)
  else pure (modelOf (← get) k.part (k.field 128 8), 16)

/-- The checks on the record and on the images that it names, judged together; an empty slot has neither. -/
def startModelBind (k : Ctx) : CmdM (List Nat) := do
  let (rec, off) ← bindRecord k
  let b ← if rec.isEmpty then pure [] else refImages k off (tableRefs rec)
  rejectOn (need (!rec.isEmpty) off ++ (if rec.isEmpty then [] else recordChecks rec off) ++ b)
  pure []

/-- Writes MODEL and MODEL_VALID into the context's entry; without a context table there is none to write (log
entry 30). -/
def writeBinding (k : Ctx) (model : Nat) : CmdM Unit := do
  let base := (← get).part.ctxBase.toNat
  if base = 0 then pure ()
  else do
    let a := localOf (base + 64 * ctxTag k.desc)
    let _ ← cmdRmwSector k (dieOfAddr a) (winOff a) (fun x => setField x 0 9 (256 + model))

/-- Step 1: the record is checked and stands in its slot from now on. -/
def installModel (s : State) (c : Cmd) : State :=
  let k := ctxOf s c
  settleRun s c.uid (do
    let (rec, off) ← bindRecord k
    rejectOn (recordChecks rec off)
    modify (fun s => modCmd (setModel s k.part (k.field 128 8) rec) c.uid (fun c => { c with unitsDone := [0] }))
    pure false)

/-- Steps 2 and 3: the references of the slot's record become current, and the binding is written. -/
def bindModel (s : State) (c : Cmd) : State :=
  let k := ctxOf s c
  let off := if bindInstall k.desc then 24 else 16
  settleRun s c.uid (do
    let bs := modelOf s k.part (k.field 128 8)
    rejectOn (need (!bs.isEmpty) off)
    rejectOn (recordChecks bs off)
    reloadRefs k off (tableRefs bs)
    writeBinding k (k.field 128 8)
    pure true)

def runModelBind (s : State) (c : Cmd) : State :=
  let t := if bindInstall c.desc && c.unitsDone.isEmpty then installModel s c else s
  match findCmd t c.uid with
  | some x => if x.phase == .started && (!bindInstall x.desc || !x.unitsDone.isEmpty) then bindModel t x else t
  | none => t

/-! ### SPOOL_LOAD (R396, R400) -/

def fetchSpoolLoad (vf : Bool) (d : BitVec 1024) : List Bad :=
  addrCheck d 128 64 ++ need (fieldN d 192 32 == 2112) 24 ++ reserved d 224 1023
  ++ (if vf then [(.accessDenied, 0xFFFF)] else [])

def startSpoolLoad (k : Ctx) : CmdM (List Nat) := do
  let bs ← readMem k tcBulk (k.field 128 64) 2112
  rejectOn (spoolChecks bs 16)
  pure []

/-- SPOOL_LOAD: writes the shadow bank, unless an earlier load waits for its swap. It completes at SPOOL_SWAP. -/
def runSpoolLoad (s : State) (c : Cmd) : State :=
  let k := ctxOf s c
  if s.spool.loader.isSome then s
  else settleRun s c.uid (do
    let bs ← readMem k tcBulk (k.field 128 64) 2112
    rejectOn (spoolChecks bs 16)
    modify (fun s => { s with spool := { s.spool with shadow := some bs, loader := some c.uid, writtenAt := s.time.now } })
    pure false)

/-- The swap is due: a cycle of the current spool starts at a tick after the one that wrote the shadow, or, when none has been
loaded, that tick is over (R400). -/
def cycleStart (s : State) : Bool :=
  match currentSpool s with
  | none => s.time.now != s.spool.writtenAt
  | some p => decide (p.offset s.time.now.toNat < min (elapsed s.time.now s.time.cameFrom) (elapsed s.time.now s.spool.writtenAt))

/-- Counts the running ticks of every REFINE's step up to now by the spool in force (R232). -/
def foldTicks (s : State) : State :=
  { s with cmds := s.cmds.map (fun c =>
      if opcodeOf c.desc == 0x30 && c.phase == .started then
        { c with refine := { c.refine with
            ran := c.refine.ran + runningTicks s (cmdPart s c) (ctxTag c.desc) c.refine.stepStart s.time.now
            stepStart := s.time.now } }
      else c) }

/-- Makes the shadow spool current and completes its SPOOL_LOAD. -/
def swapSpool (s : State) : State :=
  match s.spool.shadow with
  | none => s
  | some bs =>
    let u := s.spool.loader
    let s := foldTicks s
    let s := { s with spool := ⟨bs, nextGen s.spool.gen, none, none, s.spool.writtenAt⟩ }
    match u with
    | some u => doneCmd s u .ok
    | none => s

/-- SPOOL_SWAP: at the first cycle start of the current spool after the shadow was written, or at the next tick when none has been
loaded (R400). -/
def execSpoolSwap (s : State) : Host.Outcome State Fault Refusal := .next (if cycleStart s then swapSpool s else s)

/-- TABLE_SWAP (R136). -/
def execTableSwap (p : PartIx) (t : Fin 64) (s : State) : Host.Outcome State Fault Refusal :=
  .next (tableSwapAt s p.val t.val)

end Sys2Proof.Machine
end

