-- ==== Sys2Proof/Machine/Husk.lean ====
section
/-!
DEFINITION. Pre-emption: husks and their bindings, suspension, eviction and aborts at tile boundaries, and resumption in
place or by resubmission (R405 to R414, R220, R241, R311, R332).
-/
namespace Sys2Proof.Machine

open Sys2Proof

/-! ### Kinds of opcodes (R406) -/

/-- Commands that hold no cluster and wait on events or time, or do nothing: held without a husk. -/
def waitOp (op : Nat) : Bool := [0x01, 0x02, 0x03, 0x04, 0x05].contains op

/-! ### The husk (R410, R411) -/

/-- Phases of a REFINE by number, for its husk (log entry 19). -/
def refinePhases : List RefinePhase :=
  [.warp, .boundary, .graph, .update, .entry, .ballastBoundary, .ballastGraph, .ballastUpdate, .final, .ballastFinal, .done]

/-- The work by units that a REFINE has in hand, with its context: of its warp, its update, or the current graph command. What the
instances of one do is theirs. -/
def refineWork (k : Ctx) (c : Cmd) : CmdM (Option (OpSem × Ctx)) := do
  match ← rowSem k c.refine with
  | some x => pure (some (x, k))
  | none =>
    match ← graphOf k c.refine with
    | none => pure none
    | some g =>
      if g.len ≤ c.refine.index then pure none
      else do
        let d ← formedAt k g c.refine.index
        pure (if groupDesc d then none else (opSem (opcodeOf d)).map (fun x => (x, graphCtx k d 0 c.rows)))

/-- The progress units of R411, each as the units of dispatch that write its outputs: a query tile's key segments, the spill and the
segments of a chain's band, the writers of a macro tile, and any other unit itself. -/
def progressUnits (k : Ctx) (x : OpSem) : CmdM (List (List Nat)) := do
  match opcodeOf k.desc with
  | 0x18 => do
    let (p, _) ← attPlan k
    pure ((List.range p.tiles.length).map (fun t => p.unitsOf [t]))
  | 0x12 => do
    let (p, _) ← chainPlan k
    pure ((List.range p.bands).map p.unitsOfBand)
  | 0x10 => do
    let (p, _) ← matmulPlan k
    pure ((List.range (mmUnits p)).map p.writers)
  | 0x11 => do
    let (p, _) ← matmulListPlan k
    pure ((List.range (mmUnits p)).map p.writers)
  | 0x19 => pure []
  | _ => do pure ((List.range (← x.units k)).map (fun u => [u]))

/-- The progress units all of which is done, and the units of dispatch that some of them consist of. -/
def progressDone (ps : List (List Nat)) (done : List Nat) : List Nat :=
  (List.range ps.length).filter (fun i => (ps.getD i []).all (fun u => done.contains u))
def progressOf (ps : List (List Nat)) (is : List Nat) : List Nat := is.flatMap (fun i => ps.getD i [])

/-- The work by units that a command has in hand. -/
def workOf (k : Ctx) (c : Cmd) : CmdM (Option (OpSem × Ctx)) :=
  let op := opcodeOf c.desc
  if op == 0x30 then refineWork k c else if codecOp op then pure none else pure ((opSem op).map (fun x => (x, k)))

/-- Units, units done, and the pass number of TWO_PASS. -/
def huskUnits (k : Ctx) (c : Cmd) : CmdM (Nat × List Nat × Nat) := do
  let op := opcodeOf c.desc
  match ← workOf k c with
  | none => pure (0, [], 0)
  | some (x, kc) => do
    let ps ← progressUnits kc x
    if op == 0x18 && ringGroupNo c.desc != 0 then pure (ps.length, [], 0)
    else if (op == 0x10 || op == 0x11) && c.mode == modeTwoPass && c.unitsDone.contains workDone then pure (ps.length, [], 1)
    else if (op == 0x10 || op == 0x11) && c.mode == modeTwoPass then
      let h := ps.length / 2
      let second := (List.range h).all (fun u => c.unitsDone.contains u)
      let done := c.unitsDone.filter (fun u => decide (h ≤ u) == second)
      pure (h, if second then done.map (· - h) else done, if second then 1 else 0)
    else pure (ps.length, progressDone ps c.unitsDone, 0)

/-- Pads or cuts to `n` bytes. -/
def padTo (n : Nat) (bs : List Byte) : List Byte := bs.take n ++ List.replicate (n - bs.length) 0

/-- Ring group, step and partials of a ring attention: their nodes, as first shard and width. -/
def nodeBytes (hs : List HeldPartial) : List Byte :=
  natToBytes 1 hs.length ++ hs.flatMap (fun h => natToBytes 1 h.first ++ natToBytes 1 h.width)

/-- What a REFINE's husk holds of an instance of its graph command: 1 when it has ended, else its step and 2, and its rank. -/
def kidWord (x : Cmd) : Nat := (if x.phase == .finished then 1 else x.coll.step + 2) + x.coll.rank * 2 ^ 24

/-- The instances of a REFINE's graph command in its husk: 32 bytes of words by die, 16 of a ring attention's partials, and GROUP_ID,
INSTANCE and algorithm of a collective (R241, R332, log entry 19). -/
def kidsState (s : State) (c : Cmd) : List Byte :=
  let ks := kidsOf s c.uid
  let print := ((ks.filter (fun x => opcodeOf x.desc == 0x38)).findSome? (peekPlan s)).elim [] CollPlan.print
  (List.range 8).flatMap (fun d => natToBytes 4 ((ks.find? (fun x => hasDie x.dies d)).elim 0 kidWord))
  ++ padTo 16 ((ks.find? (fun x => opcodeOf x.desc == 0x18)).elim [] (fun x => nodeBytes x.coll.partials))
  ++ [0, 1, 9].flatMap (fun i => natToBytes 4 (print.getD i 0))

/-- The opcode state in bytes 512 to 767 (R411; its layout is log entry 19). A linked chain's husk carries its link as the other
products' do (R167). -/
def opcodeState (s : State) (c : Cmd) (pass : Nat) : List Byte :=
  let w (n v : Nat) : List Byte := natToBytes n v
  padTo 256 (match opcodeOf c.desc with
  | 0x30 =>
    let p := c.refine
    w 4 p.boundary ++ w 4 p.index ++ w 4 (p.entered.getD 0xFFFFFFFF) ++ w 4 p.row ++ w 8 p.ewma
      ++ w 8 (p.ran + runningTicks s (cmdPart s c) (ctxTag c.desc) p.stepStart s.time.now)
      ++ w 1 (refinePhases.findIdx (· == p.phase))
      ++ w 1 ((if c.unitsDone.contains workDone then 1 else 0) + (match c.link with | .producer _ _ => 2 | _ => 0))
      ++ w 1 c.signalNext ++ w 1 c.mode.toNat ++ w 4 c.steps.toNat ++ w 24 0
      ++ padTo 128 (match c.link with | .producer _ d => bvToBytes 128 d | _ => []) ++ kidsState s c
  | 0x38 =>
    let print := (peekPlan s c).elim [] CollPlan.print
    w 4 (print.getD 0 0) ++ w 4 (print.getD 1 0) ++ w 4 c.coll.rank ++ w 4 (print.getD 9 0) ++ w 4 c.coll.step
  | 0x18 =>
    w 1 (ringGroupNo c.desc) ++ w 3 0 ++ w 4 c.coll.step ++ nodeBytes c.coll.partials
  | _ =>
    w 1 pass ++ (match c.link with
      | .producer _ d => w 63 1 ++ bvToBytes 128 d
      | _ => []))

/-- A table binding of 8 bytes. -/
def bindingBytes (g : Nat × Nat × Nat) : List Byte := natToBytes 8 (g.1 + g.2.1 * 2 ^ 8 + 2 ^ 16 + g.2.2 * 2 ^ 32)

/-- The bytes of a husk. -/
def huskBytes (s : State) (c : Cmd) (parked : Bool) (units : Nat) (done : List Nat) (pass : Nat) : List Byte :=
  let head : Nat := 0x4B535548 + 2 ^ 32 + 2 ^ 40 + (if parked then 2 ^ 41 else 0) + opcodeOf c.desc * 2 ^ 48
    + fieldN c.desc 32 32 * 2 ^ 64 + fieldN c.desc 16 16 * 2 ^ 96 + s.time.now.toNat * 2 ^ 128 + units * 2 ^ 192
    + done.length * 2 ^ 256 + s.zw.id.toNat * 2 ^ 320 + cmdPart s c * 2 ^ 332
  natToBytes 64 head ++ bvToBytes 128 c.desc ++ bvToBytes 128 c.sync
    ++ padTo 192 (c.gens.flatMap bindingBytes) ++ opcodeState s c pass ++ List.replicate 256 0
    ++ (List.range (ceilDiv units 8)).map (fun i =>
      BitVec.ofNat 8 (((List.range 8).map (fun j => if done.contains (8 * i + j) then 2 ^ j else 0)).sum))

/-- The lowest husk slot that holds no husk. -/
def findFreeSlot (k : Ctx) (base size : Nat) : List Nat → CmdM (Option Nat)
  | [] => pure none
  | i :: is => do
    let x ← readNum k tcSync (base + i * size) 8
    if x / 2 ^ 40 % 2 = 0 then pure (some (base + i * size)) else findFreeSlot k base size is

/-- Writes a command's husk, into the one it has or the lowest free slot; `none` when none can hold it (R406, R407). -/
def writeHusk (k : Ctx) (c : Cmd) (parked : Bool) : CmdM (Option Nat) := do
  let (units, done, pass) ← huskUnits k c
  let e := ctxEntry (← get) (ctxTag c.desc)
  if ctxHuskBase e = 0 || decide (ctxHuskSize e < 1024 + ceilDiv units 8) || decide (24 < c.gens.length) then pure none
  else do
    let slot ← match c.husk with
      | some a => pure (some a.toNat)
      | none => findFreeSlot k (ctxHuskBase e) (ctxHuskSize e) (List.range (ctxHuskSlots e))
    match slot with
    | none => pure none
    | some a => do
      writeMem k tcBulk a (huskBytes (← get) c parked units done pass)
      pure (some a)

/-! ### At a tile boundary -/

/-- Forgets the tile groups of a command and of its instances. -/
def dropTree (s : State) (u : Uid) : State := (kidsOf s u).foldl (fun s x => dropGroups s x.uid) (dropGroups s u)

/-- Ends an evicted command: EVICTED carries its husk's address, 0 for none, and its counts follow. A group goes on with the member
that resumes from the husk, and ends where there is none (R37, R331, R333, R409, log entry 85). -/
def endEvicted (s : State) (c : Cmd) (husk : Nat) (noSlot : Bool) : State :=
  let s := logCmd (dropTree s c.uid) c.uid evEvicted 0 false (BitVec.ofNat 64 husk) 0 0 0
  let s := if noSlot then logCmd s c.uid evNoHuskSlot 0 false 1 0 0 0 else s
  let s := modCmd s c.uid (fun c => { c with husk := none })
  if husk = 0 && (c.phase == .started || c.phase == .suspended) then
    stopMember (logCounts (stopKids s c.uid none) c.uid) c .aborted
  else failCmd (logCounts (absorbKids s c.uid) c.uid) c.uid .aborted

/-- The units that stay done over a suspension: those of finished progress units, since no partial is kept (R220, R410). -/
def keptUnits (s : State) (c : Cmd) : List Nat :=
  if opcodeOf c.desc == 0x18 && ringGroupNo c.desc != 0 then []
  else
    let kept : CmdM (List Nat) := do
      match ← workOf (ctxOf s c) c with
      | none => pure c.unitsDone
      | some (x, kc) => do
        let ps ← progressUnits kc x
        pure (progressOf ps (progressDone ps c.unitsDone) ++ c.unitsDone.filter (· == workDone))
    match (kept.run.run s).1 with
    | .ok us => us
    | .error _ => []

/-- Suspends an instance of a graph command with its REFINE. -/
def parkKid (s : State) (x : Cmd) : State :=
  if x.phase != .started then s
  else
    let print := (peekPlan s x).elim [] CollPlan.print
    modCmd s x.uid (fun x =>
      { x with phase := .suspended, suspending := false, parts := [], unitsDone := []
               coll := { x.coll with joined := false, yieldAt := none, paused := none
                                     held := if opcodeOf x.desc == 0x38 then
                                         some [print.getD 0 0, print.getD 1 0, x.coll.rank, print.getD 9 0]
                                       else none } })

/-- Suspends a command. It holds no bank and no cluster from here on (R137, R406). -/
def park (s : State) (c : Cmd) (husk : Option W64) : State :=
  let ran := runningTicks s (cmdPart s c) (ctxTag c.desc) c.refine.stepStart s.time.now
  let s := (kidsOf s c.uid).foldl parkKid (dropTree s c.uid)
  modCmd s c.uid (fun c =>
    { c with phase := .suspended, suspending := false, husk := husk, parts := [], sums := []
             unitsDone := keptUnits s c
             refine := { c.refine with ran := c.refine.ran + ran }
             coll := { c.coll with joined := false, yieldAt := none, paused := none } })

/-- An instance of a graph command stands where its REFINE can be cut: it has ended, or has not joined, or has reached the common
boundary of its group. -/
def kidAtCut (s : State) (aborting : Bool) (x : Cmd) : Bool :=
  !groupsRunning s x.uid
  && (x.phase == .finished
    || (x.phase == .started && (!x.coll.joined || x.coll.yieldAt.elim aborting (fun b => decide (b ≤ x.coll.step)))))

/-- The common boundary of a group, or any boundary of another command, has been reached (R331, R406). -/
def atCut (s : State) (c : Cmd) : Bool :=
  !groupsRunning s c.uid && (!groupCmd c || !c.coll.joined || atAgreed c) && (kidsOf s c.uid).all (kidAtCut s c.aborting)

/-- A request waits for the command's next tile boundary, or one of the group of an instance. -/
def cutAsked (s : State) (c : Cmd) : Bool :=
  c.suspending || c.evicting || c.aborting || c.coll.yieldAt.isSome
  || (kidsOf s c.uid).any (fun x => x.coll.yieldAt.isSome && !x.aborting)

/-- Takes the pending abort, eviction or suspension of a command at its tile boundary (R311, R406, R407, R409). -/
def cutCmd (s : State) (c : Cmd) : State :=
  if c.aborting then failMember (dropTree (if c.orphan then logAborted s c.uid else s) c.uid) c .aborted
  else if waitOp (opcodeOf c.desc) then (if c.evicting then endEvicted s c 0 false else park s c none)
  else
    match (writeHusk (ctxOf s c) c (!c.evicting)).run.run s with
    | (.ok (some a), t) => if c.evicting then endEvicted t c a false else park t c (some (BitVec.ofNat 64 a))
    | (.ok none, t) =>
      if c.evicting then endEvicted t c 0 true
      else modTree (logCmd t c.uid evNoHuskSlot 0 false 0 0 0 0) c.uid (fun c =>
        { c with suspending := false, runOn := true, coll := { c.coll with yieldAt := none } })
    | (.error .wait, t) => settleStop s t c.uid .wait
    | (.error (.fail st), t) => failMember t c st
    | (.error (.reject st _), t) => failMember t c st

/-- What takes effect at a boundary of this command, if anything waits for it; a codec command has none within its frame (R340). A
REFINE one of whose instances has failed by then fails with it. -/
def boundaryOf (s : State) (u : Uid) : State :=
  match (findCmd s u).map (rootOf s) with
  | some c =>
    if c.phase == .started && !codecOp (opcodeOf c.desc) && (c.aborting || !neverCut (opcodeOf c.desc)) && cutAsked s c
        && atCut s c then
      match (kidsOf s c.uid).find? (fun x => x.phase == .finished && cmdFailed x) with
      | some x => refineFails s c (.fail x.status)
      | none => cutCmd s c
    else s
  | none => s

/-! ### Requests -/

/-- Asks for a suspension of a started command, or of a codec command that is ending; one that runs on goes on. -/
def requestSuspend (s : State) (c : Cmd) : State :=
  if (c.phase == .started && !c.runOn) || (c.phase == .ending && codecOp (opcodeOf c.desc)) then
    modTree s c.uid (fun c => { c with suspending := true })
  else s

/-- Evicts a command (R405, R409): a started one at its tile boundary, an ENCODE held for its release at once, a
suspended one with its husk, one that has not started without one. Where the husk lies on another module HUSK_WRITE goes on. -/
def requestEvict (s : State) (c : Cmd) : State :=
  let marked (s : State) : State := modTree s c.uid (fun c => { c with evicting := true })
  match c.phase with
  | .started => marked s
  | .ending => if heldForRelease c then endEvicted (marked s) c 0 false else marked s
  | .suspended =>
    match c.husk with
    | none => endEvicted s c 0 false
    | some a =>
      let s := marked s
      match (setHuskFlags (ctxOf s c) a.toNat true false).run.run s with
      | (.ok _, t) => endEvicted t c a.toNat false
      | (.error .wait, t) => settleStop s t c.uid .wait
      | (.error _, t) => endEvicted t c a.toNat false
  | .waiting => endEvicted s c 0 false
  | .issued => endEvicted s c 0 false
  | .finished => s
  | .forwarded => s

/-- HUSK_WRITE: the first tile boundary at which none of the command's tile groups runs; of a suspended command the eviction that
waits for its husk. -/
def execHuskWrite (u : Uid) (s : State) : Host.Outcome State Fault Refusal :=
  .next (match findCmd s u with
    | some c => if c.phase == .suspended && c.evicting then requestEvict s c else boundaryOf s u
    | none => s)

/-- A request is in progress for one of these commands (BUSY, EVICTING): until it is suspended or completes, and for an ENCODE held
for its release until its writes are performed (R340, R391, R405). -/
def cutPending (s : State) (us : List Uid) : Bool :=
  s.cmds.any (fun c => us.contains c.uid
    && (match c.phase with
      | .started => c.suspending || c.evicting
      | .suspended => c.evicting
      | .ending => (c.suspending || c.evicting) && (!heldForRelease c || outstanding s c.uid)
      | _ => false))

/-- `PART_PREEMPT.BUSY`: the last action is in progress; a RELEASE is until the commands suspended at its time have resumed (R405). -/
def preemptBusy (s : State) : Bool :=
  cutPending s s.part.preempted
  || (s.part.preemptAction == 2 && s.cmds.any (fun c => s.part.preempted.contains c.uid && c.phase == .suspended))

/-! ### Rebinding (R412) -/

/-- The VALID bindings of a husk. -/
def parseBindings (bs : List Byte) : List (Nat × Nat × Nat) :=
  ((List.range 24).map (fun i => bytesToNat ((bs.drop (8 * i)).take 8))).filterMap (fun x =>
    if x / 2 ^ 16 % 2 = 1 then some (x % 256, x / 2 ^ 8 % 256, x / 2 ^ 32) else none)

/-- The binding that a table is given on resumption; `none` when it cannot be rebound. -/
def rebindOne (s : State) (p : Nat) (home : Bool) (g : Nat × Nat × Nat) : Option (Nat × Nat × Nat) :=
  let tb := tableOf s p g.1
  let live := g.2.1 != 0 && (tb.current.gen.toNat == g.2.1 || tb.other.gen.toNat == g.2.1)
  if home && live then some g
  else if g.2.2 != 0 && tb.current.gen != 0 && tb.current.tag.toNat == g.2.2 then
    some (g.1, tb.current.gen.toNat, g.2.2)
  else none

/-- Rebinds every table, or logs the first that fails, with the counts, and stops with ABORTED (R37, R412, R428). -/
def rebindAll (k : Ctx) (home : Bool) : List (Nat × Nat × Nat) → CmdM (List (Nat × Nat × Nat))
  | [] => pure []
  | g :: gs => do
    match rebindOne (← get) k.part home g with
    | some x => do
      let more ← rebindAll k home gs
      pure (x :: more)
    | none => do
      modify (fun s => logCounts (logCmd s k.uid evRebindFailed 0 false
        (BitVec.ofNat 64 (g.1 + g.2.1 * 2 ^ 8 + g.2.2 * 2 ^ 32)) 0 0 0) k.uid)
      throw (.fail .aborted)

/-- The husk was written by this module for a ring of this partition. -/
def huskAtHome (s : State) (p : Nat) (head : BitVec 512) : Bool :=
  field head 320 12 == s.zw.id && fieldN head 332 3 == p

/-! ### Resumption in place (R408) -/

/-- A die can hold another started command (R393). -/
def diesHaveRoom (s : State) (dies : Byte) : Bool :=
  (diesOf dies).all (fun d =>
    decide ((s.cmds.filter (fun c => hasDie c.dies d && (c.phase == .started || c.phase == .ending))).length < 256))

/-- A suspended command may resume: its context is open, its partition starts commands, its dies have room. -/
def mayResume (s : State) (c : Cmd) : Bool :=
  c.phase == .suspended && !c.evicting && ctxOpen s c && !(partOf s (cmdPart s c)).hold && diesHaveRoom s c.dies

/-- Resumes a suspended command from its husk. -/
def resumeCmd (s : State) (c : Cmd) : State :=
  let k := ctxOf s c
  let go (gens : List (Nat × Nat × Nat)) : CmdM Unit :=
    modify (fun s => modTree s c.uid (fun x =>
      if x.uid == c.uid || x.phase == .suspended then
        { x with phase := .started, gens := gens, refine := { x.refine with stepStart := s.time.now } }
      else x))
  match (do
      match c.husk with
      | none => go c.gens
      | some a => do
        let bs ← readMem k tcBulk a.toNat 768
        if opcodeOf c.desc == 0x38 then
          let n (o : Nat) : Nat := bytesToNat ((bs.drop (512 + o)).take 4)
          modColl k (fun g => { g with held := some [n 0, n 4, n 8, n 12] })
        let gens ← rebindAll k (huskAtHome (← get) k.part (bytesToBv 512 (bs.take 64))) (parseBindings ((bs.drop 320).take 192))
        go gens : CmdM Unit).run.run s with
  | (.ok _, t) => t
  | (.error .wait, t) => settleStop s t c.uid .wait
  | (.error (.fail st), t) => failMember t c st
  | (.error (.reject st _), t) => failMember t c st

/-- Resumes what may resume, in submission order. -/
def resumeAll (s : State) : State :=
  s.cmds.foldl (fun s c =>
    match findCmd s c.uid with
    | some c => if mayResume s c then resumeCmd s c else s
    | none => s) s

/-! ### Resumption by resubmission (R413) -/

/-- The reserved bits of a husk are zero. -/
def huskReserved (bs : List Byte) : Bool :=
  let h : BitVec 512 := bytesToBv 512 (bs.take 64)
  fieldN h 42 6 == 0 && fieldN h 56 8 == 0 && fieldN h 112 16 == 0 && fieldN h 168 24 == 0 && fieldN h 335 177 == 0
  && ((bs.drop 768).take 256).all (· == 0)
  && (List.range 24).all (fun i => bytesToNat ((bs.drop (320 + 8 * i)).take 8) / 2 ^ 17 % 2 ^ 15 == 0)

/-- A husk holds this resubmitted command. -/
def huskMatches (bs : List Byte) (desc : BitVec 1024) : Bool :=
  let h : BitVec 512 := bytesToBv 512 (bs.take 64)
  let d : BitVec 1024 := bytesToBv 1024 ((bs.drop 64).take 128)
  fieldN h 0 32 == 0x4B535548 && bit h 40 && !bit h 41 && fieldN h 48 8 == opcodeOf desc
  && field h 64 32 == field desc 32 32 && field h 96 16 == field desc 16 16 && field d 128 896 == field desc 128 896

/-- The first matching husk: its address and first 1,024 bytes. -/
def findHusk (k : Ctx) (base size : Nat) : List Nat → CmdM (Option (Nat × List Byte))
  | [] => pure none
  | i :: is => do
    let bs ← readMem k tcBulk (base + i * size) 1024
    if huskMatches bs k.desc then pure (some (base + i * size, bs)) else findHusk k base size is

/-- One row's partial from RING_SPILL (log entry 25). -/
def spilledRow (bs : List Byte) (vd : Nat) : RowPartial :=
  let m : W32 := bytesToBv 32 (bs.take 4)
  ⟨m, bytesToBv 32 ((bs.drop 4).take 4), (List.range vd).map (fun i => bytesToBv 32 ((bs.drop (8 + 4 * i)).take 4)),
    isNan (ofBits32 m)⟩

/-- The partials of a resumed ring member. -/
def spillNodes (vd rows : Nat) : List (Nat × Nat) → List Byte → List HeldPartial
  | [], _ => []
  | (f, w) :: rest, bs =>
    let n := 8 + 4 * vd
    ⟨f, w, (List.range rows).map (fun i => spilledRow (bs.drop (n * i)) vd)⟩ :: spillNodes vd rows rest (bs.drop (n * rows))

/-- An instance of a REFINE's graph command goes on from where the husk's words left its rank. -/
def restoreKid (k : Ctx) (st : List Byte) (x : Cmd) : CmdM Unit := do
  let n (o w : Nat) : Nat := bytesToNat ((st.drop o).take w)
  match ((List.range 8).map (fun d => n (192 + 4 * d) 4)).find? (fun v => v % 2 ^ 24 != 0 && v / 2 ^ 24 == x.coll.rank) with
  | none => pure ()
  | some v =>
    if v % 2 ^ 24 = 1 then modify (fun s => modCmd s x.uid (fun x => { x with phase := .finished }))
    else if opcodeOf x.desc == 0x38 then
      modify (fun s => modCmd s x.uid (fun x =>
        { x with coll := { x.coll with step := v % 2 ^ 24 - 2, held := some [n 240 4, n 244 4, v / 2 ^ 24, n 248 4] } }))
    else do
      let kx := { k with desc := x.desc, dies := x.dies }
      let (p, _) ← attPlan kx
      let nodes := (List.range (n 224 1)).map (fun i => (n (225 + 2 * i) 1, n (226 + 2 * i) 1))
      let rows := (ringRows p).length
      let bs ← readMem kx tcBulk (kx.field 512 64) (nodes.length * rows * (8 + 4 * p.vd))
      modify (fun s => modCmd s x.uid (fun x =>
        { x with coll := { x.coll with step := v % 2 ^ 24 - 2, partials := spillNodes p.vd rows nodes bs } }))

/-- The instances that a REFINE had in hand begin again where they were; one whose checks fail now fails when it is run (R241, R332). -/
def restoreKids (k : Ctx) (st : List Byte) (c : Cmd) : CmdM Unit := do
  if ((st.drop 192).take 32).all (· == 0) || c.unitsDone.contains workDone then pure ()
  else
    match ← graphOf k c.refine with
    | none => pure ()
    | some g => do
      let d ← formedAt k g c.refine.index
      if !groupDesc d then pure ()
      else
        let ok ← tryCatch (do startKids (graphCtx k d 0 none); pure true) (fun e => match e with
          | .wait => throw .wait
          | _ => pure false)
        if ok then forRows (restoreKid k st) (kidsOf (← get) k.uid)

/-- Restores the progress that a husk's opcode state and bitmap hold. DESIGN CHOICE (log entry 85): the counts of invalid rows and of
NaN conversions are no part of it, so that the record of a resumed command covers what ran after the resumption (R73, R411, R413). -/
def restore (k : Ctx) (st : List Byte) (done : List Nat) (units : Nat) : CmdM Unit := do
  let n (o w : Nat) : Nat := bytesToNat ((st.drop o).take w)
  let linkIn (c : Cmd) : StatLink :=
    if n 1 1 = 1 then .producer c.uid (bytesToBv 1024 ((st.drop 64).take 128)) else c.link
  match opcodeOf k.desc with
  | 0x30 => do
    modify (fun s => modCmd s k.uid (fun c =>
      { c with
        refine := ⟨refinePhases.getD (n 32 1) .done, n 0 4, n 4 4, if n 8 4 = 0xFFFFFFFF then none else some (n 8 4),
          n 12 4, n 16 8, n 24 8, s.time.now, c.refine.groups⟩
        unitsDone := if n 33 1 % 2 = 1 then [workDone] else []
        link := if n 33 1 / 2 = 1 then .producer c.uid (bytesToBv 1024 ((st.drop 64).take 128)) else .none
        signalNext := n 34 1, mode := BitVec.ofNat 8 (n 35 1), steps := BitVec.ofNat 32 (n 36 4) }))
    match findCmd (← get) k.uid with
    | none => pure ()
    | some c =>
      restoreKids k st c
      match ← workOf k c with
      | none => pure ()
      | some (x, kc) => do
        let ps ← progressUnits kc x
        modify (fun s => modCmd s k.uid (fun c => { c with unitsDone := progressOf ps done ++ c.unitsDone }))
  | 0x38 => modColl k (fun g => { g with step := n 16 4, held := some [n 0 4, n 4 4, n 8 4, n 12 4] })
  | 0x18 =>
    let (p, _) ← attPlan k
    if ringGroupNo k.desc = 0 then
      modify (fun s => modCmd s k.uid (fun c => { c with unitsDone := p.unitsOf done }))
    else do
      let nodes := (List.range (n 8 1)).map (fun i => (n (9 + 2 * i) 1, n (10 + 2 * i) 1))
      let rows := (ringRows p).length
      let bs ← readMem k tcBulk (k.field 512 64) (nodes.length * rows * (8 + 4 * p.vd))
      modColl k (fun g => { g with step := n 4 4, partials := spillNodes p.vd rows nodes bs })
  | 0x12 =>
    let (p, _) ← chainPlan k
    modify (fun s => modCmd s k.uid (fun c => { c with unitsDone := done.flatMap p.unitsOfBand, link := linkIn c }))
  | _ =>
    let all := if n 0 1 = 1 then List.range units ++ done.map (· + units) else done
    modify (fun s => modCmd s k.uid (fun c =>
      let decided := n 0 1 = 1 && c.mode == modeDeferred
      { c with unitsDone := if decided then all ++ [workDone] else all
               mode := if decided then modeTwoPass else c.mode, link := linkIn c }))

/-- The matching unparked husk of a starting command, with its first 1,024 bytes and the checks on it. -/
def huskFor (k : Ctx) : CmdM (Option (Nat × List Byte) × List Bad) := do
  let e := ctxEntry (← get) (ctxTag k.desc)
  if ctxHuskBase e = 0 || waitOp (opcodeOf k.desc) || neverCut (opcodeOf k.desc) || !(ctxEntryChecks e).isEmpty then pure (none, [])
  else
    match ← findHusk k (ctxHuskBase e) (ctxHuskSize e) (List.range (ctxHuskSlots e)) with
    | none => pure (none, [])
    | some (a, bs) =>
      let h : BitVec 512 := bytesToBv 512 (bs.take 64)
      pure (some (a, bs), needZero (huskReserved bs) 0xFFFF ++ need (fieldN h 32 8 == 1) 0xFFFF)

/-- Takes up a husk at a command's start; answers its bindings. -/
def takeHusk (k : Ctx) : Option (Nat × List Byte) → CmdM (List (Nat × Nat × Nat))
  | none => pure []
  | some (a, bs) => do
    let h : BitVec 512 := bytesToBv 512 (bs.take 64)
    let units := fieldN h 192 64
    let bm ← readMem k tcBulk (a + 1024) (ceilDiv units 8)
    let done := (List.range units).filter (fun u => bit (bm.getD (u / 8) 0) (u % 8))
    let gens ← rebindAll k (huskAtHome (← get) k.part h) (parseBindings (bs.drop 320))
    restore k ((bs.drop 512).take 256) done units
    setHuskFlags k a false false
    pure gens

end Sys2Proof.Machine
end

