-- ==== Sys2Proof/Machine/Issue.lean ====
section
/-!
DEFINITION. The intake of commands: fetch checks, issue and wait lists, header waits, forwarding to members, the start of a
command with its ordering, and the decision of statistic links (R371 to R374, R379 to R387, R392, R393, R167, R310).
-/
namespace Sys2Proof.Machine

open Sys2Proof

/-! ### Fields of a ring (R366) -/

def Ring.ctxLo (r : Ring) : Nat := fieldN r.cfg 344 12
def Ring.ctxHi (r : Ring) : Nat := fieldN r.cfg 356 12
def Ring.defModule (r : Ring) : BitVec 6 := field r.cfg 368 6
def Ring.defDies (r : Ring) : Byte := field r.cfg 376 8
def Ring.ballastBase (r : Ring) : BitVec 41 := field r.cfg 192 41

/-- Placement of a command (R386). -/
def placeModule (r : Ring) (desc sync : BitVec 1024) : BitVec 6 := if placedFlag desc then field sync 0 6 else r.defModule
def placeDies (r : Ring) (desc sync : BitVec 1024) : Byte := if placedFlag desc then field sync 8 8 else r.defDies

/-! ### Fetch checks (R373) -/

/-- The checks of R372 on a sync record, at record offset 128. -/
def syncChecks (desc sync : BitVec 1024) : List Bad :=
  needZero (fieldN sync 6 2 == 0) 128 ++ needZero (fieldN sync 16 48 == 0) 130 ++ needZero (fieldN sync 832 192 == 0) 232
  ++ need (placedFlag desc || fieldN sync 0 6 == 0) 128 ++ need (placedFlag desc || fieldN sync 8 8 == 0) 129
  ++ (List.range 4).flatMap (fun i => entryChecks sync (64 + 128 * i) (136 + 16 * i) (waitCount desc) i false)
  ++ (List.range 2).flatMap (fun i => entryChecks sync (576 + 128 * i) (200 + 16 * i) (signalCount desc) i true)

/-- The checks of the common header, the sync record and the placement (R371, R372, R386, R422). -/
def headerChecks (s : State) (ring : Nat) (desc sync : BitVec 1024) : List Bad :=
  let r := ringOf s ring
  let dies := placeDies r desc sync
  let op := opcodeOf desc
  let dieOff := if placedFlag desc then 129 else 0xFFFF
  let here := placeModule r desc sync == 0
  let mine := (partOf s (ringPartition s ring)).dies
  needZero (!bit desc 15) 1 ++ need (decide (waitCount desc ≤ 4) && decide (signalCount desc ≤ 2)) 1
  ++ need (op == 0x30 || ballastPtr desc == 0) 13 ++ need (aligned 64 (ballastPtr desc)) 13
  ++ need (deadlineOf desc == 0 || validTick (deadlineOf desc) s.time.now) 8
  ++ (if hasSync desc then syncChecks desc sync else [])
  ++ need (dies != 0) dieOff
  ++ need (here || !namesHost desc) 37
  ++ (if r.ctxLo ≤ ctxTag desc && ctxTag desc ≤ r.ctxHi then [] else [(.accessDenied, 2)])
  ++ (if here && dies &&& ~~~mine != 0 then [(.accessDenied, dieOff)] else [])

/-- The fetch checks of an opcode; `none` for an unlisted one. `vf`: the ring belongs to a VF. -/
def fetchOf (now : Tick) (vf : Bool) (desc : BitVec 1024) : Option (List Bad) :=
  match opcodeOf desc with
  | 0x02 => some (fetchFence desc)
  | 0x03 => some (fetchEventSignal desc)
  | 0x04 => some (fetchEventWait desc)
  | 0x05 => some (fetchWaitTime now desc)
  | 0x1B => some (fetchKvIndex desc)
  | 0x30 => some (fetchRefine desc)
  | 0x38 => some (fetchCollective desc)
  | 0x48 => some (fetchModelBind vf desc)
  | 0x50 => some (fetchTableLoad desc)
  | 0x58 => some (fetchSpoolLoad vf desc)
  | op => (opSem op).map (fun x => x.fetch desc)

/-- What the checks at fetch report. -/
def fetchVerdict (s : State) (ring : Nat) (desc sync : BitVec 1024) : Option Bad :=
  match fetchOf s.time.now (ringFunction s ring != 0) desc with
  | none => some (.illegalDescriptor, 0)
  | some bs => judge (headerChecks s ring desc sync ++ bs)

/-! ### Waits (R379, R380) -/

/-- Settles the evaluation of counters. -/
def settleWaits (s : State) (c : Cmd) (entries : List (Nat × Nat)) (met : State → State) : State :=
  let clear (t : State) : State := modCmd t c.uid (fun c => { c with remoteData := [] })
  match (readWaits (ctxOf s c) entries).run.run s with
  | (.ok .met, t) => met (clear t)
  | (.ok .unmet, t) => clear t
  | (.ok .failed, t) => failCmd (clear t) c.uid .dependencyFailed
  | (.error .wait, t) => settleStop s t c.uid .wait
  | (.error (.fail st), t) => failCmd t c.uid st
  | (.error (.reject st _), t) => failCmd t c.uid st

/-- Reads the header waits of a command on the wait list again. -/
def recheckHeader (s : State) (c : Cmd) : State :=
  settleWaits s c (headerWaits c.desc c.sync) (fun t => modCmd t c.uid (fun c => { c with phase := .issued }))

/-- Reads an EVENT_WAIT's own counters. -/
def recheckOwn (s : State) (c : Cmd) : State := settleWaits s c (ownEntries c.desc) (fun t => doneCmd t c.uid .ok)

/-! ### Intake -/

/-- Commands on a ring's wait list. -/
def waitList (s : State) (r : Nat) : Nat :=
  (s.cmds.filter (fun c => c.ring == r && c.origin.isNone && c.phase == .waiting)).length

/-- A command of module memory before anything has happened to it. -/
def freshCmd (uid ring sub : Nat) (desc sync : BitVec 1024) (module : BitVec 6) (dies : Byte) : Cmd where
  uid := uid
  ring := ring
  sub := sub
  desc := desc
  sync := sync
  module := module
  dies := dies
  phase := .waiting
  tickReached := false
  status := .ok
  worked := false
  unjudged := false
  mode := 0
  steps := 0
  errSeq := none
  tick := 0
  unitsDone := []
  retried := false
  gens := []
  rows := none
  segs := []
  record := []
  nans := 0
  invalid := 0
  suspending := false
  evicting := false
  aborting := false
  runOn := false
  husk := none
  link := .none
  linkTo := none
  refine := ⟨.boundary, 0, 0, none, 0, 0, 0, 0, []⟩
  coll := CollProg.dflt
  parts := []
  sums := []
  remoteData := []
  written := []
  ahead := []
  signalNext := 0
  origin := none
  forwardTag := none
  forwardId := 0
  orphan := false
  parent := none
  lastWrite := none
  ballastBase := 0
  pool := []

/-- A die is marked failed (R441). -/
def dieFailed (s : State) (d : Nat) : Bool := (pwrDieOf s d).state == 3

/-- Makes the next fetched slot of a ring a command; answers it. -/
def admitHead (s : State) (r : Nat) : Option (Cmd × State) :=
  let g := ringOf s r
  match g.fetched with
  | [] => none
  | x :: rest =>
    let u := s.nextUid
    let c0 := freshCmd u r g.subs x.desc x.sync (placeModule g x.desc x.sync) (placeDies g x.desc x.sync)
    let c := { c0 with ballastBase := BitVec.ofNat 64 (s.zw.id.toNat * 2 ^ 52 + g.ballastBase.toNat) }
    some (c, { setRing s r { g with fetched := rest, subs := g.subs + 1 } with nextUid := u + 1, cmds := s.cmds ++ [c] })

/-- Takes the next fetched slot: its command is rejected, or issued, or put on the wait list. One placed on a member waits
there (R373, R379, R387). -/
def fetchHead (s : State) (r : Nat) : State :=
  match admitHead s r with
  | none => s
  | some (c, s) =>
    match fetchVerdict s r c.desc c.sync with
    | some (st, off) => rejectCmd s c.uid st off
    | none =>
      if c.module != 0 then modCmd s c.uid (fun c => { c with phase := .issued })
      else if (diesOf c.dies).any (dieFailed s) then failCmd (logAborted s c.uid) c.uid .aborted
      else recheckHeader s c

/-- COMMAND_FETCH: while the wait list has room (R379); a member serves no ring (R312). -/
def execCommandFetch (r : RingIx) (s : State) : Host.Outcome State Fault Refusal :=
  .next (if decide (waitList s r.val < 64) && !isMember s then fetchHead s r.val else s)

/-- EVENT_RECHECK: the waited counters of a waiting command, or of a started EVENT_WAIT, are read again (R380). -/
def execEventRecheck (u : Uid) (s : State) : Host.Outcome State Fault Refusal :=
  .next (match findCmd s u with
    | some c =>
      if c.phase == .waiting then recheckHeader s c
      else if c.phase == .started && opcodeOf c.desc == 0x04 then recheckOwn s c
      else s
    | none => s)

/-- COMMAND_DEADLINE: a deadline passes while header waits are unmet, or before every member has joined (R322, R381). -/
def execCommandDeadline (u : Uid) (s : State) : Host.Outcome State Fault Refusal :=
  .next (match findCmd s u with
    | some c =>
      if deadlineReached s c && c.phase == .waiting then missDeadline s u false
      else if deadlineReached s c && c.phase == .started && groupCmd c && !c.coll.joined then
        let others := otherMembers s c
        endGroup (missDeadline (spoilGroup s c others .deadlineMissed) u false) (nextCommon s c others) others
      else s
    | none => s)

/-! ### Order on a ring (R137, R167, R207, R382, R383, R403) -/

/-- The commands submitted before it on its ring and not yet posted. -/
def earlierOf (s : State) (c : Cmd) : List Cmd :=
  if c.origin.isSome then []
  else s.cmds.filter (fun x => x.ring == c.ring && x.origin.isNone && decide (x.sub < c.sub))

/-- Everything of it has been done but its record. -/
def finishedCmd (c : Cmd) : Bool := c.phase == .finished

/-- FENCE commands and FENCE-flagged ones are fence points (R382). -/
def fencePoint (c : Cmd) : Bool := opcodeOf c.desc == 0x02 || fenceFlag c.desc

/-- The commands that a fenced one depends on: those since the previous fence point that is still unposted. -/
def sinceFence (s : State) (c : Cmd) : List Cmd :=
  let e := earlierOf s c
  let last := ((e.filter fencePoint).map Cmd.sub).foldl max 0
  if e.any fencePoint then e.filter (fun x => decide (last < x.sub)) else e

/-- One of the commands since the previous fence point has failed; posted ones are remembered by the ring. -/
def fenceFailed (s : State) (c : Cmd) : Bool :=
  (sinceFence s c).any (fun x => finishedCmd x && cmdFailed x)
  || (c.origin.isNone && !(earlierOf s c).any fencePoint && (ringOf s c.ring).failedSince)

/-- FENCE, EVENT_WAIT and WAIT_TIME hold every later command of the ring. -/
def holdsLater (c : Cmd) : Bool := [0x02, 0x04, 0x05].contains (opcodeOf c.desc) && !finishedCmd c

/-- The cache descriptor address that orders key-value commands: K of ATTEND, CACHE of KV_INDEX and KV_APPEND. -/
def cacheField (d : BitVec 1024) : Nat := if opcodeOf d == 0x18 then fieldN d 192 64 else fieldN d 128 64

/-- An earlier command `x` must have read the cache, or written its rows there, before `c` starts (R207). -/
def kvBefore (x c : BitVec 1024) : Bool :=
  let a := opcodeOf x
  let b := opcodeOf c
  ((a == 0x1A && [0x18, 0x1A, 0x1B].contains b) || (b == 0x1A && (a == 0x18 || a == 0x1B)))
  && cacheField x == cacheField c

/-- A product that may yet decide a link: it will run, or runs, DEFERRED (R163, R167). -/
def mayDefer (c : Cmd) : Bool :=
  productOp c.desc && !finishedCmd c && c.linkTo.isNone
  && (if c.phase == .started then c.mode == modeDeferred else bit c.desc 970 && decide (fieldN c.desc 968 2 ≤ 1))

/-- The first pass of a DEFERRED producer has ended and its link is undecided. -/
def undecided (c : Cmd) : Bool :=
  c.phase == .started && isDeferred c && c.linkTo.isNone && c.unitsDone.contains workDone

/-- A producer that was found without a consumer, and whose second pass is still to be run (R167). -/
def secondDue (c : Cmd) : Bool :=
  c.phase == .started && productOp c.desc && c.mode == modeTwoPass && c.unitsDone.contains workDone

/-- An earlier command of the ring keeps this one from starting. -/
def heldByOrder (s : State) (c : Cmd) : Bool :=
  (earlierOf s c).any (fun x =>
    holdsLater x || undecided x || secondDue x
    || (!finishedCmd x && (!x.worked || (opcodeOf x.desc == 0x1A && outstanding s x.uid)) && kvBefore x.desc c.desc)
    || (!finishedCmd x && opcodeOf x.desc == 0x48 && ctxTag x.desc == ctxTag c.desc)
    || (x.sub + 1 == c.sub && mayDefer x && linkable x.desc c.desc))
  || (fenceFlag c.desc && !(earlierOf s c).all finishedCmd)

/-- An earlier TABLE_LOAD of the ring to one of these tables has not swapped (R137). -/
def loadBefore (s : State) (c : Cmd) (ts : List Nat) : Bool :=
  (earlierOf s c).any (fun x => opcodeOf x.desc == 0x50 && !finishedCmd x && ts.contains (loadTableId x.desc))

/-! ### Forwarding (R310, R387) -/

/-- Fails a command that the anchor could not place: REQUEST_FAILED for a MSG, with the die that owns the port it left by, if any
(R310, R427). -/
def failForward (s : State) (u : Uid) (dst die reason : Nat) (st : Status) : State :=
  failCmd (logCmd s u evRequestFailed die false (requestWord dst 0xA reason st.code) 0 0 0) u st

/-- A tag of die 0 that no request and no forwarded command holds. -/
def freeForwardTag (s : State) : Option Nat :=
  (range (smGet 0 s.zw.nextTag 0) 8192).findSome? (fun t =>
    let t := t % 8192
    if tagBusy s 0 t || s.cmds.any (fun c => c.forwardTag == some t) then none else some t)

/-- What the KEY of a DESC packet carries: the ring's PARTITION in bits 2:0, and the dies of the placement in bits 15:8 (DESIGN
CHOICE, log entry 31). -/
def forwardKey (part : Nat) (dies : Byte) : W32 := BitVec.ofNat 32 (part % 8 + dies.toNat * 2 ^ 8)

/-- Sends one DESC packet with a tag; `none` without a tag or a route. -/
def sendDesc (s : State) (u : Uid) (dst : BitVec 12) (addr : BitVec 38) (key : W32) (data : BitVec 1024) :
    Option (Nat × State) :=
  match freeForwardTag s with
  | none => none
  | some t =>
    (sendKeyed s 1 dst (BitVec.ofNat 16 t) addr key (bvToBytes 128 data)).map (fun s =>
      (t, { s with zw := { s.zw with
        requests := s.zw.requests ++ [⟨0, BitVec.ofNat 13 t, some u, .desc, dst, 0xA, 0, 0, s.time.now, false,
          (routePort s dst.toNat 0 0).getD 0⟩]
        nextTag := smSet 0 s.zw.nextTag 0 ((t + 1) % 8192) } }))

/-- Opcodes that can use or load a lookup table. -/
def tableUser (op : Nat) : Bool := [0x10, 0x11, 0x12, 0x14, 0x18, 0x1B, 0x20, 0x21, 0x30, 0x48, 0x50].contains op

/-- What the anchor orders before it forwards: FENCE and EVENT_SIGNAL wait for every earlier command, and commands that
use tables for loads of the same member and loads for them (R387, R137; log entry 31). -/
def heldForward (s : State) (c : Cmd) : Bool :=
  let op := opcodeOf c.desc
  ((op == 0x02 || op == 0x03) && !(earlierOf s c).all finishedCmd)
  || (earlierOf s c).any (fun x => x.module == c.module && !finishedCmd x && tableUser op && tableUser (opcodeOf x.desc)
    && (op == 0x50 || opcodeOf x.desc == 0x50))

/-- Forwards a command to its member, when its entry is valid, not in a quiet period, and reachable: its descriptor, and its sync
record when it has one (R387). -/
def forwardCmd (s : State) (c : Cmd) : State :=
  let m := memberOf s c.module.toNat
  let key := forwardKey (ringPartition s c.ring) c.dies
  let sent (t : Nat) (s : State) : State :=
    modCmd s c.uid (fun c => { c with phase := .forwarded, forwardTag := some t, forwardId := m.id })
  let addr : BitVec 38 := if opcodeOf c.desc == 0x30 && ballastEn c.desc then field c.ballastBase 3 38 else 0
  if !m.valid || m.quietUntil.isSome || (routePort s m.id.toNat 0 0).isNone then
    failForward s c.uid m.id.toNat 0 0 .fabricUnreachable
  else
    match sendDesc s c.uid m.id addr key c.desc with
    | none => s
    | some (t, s1) =>
      if !hasSync c.desc then sent t s1
      else
        match sendDesc s1 c.uid m.id addr key c.sync with
        | none => s
        | some (_, s2) => sent t s2

/-! ### Start (R373, R393) -/

/-- The start checks of an opcode; answers the tables that it uses. -/
def startOf (k : Ctx) : CmdM (List Nat) :=
  match opcodeOf k.desc with
  | 0x1B => startKvIndex k
  | 0x30 => startRefine k
  | 0x38 => startCollective k
  | 0x48 => startModelBind k
  | 0x50 => startTableLoad k
  | 0x58 => startSpoolLoad k
  | op => (opSem op).elim (pure []) (fun x => x.start k)

/-- What an earlier descriptor's link leaves of its producer. -/
inductive LinkState where
  | none | alive (p : Cmd) | parked | broken
  deriving DecidableEq, Repr

/-- The producer of a linked consumer; it is alive until the consumer starts, which a parked one waits for (R167). -/
def linkState (s : State) (c : Cmd) : LinkState :=
  match c.link with
  | .producer u _ =>
    match findCmd s u with
    | some p => if p.phase == .started then .alive p else if p.phase == .suspended then .parked else .broken
    | none => .broken
  | .none => .none

/-- The start of a command: its context entry, its model's tables, its own checks and those on a husk, judged together (R373, R497),
then the husk and its bindings. -/
def startBody (c : Cmd) : CmdM Unit := do
  let k0 := ctxOf (← get) c
  let rec0 := boundRecord (← get) k0.part (ctxTag c.desc)
  let stale := staleRefs (← get) k0.part rec0
  if stale && !earlierStarted (← get) c then throw .wait
  let (_, b0) ← if stale then tryWith () (reloadRefs k0 0xFFFF (tableRefs rec0)) else pure ((), [])
  modify (fun s => modCmd s c.uid (fun c => { c with record := rec0 }))
  let k := { k0 with record := rec0 }
  let (ts, b1) ← tryWith [] (startOf k)
  let (husk, b2) ← huskFor k
  rejectOn (ctxEntryChecks (ctxEntry (← get) (ctxTag c.desc)) ++ b0 ++ b1 ++ b2)
  if loadBefore (← get) c ts then throw .wait
  let held ← takeHusk k husk
  let s ← get
  let fresh := (ts.filter (fun t => !held.any (fun g => g.1 == t))).map (fun t =>
    let b := (tableOf s k.part t).current
    (t, b.gen.toNat, b.tag.toNat))
  let linked := match linkState s c with | .alive p => p.gens | _ => []
  modify (fun s =>
    let s := modCmd s c.uid (fun c => { c with phase := .started, gens := held ++ fresh ++ linked })
    match findCmd s c.uid with
    | some c => { s with cmds := s.cmds.filter (fun x => x.uid != c.uid) ++ [c] }
    | none => s)

/-- A member serves no ring: a command of one does not start there (R312). -/
def unserved (s : State) (c : Cmd) : Bool := isMember s && c.origin.isNone

/-- An issued command may start: nothing of its ring holds it, its context is open, its partition starts commands and
its dies have room (R312, R382, R391, R393, R398). -/
def mayStart (s : State) (c : Cmd) : Bool :=
  c.phase == .issued && !unserved s c && !heldByOrder s c && linkState s c != .parked && !(partOf s (cmdPart s c)).hold && ctxOpen s c && diesHaveRoom s c.dies

/-- Starts a command that may start. -/
def startCmd (s : State) (c : Cmd) : State :=
  match (startBody c).run.run s with
  | (.ok _, t) =>
    match linkState s c with
    | .alive p => doneCmd t p.uid .ok
    | _ => t
  | (.error x, t) => settleStop s t c.uid x

/-- COMMAND_START: a fenced command behind a failure and a consumer without its producer fail; a command placed on a
member is forwarded; a parked command resumes (R167, R382, R387, R393, R408). -/
def execCommandStart (u : Uid) (s : State) : Host.Outcome State Fault Refusal :=
  .next (match findCmd s u with
    | none => s
    | some c =>
      if mayResume s c then resumeCmd s c
      else if c.phase == .issued && c.module != 0 && c.origin.isNone then
        if unserved s c || heldByOrder s c || heldForward s c || (partOf s (cmdPart s c)).hold then s
        else if fencePoint c && fenceFailed s c then failCmd s u .dependencyFailed
        else forwardCmd s c
      else if !mayStart s c then s
      else if fenceFlag c.desc && fenceFailed s c then failCmd s u .dependencyFailed
      else if linkState s c == .broken then failCmd s u .dependencyFailed
      else startCmd s c)

/-! ### Statistic links (R167) -/

/-- The second pass of a producer that was found without a consumer, its completion and its record (R165, R167). -/
def runSecond (s : State) (p : Cmd) : State :=
  match (secondPass (ctxOf s p)).run.run s with
  | (.ok _, t) => doneCmd (logCmd t p.uid evStatTwoPass 0 false 0 0 0 0) p.uid .ok
  | (.error x, t) => settleStop s t p.uid x

/-- The decision, which is taken once: it links a producer to the next submitted command of its ring when that command qualifies, else
the mode is TWO_PASS from now on and the second pass runs (R167). A command that a member is to run does not qualify, since its header
waits are read there and are not met here (DEDUCED, log entry 33). -/
def decideLink (s : State) (p : Cmd) : State :=
  let next (s : State) : Option Cmd := s.cmds.find? (fun x => x.ring == p.ring && x.origin.isNone && x.sub == p.sub + 1)
  let s := if p.origin.isNone && !isMember s && (next s).isNone && decide (waitList s p.ring < 64) then fetchHead s p.ring else s
  let fits (x : Cmd) : Bool := p.origin.isNone && x.phase == .issued && x.module == p.module && linkable p.desc x.desc
  match (next s).filter fits with
  | some x =>
    modCmd (modCmd s x.uid (fun x => { x with link := .producer p.uid p.desc })) p.uid (fun p => { p with linkTo := some x.uid })
  | none => runSecond (modCmd s p.uid (fun p => { p with mode := modeTwoPass })) p

/-- The consumer that a producer is linked to has ended without starting (log entry 33). -/
def consumerGone (s : State) (p : Cmd) : Bool :=
  p.phase == .started
  && p.linkTo.elim false (fun u => (findCmd s u).elim true (fun x => finishedCmd x || x.phase == .ending))

/-- STAT_LINK_DECISION: at the end of a DEFERRED producer's first pass; a second pass that had to wait goes on, and a producer whose
consumer has gone ends. -/
def execStatLinkDecision (u : Uid) (s : State) : Host.Outcome State Fault Refusal :=
  .next (match findCmd s u with
    | some p =>
      if undecided p && goesOn p then decideLink s p
      else if secondDue p && goesOn p then runSecond s p
      else if consumerGone s p && goesOn p then doneCmd s u .ok else s
    | none => s)

end Sys2Proof.Machine
end

