-- ==== Sys2Proof/Machine/Rings.lean ====
section
/-!
DEFINITION. Submission and completion rings: wakes and polls, completion records and their interrupts, enabling, disabling
and draining (R363 to R370, R377, R378, R385, R442, R443).
-/
namespace Sys2Proof.Machine

open Sys2Proof

/-! ### Fields (R364, R366) -/

def Ring.sqBase (r : Ring) : Nat := fieldN r.cfg 0 64
def Ring.cqBase (r : Ring) : Nat := fieldN r.cfg 64 64
def Ring.ctrlBase (r : Ring) : Nat := fieldN r.cfg 128 64
def Ring.sqSize (r : Ring) : Nat := 2 ^ fieldN r.cfg 256 5
def Ring.cqSize (r : Ring) : Nat := 2 ^ fieldN r.cfg 264 5
def Ring.vector (r : Ring) : Nat := fieldN r.cfg 272 11
def Ring.irqEn (r : Ring) : Bool := bit r.cfg 283
def Ring.irqCount (r : Ring) : Nat := fieldN r.cfg 288 8
def Ring.irqDelay (r : Ring) : Nat := fieldN r.cfg 296 16
def Ring.pollLog (r : Ring) : Nat := fieldN r.cfg 312 5
def Ring.function (r : Ring) : Nat := fieldN r.cfg 320 6
def Ring.slot (r : Ring) : Nat := fieldN r.cfg 336 8

/-- The ring that has a slot of a VF (R363, R366). -/
def slotRing (s : State) (f slot : Nat) : Option Nat :=
  ((smKeys s.hq.rings).filter (fun r => decide (r < 4096))).find? (fun r =>
    (ringOf s r).function == f && (ringOf s r).slot == slot)

/-- Writes SQ_HEAD into the control block. -/
def writeSqHead (s : State) (r : Nat) : State :=
  hostWrite s ((ringOf s r).ctrlBase + 8) (bvToBytes 4 (ringOf s r).sqHead)

/-- Writes WAKE_NEEDED. -/
def writeWake (s : State) (r : Nat) (w : Bool) : State :=
  let s := modRing s r (fun g => { g with wakeNeeded := w })
  hostWrite s ((ringOf s r).ctrlBase + 16) [if w then 1 else 0, 0, 0, 0]

/-- The ring enters ERROR (R369). -/
def ringError (s : State) (r : Nat) (cause : Nat) : State :=
  let g := ringOf s r
  if g.state == .on || g.state == .draining then
    logEvent (setRing s r { g with state := .error, cause := BitVec.ofNat 4 cause }) evRingError 0
      (BitVec.ofNat 64 (r + cause * 4096)) 0
  else s

/-! ### Completion head (R369, R370) -/

/-- Reads CQ_HEAD. A failed read counts as an invalid one (log entry 32). -/
def readCqHead (s : State) (r : Nat) (fault : Bool) : State :=
  let g := ringOf s r
  let h : BitVec 17 := bytesToBv 17 (hostRead s (g.ctrlBase + 12) 4)
  let n := g.cqSize
  if !fault && decide (fieldN h 0 16 < n) && decide (ixDist n h g.cqHead ≤ ixDist n g.cqNext g.cqHead) then
    setRing s r { g with cqHead := h }
  else ringError s r 4

/-- The next command of a ring to post. -/
def nextPost (s : State) (r : Nat) : Option Cmd :=
  s.cmds.find? (fun c => c.ring == r && c.origin.isNone && c.sub == (ringOf s r).posted)

/-- A completion is held because the completion ring is full. -/
def completionHeld (s : State) (r : Nat) : Bool :=
  let g := ringOf s r
  (nextPost s r).elim false finishedCmd && decide (g.cqSize ≤ ixDist g.cqSize g.cqNext g.cqHead)

/-- CQ_HEAD_RECHECK (R370); a member serves no ring (R312). -/
def execCqHeadRecheck (r : RingIx) (fault : Bool) (s : State) : Host.Outcome State Fault Refusal :=
  let g := ringOf s r.val
  .next (if (g.state == .on || g.state == .draining) && completionHeld s r.val && !isMember s then readCqHead s r.val fault
    else s)

/-! ### Fetching (R367) -/

/-- Fetches slots up to the tail; a descriptor whose sync record lies at the tail stays (R372). `n` counts slots. -/
def fetchSlots : Nat → State → Nat → State
  | 0, s, _ => s
  | 1, s, r =>
    let g := ringOf s r
    let d : BitVec 1024 := bytesToBv 1024 (hostRead s (g.sqBase + 128 * fieldN g.sqHead 0 16) 128)
    if hasSync d then s
    else setRing s r { g with sqHead := ixNext g.sqSize g.sqHead, fetched := g.fetched ++ [⟨d, 0⟩] }
  | n + 2, s, r =>
    let g := ringOf s r
    let d : BitVec 1024 := bytesToBv 1024 (hostRead s (g.sqBase + 128 * fieldN g.sqHead 0 16) 128)
    let h1 := ixNext g.sqSize g.sqHead
    if hasSync d then
      let y : BitVec 1024 := bytesToBv 1024 (hostRead s (g.sqBase + 128 * fieldN h1 0 16) 128)
      fetchSlots n (setRing s r { g with sqHead := ixNext g.sqSize h1, fetched := g.fetched ++ [⟨d, y⟩] }) r
    else fetchSlots (n + 1) (setRing s r { g with sqHead := h1, fetched := g.fetched ++ [⟨d, 0⟩] }) r

/-- Step 2 of R367 for `ahead` slots: reads of up to 32, each with its write of SQ_HEAD. `fault` counts the reads before one that
fails; `fuel` bounds the reads. -/
def fetchReads : Nat → State → Nat → Nat → Option Nat → State
  | 0, s, _, _, _ => s
  | n + 1, s, r, ahead, fault =>
    if ahead = 0 then s
    else if fault = some 0 then ringError s r 2
    else
      let h := (ringOf s r).sqHead
      let t := fetchSlots (min 32 ahead) s r
      let m := ixDist (ringOf t r).sqSize (ringOf t r).sqHead h
      if m = 0 then t else fetchReads n (writeSqHead t r) r (ahead - m) (fault.map (· - 1))

/-- Steps 1 to 3 of R367. A failed read puts the ring in ERROR (R369): with `fault = some 0` the read of SQ_TAIL, with
`some (i + 1)` the read of slots after i others. -/
def wakeRing (s : State) (r : Nat) (fault : Option Nat) : State :=
  let s := writeWake s r false
  if fault = some 0 then ringError s r 2
  else
    let s := readCqHead s r false
    let g := ringOf s r
    if g.state != .on then s
    else
      let t : BitVec 17 := bytesToBv 17 (hostRead s g.ctrlBase 4)
      let ahead := ixDist g.sqSize t g.sqHead
      if g.sqSize ≤ fieldN t 0 16 || g.sqSize < ahead then ringError s r 1
      else
        let s := fetchReads (ahead + 1) (setRing s r { g with sqTail := t }) r ahead (fault.map (· - 1))
        if (ringOf s r).state == .on then writeWake s r true else s

/-- A wake-page write that is ignored and counted (R369). -/
def ignoreWake (s : State) : State := { s with hq := { s.hq with cntWakeIgnored := s.hq.cntWakeIgnored + 1 } }

/-- The ring of a wake page: the PF has one page a ring, a VF one a slot (R363). -/
def pageRing (s : State) (f page : Nat) : Option Nat := if f = 0 then some page else slotRing s f page

/-- RING_WAKE: a write to a wake page; ignored and counted for a ring that is not ON and on a member (R367, R369, R312). -/
def execRingWake (f : FuncIx) (page : RingIx) (fault : Option Nat) (s : State) : Host.Outcome State Fault Refusal :=
  .next (if f.val != 0 && !(vfOf s f.val).enabled then s
    else if isMember s then ignoreWake s
    else
      match pageRing s f.val page.val with
      | none => ignoreWake s
      | some r => if (ringOf s r).state != .on then ignoreWake s else wakeRing s r fault)

/-- RING_POLL: the poll interval of an ON ring elapses. -/
def execRingPoll (r : RingIx) (fault : Option Nat) (s : State) : Host.Outcome State Fault Refusal :=
  let g := ringOf s r.val
  .next (if g.state == .on && g.pollLog != 0 && !isMember s then wakeRing s r.val fault else s)

/-! ### Completions (R377, R378, R385) -/

/-- Sends the ring's message. -/
def sendRingIrq (s : State) (r : Nat) : State :=
  let g := ringOf s r
  sendMsix (setRing s r { g with irqPending := 0 }) g.function g.vector

/-- Counts a posted record towards the interrupt (R378). -/
def countIrq (s : State) (r : Nat) : State :=
  let g := ringOf s r
  let g := { g with irqFirst := if g.irqPending = 0 then s.time.now else g.irqFirst, irqPending := g.irqPending + 1 }
  let s := setRing s r g
  if g.irqEn && decide (g.irqCount ≤ g.irqPending) then sendRingIrq s r else s

/-- The ring's function drains after an FLR, or the PF does: its record writes are discarded (R442, R460). -/
def discards (s : State) (r : Nat) : Bool := (vfOf s (ringOf s r).function).draining || (vfOf s 0).draining

/-- Writes a record, or discards it and counts that (R378, R442). -/
def writeRecord (s : State) (r : Nat) (c : Cmd) : State :=
  let g := ringOf s r
  if discards s r then
    { s with hq := { s.hq with cntFlrDiscard := s.hq.cntFlrDiscard + 1 } }
  else
    let s := hostWrite s (g.cqBase + 32 * fieldN g.cqNext 0 16) (bvToBytes 32 (completionRec c (!bit g.cqNext 16)))
    countIrq (modRing s r (fun g => { g with cqNext := ixNext g.cqSize g.cqNext })) r

/-- Posts the next completion of a ring: the record is written, the fence state moves on, and parked commands that can now start
resume (R382, R385, R408). -/
def postCompletion (s : State) (r : Nat) (c : Cmd) : State :=
  let s := writeRecord s r c
  let s := modRing s r (fun g =>
    { g with posted := g.posted + 1, failedSince := !fencePoint c && (g.failedSince || cmdFailed c) })
  resumeAll (dropCmd s c.uid)

/-- COMPLETION_POST: in submission order, when the record fits by the CQ_HEAD in force or is discarded, and the command's husk has
been cleared; a failed write puts the ring in ERROR (R369, R370, R385, R408, R442). -/
def execCompletionPost (r : RingIx) (fault : Bool) (s : State) : Host.Outcome State Fault Refusal :=
  let g := ringOf s r.val
  .next (match nextPost s r.val with
    | none => s
    | some c =>
      if isMember s || !finishedCmd c || !(g.state == .on || g.state == .draining) || (completionHeld s r.val && !discards s r.val) then s
      else
        let s := clearHusk s c
        if !mayPost s c.uid then s
        else if fault && !discards s r.val then ringError s r.val 3
        else postCompletion s r.val ((findCmd s c.uid).getD c))

/-- IRQ_DELAY_EXPIRE (R378). -/
def execIrqDelayExpire (r : RingIx) (s : State) : Host.Outcome State Fault Refusal :=
  let g := ringOf s r.val
  .next (if g.irqEn && g.irqDelay != 0 && g.irqPending != 0 && decide (g.irqDelay ≤ elapsed s.time.now g.irqFirst) then
      sendRingIrq s r.val
    else s)

/-- TIME_WAIT_REACHED: completes a started WAIT_TIME (R383). -/
def execTimeWaitReached (u : Uid) (s : State) : Host.Outcome State Fault Refusal :=
  .next (match findCmd s u with
    | some c =>
      if c.phase == .started && opcodeOf c.desc == 0x05 && reached s.time.now (waitTick c.desc) then doneCmd s u .ok else s
    | none => s)

/-! ### Enabling and draining (R367, R442, R443) -/

/-- An OFF ring goes ON. -/
def ringOn (s : State) (r : Nat) : State :=
  let s := modRing s r (fun g =>
    { g with state := .on, enableHeld := false, cause := 0, sqHead := 0, sqTail := 0, cqNext := 0, cqHead := 0
             fetched := [], irqPending := 0, failedSince := false })
  writeWake (writeSqHead s r) r true

/-- Turns fetched slots into commands that complete with ABORTED. -/
def abortSlots : Nat → State → Nat → State
  | 0, s, _ => s
  | n + 1, s, r =>
    match admitHead s r with
    | none => s
    | some (c, s) => abortSlots n (failCmd s c.uid .aborted) r

/-- Fetched commands of a ring that have not started complete with ABORTED (R442). -/
def abortUnstarted (s : State) (r : Nat) : State :=
  let s := s.cmds.foldl (fun s c =>
    if c.ring == r && c.origin.isNone && (c.phase == .waiting || c.phase == .issued) then failCmd s c.uid .aborted else s) s
  abortSlots (ringOf s r).fetched.length s r

/-- A disable: ON and ERROR lead to DRAINING, and a held enable is cancelled (R443). -/
def ringOff (s : State) (r : Nat) : State :=
  let g := ringOf s r
  match g.state with
  | .off => s
  | .draining => setRing s r { g with enableHeld := false }
  | _ => abortUnstarted (setRing s r { g with state := .draining, enableHeld := false, cause := 0 }) r

/-- Writes ENABLE of a ring's committed contents and acts on it. -/
def setRingEnable (s : State) (r : Nat) (on : Bool) : State :=
  let s := modRing s r (fun g => { g with cfg := setField g.cfg 384 1 (if on then 1 else 0) })
  if on then
    match (ringOf s r).state with
    | .off => ringOn s r
    | .draining => modRing s r (fun g => { g with enableHeld := true })
    | _ => s
  else ringOff s r

/-- Nothing of a ring is left. -/
def ringEmpty (s : State) (r : Nat) : Bool :=
  (ringOf s r).fetched.isEmpty && !s.cmds.any (fun c => c.ring == r && c.origin.isNone)

/-- The drain of a ring ends: OFF, and ON again when an enable is held (R443). -/
def drainRing (s : State) (r : Nat) : State :=
  let g := ringOf s r
  if g.state != .draining || !ringEmpty s r then s
  else
    let s := setRing s r { g with state := .off, enableHeld := false }
    if g.enableHeld then ringOn s r else s

end Sys2Proof.Machine
end

