-- ==== Sys2Proof/Machine/Run.lean ====
section
/-!
DEFINITION. The device commands: each row lets a started command do all of its remaining work, as far as it may go on (log
entry 7), and the rows for single steps of REFINE, COLLECTIVE, ring attention and a held ENCODE.
-/
namespace Sys2Proof.Machine

open Sys2Proof

/-! ### Running a started command -/

/-- A started command may work now: no pre-emption waits for it, its context is open, with GUARD ticks to go where tile groups
start, or nothing cuts it (R398, R399, R406, R407). -/
def mayRun (s : State) (c : Cmd) : Bool :=
  let op := opcodeOf c.desc
  let guarded := tileOp op && ctxOpen s c && inGuard s c
  goesOn c && !s.groups.any (fun g => g.cmd == c.uid)
  && (c.runOn || codecOp op || neverCut op || waitOp op || (!guarded && (ctxOpen s c || groupCmd c)))

/-- Applies `f` to a started command of an opcode that may work now. -/
def withRunning (s : State) (u : Uid) (op : Nat) (f : Cmd → State) : State :=
  match findCmd s u with
  | some c => if opcodeOf c.desc == op && mayRun s c then f c else s
  | none => s

/-- All units of a command have been done: a DEFERRED producer waits for its link, another command ends with its status
(R167, R374). -/
def finishUnits (s : State) (u : Uid) : State :=
  match findCmd s u with
  | none => s
  | some c =>
    if isDeferred c && c.linkTo.isNone then modCmd s u (fun c => { c with unitsDone := c.unitsDone ++ [workDone] })
    else if isDeferred c then s
    else if c.aborting then failMember (if c.orphan then logAborted s u else s) c .aborted
    else if c.evicting && opcodeOf c.desc == 0x40 then endEvicted s c 0 false
    else if c.evicting && !uncut (opcodeOf c.desc) then cutCmd s c
    else doneCmd s u c.status

/-- A unit's run has stopped: a REFINE fails as R239 says, a group member with its group, and any other command with the contents
that its failure leaves unspecified (R197, R333). -/
def stopUnits (before after : State) (c : Cmd) (e : Stop) : State :=
  if opcodeOf c.desc == 0x30 then refineFails after c e
  else if groupCmd c then settleMember before after c e
  else
    match e with
    | .fail st => settleStop before (spoilCmd after c.uid st) c.uid e
    | _ => settleStop before after c.uid e

/-- Runs every unit not yet done. -/
def runWhole (fault : Bool) (s : State) (c : Cmd) : State :=
  match opSem (opcodeOf c.desc) with
  | none => s
  | some x =>
    let k := ctxOf s c
    match (do
        let n ← x.units k
        runUnits x fault k (List.range n) : CmdM Unit).run.run s with
    | (.ok _, t) => finishUnits t c.uid
    | (.error .wait, t) => settleStop s t c.uid .wait
    | (.error e, t) => stopUnits s t c e

/-- Runs a command of an opcode that works by units. -/
def runUnitsRow (op : Nat) (u : Uid) (s : State) : State :=
  withRunning s u op (fun c => if c.unitsDone.contains workDone then s else runWhole false s c)

/-- The first codec command of its engine in the order of their starts (R340). -/
def codecTurn (s : State) (c : Cmd) : Bool :=
  (s.cmds.find? (fun x => codecOp (opcodeOf x.desc) && x.phase == .started && x.die == c.die)).elim false
    (fun x => x.uid == c.uid)

/-- Runs a codec command when its engine has finished the earlier-started ones. -/
def runCodecRow (op : Nat) (u : Uid) (s : State) : State :=
  withRunning s u op (fun c => if codecTurn s c then runWhole false s c else s)

/-! ### Waiting commands -/

/-- NOP (R383). -/
def execNop (u : Uid) (s : State) : Host.Outcome State Fault Refusal :=
  .next (withRunning s u 0x01 (fun _ => doneCmd s u .ok))

/-- FENCE: once every earlier command of its ring has completed; it fails behind a failure (R382). -/
def execFence (u : Uid) (s : State) : Host.Outcome State Fault Refusal :=
  .next (withRunning s u 0x02 (fun c =>
    if !(earlierOf s c).all finishedCmd then s
    else if fenceFailed s c then failCmd s u .dependencyFailed
    else doneCmd s u .ok))

/-- EVENT_SIGNAL: performs its signals once every earlier command of its ring has completed (R383). -/
def execEventSignal (u : Uid) (s : State) : Host.Outcome State Fault Refusal :=
  .next (withRunning s u 0x03 (fun c => if (earlierOf s c).all finishedCmd then doneCmd s u .ok else s))

/-- EVENT_WAIT: completes when all its waits are met, and fails on a failed counter (R383). -/
def execEventWait (u : Uid) (s : State) : Host.Outcome State Fault Refusal :=
  .next (withRunning s u 0x04 (fun c => recheckOwn s c))

/-- WAIT_TIME: completes when its tick has been reached (R383). -/
def execWaitTime (u : Uid) (s : State) : Host.Outcome State Fault Refusal :=
  .next (withRunning s u 0x05 (fun c => if reached s.time.now (waitTick c.desc) then doneCmd s u .ok else s))

/-! ### Commands by units -/

/-- COPY (R384). -/
def execCopy (u : Uid) (hostFault : Bool) (s : State) : Host.Outcome State Fault Refusal :=
  .next (withRunning s u 0x08 (runWhole hostFault s))

/-- FILL (R384). -/
def execFill (u : Uid) (hostFault : Bool) (s : State) : Host.Outcome State Fault Refusal :=
  .next (withRunning s u 0x09 (runWhole hostFault s))

/-- MATMUL (R139 to R168). -/
def execMatmul (u : Uid) (s : State) : Host.Outcome State Fault Refusal := .next (runUnitsRow 0x10 u s)

/-- MATMUL_LIST (R156, R157). -/
def execMatmulList (u : Uid) (s : State) : Host.Outcome State Fault Refusal := .next (runUnitsRow 0x11 u s)

/-- MATMUL_CHAIN (R169 to R172). -/
def execMatmulChain (u : Uid) (s : State) : Host.Outcome State Fault Refusal := .next (runUnitsRow 0x12 u s)

/-- CONV (R176 to R187). -/
def execConv (u : Uid) (s : State) : Host.Outcome State Fault Refusal := .next (runUnitsRow 0x14 u s)

/-- ATTEND (R188 to R216); a member of a ring group takes its next ring step. -/
def execAttend (u : Uid) (s : State) : Host.Outcome State Fault Refusal :=
  .next (withRunning s u 0x18 (fun c => if groupCmd c then ringStep s c else runWhole false s c))

/-- ATTEND_BWD (R217 to R219). -/
def execAttendBwd (u : Uid) (s : State) : Host.Outcome State Fault Refusal := .next (runUnitsRow 0x19 u s)

/-- KV_APPEND (R206). -/
def execKvAppend (u : Uid) (s : State) : Host.Outcome State Fault Refusal := .next (runUnitsRow 0x1A u s)

/-- KV_INDEX (R210). -/
def execKvIndex (u : Uid) (s : State) : Host.Outcome State Fault Refusal := .next (withRunning s u 0x1B (runKvIndex s))

/-- VECCHAIN (R107 to R132). -/
def execVecchain (u : Uid) (s : State) : Host.Outcome State Fault Refusal := .next (runUnitsRow 0x20 u s)

/-- REDUCE (R119 to R121). -/
def execReduce (u : Uid) (s : State) : Host.Outcome State Fault Refusal := .next (runUnitsRow 0x21 u s)

/-- RANDOM (R60 to R67). -/
def execRandom (u : Uid) (s : State) : Host.Outcome State Fault Refusal := .next (runUnitsRow 0x24 u s)

/-- SAMPLE_TOKENS (R68 to R73). -/
def execSampleTokens (u : Uid) (s : State) : Host.Outcome State Fault Refusal := .next (runUnitsRow 0x28 u s)

/-- REFINE: all its remaining steps; before each boundary the next entry of `ran` passes (R222, R232). -/
def execRefine (u : Uid) (ran : List Nat) (s : State) : Host.Outcome State Fault Refusal :=
  .next (withRunning s u 0x30 (fun _ => refineAll refineFuel s u ran))

/-- A started member of a group. -/
def startedMember (s : State) (u : Uid) : Option Cmd :=
  (findCmd s u).bind (fun c => if c.phase == .started && groupCmd c then some c else none)

/-- What a row of a member does: it goes on by `f`. News of a failure elsewhere ends the group, and a member that is to end with its
group goes on to the common boundary (R333, R221). -/
def memberRow (s : State) (u : Uid) (op : Nat) (peerFailed : Bool) (f : State → Cmd → State) : State :=
  match (startedMember s u).filter (fun c => opcodeOf c.desc == op) with
  | none => s
  | some c =>
    let s := if peerFailed then hearFailure s c else s
    match startedMember s u with
    | some c => if c.aborting then endTogether s c f else if peerFailed then s else f s c
    | none => s

/-- COLLECTIVE: the group's members of this module go on as far as they can, or end with their group (R317 to R333). -/
def execCollective (u : Uid) (peerFailed : Bool) (s : State) : Host.Outcome State Fault Refusal :=
  .next (memberRow s u 0x38 peerFailed (fun s c => if c.aborting || mayRun s c then runCollective s c else s))

/-- ENCODE (R341 to R345). -/
def execEncode (u : Uid) (s : State) : Host.Outcome State Fault Refusal := .next (runCodecRow 0x40 u s)

/-- DECODE (R346 to R351). -/
def execDecode (u : Uid) (s : State) : Host.Outcome State Fault Refusal := .next (runCodecRow 0x41 u s)

/-- MOTION (R352 to R356). -/
def execMotion (u : Uid) (s : State) : Host.Outcome State Fault Refusal := .next (runCodecRow 0x42 u s)

/-! ### Commands of tables, models and the spool -/

/-- MODEL_BIND (R403). -/
def execModelBind (u : Uid) (s : State) : Host.Outcome State Fault Refusal := .next (withRunning s u 0x48 (runModelBind s))

/-- TABLE_LOAD (R135). -/
def execTableLoad (u : Uid) (s : State) : Host.Outcome State Fault Refusal := .next (withRunning s u 0x50 (runTableLoad s))

/-- SPOOL_LOAD (R396). -/
def execSpoolLoad (u : Uid) (s : State) : Host.Outcome State Fault Refusal := .next (withRunning s u 0x58 (runSpoolLoad s))

/-! ### Steps -/

/-- REFINE_GRAPH_COMMAND (R227). -/
def execRefineGraphCommand (u : Uid) (s : State) : Host.Outcome State Fault Refusal := .next (refineRow s u .graph)

/-- REFINE_UPDATE (R230). -/
def execRefineUpdate (u : Uid) (s : State) : Host.Outcome State Fault Refusal := .next (refineRow s u .update)

/-- REFINE_STEP_BOUNDARY (R229, R231 to R236). -/
def execRefineStepBoundary (u : Uid) (s : State) : Host.Outcome State Fault Refusal := .next (refineRow s u .boundary)

/-- COLLECTIVE_JOIN (R322, R214). -/
def execCollectiveJoin (u : Uid) (prints : List PeerPrint) (s : State) : Host.Outcome State Fault Refusal :=
  .next (match startedMember s u with
    | some c => if c.coll.joined || c.aborting || c.suspending || c.evicting then s else joinGroup s c prints
    | none => s)

/-- COLLECTIVE_STEP: a member's current step with one peer (R328). -/
def execCollectiveStep (u : Uid) (peer : StepPeer) (s : State) : Host.Outcome State Fault Refusal :=
  .next (memberRow s u 0x38 peer.failed (fun s c => memberStep s c (if peer.released then [peer.rank] else []) [peer.rank]))

/-- COLLECTIVE_YIELD: a member asked to yield agrees the boundary with the others; one that is not, or that has agreed it, serves the
notice of a member elsewhere, and a ring attention's takes the boundary that one there has told (R331). -/
def execCollectiveYield (u : Uid) (news : YieldNews) (s : State) : Host.Outcome State Fault Refusal :=
  .next (match startedMember s u with
    | some c =>
      if !c.coll.joined then s
      else if (c.suspending || c.evicting) && c.coll.yieldAt.isNone then askYield s c news.steps
      else if opcodeOf c.desc == 0x38 then serveNotice s c
      else if c.coll.yieldAt.isSome then s
      else news.agreed.elim s (agreeYield s c)
    | none => s)

/-- RING_ATTEND_STEP (R215). -/
def execRingAttendStep (turn : RingTurn) (s : State) : Host.Outcome State Fault Refusal :=
  .next (memberRow s turn.cmd 0x18 turn.peerFailed ringStep)

/-- ENCODE_RELEASE: the timeline reaches RELEASE and the held completion and signals follow (R345). -/
def execEncodeRelease (u : Uid) (s : State) : Host.Outcome State Fault Refusal :=
  .next (match findCmd s u with
    | some c =>
      if c.phase == .ending && heldForRelease c && reached s.time.now (releaseTick c.desc) then
        advanceEnd (modCmd s u (fun c => { c with tickReached := true })) u
      else s
    | none => s)

end Sys2Proof.Machine
end

