-- ==== Sys2Proof/Machine/Device.lean ====
section
/-!
DEFINITION. Dies and partitions as a whole: capability counts, map-outs, a failed die, quiescence and what waits for it
(R3, R102, R103, R391, R441, R477).
-/
namespace Sys2Proof.Machine

open Sys2Proof

/-! ### Clusters of a die (R102, R477) -/

/-- Listed clusters of a die that satisfy `f`. An unlisted cluster is enabled. -/
def countClusters (s : State) (d : Nat) (f : Cluster → Bool) : Nat :=
  (s.clusters.filter (fun x => x.1 / 8192 == d && f x.2)).length

/-- Enabled clusters; a quarantined one counts until its map-out. -/
def enabledClusters (s : State) (d : Nat) : Nat := 8192 - countClusters s d (fun c => c.mark == .mappedOut)

/-- Enabled clusters outside quarantine. -/
def usableClusters (s : State) (d : Nat) : Nat := 8192 - countClusters s d (fun c => c.mark != .enabled)

/-- `DIE_CAP` (R477). -/
def dieCap (s : State) (d : Nat) : W64 :=
  if dieFailed s d then 0 else BitVec.ofNat 64 (enabledClusters s d + 65536 * (liveList s d).length)

/-- `GLB_CAP` (R477). -/
def glbCap (s : State) : W64 :=
  let ds := List.range 8
  let ok := ds.filter (fun d => !dieFailed s d)
  BitVec.ofNat 64 ((ok.map (fun d => enabledClusters s d)).sum + (ok.map (fun d => (liveList s d).length)).sum * 2 ^ 24
    + (((List.range 16).filter (fun p => (portOf s p).stage != .down)).map (fun p => 2 ^ p)).sum * 2 ^ 40
    + (ok.map (fun d => 2 ^ d)).sum * 2 ^ 56)

/-! ### A failed die (R441) -/

/-- A command that runs, or would run, on this module. -/
def runsHere (c : Cmd) : Bool := c.origin.isSome || c.module == 0

/-- A command whose work is not yet over. -/
def unended (c : Cmd) : Bool := c.phase == .waiting || c.phase == .issued || c.phase == .started || c.phase == .suspended

/-- Completes a command with ABORTED and gives up what it held; no record (R428). -/
def abortCmd (s : State) (c : Cmd) : State := failMember (dropGroups (dropLoads s c.uid) c.uid) c .aborted

/-- Aborts the commands that satisfy `f`, after `note`. -/
def abortWith (note : State → Uid → State) (s : State) (f : Cmd → Bool) : State :=
  s.cmds.foldl (fun s c =>
    match findCmd s c.uid with
    | some c => if unended c && f c then abortCmd (note s c.uid) c else s
    | none => s) s

/-- Aborts them by a drain: no record (R428). -/
def abortAll (s : State) (f : Cmd → Bool) : State := abortWith (fun s _ => s) s f

/-- Marks a die failed: DIE_FAILED is logged, and its started and fetched commands complete with ABORTED, with a record each
(R428). -/
def failDie (s : State) (d cause : Nat) : State :=
  if dieFailed s d then s
  else
    let s := logEvent (modPwrDie s d (fun x => { x with state := 3, held := false })) evDieFailed d (BitVec.ofNat 64 cause) 0
    abortWith logAborted s (fun c => runsHere c && hasDie c.dies d)

/-! ### Quarantine and map-out (R102, R103, R495) -/

/-- A cluster's entry of the map-out table (R444). -/
def clusterEntry (d k : Nat) : W64 := BitVec.ofNat 64 (1 + 4 * d + 32 * k)

/-- Quarantines a cluster; a die without a cluster left outside quarantine fails. -/
def quarantine (s : State) (d k cause : Nat) : State :=
  if (clusterOf s d k).mark != .enabled then s
  else
    let s := modCluster s d k (fun c => { c with mark := .quarantined })
    let s := logEvent s evQuarantined d (BitVec.ofNat 64 k) (BitVec.ofNat 64 cause)
    if usableClusters s d = 0 then failDie s d 3 else s

/-- Maps a cluster out: it becomes a hole, and the history records it. -/
def mapOut (s : State) (d k : Nat) : State :=
  let s := modCluster s d k (fun c => { c with mark := .mappedOut })
  let s := logEvent s evMappedOut d (BitVec.ofNat 64 k) (BitVec.ofNat 64 (enabledClusters s d))
  queueHistory s (.addMapOut (clusterEntry d k))

/-- The quarantined clusters of a die. -/
def quarantined (s : State) (d : Nat) : List Nat :=
  (s.clusters.filter (fun x => x.1 / 8192 == d && x.2.mark == .quarantined)).map (fun x => x.1 % 8192)

/-- Performs the map-outs of a die that wait for a quiesce. The next bring-up decides a failed die's quarantined clusters
afresh (R495). -/
def mapOutDie (s : State) (d : Nat) : State :=
  if dieFailed s d then s else (quarantined s d).foldl (fun s k => mapOut s d k) s

/-! ### Quiescence (R391) -/

/-- Started commands on a die mask (R393). -/
def startedOn (s : State) (dies : Byte) : Nat :=
  (s.cmds.filter (fun c => runsHere c && (c.phase == .started || c.phase == .ending) && c.dies &&& dies != 0)).length

/-- QUIESCED of a partition. -/
def quiesced (s : State) (p : Nat) : Bool := startedOn s (partOf s p).dies == 0

/-- Every partition is quiesced at once (R308). -/
def allQuiesced (s : State) : Bool := (List.range 8).all (quiesced s)

/-- A held `ZW_MODULE` takes effect (R308). -/
def applyModuleId (s : State) : State :=
  match s.zw.heldId with
  | some (i, a) =>
    if allQuiesced s then flushBuffer (memberPost { s with zw := { s.zw with id := i, anchorId := a, heldId := none } }) else s
  | none => s

/-- What a quiesce of a partition performs: map-outs, a held key, a held module ID, and the end of its drain with an enable
held in it (R102, R292, R308, R391, R443). -/
def quiesceNow (s : State) (p : Nat) : State :=
  let s := (diesOf (partOf s p).dies).foldl mapOutDie s
  let s := modPart s p (fun x => { x with key := x.keyHeld.getD x.key, keyHeld := none })
  let s := modPart s p (fun x =>
    { x with draining := false, hold := x.hold && !x.enableHeld, enableHeld := false })
  applyModuleId s

/-- PARTITION_QUIESCE: no command is started on the partition's dies. -/
def execPartitionQuiesce (p : PartIx) (s : State) : Host.Outcome State Fault Refusal :=
  .next (if quiesced s p.val then resumeAll (quiesceNow s p.val) else s)

end Sys2Proof.Machine
end

