-- ==== Sys2Proof/Machine/Placement.lean ====
section
/-!
DEFINITION. Where tile groups run: the walk over a command's units, the regions' runs, the clusters of a group with their shares,
bridles and halo waits, and whether a retry can be placed (R76, R81, R99, R146 to R151, R164, R171, R172, R187, R191, R495).
-/
namespace Sys2Proof.Machine

open Sys2Proof

/-! ### The walk (R147, R148) -/

/-- The walk over the entries of a product, entry-major, from unit `u` on. -/
def entryWalk (p : MmPlan) : List (Nat × Nat × Nat × Nat) → Nat → List Nat
  | [], _ => []
  | e :: es, u =>
    let g := p.grid e.2.2.2
    (visitOrder g.1 g.2).map (u + ·) ++ entryWalk p es (u + g.1 * g.2)

/-- The walk over a product: bands in their order, macro tiles along the curve; a second pass walks like the first. -/
def productWalk (p : MmPlan) : List (List Nat) :=
  let n := p.passUnits
  if !p.bands then [entryWalk p p.entries 0]
  else if p.mode == modeTwoPass then [List.range n, range n n]
  else [List.range n]

/-- The units of a command's work in the order of its walk, by phases: a phase begins when the one before it is done (R147, R165,
R171, R172). `n`: all its units. -/
def walkOf (k : Ctx) (n : Nat) : CmdM (List (List Nat)) := do
  match opcodeOf k.desc with
  | 0x10 => do
    let (p, _) ← matmulPlan k
    pure (productWalk p)
  | 0x11 => do
    let (p, _) ← matmulListPlan k
    pure (productWalk p)
  | 0x12 => do
    let (p, _) ← chainPlan k
    pure [List.range p.spills, range p.spills (p.bands * p.segs)]
  | 0x14 => do
    let (p, _) ← convPlan k
    let g := convGrid p
    pure [visitOrder g.1 g.2]
  | _ => pure [List.range n]

/-- The tiles of a walk that region `g` of `n` regions is given (R148). -/
def runOf (walk : List Nat) (n g : Nat) : List Nat :=
  let r := regionRun walk.length n g
  (walk.drop r.1).take (r.2 - r.1)

/-- The greater of two runs by what is left of them; the first of equals. -/
def longerRun (a b : List Nat) : List Nat := if a.length < b.length then b else a

/-- The tile that region `g` takes next: the first untaken one of its run, or, when it has finished that, the last untaken one of
the run with the most, the lower region number at a tie (R148). -/
def takeTile (walk : List Nat) (untaken : Nat → Bool) (n g : Nat) : Option Nat :=
  match (runOf walk n g).find? untaken with
  | some u => some u
  | none => ((List.range n).foldl (fun best i => longerRun best ((runOf walk n i).filter untaken)) []).getLast?

/-- A region's number among those of its partition's dies, and how many they are (R148). -/
def regionNumber (s : State) (part d region : Nat) : Nat × Nat :=
  let ds := diesOf (partOf s part).dies
  (32 * ds.findIdx (· == d) + region, 32 * ds.length)

/-! ### How a command's units are placed -/

/-- The placement of a command's units: rectangles for windowed modes of CONV, a region's grid for macro tiles and chains, sixteen
clusters for a band of a resident product or chain, one for attention (R146, R164, R171, R172, R187, R191). -/
def placingOf (k : Ctx) : CmdM Placing := do
  let product (p : MmPlan) : Placing := if p.mode == modeResident then .band else .grid
  match opcodeOf k.desc with
  | 0x10 => do
    let (p, _) ← matmulPlan k
    pure (product p)
  | 0x11 => do
    let (p, _) ← matmulListPlan k
    pure (product p)
  | 0x12 => do
    let (p, _) ← chainPlan k
    pure (if p.mode == modeResident then .band else .grid)
  | 0x14 => pure (if windowed (fieldN k.desc 596 4) then .exchange else .free)
  | 0x18 => pure .single
  | _ => pure .free

/-! ### Clusters (R76, R81, R99, R495) -/

/-- Logical coordinates of a cluster index. -/
def clusterX (k : Nat) : Nat := 16 * (k / 256 % 8) + k % 16
def clusterY (k : Nat) : Nat := 16 * (k / 256 / 8) + k / 16 % 16

/-- The index of coordinates within the die. -/
def clusterAt (x y : Nat) : Nat := (y / 16 * 8 + x / 16) * 256 + y % 16 * 16 + x % 16

/-- A cluster of any die as one number. -/
def clusterKey (d k : Nat) : Nat := d * 8192 + k

/-- The running group that holds a cluster. -/
def groupOn (s : State) (d k : Nat) : Option TileGroup :=
  s.groups.find? (fun g => g.running && g.die == d && g.clusters.contains k)

/-- A cluster on which a group may be placed at some time: enabled, outside quarantine, and not among those it has failed on. -/
def eligible (s : State) (d : Nat) (failed : List Nat) (k : Nat) : Bool :=
  (clusterOf s d k).mark == .enabled && !failed.contains (clusterKey d k)

/-- Clusters of a die that are not eligible; every other one is. -/
def ineligible (s : State) (d : Nat) (failed : List Nat) : List Nat :=
  let off : List (Nat × Cluster) := s.clusters.filter (fun x => x.1 / 8192 == d && x.2.mark != .enabled)
  let ks : List Nat := off.map Prod.fst ++ failed.filter (fun x => x / 8192 == d)
  (ks.map (fun x => x % 8192)).dedup

/-- Some clusters of the die can take a group that is placed so. -/
def dieTakes (s : State) (p : Placing) (failed : List Nat) (d : Nat) : Bool :=
  let bad := ineligible s d failed
  match p with
  | .band => (List.range 32).any (fun r => decide ((bad.filter (fun k => k / 256 == r)).length ≤ 240))
  | .grid => (List.range 32).any (fun r =>
      (List.range 16).all (fun i => decide ((bad.filter (fun k => k / 16 == 16 * r + i)).length < 16)))
  | _ => decide (bad.length < 8192)

/-- A retry of a group can be placed on some die of its command (R495). -/
def retryPlaceable (s : State) (dies : Byte) (p : Placing) (failed : List Nat) : Bool :=
  (diesOf dies).any (dieTakes s p failed)

/-- Corner, width and height of a set of clusters that is a rectangle of the mesh (R81). -/
def rectangle (ks : List Nat) : Option (Nat × Nat × Nat × Nat) :=
  match (ks.map clusterX).min?, (ks.map clusterY).min?, (ks.map clusterX).max?, (ks.map clusterY).max? with
  | some x0, some y0, some x1, some y1 =>
    if ks.length = (x1 + 1 - x0) * (y1 + 1 - y0) then some (x0, y0, x1 + 1 - x0, y1 + 1 - y0) else none
  | _, _, _, _ => none

/-- The eligible clusters of a region, rising. -/
def gridClusters (s : State) (d region : Nat) (failed : List Nat) : List Nat :=
  (range (256 * region) 256).filter (eligible s d failed)

/-- Bridles that the running groups of a region hold. -/
def activeBridles (s : State) (d region : Nat) : Nat :=
  ((s.groups.filter (fun g => g.running && g.die == d && g.region == region)).map (fun g => g.bridles.length)).sum

/-! ### Shares and bridles (R146, R150, R151) -/

/-- The clusters missing from a region's grid, each with the cluster of lowest index in its grid row, which computes its share
(R150). -/
def sharesOf (region : Nat) (ks : List Nat) : List (Nat × Nat) :=
  (range (256 * region) 256).filterMap (fun k =>
    if ks.contains k then none else (ks.find? (fun x => x / 16 == k / 16)).map (fun x => (k, x)))

/-- The bridles of a macro tile: one for each grid row and one for each grid column (R151). -/
def bridlesOf (ks : List Nat) : List Bridle :=
  (List.range 16).map (fun i => ⟨true, i, ks.filter (fun k => k / 16 % 16 == i)⟩)
  ++ (List.range 16).map (fun j => ⟨false, j, ks.filter (fun k => k % 16 == j)⟩)

/-- Each grid row has a member, so that every share has its cluster. -/
def everyRow (ks : List Nat) : Bool := (List.range 16).all (fun i => ks.any (fun k => k / 16 % 16 == i))

/-- Clusters on which a group may be placed: eligible, free, and as its placement asks. A grid takes all of a region's eligible
clusters, in rising order, while its bridles are at most 64 (R81, R99, R146, R151, R164, R191, R495). -/
def placeOk (s : State) (d region : Nat) (ks : List Nat) (p : Placing) (failed : List Nat) : Bool :=
  !ks.isEmpty && ks.all (fun k => eligible s d failed k && (groupOn s d k).isNone)
  && (match p with
      | .grid => ks == gridClusters s d region failed && everyRow ks && decide (activeBridles s d region + 32 ≤ 64)
      | .exchange => decide ks.Nodup && (rectangle ks).isSome
      | .band => decide ks.Nodup && ks.all (fun k => k / 256 == region) && ks.length == 16
      | .single => ks.all (fun k => k / 256 == region) && ks.length == 1
      | .free => decide ks.Nodup && ks.all (fun k => k / 256 == region))

/-! ### Strips and halos (R187) -/

/-- The signal of a halo that a member waits for has come. -/
def signalled (s : State) (d : Nat) (w : Nat × Nat) : Bool := smGet 0 (clusterOf s d w.1).signals w.2 != 0

/-- A member reads nothing while the signal of its halo is still to come. Whether a read meets the halo's rows is the program's
affair, so that all its reads wait (log entry 77, DEDUCED). -/
def haloHere (s : State) (d k : Nat) : Bool :=
  (groupOn s d k).elim true (fun g => g.waits.all (fun w => w.1 != k || signalled s d w))

/-- The strip of member `i` of `m` among `n` output rows or columns. -/
def stripOf (n m i : Nat) : List Nat :=
  let r := regionRun n m i
  range r.1 (r.2 - r.1)

/-- Rows (`true`) or columns of X that output row or column `o` reads; rows of different pictures are told apart. -/
def convReads (p : ConvPlan) (rows : Bool) (o : Nat) : List Nat :=
  let source (i : Nat) : Nat := if p.mode = 1 then i / 2 else i
  if rows then
    let oH := p.y.dims.getD 1 1
    (List.range p.kh).filterMap (fun q =>
      (resolvePad p.padMode p.h' (((o % oH * p.sh + q * p.dh : Nat) : Int) - p.padT)).map (fun i =>
        o / oH * p.dim 1 + source i))
  else (List.range p.kw).filterMap (fun q =>
    (resolvePad p.padMode p.w' (((o * p.sw + q * p.dw : Nat) : Int) - p.padL)).map source)

/-- Rows or columns of X that a member's strip needs; `first` is the unit's first output row or column. -/
def stripReads (p : ConvPlan) (rows : Bool) (first n m i : Nat) : List Nat :=
  (stripOf n m i).flatMap (fun o => convReads p rows (first + o))

/-- The member that fetches a row or column: the first in order whose strip needs it (R187). -/
def fetcherOf (p : ConvPlan) (rows : Bool) (first n m x : Nat) : Option Nat :=
  (List.range m).find? (fun i => (stripReads p rows first n m i).contains x)

/-- DH · (KH − 1) rows, or DW · (KW − 1) columns. -/
def haloOf (p : ConvPlan) (rows : Bool) : Nat := if rows then p.dh * (p.kh - 1) else p.dw * (p.kw - 1)

/-- In one direction the halo of a group of `m` members exceeds no neighbour's strip; one member has no neighbour (R187). -/
def haloFits (p : ConvPlan) (rows : Bool) (n m : Nat) : Bool :=
  decide (m ≤ 1) || (List.range m).all (fun i => decide (haloOf p rows ≤ (stripOf n m i).length))

/-- Member `i` waits for its neighbour before it: another member fetches something that its strip needs (R187). -/
def waitsFor (p : ConvPlan) (rows : Bool) (first n m i : Nat) : Bool :=
  (stripReads p rows first n m i).any (fun x => fetcherOf p rows first n m x != some i)

/-- Output rows and columns that a unit covers: the first row and their number, and the first column and their number. -/
def unitSpan (p : ConvPlan) (u : Nat) : Nat × Nat × Nat × Nat :=
  let oW := p.y.dims.getD 2 1
  let r0 := 1024 * (u / (convGrid p).2)
  let r1 := min (r0 + 1024) p.y.rows - 1
  if r0 / oW = r1 / oW then (r0 / oW, 1, r0 % oW, r1 + 1 - r0) else (r0 / oW, r1 / oW + 1 - r0 / oW, 0, oW)

/-- Who waits in an exchange group: a member for its northern neighbour, then for its western one. Directions are numbered as the
counters are. A group whose halo exceeds a neighbour's strip in either direction exchanges nothing (R187). -/
def haloWaits (p : ConvPlan) (u : Nat) (ks : List Nat) : List (Nat × Nat) :=
  match rectangle ks with
  | none => []
  | some (x0, y0, w, h) =>
    let (ro, rn, co, cn) := unitSpan p u
    if !(haloFits p true rn h && haloFits p false cn w) then []
    else ks.flatMap (fun k =>
      (if waitsFor p true ro rn h (clusterY k - y0) then [(k, 0)] else [])
      ++ (if waitsFor p false co cn w (clusterX k - x0) then [(k, 3)] else []))

end Sys2Proof.Machine
end

