-- ==== Sys2Proof/Machine/Clusters.lean ====
section
/-!
DEFINITION. Clusters: scratchpad accesses with their code, scrubbing and injection, neighbour accesses and signals, tile
groups with their dispatch and retries, and the health windows (R75 to R88, R99 to R106, R394, R399, R495).
-/
namespace Sys2Proof.Machine

open Sys2Proof

/-! ### Counters and records of a die's clusters (R106, R429) -/

/-- Adds to the counter at index `k` of R106: ROWS, UNCHECKED, MISMATCH, RETRY, PERSIST, CE, UE, SCRUB_LINES. -/
def bumpDie (s : State) (d k n : Nat) : State := modDie s d (fun b => { b with counters := bump b.counters k n })

/-- Word 0 of SP_CORRECTED: cluster, bank, line, word and bit of a scratchpad word. -/
def spPlace (k a bitPos : Nat) : W64 :=
  BitVec.ofNat 64 (k + a / 16384 % 16 * 2 ^ 13 + a / 64 % 256 * 2 ^ 17 + a / 8 % 8 * 2 ^ 25 + bitPos * 2 ^ 28)

/-- A die-level record of a cluster. -/
def logCluster (s : State) (d : Nat) (ev : Event) (inj : Bool) (d0 d1 : W64) : State :=
  occur s (eventRec s ev d inj none d0 d1 0 0) true

/-! ### Tile groups: placement and failure (R99, R100, R495) -/

def modGroup (s : State) (i : Nat) (f : TileGroup → TileGroup) : State :=
  { s with groups := s.groups.map (fun g => if g.id == i then f g else g) }

/-- Word 0 of CHK_PERSISTENT: three failing cluster indices; one that did not occur repeats the last. -/
def persistWord (failed : List Nat) : W64 :=
  let ix (i : Nat) : Nat := (failed.getD i (failed.getLastD 0)) % 8192
  BitVec.ofNat 64 (ix 0 + ix 1 * 2 ^ 16 + ix 2 * 2 ^ 32)

/-- A group has failed for the last time: its command completes with the status of that failure (R100, R428, R495). -/
def giveUp (s : State) (c : Cmd) (failed : List Nat) (mismatch inj : Bool) : State :=
  let x := failed.getLastD 0
  if mismatch then
    let s := bumpDie s (x / 8192) 4 1
    let s := logCmd (dropGroups s c.uid) c.uid evChkPersistent (x / 8192) inj (persistWord failed) 0 0 0
    failMember (failGraph s c.uid) c .checksumPersistent
  else
    let s := logCmd (dropGroups s c.uid) c.uid evFailed 0 inj (BitVec.ofNat 64 Status.memUncorrectable.code)
      (BitVec.ofNat 64 (x % 8192)) 0 0
    failMember (failGraph s c.uid) c .memUncorrectable

/-- A failure of a group on cluster `k`: a retry while one remains and can be placed, else its command completes
(R99, R100, R428, R495). -/
def failGroup (s : State) (g : TileGroup) (k : Nat) (mismatch inj : Bool) : State :=
  match findCmd s g.cmd with
  | none => { s with groups := s.groups.filter (fun x => x.id != g.id) }
  | some c =>
    let failed := g.failedOn ++ [clusterKey g.die k]
    let again := decide (g.failures + 1 < 3) && retryPlaceable s c.dies g.placing failed
    let s := if mismatch then
        logCluster s g.die evChkMismatch inj (BitVec.ofNat 64 k) (BitVec.ofNat 64 (if again then g.failures + 1 else 0))
      else s
    if again then
      let s := bumpDie s g.die 3 1
      let s := modGroup s g.id (fun x =>
        { x with running := false, clusters := [], failures := x.failures + 1, failedOn := failed, lastMismatch := mismatch
                 lastInjected := inj, shares := [], bridles := [], waits := [] })
      modCmd s c.uid (fun c => { c with retried := true })
    else giveUp s c failed mismatch inj

/-- A group that waits for a retry which can no longer be placed counts as failed for the third time (R495). -/
def settleRetry (s : State) (g : TileGroup) : State :=
  if g.running || g.failedOn.isEmpty || !s.groups.any (fun x => x.id == g.id) then s
  else
    match findCmd s g.cmd with
    | some c => if retryPlaceable s c.dies g.placing g.failedOn then s else giveUp s c g.failedOn g.lastMismatch g.lastInjected
    | none => s

/-- Health events of a cluster (R101). -/
inductive CluEvent where
  | mismatch | ue | ce
  deriving DecidableEq, Repr

/-- Counts an event against a cluster, injected ones outside the windows, and quarantines it at a nonzero limit
(R102, R105). Retries that wait are looked at again then (R495). -/
def countCluster (s : State) (d k : Nat) (e : CluEvent) (inj : Bool) : State :=
  let h := (dieOf s d).health
  let (ix, lim, cause) := match e with
    | .mismatch => (2, h.mismatchLimit.toNat, 0)
    | .ue => (6, h.ueLimit.toNat, 1)
    | .ce => (5, h.ceLimit.toNat, 2)
  let s := bumpDie s d ix 1
  if inj then s
  else
    let c := clusterOf s d k
    let c := match e with
      | .mismatch => { c with mismatchWin := c.mismatchWin + 1 }
      | .ue => { c with ueWin := c.ueWin + 1 }
      | .ce => { c with ceWin := c.ceWin + 1 }
    let n := match e with | .mismatch => c.mismatchWin | .ue => c.ueWin | .ce => c.ceWin
    let s := setCluster s d k c
    if lim ≠ 0 && decide (lim ≤ n) then
      let s := quarantine s d k cause
      s.groups.foldl settleRetry s
    else s

/-- An access that a program may not make completes the command of the group with ILLEGAL_DESCRIPTOR (R78, R81). -/
def illegalAccess (s : State) (g : Option TileGroup) : State :=
  match g.bind (fun g => findCmd s g.cmd) with
  | none => s
  | some c =>
    let s := logCmd (dropGroups s c.uid) c.uid evFailed 0 false (BitVec.ofNat 64 Status.illegalDescriptor.code) 0 0 0
    failMember (failGraph s c.uid) c .illegalDescriptor

/-! ### Scratchpad words (R78, R80, R84, R105) -/

/-- First byte beyond the twelve banks. -/
def spEnd : Nat := 0x30000

/-- Stored bits that a disturbance flips. -/
def flipMask : SpFlips → BitVec 72
  | .none => 0
  | .single b => BitVec.twoPow 72 b.val
  | .double a b => BitVec.twoPow 72 a.val ||| BitVec.twoPow 72 b.val

/-- Positions of the set bits. -/
def flipBits (x : BitVec 72) : List Nat := (List.range 72).filter (bit x)

def lineWritten (c : Cluster) (a : Nat) : Bool := smGet false c.written (a / 64)

def spWord (c : Cluster) (a : Nat) : SpWord := smGet SpWord.dflt c.words (a / 8)

def setSpWord (s : State) (d k a : Nat) (w : SpWord) : State :=
  modCluster s d k (fun c => { c with words := smSet SpWord.dflt c.words (a / 8) w })

/-- A free value of seven bits. -/
def freeBit7 (s : State) : Nat × State := ((Config.freeWord s.freeCount).toNat % 128, { s with freeCount := s.freeCount + 1 })

/-- What reading a stored word finds (R84). Three and more errors count as two (log entry 10). -/
inductive SpRead where
  | data (w : W64)
  | uncorrectable (injected : Bool)
  deriving DecidableEq, Repr

/-- Reads a stored word after a disturbance: a single error is corrected, written back, counted and logged. The bit position
that an uncorrectable error's record gives is free (log entry 10). -/
def readStored (s : State) (d k a : Nat) (flips : BitVec 72) (scrub : Bool) : SpRead × State :=
  let w := spWord (clusterOf s d k) a
  let f := w.flips ^^^ flips
  match w.poison, flipBits f with
  | false, [] => (.data w.data, setSpWord s d k a { w with flips := 0, injected := false })
  | false, [b] =>
    let s := setSpWord s d k a { w with flips := 0, injected := false }
    let s := countCluster s d k .ce w.injected
    (.data w.data, logCluster s d evSpCorrected w.injected (spPlace k a b) 0)
  | p, _ =>
    if p && scrub then (.uncorrectable w.injected, s)
    else
      let s := setSpWord s d k a { w with flips := f, poison := p || scrub }
      let s := countCluster s d k .ue w.injected
      let (b, s) := freeBit7 s
      (.uncorrectable w.injected, logCluster s d evSpUncorrected w.injected (spPlace k a b) (if scrub then 1 else 0))

/-- Reads a word for a program: an unwritten line reads as zeros, and an uncorrectable error fails the group that issued the
read (R80, R84, R85). -/
def readWord (s : State) (d k a : Nat) (flips : BitVec 72) : Option W64 × State :=
  if !lineWritten (clusterOf s d k) a then (some 0, s)
  else
    match readStored s d k a flips false with
    | (.data w, t) => (some w, t)
    | (.uncorrectable inj, t) =>
      match groupOn s d k with
      | some g => (none, failGroup t g k false inj)
      | none => (none, t)

/-- The first write to a line fills the rest of it with zeros (R80). -/
def touchLine (s : State) (d k a : Nat) : State :=
  if lineWritten (clusterOf s d k) a then s
  else
    let base := a / 64 * 64
    let s := (List.range 8).foldl (fun s i => setSpWord s d k (base + 8 * i) SpWord.dflt) s
    modCluster s d k (fun c => { c with written := smSet false c.written (a / 64) true })

/-- Writes bytes within one word; a write of the whole word clears its poison and its errors (R88). The bank's own read for a partial
write (R79) is none of the reads of R84: it corrects, counts and raises nothing, and the word keeps its errors and its poison (log
entry 75, DESIGN CHOICE). -/
def writeInWord (s : State) (d k a : Nat) (bs : List Byte) : State :=
  let s := touchLine s d k a
  let w := spWord (clusterOf s d k) a
  if bs.length = 8 then setSpWord s d k a { SpWord.dflt with data := bytesToBv 64 bs }
  else setSpWord s d k a { w with data := setField w.data (8 * (a % 8)) (8 * bs.length) (bytesToNat bs) }

/-- The pieces of a write, word by word, rising. -/
def wordPieces : Nat → Nat → List Byte → List (Nat × List Byte)
  | 0, _, _ => []
  | _ + 1, _, [] => []
  | n + 1, a, bs =>
    let m := min (8 - a % 8) bs.length
    (a, bs.take m) :: wordPieces n (a + m) (bs.drop m)

/-- An armed injection of KIND 1 or 2 on this cluster flips check bits of the word at `a` (R105). -/
def injectWord (s : State) (d k a : Nat) : State :=
  let r := (dieOf s d).cluInj
  let kind := fieldN r 16 2
  if bit r 31 && fieldN r 0 13 == k && (kind == 1 || kind == 2) then
    let w := spWord (clusterOf s d k) a
    let s := setSpWord s d k a
      { w with flips := if kind = 1 then BitVec.twoPow 72 64 else BitVec.twoPow 72 64 ||| BitVec.twoPow 72 65, injected := true }
    modDie s d (fun b => { b with cluInj := setField b.cluInj 31 1 0 })
  else s

/-- Writes scratchpad bytes; the lowest-addressed word supplied takes an armed injection. -/
def spStore (s : State) (d k a : Nat) (bs : List Byte) : State :=
  if bs.isEmpty then s
  else injectWord ((wordPieces bs.length a bs).foldl (fun s x => writeInWord s d k x.1 x.2) s) d k (a / 8 * 8)

/-- Reads the words that hold `n` bytes from `a`; `none` after an uncorrectable word. -/
def spLoadWords : Nat → State → Nat → Nat → Nat → Option (List Byte) × State
  | 0, s, _, _, _ => (some [], s)
  | n + 1, s, d, k, a =>
    match readWord s d k a 0 with
    | (none, t) => (none, t)
    | (some w, t) =>
      match spLoadWords n t d k (a + 8) with
      | (none, t) => (none, t)
      | (some bs, t) => (some (bvToBytes 8 w ++ bs), t)

/-- Reads scratchpad bytes. -/
def spLoad (s : State) (d k a n : Nat) : Option (List Byte) × State :=
  match spLoadWords ((a % 8 + n + 7) / 8) s d k (a / 8 * 8) with
  | (some bs, t) => (some ((bs.drop (a % 8)).take n), t)
  | (none, t) => (none, t)

/-- The cluster has power and is no hole (R77). -/
def present (s : State) (d k : Nat) : Bool := (clusterOf s d k).mark != .mappedOut

/-- Sets what the last read answered. -/
def answer (s : State) (a : Answer) : State := { s with io := { s.io with answer := a } }

/-- SP_READ: one aligned word for a program; nothing is delivered of an uncorrectable one, and a member of an exchange group waits for
its halo first (R78, R84, R187). -/
def execSpRead (d : DieIx) (k : ClusterIx) (addr : BitVec 18) (_user : SpUser) (flips : SpFlips) (s : State) :
    Host.Outcome State Fault Refusal :=
  let a := addr.toNat / 8 * 8
  .next (if !present s d.val k.val then s
    else if spEnd ≤ a then illegalAccess s (groupOn s d.val k.val)
    else if !haloHere s d.val k.val then answer s .none
    else
      match readWord s d.val k.val a (flipMask flips) with
      | (some w, t) => answer t (.value w)
      | (none, t) => answer t .none)

/-- Whom a delivery reaches: the members of the bridle that `k` belongs to, else `k` alone (R151). -/
def deliveredTo (s : State) (d k : Nat) : Option Bool → List Nat
  | none => [k]
  | some row =>
    (((groupOn s d k).elim [] TileGroup.bridles).find? (fun b => b.row == row && b.members.contains k)).elim [k] Bridle.members

/-- SP_WRITE (R78, R80): a tile of a bridle is delivered to every member (R151). -/
def execSpWrite (d : DieIx) (k : ClusterIx) (addr : BitVec 18) (data : SpData) (s : State) :
    Host.Outcome State Fault Refusal :=
  .next (if !present s d.val k.val then s
    else if spEnd < addr.toNat + data.bytes.length then illegalAccess s (groupOn s d.val k.val)
    else (deliveredTo s d.val k.val data.bridle).foldl (fun s m => spStore s d.val m addr.toNat data.bytes) s)

/-! ### Scrubbing (R86 to R88) -/

/-- Scrubs the words of a line; `w` is the word that the disturbance met. -/
def scrubWords (s : State) (d k base w : Nat) (flips : BitVec 72) : State :=
  (List.range 8).foldl (fun s i => (readStored s d k (base + 8 * i) (if i = w then flips else 0) true).2) s

/-- SP_SCRUB_READ: the next line of an enabled cluster while lines are outstanding. -/
def execSpScrubRead (d : DieIx) (k : ClusterIx) (word : Fin 8) (flips : SpFlips) (s : State) :
    Host.Outcome State Fault Refusal :=
  let c := clusterOf s d.val k.val
  let b := dieOf s d.val
  .next (if c.mark != .enabled || b.scrubLines = 0 || decide (b.scrubQuota ≤ c.scrubbed) then s
    else
      let s := scrubWords s d.val k.val (64 * c.scrubLine) word.val (flipMask flips)
      let s := modCluster s d.val k.val (fun c => { c with scrubLine := (c.scrubLine + 1) % 3072, scrubbed := c.scrubbed + 1 })
      bumpDie s d.val 7 1)

/-- Scrub lines outstanding on a die at the end of an epoch. -/
def linesOutstanding (s : State) (d : Nat) : Nat :=
  let q := (dieOf s d).scrubQuota
  let listed := s.clusters.filter (fun x => x.1 / 8192 == d && x.2.mark == .enabled)
  (usableClusters s d - listed.length) * q + (listed.map (fun x => q - x.2.scrubbed)).sum

/-- The next scrub epoch of a die begins now. A new LINES or EPOCH_LOG2 takes effect where the new setting has a boundary; at any
other boundary the settings in force go on (R87). -/
def beginScrubEpoch (s : State) (d : Nat) : State :=
  modDie s d (fun b =>
    let e := fieldN b.scrubCfg 0 5
    let new := boundaryNow s e
    let lines := if new then fieldN b.scrubCfg 8 12 else b.scrubLines
    { b with scrubLines := lines, scrubEpoch := if new then e else b.scrubEpoch, scrubQuota := b.scrubQuota + lines
             scrubBegan := s.time.now })

/-- SP_SCRUB_EPOCH_END: at a boundary of the scrub epoch, outstanding lines carry over with BEHIND and a record (R86, R87). -/
def execSpScrubEpochEnd (d : DieIx) (s : State) : Host.Outcome State Fault Refusal :=
  let b := dieOf s d.val
  .next (if epochEnds s b.scrubEpoch (fieldN b.scrubCfg 0 5) b.scrubBegan then
      let n := linesOutstanding s d.val
      beginScrubEpoch (if n = 0 then s
        else logEvent (modDie s d.val (fun b => { b with scrubCfg := setField b.scrubCfg 24 1 1 })) evScrubBehind d.val
          (BitVec.ofNat 64 n) 0) d.val
    else s)

/-! ### Neighbours (R76, R81 to R83) -/

/-- Directions as indices of the four counters. -/
def dirIx : Dir → Nat
  | .north => 0
  | .east => 1
  | .south => 2
  | .west => 3

def dirOpposite : Dir → Dir
  | .north => .south
  | .east => .west
  | .south => .north
  | .west => .east

/-- The mesh neighbour in a direction: north is y − 1, east is x + 1 (log entry 34). -/
def neighbourOf (s : State) (d k : Nat) (dir : Dir) : Option Nat :=
  let x := clusterX k
  let y := clusterY k
  let n := match dir with
    | .north => if y = 0 then none else some (clusterAt x (y - 1))
    | .south => if y = 63 then none else some (clusterAt x (y + 1))
    | .east => if x = 127 then none else some (clusterAt (x + 1) y)
    | .west => if x = 0 then none else some (clusterAt (x - 1) y)
  n.filter (present s d)

/-- The neighbour of a cluster within its running group; `some none` outside the group, `none` without a group. -/
def groupNeighbour (s : State) (d k : Nat) (dir : Dir) : Option (Option Nat) :=
  (groupOn s d k).map (fun g => (neighbourOf s d k dir).filter (fun n => g.clusters.contains n))

/-- NEIGHBOUR_ACCESS: performed in a neighbour of the same group; toward any other direction the command completes with
ILLEGAL_DESCRIPTOR (R81, R82). -/
def execNeighbourAccess (d : DieIx) (k : ClusterIx) (dir : Dir) (addr : BitVec 18) (op : NeighbourOp) (s : State) :
    Host.Outcome State Fault Refusal :=
  let len := match op with | .read n => n | .write bs => bs.length
  .next (match groupNeighbour s d.val k.val dir with
    | none => s
    | some none => illegalAccess s (groupOn s d.val k.val)
    | some (some n) =>
      if spEnd < addr.toNat + len then illegalAccess s (groupOn s d.val k.val)
      else match op with
        | .write bs => spStore s d.val n addr.toNat bs
        | .read m =>
          match spLoad s d.val n addr.toNat m with
          | (some bs, t) => answer t (.bytes bs)
          | (none, t) => answer t .none)

/-- NEIGHBOUR_SIGNAL: the neighbour's counter for the opposite direction, saturating (R83). -/
def execNeighbourSignal (d : DieIx) (k : ClusterIx) (dir : Dir) (s : State) : Host.Outcome State Fault Refusal :=
  .next (match groupNeighbour s d.val k.val dir with
    | none => s
    | some none => illegalAccess s (groupOn s d.val k.val)
    | some (some n) =>
      modCluster s d.val n (fun c =>
        let i := dirIx (dirOpposite dir)
        let v := (smGet 0 c.signals i).toNat
        { c with signals := smSet 0 c.signals i (BitVec.ofNat 32 (saturate 32 (v + 1))) }))

/-! ### Dispatch of tile groups (R394, R399) -/

/-- COPY and FILL, whose units run on the movers (R384). -/
def moverOp (op : Nat) : Bool := op == 0x08 || op == 0x09

/-- What the sequencer dispatches of a command: what its opcode does, its context and its number of units. For a REFINE these
are its current graph command's, after that one's checks (R226, R373). -/
def groupWork (s : State) (c : Cmd) : CmdM (Option (OpSem × Ctx × Nat)) := do
  let op := opcodeOf c.desc
  let k := ctxOf s c
  if op == 0x30 then
    match ← rowSem k c.refine with
    | some x => do
      let n ← x.units k
      pure (some (x, k, n))
    | none =>
      match ← refineWork k c with
      | none => pure none
      | some (x, kc) =>
        let d := kc.desc
        if codecOp (opcodeOf d) || groupCmd { c with desc := d } then pure none
        else do
          rejectOn (x.fetch d)
          let _ ← x.start kc
          let s ← get
          let kc := { kc with rows := (findCmd s c.uid).bind Cmd.rows, segs := (findCmd s c.uid).elim [] Cmd.segs }
          let n ← x.units kc
          pure (some (x, kc, n))
  else if op == 0x18 && groupCmd c then do
    let s ← get
    pure ((← shardUnits s c).map (fun y =>
      (⟨fetchAttend, startAttend, fun _ => pure y.2, fun _ k u => runShardUnit k y.1 u⟩, k, y.2)))
  else if codecOp op || groupCmd c then pure none
  else
    match opSem op with
    | none => pure none
    | some x => do
      let n ← x.units k
      pure (some (x, k, n))

/-- The phase of its walk that a command's work is in, and how its groups are placed. -/
def groupLayout (s : State) (c : Cmd) : CmdM (Option (List Nat × Placing)) := do
  match ← groupWork s c with
  | none => pure none
  | some (_, k, n) => do
    match (← walkOf k n).find? (fun ws => ws.any (fun u => !c.unitsDone.contains u)) with
    | none => pure none
    | some w => do pure (some (w, ← placingOf k))

/-- The layout of a command's work, when its units can be read now. -/
def layoutOf (s : State) (c : Cmd) : Option (List Nat × Placing) :=
  if c.unitsDone.contains workDone then none
  else
    match ((groupLayout s c).run.run s).1 with
    | .ok x => x
    | .error _ => none

/-- A unit is neither done nor in a group. -/
def untaken (s : State) (c : Cmd) (u : Nat) : Bool :=
  !c.unitsDone.contains u && !s.groups.any (fun g => g.cmd == c.uid && g.unit == u)

/-- The group of a command that waits for its retry. -/
def waitingRetry (s : State) (c : Cmd) : Option TileGroup := s.groups.find? (fun g => g.cmd == c.uid && !g.running)

/-- A command has a tile group ready: a retry, or an untaken unit of its walk. -/
def hasReady (s : State) (c : Cmd) : Bool :=
  (waitingRetry s c).isSome || (layoutOf s c).elim false (fun x => x.1.any (untaken s c))

/-- The group that a region starts of a command: its retry, or a new one of the next unit that the region takes (R148). -/
def readyGroup (s : State) (c : Cmd) (d region : Nat) : Option TileGroup :=
  match waitingRetry s c with
  | some g => some g
  | none =>
    match layoutOf s c with
    | none => none
    | some (walk, p) =>
      let (g, n) := regionNumber s (cmdPart s c) d region
      (takeTile walk (untaken s c) n g).map (fun u => TileGroup.fresh s.nextGroup c.uid u p)

/-- A started command may start a tile group on a die: its context is open for GUARD ticks more, or it runs on. -/
def mayDispatch (s : State) (d : Nat) (c : Cmd) : Bool :=
  goesOn c && hasDie c.dies d && startsGroups s c && hasReady s c

/-- The better of two commands by R394 rule 1: earlier deadline, lower ring, earlier submission. An instance of a graph command
stands as its REFINE. -/
def deadlineFirst (s : State) (a b : Cmd) : Cmd :=
  let x := deadlineOf (rootOf s a).desc
  let y := deadlineOf (rootOf s b).desc
  if x = y then (if decide (a.ring < b.ring) || (a.ring == b.ring && decide (a.sub < b.sub)) then a else b)
  else if later y x then a else b

/-- The least element of a list by a choice of two. -/
def best (f : Cmd → Cmd → Cmd) : List Cmd → Option Cmd
  | [] => none
  | c :: cs => some (cs.foldl f c)

/-- The context whose turn it is among those with ready work (R394 rule 2). -/
def turnContext (s : State) (r : DispatchRound) (tags : List Nat) : Option Nat :=
  if tags.contains r.turnCtx && decide (r.turnUsed < ctxWeight (ctxEntry s r.turnCtx)) then some r.turnCtx
  else
    match (tags.filter (fun t => decide (r.turnCtx < t))).min? with
    | some t => some t
    | none => tags.min?

/-- The command whose tile group the die starts next, and the round afterwards (R394). -/
def chooseCmd (s : State) (d : Nat) : Option (Cmd × DispatchRound) :=
  let r0 := roundOf s d
  let r := if r0.starts = 16 then { r0 with starts := 0, background := 0 } else r0
  let ready := (allCmds s).filter (mayDispatch s d)
  let urgent := ready.filter (fun c => deadlineOf (rootOf s c).desc != 0)
  let rest := ready.filter (fun c => deadlineOf (rootOf s c).desc == 0)
  let owed := (match partOfDie s d with | some p => (partOf s p).bgReserve.toNat | none => 0) - r.background
  let held := !rest.isEmpty && decide (16 - r.starts ≤ owed)
  match (if held then none else best (deadlineFirst s) urgent) with
  | some c => some (c, { r with starts := r.starts + 1 })
  | none =>
    match turnContext s r (rest.map (fun c => ctxTag c.desc)) with
    | none => none
    | some t =>
      (best (fun a b => if a.uid < b.uid then a else b) (rest.filter (fun c => ctxTag c.desc == t))).map (fun c =>
        (c, { starts := r.starts + 1, background := r.background + 1, turnCtx := t
              turnUsed := if t = r.turnCtx && decide (r.turnUsed < ctxWeight (ctxEntry s t)) then r.turnUsed + 1 else 1 }))

/-- A tile group starts on its clusters: written bits and signal counters are cleared (R80, R83). -/
def clearClusters (s : State) (d : Nat) (ks : List Nat) : State :=
  ks.foldl (fun s k => modCluster s d k (fun c => { c with written := [], signals := [] })) s

/-- Who waits for a halo in a group of CONV. -/
def groupWaits (s : State) (c : Cmd) (g : TileGroup) (ks : List Nat) : List (Nat × Nat) :=
  if g.placing != .exchange then []
  else
    let m : CmdM (List (Nat × Nat)) := do
      match ← groupWork s c with
      | some (_, k, _) => do
        let (p, _) ← convPlan k
        pure (haloWaits p g.unit ks)
      | none => pure []
    match (m.run.run s).1 with
    | .ok l => l
    | .error _ => []

/-- A group as it runs on its clusters, with its shares, bridles and waits (R150, R151, R187). -/
def placedGroup (s : State) (d region : Nat) (ks : List Nat) (c : Cmd) (g : TileGroup) : TileGroup :=
  { g with
    running := true, die := d, region := region, clusters := ks
    shares := if g.placing == .grid then sharesOf region ks else []
    bridles := if g.placing == .grid then bridlesOf ks else []
    waits := groupWaits s c g ks }

/-- Starts a group of the chosen command. -/
def startGroup (s : State) (d region : Nat) (ks : List Nat) (c : Cmd) (g : TileGroup) : State :=
  let s := ((groupWork s c).run.run s).2
  let s := clearClusters s d ks
  let x := placedGroup s d region ks c g
  if s.groups.any (fun y => y.id == g.id) then modGroup s g.id (fun _ => x)
  else { s with groups := s.groups ++ [x], nextGroup := s.nextGroup + 1 }

/-- COPY and FILL take no cluster; another command's group is placed on the clusters given (R384, R495). -/
def groupFits (s : State) (d region : Nat) (ks : List Nat) (c : Cmd) (g : TileGroup) : Bool :=
  if moverOp (opcodeOf c.desc) then ks.isEmpty else placeOk s d region ks g.placing g.failedOn

/-- TILE_GROUP_START: the die's choice by R394, in the region that starts it, placed on the given clusters. -/
def execTileGroupStart (d : DieIx) (region : Fin 32) (clusters : List ClusterIx) (s : State) :
    Host.Outcome State Fault Refusal :=
  let ks := clusters.map Fin.val
  .next (match chooseCmd s d.val with
    | none => s
    | some (c, r) =>
      match readyGroup s c d.val region.val with
      | none => s
      | some g =>
        if groupFits s d.val region.val ks c g then startGroup (setRound s d.val r) d.val region.val ks c g else s)

/-- Performs a group's unit and marks it done. -/
def endUnit (s : State) (g : TileGroup) (c : Cmd) : CmdM Bool := do
  match ← groupWork s c with
  | none => pure false
  | some (x, k, n) => do
    x.unit false k g.unit
    markUnit k g.unit
    let done := (findCmd (← get) c.uid).elim [] Cmd.unitsDone
    pure (opcodeOf c.desc != 0x30 && !groupCmd c && (List.range n).all (fun u => done.contains u))

/-- TILE_GROUP_END: the group's outputs are written and its unit is done; this is a tile boundary of its command (R406,
R411). A group ends behind the last signal that a member waits for (R187). -/
def execTileGroupEnd (i : Nat) (s : State) : Host.Outcome State Fault Refusal :=
  .next (match s.groups.find? (fun g => g.id == i && g.running && g.waits.all (signalled s g.die)) with
    | none => s
    | some g =>
      match findCmd s g.cmd with
      | none => { s with groups := s.groups.filter (fun x => x.id != i) }
      | some c =>
        match (endUnit s g c).run.run s with
        | (.ok all, t) =>
          let t := { t with groups := t.groups.filter (fun x => x.id != i) }
          if all then finishUnits t c.uid else boundaryOf t c.uid
        | (.error .wait, t) => settleStop s t c.uid .wait
        | (.error e, t) => stopUnits s (dropGroups t c.uid) c e)

/-! ### Health windows and injection (R101, R105, R270) -/

/-- A die's next health window begins: the counts of its clusters, channels and rows start again, and new limits apply. -/
def endHealthWindow (s : State) (d : Nat) : State :=
  let s := { s with
    clusters := smMap Cluster.dflt (fun i => i / 8192 == d) (fun c => { c with mismatchWin := 0, ueWin := 0, ceWin := 0 })
      s.clusters
    chans := smMap Chan.dflt (fun i => i / 64 == d) (fun c => { c with ueWin := 0, ceWin := 0, rowCe := [] }) s.chans }
  modDie s d (fun b =>
    { b with healthBegan := s.time.now
             health :=
        ⟨field b.chkCfg 0 6, field b.chkCfg 8 4, field b.chkCfg 12 4, field b.chkCfg 16 12, field b.healthCfg 0 8,
          field b.healthCfg 8 8⟩ })

/-- HEALTH_WINDOW_END: at a multiple of 2^WINDOW_LOG2 in TL40, by the setting in force. -/
def execHealthWindowEnd (d : DieIx) (s : State) : Host.Outcome State Fault Refusal :=
  let b := dieOf s d.val
  .next (if atBoundary s b.health.windowLog2.toNat b.healthBegan then endHealthWindow s d.val else s)

/-- The rules of R105 for a write of an injection register whose fields other than ARM lie in `mask`: `none` when it is
ignored and logged. -/
def armWrite (old new mask : W32) (kindLo : Nat) : Option W32 :=
  if bit old 31 && (old &&& mask) != (new &&& mask) then none
  else if bit new 31 && fieldN new kindLo 2 == 0 then none
  else some ((new &&& mask) ||| (if bit old 31 || bit new 31 then BitVec.twoPow 32 31 else 0))

end Sys2Proof.Machine
end

