-- ==== Sys2Proof/Machine/Array.lean ====
section
/-!
DEFINITION. The matrix array: one pass of streamed rows through a loaded stationary tile, its accumulator slots, and its
checksums (R89 to R98). Where the operands of a pass lie in the scratchpad is log entry 35.
-/
namespace Sys2Proof.Machine

open Sys2Proof

/-! ### Pairings and slots (R89, R91) -/

/-- K-rows of a stationary tile. -/
def pairingDepth : Pairing → Nat
  | .byte8 => 16
  | .half => 16
  | .fp4 => 32
  | .mx8 => 32
  | .mx4 => 32

/-- The row of R89 that two formats belong to. -/
def pairingOf (a b : Fmt) : Option Pairing :=
  match pathOf a b with
  | some .ordered => some .half
  | some .mx => some (if a == .mx .e2m1 then .mx4 else .mx8)
  | some .exact => some (if a == .flt .e2m1 then .fp4 else .byte8)
  | none => none

/-- The path of a pairing. -/
def pairingPath : Pairing → Path
  | .byte8 => .exact
  | .fp4 => .exact
  | .mx8 => .mx
  | .mx4 => .mx
  | .half => .ordered

/-! ### The loaded tile (R89, R93, R95) -/

/-- The format of a tile's elements. -/
def Tile.elem (t : Tile) : Fmt := (fmtOf t.fmt.toNat).getD (.flt .e4m3)

/-- Value of W[k][n], without a block scale. -/
def Tile.at (t : Tile) (k n : Nat) : Val := elemVal t.elem (t.codes.getD (16 * k + n) 0) 0x7F

/-- Column n. -/
def Tile.col (t : Tile) (n : Nat) : List Val := (List.range (pairingDepth t.pairing)).map (fun k => t.at k n)

/-- Row k. -/
def Tile.row (t : Tile) (k : Nat) : List Val := (List.range 16).map (fun n => t.at k n)

/-- A NaN or infinity in the tile, or a NaN block scale: no row of its passes is compared (R98). -/
def Tile.bad (t : Tile) : Bool :=
  (List.range (pairingDepth t.pairing)).any (fun k => (t.row k).any (fun v => !isFinite v)) || t.scales.any (· == 0xFF)

def sumX (vs : List Val) : Val := vs.foldl addX (.zero false)

/-- A checksum entry: exact, or rounded once to binary32 on the ordered path. -/
def checkEntry (p : Path) (vs : List Val) : Val := if p == .ordered then roundBin b32 .nearest (sumX vs) else sumX vs

/-- The checksum column c_k. -/
def Tile.colSums (t : Tile) : List Val := (List.range (pairingDepth t.pairing)).map (fun k => checkEntry (pairingPath t.pairing) (t.row k))

/-! ### Comparisons (R96, R97) -/

def upAdd (a b : Val) : Val := roundBin b32 .up (addX a b)
def upMul (a b : Val) : Val := roundBin b32 .up (mulX a b)

/-- 2^-18 · x + 2^-140, rounded toward +infinity. -/
def tauOf (x : Val) : Val := upAdd (upMul x (.fin false 1 (-18))) (.fin false 1 (-140))

/-- |D| > tau. -/
def exceeds (d tau : Val) : Bool := ltV tau (absX d)

/-- A value off by `n` units of place `e`. -/
def offBy (v : Val) (n : Int) (e : Int) : Val :=
  if n = 0 then v else addX v (.fin (decide (n < 0)) n.natAbs e)

/-- The last place of an exact contribution: every product is a multiple of it (R42). -/
def exactPlace : Int := -32

/-- Column `n`'s deviation in a row slot. -/
def defectAt (p : Pass) (slot n : Nat) : Int :=
  match p.defect with
  | some x => if x.row = slot && x.column.val = n then x.delta else 0
  | none => 0

/-- The value that a column of the ordered path gives for the check vector: ones, then −1 against the checksum row. -/
def checkChain (ws : List Val) (r : Val) : Val := ffma (negX one) r (ws.foldl (fun v w => ffma one w v) (.zero false))

/-- The check vector's comparison finds a mismatch (R96, R97). -/
def checkVectorBad (t : Tile) (p : Pass) : Bool :=
  let path := (pairingPath t.pairing)
  (List.range 17).any (fun n =>
    let ws := if n = 16 then t.colSums else t.col n
    if path == .ordered then
      let v := checkChain ws (checkEntry path ws)
      let v := offBy v (defectAt p 0 n) (lsbF32 v)
      exceeds v (tauOf (ws.foldl (fun a w => upAdd a (absX w)) (.zero false)))
    else !isZero (offBy (addX (sumX ws) (negX (checkEntry path ws))) (defectAt p 0 n) exactPlace))

/-! ### One data row (R90, R96 to R98) -/

/-- What a row gives: new slots, whether it is compared, and whether the comparison fails. -/
structure RowResult where
  slots : List Acc
  compared : Bool
  bad : Bool
  deriving DecidableEq, Repr

/-- A row on the exact and MX paths. `xa` is the row's block scale code; `inj` alters the checksum column by one. -/
def exactRow (t : Tile) (p : Pass) (slot : Nat) (xa : Nat) (a : List Val) (accs : List Acc) (inj : Bool) : RowResult :=
  let path := (pairingPath t.pairing)
  let contrib (n : Nat) : Acc :=
    let c := dotExact (Acc.start .exact) (a.zip (t.col n))
    { c with v := offBy c.v (defectAt p slot n) exactPlace }
  let cs := (List.range 16).map contrib
  let chk := offBy (offBy (sumX ((a.zip t.colSums).map (fun x => mulX x.1 x.2))) (defectAt p slot 16) exactPlace)
    (if inj then 1 else 0) exactPlace
  let nanScale := path == .mx && xa = 0xFF
  let compared := !t.bad && a.all isFinite && !nanScale && cs.all (fun c => !c.nan && !c.pinf && !c.ninf)
  let put (n : Nat) : Acc :=
    let c := cs.getD n (Acc.start path)
    let acc := accs.getD n (Acc.start path)
    let xb := (t.scales.getD n 0x7F).toNat
    let bad := path == .mx && (xa = 0xFF || xb = 0xFF)
    let v := if path == .mx then
        (if bad then acc.v else round48 (addX acc.v (scaleVal c.v ((xa : Int) - 127 + ((xb : Int) - 127)))))
      else addX acc.v c.v
    ⟨v, acc.nan || c.nan || bad, acc.pinf || c.pinf, acc.ninf || c.ninf⟩
  ⟨(List.range 16).map put, compared, compared && !eqV (sumX (cs.map Acc.v)) chk⟩

/-- A row on the ordered path. In τ each |a_k| · C_k is added onto the running sum of the |acc_in[n]|, in ascending k: R97 fixes no
more of the order (log entry 75, DESIGN CHOICE). -/
def orderedRow (t : Tile) (p : Pass) (slot : Nat) (a : List Val) (accs : List Acc) (inj : Bool) : RowResult :=
  let accIn := (List.range 16).map (fun n => (accs.getD n (Acc.start .ordered)).v)
  let out (n : Nat) : Val :=
    let v := (a.zip (t.col n)).foldl (fun v x => ffma x.1 x.2 v) (accIn.getD n (.zero true))
    offBy v (defectAt p slot n) (lsbF32 v)
  let outs := (List.range 16).map out
  let chk0 := (a.zip t.colSums).foldl (fun v x => ffma x.1 x.2 v) (.zero false)
  let chk := offBy (offBy chk0 (defectAt p slot 16) (lsbF32 chk0)) (if inj then 1 else 0) (lsbF32 chk0)
  let compared := !t.bad && a.all isFinite && accIn.all isFinite && outs.all isFinite
  let d := addX (sumX ((List.zip outs accIn).map (fun x => addX x.1 (negX x.2)))) (negX chk)
  let mags := (List.range (pairingDepth t.pairing)).map (fun k => (t.row k).foldl (fun v w => addX v (absX w)) (.zero false))
  let sumIn := accIn.foldl (fun v x => upAdd v (absX x)) (.zero false)
  let sumA := (a.zip mags).foldl (fun v x => upAdd v (upMul (absX x.1) (roundBin b32 .up x.2))) sumIn
  ⟨outs.map (fun v => ⟨v, false, false, false⟩), compared, compared && exceeds d (tauOf sumA)⟩

/-! ### A pass -/

/-- An injection of KIND 3 is armed for this cluster (R105). -/
def mismatchArmed (s : State) (d k : Nat) : Bool :=
  let r := (dieOf s d).cluInj
  bit r 31 && fieldN r 0 13 == k && fieldN r 16 2 == 3

/-- A comparison has failed: the event is counted and the cluster's group fails (R99). -/
def passMismatch (s : State) (d k : Nat) (inj : Bool) : State :=
  let g := groupOn s d k
  let s := countCluster s d k .mismatch inj
  match g with
  | some g => failGroup s g k true inj
  | none => logCluster s d evChkMismatch inj (BitVec.ofNat 64 k) 0

/-- Writes a row's slots. -/
def storeSlots (s : State) (d k : Nat) (path : Path) (p : Pass) (m : Nat) (slots : List Acc) : State :=
  spStore s d k (p.slotAddr.toNat + m * (16 * slotSize path)) (slots.flatMap (encodeSlot path))

/-- Compares a row and commits its slots, or ends the pass (R92, R106). Answers whether the pass goes on. -/
def commitRow (s : State) (d k : Nat) (t : Tile) (p : Pass) (m : Nat) (f : Bool → RowResult) : Bool × State :=
  let path := (pairingPath t.pairing)
  let r0 := f false
  let inj := r0.compared && mismatchArmed s d k
  let r := if inj then f true else r0
  let s := bumpDie s d (if r.compared then 0 else 1) 1
  let s := if inj then modDie s d (fun b => { b with cluInj := setField b.cluInj 31 1 0 }) else s
  if r.bad then (false, passMismatch s d k inj) else (true, storeSlots s d k path p m r.slots)

/-- Streams `n` data rows from row `m` on; an uncorrectable word or a mismatch ends the pass. -/
def passRows : Nat → Nat → State → Nat → Nat → Tile → Fmt → Pass → State
  | 0, _, s, _, _, _, _, _ => s
  | n + 1, m, s, d, k, t, sf, p =>
    let path := (pairingPath t.pairing)
    let rowBytes := (pairingDepth t.pairing) * sf.bits / 8
    let slot := m + (if p.loadTile then 1 else 0)
    match spLoad s d k (p.rowsAddr.toNat + m * rowBytes) rowBytes with
    | (none, s) => s
    | (some bs, s) =>
      match (if path == .mx then spLoad s d k (p.rowScaleAddr.toNat + m) 1 else (some [0x7F], s)) with
      | (none, s) => s
      | (some xs, s) =>
        let size := slotSize path
        match (if p.firstOfSegment then (some (List.replicate 16 (Acc.start path)), s)
          else match spLoad s d k (p.slotAddr.toNat + m * (16 * size)) (16 * size) with
            | (some b, s) => (some ((List.range 16).map (fun i => decodeSlot path ((b.drop (i * size)).take size))), s)
            | (none, s) => (none, s)) with
        | (none, s) => s
        | (some accs, s) =>
          let a := (codesOfBytes sf (pairingDepth t.pairing) bs).map (fun c => elemVal sf c 0x7F)
          let f (inj : Bool) : RowResult :=
            if path == .ordered then orderedRow t p slot a accs inj
            else exactRow t p slot (xs.headD 0x7F).toNat a accs inj
          match commitRow s d k t p m f with
          | (false, s) => s
          | (true, s) => passRows n (m + 1) s d k t sf p

/-- The codebook image of a pass: of the generation that the command of the cluster's group has bound, else the current one of the
die's partition (R136, R145). -/
def passBook (s : State) (d k : Nat) (p : Pass) : Option (List Byte) :=
  p.codebook.map (fun cb =>
    match (groupOn s d k).bind (fun g => findCmd s g.cmd) with
    | some c => boundImage s (ctxOf s c) (0x10 + cb.val)
    | none => (tableOf s ((partOfDie s d).getD 0) (0x10 + cb.val)).current.image)

/-- How the stationary tile lies in the scratchpad: as elements, or as indices of a codebook. -/
def tileStore (book : Option (List Byte)) (wf : Fmt) : Fmt := book.elim wf cbStore

/-- Loads the pass's tile into the shadow copy; a codebook's indices are decoded as it loads (R93, R145). -/
def loadTile (s : State) (d k : Nat) (p : Pass) (wf : Fmt) : Option Tile × State :=
  let n := (pairingDepth p.pairing) * 16
  let book := passBook s d k p
  let sf := tileStore book wf
  match spLoad s d k p.tileAddr.toNat (n * sf.bits / 8) with
  | (none, s) => (none, modCluster s d k (fun c => { c with shadow := none }))
  | (some bs, s) =>
    match (if (pairingPath p.pairing) == .mx then spLoad s d k p.tileScaleAddr.toNat 16 else (some [], s)) with
    | (none, s) => (none, modCluster s d k (fun c => { c with shadow := none }))
    | (some xs, s) =>
      let codes := codesOfBytes sf n bs
      let t : Tile := ⟨p.pairing, p.stationFmt, book.elim codes (fun img => codes.map (cbEntry img)), xs⟩
      (some t, modCluster s d k (fun c => { c with shadow := some t }))

/-- The pass's first row slot takes the shadow copy as the active tile (R93). -/
def swapTile (s : State) (d k : Nat) : State := modCluster s d k (fun c => { c with tile := c.shadow })

/-- The check vector of a newly loaded tile: counted, and compared unless the tile is exempt (R94, R98). Answers whether
the pass goes on. DESIGN CHOICE (log entry 85): an injection of KIND 3 waits for a data row, and no check vector takes it (R105). -/
def checkTile (s : State) (d k : Nat) (t : Tile) (p : Pass) : Bool × State :=
  let s := bumpDie s d (if t.bad then 1 else 0) 1
  if !t.bad && checkVectorBad t p then (false, passMismatch s d k false) else (true, s)

/-- The bytes that a pass reads of the tiles delivered to its cluster: streamed rows, the stationary tile, and their scales. `wf`: the
format that the tile is stored in. -/
def passTiles (p : Pass) (sf wf : Fmt) : List (Nat × Nat) :=
  let mx := (pairingPath p.pairing) == .mx
  let depth := (pairingDepth p.pairing)
  [(p.rowsAddr.toNat, p.rows * (depth * sf.bits / 8))] ++ (if mx then [(p.rowScaleAddr.toNat, p.rows)] else [])
  ++ (if p.loadTile then [(p.tileAddr.toNat, depth * 16 * wf.bits / 8)] else [])
  ++ (if p.loadTile && mx then [(p.tileScaleAddr.toNat, 16)] else [])

/-- All bytes that a pass touches lie in the twelve banks. -/
def passInside (p : Pass) (sf wf : Fmt) : Bool :=
  (passTiles p sf wf).all (fun r => decide (r.1 + r.2 ≤ spEnd))
  && decide (p.slotAddr.toNat + p.rows * (16 * slotSize (pairingPath p.pairing)) ≤ spEnd)

/-- All lines of a range have been written since the group started. -/
def delivered (c : Cluster) (r : Nat × Nat) : Bool :=
  (range (r.1 / 64) ((r.1 + r.2 + 63) / 64 - r.1 / 64)).all (fun l => lineWritten c (64 * l))

/-- A pass may start: a bridle's member has its own copy of every tile that the pass reads, and a member of an exchange group has the
signals that its halo waits for (R152, R187). -/
def passReady (s : State) (d k : Nat) (tiles : List (Nat × Nat)) : Bool :=
  haloHere s d k
  && (groupOn s d k).elim true (fun g =>
    !g.bridles.any (fun b => b.members.contains k) || tiles.all (delivered (clusterOf s d k)))

/-- Runs a pass whose formats make its pairing. -/
def runPass (s : State) (d k : Nat) (p : Pass) (sf wf : Fmt) : State :=
  let stored := tileStore (passBook s d k p) wf
  if !passInside p sf stored then illegalAccess s (groupOn s d k)
  else if !passReady s d k (passTiles p sf stored) then s
  else if p.loadTile then
    match loadTile s d k p wf with
    | (none, s) => s
    | (some t, s) =>
      match checkTile (swapTile s d k) d k t p with
      | (false, s) => s
      | (true, s) => passRows p.rows 0 s d k t sf p
  else
    match (clusterOf s d k).tile with
    | some t => if t.pairing == p.pairing && t.fmt == p.stationFmt then passRows p.rows 0 s d k t sf p else s
    | none => s

/-- A pass with a codebook: a loaded one of the stationary format, on no MX operand (R145). -/
def bookOk (s : State) (d k : Nat) (p : Pass) (wf : Fmt) : Bool :=
  match passBook s d k p with
  | none => true
  | some img => !img.isEmpty && cbFmt img == p.stationFmt.toNat && !wf.isMx

/-- ARRAY_PASS: 1 to 65,536 rows of a listed pairing through the loaded tile of a cluster (R40, R90). -/
def execArrayPass (d : DieIx) (k : ClusterIx) (p : Pass) (s : State) : Host.Outcome State Fault Refusal :=
  .next (match fmtOf p.streamFmt.toNat, fmtOf p.stationFmt.toNat with
    | some sf, some wf =>
      if present s d.val k.val && pairingOf sf wf == some p.pairing && decide (1 ≤ p.rows) && decide (p.rows ≤ 65536)
          && bookOk s d.val k.val p wf then
        runPass s d.val k.val p sf wf
      else s
    | _, _ => s)

end Sys2Proof.Machine
end

