-- ==== Sys2Proof/Machine/Hbm.lean ====
section
/-!
DEFINITION. HBM: single accesses, repairs, refresh, scrubbing, lane retraining, training, maintenance and fences (R242 to
R272).
-/
namespace Sys2Proof.Machine

open Sys2Proof

/-! ### Accesses (R249, R253, R263) -/

/-- Ends a started command that one of its accesses has failed; its record has been created. -/
def endFailed (s : State) (u : Uid) (st : Status) : State :=
  match findCmd s u with
  | some c => if c.phase == .started then failMember (failGraph (dropGroups s u) u) c st else s
  | none => s

/-- What becomes of an access that HBM has not performed. -/
def accessFailed (s : State) (u : Option Uid) (off : Nat) : HbmStop → State
  | .uncorrectable => u.elim s (fun u => endFailed s u .memUncorrectable)
  | .offline => u.elim s (fun u =>
      endFailed (logCmd s u evFailed 0 false (BitVec.ofNat 64 Status.channelOffline.code) (BitVec.ofNat 64 off) 0 0) u
        .channelOffline)

/-- An access above the top performs nothing (R246). -/
def aboveTop (s : State) (d : Nat) (off : Nat) (u : Option Uid) : State :=
  u.elim s (fun u => endFailed (logCmd s u evAboveTop d false (BitVec.ofNat 64 (d * 2 ^ 38 + off)) 0 0 0) u .accessDenied)

/-- HBM_READ: one sector, for a command or for none. -/
def execHbmRead (d : DieIx) (offset : BitVec 38) (c : Option Uid) (damage : BurstDamage) (s : State) :
    Host.Outcome State Fault Refusal :=
  let off := offset.toNat / 32 * 32
  .next (if aboveTopAt s d.val off 32 then answer (aboveTop s d.val off c) .none
    else
      match readSector s c d.val off damage with
      | (.ok x, t) => answer t (.bytes (bvToBytes 32 x))
      | (.error e, t) => answer (accessFailed t c off e) .none)

/-- HBM_WRITE: one whole sector. -/
def execHbmWrite (d : DieIx) (offset : BitVec 38) (data : BitVec 256) (s : State) : Host.Outcome State Fault Refusal :=
  let off := offset.toNat / 32 * 32
  .next (if aboveTopAt s d.val off 32 then s else (writeSector s d.val off data).2)

/-- The sector that a merge leaves. -/
def rmwValue (op : RmwOp) (x : BitVec 256) : BitVec 256 :=
  let at64 (o : Fin 4) (f : W64 → W64) : BitVec 256 := setField x (64 * o.val) 64 (f (field x (64 * o.val) 64)).toNat
  match op with
  | .merge mask data =>
    (List.range 32).foldl (fun y i => if bit mask i then setField y (8 * i) 8 (fieldN data (8 * i) 8) else y) x
  | .add o v => at64 o (fun old => atomicStore .add old v 0)
  | .max o v => at64 o (fun old => atomicStore .max old v 0)
  | .cas o v w => at64 o (fun old => atomicStore .cas old v w)

/-- HBM_RMW: read, merge and write of one sector as one step; answers the old sector. -/
def execHbmRmw (d : DieIx) (offset : BitVec 38) (op : RmwOp) (c : Option Uid) (damage : BurstDamage) (s : State) :
    Host.Outcome State Fault Refusal :=
  let off := offset.toNat / 32 * 32
  .next (if aboveTopAt s d.val off 32 then answer (aboveTop s d.val off c) .none
    else
      match rmwSector s c d.val off (rmwValue op) damage with
      | (.ok x, t) => answer t (.bytes (bvToBytes 32 x))
      | (.error e, t) => answer (accessFailed t c off e) .none)

/-! ### Refresh (R255) -/

/-- A bank of this number belongs to a stack. -/
def bankOn (stack k : Nat) : Bool := k / 2048 == stack

/-- A refresh of a stack's banks: their rows close, and each bank's activation count goes down by the threshold that the stack
reports (PRESUMED, log entry 14). -/
def refreshBanks (s : State) (d stack : Nat) : State :=
  modDie s d (fun b => { b with
    openRows := smMap 0 (bankOn stack) (fun _ => 0) b.openRows
    activations := smMap 0 (bankOn stack) (fun n => n - Config.rfmThreshold d stack) b.activations })

/-- HBM_REFRESH: changes no data. A stack in self refresh refreshes itself. -/
def execHbmRefresh (d : DieIx) (stack : Fin 2) (s : State) : Host.Outcome State Fault Refusal :=
  .next (if (dieOf s d.val).selfRefresh then s
    else modDie (refreshBanks s d.val stack.val) d.val
      (fun b => { b with lastRefresh := smSet 0 b.lastRefresh stack.val s.time.now }))

/-- A bank of the stack has reached the threshold that the stack reports. -/
def rfmDue (s : State) (d stack : Nat) : Bool :=
  (dieOf s d).activations.any (fun x => bankOn stack x.1 && decide (Config.rfmThreshold d stack ≤ x.2))

/-- HBM_RFM: at the threshold, a refresh-management command. -/
def execHbmRfm (d : DieIx) (stack : Fin 2) (s : State) : Host.Outcome State Fault Refusal :=
  .next (if (dieOf s d.val).selfRefresh || !rfmDue s d.val stack.val then s
    else bumpHbm (refreshBanks s d.val stack.val) d.val 6)

/-! ### Soft repair (R267, R269) -/

/-- A named row as the trackers hold it. -/
def RowName.key (r : RowName) : Nat := r.bank.toNat + 32 * r.row.toNat + 2 ^ 24 * r.pseudo.val

/-- A named row's pending entry of the repair list. -/
def RowName.entry (r : RowName) : W64 := pendingEntry r.die.val r.channel.val (RowName.key r)

/-- The row of a repair-list entry still waits for its soft repair. -/
def waitsRepair (s : State) (e : W64) : Bool :=
  (chanOf s (fieldN e 0 3) (fieldN e 3 6)).faulty.contains (fieldN e 10 24 + 2 ^ 24 * fieldN e 9 1)

/-- No listed row that still waits stands before this one: repairs resume in list order (R269). -/
def repairTurn (s : State) (e : W64) : Bool :=
  match (repairList s).find? (waitsRepair s) with
  | some f => f == e
  | none => true

/-- HBM_SOFT_REPAIR of a faulty row whose turn it is: its stored bits stay, and the repair list holds it as pending; without a
soft spare the row stays in use with NO_SPARE (log entry 37). None starts under the inhibit. -/
def execHbmSoftRepair (row : RowName) (spare : Bool) (s : State) : Host.Outcome State Fault Refusal :=
  let d := row.die.val
  let c := row.channel.val
  .next (if s.pwr.inhibit || !(chanOf s d c).faulty.contains (RowName.key row) || !repairTurn s (RowName.entry row) then s
    else
      let s := modChan s d c (fun x => { x with faulty := x.faulty.filter (· != RowName.key row) })
      let s := if spare then
          let s := modChan s d c (fun x => { x with softRepairs := x.softRepairs + 1 })
          logEvent (bumpHbm s d 4) evRowRepair d (RowName.entry row) 0
        else logEvent s evNoSpare d (RowName.entry row) 0
      listRow s d c (RowName.key row))

/-! ### Scrubbing (R256) -/

/-- Sectors of a channel. -/
def chanSectors : Nat := 83886080

/-- A channel is live and not fenced. -/
def chanServes (s : State) (d c : Nat) : Bool := bit (dieOf s d).live c && !(chanOf s d c).fenced

/-- Reads a sector for scrub and writes a corrected codeword back. DESIGN CHOICE (log entry 83): the write-back is no write that
takes an armed injection (R271). -/
def scrubSector (s : State) (d c i : Nat) (damage : BurstDamage) : State :=
  let old := sectorOf s d c i
  match readChan s none d c i damage with
  | (some x, t) => if rsEncode x = old.code then t else setSector t d c i ⟨rsEncode x, false, false⟩
  | (none, t) => t

/-- HBM_SCRUB_READ: the next sector of a channel while sectors are outstanding. -/
def execHbmScrubRead (d : DieIx) (ch : ChanIx) (damage : BurstDamage) (s : State) : Host.Outcome State Fault Refusal :=
  let b := dieOf s d.val
  let c := chanOf s d.val ch.val
  .next (if !chanServes s d.val ch.val || b.selfRefresh || b.hbmScrubRate = 0 || decide (b.hbmScrubQuota ≤ c.scrubbed) then s
    else
      let s := scrubSector s d.val ch.val c.scrubNext damage
      let s := modChan s d.val ch.val (fun c =>
        { c with scrubNext := (c.scrubNext + 1) % chanSectors, scrubbed := c.scrubbed + 1 })
      bumpHbm s d.val 3)

/-- A serving channel of a die has scrub sectors outstanding. -/
def sectorsOutstanding (s : State) (d : Nat) : Bool :=
  (List.range 64).any (fun c => chanServes s d c && decide ((chanOf s d c).scrubbed < (dieOf s d).hbmScrubQuota))

/-- The next HBM scrub epoch of a die begins now; a new setting takes effect where it has a boundary itself. -/
def beginHbmEpoch (s : State) (d : Nat) : State :=
  modDie s d (fun b =>
    let e := fieldN b.hbmScrubCfg 0 5
    let new := boundaryNow s e
    let rate := if new then fieldN b.hbmScrubCfg 8 5 else b.hbmScrubRate
    { b with hbmScrubRate := rate, hbmScrubEpoch := if new then e else b.hbmScrubEpoch
             hbmScrubQuota := b.hbmScrubQuota + (if rate = 0 then 0 else 2 ^ rate)
             hbmScrubBegan := s.time.now })

/-- HBM_SCRUB_EPOCH_END: at a boundary of the epoch, outstanding sectors carry over with BEHIND. -/
def execHbmScrubEpochEnd (d : DieIx) (s : State) : Host.Outcome State Fault Refusal :=
  let b := dieOf s d.val
  .next (if epochEnds s b.hbmScrubEpoch (fieldN b.hbmScrubCfg 0 5) b.hbmScrubBegan then
      beginHbmEpoch (if sectorsOutstanding s d.val then
          modDie s d.val (fun b => { b with hbmScrubCfg := setField b.hbmScrubCfg 24 1 1 })
        else s) d.val
    else s)

/-! ### Lanes (R261, R262) -/

/-- Map-out entries of a channel and of a degraded lane (R444). -/
def chanEntry (d c : Nat) : W64 := BitVec.ofNat 64 (2 + 4 * d + 32 * c)
def laneEntry (d c pc lane : Nat) : W64 := BitVec.ofNat 64 (3 + 4 * d + 32 * c + lane * 2 ^ 18 + pc * 2 ^ 24)

/-- The degraded lane of a pseudo-channel. -/
def laneOf (x : Chan) (pc : Nat) : Option (Fin 36) := if pc = 0 then x.deg0 else x.deg1

def setLane (x : Chan) (pc : Nat) (l : Option (Fin 36)) : Chan := if pc = 0 then { x with deg0 := l } else { x with deg1 := l }

/-- Records a newly degraded lane: its record, and its history entry. -/
def degradeLane (s : State) (d c pc : Nat) (l : Fin 36) : State :=
  let s := modChan s d c (fun x => setLane x pc (some l))
  let s := logEvent s evLaneDegraded d (BitVec.ofNat 64 (c + 64 * pc + 128 * l.val)) 0
  queueHistory s (.addMapOut (laneEntry d c pc l.val))

/-- A lane that fails retraining degrades its pseudo-channel, or fences the channel when that has another one already. -/
def retrainLane (s : State) (d c : Nat) (x : Fin 2 × Fin 36) : State :=
  match laneOf (chanOf s d c) x.1.val with
  | none => degradeLane s d c x.1.val x.2
  | some l => if l = x.2 then s else fenceChannel s d c 0

/-- The period of a channel's lane retraining has passed since its last one (R262). -/
def retrainDue (s : State) (x : Chan) : Bool := x.retrainedAt.elim true (fun t => decide (2 ^ 17 ≤ since s.time.now t))

/-- HBM_LANE_RETRAIN of a live channel, every 2^17 ticks. -/
def execHbmLaneRetrain (d : DieIx) (result : ChanTraining) (s : State) : Host.Outcome State Fault Refusal :=
  let c := result.channel.val
  .next (if !chanServes s d.val c || !retrainDue s (chanOf s d.val c) then s
    else
      let s := modChan s d.val c (fun x => { x with retrainedAt := some s.time.now })
      if result.otherFailure then fenceChannel s d.val c 0
      else result.badLanes.foldl (fun s x => retrainLane s d.val c x) s)

/-! ### Training (R243, R260, R261, R268) -/

/-- The result of a channel; an unlisted one has nothing wrong. -/
def resultOf (r : StackTraining) (c : ChanIx) : ChanTraining :=
  (r.channels.find? (fun x => x.channel == c)).getD ⟨c, false, [], []⟩

/-- Bad lanes of a pseudo-channel. -/
def badLanesOf (r : ChanTraining) (pc : Nat) : List (Fin 36) :=
  (r.badLanes.filter (fun x => x.1.val == pc)).map Prod.snd |>.dedup

/-- A channel passes the training of its lanes (R261). -/
def lanesPass (x : ChanTraining) : Bool :=
  !x.otherFailure && decide ((badLanesOf x 0).length ≤ 1) && decide ((badLanesOf x 1).length ≤ 1)

/-- A channel passes training (R261). -/
def trainPasses (s : State) (d : Nat) (r : StackTraining) (c : ChanIx) : Bool :=
  let x := resultOf r c
  let lim := (dieOf s d).health.chUeLimit.toNat
  r.identified && lanesPass x && (lim = 0 || decide (x.readBackBad.length < lim))

/-- Channels of a stack. -/
def stackChans (stack : Nat) : List ChanIx := (List.finRange 64).filter (fun c => c.val / 32 == stack)

/-- Channels of a stack that the shadow map selects and that pass. -/
def passingChans (s : State) (d stack : Nat) (r : StackTraining) : List ChanIx :=
  (stackChans stack).filter (fun c => bit (dieOf s d).shadow c.val && trainPasses s d r c)

/-- Slots of the repair list, with the writes that still wait for the flash, that name a pending row of this stack. -/
def pendingRepairs (s : State) (d stack : Nat) : List (Nat × W64) :=
  let xs := repairList s
  ((List.range xs.length).zip xs).filter (fun x =>
    fieldN x.2 0 3 == d && fieldN x.2 3 6 / 32 == stack && fieldN x.2 34 2 == 0)

/-- Hard repair of one pending row (R268). DESIGN CHOICE (log entry 83): a row without a hard spare keeps STATE 0, as R268 leaves it
pending; STATE 2 of R444 is never written. -/
def hardRepair (s : State) (d : Nat) (spares : List Nat) (x : Nat × W64) : State :=
  if spares.contains x.1 then
    queueHistory (logEvent (bumpHbm s d 5) evRowRepair d x.2 1) (.setRepair x.2 1)
  else logEvent s evNoSpare d x.2 1

/-- Stores a sector that reads back uncorrectable, counts and logs it, and holds its row faulty (R261, R267). -/
def readBackBad (s : State) (d c i : Nat) : State :=
  let s := setSector s d c i ⟨injectSector (rsEncode 0) 3, false, true⟩
  let s := markFaulty (bumpHbm s d 1) d c (rowKey d c i)
  let live := (List.range 64).filter (bit (dieOf s d).shadow)
  occur s (eventRec s evHbmUncorrectable d false none (chanWord c i) (BitVec.ofNat 64 (windowOffset live c (32 * i)))
    (placesWord []) 0) true

/-- The history holds a map-out entry once the writes that wait have been performed. -/
def recorded (s : State) (e : W64) : Bool :=
  s.flash.queue.foldl (fun held w => match w with
    | .addMapOut x => held || x == e
    | .dropMapOut x => held && x != e
    | _ => held) (s.flash.mapOuts.contains (some e))

/-- The first lane of a pseudo-channel that training could not repair becomes its degraded lane, and the history drops the lane
that it no longer has; one that it still has is written again where its removal waits (R261, R266). -/
def trainLane (s : State) (d c pc : Nat) (bad : Option (Fin 36)) : State :=
  let old := laneOf (chanOf s d c) pc
  if old = bad then
    old.elim s (fun l =>
      if recorded s (laneEntry d c pc l.val) then s else queueHistory s (.addMapOut (laneEntry d c pc l.val)))
  else
    let s := old.elim s (fun l =>
      queueHistory (modChan s d c (fun x => setLane x pc none)) (.dropMapOut (laneEntry d c pc l.val)))
    bad.elim s (degradeLane s d c pc)

/-- What training leaves of a channel: its degraded lanes, and what its zero fill reads back uncorrectable (R260, R261, R272).
A failure of command and address training comes before its lanes; read-back comes after lanes that pass. -/
def trainChan (s : State) (d : Nat) (r : ChanTraining) (fill : Bool) : State :=
  let c := r.channel.val
  if r.otherFailure then s
  else
    let s := [0, 1].foldl (fun s pc => trainLane s d c pc (badLanesOf r pc).head?) s
    if fill && lanesPass r then
      r.readBackBad.foldl (fun s i => if i < chanSectors then readBackBad s d c i else s) s
    else s

/-- Takes a passing channel into service. -/
def serveChan (s : State) (d c : Nat) : State := modChan s d c (fun x => { x with fenced := false, mappedOut := false })

/-- Trains one stack: hard repairs, identification, and its channels of the shadow map. `fill`: they are zero-filled. -/
def trainStack (s : State) (d stack : Nat) (r : StackTraining) (fill : Bool) : State :=
  let rows := pendingRepairs s d stack
  let s := rows.foldl (fun s x => hardRepair s d r.hardSpares x) s
  let s := if rows.isEmpty then s else modPwrDie s d (fun x => { x with repairTicks := x.repairTicks + r.repairTicks })
  let s := if r.identified then s else logEvent s evStackRejected d (BitVec.ofNat 64 stack) 0
  let pass := passingChans s d stack r
  let s := if r.identified then
      ((stackChans stack).filter (fun c => bit (dieOf s d).shadow c.val)).foldl (fun s c => trainChan s d (resultOf r c) fill) s
    else s
  let s := pass.foldl (fun s c => serveChan s d c.val) s
  modDie s d (fun b =>
    let kept := (pass.map (fun c => 2 ^ c.val)).sum + ((List.range 64).filter (fun c => c / 32 != stack && bit b.shadow c)
      |>.map (fun c => 2 ^ c)).sum
    if stack = 0 then { b with shadow := BitVec.ofNat 64 kept, trained0 := true }
    else { b with shadow := BitVec.ofNat 64 kept, trained1 := true })

/-- A channel that the new live map leaves out is mapped out; one it takes back loses its entry (R265, R266). -/
def settleChan (s : State) (d n c : Nat) (live : Bool) : State :=
  let e := chanEntry d c
  if live then (if recorded s e then queueHistory s (.dropMapOut e) else s)
  else
    let s := modChan s d c (fun x => { x with mappedOut := true, fenced := false })
    if recorded s e then s
    else queueHistory (logEvent s evChannelMappedOut d (BitVec.ofNat 64 c) (BitVec.ofNat 64 n)) (.addMapOut e)

/-- The live map becomes what passed, and a die without a live channel fails (R265). -/
def settleMap (s : State) (d : Nat) (gen : Byte) : State :=
  let live := (dieOf s d).shadow
  let n := ((List.range 64).filter (bit live)).length
  let s := modDie s d (fun b => { b with live := live, mapGen := gen })
  let s := (List.range 64).foldl (fun s c => settleChan s d n c (bit live c)) s
  if live = 0 then failDie s d 0 else s

/-- Zero-fills a die's HBM (R260, R266). -/
def zeroFill (s : State) (d : Nat) : State := { s with hbm := smKeep (fun k => k / 2 ^ 33 != d) s.hbm }

/-- Performs maintenance of a die that is OFF (R265, R266). -/
def maintain (s : State) (d : Nat) (r0 r1 : StackTraining) : State :=
  let old := (dieOf s d).live
  let pass := (passingChans s d 0 r0 ++ passingChans s d 1 r1).map Fin.val
  let changed := BitVec.ofNat 64 ((pass.map (fun c => 2 ^ c)).sum) != old
  let s := if changed then zeroFill s d else s
  let s := trainStack (trainStack s d 0 r0 changed) d 1 r1 changed
  let s := settleMap s d ((nextGen (dieOf s d).mapGen))
  modDie s d (fun b => { b with maintHeld := false })

end Sys2Proof.Machine
end

