-- ==== Sys2Proof/Machine/Fec.lean ====
section
/-!
DEFINITION. RS(544,514) over GF(2^10), the codewords of a Zweve lane with their markers (R274, R275).
-/
namespace Sys2Proof.Machine

open Sys2Proof

/-! ### GF(2^10) with polynomial x^10 + x^3 + 1 (log entry 68) -/

/-- A symbol of 10 bits. -/
abbrev Sym := BitVec 10

/-- Multiplication by α. -/
def symX2 (a : Sym) : Sym := (a <<< 1) ^^^ (if bit a 9 then 9 else 0)

/-- Sum of a · 2^i over the set bits i of `b` among the `n` lowest. -/
def symMulFrom : Nat → Sym → Sym → Sym
  | 0, _, _ => 0
  | n + 1, a, b => (if bit b 0 then a else 0) ^^^ symMulFrom n (symX2 a) (b >>> 1)

def symMul (a b : Sym) : Sym := symMulFrom 10 a b

/-- α^k. -/
def symAlpha : Nat → Sym
  | 0 => 1
  | n + 1 => symX2 (symAlpha n)

/-- Product of the squares a^2, a^4, …, a^(2^n). -/
def symSquares : Nat → Sym → Sym
  | 0, _ => 1
  | n + 1, a => symMul (symMul a a) (symSquares n (symMul a a))

/-- Inverse of a nonzero element: its 1,022nd power. -/
def symInv (a : Sym) : Sym := symSquares 9 a

/-- Sum of two polynomials given by rising powers. -/
def polyAdd : List Sym → List Sym → List Sym
  | [], q => q
  | p, [] => p
  | a :: p, b :: q => (a ^^^ b) :: polyAdd p q

def polyScale (c : Sym) (p : List Sym) : List Sym := p.map (symMul c)

/-- p(x) for coefficients by falling powers. -/
def symHorner (x acc : Sym) : List Sym → Sym
  | [] => acc
  | c :: cs => symHorner x (symMul acc x ^^^ c) cs

/-- p(x) for coefficients by rising powers. -/
def polyEval (p : List Sym) (x : Sym) : Sym := symHorner x 0 p.reverse

/-! ### Encoding -/

/-- The generator (x + 1)(x + α) … (x + α^(n − 1)), by rising powers. -/
def fecGen : Nat → List Sym
  | 0 => [1]
  | n + 1 => polyAdd (0 :: fecGen n) (polyScale (symAlpha n) (fecGen n))

/-- The remainder register after the symbols given, by falling powers; `g`: the generator without its leading 1. -/
def fecRemainder (g : List Sym) : List Sym → List Sym → List Sym
  | r, [] => r
  | r, m :: ms =>
    let f := m ^^^ r.headD 0
    fecRemainder g (polyAdd (r.drop 1 ++ [0]) (polyScale f g)) ms

/-- Symbols of a word of `10 * n` bits, the first in bits `[9:0]`. -/
def symbolsOf (n : Nat) {w : Nat} (x : BitVec w) : List Sym := (List.range n).map (fun i => field x (10 * i) 10)

/-- The codeword of a message: 514 message symbols and 30 check symbols, in the order in which they leave. -/
def fecEncode (m : BitVec 5140) : BitVec 5440 :=
  let check := fecRemainder ((fecGen 30).reverse.drop 1) (List.replicate 30 0) (symbolsOf 514 m)
  let tail : BitVec 300 := BitVec.ofNat 300 (((List.range 30).map (fun i => (check.getD i 0).toNat * 2 ^ (10 * i))).sum)
  tail ++ m

/-! ### Decoding -/

/-- The thirty syndromes of a word. -/
def fecSyndromes (cs : List Sym) : List Sym := (List.range 30).map (fun j => symHorner (symAlpha j) 0 cs)

/-- A step of the search for the error locator: the locator, the one before its last change, its length, the distance and
the discrepancy of that change. -/
structure LocatorStep where
  locator : List Sym
  before : List Sym
  length : Nat
  gap : Nat
  last : Sym
  deriving DecidableEq, Repr

/-- One step with syndrome `n`: the discrepancy is removed. -/
def locatorStep (s : List Sym) (x : LocatorStep) (n : Nat) : LocatorStep :=
  let d := (List.range (x.length + 1)).foldl (fun acc i => acc ^^^ symMul (x.locator.getD i 0) (s.getD (n - i) 0)) 0
  if d = 0 then { x with gap := x.gap + 1 }
  else
    let c := polyAdd x.locator (polyScale (symMul d (symInv x.last)) (List.replicate x.gap 0 ++ x.before))
    if 2 * x.length ≤ n then ⟨c, x.locator, n + 1 - x.length, 1, d⟩ else { x with locator := c, gap := x.gap + 1 }

/-- The error locator of thirty syndromes, by rising powers, and its length. -/
def fecLocator (s : List Sym) : LocatorStep := (List.range 30).foldl (locatorStep s) ⟨[1], [1], 0, 1, 1⟩

/-- The derivative of a polynomial over GF(2^10). -/
def polyDerive (p : List Sym) : List Sym := (List.range (p.length - 1)).map (fun i => if i % 2 = 0 then p.getD (i + 1) 0 else 0)

/-- The error values at the symbols `is` that the locator names. -/
def fecValues (s c : List Sym) (is : List Nat) : List (Nat × Sym) :=
  let omega := (List.range 30).map (fun n =>
    (List.range (n + 1)).foldl (fun acc i => acc ^^^ symMul (c.getD i 0) (s.getD (n - i) 0)) 0)
  is.map (fun i =>
    let x := symAlpha (543 - i)
    let y := symInv x
    (i, symMul x (symMul (polyEval omega y) (symInv (polyEval (polyDerive c) y)))))

/-- Decodes a word of 544 symbols: the message and the number of symbols corrected, at most 15 (R274). -/
def fecDecode (w : BitVec 5440) : Option (BitVec 5140 × Nat) :=
  let s := fecSyndromes (symbolsOf 544 w)
  if s.all (· == 0) then some (field w 0 5140, 0)
  else
    let x := fecLocator s
    let is := (List.range 544).filter (fun i => polyEval x.locator (symInv (symAlpha (543 - i))) == 0)
    if 15 < x.length || is.length ≠ x.length then none
    else
      let e := fecValues s x.locator is
      let t := w ^^^ BitVec.ofNat 5440 ((e.map (fun v => v.2.toNat * 2 ^ (10 * v.1))).sum)
      if (fecSyndromes (symbolsOf 544 t)).all (· == 0) then some (field t 0 5140, e.length) else none

/-! ### Markers (R275) -/

/-- The message of a codeword: the marker of lane `j` with count `n`, and five flits. -/
def codewordOf (j n : Nat) (flits : List (BitVec 1024)) : BitVec 5140 :=
  BitVec.ofNat 5140 (j % 16 + 0xA * 2 ^ 4 + n % 4096 * 2 ^ 8
    + ((List.range 5).map (fun i => (flits.getD i 0).toNat * 2 ^ (20 + 1024 * i))).sum)

/-- The five flits of a message. -/
def flitsOf (m : BitVec 5140) : List (BitVec 1024) := (List.range 5).map (fun i => field m (20 + 1024 * i) 1024)

/-- The lane number of a marker; `none` where it is no marker. -/
def markerLane (m : BitVec 5140) : Option Nat :=
  if fieldN m 4 4 = 0xA ∧ fieldN m 0 4 < 4 then some (fieldN m 0 4) else none

end Sys2Proof.Machine
end

