-- ==== Sys2Proof/Machine/Setup.lean ====
section
/-!
DEFINITION. Set-up by registers with rows of their own: stages and commits, rings, partitions, contexts, keys, the module
ID, codec engines, fences, maintenance requests and injections (R105, R264, R265, R271, R292, R293, R308, R357, R366, R388
to R391, R405, R442, R443, R466, R475, R482, R496).
-/
namespace Sys2Proof.Machine

open Sys2Proof

/-! ### Access through the module's own port (R466, R468, R469, R475) -/

/-- BAR0 offset of a register of module-level block `blk`. -/
def regAt (blk off : Nat) : Nat := blk * 0x10000 + off

/-- BAR0 offset of a register of die `d`: block 0 DIE_, 1 HBM_, 2 TBL_. -/
def dieRegAt (d blk off : Nat) : Nat := 0x1000000 + d * 0x100000 + blk * 0x10000 + off

/-- The module has reached READY. -/
def isReady (s : State) : Bool := s.pwr.stage == 5

/-- The PCIe port trains: PERST# is released and its rail is up (R462, R466). -/
def portTrains (s : State) : Bool := s.pwr.running && s.pwr.perstN && decide (2 ≤ s.pwr.stage.toNat)

/-- The PF is ready: BAR0 answers and configuration requests take effect (R466, log entry 1). -/
def hostUp (s : State) : Bool := portTrains s && decide (3 ≤ s.pwr.stage.toNat)

/-- A configuration request of the host: until the PF is ready it is answered with Request Retry Status, and nobody answers
where the port does not train (R466). -/
def configRequest (s : State) (f : State → State) : State :=
  if hostUp s then f s else if portTrains s then answer s .retryStatus else s

/-- Performs a set-up write that arrives at the module's own port, or ignores and logs it: before READY, and on a module
whose anchor is another module. Where the port is not up none arrives. -/
def setupWrite (s : State) (off value : Nat) (f : State → State) : State :=
  if !hostUp s then s else if isReady s && !isMember s then f s else logIgnored s off (BitVec.ofNat 64 value)

/-! ### Stages (R496) -/

/-- What a ring selector of a function loads: a module ring for the PF; for a VF the ring of that slot, else zeros. -/
def loadedRing (s : State) (f ix : Nat) : BitVec 512 :=
  if f = 0 then (ringOf s ix).cfg
  else
    match slotRing s f ix with
    | some r => (ringOf s r).cfg
    | none => 0

/-- The ring that a function's selector names. -/
def selectedRing (s : State) (f : Nat) : Option Nat :=
  if f = 0 then some s.hq.ringSel.toNat else slotRing s f (vfOf s f).select.toNat

def ringStage (s : State) (f : Nat) : BitVec 512 := if f = 0 then s.hq.stage else smGet 0 s.hq.vfStage f

def setRingStage (s : State) (f : Nat) (x : BitVec 512) : State :=
  if f = 0 then { s with hq := { s.hq with stage := x } }
  else { s with hq := { s.hq with vfStage := smSet 0 s.hq.vfStage f x } }

/-- A write of `HQ_RING_SEL.INDEX`. DEDUCED (log entry 87): each function has its own selector and stage, by which a VF names slots of its
own and affects no other function's ring (R363, R366, R473). -/
def selectRing (s : State) (f : Nat) (ix : BitVec 12) : State :=
  if f = 0 then
    if s.hq.ringSel = ix then s
    else setRingStage { s with hq := { s.hq with ringSel := ix } } 0 (loadedRing s 0 ix.toNat)
  else if (vfOf s f).select = ix then s
  else setRingStage (setVf s f { vfOf s f with select := ix }) f (loadedRing s f ix.toNat)

/-- A write of `ZW_WIN_SEL.INDEX`. -/
def selectWindow (s : State) (ix : BitVec 6) : State :=
  if s.zw.winSel = ix then s
  else { s with zw := { s.zw with winSel := ix, winStage := smGet 0 s.zw.windows ix.toNat } }

/-- A write of GROUP and MEMBER of `PART_RGRP_SEL`. -/
def selectRingGroup (s : State) (g : BitVec 4) (m : BitVec 6) : State :=
  if s.part.rgrpGroup = g && s.part.rgrpMember = m then s
  else { s with part := { s.part with
    rgrpGroup := g, rgrpMember := m, rgrpCfgStage := (ringGroupOf s g.toNat).cfg
    rgrpMemberStage := smGet 0 (ringGroupOf s g.toNat).members m.toNat } }

/-- STAGE_SELECT. A VF's selector is written through the VF's own BAR0. -/
def execStageSelect (x : Selection) (s : State) : Host.Outcome State Fault Refusal :=
  .next (match x with
    | .ring f ix =>
      if f.val != 0 && !(vfOf s f.val).enabled then s
      else setupWrite s (if f.val = 0 then regAt 3 0 else 0) ix.toNat (fun s => selectRing s f.val ix)
    | .window ix => setupWrite s (regAt 7 0x30) ix.toNat (fun s => selectWindow s ix)
    | .ringGroup g m => setupWrite s (regAt 4 0x40) (g.toNat + 16 * m.toNat) (fun s => selectRingGroup s g m))

/-! ### Rings (R366) -/

/-- Bits of the PF-only fields FUNCTION, PARTITION, VF_SLOT, CTX_LO and CTX_HI. -/
def pfOnlyMask : BitVec 512 :=
  (0x3F#512 <<< 320) ||| (7#512 <<< 328) ||| (0xFF#512 <<< 336) ||| (0xFFFFFF#512 <<< 344)

/-- RW bits of `HQ_RING`. -/
def ringMask : BitVec 512 :=
  ((BitVec.allOnes 233).zeroExtend 512) ||| (0x1F#512 <<< 256) ||| (0x1F#512 <<< 264) ||| (0xFFF#512 <<< 272)
  ||| (0x1FFFFFFF#512 <<< 288) ||| pfOnlyMask ||| (0x3F#512 <<< 368) ||| (0x1FF#512 <<< 376)

/-- Every field of staged ring contents lies in its range. -/
def ringRanges (x : BitVec 512) : Bool :=
  let log (lo : Nat) : Bool := decide (6 ≤ fieldN x lo 5) && decide (fieldN x lo 5 ≤ 16)
  log 256 && log 264 && decide (1 ≤ fieldN x 288 8)
  && (fieldN x 312 5 == 0 || (decide (4 ≤ fieldN x 312 5) && decide (fieldN x 312 5 ≤ 20)))
  && aligned 4096 (fieldN x 0 64) && aligned 4096 (fieldN x 64 64) && aligned 64 (fieldN x 128 64)
  && aligned 64 (fieldN x 192 41)

/-- Another ring of the same VF has the same slot. -/
def slotShared (s : State) (r : Nat) (x : BitVec 512) : Bool :=
  fieldN x 320 6 != 0
  && s.hq.rings.any (fun e => e.1 != r && fieldN e.2.cfg 320 6 == fieldN x 320 6 && fieldN e.2.cfg 336 8 == fieldN x 336 8)

/-- Contents of two rings differ in ENABLE at most. -/
def sameButEnable (x y : BitVec 512) : Bool := x &&& ~~~(1#512 <<< 384) == y &&& ~~~(1#512 <<< 384)

/-- `HQ_RING_SEL.COMMIT` of a function. -/
def commitRing (s : State) (f off value : Nat) : State :=
  match selectedRing s f with
  | none => logIgnored s off (BitVec.ofNat 64 value)
  | some r =>
    let g := ringOf s r
    let st := ringStage s f
    let x := if f = 0 then st else (st &&& ~~~pfOnlyMask) ||| (g.cfg &&& pfOnlyMask)
    if !ringRanges x || slotShared s r x || (g.state != .off && !sameButEnable x g.cfg) then
      logIgnored s off (BitVec.ofNat 64 value)
    else setRingEnable (setRingStage (setRing s r { g with cfg := x }) f x) r (bit x 384)

/-- RING_CONFIG_COMMIT. -/
def execRingConfigCommit (f : FuncIx) (s : State) : Host.Outcome State Fault Refusal :=
  let off := if f.val = 0 then regAt 3 0 else 0
  let v := (if f.val = 0 then s.hq.ringSel.toNat else (vfOf s f.val).select.toNat) + 2 ^ 31
  .next (if f.val != 0 && !(vfOf s f.val).enabled then s else setupWrite s off v (fun s => commitRing s f.val off v))

/-- A commit of ENABLE and nothing else: a stage that selects the ring holds what it applied (R496). -/
def commitEnable (s : State) (r : Nat) (on : Bool) : State :=
  let t := setRingEnable s r on
  if t.hq.ringSel.toNat = r then setRingStage t 0 (ringOf t r).cfg else t

/-- RING_ENABLE: a commit of ENABLE = 1 and nothing else. -/
def execRingEnable (r : RingIx) (s : State) : Host.Outcome State Fault Refusal :=
  .next (setupWrite s (regAt 3 0) (r.val + 2 ^ 31) (fun s => commitEnable s r.val true))

/-- RING_DISABLE: a commit of ENABLE = 0 and nothing else. -/
def execRingDisable (r : RingIx) (s : State) : Host.Outcome State Fault Refusal :=
  .next (setupWrite s (regAt 3 0) (r.val + 2 ^ 31) (fun s => commitEnable s r.val false))

/-! ### Virtual functions (R442) -/

/-- The rings of a function. -/
def ringsOf (s : State) (f : Nat) : List Nat := (smKeys s.hq.rings).filter (fun r => (ringOf s r).function == f)

/-- Evicts what these rings have started or parked. -/
def evictRings (s : State) (rs : List Nat) : State :=
  s.cmds.foldl (fun s c =>
    match findCmd s c.uid with
    | some c =>
      if c.origin.isNone && rs.contains c.ring && (c.phase == .started || c.phase == .ending || c.phase == .suspended) then
        requestEvict s c
      else s
    | none => s) s

/-- Drains rings as those of a VF: all are disabled and their started commands evicted. -/
def drainRings (s : State) (rs : List Nat) : State :=
  evictRings (rs.foldl (fun s r => setRingEnable s r false) s) rs

/-- An FLR of a VF, or a cleared VF Enable: its rings drain; a held enable is cancelled (R443). Its MSI-X entries return
to their reset state (log entry 16). -/
def drainVf (s : State) (f : Nat) : State :=
  let v := vfOf s f
  if v.draining then setVf s f { v with enableHeld := false }
  else if !v.enabled then s
  else
    let keep (k : Nat) : Bool := k / 2048 != f
    let s := setVf s f ⟨false, true, false, v.select⟩
    let s := { s with hq := { s.hq with
      msixMasked := smKeep keep s.hq.msixMasked
      msixEntries := smKeep keep s.hq.msixEntries, msixPending := smKeep keep s.hq.msixPending } }
    drainRings s (ringsOf s f)

/-- VF_FLR. -/
def execVfFlr (f : FuncIx) (s : State) : Host.Outcome State Fault Refusal :=
  .next (configRequest s (fun s => if f.val = 0 then s else drainVf s f.val))

/-- VF_ENABLE: held while the VF drains (R443). -/
def execVfEnable (f : FuncIx) (s : State) : Host.Outcome State Fault Refusal :=
  let v := vfOf s f.val
  .next (configRequest s (fun s =>
    if f.val = 0 then s
    else if v.draining then setVf s f.val { v with enableHeld := true }
    else setVf s f.val { v with enabled := true }))

/-- Every ring of the module is OFF. -/
def allRingsOff (s : State) : Bool := s.hq.rings.all (fun e => e.2.state == .off)

/-- A snapshot of a register of the HQ_ block, as the PF or a VF sees it. -/
def hqSnapshot (k : Nat) : Bool := k / 0x10000 == 3 || (decide (0x2000000 ≤ k) && decide (k % 0x2000000 < 0x90))

/-- The drain of a VF, or of the PF in its own reset, ends when its rings are OFF; with the latter HQ_ is reset (R442, R460). -/
def endVfDrain (s : State) (f : Nat) : State :=
  let v := vfOf s f
  if !v.draining then s
  else if f = 0 then
    if allRingsOff s then
      { s with hq := HqBlock.reset, io := { s.io with snapshots := smKeep (fun k => !hqSnapshot k) s.io.snapshots } }
    else s
  else if (ringsOf s f).all (fun r => (ringOf s r).state == .off) then
    setVf s f { v with draining := false, enabled := v.enableHeld, enableHeld := false }
  else s

/-! ### Pre-emption by windows (R398, R405, R408) -/

/-- Applies `f` to every command as it then stands. -/
def eachCmd (s : State) (f : State → Cmd → State) : State :=
  s.cmds.foldl (fun s c => (findCmd s c.uid).elim s (f s)) s

/-- Suspends what has lost its window and resumes what has one. -/
def windowChange (s : State) : State :=
  resumeAll (eachCmd s (fun s c => if c.phase == .started && runsHere c && !ctxOpen s c then requestSuspend s c else s))

/-- SPOOL_WINDOW_CHANGE: a new entry is in force (R398). -/
def execSpoolWindowChange (s : State) : Host.Outcome State Fault Refusal := .next (windowChange s)

/-! ### Partitions (R388, R390, R391) -/

/-- `PART_MODE`. -/
def writePartMode (s : State) (m : BitVec 1) (off value : Nat) : State :=
  if allRingsOff s then windowChange { s with part := { s.part with mode := m } }
  else logIgnored s off (BitVec.ofNat 64 value)

/-- PART_MODE_WRITE. -/
def execPartModeWrite (m : BitVec 1) (s : State) : Host.Outcome State Fault Refusal :=
  .next (setupWrite s (regAt 4 0) m.toNat (fun s => writePartMode s m (regAt 4 0) m.toNat))

/-- An aligned group of 1, 2, 4 or 8 dies. -/
def alignedGroup (d : Byte) : Bool :=
  [1, 2, 4, 8].any (fun n => (List.range (8 / n)).any (fun i => d.toNat == (2 ^ n - 1) * 2 ^ (n * i)))

/-- Every ring of a partition is OFF. -/
def partRingsOff (s : State) (p : Nat) : Bool :=
  s.hq.rings.all (fun e => fieldN e.2.cfg 328 3 != p || e.2.state == .off)

/-- `PART_CFG` of partition `p`. -/
def writePartCfg (s : State) (p : Nat) (v : W32) (off value : Nat) : State :=
  let x := partOf s p
  let dies : Byte := field v 0 8
  let tbl : BitVec 4 := field v 12 4
  let shared := (List.range 8).any (fun q => q != p && (partOf s q).dies &&& dies != 0)
  let moves := dies != x.dies || tbl != x.tblGib
  if (dies != 0 && (!alignedGroup dies || shared)) || tbl == 0
      || (moves && !(partRingsOff s p && quiesced s p)) then logIgnored s off (BitVec.ofNat 64 value)
  else
    let s := setPart s p { x with dies := dies, tblGib := tbl, ringEligible := bit v 8, bgReserve := field v 16 4 }
    if moves then
      { s with part := { s.part with
        tables := smKeep (fun k => k / 64 != p) s.part.tables, models := smKeep (fun k => k / 256 != p) s.part.models } }
    else s

/-- PARTITION_CONFIG. -/
def execPartitionConfig (p : PartIx) (v : BitVec 32) (s : State) : Host.Outcome State Fault Refusal :=
  .next (setupWrite s (regAt 4 0x10) v.toNat (fun s => writePartCfg s p.val v (regAt 4 0x10) v.toNat))

/-- HOLD = 1: a disable of R443. -/
def holdPart (s : State) (p : Nat) : State :=
  let x := partOf s p
  if x.hold then setPart s p { x with enableHeld := false }
  else setPart s p { x with hold := true, draining := !quiesced s p }

/-- HOLD = 0: an enable, which waits for the quiesce of a drain. -/
def unholdPart (s : State) (p : Nat) : State :=
  let x := partOf s p
  if x.draining then setPart s p { x with enableHeld := true }
  else resumeAll (setPart s p { x with hold := false })

/-- EVICT: evicts every started command of the partition. -/
def evictPart (s : State) (p : Nat) : State :=
  let us := (s.cmds.filter (fun c =>
    runsHere c && cmdPart s c == p && (c.phase == .started || c.phase == .ending))).map Cmd.uid
  let s := modPart s p (fun x => { x with evicting := us })
  eachCmd s (fun s c => if us.contains c.uid then requestEvict s c else s)

/-- PARTITION_HOLD. -/
def execPartitionHold (p : PartIx) (s : State) : Host.Outcome State Fault Refusal :=
  .next (setupWrite s (regAt 4 0x18) 1 (fun s => holdPart s p.val))

/-- PARTITION_UNHOLD. -/
def execPartitionUnhold (p : PartIx) (s : State) : Host.Outcome State Fault Refusal :=
  .next (setupWrite s (regAt 4 0x18) 0 (fun s => unholdPart s p.val))

/-- PARTITION_EVICT. -/
def execPartitionEvict (p : PartIx) (s : State) : Host.Outcome State Fault Refusal :=
  .next (setupWrite s (regAt 4 0x18) 2 (fun s => evictPart s p.val))

/-! ### `PART_PREEMPT` (R405, R408, R409) -/

/-- SUSPEND: the context closes, and its started commands are pre-empted. -/
def suspendCtx (s : State) (tag : Nat) : State :=
  let us := (s.cmds.filter (fun c =>
    runsHere c && ctxTag c.desc == tag && (c.phase == .started || c.phase == .ending))).map Cmd.uid
  let s := { s with part := { s.part with suspended := smSet false s.part.suspended tag true, preempted := us } }
  eachCmd s (fun s c => if us.contains c.uid then requestSuspend s c else s)

/-- A group's boundary that no member of this module asks for any more is given up, where it was asked for here (R331, R408). -/
def cancelYield (s : State) (x : Cmd) : State :=
  let ms := (otherMembers s x ++ [x.uid]).filterMap (findCmd s)
  if ms.any (fun m => m.suspending || m.evicting || m.aborting) then s
  else ms.foldl (fun s m => modCmd s m.uid (fun m => { m with coll := { m.coll with yieldAt := none, paused := none } })) s

/-- Cancels a suspension whose husk has not been written: the command and its instances continue without one (R408, log entry 86). -/
def cancelSuspend (s : State) (c : Cmd) : State :=
  let s := modTree s c.uid (fun c => { c with suspending := false })
  ((findCmd s c.uid).toList ++ kidsOf s c.uid).foldl (fun s x => if groupCmd x then cancelYield s x else s) s

/-- RELEASE: the context is open again as far as the spool leaves it so; a suspension whose husk has not been written is
cancelled, and what is suspended resumes. -/
def releaseCtx (s : State) (tag : Nat) : State :=
  let us := (s.cmds.filter (fun c => runsHere c && ctxTag c.desc == tag && c.phase == .suspended)).map Cmd.uid
  let s := { s with part := { s.part with suspended := smSet false s.part.suspended tag false, preempted := us } }
  resumeAll (eachCmd s (fun s c => if c.suspending && ctxTag c.desc == tag && ctxOpen s c then cancelSuspend s c else s))

/-- Admits fetched slots of a ring as long as one of them carries the context. -/
def admitCtx : Nat → State → Nat → Nat → State
  | 0, s, _, _ => s
  | n + 1, s, r, tag =>
    if (ringOf s r).fetched.any (fun x => ctxTag x.desc == tag) then admitCtx n (fetchHead s r) r tag else s

/-- EVICT: every command of the context, started or not, ends with ABORTED. -/
def evictCtx (s : State) (tag : Nat) : State :=
  let s := (smKeys s.hq.rings).foldl (fun s r => admitCtx (ringOf s r).fetched.length s r tag) s
  let us := (s.cmds.filter (fun c => ctxTag c.desc == tag && c.phase != .finished && c.phase != .forwarded)).map Cmd.uid
  let s := { s with part := { s.part with preempted := us } }
  eachCmd s (fun s c => if us.contains c.uid then requestEvict s c else s)

/-- A write of `PART_PREEMPT`; BUSY blocks it. -/
def writePreempt (s : State) (tag : CtxTag) (action : BitVec 2) (go : Bool) (off value : Nat) : State :=
  if preemptBusy s then logIgnored s off (BitVec.ofNat 64 value)
  else
    let s := { s with part := { s.part with preemptCtx := tag, preemptAction := action } }
    if !go then s
    else
      match action.toNat with
      | 1 => suspendCtx s tag.toNat
      | 2 => releaseCtx s tag.toNat
      | 3 => evictCtx s tag.toNat
      | _ => s

/-- The value written for an action. -/
def preemptValue (tag : CtxTag) (action : Nat) : Nat := tag.toNat + action * 2 ^ 12 + 2 ^ 31

/-- SUSPEND. -/
def execSuspend (ctx : CtxTag) (s : State) : Host.Outcome State Fault Refusal :=
  .next (setupWrite s (regAt 4 0x30) (preemptValue ctx 1)
    (fun s => writePreempt s ctx 1 true (regAt 4 0x30) (preemptValue ctx 1)))

/-- RELEASE. -/
def execRelease (ctx : CtxTag) (s : State) : Host.Outcome State Fault Refusal :=
  .next (setupWrite s (regAt 4 0x30) (preemptValue ctx 2)
    (fun s => writePreempt s ctx 2 true (regAt 4 0x30) (preemptValue ctx 2)))

/-- EVICT. -/
def execEvict (ctx : CtxTag) (s : State) : Host.Outcome State Fault Refusal :=
  .next (setupWrite s (regAt 4 0x30) (preemptValue ctx 3)
    (fun s => writePreempt s ctx 3 true (regAt 4 0x30) (preemptValue ctx 3)))

/-! ### Keys, module ID, windows, ring groups (R292, R293, R308, R482) -/

/-- `ZW_PART_KEY` of partition `p`: held until the partition is quiesced. -/
def writePartKey (s : State) (p : Nat) (key : W32) : State :=
  if quiesced s p then modPart s p (fun x => { x with key := key, keyHeld := none })
  else modPart s p (fun x => { x with keyHeld := some key })

/-- PART_KEY_WRITE. -/
def execPartKeyWrite (p : PartIx) (key : W32) (s : State) : Host.Outcome State Fault Refusal :=
  .next (setupWrite s (regAt 7 (0x80 + 8 * p.val)) key.toNat (fun s => writePartKey s p.val key))

/-- A write of ID and ANCHOR_ID of `ZW_MODULE`: held until every partition is quiesced at once. -/
def writeModuleId (s : State) (id anchor : BitVec 12) : State :=
  applyModuleId { s with zw := { s.zw with heldId := some (id, anchor) } }

/-- MODULE_ID_WRITE: through the module's own port, or by a CONFIG_WR of the anchor of another module. -/
def execModuleIdWrite (id anchor : BitVec 12) (byAnchor : Bool) (s : State) : Host.Outcome State Fault Refusal :=
  .next (if (byAnchor && !isMember s) || (!byAnchor && !hostUp s) then s
    else if isReady s then writeModuleId s id anchor
    else logIgnored s (regAt 7 0) (BitVec.ofNat 64 (id.toNat + 65536 * anchor.toNat)))

/-- `ZW_WIN_SEL.COMMIT`. -/
def commitWindow (s : State) : State :=
  { s with zw := { s.zw with windows := smSet 0 s.zw.windows s.zw.winSel.toNat s.zw.winStage } }

/-- ZW_WIN_COMMIT. -/
def execZwWinCommit (s : State) : Host.Outcome State Fault Refusal :=
  .next (setupWrite s (regAt 7 0x30) (s.zw.winSel.toNat + 2 ^ 31) commitWindow)

/-- A command that names a ring group is started: a ring ATTEND, or a REFINE with one in its graphs. -/
def ringGroupUsed (s : State) (g : Nat) : Bool :=
  s.cmds.any (fun c => (c.phase == .started || c.phase == .ending)
    && ((opcodeOf c.desc == 0x18 && ringGroupNo c.desc == g) || (opcodeOf c.desc == 0x30 && c.refine.groups.contains g)))

/-- `PART_RGRP_SEL.COMMIT`. -/
def commitRingGroup (s : State) (off value : Nat) : State :=
  let g := s.part.rgrpGroup.toNat
  let n := fieldN s.part.rgrpCfgStage 0 7
  if g = 0 || decide (8 < g) || n = 1 || decide (64 < n) || ringGroupUsed s g then logIgnored s off (BitVec.ofNat 64 value)
  else
    let x := ringGroupOf s g
    { s with part := { s.part with rgroups := (smSet RingGroup.dflt s.part.rgroups g
      ⟨s.part.rgrpCfgStage, smSet 0 x.members s.part.rgrpMember.toNat s.part.rgrpMemberStage⟩) } }

/-- RING_GROUP_COMMIT. -/
def execRingGroupCommit (s : State) : Host.Outcome State Fault Refusal :=
  let v := s.part.rgrpGroup.toNat + 16 * s.part.rgrpMember.toNat + 2 ^ 31
  .next (setupWrite s (regAt 4 0x40) v (fun s => commitRingGroup s (regAt 4 0x40) v))

/-! ### Codec engines (R357) -/

/-- ENABLE = 0: ON leads to DRAINING, and the engine's commands that have not started complete with ABORTED. -/
def disableCodec (s : State) (d : Nat) : State :=
  let s := modCodec s d (fun c => { c with enable := false, enableHeld := false })
  if (codecOf s d).state != .on then s
  else
    abortAll (modCodec s d (fun c => { c with state := .draining })) (fun c =>
      runsHere c && codecOp (opcodeOf c.desc) && c.die == d && (c.phase == .waiting || c.phase == .issued))

/-- ENABLE = 1. -/
def enableCodec (s : State) (d : Nat) : State :=
  modCodec s d (fun c =>
    match c.state with
    | .off => { c with enable := true, state := .on }
    | .draining => { c with enable := true, enableHeld := true }
    | _ => { c with enable := true })

/-- A started command of an engine has not completed; an ENCODE whose completion alone is held for its release holds no engine (R340,
R357). -/
def onEngine (s : State) (d : Nat) (c : Cmd) : Bool :=
  runsHere c && codecOp (opcodeOf c.desc) && c.die == d
  && (c.phase == .started || (c.phase == .ending && (!heldForRelease c || outstanding s c.uid)))

/-- A drain ends once no started command of the engine is left: OFF with an empty pool, then ON for a held enable. -/
def endCodecDrain (s : State) (d : Nat) : State :=
  let c := codecOf s d
  if c.state != .draining
      || s.cmds.any (fun c => onEngine s d c || c.pool.any (fun x => x.1 == d)) then s
  else setCodec s d { c with state := if c.enableHeld then .on else .off, enableHeld := false, slots := [] }

/-- CODEC_DISABLE. -/
def execCodecDisable (d : DieIx) (s : State) : Host.Outcome State Fault Refusal :=
  .next (setupWrite s (regAt 8 8) 0 (fun s => disableCodec s d.val))

/-- CODEC_ENABLE. -/
def execCodecEnable (d : DieIx) (s : State) : Host.Outcome State Fault Refusal :=
  .next (setupWrite s (regAt 8 8) 1 (fun s => enableCodec s d.val))

/-! ### Fences, maintenance, injections (R105, R264, R265, R271) -/

/-- `HBM_FENCE` with GO = 1. -/
def writeFence (s : State) (d ch off value : Nat) : State :=
  if bit (dieOf s d).live ch then fenceChannel s d ch 2 else logIgnored s off (BitVec.ofNat 64 value)

/-- HBM_FENCE. -/
def execHbmFence (d : DieIx) (ch : ChanIx) (s : State) : Host.Outcome State Fault Refusal :=
  let off := dieRegAt d.val 1 0x18
  .next (setupWrite s off (ch.val + 2 ^ 31) (fun s => writeFence s d.val ch.val off (ch.val + 2 ^ 31)))

/-- `HBM_MAINT.GO`: held until the die is OFF; HBM_MAINTENANCE performs it. -/
def requestMaint (s : State) (d : Nat) : State := modDie s d (fun b => { b with maintHeld := true })

/-- HBM_MAINT. -/
def execHbmMaint (d : DieIx) (s : State) : Host.Outcome State Fault Refusal :=
  .next (setupWrite s (dieRegAt d.val 1 0x38) 1 (fun s => requestMaint s d.val))

/-- A write of `HBM_INJ`. -/
def writeHbmInj (s : State) (d : Nat) (v : W32) (off : Nat) : State :=
  match armWrite (dieOf s d).hbmInj v 0x33F 8 with
  | some x => modDie s d (fun b => { b with hbmInj := x })
  | none => logIgnored s off (v.zeroExtend 64)

/-- A write of `DIE_CLU_INJ`. -/
def writeCluInj (s : State) (d : Nat) (v : W32) (off : Nat) : State :=
  match armWrite (dieOf s d).cluInj v 0x31FFF 16 with
  | some x => modDie s d (fun b => { b with cluInj := x })
  | none => logIgnored s off (v.zeroExtend 64)

/-- HBM_INJ_ARM. -/
def execHbmInjArm (d : DieIx) (v : W32) (s : State) : Host.Outcome State Fault Refusal :=
  let off := dieRegAt d.val 1 0x58
  .next (setupWrite s off v.toNat (fun s => writeHbmInj s d.val v off))

/-- DIE_CLU_INJ_ARM. -/
def execDieCluInjArm (d : DieIx) (v : W32) (s : State) : Host.Outcome State Fault Refusal :=
  let off := dieRegAt d.val 0 0x28
  .next (setupWrite s off v.toNat (fun s => writeCluInj s d.val v off))

end Sys2Proof.Machine
end

