-- ==== Sys2Proof/Machine/Errors.lean ====
section
/-!
DEFINITION. The error ring's enable, its head, coalescing windows and message, and the persistent history in flash (R430 to
R439, R444 to R446).
-/
namespace Sys2Proof.Machine

open Sys2Proof

/-- Performs a write to the ERR_, PWR_ or TIME_ block at the module's own port: allowed before READY once the port is up, and
outside PWR_ not on a module whose anchor is another module (R466, R475). -/
def earlyWrite (s : State) (off value : Nat) (f : State → State) : State :=
  if !hostUp s then s else if isMember s then logIgnored s off (BitVec.ofNat 64 value) else f s

/-! ### The ring (R431, R435, R438) -/

/-- ENABLE = 1: the ring begins at index 0 with PHASE 1, and takes the buffer before any newer record. -/
def enableErr (s : State) : State :=
  if errEnabled s then s
  else flushBuffer { s with err := { s.err with cfg := setField s.err.cfg 0 1 1, writeIx := 0, head := 0, irqOwed := 0 } }

/-- ENABLE = 0: creation goes on into the buffer. -/
def disableErr (s : State) : State := { s with err := { s.err with cfg := setField s.err.cfg 0 1 0 } }

/-- ERR_RING_ENABLE. -/
def execErrRingEnable (s : State) : Host.Outcome State Fault Refusal :=
  .next (earlyWrite s (regAt 6 0x10) (setField s.err.cfg 0 1 1).toNat enableErr)

/-- ERR_RING_DISABLE. -/
def execErrRingDisable (s : State) : Host.Outcome State Fault Refusal :=
  .next (earlyWrite s (regAt 6 0x10) (setField s.err.cfg 0 1 0).toNat disableErr)

/-- ERR_HEAD_REREAD: while a record is held or a summary pending. -/
def execErrHeadReread (s : State) : Host.Outcome State Fault Refusal :=
  .next (if errEnabled s && !isMember s && (!s.err.held.isEmpty || s.err.summary.isSome) then errFlush (errReadHead s) else s)

/-- COAL_WINDOW_END: at a multiple of 2^COAL_LOG2 in TL40. -/
def execCoalWindowEnd (s : State) : Host.Outcome State Fault Refusal :=
  .next (if epochEnds s s.err.coalLog2 (fieldN s.err.cfg 8 5) s.err.coalBegan then endCoalWindow s else s)

/-- ERR_IRQ: at most once per 2^10 ticks, and when records have been written since the last message. -/
def execErrIrq (s : State) : Host.Outcome State Fault Refusal :=
  let due := s.err.irqLast.elim true (fun t => decide (1024 ≤ since s.time.now t))
  .next (if errEnabled s && bit s.err.cfg 27 && s.err.irqOwed != 0 && due then
      let s := sendMsix s 0 (fieldN s.err.cfg 16 11)
      { s with err := { s.err with irqOwed := 0, irqLast := some s.time.now } }
    else s)

/-! ### The history (R444 to R446) -/

/-- Puts an entry into the first free slot of the map-out table; a full table stays as it is. -/
def putSlot (e : W64) : List (Option W64) → List (Option W64)
  | [] => [some e]
  | none :: xs => some e :: xs
  | some x :: xs => some x :: putSlot e xs

/-- The table has a slot for one entry more. -/
def tableFull (xs : List (Option W64)) : Bool := decide (8192 ≤ (xs.filter Option.isSome).length)

/-- Programs one history write. -/
def programHistory (s : State) (w : HistWrite) : State :=
  match w with
  | .addMapOut e =>
    if s.flash.mapOuts.contains (some e) then s
    else if tableFull s.flash.mapOuts then logEvent s evHistoryFull 0 0 0
    else { s with flash := { s.flash with mapOuts := putSlot e s.flash.mapOuts } }
  | .dropMapOut e =>
    { s with flash := { s.flash with mapOuts := s.flash.mapOuts.map (fun x => if x == some e then none else x) } }
  | .addRepair e =>
    if 4096 ≤ s.flash.repairs.length then logEvent s evHistoryFull 0 1 0
    else { s with flash := { s.flash with repairs := s.flash.repairs ++ [e] } }
  | .setRepair e v => { s with flash := { s.flash with repairs := setRepairState s.flash.repairs e v } }
  | .logCopy r =>
    { s with flash := { s.flash with
      log := (if 8192 ≤ s.flash.log.length then s.flash.log.drop 1 else s.flash.log) ++ [r] } }
  | .retest v => { s with flash := { s.flash with retest := v } }
  | .clearLog => { s with flash := { s.flash with log := [] } }

/-- FLASH_HISTORY_WRITE: the management controller programs the oldest queued write, outside the inhibit, while it runs and
SPI_EN_N does not hold it in reset (R445, R489). A write that fails at a flash address is logged and given up (log entry 40). -/
def execFlashHistoryWrite (failedAt : Option W64) (s : State) : Host.Outcome State Fault Refusal :=
  .next (match s.flash.queue with
    | [] => s
    | w :: ws =>
      if s.pwr.inhibit || !s.pwr.running || !s.pwr.spiEnN then s
      else
        let s := { s with flash := { s.flash with queue := ws } }
        match failedAt with
        | none => programHistory s w
        | some a => logEvent s evFlashFailed 0 a 0)

/-- CLEAR_LOG: the erase waits behind earlier writes, and for the end of an inhibit. -/
def execClearLog (s : State) : Host.Outcome State Fault Refusal :=
  .next (earlyWrite s (regAt 6 0x20) (s.err.histSel.toNat % 2 ^ 31 + 2 ^ 31) (fun s => queueHistory s .clearLog))

/-- An entry of the history: part and index (R446). -/
def historyEntry (s : State) (part ix : Nat) : BitVec 512 :=
  match part with
  | 0 => ((s.flash.mapOuts.getD ix none).getD 0).zeroExtend 512
  | 1 => (s.flash.repairs.getD ix 0).zeroExtend 512
  | 2 => s.flash.log.getD ix 0
  | _ => 0

end Sys2Proof.Machine
end

