-- ==== Sys2Proof/Machine/Timeline.lean ====
section
/-!
DEFINITION. The timeline: its ticks, discipline and steps, the IEEE 1588 clock, and time served over Zweve (R313, R415 to
R421, R481, R488).
-/
namespace Sys2Proof.Machine

open Sys2Proof

/-! ### Ticks (R415, R419, R420) -/

/-- The tick count of IEEE 1588 time `sec` seconds and `ns` nanoseconds, of which TL40 keeps the low 40 bits (R415). -/
def tickOfTime (sec ns : Nat) : Nat := sec * 2 ^ 20 + ns * 2 ^ 20 / 1000000000

/-- Ticks since second 0, wraps included. -/
def absTick (s : State) : Nat := s.time.wraps * 2 ^ 40 + s.time.now.toNat

/-- Sets the timeline; the ticks behind `came` up to the new one are reached at it. -/
def setAbsTick (s : State) (came : Tick) (a : Nat) : State :=
  { s with time := { s.time with now := BitVec.ofNat 40 a, wraps := a / 2 ^ 40, cameFrom := came } }

/-- The timeline in units of 2^-20 ns, and in whole nanoseconds. -/
def fineNow (s : State) : Int := Int.ofNat (absTick s * 1000000000)

def nowNs (s : State) : Int := fineNow s / 1048576

/-- A cycle of the spool starts in the ticks after `a` up to `b`. -/
def cycleCrossed (s : State) (a b : Nat) : Bool :=
  match currentSpool s with
  | none => false
  | some p => decide ((a + p.period - p.phase) / p.period < (b + p.period - p.phase) / p.period)

/-- One tick of the reference: the timeline advances by one, or by two or none once in 2^10 ticks while an offset is
slewed. A cycle start that a doubled tick passes swaps the spool there. -/
def tick (s : State) : State :=
  let rc := s.time.refCount + 1
  let d : Nat := if rc = 0 then (if 0 < s.time.slew then 2 else if s.time.slew < 0 then 0 else 1) else 1
  let a := absTick s
  let came := if d = 0 then s.time.cameFrom else s.time.now
  let t := setAbsTick { s with time := { s.time with refCount := rc, slew := s.time.slew - (Int.ofNat d - 1) } } came (a + d)
  if d = 2 && cycleCrossed s a (a + 1) then swapSpool t else t

/-- No ring of the module is ON. -/
def noRingOn (s : State) : Bool := s.hq.rings.all (fun e => e.2.state != .on)

/-- A started REFINE: its running ticks are counted across a step. -/
def timedRefine (c : Cmd) : Bool := c.phase == .started && opcodeOf c.desc == 0x30

/-- The tick from which a step to tick `b` comes: every boundary that forward steps at one tick skip is reached at the last of
them (R420). -/
def stepsFrom (s : State) (d : Int) (b : Nat) : Tick :=
  if d ≤ 0 then BitVec.ofNat 40 b - 1
  else if elapsed s.time.now s.time.cameFrom ≤ 1 then s.time.now
  else s.time.cameFrom

/-- Steps the timeline by `d` ticks: skipped ticks run for no REFINE, a cycle start among them swaps the spool at the new
tick, every other boundary among them is reached there, and windows are looked at again (R419, R420). PPS edges keep their
age. -/
def stepTimeline (s : State) (d : Int) : State :=
  let a := absTick s
  let b := (Int.ofNat a + d).toNat
  let s1 := eachCmd s (fun s c =>
    if timedRefine c then
      let r := runningTicks s (cmdPart s c) (ctxTag c.desc) c.refine.stepStart s.time.now
      modCmd s c.uid (fun c => { c with refine := { c.refine with ran := c.refine.ran + r, stepStart := BitVec.ofNat 40 b } })
    else s)
  let pps := s1.time.pps.map (fun t => t + BitVec.ofInt 40 d)
  let s2 := setAbsTick { s1 with time := { s1.time with slew := 0, exchange := none, pps := pps } } (stepsFrom s d b) b
  let s3 := logEvent s2 evStepped 0 (BitVec.ofInt 64 d) 0
  windowChange (if 0 < d && cycleCrossed s a b then swapSpool s3 else s3)

/-- Saturates an offset in nanoseconds to 24 signed bits. -/
def satNs (x : Int) : BitVec 24 := BitVec.ofInt 24 (max (-8388608) (min 8388607 x))

/-- A valid sample: the timeline is `num / den` ticks, or `ns` nanoseconds, ahead (negative: behind). What it leads to is the whole
tick of R415 in which the true time lies (R419, R421). -/
def sample (s : State) (num : Int) (den : Nat) (ns : Int) : State :=
  let d : Int := Int.ofNat den
  let near := decide (-16 * d ≤ num) && decide (num ≤ 16 * d)
  let n := if near then min 8 (s.time.goodSamples + 1) else 0
  let first := !s.time.sampled
  let by_ := (-num) / d
  let s := { s with time := { s.time with
    goodSamples := n, locked := decide (8 ≤ n), holdover := false, offsetNs := satNs ns, sampled := true
    exchange := none } }
  let free := noRingOn s
  let s := if first && free then (if by_ = 0 then s else stepTimeline s by_)
    else if num ≤ -16384 * d && bit s.time.cfg 5 then stepTimeline s by_
    else if 16384 * d ≤ num && free then stepTimeline s by_
    else { s with time := { s.time with slew := by_ } }
  { s with time := { s.time with lastSample := s.time.now } }

/-! ### Configuration fields (R416) -/

def timeSource (s : State) : Nat := fieldN s.time.cfg 0 2
def ppsEn (s : State) : Bool := bit s.time.cfg 2
def ptpDomain (s : State) : Nat := fieldN s.time.cfg 8 8
def ptpPort (s : State) : Nat := fieldN s.time.cfg 16 4
def ptpMaster (s : State) : Bool := bit s.time.cfg 20

/-- An edge came in the last second, or in the one before. -/
def ppsIn (s : State) (second : Nat) : Bool := s.time.pps.any (fun t => since s.time.now t / 1048576 == second)

/-- PPS_OK: pulses in each of the last two seconds (R421). -/
def ppsOk (s : State) : Bool := ppsIn s 0 && ppsIn s 1

/-- TB_PPS_EDGE: the edge counts toward PPS_OK, and with PPS_EN it marks whole second `second`; under FREE the timeline's
own nearest second (log entry 39). -/
def execTbPpsEdge (second : Nat) (s : State) : Host.Outcome State Fault Refusal :=
  let recent := s.time.pps.filter (fun t => decide (since s.time.now t < 2097152))
  let s := { s with time := { s.time with pps := recent ++ [s.time.now] } }
  let n := if timeSource s = 0 then (absTick s + 524288) / 1048576 else second
  let off := Int.ofNat (absTick s) - Int.ofNat (tickOfTime n 0)
  .next (if ppsEn s then sample s off 1 (off * 1000000000 / 1048576) else s)

/-- PPS_OK_LOST: a second has passed without a pulse. -/
def execPpsOkLost (s : State) : Host.Outcome State Fault Refusal :=
  .next (if ppsIn s 0 then s else { s with time := { s.time with pps := [] } })

/-- TB_REF_CHANGE (R488): while the reference is absent the timeline runs from the internal oscillator, tick by tick as
before. -/
def execTbRefChange (present : Bool) (s : State) : Host.Outcome State Fault Refusal :=
  .next { s with time := { s.time with refOk := present } }

/-- TIME_HOLDOVER: 2^22 ticks without a valid sample, whatever the source. -/
def execTimeHoldover (s : State) : Host.Outcome State Fault Refusal :=
  .next (if !s.time.holdover && decide (2 ^ 22 ≤ since s.time.now s.time.lastSample) then
      logEvent { s with time := { s.time with holdover := true } } evHoldover 0 (s.time.offsetNs.signExtend 64) 0
    else s)

/-! ### IEEE 1588 messages (log entry 12) -/

/-- A big-endian number of a message. -/
def beNat (m : List Byte) (o n : Nat) : Nat := bytesToNat ((m.drop o).take n).reverse

def beBytes (n v : Nat) : List Byte := (natToBytes n v).reverse

/-- A timestamp of 48-bit seconds and 32-bit nanoseconds. -/
def tsNs (m : List Byte) (o : Nat) : Int := Int.ofNat (beNat m o 6 * 1000000000 + beNat m (o + 6) 4)

def tsBytes (ns : Int) : List Byte := beBytes 6 (ns.toNat / 1000000000) ++ beBytes 4 (ns.toNat % 1000000000)

/-- A timestamp, and correctionField, in units of 2^-20 ns. -/
def tsFine (m : List Byte) (o : Nat) : Int := tsNs m o * 1048576

def corrFine (m : List Byte) : Int := (BitVec.ofNat 64 (beNat m 8 8)).toInt * 16

def msgType (m : List Byte) : Nat := beNat m 0 1 % 16
def msgSeq (m : List Byte) : BitVec 16 := BitVec.ofNat 16 (beNat m 30 2)

/-- Port identity of this clock: zeros, the module ID, and a port number, 0 on the host path (R418). -/
def portIdentity (s : State) (n : Nat) : List Byte := List.replicate 6 0 ++ beBytes 2 s.zw.id.toNat ++ beBytes 2 n

/-- A message of 64 bytes: header of 34 bytes, body, zeros. -/
def ptpMsg (s : State) (type len flags portNo control logIv : Nat) (seq : BitVec 16) (corr body : List Byte) : List Byte :=
  padTo 64 (beBytes 1 type ++ beBytes 1 0x12 ++ beBytes 2 len ++ beBytes 1 (ptpDomain s) ++ [0] ++ beBytes 2 flags
    ++ corr ++ List.replicate 4 0 ++ portIdentity s portNo ++ beBytes 2 seq.toNat ++ beBytes 1 control ++ beBytes 1 logIv
    ++ body)

def zeroCorr : List Byte := List.replicate 8 0

/-- Delay_Req. -/
def delayReq (s : State) (portNo : Nat) : List Byte :=
  ptpMsg s 1 44 0 portNo 1 0x7F s.time.delaySeq zeroCorr (tsBytes 0)

/-- Two-step Sync, and its Follow_Up with the transmit timestamp. -/
def syncMsg (s : State) (portNo : Nat) (seq : BitVec 16) : List Byte :=
  ptpMsg s 0 44 0x200 portNo 0 0xFC seq zeroCorr (tsBytes 0)

def followUp (s : State) (portNo : Nat) (seq : BitVec 16) (t1 : Int) : List Byte :=
  ptpMsg s 8 44 0 portNo 2 0xFC seq zeroCorr (tsBytes t1)

/-- Delay_Resp to a Delay_Req that arrived at `t4`. -/
def delayResp (s : State) (portNo : Nat) (m : List Byte) (t4 : Int) : List Byte :=
  ptpMsg s 9 54 0 portNo 3 0x7F (msgSeq m) ((m.drop 8).take 8) (tsBytes t4 ++ (m.drop 20).take 10)

/-- Announce: priorities 128, clockClass 248, stepsRemoved of R418. -/
def announceMsg (s : State) (portNo : Nat) (seq : BitVec 16) : List Byte :=
  let steps := if timeSource s = 2 then s.time.stepsRemoved.toNat + 1 else 0
  ptpMsg s 0xB 64 0 portNo 5 0 seq zeroCorr (tsBytes 0 ++ beBytes 2 0 ++ [0] ++ beBytes 1 128 ++ beBytes 1 248
    ++ beBytes 1 0xFE ++ beBytes 2 0xFFFF ++ beBytes 1 128 ++ List.replicate 6 0 ++ beBytes 2 s.zw.id.toNat
    ++ beBytes 2 steps ++ beBytes 1 0xA0)

/-- A message in a TIME packet to the partner of a port (R313). -/
def sendTime (s : State) (p : Nat) (dst : BitVec 12) (m : List Byte) : State := txPush s p (msgPacket s 6 dst 0 0 m)

/-- The timestamp of a recent tick, in units of 2^-20 ns. -/
def tickFine (s : State) (t : Tick) : Int := Int.ofNat ((absTick s - since s.time.now t) * 1000000000)

/-! ### The slave (R417, R418) -/

/-- Counts `n` things discarded: messages, or TLVs of an accepted message. -/
def discardCount (s : State) (n : Nat) : State := { s with time := { s.time with discarded := s.time.discarded + n } }

def discardMsg (s : State) : State := discardCount s 1

/-- TLVs in the bytes behind a message's body: a type, a length and a value each. `fuel` bounds them. -/
def tlvCount : Nat → List Byte → Nat
  | 0, _ => 0
  | n + 1, bs => if bs.length < 4 then 0 else 1 + tlvCount n (bs.drop (4 + beNat bs 2 2))

/-- Discards and counts the TLVs of a message whose body ends at `body`, within its messageLength and the `n` bytes that came. -/
def discardTlvs (s : State) (m : List Byte) (body n : Nat) : State :=
  discardCount s (tlvCount 16 ((m.take (min n (beNat m 2 2))).drop body))

/-- A sample from an exchange whose four timestamps are known: offset ((t2 - t1) - (t4 - t3)) / 2. -/
def trySample (s : State) : State :=
  match s.time.exchange with
  | some ⟨_, some t1, t2, some t3, some t4⟩ =>
    let x := (t2 - t1) - (t4 - t3)
    sample s x 2000000000 (x / 2097152)
  | _ => s

/-- Which way the accepted Sync's Delay_Req goes. -/
inductive TimePath where
  | host
  | port (p : Nat) (src : BitVec 12)
  deriving DecidableEq, Repr

def TimePath.number : TimePath → Nat
  | .host => 0
  | .port p _ => p + 1

/-- Sends Delay_Req: by a write to `TIME_TX_ADDR`, with t3 at its issue, or in a TIME packet, with t3 at its transmission. -/
def sendDelayReq (s : State) (path : TimePath) : State :=
  let s := { s with time := { s.time with delaySeq := s.time.delaySeq + 1 } }
  match path with
  | .host =>
    if s.time.txAddr = 0 then s
    else
      let s := hostWrite s s.time.txAddr.toNat (delayReq s 0)
      { s with time := { s.time with exchange := s.time.exchange.map (fun e => { e with t3 := some (fineNow s) }) } }
  | .port p src => sendTime s p src (delayReq s (p + 1))

/-- A message of `n` bytes at the selected input, which arrived at `t2`. TLVs behind an accepted one are discarded and
counted. -/
def slaveMsg (s : State) (path : TimePath) (m : List Byte) (n : Nat) (t2 : Int) : State :=
  if beNat m 4 1 != ptpDomain s then discardMsg s
  else
    match msgType m with
    | 0 =>
      if n < 44 then discardMsg s
      else
        let t1 := if beNat m 6 1 / 2 % 2 = 1 then none else some (tsFine m 34)
        let s := discardTlvs s m 44 n
        sendDelayReq { s with time := { s.time with exchange := some ⟨msgSeq m, t1, t2 - corrFine m, none, none⟩ } } path
    | 8 =>
      match s.time.exchange with
      | some e =>
        if n < 44 || e.seqId != msgSeq m || e.t1.isSome then discardMsg s
        else
          let s := discardTlvs s m 44 n
          trySample { s with time := { s.time with exchange := some { e with t1 := some (tsFine m 34 + corrFine m) } } }
      | none => discardMsg s
    | 9 =>
      match s.time.exchange with
      | some e =>
        if n < 54 || msgSeq m != s.time.delaySeq || (m.drop 44).take 10 != portIdentity s path.number then discardMsg s
        else
          let s := discardTlvs s m 54 n
          trySample { s with time := { s.time with exchange := some { e with t4 := some (tsFine m 34 - corrFine m) } } }
      | none => discardMsg s
    | 0xB =>
      if n < 64 then discardMsg s
      else { s with time := { s.time with stepsRemoved := BitVec.ofNat 16 (beNat m 61 2) } }
    | _ => discardMsg s

/-- A write of `TIME_RX_GO`; t2 is its arrival (R418, R481). -/
def timeRxGo (s : State) (len off : Nat) : State :=
  if len < 34 || 64 < len then logIgnored s off (BitVec.ofNat 64 len)
  else if timeSource s != 1 then discardMsg s
  else slaveMsg s .host (padTo 64 ((bvToBytes 64 s.time.rxData).take len)) len (fineNow s)

/-- TIME_RX_GO. -/
def execTimeRxGo (len : BitVec 7) (s : State) : Host.Outcome State Fault Refusal :=
  .next (earlyWrite s (regAt 2 0x20) len.toNat (fun s => timeRxGo s len.toNat (regAt 2 0x20)))

/-! ### The master (R418) -/

/-- A port is in the MASTER state. -/
def masterPort (s : State) (p : Nat) : Bool :=
  ptpMaster s && (portOf s p).stage == .active && !(timeSource s == 2 && ptpPort s == p)

/-- A message that a master port sends every 2^log2 ticks is due (R418). -/
def sendDue (s : State) (log2 : Nat) (last : Option Tick) : Bool := last.elim true (fun t => decide (2 ^ log2 ≤ since s.time.now t))

/-- PTP_SYNC_SEND, every 2^16 ticks: queues a Sync; its Follow_Up follows once the Sync has left. -/
def execPtpSyncSend (p : PortIx) (s : State) : Host.Outcome State Fault Refusal :=
  .next (if masterPort s p.val && sendDue s 16 (portOf s p.val).syncAt then
      let s := modPort s p.val (fun q => { q with syncAt := some s.time.now })
      let s := { s with time := { s.time with syncSeq := s.time.syncSeq + 1 } }
      sendTime s p.val (portOf s p.val).partnerId (syncMsg s (p.val + 1) s.time.syncSeq)
    else s)

/-- PTP_ANNOUNCE_SEND, every 2^20 ticks. -/
def execPtpAnnounceSend (p : PortIx) (s : State) : Host.Outcome State Fault Refusal :=
  .next (if masterPort s p.val && sendDue s 20 (portOf s p.val).announceAt then
      let s := modPort s p.val (fun q => { q with announceAt := some s.time.now })
      let s := { s with time := { s.time with announceSeq := s.time.announceSeq + 1 } }
      sendTime s p.val (portOf s p.val).partnerId (announceMsg s (p.val + 1) s.time.announceSeq)
    else s)

/-- What the codeword marker of this module's TIME packet sets off: t3 of a Delay_Req, the Follow_Up of a Sync (R313, R418). -/
def timeSent (s : State) (p : Nat) (k : Packet) : State :=
  if k.type != 0xA || k.op != 6 || k.src != s.zw.id then s
  else
    match msgType k.data with
    | 0 => sendTime s p k.dst (followUp s (p + 1) (msgSeq k.data) (nowNs s))
    | 1 =>
      if msgSeq k.data == s.time.delaySeq then
        { s with time := { s.time with exchange := s.time.exchange.map (fun e => { e with t3 := some (fineNow s) }) } }
      else s
    | _ => s

/-- A TIME packet for this module: the selected input's slave, or a Delay_Req on a master port (R417, R418). -/
def timePacket (s : State) (p : Nat) (k : Packet) : State :=
  let t := tickFine s k.stamp
  if timeSource s == 2 && ptpPort s == p then slaveMsg s (.port p k.src) k.data 64 t
  else if masterPort s p && beNat k.data 4 1 == ptpDomain s && msgType k.data == 1 then
    let s := discardTlvs s k.data 44 64
    sendTime s p k.src (delayResp s (p + 1) k.data (t / 1048576))
  else discardMsg s

end Sys2Proof.Machine
end

