-- ==== Sys2Proof/Machine/Requests.lean ====
section
/-!
DEFINITION. What becomes of the requests that a module has sent: answers, refusals, timeouts and lost packets, by the reason
for which each was sent (R297 to R299, R310, R311, R478).
-/
namespace Sys2Proof.Machine

open Sys2Proof

/-- The request that a TAG names. -/
def findRequest (s : State) (die tag : Nat) : Option Request :=
  s.zw.requests.find? (fun r => r.die == die && r.tag.toNat == tag)

def dropRequest (s : State) (r : Request) : State :=
  { s with zw := { s.zw with requests := s.zw.requests.filter (fun x => !(x.die == r.die && x.tag == r.tag)) } }

def modRequest (s : State) (r : Request) (f : Request → Request) : State :=
  { s with zw := { s.zw with requests := s.zw.requests.map (fun x => if x.die == r.die && x.tag == r.tag then f x else x) } }

/-- Every ending command goes on as far as it may, and every finished one of a member: an answer has come or a tag is free. -/
def advanceAll (s : State) : State :=
  memberPost ((allCmds s).foldl (fun s c =>
    (findCmd s c.uid).elim s (fun c => if c.phase == .ending then advanceEnd s c.uid else s)) s)

/-- A command's remote access has failed: its record, and its end by the stage it stands in (R297, R380). -/
def failAccess (s : State) (r : Request) (reason : Nat) (st : Status) : State :=
  match r.cmd with
  | none => s
  | some u =>
    let s := logCmd (dropPool s u) u evRequestFailed (r.port / 2) false
      (requestWord r.dst.toNat r.type.toNat reason st.code) r.addr 0 0
    match findCmd s u with
    | none => s
    | some c =>
      match c.phase with
      | .started => failMember (failGraph (dropGroups (dropLoads s u) u) u) c st
      | .ending => advanceEnd (modCmd s u (fun c => failEnding c st)) u
      | .waiting => failCmd s u st
      | .issued => failCmd s u st
      | .suspended => failMember (dropGroups (dropLoads s u) u) c st
      | .finished => s
      | .forwarded => s

/-- The placement index that holds a module ID. -/
def memberIndex (s : State) (id : BitVec 12) : Option Nat :=
  (range 1 63).find? (fun i => (memberOf s i).valid && (memberOf s i).id == id)

/-- A probe has gone unanswered or was refused: the member's forwarded commands end with FABRIC_TIMEOUT in submission order,
and a quiet period of four timeouts begins (R311). -/
def memberLost (s : State) (i : Nat) : State :=
  let m := memberOf s i
  let s := setMember s i { m with probeSent := none, quietUntil := some (s.time.now + BitVec.ofNat 40 (4 * timeoutTicks s)) }
  let s := { s with zw := { s.zw with memberSeqs := s.zw.memberSeqs.filter (fun x => x.1 != m.id) } }
  eachCmd s (fun s c =>
    if c.phase == .forwarded && c.module.toNat == i then failForward s c.uid c.forwardId.toNat 0 0 .fabricTimeout else s)

/-- STATUS of `GLB_RCFG_CTRL`, and the data of a read. -/
def endRcfg (s : State) (st : Status) (data : Option W64) : State :=
  { s with glb := { s.glb with
    rcfgCtrl := setField s.glb.rcfgCtrl 48 16 st.code, rcfgData := data.getD s.glb.rcfgData, rcfgWaits := false } }

/-- A request has failed: refused, lost, or unanswered in time. It is no longer outstanding. -/
def failRequest (s : State) (r : Request) (reason : Nat) (st : Status) : State :=
  match r.kind with
  | .read => failAccess s r reason st
  | .write => failAccess s r reason st
  | .atomic => failAccess s r reason st
  | .signal => failAccess s r reason st
  | .desc =>
    match r.cmd.bind (findCmd s) with
    | some c => if c.phase == .forwarded then failForward s c.uid r.dst.toNat (r.port / 2) reason st else s
    | none => s
  | .probe => (memberIndex s r.dst).elim s (memberLost s)
  | .rcfg => endRcfg s st none

/-- Ends a request with a failure; its tag is free. -/
def endRequest (s : State) (r : Request) (reason : Nat) (st : Status) : State :=
  advanceAll (failRequest (dropRequest s r) r reason st)

/-- A request fails while its answer may still come: its tag stays taken (R298). -/
def giveUpRequest (s : State) (r : Request) (reason : Nat) (st : Status) : State :=
  advanceAll (failRequest (modRequest s r (fun x => { x with late := true })) r reason st)

/-- A request runs out of time. -/
def timeoutRequest (s : State) (r : Request) : State := giveUpRequest s r 0 .fabricTimeout

/-- The timeout of a request has passed. -/
def overdue (s : State) (r : Request) (times : Nat) : Bool := decide (times * timeoutTicks s < since s.time.now r.sent)

/-- REQUEST_TIMEOUT (R298). -/
def execRequestTimeout (d : DieIx) (tag : BitVec 13) (s : State) : Host.Outcome State Fault Refusal :=
  .next (match findRequest s d.val tag.toNat with
    | some r =>
      if !r.late && overdue s r 1 && (r.kind == .read || r.kind == .write || r.kind == .atomic || r.kind == .signal) then
        timeoutRequest s r
      else s
    | none => s)

/-- DESC_TIMEOUT: no answer to a DESC of the command (R310). -/
def execDescTimeout (u : Uid) (s : State) : Host.Outcome State Fault Refusal :=
  .next (match s.zw.requests.find? (fun r => r.cmd == some u && r.kind == .desc && !r.late && overdue s r 1) with
    | some r => timeoutRequest s r
    | none => s)

/-- REMOTE_CONFIG_TIMEOUT (R478). -/
def execRemoteConfigTimeout (s : State) : Host.Outcome State Fault Refusal :=
  .next (match s.zw.requests.find? (fun r => r.kind == .rcfg && !r.late && overdue s r 1) with
    | some r => timeoutRequest s r
    | none => s)

/-- MEMBER_PROBE_TIMEOUT (R311). -/
def execMemberProbeTimeout (i : Fin 64) (s : State) : Host.Outcome State Fault Refusal :=
  .next (match s.zw.requests.find? (fun r =>
      r.kind == .probe && !r.late && r.dst == (memberOf s i.val).id && overdue s r 1) with
    | some r => timeoutRequest s r
    | none => s)

/-- TAG_REUSE_TIMEOUT: twice the timeout after it was sent, an unanswered request gives up its tag (R298). -/
def execTagReuseTimeout (d : DieIx) (tag : BitVec 13) (s : State) : Host.Outcome State Fault Refusal :=
  .next (match findRequest s d.val tag.toNat with
    | some r => if r.late && overdue s r 2 then advanceAll (dropRequest s r) else s
    | none => s)

/-! ### Requests of a control kind (R311, R478) -/

/-- Sends a CONFIG_RD or CONFIG_WR from die 0; `none` without a free tag, `some none` without a route. -/
def sendConfig (s : State) (kind : ReqKind) (write : Bool) (dst : BitVec 12) (addr : BitVec 38) (data : W64) :
    Option (Option State) :=
  match freeForwardTag s with
  | none => none
  | some t =>
    let bs := if write then bvToBytes 8 data ++ List.replicate 8 0 else []
    some ((sendMsg s (if write then 4 else 3) dst (BitVec.ofNat 16 t) addr bs).map (fun s =>
      { s with zw := { s.zw with
        requests := s.zw.requests ++ [⟨0, BitVec.ofNat 13 t, none, kind, dst, 0xA, 0, 8, s.time.now, false,
          (routePort s dst.toNat 0 0).getD 0⟩]
        nextTag := smSet 0 s.zw.nextTag 0 ((t + 1) % 8192) } }))

/-- 2^TIMEOUT_LOG2 ticks have passed since the last probe of a member (R311). -/
def probeDue (s : State) (m : Member) : Bool :=
  m.lastProbe.elim true (fun t => decide (timeoutTicks s ≤ since s.time.now t))

/-- MEMBER_PROBE: every 2^TIMEOUT_LOG2 ticks a CONFIG_RD of `GLB_ID` to a member that holds accepted forwarded commands, unless
one is out or the quiet period runs. Without a route the probe cannot be answered, and the member counts as lost. -/
def execMemberProbe (i : Fin 64) (s : State) : Host.Outcome State Fault Refusal :=
  let m := memberOf s i.val
  let holds := s.cmds.any (fun c => c.phase == .forwarded && c.module.toNat == i.val
    && !s.zw.requests.any (fun r => r.cmd == some c.uid && r.kind == .desc && !r.late))
  let out := s.zw.requests.any (fun r => r.kind == .probe && r.dst == m.id && !r.late)
  .next (if isMember s || !holds || out || m.quietUntil.isSome || !probeDue s m then s
    else
      match sendConfig s .probe false m.id 0 0 with
      | some (some t) => setMember t i.val { memberOf t i.val with probeSent := some s.time.now, lastProbe := some s.time.now }
      | some none => memberLost s i.val
      | none => s)

/-- QUIET_PERIOD_END (R311). -/
def execQuietPeriodEnd (i : Fin 64) (s : State) : Host.Outcome State Fault Refusal :=
  let m := memberOf s i.val
  .next (match m.quietUntil with
    | some t => if reached s.time.now t then setMember s i.val { m with quietUntil := none } else s
    | none => s)

/-- ANCHOR_SILENCE: a member that has heard nothing from its anchor for four timeouts ends its forwarded commands: at the
next tile boundary, a codec command at its completion, one that runs nothing at once (R311). -/
def execAnchorSilence (s : State) : Host.Outcome State Fault Refusal :=
  .next (if isMember s && decide (4 * timeoutTicks s < since s.time.now s.zw.anchorHeard) then
      eachCmd s (fun s c =>
        if c.origin.isNone then s
        else
          match c.phase with
          | .started =>
            if codecOp (opcodeOf c.desc) || groupsRunning s c.uid then
              modCmd s c.uid (fun c => { c with aborting := true, orphan := true })
            else abortCmd (logAborted s c.uid) c
          | .waiting => abortCmd (logAborted s c.uid) c
          | .issued => abortCmd (logAborted s c.uid) c
          | .suspended => abortCmd (logAborted s c.uid) c
          | .ending => s
          | .finished => s
          | .forwarded => s)
    else s)

/-! ### `GLB_RCFG_CTRL` (R478) -/

/-- An access is in flight, or waits for a tag. -/
def rcfgBusy (s : State) : Bool := s.glb.rcfgWaits || s.zw.requests.any (fun r => r.kind == .rcfg && !r.late)

/-- Sends the access that `GLB_RCFG_CTRL` holds. It waits while no tag is free (R298, log entry 9). -/
def startRcfg (s : State) : State :=
  let ctrl := s.glb.rcfgCtrl
  let m := memberOf s (fieldN ctrl 0 6)
  if !m.valid || m.quietUntil.isSome then endRcfg s .fabricUnreachable none
  else
    match sendConfig s .rcfg s.glb.rcfgWrite m.id (field ctrl 8 22 |>.zeroExtend 38) s.glb.rcfgData with
    | some (some t) => { t with glb := { t.glb with rcfgWaits := false } }
    | some none => endRcfg s .fabricUnreachable none
    | none => { s with glb := { s.glb with rcfgWaits := true } }

/-- An access that waits for a tag is tried again. -/
def retryRcfg (s : State) : State := if s.glb.rcfgWaits then startRcfg s else s

/-- A write of `GLB_RCFG_CTRL` on fields in `mask`; GO starts an access. A MODULE of 0 is ignored. -/
def writeRcfg (s : State) (v mask : W64) (off : Nat) : State :=
  let keep : W64 := 0x7FFFFF3F &&& mask
  let go := bit v 31 && bit mask 31
  let ctrl := (s.glb.rcfgCtrl &&& ~~~keep) ||| (v &&& keep)
  let i := fieldN ctrl 0 6
  if rcfgBusy s || i = 0 || (go && isMember s) then logIgnored s off v
  else if go then startRcfg { s with glb := { s.glb with rcfgCtrl := ctrl, rcfgWrite := bit ctrl 30 } }
  else { s with glb := { s.glb with rcfgCtrl := ctrl } }

/-- REMOTE_CONFIG_GO: the write of `GLB_RCFG_CTRL` that sets GO. -/
def execRemoteConfigGo (v : W64) (s : State) : Host.Outcome State Fault Refusal :=
  .next (setupWrite s (regAt 0 0x40) (v ||| 0x80000000).toNat
    (fun s => writeRcfg s (v ||| 0x80000000) (BitVec.allOnes 64) (regAt 0 0x40)))

end Sys2Proof.Machine
end

