-- ==== Sys2Proof/Machine/Packets.lean ====
section
/-!
DEFINITION. Packets as 16 B slots, flits as 128 B words with their control slots and CRC, their codewords, refusals by NAK,
and the reception of packets at a port (R275, R281 to R290, R301, R305, R306).
-/
namespace Sys2Proof.Machine

open Sys2Proof

/-! ### Packets and slots (R281, R286 to R290) -/

/-- The CRC of a flit with its CRC field taken as zero. -/
def flitCrc (f : BitVec 1024) : W32 := crc32c (bvToBytes 128 (setField f 96 32 0))

/-- Data bytes of a LEN code; `none` for a reserved one (R287). -/
def lenBytes (l : BitVec 4) : Option Nat :=
  match l.toNat with
  | 0 => some 0 | 1 => some 16 | 2 => some 32 | 3 => some 64 | 4 => some 128 | 5 => some 256 | _ => none

/-- The slots that follow a header slot. A header with a reserved TYPE or LEN stands alone. -/
def dataSlots (h : BitVec 128) : Nat :=
  match fieldN h 0 4 with
  | 1 => 0
  | 3 => (lenBytes (field h 50 4)).elim 0 (fun n => n / 16 + 1)
  | 2 => (lenBytes (field h 50 4)).elim 0 (· / 16)
  | 4 => (lenBytes (field h 50 4)).elim 0 (· / 16)
  | 8 => (lenBytes (field h 50 4)).elim 0 (· / 16)
  | 0xA => (lenBytes (field h 50 4)).elim 0 (· / 16)
  | _ => 0

/-- The header slot of a packet. -/
def headerSlot (k : Packet) : BitVec 128 :=
  let low : BitVec 50 := k.tag ++ k.src ++ k.dst ++ k.hops ++ k.tc ++ k.type
  if k.type = 8 then ((0#54) ++ k.status ++ (0#4) ++ k.len ++ low : BitVec 128)
  else if k.type = 9 then ((0#66) ++ field k.status 4 4 ++ field k.status 0 4 ++ (0#4) ++ low : BitVec 128)
  else (k.key ++ k.addr ++ k.op ++ k.len ++ low : BitVec 128)

/-- The slots of a packet: header, data, and the mask of a WRM last (log entry 17). -/
def packetSlots (k : Packet) : List (BitVec 128) :=
  headerSlot k :: ((List.range (k.data.length / 16)).map (fun i => bytesToBv 128 ((k.data.drop (16 * i)).take 16)))
    ++ (if k.type = 3 then [k.mask] else [])

/-- Reads a packet from its slots. -/
def parsePacket (h : BitVec 128) (ds : List (BitVec 128)) (stamp : Tick) : Packet where
  type := field h 0 4
  tc := field h 4 2
  hops := field h 6 4
  dst := field h 10 12
  src := field h 22 12
  tag := field h 34 16
  len := if fieldN h 0 4 = 9 then 0 else field h 50 4
  op := if fieldN h 0 4 = 8 || fieldN h 0 4 = 9 then 0 else field h 54 4
  addr := if fieldN h 0 4 = 8 || fieldN h 0 4 = 9 then 0 else field h 58 38
  key := if fieldN h 0 4 = 8 || fieldN h 0 4 = 9 then 0 else field h 96 32
  status := if fieldN h 0 4 = 8 then field h 58 16 else if fieldN h 0 4 = 9 then field h 54 8 |>.zeroExtend 16 else 0
  reserved :=
    if fieldN h 0 4 = 8 then fieldN h 54 4 != 0 || fieldN h 74 54 != 0
    else if fieldN h 0 4 = 9 then fieldN h 50 4 != 0 || fieldN h 62 66 != 0
    else false
  data := ((if fieldN h 0 4 = 3 then ds.dropLast else ds).map (bvToBytes 16)).flatten
  mask := if fieldN h 0 4 = 3 then ds.getLastD 0 else 0
  stamp := stamp
  flow := 0

/-- Slots of a packet, header included. -/
def slotCount (k : Packet) : Nat := 1 + dataSlots (headerSlot k)

/-- Local offset that a request names. -/
def packetAddr (k : Packet) : Nat := k.addr.toNat * 8

/-- LEN that a MSG kind carries; `none` for a reserved kind (R289, R290). -/
def msgLen (kind : Nat) : Option Nat :=
  match kind with
  | 0 => some 3 | 1 => some 4 | 2 => some 2 | 3 => some 0 | 4 => some 1 | 5 => some 3 | 6 => some 3 | _ => none

/-- A packet is malformed (R287, R288, R296). -/
def malformed (k : Packet) : Bool :=
  let l := k.len.toNat
  let a := packetAddr k
  let within := (lenBytes k.len).elim false (fun n => decide (a % 2048 + n ≤ 2048))
  k.reserved
  || !(match k.type.toNat with
    | 1 => decide (1 ≤ l) && decide (l ≤ 5) && aligned 16 a && within
    | 2 => decide (1 ≤ l) && decide (l ≤ 5) && aligned 16 a && within
    | 3 => decide (1 ≤ l) && decide (l ≤ 4) && aligned 16 a && within
    | 4 => l == 1 && decide (k.op.toNat ≤ 2)
    | 8 => decide (l ≤ 5)
    | 9 => true
    | 0xA => msgLen k.op.toNat == some l
    | _ => false)

/-- A packet that is answered or refused by NAK: every type but RSP and NAK (R289). -/
def refusable (k : Packet) : Bool := k.type != 8 && k.type != 9

/-! ### Flits (R281) -/

/-- Eight credit returns of at most 255 (R281), and what is left owed. -/
def creditField (q : Port) : BitVec 64 :=
  BitVec.ofNat 64 (((List.range 8).map (fun p => min 255 (smGet 0 q.owed p) * 2 ^ (8 * p))).sum)

/-- Takes what one flit returns off a count by pool. -/
def lessReturned (q : Port) (m : SMap Nat) : SMap Nat :=
  (List.range 8).foldl (fun m p => smSet 0 m p (smGet 0 m p - min 255 (smGet 0 q.owed p))) m

/-- A flit from its control fields and up to seven slots. -/
def makeFlit (seq ack : BitVec 12) (nak idle : Bool) (credit : BitVec 64) (slots : List (BitVec 128)) : BitVec 1024 :=
  let control : BitVec 128 := (0#32) ++ credit ++ (0#6) ++ BitVec.ofBool idle ++ BitVec.ofBool nak ++ ack ++ seq
  let f : BitVec 1024 := bytesToBv 1024 ((control :: slots).flatMap (bvToBytes 16))
  setField f 96 32 (flitCrc f).toNat

/-- An idle flit with an ACK. -/
def idleFlit (ack : BitVec 12) (nak : Bool) : BitVec 1024 := makeFlit 0 ack nak true 0 []

/-- Forms codewords from every five flits that wait: successive codewords go to the lanes in turn, and each lane counts its own
(R275, log entry 68). `fuel` bounds the codewords. -/
def formCodewords : Nat → Port → Port
  | 0, q => q
  | n + 1, q =>
    if q.txFlits.length < 5 then q
    else
      let w := max 1 q.width.toNat
      let j := q.txWords % w
      formCodewords n { q with
        txFlits := q.txFlits.drop 5, txWords := q.txWords + 1
        wire := q.wire ++ [(j, fecEncode (codewordOf j (q.txWords / w) (q.txFlits.take 5)))] }

/-- Flits leave a port in this order. -/
def putFlits (q : Port) (fs : List (BitVec 1024)) : Port :=
  formCodewords (fs.length + 1) { q with txFlits := q.txFlits ++ fs }

/-- Cuts slots into flits of seven. -/
def chunk7 : Nat → List (BitVec 128) → List (List (BitVec 128))
  | 0, _ => []
  | n + 1, xs => if xs.isEmpty then [] else xs.take 7 :: chunk7 n (xs.drop 7)

/-! ### Counters of a port (R316), in the order listed -/

def bumpPort (s : State) (p k : Nat) : State := modPort s p (fun q => { q with counters := bump q.counters k 1 })

def cntFlitTx : Nat := 0
def cntFlitRx : Nat := 1
def cntReplay : Nat := 2
def cntFecCorr : Nat := 3
def cntFecUncorr : Nat := 4
def cntCrc : Nat := 5
def cntNakTx : Nat := 6
def cntNakRx : Nat := 7
def cntLate : Nat := 8
def cntQuar : Nat := 9
def cntRetrain : Nat := 10

/-! ### Refusals and quarantine (R288, R289, R305, R306) -/

/-- A NAK of a packet: SRC and DST swap, TAG and class are kept. -/
def nakOf (s : State) (k : Packet) (reason : Nat) : Packet where
  type := 9
  tc := k.tc
  hops := hopLimit s
  dst := k.src
  src := k.dst
  tag := k.tag
  len := 0
  op := 0
  addr := 0
  key := 0
  status := BitVec.ofNat 16 (reason + 16 * k.type.toNat)
  reserved := false
  data := []
  mask := 0
  stamp := 0
  flow := 0

/-- NAK_LIMIT, NAK_WIN_LOG2 and 2^QUAR_LOG2 (R314). -/
def nakLimit (s : State) : Nat := fieldN s.zw.linkCfg 16 8
def nakWindow (s : State) : Nat := fieldN s.zw.linkCfg 24 5
def quarTicks (s : State) : Nat := 2 ^ fieldN s.zw.linkCfg 29 5

/-- Starts a quarantine (R306). -/
def startQuarantine (s : State) (p : Nat) : State :=
  let s := modPort s p (fun q => { q with quarUntil := some (s.time.now + BitVec.ofNat 40 (quarTicks s)) })
  logEvent (bumpPort s p cntQuar) evQuarStart (p / 2) (BitVec.ofNat 64 p) 0

/-- Sends a NAK for a packet received on port `p`, when its source has a route. One of R285, R288 or R303 counts against the
port. An RSP or NAK is never answered: it is discarded and counted (R289, log entry 70). -/
def refuse (s : State) (p : Nat) (k : Packet) (reason : Nat) : State :=
  if !refusable k then modPort s p (fun q => { q with badAnswers := q.badAnswers + 1 })
  else
    match routePort s k.src.toNat k.tc.toNat (k.tag.toNat / 8192) with
    | none => s
    | some o =>
      let s := bumpPort (txPush s o (nakOf s k reason)) p cntNakTx
      if reason = 4 then s
      else
        let s := modPort s p (fun q => { q with nakCount := q.nakCount + 1 })
        if nakLimit s ≤ (portOf s p).nakCount && (portOf s p).quarUntil.isNone then startQuarantine s p else s

/-- QUARANTINE_END: it restarts at once while the count is still at the limit in the current window. -/
def execQuarantineEnd (p : PortIx) (s : State) : Host.Outcome State Fault Refusal :=
  .next (match (portOf s p.val).quarUntil with
    | some t =>
      if reached s.time.now t then
        let s := modPort s p.val (fun q => { q with quarUntil := none, quarAnswer := none })
        let s := logEvent s evQuarEnd (p.val / 2) (BitVec.ofNat 64 p.val) 0
        if nakLimit s ≤ (portOf s p.val).nakCount then startQuarantine s p.val else s
      else s
    | none => s)

/-- NAK_WINDOW_END (R305). -/
def execNakWindowEnd (p : PortIx) (s : State) : Host.Outcome State Fault Refusal :=
  .next (if atBoundary s (nakWindow s) (portOf s p.val).nakBegan then
      modPort s p.val (fun q => { q with nakCount := 0, nakBegan := s.time.now })
    else s)

/-! ### Reception of a packet (R284, R285, R288, R306) -/

/-- Credits that the device advertises for each pool (R279). -/
def advertised : Nat := 2048

/-- Owes a packet's credits to the partner. -/
def oweCredits (s : State) (p : Nat) (k : Packet) : State :=
  modPort s p (fun q => { q with owed := smSet 0 q.owed (poolOf k) (smGet 0 q.owed (poolOf k) + slotCount k) })

/-- Adds a packet's slots to those received. -/
def occupy (s : State) (p : Nat) (k : Packet) : State :=
  modPort s p (fun q => { q with occupied := smSet 0 q.occupied (poolOf k) (smGet 0 q.occupied (poolOf k) + slotCount k) })

/-- A quarantined port answers at most one refused packet per 2^10 ticks, and only counts the others (log entry 70). -/
def refuseQuarantined (s : State) (p : Nat) (k : Packet) : State :=
  if (portOf s p).quarAnswer.elim true (fun t => decide (1024 ≤ since s.time.now t)) then
    refuse (modPort s p (fun q => { q with quarAnswer := some s.time.now })) p k 4
  else modPort s p (fun q => { q with quarDropped := q.quarDropped + 1 })

/-- A NEG message, which uses no credits and is never routed (R279). -/
def isNeg (k : Packet) : Bool := k.type == 0xA && k.op == 0 && k.len == 3

/-- A whole packet has arrived: it is refused, or joins the received packets. The slots of a refused one count as received
until its credits have been returned (R285). DESIGN CHOICE (log entry 84): an overrun of the credits is answered with NAK CREDIT
also on a quarantined port, whose limit of answers (R306) is for what the quarantine refuses. -/
def acceptPacket (s : State) (p : Nat) (k : Packet) : State :=
  let q := portOf s p
  let t := occupy s p k
  if isNeg k then s
  else if advertised < smGet 0 q.occupied (poolOf k) + slotCount k then refuse (oweCredits t p k) p k 1
  else if q.quarUntil.isSome && refusable k then refuseQuarantined (oweCredits t p k) p k
  else if malformed k then refuse (oweCredits t p k) p k 3
  else modPort t p (fun q => { q with rxPackets := q.rxPackets ++ [k] })

/-- Adds received slots to the packet in assembly; an empty header slot is skipped (R281). -/
def takeSlots (t : Tick) : List (BitVec 128) → State → Nat → State
  | [], s, _ => s
  | x :: xs, s, p =>
    let q := portOf s p
    let (held, stamp) := if q.partialSlots.isEmpty then ([x], t) else (q.partialSlots ++ [x], q.partialStamp)
    if q.partialSlots.isEmpty && fieldN x 0 4 == 0 then takeSlots t xs s p
    else
      let h := held.headD 0
      if held.length < 1 + dataSlots h then
        takeSlots t xs (setPort s p { q with partialSlots := held, partialStamp := stamp }) p
      else
        takeSlots t xs (acceptPacket (setPort s p { q with partialSlots := [] }) p (parsePacket h (held.drop 1) stamp)) p

/-- Takes the packet at the front of a port's received packets when it satisfies `f`; its credits are owed (R284). -/
def takePacket (s : State) (p : Nat) (f : Packet → Bool) : Option (Packet × State) :=
  let q := portOf s p
  match q.rxPackets with
  | [] => none
  | k :: rest =>
    if f k then some (k, oweCredits (setPort s p { q with rxPackets := rest }) p k)
    else none

/-- Moves a packet for another module on, or refuses it with reason ROUTE (R303). -/
def forwardPacket (s : State) (p : Nat) (k : Packet) : State :=
  if k.hops = 0 then refuse s p k 2
  else
    match routePort s k.dst.toNat k.tc.toNat (k.tag.toNat / 8192) with
    | some o => txPush s o { k with hops := k.hops - 1 }
    | none => refuse s p k 2

/-- A row of one packet type: forwards it, or performs it at its destination. -/
def packetRow (s : State) (p : Nat) (f : Packet → Bool) (act : State → Packet → State) : State :=
  match takePacket s p f with
  | none => s
  | some (k, s) => if k.dst = s.zw.id then act s k else forwardPacket s p k

end Sys2Proof.Machine
end

