-- ==== Sys2Proof/Machine/Link.lean ====
section
/-!
DEFINITION. A Zweve port: detection, training and negotiation, retraining and going Down, codewords, flits with their
acknowledgements and replay, transmission by class, and the drain of a port (R275 to R285, R301, R307, R315, R442, R443).
-/
namespace Sys2Proof.Machine

open Sys2Proof

/-! ### Stages (R277, R307) -/

/-- The SerDes of a port's die have power: bring-up has reached TEST and the die is neither OFF nor changing (R461, R462). -/
def portPowered (s : State) (p : Nat) : Bool :=
  decide (3 ≤ s.pwr.stage.toNat) && !(pwrDieOf s (p / 2)).off && (pwrDieOf s (p / 2)).state != 2

/-- A disable waits for the port's drain to end. -/
def drains (q : Port) : Bool := !q.enable || q.enableHeld

/-- Begins at Detect. -/
def toDetect (s : State) (p : Nat) : State :=
  modPort s p (fun q => { q with stage := .detect, stageStart := s.time.now, lanesOk := 0 })

/-- A cable is seated at a port: ZWp_PRSNT_N is low (R487). -/
def cableSeated (s : State) (p : Nat) : Bool := bit s.pwr.cables p

/-- A port begins at Detect where it has power and a cable; without a cable it stays OFF, without training (R3, R487). -/
def beginPort (s : State) (p : Nat) : State := if portPowered s p && cableSeated s p then toDetect s p else s

/-- A port's stage OFF. -/
def stageOff (s : State) (p : Nat) : State :=
  modPort s p (fun q => { q with
    stage := .off, enableHeld := false, retraining := false, resync := false, width := 0, lanesOk := 0, retries := 0 })

/-- The port is OFF; a held enable takes it to Detect. -/
def portOff (s : State) (p : Nat) : State :=
  let held := (portOf s p).enableHeld
  let s := stageOff s p
  if held then beginPort s p else s

/-- A packet is a request of this module, which waits for an answer: of the MSG kinds, DESC, CONFIG_RD and CONFIG_WR
(R290, R298). -/
def ownRequest (s : State) (k : Packet) : Bool :=
  k.src == s.zw.id && refusable k && (k.type != 0xA || [1, 3, 4].contains k.op.toNat)

/-- TAGs of this module's own requests among what a port still holds. -/
def ownTags (s : State) (q : Port) : List (BitVec 16) :=
  q.replay.filterMap (fun x => x.2.2) ++ ((q.txq.flatMap Prod.snd).filter (ownRequest s)).map Packet.tag

/-- Own requests that are lost end with FABRIC_UNREACHABLE. Their tags stay taken: the answer may still come, and twice the
timeout has to pass (R280, R298). -/
def failTags : List (BitVec 16) → State → State
  | [], s => s
  | t :: ts, s =>
    match findRequest s (t.toNat / 8192) (t.toNat % 8192) with
    | some r => failTags ts (if r.late then s else giveUpRequest s r 0 .fabricUnreachable)
    | none => failTags ts s

/-- Discards a port's queues and replay buffer. -/
def discardQueues (s : State) (p : Nat) : State :=
  let tags := ownTags s (portOf s p)
  failTags tags (modPort s p (fun q => { q with
    replay := [], txq := [], partialSlots := [], txFlits := [], rxLanes := [], rxFlits := [], credits := [], occupied := [], owed := []
    rxPackets := [], timesOut := [] }))

/-- The port goes Down; a drain that it interrupts ends (R280, R307). -/
def goDown (s : State) (p cause : Nat) : State :=
  let wasDraining := drains (portOf s p)
  let s := modPort s p (fun q => { q with
    stage := .down, stageStart := s.time.now, retraining := false, resync := false, width := 0 })
  let s := logEvent s evPortDown (p / 2) (BitVec.ofNat 64 p) (BitVec.ofNat 64 cause)
  let s := discardQueues s p
  if wasDraining then portOff s p else s

/-- An attempt to become Active has failed: back to Detect, or OFF where the cable is gone, and Down after three retries (R277,
R487). -/
def failAttempt (s : State) (p : Nat) : State :=
  let q := portOf s p
  if 3 ≤ q.retries then goDown s p (if q.retraining then 1 else 0)
  else if !q.retraining && !cableSeated s p then stageOff s p
  else
    modPort s p (fun q => { q with
      retries := q.retries + 1, stage := .detect, lanesOk := 0, stageStart := if q.retraining then q.stageStart else s.time.now })

/-- The level of ZWp_PRSNT_N of a port. A port without a cable that is not further than Detect is OFF, and an enabled one that
gets a cable begins (R487). -/
def seatCable (s : State) (p : Nat) (seated : Bool) : State :=
  let s := { s with pwr := { s.pwr with cables := setField s.pwr.cables p 1 (if seated then 1 else 0) } }
  let q := portOf s p
  if !seated then (if q.stage == .detect && !q.retraining then stageOff s p else s)
  else if q.stage == .off && q.enable then beginPort s p else s

/-- A signal is detected on a lane: MAX_WIDTH is taken here (R315). -/
def detectSignal (s : State) (p : Nat) : State :=
  let q := portOf s p
  if q.stage == .detect && portPowered s p then
    setPort s p { q with
      stage := .train, limit := q.maxWidth, stageStart := if q.retraining then q.stageStart else s.time.now }
  else s

/-- PORT_DETECT: a signal on a lane of a port with a cable, or a cable that is gone (R277, R487, log entry 84). -/
def execPortDetect (x : CableEvent) (s : State) : Host.Outcome State Fault Refusal :=
  let t := seatCable s x.port.val x.seated
  .next (if x.seated then detectSignal t x.port.val else t)

/-- Lanes that MAX_WIDTH leaves: 4, 2 or 1. -/
def widthLimit (q : Port) : Nat := match q.limit.toNat with | 0 => 4 | 1 => 2 | _ => 1

/-- The port's NEG data (R279). -/
def negData (s : State) (p : Nat) : BitVec 512 :=
  let q := portOf s p
  let credits : BitVec 128 := BitVec.ofNat 128 (((List.range 8).map (fun i => advertised * 2 ^ (16 * i))).sum)
  ((0#320) ++ credits ++ (1024#16) ++ (0#12) ++ q.lanes ++ BitVec.ofNat 4 p ++ s.zw.id ++ (0#7) ++ (0#1) ++ (1#8) : BitVec 512)

/-- PORT_TRAIN_DONE: lock is complete, and the NEG message leaves in a flit of its own, with idle flits to the end of its
codeword (log entry 17). -/
def execPortTrainDone (p : PortIx) (lanes : BitVec 4) (s : State) : Host.Outcome State Fault Refusal :=
  let q := portOf s p.val
  .next (if q.stage == .train then
      let s := setPort s p.val { q with
        stage := .negotiate, lanes := lanes, laneOrder := [], rxLanes := [], txFlits := [], txWords := 0, unlocked := 0 }
      let k := msgPacket s 0 0 0 0 (bvToBytes 64 (negData s p.val))
      modPort s p.val (fun q =>
        putFlits q (makeFlit 0 q.rxSeq false false 0 (packetSlots k) :: List.replicate 4 (idleFlit q.rxSeq false)))
    else s)

/-- The checks of R279 on the partner's NEG. -/
def negOk (s : State) (x : BitVec 512) : Bool :=
  fieldN x 0 8 == 1 && (bit x 8 || field x 16 12 != s.zw.id)
  && (List.range 8).all (fun i => fieldN x (64 + 16 * i) 16 != 0)
  && fieldN x 9 7 == 0 && fieldN x 36 12 == 0 && fieldN x 192 320 == 0

/-- The port's width from the lanes trained at both ends (R278). -/
def negWidth (q : Port) (both : BitVec 4) : Nat :=
  ([4, 2, 1].find? (fun w => decide (w ≤ widthLimit q) && (List.range w).all (bit both))).getD 0

/-- Initial credits of a NEG (R279, R284). -/
def negCredits (x : BitVec 512) : SMap Nat :=
  (List.range 8).foldl (fun m i => smSet 0 m i (fieldN x (64 + 16 * i) 16)) []

/-- The port becomes Active. After retraining it keeps what it had; a first training starts from the NEG's credits. -/
def becomeActive (s : State) (p : Nat) (x : BitVec 512) (w : Nat) (both : BitVec 4) : State :=
  modPort s p (fun q =>
    let q := { q with
      stage := if drains q then .draining else .active, width := BitVec.ofNat 3 w, lanesOk := both
      partnerId := field x 16 12, partnerPort := field x 28 4, partnerRole := field x 8 1
      retries := 0, uncorrected := 0, idleReplays := 0, txFlits := [], txWords := 0, rxLanes := [], rxTurn := 0 }
    if q.retraining then { q with retraining := false, resync := true }
    else
      { q with
        credits := negCredits x, occupied := [], owed := [], replay := [], txSeq := 0, rxSeq := 0xFFF, lastAck := 0xFFF
        nakDue := false, nakSent := false, partialSlots := [], rxFlits := [], timesOut := [], tc0Slots := 0, wrrClass := 1, wrrUsed := 0
        flowNow := 0, flowUsed := 0 })

/-- What a good NEG shows of the partner, at a port that it does not make Active (R315). -/
def showPartner (s : State) (p : Nat) (x : BitVec 512) (both : BitVec 4) : State :=
  modPort s p (fun q => { q with
    partnerId := field x 16 12, partnerPort := field x 28 4, partnerRole := field x 8 1, lanesOk := both })

/-- The partner's NEG message has arrived. DESIGN CHOICE (log entry 84): the PARTNER_* fields load from a NEG that passes R279's
checks, and from no other (R315). -/
def takeNeg (s : State) (p : Nat) (x : BitVec 512) : State :=
  let q := portOf s p
  if q.stage != .negotiate then s
  else if !negOk s x then
    let s := occur s (eventRec s evNegFailed (p / 2) false none (field x 0 64) (field x 64 64) (field x 128 64)
      (field x 192 64)) true
    failAttempt s p
  else
    let both : BitVec 4 := q.lanes &&& field x 32 4
    let w := negWidth q both
    let same := q.partnerId == field x 16 12 && q.partnerPort == field x 28 4 && q.partnerRole == field x 8 1
    if w = 0 then goDown (showPartner s p x both) p (if q.retraining then 1 else 0)
    else if q.retraining && (!same || decide (524288 < since s.time.now q.stageStart)) then goDown (showPartner s p x both) p 1
    else memberPost (becomeActive s p x w both)

/-- NEG: the partner's message. -/
def execNeg (p : PortIx) (x : BitVec 512) (s : State) : Host.Outcome State Fault Refusal := .next (takeNeg s p.val x)

/-- An attempt to become Active is under way: a signal has been detected, or one is awaited again after a failed attempt. -/
def attempting (q : Port) : Bool :=
  q.stage == .train || q.stage == .negotiate || (q.stage == .detect && decide (0 < q.retries))

/-- PORT_TRAIN_LIMIT: 524,288 ticks after Detect without becoming Active. -/
def execPortTrainLimit (p : PortIx) (s : State) : Host.Outcome State Fault Refusal :=
  let q := portOf s p.val
  .next (if attempting q && !q.retraining
      && decide (524288 ≤ since s.time.now q.stageStart) then failAttempt s p.val
    else s)

/-- PORT_DOWN_RETRY: one attempt more every 2^20 ticks, with a cable. -/
def execPortDownRetry (p : PortIx) (s : State) : Host.Outcome State Fault Refusal :=
  let q := portOf s p.val
  .next (if q.stage == .down && q.enable && portPowered s p.val && cableSeated s p.val && decide (1048576 ≤ since s.time.now q.stageStart) then
      modPort (toDetect s p.val) p.val (fun q => { q with retries := 3 })
    else s)

/-- Back to Detect from Active, with queues and replay buffer kept (R280). -/
def retrainPort (s : State) (p : Nat) : State :=
  let q := portOf s p
  if q.stage == .active || q.stage == .draining then
    let s := setPort s p { q with
      stage := .detect, stageStart := s.time.now, retraining := true, retries := 0, width := 0, uncorrected := 0
      idleReplays := 0, lanesOk := 0, rxLanes := [], rxFlits := [] }
    bumpPort s p cntRetrain
  else s

/-- PORT_RETRAIN: codeword lock is lost for 16 codewords, or one of the counts of R280 has run out. -/
def execPortRetrain (p : PortIx) (s : State) : Host.Outcome State Fault Refusal := .next (retrainPort s p.val)

/-- PORT_RETRAIN_LIMIT (R280). -/
def execPortRetrainLimit (p : PortIx) (s : State) : Host.Outcome State Fault Refusal :=
  let q := portOf s p.val
  .next (if q.retraining && decide (524288 ≤ since s.time.now q.stageStart) then goDown s p.val 1 else s)

/-! ### Receiving (R275, R281 to R284) -/

/-- A port that carries packets. -/
def linkUp (q : Port) : Bool := q.stage == .active || q.stage == .draining

/-- A discard: the next control slot sets NAK, once per error event. -/
def askReplay (s : State) (p : Nat) : State :=
  modPort s p (fun q => if q.nakSent then q else { q with nakDue := true, nakSent := true })

/-- Takes codewords in the order of their lanes' turns, while the lane whose turn it is has one. `fuel` bounds them. -/
def takeTurns : Nat → Port → Port
  | 0, q => q
  | n + 1, q =>
    let j := q.rxTurn % max 1 q.width.toNat
    match smGet [] q.rxLanes j with
    | [] => q
    | (t, fs) :: rest =>
      takeTurns n { q with
        rxLanes := smSet [] q.rxLanes j rest, rxTurn := j + 1, rxFlits := q.rxFlits ++ fs.map (fun f => (t, f)) }

/-- A codeword of lane number `j` has arrived with these flits. A port that is not Active yet has no width, and takes them as
they come. -/
def laneFlits (t : Tick) (j : Nat) (fs : List (BitVec 1024)) (q : Port) : Port :=
  if linkUp q then
    takeTurns (((q.rxLanes.map (fun x => x.2.length)).sum) + 1)
      { q with rxLanes := smSet [] q.rxLanes j (smGet [] q.rxLanes j ++ [(t, fs)]) }
  else { q with rxFlits := q.rxFlits ++ fs.map (fun f => (t, f)) }

/-- An uncorrectable codeword: its flits are discarded, and its place among the lanes' turns is taken. More than 1,024 in one
2^10-tick interval retrain the port (R280, R283). -/
def dropCodeword (s : State) (p lane : Nat) : State :=
  let q := portOf s p
  let s := bumpPort s p cntFecUncorr
  if !linkUp q then s
  else
    let slice := s.time.now.toNat / 1024
    let n := if q.uncorrectedIn = slice then q.uncorrected + 1 else 1
    let s := modPort s p (fun q =>
      (smGet none q.laneOrder lane).elim id (fun j => laneFlits s.time.now j [])
        { q with uncorrected := n, uncorrectedIn := slice })
    let s := askReplay s p
    if 1024 < n then retrainPort s p else s

/-- A decoded codeword: its five flits take their place by the lane number of its marker. One without a marker gives no flit,
and sixteen in a row are a loss of lock (R275, R280, log entry 68). -/
def takeCodeword (s : State) (p lane : Nat) (m : BitVec 5140) : State :=
  match markerLane m with
  | some j => modPort s p (fun q =>
      laneFlits s.time.now j (flitsOf m) { q with laneOrder := smSet none q.laneOrder lane (some j), unlocked := 0 })
  | none =>
    let s := modPort s p (fun q => { q with unlocked := q.unlocked + 1 })
    if 16 ≤ (portOf s p).unlocked then retrainPort (modPort s p (fun q => { q with unlocked := 0 })) p else s

/-- CODEWORD_RECEIVE: a word of a lane with codeword lock. Up to 15 symbols are corrected; five flits follow (R274, R275). -/
def execCodewordReceive (p : PortIx) (lane : Fin 4) (w : BitVec 5440) (s : State) : Host.Outcome State Fault Refusal :=
  let q := portOf s p.val
  .next (if !linkUp q && q.stage != .negotiate then s
    else
      match fecDecode w with
      | none => dropCodeword s p.val lane.val
      | some (m, n) => takeCodeword (if n = 0 then s else bumpPort s p.val cntFecCorr) p.val lane.val m)

/-- a covers SEQ x by the half-range rule over 12 bits (R282). -/
def covers (a x : BitVec 12) : Bool := decide ((a - x).toNat < 2048)

/-- Takes an ACK: covered flits leave the replay buffer. -/
def takeAck (s : State) (p : Nat) (a : BitVec 12) : State :=
  modPort s p (fun q =>
    if q.replay.any (fun x => covers a x.1) then
      { q with replay := q.replay.filter (fun x => !covers a x.1), lastAck := a, idleReplays := 0 }
    else q)

/-- A flit with this SEQ waits for its codeword. -/
def flitWaits (q : Port) (seq : BitVec 12) : Bool := q.txFlits.any (fun f => !bit f 25 && field f 0 12 == seq)

/-- The event timestamps of TIME packets whose header slot has left in a codeword are taken now (R313). -/
def settleTimes (s : State) (p : Nat) : State :=
  let q := portOf s p
  if q.retraining || q.resync then s
  else
    let gone := q.timesOut.filter (fun x => !flitWaits q x.1)
    let s := setPort s p { q with timesOut := q.timesOut.filter (fun x => flitWaits q x.1) }
    gone.foldl (fun s x => timeSent s p x.2) s

/-- Starts a replay: every unacknowledged flit is sent again (R283, R316). -/
def resend (s : State) (p : Nat) : State :=
  settleTimes (bumpPort (modPort s p (fun q =>
    putFlits { q with counters := bump q.counters cntFlitTx q.replay.length } (q.replay.map (fun x => x.2.1)))) p cntReplay) p

/-- A NAK starts a replay; when eight have brought no progress the port retrains (R280, R283). -/
def takeNak (s : State) (p : Nat) : State :=
  if 8 ≤ (portOf s p).idleReplays then retrainPort s p
  else resend (modPort s p (fun q => { q with idleReplays := q.idleReplays + 1 })) p

/-- The ACK and NAK of a control slot; the first ACK after retraining resumes the replay. -/
def takeControl (s : State) (p : Nat) (f : BitVec 1024) : State :=
  let s := takeAck s p (field f 12 12)
  if (portOf s p).resync then resend (modPort s p (fun q => { q with resync := false })) p
  else if bit f 24 then takeNak s p
  else s

/-- Credit returns of a flit. -/
def takeCredits (s : State) (p : Nat) (f : BitVec 1024) : State :=
  modPort s p (fun q => { q with
    credits := (List.range 8).foldl (fun m i => smSet 0 m i (smGet 0 m i + fieldN f (32 + 8 * i) 8)) q.credits })

/-- Slots 1 to 7 of a flit. -/
def flitSlots (f : BitVec 1024) : List (BitVec 128) := (List.range 7).map (fun i => field f (128 * (i + 1)) 128)

/-- The data of the NEG message that a flit carries in slots 1 to 5. -/
def negOfFlit (f : BitVec 1024) : Option (BitVec 512) :=
  let xs := flitSlots f
  let k := parsePacket (xs.headD 0) ((xs.drop 1).take 4) 0
  if isNeg k then some (bytesToBv 512 k.data) else none

/-- FLIT_RECEIVE. A port in Negotiate takes nothing but the partner's NEG. -/
def execFlitReceive (p : PortIx) (s : State) : Host.Outcome State Fault Refusal :=
  let q := portOf s p.val
  .next (match q.rxFlits with
    | [] => s
    | (t, f) :: rest =>
      let s := setPort s p.val { q with rxFlits := rest }
      if !linkUp q && q.stage != .negotiate then s
      else if !linkUp q then
        if flitCrc f != field f 96 32 then bumpPort s p.val cntCrc
        else if bit f 25 then s
        else (negOfFlit f).elim s (takeNeg s p.val)
      else if flitCrc f != field f 96 32 then askReplay (bumpPort s p.val cntCrc) p.val
      else if bit f 25 then takeControl s p.val f
      else if field f 0 12 != q.rxSeq + 1 then askReplay s p.val
      else
        let s := modPort s p.val (fun q => { q with rxSeq := q.rxSeq + 1, nakDue := false, nakSent := false })
        takeSlots t (flitSlots f) (takeControl (takeCredits (bumpPort s p.val cntFlitRx) p.val f) p.val f) p.val)

/-! ### Transmitting (R282, R284, R301) -/

/-- The first packet of a pool and flow, when it has its credits. -/
def poolNext (q : Port) (i flow : Nat) : Option (Nat × Packet) :=
  ((smGet [] q.txq i).find? (fun k => k.flow == flow)).bind (fun k =>
    if slotCount k ≤ smGet 0 q.credits i then some (i, k) else none)

/-- The next packet of a flow of a class that has its credits, with its pool: responses first (log entry 17). -/
def flowNext (q : Port) (c flow : Nat) : Option (Nat × Packet) := (poolNext q (2 * c + 1) flow).or (poolNext q (2 * c) flow)

/-- The flows of TC3 with a packet ready (R329). -/
def readyFlows (q : Port) : List Nat :=
  (((smGet [] q.txq 7 ++ smGet [] q.txq 6).map Packet.flow).dedup).filter (fun f => (flowNext q 3 f).isSome)

/-- The flow of TC3 that sends next: the current one for 16 slots, then the next in rising order (R329, log entry 69). -/
def turnFlow (q : Port) : Option Nat :=
  let fs := readyFlows q
  if fs.contains q.flowNow && decide (q.flowUsed < 16) then some q.flowNow
  else ((fs.filter (fun f => decide (q.flowNow < f))).min?).or fs.min?

/-- The first packet of a pool, when it has its credits. -/
def poolHead (q : Port) (i : Nat) : Option (Nat × Packet) :=
  (smGet [] q.txq i).head?.bind (fun k => if slotCount k ≤ smGet 0 q.credits i then some (i, k) else none)

/-- The next packet of a class that has its credits, with its pool: TC3 is shared among flows. -/
def classNext (q : Port) (c : Nat) : Option (Nat × Packet) :=
  if c = 3 then (turnFlow q).bind (flowNext q 3) else (poolHead q (2 * c + 1)).or (poolHead q (2 * c))

/-- W1 to W3 (R314). -/
def weight (s : State) (c : Nat) : Nat := fieldN s.zw.linkCfg (32 + 4 * c) 4

/-- The class that sends next: TC0 within one slot in 16 while another waits, then weighted round robin. -/
def chooseClass (s : State) (q : Port) : Option (Nat × Nat × Packet) :=
  let others := [1, 2, 3].any (fun c => (classNext q c).isSome)
  let pick (c : Nat) : Option (Nat × Nat × Packet) := (classNext q c).map (fun x => (c, x))
  let c0 := q.wrrClass
  let c1 := c0 % 3 + 1
  let c2 := c1 % 3 + 1
  let zero := if q.tc0Slots = 0 || !others then pick 0 else none
  let here := if q.wrrUsed < weight s c0 then pick c0 else none
  zero.or (here.or ((pick c1).or ((pick c2).or (pick c0))))

/-- Bookkeeping of a packet of `n` slots of a flow of TC3. -/
def chargeFlow (q : Port) (flow n : Nat) : Port :=
  let on := q.flowNow == flow && decide (q.flowUsed < 16)
  { q with flowNow := flow, flowUsed := if on then q.flowUsed + n else n }

/-- Bookkeeping of a packet of `n` slots sent in class `c`. -/
def chargeClass (q : Port) (c n : Nat) : Port :=
  let others := [1, 2, 3].any (fun c => (classNext q c).isSome)
  if c = 0 then { q with tc0Slots := if others then q.tc0Slots + 15 * n else 0 }
  else
    { q with tc0Slots := q.tc0Slots - n, wrrClass := c, wrrUsed := if q.wrrClass = c then q.wrrUsed + n else n }

/-- Sends payload flits with these slots; the first carries the TAG of an own request, for the case that it is lost. -/
def sendFlits (tag : Option (BitVec 16)) : List (List (BitVec 128)) → State → Nat → State
  | [], s, _ => s
  | x :: xs, s, p =>
    let s := modPort s p (fun q =>
      let f := makeFlit q.txSeq q.rxSeq q.nakDue false (creditField q) x
      putFlits { q with
        replay := q.replay ++ [(q.txSeq, f, tag)], txSeq := q.txSeq + 1, nakDue := false
        owed := lessReturned q q.owed, occupied := lessReturned q q.occupied, counters := bump q.counters cntFlitTx 1 } [f])
    sendFlits tag xs s p

/-- An idle flit with the ACK and NAK in force. -/
def sendIdle (s : State) (p : Nat) : State :=
  modPort s p (fun q => putFlits { q with nakDue := false } [idleFlit q.rxSeq q.nakDue])

/-- This module's TIME packet, whose header slot leaves in the flit `seq`, awaits the codeword that holds it (R313). -/
def holdTime (s : State) (p : Nat) (seq : BitVec 12) (k : Packet) : State :=
  if k.type == 0xA && k.op == 6 && k.src == s.zw.id then modPort s p (fun q => { q with timesOut := q.timesOut ++ [(seq, k)] })
  else s

/-- What a port sends at a packet start: the chosen packet while the replay buffer has room, else owed credits, else an idle
flit. -/
def transmitNext (s : State) (p : Nat) : State :=
  let q := portOf s p
  if q.resync then sendIdle s p
  else
    match chooseClass s q with
    | some (c, i, k) =>
      let fs := chunk7 19 (packetSlots k)
      if 1024 < q.replay.length + fs.length then sendIdle s p
      else
        let n := slotCount k
        let q := chargeClass (if c = 3 then chargeFlow q k.flow n else q) c n
        let s := setPort s p { q with
          txq := smSet [] q.txq i ((smGet [] q.txq i).eraseP (fun x => x.flow == k.flow))
          credits := smSet 0 q.credits i (smGet 0 q.credits i - n) }
        let own := if ownRequest s k then some k.tag else none
        sendFlits own fs (holdTime s p q.txSeq k) p
    | none =>
      if q.owed.isEmpty || decide (1024 ≤ q.replay.length) then sendIdle s p else sendFlits none [[]] s p

/-- A port sends, and what has left in a codeword takes its timestamp. -/
def transmit (s : State) (p : Nat) : State := settleTimes (transmitNext s p) p

/-- PACKET_TRANSMIT. -/
def execPacketTransmit (p : PortIx) (s : State) : Host.Outcome State Fault Refusal :=
  .next (if linkUp (portOf s p.val) then transmit s p.val else s)

/-! ### Enable, disable, drains (R307, R443) -/

/-- ENABLE = 0. -/
def disablePort (s : State) (p : Nat) : State :=
  let s := modPort s p (fun q => { q with enable := false, enableHeld := false })
  let q := portOf s p
  match q.stage with
  | .active => setPort s p { q with stage := .draining }
  | .draining => s
  | _ => if q.retraining then s else portOff s p

/-- ENABLE = 1: training from Detect, held during a drain. -/
def enablePort (s : State) (p : Nat) : State :=
  let q := portOf s p
  if q.enable then s
  else if q.stage == .draining || q.retraining then setPort s p { q with enable := true, enableHeld := true }
  else
    let s := setPort s p { q with enable := true }
    if q.stage == .off then beginPort s p else s

/-- The drain of a port ends when its queues and replay buffer are empty. -/
def endPortDrain (s : State) (p : Nat) : State :=
  let q := portOf s p
  if q.stage == .draining && q.txq.isEmpty && q.replay.isEmpty then portOff s p else s

/-- PORT_DISABLE. -/
def execPortDisable (p : PortIx) (s : State) : Host.Outcome State Fault Refusal :=
  .next (setupWrite s (regAt 7 0x18) (2 * (portOf s p.val).maxWidth.toNat) (fun s => disablePort s p.val))

/-- PORT_ENABLE. -/
def execPortEnable (p : PortIx) (s : State) : Host.Outcome State Fault Refusal :=
  .next (setupWrite s (regAt 7 0x18) (1 + 2 * (portOf s p.val).maxWidth.toNat) (fun s => enablePort s p.val))

/-- DRAIN_COMPLETE: a draining function has nothing left, reaches OFF, and goes ON for a held enable (R443). -/
def execDrainComplete (what : Drain) (s : State) : Host.Outcome State Fault Refusal :=
  .next (match what with
    | .ring r => drainRing s r.val
    | .vf f => endVfDrain s f.val
    | .partition p => if (partOf s p.val).draining && quiesced s p.val then resumeAll (quiesceNow s p.val) else s
    | .codec d => endCodecDrain s d.val
    | .port p => endPortDrain s p.val)

end Sys2Proof.Machine
end

