-- ==== Sys2Proof/Machine/Power.lean ====
section
/-!
DEFINITION. Supply, governor and thermal control, resets and bring-up, dies going OFF and ON, shutdown, and the shelf's SMBus
commands (R447 to R465, R489 to R495).
-/
namespace Sys2Proof.Machine

open Sys2Proof

/-! ### Bring-up states (R460 to R463) -/

/-- The entries of the clusters and channels that stand mapped out. -/
def standingOut (s : State) : List W64 :=
  (s.clusters.filter (fun x => x.2.mark == .mappedOut)).map (fun x => clusterEntry (x.1 / 8192) (x.1 % 8192))
  ++ (s.chans.filter (fun x => x.2.mappedOut)).map (fun x => chanEntry (x.1 / 64) (x.1 % 64))

/-- Map-out entries that the flash holds; while power lasts, with those still queued, and with what stands mapped out whether or
not its entry has been written (R103). DESIGN CHOICE (log entry 65): a module reset counts an entry whose removal still waits
under the inhibit, so the cluster that RETEST enabled is mapped out again until the next bring-up tests it (R103 speaks of held
map-outs only). -/
def mapOutEntries (s : State) (powered : Bool) : List W64 :=
  s.flash.mapOuts.filterMap id
  ++ (if powered then
      s.flash.queue.filterMap (fun w => match w with | .addMapOut e => some e | _ => none) ++ standingOut s
    else [])

/-- The clusters that the history holds mapped out. -/
def clustersFrom (es : List W64) : SMap Cluster :=
  es.foldl (fun m e =>
    if fieldN e 0 2 = 1 then
      smSet Cluster.dflt m (fieldN e 2 3 * 8192 + fieldN e 5 13) { Cluster.dflt with mark := .mappedOut }
    else m) []

/-- The channels with the marks and degraded lanes that the history holds. -/
def chansFrom (es : List W64) : SMap Chan :=
  es.foldl (fun m e =>
    let k := fieldN e 2 3 * 64 + fieldN e 5 6
    let x := smGet Chan.dflt m k
    let lane : Option (Fin 36) := some (Fin.ofNat 36 (fieldN e 18 6))
    if fieldN e 0 2 = 2 then smSet Chan.dflt m k { x with mappedOut := true }
    else if fieldN e 0 2 = 3 then smSet Chan.dflt m k (setLane x (fieldN e 24 1) lane)
    else m) []

/-- The shadow map of a die: every channel not recorded as mapped out (R265). -/
def shadowFrom (es : List W64) (d : Nat) : W64 :=
  BitVec.ofNat 64 (((List.range 64).filter (fun c => !es.contains (chanEntry d c))).map (fun c => 2 ^ c)).sum

def diesFrom (es : List W64) : SMap DieBlock :=
  (List.range 8).foldl (fun m d => smSet DieBlock.dflt m d { DieBlock.dflt with shadow := shadowFrom es d }) []

/-- The flits that have left the ports. -/
def wiresOf (s : State) : SMap Port := (smKeys s.zw.ports).foldl (fun m p => smSet Port.dflt m p { Port.dflt with wire := (portOf s p).wire }) []

/-- Every block at its reset values but PWR_: memory outside the module, the flash tables and what has left the module stay. -/
def blocksReset (s : State) (es : List W64) : State :=
  { State.reset with
    pending := s.pending, freeCount := s.freeCount, nextUid := s.nextUid, nextGroup := s.nextGroup, host := s.host
    flash := s.flash, io := { HostPort.reset with msix := s.io.msix }, zw := { ZwBlock.reset with ports := wiresOf s }
    dies := diesFrom es, clusters := clustersFrom es, chans := chansFrom es }

/-- A reset quiesces every partition: quarantined clusters of dies that have not failed are mapped out (R102). -/
def mapOutAll (s : State) : State := (List.range 8).foldl mapOutDie s

/-- History writes that wait are performed before the power goes, but for those that the inhibit holds, which are lost
(R103, R445, log entry 67). -/
def settleHistory (s : State) : State :=
  let t := if s.pwr.inhibit then s
    else s.flash.queue.foldl programHistory { s with flash := { s.flash with queue := [] } }
  { t with flash := { t.flash with queue := [] } }

/-- A sample of the input as the monitor measures it: to 10 mV (R447). -/
def measured (mv : Nat) : Nat := mv / 10 * 10

/-- A cold reset: the running module's quarantined clusters are mapped out, history writes that the inhibit holds are lost, and
bring-up begins at BOOT under the clamp and the inhibit (R102, R449, R460). -/
def coldReset (s : State) (inputMv : Nat) : State :=
  let s := settleHistory (if s.pwr.running then mapOutAll s else s)
  let t := blocksReset s (mapOutEntries s false)
  { t with pwr := { PwrBlock.reset with
    retest := s.flash.retest, lastCause := s.pwr.lastCause, alertN := s.pwr.alertN, spiEnN := s.pwr.spiEnN
    perstN := s.pwr.perstN, presN := true, cables := s.pwr.cables, inputMv := BitVec.ofNat 16 (measured inputMv) } }

/-- Power is applied to the module: for the first time, or as its blades mate again. Below 40 V it does not operate (R447, R490). -/
def applyPower (s : State) (inputMv : Nat) : State :=
  if inputMv < 40000 || (!s.pwr.running && s.pwr.presN) then s else coldReset s inputMv

/-- The input returns after a shutdown: it has held 44.0 V or more for 100 ms, and, unless undervoltage was the cause, was below
38.0 V before (R451). -/
def restorePower (s : State) (inputMv heldMs : Nat) (dipped : Bool) : State :=
  if s.pwr.running || !s.pwr.presN || inputMv < 44000 || heldMs < 100 || !(s.pwr.lastCause == 0 || dipped) then s
  else coldReset s inputMv

/-- The voltage that a cold reset finds. -/
def returnMv : PowerReturn → Nat
  | .applied mv => mv
  | .restored mv _ _ => mv

/-- COLD_RESET: power is applied, or returns after a shutdown. Beyond 60 V no behaviour is specified (R447, R451, R493). -/
def execColdReset (x : PowerReturn) (s : State) : Host.Outcome State Fault Refusal :=
  if 60000 < returnMv x then .fault .beyondRatings
  else
    .next (match x with
      | .applied mv => applyPower s mv
      | .restored mv ms dipped => restorePower s mv ms dipped)

/-- A module reset: quarantined clusters of dies that have not failed are mapped out, every block but PWR_ is reset, and
bring-up starts at SRAM (R102, R308, R460). -/
def moduleReset (s : State) : State :=
  let s := mapOutAll s
  let t := blocksReset s (mapOutEntries s true)
  let back (x : Tick) : Tick := 0 - (s.time.now - x)
  let dies := smMap PwrDie.dflt (fun _ => true) (fun x => { x with state := 0, held := false, repairTicks := 0 }) s.pwr.dies
  let zones := smMap Zone.dflt (fun z => decide (z < 16)) (fun x => { x with read := false }) s.pwr.zones
  { t with
    pwr := { s.pwr with
      stage := 2, dies := dies, zones := zones, sagSince := s.pwr.sagSince.map back, lowAt := back s.pwr.lowAt, railsAt := 0
      epochBegan := 0, retesting := s.pwr.retest }
    io := { t.io with snapshots := smKeep (fun k => k / 0x10000 == 1) s.io.snapshots }
    zw := { t.zw with id := s.pwr.baseId, anchorId := s.pwr.baseAnchor } }

/-- The module runs, with its rails up. -/
def inService (s : State) : Bool := s.pwr.running && decide (2 ≤ s.pwr.stage.toNat)

/-- MODULE_RESET. -/
def execModuleReset (s : State) : Host.Outcome State Fault Refusal := .next (if inService s then moduleReset s else s)

/-- PF_FLR: ERR_ is reset at once and the PF's configuration with it; every ring drains as a VF's, and HQ_ is reset when
all are OFF (R460, R361). -/
def execPfFlr (s : State) : Host.Outcome State Fault Refusal :=
  .next (configRequest s (fun s =>
    let s := setVf s 0 ⟨false, true, false, 0⟩
    let s := drainRings s (smKeys s.hq.rings)
    let kept := smKeep (fun k => k / 0x10000 != 6) s.io.snapshots
    { s with err := ErrBlock.reset, io := { s.io with bar4Log2 := 30, snapshots := kept } }))

/-- The baseboard record is valid (R491). -/
def baseboardOk (b : List Byte) : Bool :=
  b.length == 16 && (b.map BitVec.toNat).sum % 256 == 0 && ((b.drop 5).take 10).all (· == 0)

/-- BOOT_COMPLETE: firmware, history and IDs are read, and the rails begin to come up (R462). -/
def execBootComplete (fw : BitVec 16) (base : Option (List Byte)) (s : State) : Host.Outcome State Fault Refusal :=
  .next (if !s.pwr.running || s.pwr.stage != 0 || !s.pwr.spiEnN then s
    else
      let b := base.filter baseboardOk
      let id : BitVec 12 := b.elim 0 (fun b => BitVec.ofNat 12 (bytesToNat (b.take 2)))
      let anchor : BitVec 12 := b.elim 0 (fun b => BitVec.ofNat 12 (bytesToNat ((b.drop 2).take 2)))
      let addr : BitVec 7 := b.elim 0x58 (fun b => BitVec.ofNat 7 (b.getD 4 0).toNat)
      { s with
        pwr := { s.pwr with
          stage := 1, firmware := fw, baseId := id, baseAnchor := anchor, smbusAddr := addr, retest := s.flash.retest
          retesting := s.flash.retest }
        zw := { s.zw with id := id, anchorId := anchor } })

/-- The rails are up: the SRAM stage begins. -/
def railsUp (s : State) : State :=
  if s.pwr.running && s.pwr.stage == 1 then { s with pwr := { s.pwr with stage := 2, railsAt := s.time.now } } else s

/-- Ports that are enabled begin Detect where they have power and a cable. -/
def startPorts (s : State) (ps : List Nat) : State :=
  ps.foldl (fun s p => if (portOf s p).enable && (portOf s p).stage == .off then beginPort s p else s) s

/-- SRAM_REPAIR: the rails are up and the SRAM stage ends; TEST begins, and the ports with it. -/
def execSramRepair (s : State) : Host.Outcome State Fault Refusal :=
  let t := railsUp s
  .next (if t.pwr.running && t.pwr.stage == 2 then
      startPorts { t with pwr := { t.pwr with stage := 3 } } (List.range 16)
    else s)

/-! ### Self-tests (R463, R464, R495) -/

/-- Maps out clusters that have failed a test, and fails a die that has none left. -/
def mapOutFailed (s : State) (d : Nat) (ks : List ClusterIx) : State :=
  let s := ks.foldl (fun s k => if (clusterOf s d k.val).mark == .mappedOut then s else mapOut s d k.val) s
  if usableClusters s d = 0 then failDie s d 3 else s

/-- Under RETEST, mapped-out clusters that pass are enabled again and leave the history. -/
def retestClusters (s : State) (d : Nat) (failed : List ClusterIx) : State :=
  (List.range 8192).foldl (fun s k =>
    if (clusterOf s d k).mark == .mappedOut && recorded s (clusterEntry d k) && !failed.any (fun f => f.val == k) then
      queueHistory (modCluster s d k (fun c => { c with mark := .enabled })) (.dropMapOut (clusterEntry d k))
    else s) s

/-- A die begins to go OFF: its ports go Down and its stacks enter self refresh, and it reads CHANGING (R461). -/
def takeDieOff (s : State) (d : Nat) : State :=
  let down (s : State) (p : Nat) : State :=
    discardQueues (modPort s p (fun q => { q with
      stage := .down, stageStart := s.time.now, retraining := false, resync := false, width := 0, lanesOk := 0 })) p
  let s := down (down s (2 * d)) (2 * d + 1)
  let s := modDie s d (fun b => { b with selfRefresh := true })
  modPwrDie s d (fun x => { x with off := true, state := 2, held := false })

/-- The change in progress takes the die OFF: a held write is the one against it. -/
def goingOff (x : PwrDie) : Bool := x.state == 2 && x.off != x.held

/-- The change in progress brings the die up. -/
def comingOn (x : PwrDie) : Bool := x.state == 2 && x.off == x.held

/-- The bring-up of one die ends once its self-test, its training and any held maintenance are over: it is ON, its ports start,
and a held OFF acts (R460, R461). -/
def comeOn (s : State) (d : Nat) : State :=
  let x := pwrDieOf s d
  let b := dieOf s d
  if comingOn x && b.tested && b.trained0 && b.trained1 && !b.maintHeld then
    let s := startPorts (modPwrDie s d (fun x => { x with state := 1 })) [2 * d, 2 * d + 1]
    if x.held then takeDieOff s d else s
  else s

/-- CLUSTER_SELF_TEST, in the TEST stage of a bring-up of the module, or in the bring-up of one die. -/
def execClusterSelfTest (d : DieIx) (failed : List ClusterIx) (s : State) : Host.Outcome State Fault Refusal :=
  let x := pwrDieOf s d.val
  let run (s : State) : State := modDie (mapOutFailed s d.val failed) d.val (fun b => { b with tested := true })
  .next (if (dieOf s d.val).tested then s
    else if comingOn x then comeOn (run s) d.val
    else if s.pwr.stage == 3 && x.state == 0 && !x.off then
      run (if s.pwr.retesting then retestClusters s d.val failed else s)
    else s)

/-- HBM_TRAINING, at the SRAM and TEST stages of a bring-up, or in the bring-up of a die that no bring-up of the module has
trained. Under the inhibit it waits while hard repairs are pending (R465). The live map is decided when both stacks have been
trained. -/
def execHbmTraining (d : DieIx) (stack : Fin 2) (result : StackTraining) (s : State) : Host.Outcome State Fault Refusal :=
  let b := dieOf s d.val
  let x := pwrDieOf s d.val
  let done := if stack.val = 0 then b.trained0 else b.trained1
  let atStage := (s.pwr.stage == 2 || s.pwr.stage == 3) && x.state == 0 && !x.off
  .next (if !(atStage || comingOn x) || done || (s.pwr.inhibit && !(pendingRepairs s d.val stack.val).isEmpty) then s
    else
      let s := trainStack s d.val stack.val result true
      let b := dieOf s d.val
      if b.trained0 && b.trained1 then comeOn (settleMap s d.val 1) d.val else s)

/-- HBM_MAINTENANCE: a held request acts while the die is OFF, or in its next bring-up (R265, R460). -/
def execHbmMaintenance (d : DieIx) (results : List StackTraining) (s : State) : Host.Outcome State Fault Refusal :=
  let clean : StackTraining := ⟨true, [], [], 0⟩
  let x := pwrDieOf s d.val
  let waits := s.pwr.inhibit
    && !((pendingRepairs s d.val 0).isEmpty && (pendingRepairs s d.val 1).isEmpty)
  let may := (x.state == 0 && s.pwr.stage == 5) || (comingOn x && (dieOf s d.val).trained0 && (dieOf s d.val).trained1)
  .next (if !(dieOf s d.val).maintHeld || !may || waits then s
    else comeOn (maintain s d.val (results.getD 0 clean) (results.getD 1 clean)) d.val)

/-- A die has been through the TEST stage, or takes no part in it. -/
def testedDie (s : State) (d : Nat) : Bool :=
  dieFailed s d || (pwrDieOf s d).off || (pwrDieOf s d).state == 2
  || ((dieOf s d).tested && (dieOf s d).trained0 && (dieOf s d).trained1)

/-- FUNCTIONAL_SELF_TEST: once every die has been through TEST. A cluster implicated twice is mapped out; a die that passes
is ON. Its first 1 GiB is zero again (R464). -/
def execFunctionalSelfTest (d : DieIx) (implicated : List ClusterIx) (passed : Bool) (s : State) :
    Host.Outcome State Fault Refusal :=
  .next (if !(s.pwr.stage == 3 || s.pwr.stage == 4) || !(List.range 8).all (testedDie s) || (pwrDieOf s d.val).off
      || (pwrDieOf s d.val).state != 0 then s
    else
      let s := mapOutFailed { s with pwr := { s.pwr with stage := 4 } } d.val implicated
      if passed && !dieFailed s d.val then modPwrDie s d.val (fun x => { x with state := 1 }) else s)

/-- A bring-up is under way on the rails of the dies. -/
def bringingUp (s : State) : Bool := s.pwr.stage == 2 || s.pwr.stage == 3 || s.pwr.stage == 4

/-- The time that a die has to pass the functional self-test is over: 2^22 ticks from its rails, without pending hard repairs
(R464). -/
def selfTestOver (s : State) (d : Nat) : Bool := decide (2 ^ 22 + (pwrDieOf s d).repairTicks ≤ since s.time.now s.pwr.railsAt)

/-- SELF_TEST_TIMEOUT. -/
def execSelfTestTimeout (d : DieIx) (s : State) : Host.Outcome State Fault Refusal :=
  let x := pwrDieOf s d.val
  .next (if bringingUp s && !x.off && x.state == 0 && selfTestOver s d.val then failDie s d.val 2 else s)

/-- MANAGEMENT_WATCHDOG (R429). -/
def execManagementWatchdog (d : DieIx) (s : State) : Host.Outcome State Fault Refusal :=
  .next (if inService s then failDie s d.val 1 else s)

/-- MODULE_READY: every die has passed, failed or is OFF. A retest that this bring-up performed is over (R459, R462). -/
def execModuleReady (s : State) : Host.Outcome State Fault Refusal :=
  let settled (d : Nat) : Bool :=
    ((pwrDieOf s d).off && (pwrDieOf s d).state == 0) || (pwrDieOf s d).state == 1 || dieFailed s d
  .next (if !(s.pwr.stage == 3 || s.pwr.stage == 4) || !(List.range 8).all settled then s
    else if (List.range 8).any (fun d => (pwrDieOf s d).state == 1) then
      if s.pwr.retesting then
        queueHistory { s with pwr := { s.pwr with stage := 5, retest := false, retesting := false } } (.retest false)
      else { s with pwr := { s.pwr with stage := 5 } }
    else { s with pwr := { s.pwr with stage := 6 } })

/-! ### Dies OFF and ON (R460, R461) -/

/-- A write of OFF = 1. During a change it is held, or cancels a held 0; a failed die heeds it at its next bring-up (log entry
80). -/
def writeDieOff (s : State) (d off value : Nat) : State :=
  let x := pwrDieOf s d
  if (partOfDie s d).isSome then logIgnored s off (BitVec.ofNat 64 value)
  else if x.off then s
  else if x.state == 3 then modPwrDie s d (fun x => { x with off := true })
  else if x.state == 2 then modPwrDie s d (fun x => { x with off := true, held := !x.held })
  else takeDieOff s d

/-- A die reset: DIE_, HBM_ but for the live map, CODEC_ and the two ports start anew; held maintenance keeps the shadow map that
it is to bring up. DESIGN CHOICE (log entry 83): a fence outlasts a die reset, which brings up no channel anew (R263). -/
def dieReset (s : State) (d : Nat) : State :=
  let s := mapOutDie s d
  let s := modDie s d (fun b => { DieBlock.dflt with
    mapGen := b.mapGen, live := b.live, shadow := if b.maintHeld then b.shadow else b.live, maintHeld := b.maintHeld
    trained0 := b.trained0, trained1 := b.trained1, tblSel := b.tblSel })
  let s := { s with
    clusters := smMap Cluster.dflt (fun k => k / 8192 == d) (fun c => { Cluster.dflt with mark := c.mark }) s.clusters
    chans := smMap Chan.dflt (fun k => k / 64 == d) (fun c =>
      { c with ueWin := 0, ceWin := 0, rowCe := [], softRepairs := 0, scrubNext := 0, scrubbed := 0 }) s.chans }
  let s := setCodec s d Codec.dflt
  let fresh (s : State) (p : Nat) : State := setPort s p { Port.dflt with wire := (portOf s p).wire }
  let s := fresh (fresh s (2 * d)) (2 * d + 1)
  let s := { s with io := { s.io with snapshots := smKeep (fun k => k / 0x100000 != 16 + d) s.io.snapshots } }
  let z := { zoneOf s (2 * d) with read := false }
  let z' := { zoneOf s (2 * d + 1) with read := false }
  setZone (setZone s (2 * d) z) (2 * d + 1) z'

/-- An OFF die is reset, and its bring-up begins: it reads CHANGING until that has passed (R460, R461). -/
def bringDieUp (s : State) (d : Nat) : State :=
  modPwrDie (dieReset s d) d (fun x => { x with off := false, state := 2, held := false })

/-- A write of OFF = 0. -/
def writeDieOn (s : State) (d : Nat) : State :=
  let x := pwrDieOf s d
  if !x.off then s
  else if x.state == 3 then modPwrDie s d (fun x => { x with off := false })
  else if x.state == 2 then modPwrDie s d (fun x => { x with off := false, held := !x.held })
  else bringDieUp s d

/-- A die's change to OFF ends: its clusters lose power and contents, it reads OFF, and a held 0 acts (R461). -/
def endDieOff (s : State) (d : Nat) : State :=
  let x := pwrDieOf s d
  if goingOff x then
    let dark := smMap Cluster.dflt (fun k => k / 8192 == d)
      (fun c => { c with words := [], written := [], signals := [], tile := none, shadow := none }) s.clusters
    let s := modPwrDie { s with clusters := dark } d (fun x => { x with state := 0, held := false })
    if x.held then bringDieUp s d else s
  else s

/-- What an idle tick brings to its end: rails that come up, dies that go OFF (log entries 2 and 80). -/
def settlePower (s : State) : State := railsUp ((List.range 8).foldl endDieOff s)

/-- DIE_OFF. -/
def execDieOff (d : DieIx) (s : State) : Host.Outcome State Fault Refusal :=
  .next (if hostUp s then writeDieOff s d.val (regAt 1 0x18) (256 + (pwrDieOf s d.val).cap.toNat) else s)

/-- DIE_ON. -/
def execDieOn (d : DieIx) (s : State) : Host.Outcome State Fault Refusal :=
  .next (if hostUp s then writeDieOn s d.val else s)

/-! ### Shutdown (R450, R451) -/

/-- Transmits what TC0 requests wait at a port. -/
def flushSystem : Nat → State → Nat → State
  | 0, s, _ => s
  | n + 1, s, p =>
    if linkUp (portOf s p) && !(smGet [] (portOf s p).txq 0).isEmpty then flushSystem n (transmit s p) p else s

/-- Orderly shutdown: work is abandoned, which quiesces every partition (R102), the SHUTDOWN record is written or sent to the anchor, and everything but the standby
responder is without power. -/
def shutdown (s : State) (cause : Nat) : State :=
  if !s.pwr.running then s
  else
    let s := mapOutAll { s with cmds := [], kids := [], groups := [] }
    let s := occur s (eventRec s evShutdown 0 false none (BitVec.ofNat 64 cause) 0 0 0) false
    let s := (List.range 16).foldl (fun s p => flushSystem 512 s p) s
    let t := coldReset s s.pwr.inputMv.toNat
    { t with pwr := { t.pwr with running := false, lastCause := BitVec.ofNat 8 cause, presN := s.pwr.presN } }

/-- ORDERLY_SHUTDOWN with its cause. Undervoltage is a cause below 38.0 V only (R448, R451). -/
def execOrderlyShutdown (x : ShutdownCause) (s : State) : Host.Outcome State Fault Refusal :=
  let mv := measured x.inputMv
  .next (if !s.pwr.running || (x.cause = 0 && 38000 ≤ mv) then s
    else shutdown { s with pwr := { s.pwr with inputMv := BitVec.ofNat 16 mv } } x.cause.val)

/-- REQUESTED_SHUTDOWN: `PWR_CTRL.ACTION` = 2. -/
def execRequestedShutdown (s : State) : Host.Outcome State Fault Refusal := .next (if hostUp s then shutdown s 2 else s)

/-- SPI_EN_LOW: in service it shuts the module down; at power-on it holds BOOT (R489). -/
def execSpiEnLow (s : State) : Host.Outcome State Fault Refusal :=
  let t := { s with pwr := { s.pwr with spiEnN := false } }
  .next (if s.pwr.running && s.pwr.stage != 0 then shutdown t 2 else t)

/-- SPI_EN_RELEASE. -/
def execSpiEnRelease (s : State) : Host.Outcome State Fault Refusal := .next { s with pwr := { s.pwr with spiEnN := true } }

/-- PERST_RELEASE (R466). -/
def execPerstRelease (s : State) : Host.Outcome State Fault Refusal := .next { s with pwr := { s.pwr with perstN := true } }

/-- POWER_EXTRACT (R490). -/
def execPowerExtract (s : State) : Host.Outcome State Fault Refusal :=
  .next (shutdown { s with pwr := { s.pwr with presN := false } } 2)

/-! ### Supply (R447 to R449) -/

/-- Every die drops to step 0 at once. -/
def dropGrants (s : State) : State :=
  { s with pwr := { s.pwr with dies := smMap PwrDie.dflt (fun _ => true) (fun x => { x with grant := 0 }) s.pwr.dies } }

/-- Faulty rows that still wait for their repair get their list entries, which wait with the held flash writes (R269). -/
def listFaulty (s : State) : State :=
  s.chans.foldl (fun s x => x.2.faulty.foldl (fun s row => listRow s (x.1 / 64) (x.1 % 64) row) s) s

/-- SAG_ENTER: 1,000 samples below 42.0 V set the clamp and the inhibit and log the lowest; a sag under the inhibit goes on
counting from the first, and restarts the count of 100 ms (R448). -/
def execSagEnter (x : SagSamples) (s : State) : Host.Outcome State Fault Refusal :=
  .next (if !s.pwr.running || 42000 ≤ x.latestMv then s
    else
      let from0 := s.pwr.sagSince.getD s.time.now
      let s := dropGrants { s with pwr := { s.pwr with
        clamp := true, inhibit := true, sagSince := some from0, lowAt := s.time.now
        inputMv := BitVec.ofNat 16 (measured x.latestMv) } }
      logEvent (listFaulty s) evSupplySag 0 (BitVec.ofNat 64 (measured (min x.lowestMv x.latestMv))) 0)

/-- The input has held 44.0 V or more for `n` ticks: no sample below has been seen in them. -/
def inputHeld (s : State) (n : Nat) : Bool := decide (n ≤ since s.time.now s.pwr.lowAt)

/-- SAG_CLAMP_LIFT, after 1,000 samples: 1,049 ticks. -/
def execSagClampLift (s : State) : Host.Outcome State Fault Refusal :=
  .next (if s.pwr.running && s.pwr.clamp && inputHeld s 1049 then { s with pwr := { s.pwr with clamp := false } } else s)

/-- SAG_INHIBIT_LIFT, after 100 ms, 104,858 ticks, in which the clamp has been lifted: the record is logged after a sag, not after
power-on (R448, R449). -/
def execSagInhibitLift (s : State) : Host.Outcome State Fault Refusal :=
  .next (if !s.pwr.running || !s.pwr.inhibit || s.pwr.clamp || !inputHeld s 104858 then s
    else
      let t := { s with pwr := { s.pwr with inhibit := false, sagSince := none } }
      match s.pwr.sagSince with
      | some x => logEvent t evSagCleared 0 (BitVec.ofNat 64 (since s.time.now x)) 0
      | none => t)

/-! ### The governor (R452 to R458) -/

/-- Critical and shutdown temperatures of a zone (R455). -/
def criticalC (z : Nat) : Nat :=
  if z < 16 then 105 else if z < 24 then 110 else if z < 28 then 115 else if z = 28 then 105 else if z = 29 then 100
  else if z = 30 then 40 else 65

def shutdownC (z : Nat) : Option Nat :=
  if z < 16 then some 110 else if z < 24 then some 120 else if z < 28 then some 125 else if z = 28 then some 115
  else if z = 29 then some 110 else none

/-- The throttle level of a stack (R258). -/
def throttleLevel (cfg : W32) (t : Nat) (level : BitVec 3) : BitVec 3 :=
  let th := fieldN cfg 0 8
  if 105 ≤ t then 7
  else if th ≤ t then (if level = 7 then 7 else level + 1)
  else if t + fieldN cfg 8 4 < th then (if level = 0 then 0 else level - 1)
  else level

/-- The thermal ceiling of a die (R456, R457). -/
def thermCeil (cfg : W32) (t : Nat) (c : BitVec 6) : BitVec 6 :=
  let th := fieldN cfg 0 8
  if 110 ≤ t then 0
  else if th ≤ t then BitVec.ofNat 6 (c.toNat - 2)
  else if t + fieldN cfg 8 4 < th then BitVec.ofNat 6 (min 32 (c.toNat + 1))
  else c

/-- One zone's reading (R455 to R458). -/
def readZone (s : State) (z : Nat) (reading : Int) : State :=
  let t := min 255 reading.toNat
  let o := zoneOf s z
  let hot := decide (criticalC z ≤ t)
  let over_ := (shutdownC z).elim false (fun c => decide (c ≤ t))
  let s := setZone s z { temp := BitVec.ofNat 8 t, max := if o.max.toNat < t then BitVec.ofNat 8 t else o.max
                         critical := hot, read := true, hotReads := if over_ then o.hotReads + 1 else 0 }
  let s := if hot && !o.critical then
      logEvent s evCriticalTemp 0 (BitVec.ofNat 64 (z + 256 * t)) 0
    else s
  if z < 16 then
    modDie s (z / 2) (fun b =>
      if z % 2 = 0 then { b with throttle0 := throttleLevel b.thermCfg t b.throttle0 }
      else { b with throttle1 := throttleLevel b.thermCfg t b.throttle1 })
  else if z < 24 then
    modPwrDie s (z - 16) (fun x =>
      { x with temp := BitVec.ofNat 8 t, thermCeil := thermCeil s.pwr.thermCfg t x.thermCeil })
  else if z < 28 then
    let held := hot || (smGet false s.pwr.regClamp (z - 24) && decide (105 ≤ t))
    { s with pwr := { s.pwr with regClamp := smSet false s.pwr.regClamp (z - 24) held } }
  else s

/-- What a powered sensor gives: an open or shorted thermistor of zone 30 or 31 reads 255 °C (R488). -/
def takeReading (s : State) (z : Nat) : ZoneReading → State
  | .celsius t => readZone s z t
  | .openOrShorted => if 30 ≤ z then readZone s z 255 else s

/-- Every zone with a reading, in order. -/
def readZones : List (Option ZoneReading) → State → Nat → State
  | [], s, _ => s
  | r :: rs, s, z => readZones rs (r.elim s (takeReading s z)) (z + 1)

/-- A die's ceiling (R453). -/
def dieCeil (s : State) (d : Nat) : Nat :=
  let x := pwrDieOf s d
  if s.pwr.clamp || smGet false s.pwr.regClamp (d / 2) then 0 else min x.cap.toNat x.thermCeil.toNat

/-- The effective limit L (R453). -/
def powerLimit (s : State) : Nat := min s.pwr.limitW.toNat s.pwr.shelfLimitW.toNat

/-- The die with the largest step; ties to the higher index. -/
def largest (want : List Nat) : Nat :=
  ((List.range want.length).foldl (fun b d => if want.getD b 0 ≤ want.getD d 0 then d else b) 0)

/-- Lowers steps until the model predicts a power within the budget; `n` bounds the steps there are. -/
def fitBudget (epoch : Nat) (budget : Int) : Nat → List Nat → List Nat
  | 0, want => want
  | n + 1, want =>
    if budget - 20 < Int.ofNat (Config.predict epoch want) && want.any (fun w => decide (0 < w)) then
      let d := largest want
      fitBudget epoch budget n (want.set d (want.getD d 0 - 1))
    else want

/-- The grants of an epoch (R453). -/
def computeGrants (s : State) (otherW : Nat) : List Nat :=
  let want := (List.range 8).map (fun d => min (dieCeil s d) ((pwrDieOf s d).grant.toNat + 4))
  fitBudget (s.time.now.toNat / 1024) (Int.ofNat (powerLimit s) - Int.ofNat otherW) 512 want

/-- An epoch boundary. -/
def governorEpoch (s : State) (r : EpochReadings) : State :=
  let s := readZones r.zones s 0
  let s := { s with pwr := { s.pwr with
    epochBegan := s.time.now, lowAt := if r.inputMv < 44000 then s.time.now else s.pwr.lowAt
    inputMv := BitVec.ofNat 16 (measured r.inputMv), inputW := BitVec.ofNat 12 r.inputW, fastLimit := false } }
  let g := computeGrants s r.otherW
  let s := (List.range 8).foldl (fun s d => modPwrDie s d (fun x =>
    { x with grant := BitVec.ofNat 6 (g.getD d 0), powerW := BitVec.ofNat 16 (r.dieW.getD d 0) })) s
  if (List.range 32).any (fun z => decide (3 ≤ (zoneOf s z).hotReads)) then shutdown s 1 else s

/-- GOVERNOR_EPOCH: at a multiple of 2^10 ticks in TL40 (R452). -/
def execGovernorEpoch (r : EpochReadings) (s : State) : Host.Outcome State Fault Refusal :=
  if 60000 < r.inputMv then .fault .beyondRatings
  else .next (if s.pwr.running && atBoundary s 10 s.pwr.epochBegan then governorEpoch s r else s)

/-- FAST_LIMITER: every die at 0.40 GHz until the next boundary (R454). -/
def execFastLimiter (s : State) : Host.Outcome State Fault Refusal :=
  .next (if s.pwr.running then dropGrants { s with pwr := { s.pwr with fastLimit := true } } else s)

/-! ### `PWR_CTRL.RETEST` and the shelf (R459, R492) -/

/-- A write of RETEST. -/
def writeRetest (s : State) (v : Bool) : State := queueHistory { s with pwr := { s.pwr with retest := v } } (.retest v)

/-- RETEST. -/
def execRetest (v : Bool) (s : State) : Host.Outcome State Fault Refusal := .next (if hostUp s then writeRetest s v else s)

/-- The management controller answers the shelf. -/
def controllerOn (s : State) : Bool := s.pwr.running && s.pwr.spiEnN

/-- POWER_OFF. -/
def execPowerOff (s : State) : Host.Outcome State Fault Refusal :=
  .next (if controllerOn s then answer (shutdown s 2) .none else answer s .nack)

/-- POWER_ON: restarts the module after shutdown cause 1 or 2; ignored while it runs (R451). -/
def execPowerOn (s : State) : Host.Outcome State Fault Refusal :=
  .next (answer (if !s.pwr.running && s.pwr.presN && (s.pwr.lastCause == 1 || s.pwr.lastCause == 2) then
      coldReset s s.pwr.inputMv.toNat else s) .none)

/-- A limit that the shelf may set: 1,200 to 2,000 W, or 0 to clear. -/
def limitOk (w : Nat) : Bool := w == 0 || (decide (1200 ≤ w) && decide (w ≤ 2000))

/-- SET_LIMIT, or a frame that the module does not take. -/
def execSetLimit (x : LimitWrite) (s : State) : Host.Outcome State Fault Refusal :=
  .next (match x with
    | .badFrame => answer s .nack
    | .limit w =>
      if !controllerOn s || !limitOk w then answer s .nack
      else answer { s with pwr := { s.pwr with shelfLimitW := BitVec.ofNat 11 (if w = 0 then 2000 else w) } } .none)

/-- READ_STATUS. -/
def execReadStatus (s : State) : Host.Outcome State Fault Refusal :=
  let bs := bvToBytes 2 s.pwr.inputMv ++ natToBytes 2 s.pwr.inputW.toNat
    ++ [BitVec.ofNat 8 s.pwr.stage.toNat, s.pwr.lastCause, 0, 0]
  .next (answer { s with pwr := { s.pwr with alertN := true } } (.bytes bs))

/-- HIST_READ. -/
def execHistRead (sel : BitVec 16) (s : State) : Host.Outcome State Fault Refusal :=
  .next (if !controllerOn s || fieldN sel 0 2 = 3 || bit sel 15 then answer s .nack
    else answer s (.bytes (bvToBytes 64 (historyEntry s (fieldN sel 0 2) (fieldN sel 2 13)))))

end Sys2Proof.Machine
end

