-- ==== Sys2Proof/Machine/Regs.lean ====
section
/-!
DEFINITION. The set-up registers: their places in BAR0, what each reads as, the fields that a write reaches, and what a write
does (R466, R468 to R484, R496, and the register tables of the chapters).
-/
namespace Sys2Proof.Machine

open Sys2Proof

/-! ### Places (R468 to R470, R474) -/

/-- A place in BAR0. -/
inductive Place where
  /-- A module-level block and the offset in it. -/
  | blk (n off : Nat)
  /-- A die's block: 0 DIE_, 1 HBM_, 2 TBL_. -/
  | die (d b off : Nat)
  | pba (off : Nat)
  | msix (off : Nat)
  | nowhere
  deriving DecidableEq, Repr

/-- The place of an offset of the PF's BAR0. -/
def pfPlace (off : Nat) : Place :=
  if off < 0x90000 then .blk (off / 0x10000) (off % 0x10000)
  else if 0x1000000 ≤ off && off < 0x1800000 then .die (off / 0x100000 % 8) (off / 0x10000 % 16) (off % 0x10000)
  else if 0x1FF0000 ≤ off && off < 0x1FF8000 then .pba (off - 0x1FF0000)
  else if 0x1FF8000 ≤ off && off < 0x2000000 then .msix (off - 0x1FF8000)
  else .nowhere

/-- The place of an offset of a VF's BAR0, as the PF's registers (R474). -/
def vfPlace (off : Nat) : Place :=
  if off < 0x90 then .blk 3 off
  else if 0xF00 ≤ off && off < 0xF08 then .blk 0 (off - 0xF00)
  else if 0x7000 ≤ off && off < 0x8000 then .pba (off - 0x7000)
  else if 0x8000 ≤ off && off < 0x10000 then .msix (off - 0x8000)
  else .nowhere

def placeOf (f off : Nat) : Place := if f = 0 then pfPlace off else vfPlace off

/-- The first offset of the register that an offset of a block belongs to; wide registers take 16 or 64 bytes. -/
def regBase : Place → Nat
  | .blk n o =>
    if (n == 2 || n == 3 || n == 6) && decide (0x40 ≤ o) && decide (o < 0x80) then 0x40
    else if n == 4 && decide (0x50 ≤ o) && decide (o < 0x60) then 0x50
    else if n == 7 && decide (0x40 ≤ o) && decide (o < 0x50) then 0x40
    else o / 8 * 8
  | .die _ b o => if b == 1 && decide (0x20 ≤ o) && decide (o < 0x30) then 0x20 else o / 8 * 8
  | .pba o => o / 8 * 8
  | .msix o => o / 8 * 8
  | .nowhere => 0

/-- Offset within the block. -/
def placeOff : Place → Nat
  | .blk _ o => o | .die _ _ o => o | .pba o => o | .msix o => o | .nowhere => 0

/-! ### Reading (R472) -/

/-- A register from its fields: lowest bit and value. -/
def pack (fs : List (Nat × Nat)) : BitVec 512 := BitVec.ofNat 512 ((fs.map (fun x => x.2 * 2 ^ x.1)).sum)

def bool01 (b : Bool) : Nat := if b then 1 else 0

/-- A register of `n` bytes. -/
abbrev RegView := Option (Nat × BitVec 512)

def reg32 (x : W32) : RegView := some (4, x.zeroExtend 512)
def reg64 (x : W64) : RegView := some (8, x.zeroExtend 512)
def regF (n : Nat) (fs : List (Nat × Nat)) : RegView := some (n, pack fs)

/-- One of `n` counters from offset `base` on. -/
def regCounter (m : SMap W64) (base n o : Nat) : RegView :=
  if base ≤ o && o < base + 8 * n && o % 8 = 0 then reg64 (smGet 0 m ((o - base) / 8)) else none

def readGlb (s : State) (o : Nat) : RegView :=
  match o with
  | 0x00 => regF 8 [(16, 0x1280), (32, 1), (40, s.pwr.firmware.toNat)]
  | 0x08 => reg64 (glbCap s)
  | 0x40 => reg64 (s.glb.rcfgCtrl ||| (if rcfgBusy s then 0x100000000 else 0))
  | 0x48 => reg64 s.glb.rcfgData
  | _ => none

/-- `PWR_DIE` of a die. OFF reads as last written, also while the write is held (R11, R459, R461). -/
def readPwrDie (s : State) (d : Nat) : RegView :=
  let x := pwrDieOf s d
  regF 8 [(0, x.cap.toNat), (8, bool01 x.off), (16, x.grant.toNat), (24, x.state.toNat), (32, x.temp.toNat)
    , (40, x.thermCeil.toNat), (48, x.powerW.toNat)]

def readPwr (s : State) (o : Nat) : RegView :=
  match o with
  | 0x00 => regF 4 [(0, s.pwr.limitW.toNat), (16, bool01 s.pwr.retest)]
  | 0x08 => regF 8 [(0, s.pwr.inputMv.toNat), (16, s.pwr.inputW.toNat), (28, bool01 s.pwr.clamp), (29, bool01 s.pwr.inhibit)
      , (32, s.pwr.shelfLimitW.toNat), (48, s.pwr.stage.toNat)]
  | 0x10 => regF 4 [(0, s.pwr.dieSel.toNat)]
  | 0x18 => readPwrDie s s.pwr.dieSel.toNat
  | 0x20 => reg32 s.pwr.thermCfg
  | 0x28 => regF 4 [(0, s.pwr.zoneSel.toNat)]
  | 0x30 =>
    let z := zoneOf s s.pwr.zoneSel.toNat
    regF 4 [(0, if z.read then z.temp.toNat else 0), (8, z.max.toNat), (16, bool01 z.critical)]
  | _ => none

def readTime (s : State) (o : Nat) : RegView :=
  match o with
  | 0x00 => reg32 s.time.cfg
  | 0x08 => regF 4 [(0, bool01 s.time.locked), (1, bool01 s.time.holdover), (2, bool01 s.time.refOk), (3, bool01 (ppsOk s))
      , (8, s.time.offsetNs.toNat)]
  | 0x10 => regF 8 [(0, s.time.now.toNat)]
  | 0x18 => reg64 s.time.txAddr
  | 0x20 => reg32 0
  | 0x40 => some (64, s.time.rxData)
  | _ => none

def RunState.code : RunState → Nat
  | .off => 0 | .on => 1 | .draining => 2 | .error => 3

/-- The HQ_ block as function `f` reads it. -/
def readHq (s : State) (f o : Nat) : RegView :=
  match o with
  | 0x00 => regF 4 [(0, if f = 0 then s.hq.ringSel.toNat else (vfOf s f).select.toNat)]
  | 0x40 => some (64, ringStage s f)
  | 0x80 =>
    match selectedRing s f with
    | some r =>
      let g := ringOf s r
      regF 4 [(0, g.state.code), (2, bool01 g.enableHeld), (8, g.cause.toNat)]
    | none => reg32 0
  | 0x100 => regF 8 [(0, s.hq.bar4Base.toNat)]
  | 0x200 => reg64 s.hq.cntWakeIgnored
  | 0x208 => reg64 s.hq.cntFlrDiscard
  | _ => none

/-- STATE of `PART_STATUS`: DRAINING until QUIESCED reads 1, and while an enable is held (R391, R442). -/
def partState (s : State) (p : Nat) : Nat :=
  let x := partOf s p
  if x.dies == 0 then 0 else if x.draining && (!quiesced s p || x.enableHeld) then 2 else if x.hold then 0 else 1

def readPart (s : State) (o : Nat) : RegView :=
  let p := s.part.sel.toNat
  let x := partOf s p
  match o with
  | 0x00 => regF 4 [(0, s.part.mode.toNat)]
  | 0x08 => regF 4 [(0, p)]
  | 0x10 => regF 4 [(0, x.dies.toNat), (8, bool01 x.ringEligible), (12, x.tblGib.toNat), (16, x.bgReserve.toNat)]
  | 0x18 => regF 4 [(0, bool01 (x.hold && !x.enableHeld)), (1, bool01 (cutPending s x.evicting))]
  | 0x20 => regF 4 [(0, bool01 (quiesced s p)), (1, bool01 (cutPending s x.evicting)), (2, partState s p)
      , (4, bool01 x.enableHeld), (8, startedOn s x.dies)
      , (20, bool01 ((diesOf x.dies).any (fun d => !(quarantined s d).isEmpty)))]
  | 0x28 => reg64 s.part.ctxBase
  | 0x30 => regF 8 [(0, s.part.preemptCtx.toNat), (12, s.part.preemptAction.toNat)
      , (32, bool01 (preemptBusy s))]
  | 0x40 => regF 4 [(0, s.part.rgrpGroup.toNat), (4, s.part.rgrpMember.toNat)]
  | 0x48 => reg32 s.part.rgrpCfgStage
  | 0x50 => some (16, s.part.rgrpMemberStage.zeroExtend 512)
  | _ => none

def readSpool (s : State) (o : Nat) : RegView :=
  match o with
  | 0x00 => regF 4 [(0, s.spool.gen.toNat), (8, bool01 s.spool.shadow.isSome), (16, entryInForce s)]
  | _ => none

def readErr (s : State) (o : Nat) : RegView :=
  match o with
  | 0x00 => reg64 s.err.ringBase
  | 0x08 => reg64 s.err.ctrlBase
  | 0x10 => reg32 s.err.cfg
  | 0x18 => regF 8 [(0, s.err.held.length), (7, bool01 s.err.summary.isSome), (8, min 256 s.err.buffer.length)
      , (17, bool01 s.err.badHead), (32, s.err.nextSeq.toNat)]
  | 0x20 => regF 4 [(0, s.err.histSel.toNat), (31, bool01 (s.flash.queue.contains .clearLog))]
  | 0x40 => some (64, historyEntry s (fieldN s.err.histSel 0 2) (fieldN s.err.histSel 2 13))
  | 0x100 => reg64 s.err.cntCreated
  | 0x108 => reg64 s.err.cntWritten
  | 0x110 => reg64 s.err.cntDropped
  | _ => none

/-- STATE of `ZW_PORT_STATUS` (R315). A drain that retrains is still a drain (R443). -/
def portState (q : Port) : Nat :=
  if q.retraining && (!q.enable || q.enableHeld) then 4
  else match q.stage with
  | .off => 0
  | .detect => 1
  | .train => 1
  | .negotiate => 1
  | .active => if q.quarUntil.isSome then 3 else 2
  | .draining => 4
  | .down => 5

def readZw (s : State) (o : Nat) : RegView :=
  let q := portOf s s.zw.portSel.toNat
  match o with
  | 0x00 => regF 4 [(0, s.zw.id.toNat), (16, s.zw.anchorId.toNat), (31, bool01 (!isMember s))]
  | 0x08 => reg64 s.zw.linkCfg
  | 0x10 => regF 4 [(0, s.zw.portSel.toNat)]
  | 0x18 => regF 4 [(0, bool01 q.enable), (1, q.maxWidth.toNat)]
  | 0x20 => regF 4 [(0, portState q), (3, q.width.toNat), (6, q.partnerId.toNat), (18, q.partnerPort.toNat)
      , (22, q.partnerRole.toNat), (23, q.lanesOk.toNat)]
  | 0x30 => regF 4 [(0, s.zw.winSel.toNat)]
  | 0x40 => some (16, s.zw.winStage.zeroExtend 512)
  | 0x50 => regF 4 [(0, s.zw.routeSel.toNat)]
  | 0x58 => regF 4 [(0, (smGet 0 s.zw.routes s.zw.routeSel.toNat).toNat)]
  | _ =>
    if 0x80 ≤ o && o < 0xC0 && o % 8 = 0 then regF 8 [(0, (partOf s ((o - 0x80) / 8)).key.toNat)]
    else if 0x400 ≤ o && o < 0x600 && o % 8 = 0 then
      let i := (o - 0x400) / 8
      if i = 0 then regF 8 [(0, s.zw.id.toNat), (12, 1)]
      else regF 8 [(0, (memberOf s i).id.toNat), (12, bool01 (memberOf s i).valid)]
    else regCounter q.counters 0x100 11 o

def readCodec (s : State) (o : Nat) : RegView :=
  let c := codecOf s s.codecSel.toNat
  match o with
  | 0x00 => regF 4 [(0, s.codecSel.toNat)]
  | 0x08 => regF 4 [(0, bool01 c.enable)]
  | 0x10 => regF 4 [(0, c.state.code), (2, bool01 c.enableHeld)
      , (8, (c.slots.filter (fun x => x.2.mark != 0 || x.2.pending)).length)]
  | _ => regCounter c.counters 0x100 8 o

/-- The physical column of a cluster: logical column c lies at c left of the row's fused-out position and at c + 1 otherwise,
and at c in a row without one (R77, R104). -/
def physCol (d k : Nat) : Nat :=
  let c := k % 16
  match Config.fusedColumn d (k / 256) (k / 16 % 16) with
  | some f => if c < f.val then c else c + 1
  | none => c

def readDie (s : State) (d o : Nat) : RegView :=
  let b := dieOf s d
  let k := clusterOf s d b.cluSel.toNat
  match o with
  | 0x00 => reg64 (dieCap s d)
  | 0x08 => reg32 b.scrubCfg
  | 0x10 => reg32 b.chkCfg
  | 0x18 => regF 4 [(0, b.cluSel.toNat)]
  | 0x20 => regF 8 [(0, match k.mark with | .enabled => 0 | .quarantined => 1 | .mappedOut => 2)
      , (8, saturate 8 k.mismatchWin), (16, saturate 8 k.ueWin), (24, saturate 16 k.ceWin)
      , (40, physCol d b.cluSel.toNat)]
  | 0x28 => reg32 b.cluInj
  | _ => regCounter b.counters 0x100 8 o

/-- Degraded lane as `HBM_CH_STATUS` shows it. -/
def laneField (l : Option (Fin 36)) : Nat := l.elim 0x3F Fin.val

def readHbm (s : State) (d o : Nat) : RegView :=
  let b := dieOf s d
  let c := chanOf s d b.chSel.toNat
  let temp (z : Nat) : Nat := if (zoneOf s z).read then (zoneOf s z).temp.toNat else 0
  match o with
  | 0x00 => reg32 b.hbmScrubCfg
  | 0x08 => reg32 b.thermCfg
  | 0x10 => regF 4 [(0, temp (2 * d)), (8, b.throttle0.toNat), (16, temp (2 * d + 1)), (24, b.throttle1.toNat)]
  | 0x18 => reg32 0
  | 0x20 => some (16, pack [(0, b.mapGen.toNat), (8, bool01 b.maintHeld), (16, (liveList s d).length), (64, b.live.toNat)])
  | 0x30 => reg64 b.shadow
  | 0x38 => regF 4 [(0, bool01 b.maintHeld)]
  | 0x40 => regF 4 [(0, b.chSel.toNat)]
  | 0x48 => regF 8 [(0, if c.fenced then 1 else if bit b.live b.chSel.toNat then 0 else 2), (8, laneField c.deg0)
      , (16, laneField c.deg1), (24, saturate 8 c.ueWin), (32, saturate 16 c.ceWin), (48, saturate 8 c.softRepairs)]
  | 0x50 => regF 4 [(0, b.healthCfg.toNat)]
  | 0x58 => reg32 b.hbmInj
  | _ => regCounter b.hbmCounters 0x100 7 o

/-- The command is a TABLE_LOAD: a KV_INDEX that stays the loader after its swap loads nothing any more (R138, R210). -/
def loadsTable (s : State) (u : Uid) : Bool := (findCmd s u).elim false (fun c => opcodeOf c.desc == 0x50)

/-- A running command is bound to the generation in a table's other bank (R138). -/
def tableHeld (s : State) (p t : Nat) : Bool :=
  let x := tableOf s p t
  x.other.gen != 0
  && s.cmds.any (fun c => c.phase == .started && runsHere c && cmdPart s c == p
    && c.gens.any (fun g => g.1 == t && g.2.1 == x.other.gen.toNat))

/-- TBL_SEL and TBL_STATUS (R138). DESIGN CHOICE (log entry 85): PENDING is 1 also while a KV_INDEX has written the shadow bank and its
swap has not happened (R210). -/
def readTbl (s : State) (d o : Nat) : RegView :=
  let sel := (dieOf s d).tblSel
  let p := fieldN sel 8 3
  let t := fieldN sel 0 8
  let x := tableOf s p t
  match o with
  | 0x00 => regF 4 [(0, sel.toNat)]
  | 0x08 =>
    if t < 64 then
      regF 4 [(0, x.current.gen.toNat), (8, bool01 (x.pending || x.loader.elim false (loadsTable s))), (9, bool01 (tableHeld s p t))]
    else reg32 0
  | _ => none

/-- The register that begins at `base` of a place, as function `f` reads it: its size in bytes and contents. -/
def readReg (s : State) (f : Nat) (p : Place) (base : Nat) : RegView :=
  match p with
  | .blk 0 _ => readGlb s base
  | .blk 1 _ => readPwr s base
  | .blk 2 _ => readTime s base
  | .blk 3 _ => readHq s f base
  | .blk 4 _ => readPart s base
  | .blk 5 _ => readSpool s base
  | .blk 6 _ => readErr s base
  | .blk 7 _ => readZw s base
  | .blk 8 _ => readCodec s base
  | .die d 0 _ => readDie s d base
  | .die d 1 _ => readHbm s d base
  | .die d 2 _ => readTbl s d base
  | .pba _ =>
    if base < 256 then
      regF 8 ((List.range 64).map (fun i => (i, bool01 (smGet false s.hq.msixPending (f * 2048 + base * 8 + i)))))
    else reg64 0
  | .msix _ =>
    let v := f * 2048 + base / 16
    let e := smGet 0 s.hq.msixEntries v
    if base % 16 = 0 then regF 8 [(0, fieldN e 0 64)]
    else regF 8 [(0, fieldN e 64 32), (32, bool01 (smGet true s.hq.msixMasked v))]
  | _ => none

/-- An access of 4 B or 8 B, naturally aligned, that falls in a register: the register, and the byte in it (R471). -/
def regAccess (s : State) (f off size : Nat) : Option (Nat × BitVec 512 × Nat) :=
  let p := placeOf f off
  if (size == 4 || size == 8) && aligned size off then
    match readReg s f p (regBase p) with
    | some (n, x) =>
      let o := placeOff p - regBase p
      if o < n then some (n, x, o) else none
    | none => none
  else none

/-! ### Fields that a write reaches (R471) -/

/-- The writable fields of a register, as lowest bit and width: RW, W1S, W1C and WO. -/
def regFields (p : Place) (base : Nat) : List (Nat × Nat) :=
  match p with
  | .blk 0 _ => match base with
    | 0x40 => [(0, 6), (8, 22), (30, 1), (31, 1)] | 0x48 => [(0, 64)] | _ => []
  | .blk 1 _ => match base with
    | 0x00 => [(0, 11), (16, 1), (20, 2)] | 0x10 => [(0, 3)] | 0x18 => [(0, 6), (8, 1)] | 0x20 => [(0, 8), (8, 4)]
    | 0x28 => [(0, 5)] | _ => []
  | .blk 2 _ => match base with
    | 0x00 => [(0, 2), (2, 1), (3, 2), (5, 1), (8, 8), (16, 4), (20, 1)] | 0x18 => [(0, 64)] | 0x20 => [(0, 7)]
    | 0x40 => [(0, 512)] | _ => []
  | .blk 3 _ => match base with
    | 0x00 => [(0, 12), (31, 1)]
    | 0x40 => [(0, 64), (64, 64), (128, 64), (192, 41), (256, 5), (264, 5), (272, 11), (283, 1), (288, 8), (296, 16), (312, 5)
        , (320, 6), (328, 3), (336, 8), (344, 12), (356, 12), (368, 6), (376, 8), (384, 1)]
    | 0x100 => [(0, 41)] | _ => []
  | .blk 4 _ => match base with
    | 0x00 => [(0, 1)] | 0x08 => [(0, 3)] | 0x10 => [(0, 8), (8, 1), (12, 4), (16, 4)] | 0x18 => [(0, 1), (1, 1)]
    | 0x28 => [(0, 64)] | 0x30 => [(0, 12), (12, 2), (31, 1)] | 0x40 => [(0, 4), (4, 6), (31, 1)]
    | 0x48 => [(0, 7), (8, 3)] | 0x50 => [(0, 12), (12, 3), (64, 64)] | _ => []
  | .blk 6 _ => match base with
    | 0x00 => [(0, 64)] | 0x08 => [(0, 64)] | 0x10 => [(0, 1), (1, 5), (8, 5), (16, 11), (27, 1)]
    | 0x20 => [(0, 2), (2, 13), (31, 1)] | _ => []
  | .blk 7 _ => match base with
    | 0x00 => [(0, 12), (16, 12)]
    | 0x08 => [(0, 4), (4, 5), (16, 8), (24, 5), (29, 5), (36, 4), (40, 4), (44, 4)]
    | 0x10 => [(0, 4)] | 0x18 => [(0, 1), (1, 2)] | 0x30 => [(0, 6), (31, 1)]
    | 0x40 => [(0, 1), (1, 1), (2, 1), (3, 1), (8, 12), (20, 12), (32, 32), (64, 20), (84, 20)]
    | 0x50 => [(0, 12)] | 0x58 => [(0, 16)]
    | o => if 0x80 ≤ o && o < 0xC0 then [(0, 32)] else if 0x400 < o && o < 0x600 then [(0, 12), (12, 1)] else []
  | .blk 8 _ => match base with | 0x00 => [(0, 3)] | 0x08 => [(0, 1)] | _ => []
  | .die _ 0 _ => match base with
    | 0x08 => [(0, 5), (8, 12), (24, 1)] | 0x10 => [(0, 6), (8, 4), (12, 4), (16, 12)] | 0x18 => [(0, 13)]
    | 0x28 => [(0, 13), (16, 2), (31, 1)] | _ => []
  | .die _ 1 _ => match base with
    | 0x00 => [(0, 5), (8, 5), (24, 1)] | 0x08 => [(0, 8), (8, 4)] | 0x18 => [(0, 6), (31, 1)] | 0x30 => [(0, 64)]
    | 0x38 => [(0, 1)] | 0x40 => [(0, 6)] | 0x50 => [(0, 8), (8, 8)] | 0x58 => [(0, 6), (8, 2), (31, 1)] | _ => []
  | .die _ 2 _ => match base with | 0x00 => [(0, 8), (8, 3)] | _ => []
  | .msix _ => if base % 16 = 0 then [(0, 32), (32, 32)] else [(0, 32), (32, 1)]
  | _ => []

/-- Bits `[lo + w - 1 : lo]`. -/
def fieldMask (lo w : Nat) : Nat := (2 ^ w - 1) * 2 ^ lo

/-- The bits that a write of `size` bytes at byte `o` of a register reaches: a 4 B write only fields wholly in its bytes. -/
def reached512 (fs : List (Nat × Nat)) (o size : Nat) : BitVec 512 :=
  if size = 4 then
    fs.foldl (fun m f => if 8 * o ≤ f.1 && f.1 + f.2 ≤ 8 * o + 32 then m ||| BitVec.ofNat 512 (fieldMask f.1 f.2) else m) 0
  else
    fs.foldl (fun m f => m ||| BitVec.ofNat 512 (fieldMask f.1 f.2)) 0 &&& BitVec.ofNat 512 (fieldMask (8 * o) 64)

/-! ### Writing -/

/-- A register write: the bits it reaches, its value in place, and what a record of it shows. -/
structure RegWrite where
  mask : BitVec 512
  value : BitVec 512
  off : Nat
  raw : W64
  deriving DecidableEq, Repr

/-- The register's new contents. -/
def RegWrite.on (w : RegWrite) (old : BitVec 512) : BitVec 512 := (old &&& ~~~w.mask) ||| (w.value &&& w.mask)

/-- Bit `i` is written as 1. -/
def RegWrite.sets (w : RegWrite) (i : Nat) : Bool := bit (w.value &&& w.mask) i

/-- Bit `i` is reached. -/
def RegWrite.hits (w : RegWrite) (i : Nat) : Bool := bit w.mask i

/-- Ignores and logs it. -/
def RegWrite.ignore (w : RegWrite) (s : State) : State := logIgnored s w.off w.raw

/-- A value in a range. -/
def within (lo hi n : Nat) : Bool := decide (lo ≤ n) && decide (n ≤ hi)

def writeGlb (s : State) (o : Nat) (w : RegWrite) : State :=
  match o with
  | 0x40 => writeRcfg s (field w.value 0 64) (field w.mask 0 64) w.off
  | 0x48 =>
    if rcfgBusy s then w.ignore s
    else { s with glb := { s.glb with rcfgData := field (w.on (s.glb.rcfgData.zeroExtend 512)) 0 64 } }
  | _ => s

/-- `PWR_CTRL` (R459). -/
def writePwrCtrl (s : State) (w : RegWrite) : State :=
  let x := w.on (pack [(0, s.pwr.limitW.toNat), (16, bool01 s.pwr.retest)])
  let action := fieldN (w.value &&& w.mask) 20 2
  if !within 1200 2000 (fieldN x 0 11) || action = 3 then w.ignore s
  else
    let s := { s with pwr := { s.pwr with limitW := field x 0 11 } }
    let v := bit x 16
    let s := if w.hits 16 && (s.pwr.retest != v || s.flash.retest != v || s.flash.queue.contains (.retest (!v))) then
        writeRetest s v else s
    if action = 1 then moduleReset s else if action = 2 then shutdown s 2 else s

/-- A die whose ceiling falls below its grant drops to the ceiling at once (R453, log entry 44). -/
def capGrant (s : State) (d : Nat) : State :=
  modPwrDie s d (fun x => { x with grant := BitVec.ofNat 6 (min x.grant.toNat (dieCeil s d)) })

/-- `PWR_DIE` (R459, R461). -/
def writePwrDie (s : State) (w : RegWrite) : State :=
  let d := s.pwr.dieSel.toNat
  let x := pwrDieOf s d
  let c := w.on (pack [(0, x.cap.toNat), (8, bool01 x.off)])
  if !within 0 32 (fieldN c 0 6) || (w.sets 8 && !x.off && (partOfDie s d).isSome) then w.ignore s
  else
    let s := capGrant (modPwrDie s d (fun x => { x with cap := field c 0 6 })) d
    if !w.hits 8 then s else if w.sets 8 then writeDieOff s d w.off w.raw.toNat else writeDieOn s d

def writePwr (s : State) (o : Nat) (w : RegWrite) : State :=
  match o with
  | 0x00 => writePwrCtrl s w
  | 0x10 => { s with pwr := { s.pwr with dieSel := field w.value 0 3 } }
  | 0x18 => writePwrDie s w
  | 0x20 =>
    let x := w.on (s.pwr.thermCfg.zeroExtend 512)
    if within 85 105 (fieldN x 0 8) && within 1 15 (fieldN x 8 4) then
      { s with pwr := { s.pwr with thermCfg := field x 0 32 } }
    else w.ignore s
  | 0x28 => { s with pwr := { s.pwr with zoneSel := field w.value 0 5 } }
  | _ => s

def writeTime (s : State) (o : Nat) (w : RegWrite) : State :=
  match o with
  | 0x00 =>
    let x := w.on (s.time.cfg.zeroExtend 512)
    if fieldN x 0 2 = 3 || fieldN x 3 2 = 3 then w.ignore s
    else { s with time := { s.time with
      cfg := field x 0 32, exchange := if field x 0 2 = field s.time.cfg 0 2 then s.time.exchange else none } }
  | 0x18 =>
    let x := w.on (s.time.txAddr.zeroExtend 512)
    if aligned 64 (fieldN x 0 64) then { s with time := { s.time with txAddr := field x 0 64 } } else w.ignore s
  | 0x20 => timeRxGo s (fieldN w.value 0 7) w.off
  | 0x40 => { s with time := { s.time with rxData := w.on s.time.rxData } }
  | _ => s

/-- `HQ_RING_SEL` and `HQ_RING` of a function; a VF does not reach the PF-only fields (R366). -/
def writeHq (s : State) (f o : Nat) (w : RegWrite) : State :=
  match o with
  | 0x00 =>
    let s := if w.hits 0 then selectRing s f (field w.value 0 12) else s
    if w.sets 31 then commitRing s f w.off w.raw.toNat else s
  | 0x40 =>
    let m := if f = 0 then w.mask else w.mask &&& ~~~pfOnlyMask
    setRingStage s f ((ringStage s f &&& ~~~m) ||| (w.value &&& m))
  | 0x100 =>
    let x := w.on (s.hq.bar4Base.zeroExtend 512)
    if aligned (2 ^ s.io.bar4Log2) (fieldN x 0 41) then { s with hq := { s.hq with bar4Base := field x 0 41 } }
    else w.ignore s
  | _ => s

/-- `PART_CTX_BASE`: while every ring is OFF, zero or a 4 KiB aligned address of this module (R392). -/
def writeCtxBase (s : State) (w : RegWrite) : State :=
  let x := fieldN (w.on (s.part.ctxBase.zeroExtend 512)) 0 64
  if allRingsOff s && (x = 0 || (aligned 4096 x && addrOk x 4096 && isLocal s x)) then
    { s with part := { s.part with ctxBase := BitVec.ofNat 64 x } }
  else w.ignore s

def writePartReg (s : State) (o : Nat) (w : RegWrite) : State :=
  let p := s.part.sel.toNat
  let x := partOf s p
  match o with
  | 0x00 => writePartMode s (field w.value 0 1) w.off w.raw.toNat
  | 0x08 => { s with part := { s.part with sel := field w.value 0 3 } }
  | 0x10 =>
    let v := w.on (pack [(0, x.dies.toNat), (8, bool01 x.ringEligible), (12, x.tblGib.toNat), (16, x.bgReserve.toNat)])
    writePartCfg s p (field v 0 32) w.off w.raw.toNat
  | 0x18 =>
    let s := if !w.hits 0 then s else if w.sets 0 then holdPart s p else unholdPart s p
    if w.sets 1 then evictPart s p else s
  | 0x28 => writeCtxBase s w
  | 0x30 =>
    let v := w.on (pack [(0, s.part.preemptCtx.toNat), (12, s.part.preemptAction.toNat)])
    writePreempt s (field v 0 12) (field v 12 2) (w.sets 31) w.off w.raw.toNat
  | 0x40 =>
    let s := if w.hits 0 then selectRingGroup s (field w.value 0 4) (field w.value 4 6) else s
    if w.sets 31 then commitRingGroup s w.off w.raw.toNat else s
  | 0x48 =>
    { s with part := { s.part with rgrpCfgStage := field (w.on (s.part.rgrpCfgStage.zeroExtend 512)) 0 32 } }
  | 0x50 =>
    { s with part := { s.part with rgrpMemberStage := field (w.on (s.part.rgrpMemberStage.zeroExtend 512)) 0 128 } }
  | _ => s

/-- `ERR_CFG` (R435, R439). -/
def writeErrCfg (s : State) (w : RegWrite) : State :=
  let old := s.err.cfg
  let x : W32 := field (w.on (old.zeroExtend 512)) 0 32
  if !within 8 16 (fieldN x 1 5) || !within 10 24 (fieldN x 8 5) || (bit old 0 && field x 1 5 != field old 1 5) then w.ignore s
  else
    let s := { s with err := { s.err with cfg := setField x 0 1 (bool01 (bit old 0)) } }
    if bit x 0 then enableErr s else disableErr s

/-- An error-ring address: aligned, and unchanged while the ring is enabled (R439). -/
def errBase (s : State) (old : W64) (al : Nat) (w : RegWrite) : Option W64 :=
  let x : W64 := field (w.on (old.zeroExtend 512)) 0 64
  if aligned al x.toNat && !(errEnabled s && x != old) then some x else none

def writeErr (s : State) (o : Nat) (w : RegWrite) : State :=
  match o with
  | 0x00 => (errBase s s.err.ringBase 4096 w).elim (w.ignore s) (fun x => { s with err := { s.err with ringBase := x } })
  | 0x08 => (errBase s s.err.ctrlBase 64 w).elim (w.ignore s) (fun x => { s with err := { s.err with ctrlBase := x } })
  | 0x10 => writeErrCfg s w
  | 0x20 =>
    let x := w.on (s.err.histSel.zeroExtend 512)
    if fieldN x 0 2 = 3 then w.ignore s
    else
      let s := { s with err := { s.err with histSel := (field x 0 15).zeroExtend 32 } }
      if w.sets 31 then queueHistory s .clearLog else s
  | _ => s

/-- `ZW_LINK_CFG`: every field in its range (R314). -/
def linkCfgOk (x : BitVec 512) : Bool :=
  within 1 15 (fieldN x 0 4) && within 10 20 (fieldN x 4 5) && within 1 255 (fieldN x 16 8) && within 10 24 (fieldN x 24 5)
  && within 10 24 (fieldN x 29 5) && within 1 15 (fieldN x 36 4) && within 1 15 (fieldN x 40 4) && within 1 15 (fieldN x 44 4)

/-- `ZW_PORT_CTRL`: MAX_WIDTH at the next Detect, ENABLE at once (R307, R315, R443). -/
def writePortCtrl (s : State) (w : RegWrite) : State :=
  let p := s.zw.portSel.toNat
  let q := portOf s p
  let x := w.on (pack [(0, bool01 q.enable), (1, q.maxWidth.toNat)])
  if fieldN x 1 2 = 3 then w.ignore s
  else
    let s := setPort s p { q with maxWidth := field x 1 2 }
    if !w.hits 0 then s else if w.sets 0 then enablePort s p else disablePort s p

def writeZw (s : State) (o : Nat) (w : RegWrite) : State :=
  match o with
  | 0x00 =>
    let x := w.on (pack [(0, s.zw.id.toNat), (16, s.zw.anchorId.toNat)])
    writeModuleId s (field x 0 12) (field x 16 12)
  | 0x08 =>
    let x := w.on (s.zw.linkCfg.zeroExtend 512)
    if linkCfgOk x then { s with zw := { s.zw with linkCfg := field x 0 64 } } else w.ignore s
  | 0x10 => { s with zw := { s.zw with portSel := field w.value 0 4 } }
  | 0x18 => writePortCtrl s w
  | 0x30 =>
    let s := if w.hits 0 then selectWindow s (field w.value 0 6) else s
    if w.sets 31 then commitWindow s else s
  | 0x40 => { s with zw := { s.zw with winStage := field (w.on (s.zw.winStage.zeroExtend 512)) 0 128 } }
  | 0x50 => { s with zw := { s.zw with routeSel := field w.value 0 12 } }
  | 0x58 =>
    memberPost { s with zw := { s.zw with routes := smSet 0 s.zw.routes s.zw.routeSel.toNat (field w.value 0 16) } }
  | _ =>
    if 0x80 ≤ o && o < 0xC0 then writePartKey s ((o - 0x80) / 8) (field w.value 0 32)
    else if 0x400 < o && o < 0x600 then
      let i := (o - 0x400) / 8
      setMember s i { memberOf s i with id := field w.value 0 12, valid := bit w.value 12 }
    else s

def writeCodecReg (s : State) (o : Nat) (w : RegWrite) : State :=
  match o with
  | 0x00 => { s with codecSel := field w.value 0 3 }
  | 0x08 => if w.sets 0 then enableCodec s s.codecSel.toNat else disableCodec s s.codecSel.toNat
  | _ => s

def writeDieReg (s : State) (d o : Nat) (w : RegWrite) : State :=
  let b := dieOf s d
  match o with
  | 0x08 =>
    let x := w.on (b.scrubCfg.zeroExtend 512)
    if within 10 24 (fieldN x 0 5) && decide (fieldN x 8 12 ≤ 3072) then
      let behind := bit b.scrubCfg 24 && !w.sets 24
      setDie s d { b with scrubCfg := setField (field x 0 32) 24 1 (bool01 behind) }
    else w.ignore s
  | 0x10 =>
    let x := w.on (b.chkCfg.zeroExtend 512)
    if within 16 36 (fieldN x 0 6) then setDie s d { b with chkCfg := field x 0 32 } else w.ignore s
  | 0x18 => setDie s d { b with cluSel := field w.value 0 13 }
  | 0x28 => writeCluInj s d (field (w.on ((b.cluInj &&& 0x7FFFFFFF).zeroExtend 512)) 0 32) w.off
  | _ => s

def writeHbmReg (s : State) (d o : Nat) (w : RegWrite) : State :=
  let b := dieOf s d
  match o with
  | 0x00 =>
    let x := w.on (b.hbmScrubCfg.zeroExtend 512)
    if within 10 24 (fieldN x 0 5) && (fieldN x 8 5 = 0 || within 10 26 (fieldN x 8 5)) then
      let behind := bit b.hbmScrubCfg 24 && !w.sets 24
      setDie s d { b with hbmScrubCfg := setField (field x 0 32) 24 1 (bool01 behind) }
    else w.ignore s
  | 0x08 =>
    let x := w.on (b.thermCfg.zeroExtend 512)
    if within 80 100 (fieldN x 0 8) && within 1 15 (fieldN x 8 4) then setDie s d { b with thermCfg := field x 0 32 }
    else w.ignore s
  | 0x18 => if w.sets 31 then writeFence s d (fieldN w.value 0 6) w.off w.raw.toNat else s
  | 0x30 => setDie s d { b with shadow := field (w.on (b.shadow.zeroExtend 512)) 0 64 }
  | 0x38 => if w.sets 0 then requestMaint s d else s
  | 0x40 => setDie s d { b with chSel := field w.value 0 6 }
  | 0x50 => setDie s d { b with healthCfg := field (w.on (b.healthCfg.zeroExtend 512)) 0 16 }
  | 0x58 => writeHbmInj s d (field (w.on ((b.hbmInj &&& 0x7FFFFFFF).zeroExtend 512)) 0 32) w.off
  | _ => s

def writeTblReg (s : State) (d o : Nat) (w : RegWrite) : State :=
  match o with
  | 0x00 => modDie s d (fun b => { b with tblSel := field w.value 0 11 })
  | _ => s

/-- An MSI-X table entry: an unmasked vector with its pending bit set sends its message (log entry 16). -/
def writeMsix (s : State) (f base : Nat) (w : RegWrite) : State :=
  let v := f * 2048 + base / 16
  let e := smGet 0 s.hq.msixEntries v
  if base % 16 = 0 then
    let x : BitVec 64 := field (w.on ((field e 0 64).zeroExtend 512)) 0 64
    { s with hq := { s.hq with msixEntries := smSet 0 s.hq.msixEntries v (setField e 0 64 x.toNat) } }
  else
    let x := w.on (pack [(0, fieldN e 64 32), (32, bool01 (smGet true s.hq.msixMasked v))])
    let s := { s with hq := { s.hq with
      msixEntries := smSet 0 s.hq.msixEntries v (setField e 64 32 (fieldN x 0 32))
      msixMasked := smSet true s.hq.msixMasked v (bit x 32) } }
    if !bit x 32 && smGet false s.hq.msixPending v then
      sendMsix { s with hq := { s.hq with msixPending := smSet false s.hq.msixPending v false } } f (base / 16)
    else s

/-- Performs a write that reaches at least one field. -/
def writeRegAt (s : State) (f : Nat) (p : Place) (base : Nat) (w : RegWrite) : State :=
  match p with
  | .blk 0 _ => writeGlb s base w
  | .blk 1 _ => writePwr s base w
  | .blk 2 _ => writeTime s base w
  | .blk 3 _ => writeHq s f base w
  | .blk 4 _ => writePartReg s base w
  | .blk 6 _ => writeErr s base w
  | .blk 7 _ => writeZw s base w
  | .blk 8 _ => writeCodecReg s base w
  | .die d 0 _ => writeDieReg s d base w
  | .die d 1 _ => writeHbmReg s d base w
  | .die d 2 _ => writeTblReg s d base w
  | .msix _ => writeMsix s f base w
  | _ => s

/-- Who makes a register access: a function at the module's own port, or the anchor by a CONFIG packet (R475, R478). -/
inductive Accessor where
  | own (f : Nat)
  | anchor
  deriving DecidableEq, Repr

def Accessor.function : Accessor → Nat
  | .own f => f
  | .anchor => 0

/-- The write may take effect: before READY only PWR_, TIME_ and ERR_; through the own port of a member only PWR_ and
`ZW_MODULE` (R466, R475). -/
def writeAllowed (s : State) (a : Accessor) (p : Place) (base : Nat) : Bool :=
  let early := match p with | .blk 1 _ => true | .blk 2 _ => true | .blk 6 _ => true | _ => false
  let outside := match p with | .blk 1 _ => true | .blk 7 _ => base == 0 | _ => false
  (isReady s || (early && a.function == 0)) && (a == .anchor || !isMember s || (outside && a.function == 0))

/-- A BAR0 write of `size` bytes (R471, R473). -/
def registerWrite (s : State) (a : Accessor) (off size : Nat) (value : W64) : State :=
  let f := a.function
  let p := placeOf f off
  let base := regBase p
  let v : W64 := if size = 4 then value &&& 0xFFFFFFFF else value
  match regAccess s f off size with
  | none => logIgnored s off v
  | some (_, _, o) =>
    if !writeAllowed s a p base then logIgnored s off v
    else
      let m := reached512 (regFields p base) o size
      if m = 0 then (if rcfgBusy s && (p == .blk 0 0x40 || p == .blk 0 0x44) then logIgnored s off v else s)
      else writeRegAt s f p base ⟨m, (v.zeroExtend 512) <<< (8 * o), off, v⟩

/-- BAR0 answers: the PF is ready, and a VF enabled (R466, log entry 1). -/
def barReachable (s : State) (f : Nat) : Bool := hostUp s && (f == 0 || (vfOf s f).enabled)

/-- REGISTER_WRITE. -/
def execRegisterWrite (f : FuncIx) (off size : Nat) (value : W64) (s : State) : Host.Outcome State Fault Refusal :=
  .next (if barReachable s f.val then registerWrite s (.own f.val) off size value else s)

/-- Key of a register's snapshot. -/
def snapKey (f off : Nat) (p : Place) : Nat := f * 0x2000000 + (off - (placeOff p - regBase p))

/-- A BAR0 read: its value, and the state with the snapshot that a read of a register's lowest 4 bytes takes (R471, R472). -/
def registerRead (s : State) (f off size : Nat) : W64 × State :=
  match regAccess s f off size with
  | none => (0, s)
  | some (_, x, o) =>
    let k := snapKey f off (placeOf f off)
    let now : W64 := field x (8 * o) 64
    if o = 0 then
      let s := { s with io := { s.io with snapshots := smSet none s.io.snapshots k (some x) } }
      (if size = 4 then now &&& 0xFFFFFFFF else now, s)
    else if size = 4 then
      let y := (smGet none s.io.snapshots k).getD x
      ((field y (8 * o) 32 : BitVec 32).zeroExtend 64, s)
    else (now, s)

/-- REGISTER_LOW_READ. -/
def execRegisterLowRead (f : FuncIx) (off size : Nat) (s : State) : Host.Outcome State Fault Refusal :=
  .next (if barReachable s f.val then
      let (v, t) := registerRead s f.val off size
      answer t (.value v)
    else s)

end Sys2Proof.Machine
end

