-- ==== Sys2Proof/Machine/Fabric.lean ====
section
/-!
DEFINITION. Packets at their destination: memory requests under the window check, answers and refusals of this module's own
requests, forwarded commands and their completions, register accesses, records and timeline messages of other modules
(R289, R290, R293, R296 to R298, R308 to R311, R387, R417, R436, R437, R478).
-/
namespace Sys2Proof.Machine

open Sys2Proof

/-! ### Answers (R289) -/

/-- The RSP to a packet: SRC and DST swap, TAG and class are kept. -/
def rspOf (s : State) (k : Packet) (st : Status) (data : List Byte) : Packet where
  type := 8
  tc := if k.type = 0xA then 0 else k.tc
  hops := hopLimit s
  dst := k.src
  src := k.dst
  tag := k.tag
  len := lenCode data.length
  op := 0
  addr := 0
  key := 0
  status := BitVec.ofNat 16 st.code
  reserved := false
  data := data
  mask := 0
  stamp := 0
  flow := 0

/-- Sends an RSP by the route to the source; without one it is lost. -/
def sendRsp (s : State) (k : Packet) (st : Status) (data : List Byte) : State :=
  let r := rspOf s k st data
  match routePort s r.dst.toNat r.tc.toNat (r.tag.toNat / 8192) with
  | some p => txPush s p r
  | none => s

/-! ### Memory requests (R253, R293, R296, R401) -/

/-- The status of an access that HBM does not perform. -/
def HbmStop.status : HbmStop → Status
  | .uncorrectable => .memUncorrectable
  | .offline => .channelOffline

/-- Performs a request that the checks admit, and answers ACCESS_DENIED to any other (R246, R293, R401). -/
def request (s : State) (k : Packet) (kind : AccKind) (n : Nat) (perform : State → State) : State :=
  let a := packetAddr k
  match requestRefused s kind k.src.toNat k.key a n with
  | none => perform s
  | some .tableArea =>
    sendRsp (logFor s none evTableArea (dieOfAddr a) false (BitVec.ofNat 64 a) 1 0 0) k .accessDenied []
  | some (.window _) => sendRsp s k .accessDenied []
  | some .aboveTop => sendRsp s k .accessDenied []

/-- Reads the bytes of sectors in turn; `none` in the list of one that HBM does not deliver ends it. -/
def reqRead : List (Nat × Nat × Nat) → State → Except HbmStop (List Byte) × State
  | [], s => (.ok [], s)
  | (a, o, n) :: rest, s =>
    match readSector s none (dieOfAddr a) (winOff a) [] with
    | (.error e, s) => (.error e, s)
    | (.ok x, s) =>
      match reqRead rest s with
      | (.error e, s) => (.error e, s)
      | (.ok bs, s) => (.ok (((bvToBytes 32 x).drop o).take n ++ bs), s)

/-- Writes sectors in turn under a byte mask; the first failure is answered. -/
def reqWrite : List (Nat × Nat × Nat) → List Byte → BitVec 256 → State → Except HbmStop Unit × State
  | [], _, _, s => (.ok (), s)
  | (a, o, n) :: rest, bs, mask, s =>
    let part : List (Bool × Byte) := (List.range n).map (fun i => (bit mask i, bs.getD i 0))
    let merge (x : BitVec 256) : BitVec 256 :=
      (List.range n).foldl (fun y i =>
        if bit mask i then setField y (8 * (o + i)) 8 (bs.getD i 0).toNat else y) x
    let (r, t) :=
      if !part.any (fun x => x.1) then ((Except.ok () : Except HbmStop Unit), s)
      else if n = 32 && part.all (fun x => x.1) then writeSector s (dieOfAddr a) (winOff a) (bytesToBv 256 (bs.take 32))
      else
        match rmwSector s none (dieOfAddr a) (winOff a) merge [] with
        | (.ok _, t) => (.ok (), t)
        | (.error e, t) => (.error e, t)
    let (rs, t) := reqWrite rest (bs.drop n) (mask >>> n) t
    (match r with | .ok _ => rs | .error e => .error e, t)

/-- A packet of another module writes `n` bytes here: it may breach R321. -/
def packetTouch (k : Packet) (n : Nat) (s : State) : State := touchFrom k.src.toNat (s.zw.id.toNat * 2 ^ 52 + packetAddr k) n s

/-- A write of a packet's bytes under a mask. -/
def performWrite (k : Packet) (mask : BitVec 256) (s : State) : State :=
  match reqWrite (sectorSpans (packetAddr k) k.data.length) k.data mask (packetTouch k k.data.length s) with
  | (.ok _, t) => sendRsp t k .ok []
  | (.error e, t) => sendRsp t k e.status []

/-- A RD for this module. -/
def takeRd (s : State) (k : Packet) : State :=
  let n := (lenBytes k.len).getD 0
  request s k .rd n (fun s =>
    match reqRead (sectorSpans (packetAddr k) n) s with
    | (.ok bs, t) => sendRsp t k .ok bs
    | (.error e, t) => sendRsp t k e.status [])

/-- RD. -/
def execRd (p : PortIx) (s : State) : Host.Outcome State Fault Refusal :=
  .next (packetRow s p.val (fun k => k.type == 1) takeRd)

/-- A WR for this module. A piece of 256 B has eight sectors of 32 enabled bytes each. -/
def takeWr (s : State) (k : Packet) : State :=
  request s k .wr k.data.length (performWrite k (BitVec.allOnes 256))

/-- WR. -/
def execWr (p : PortIx) (s : State) : Host.Outcome State Fault Refusal :=
  .next (packetRow s p.val (fun k => k.type == 2) takeWr)

/-- A WRM for this module. -/
def takeWrm (s : State) (k : Packet) : State :=
  request s k .wr k.data.length (performWrite k (k.mask.zeroExtend 256))

/-- WRM. -/
def execWrm (p : PortIx) (s : State) : Host.Outcome State Fault Refusal :=
  .next (packetRow s p.val (fun k => k.type == 3) takeWrm)

/-- The operation that OP selects (R296). -/
def atomicOf (op : BitVec 4) : AtomicOp := if op = 0 then .add else if op = 1 then .max else .cas

/-- An ATOMIC for this module. -/
def takeAtomic (s : State) (k : Packet) : State :=
  request s k .atom 8 (fun s =>
    let x : W64 := bytesToBv 64 (k.data.take 8)
    let y : W64 := bytesToBv 64 ((k.data.drop 8).take 8)
    match atomicLocal (packetTouch k 8 s) none (packetAddr k) (atomicOf k.op) x y with
    | (.ok old, t) => sendRsp t k .ok (bvToBytes 8 old ++ List.replicate 8 0)
    | (.error e, t) => sendRsp t k e.status [])

/-- ATOMIC. -/
def execAtomic (p : PortIx) (s : State) : Host.Outcome State Fault Refusal :=
  .next (packetRow s p.val (fun k => k.type == 4) takeAtomic)

/-! ### Answers to this module's requests (R297, R298, R310, R311, R478) -/

/-- Stores bytes of another module that a command has asked for. -/
def putRemote (m : SMap (Option Byte)) (a : Nat) : List Byte → SMap (Option Byte)
  | [] => m
  | b :: bs => putRemote (smSet none m a (some b)) (a + 1) bs

/-- The answer to a request arrived in time, with `act` for it; a late one frees the tag and is counted, and so is an answer
that no request waits for. -/
def answered (s : State) (p : Nat) (k : Packet) (act : State → Request → State) : State :=
  match findRequest s (k.tag.toNat / 8192) (k.tag.toNat % 8192) with
  | none => bumpPort s p cntLate
  | some r =>
    if r.late then bumpPort (advanceAll (dropRequest s r)) p cntLate
    else if overdue s r 1 then bumpPort (advanceAll (dropRequest (timeoutRequest s r) r)) p cntLate
    else act s r

/-- An RSP with STATUS OK. -/
def takeOk (s : State) (k : Packet) (r : Request) : State :=
  let t := dropRequest s r
  match r.kind with
  | .read =>
    advanceAll (r.cmd.elim t (fun u =>
      modCmd t u (fun c => { c with remoteData := putRemote c.remoteData r.addr.toNat (k.data.take r.bytes) })))
  | .write => advanceAll (r.cmd.elim t (fun u => noteWrite u t))
  | .atomic => advanceAll t
  | .signal => advanceAll t
  | .desc => t
  | .probe => (memberIndex s r.dst).elim t (fun i => setMember t i { memberOf t i with probeSent := none })
  | .rcfg => endRcfg t .ok (if s.glb.rcfgWrite then none else some (bytesToBv 64 (k.data.take 8)))

/-- An RSP for this module. A probe is answered by an RSP of any status. -/
def takeRsp (p : Nat) (s : State) (k : Packet) : State :=
  answered s p k (fun s r =>
    if k.status.toNat = Status.ok.code || r.kind == .probe then takeOk s k r
    else endRequest s r 0 (Status.ofCode k.status.toNat))

/-- RSP. -/
def execRsp (p : PortIx) (s : State) : Host.Outcome State Fault Refusal :=
  .next (packetRow s p.val (fun k => k.type == 8) (takeRsp p.val))

/-- A NAK for this module answers the request of its TAG and refused TYPE; it is counted at the port by which that left. One of
a MSG packet without such a request refuses a COMPLETION, ERROR or TIME, and is no answer (R290, log entry 70). -/
def takeRefusal (p : Nat) (s : State) (k : Packet) : State :=
  match (findRequest s (k.tag.toNat / 8192) (k.tag.toNat % 8192)).filter (fun r => r.type == field k.status 4 4) with
  | some r =>
    answered (bumpPort s r.port cntNakRx) p k (fun s r => endRequest s r (fieldN k.status 0 4) .fabricUnreachable)
  | none => if field k.status 4 4 = (0xA : BitVec 4) then s else bumpPort s p cntLate

/-- NAK. -/
def execNak (p : PortIx) (s : State) : Host.Outcome State Fault Refusal :=
  .next (packetRow s p.val (fun k => k.type == 9) (takeRefusal p.val))

/-! ### Forwarded commands (R309, R310, R387) -/

/-- A MSG of a kind. -/
def isMsg (kind : BitVec 4) (k : Packet) : Bool := k.type == 0xA && k.op == kind

/-- The packet comes from this member's anchor. -/
def fromAnchor (s : State) (k : Packet) : Bool := isMember s && k.src == s.zw.anchorId

/-- The member has heard from its anchor (R311). -/
def heardAnchor (s : State) (k : Packet) : State :=
  if fromAnchor s k then { s with zw := { s.zw with anchorHeard := s.time.now } } else s

/-- Admits a forwarded command: its dies lie in the partition of its ring's number and none has failed, or it ends at once; else
its header waits are read (R379, R386, R441; log entries 23 and 31). -/
def admitForwarded (s : State) (p : Nat) (k : Packet) (desc sync : BitVec 1024) : State :=
  let u := s.nextUid
  let c0 := freshCmd u 0 0 desc sync 0 (if placedFlag desc then field sync 8 8 else field k.key 8 8)
  let c := { c0 with
    origin := some (k.tag.toNat, p), ballastBase := BitVec.ofNat 64 (s.zw.anchorId.toNat * 2 ^ 52 + packetAddr k) }
  let s := { s with nextUid := u + 1, cmds := s.cmds ++ [c] }
  if c.dies &&& ~~~(partOf s (fieldN k.key 0 3)).dies != 0 then
    rejectCmd s u .accessDenied (if placedFlag desc then 129 else 0xFFFF)
  else if (diesOf c.dies).any (dieFailed s) then failCmd (logAborted s u) u .aborted
  else recheckHeader s c

/-- A DESC for this module: a descriptor, or the sync record of the descriptor before it. -/
def takeDesc (p : Nat) (s : State) (k : Packet) : State :=
  let s := heardAnchor s k
  if !fromAnchor s k then sendRsp s k .accessDenied []
  else if !isReady s then sendRsp s k .fabricUnreachable []
  else
    let s := sendRsp s k .ok []
    let d : BitVec 1024 := bytesToBv 1024 k.data
    match s.zw.descFirst with
    | some f => admitForwarded { s with zw := { s.zw with descFirst := none } } p f (bytesToBv 1024 f.data) d
    | none =>
      if hasSync d then { s with zw := { s.zw with descFirst := some k } } else admitForwarded s p k d 0

/-- DESC. -/
def execDesc (p : PortIx) (s : State) : Host.Outcome State Fault Refusal :=
  .next (packetRow s p.val (isMsg 1) (takeDesc p.val))

/-- The ERR_SEQ of a member's completion becomes the SEQ that the anchor gave its record, or that of a RECORD_LOST record
(R437). -/
def memberErrSeq (s : State) (src : BitVec 12) (u : Uid) (q : W32) : State :=
  match s.zw.memberSeqs.find? (fun x => x.1 == src && x.2.1 == q) with
  | some x =>
    let s := { s with zw := { s.zw with memberSeqs := s.zw.memberSeqs.filter (fun y => y != x) } }
    modCmd s u (fun c => if c.errSeq.isNone then { c with errSeq := some x.2.2 } else c)
  | none => logCmd s u evRecordLost 0 false (src.zeroExtend 64) (q.zeroExtend 64) 0 0

/-- A COMPLETION for this module: the record of the forwarded command that its TAG names; without one it is late. -/
def takeCompletion (p : Nat) (s : State) (k : Packet) : State :=
  let b : BitVec 256 := bytesToBv 256 k.data
  match s.cmds.find? (fun c => c.phase == .forwarded && c.forwardTag == some k.tag.toNat
      && c.forwardId == k.src) with
  | none => bumpPort s p cntLate
  | some c =>
    let s := if bit b 192 then memberErrSeq s k.src c.uid (field b 128 32) else s
    modCmd s c.uid (fun c => { c with
      status := Status.ofCode (fieldN b 32 16), mode := field b 48 8, steps := field b 160 32, tick := field b 64 40
      worked := fieldN b 32 16 == Status.deadlineMissed.code && Config.memberWorked b
      phase := .finished, forwardTag := none })

/-- COMPLETION. -/
def execCompletion (p : PortIx) (s : State) : Host.Outcome State Fault Refusal :=
  .next (packetRow s p.val (isMsg 2) (takeCompletion p.val))

/-! ### Register accesses of other modules (R290, R308, R309, R475) -/

/-- A CONFIG_RD for this module: 8 bytes of BAR0 as PF software reads them; a member's anchor may read at any stage. -/
def takeConfigRd (s : State) (k : Packet) : State :=
  let s := heardAnchor s k
  let (v, s) := registerRead s 0 (packetAddr k) 8
  sendRsp s k .ok (bvToBytes 8 v ++ List.replicate 8 0)

/-- CONFIG_RD. -/
def execConfigRd (p : PortIx) (s : State) : Host.Outcome State Fault Refusal :=
  .next (packetRow s p.val (isMsg 3) takeConfigRd)

/-- A CONFIG_WR for this module: a member takes it from its anchor only. One that the member ignores is answered OK. -/
def takeConfigWr (s : State) (k : Packet) : State :=
  let s := heardAnchor s k
  if !fromAnchor s k then sendRsp s k .accessDenied []
  else sendRsp (registerWrite s .anchor (packetAddr k) 8 (bytesToBv 64 (k.data.take 8))) k .ok []

/-- CONFIG_WR. -/
def execConfigWr (p : PortIx) (s : State) : Host.Outcome State Fault Refusal :=
  .next (packetRow s p.val (isMsg 4) takeConfigWr)

/-! ### Records and timeline messages of other modules (R417, R436) -/

/-- A record that a member made for a forwarded command gets the ring and function of that command (R427; log entry 23). -/
def placeRecord (s : State) (src : BitVec 12) (r : ErrRec) : ErrRec :=
  { r with cmd := r.cmd.map (fun x =>
      match s.cmds.find? (fun c => c.module != 0 && c.forwardId == src
          && { recCmdOf s c with ring := x.ring, function := x.function } == x) with
      | some c => recCmdOf s c
      | none => x) }

/-- What is remembered of a member's earlier records; one whose SEQ is not before a new record's came before a reset of the
member (R433, R437). -/
def seqsBefore (m : List (BitVec 12 × W32 × W32)) (src : BitVec 12) (q : W32) : List (BitVec 12 × W32 × W32) :=
  m.filter (fun x => x.1 != src || seqBefore x.2.1 q)

/-- An ERROR for this module: the anchor treats the record as one that it has just created, under its own SEQ. The event log takes
no copy of a SHUTDOWN record (R444). -/
def takeError (s : State) (k : Packet) : State :=
  if isMember s then s
  else
    let r := placeRecord s k.src (decodeRec (bytesToBv 512 k.data))
    let old := seqsBefore s.zw.memberSeqs k.src r.seq
    let s := createRecord s r (!(r.source == evShutdown.source && r.code == evShutdown.code))
    { s with zw := { s.zw with
      memberSeqs := old ++ (if r.cmd.isSome then [(k.src, r.seq, s.err.nextSeq - 1)] else []) } }

/-- ERROR. -/
def execError (p : PortIx) (s : State) : Host.Outcome State Fault Refusal :=
  .next (packetRow s p.val (isMsg 5) takeError)

/-- TIME. -/
def execTime (p : PortIx) (s : State) : Host.Outcome State Fault Refusal :=
  .next (packetRow s p.val (isMsg 6) (fun s k => timePacket s p.val k))

end Sys2Proof.Machine
end

