-- ==== Sys2Proof/Machine/Bar4.lean ====
section
/-!
DEFINITION. The host's view of HBM through BAR4, the size of BAR4, and errors of the PCIe port (R312, R360 to R362, R401,
R479).
-/
namespace Sys2Proof.Machine

open Sys2Proof

/-- Why BAR4 refuses an access; a fenced channel counts in HBM_OFFLINE (R362, R401). -/
inductive Bar4Stop where
  | outside | fenced (die : Nat)
  deriving DecidableEq, Repr

/-- BAR4 refuses an access to local bytes `[a, a + n)`: above the top, in the table area, on a failed die, or on a fenced
channel. -/
def bar4Refused (s : State) (a n : Nat) : Option Bar4Stop :=
  let spans := sectorSpans a n
  if decide (2 ^ 41 < a + n)
      || spans.any (fun x => aboveTopAt s (dieOfAddr x.1) (winOff x.1) (x.2.1 + x.2.2)
        || decide (winOff x.1 < tableArea s (dieOfAddr x.1)) || dieRefuses s (dieOfAddr x.1)) then some .outside
  else (spans.find? (fun x => offlineAt s (dieOfAddr x.1) (winOff x.1))).map (fun x => .fenced (dieOfAddr x.1))

/-- Logs a refused access, and counts one on a fenced channel. -/
def refuseBar4 (s : State) (off : Nat) (write : Bool) : Bar4Stop → State
  | .outside => logEvent s evBar4Refused 0 (BitVec.ofNat 64 off) (if write then 1 else 0)
  | .fenced d => logEvent (bumpHbm s d 2) evBar4Refused 0 (BitVec.ofNat 64 off) (if write then 3 else 2)

/-- An access of `n` bytes lies in BAR4 at its present size. -/
def inBar4 (s : State) (off n : Nat) : Bool := decide (off + n ≤ 2 ^ s.io.bar4Log2)

/-- BAR4_READ. Of an uncorrectable sector nothing is delivered (R250). A member's BAR4 refuses access (R312). -/
def execBar4Read (offset : BitVec 41) (n : Nat) (s : State) : Host.Outcome State Fault Refusal :=
  let a := s.hq.bar4Base.toNat + offset.toNat
  .next (if !barReachable s 0 || !inBar4 s offset.toNat n then s
    else if isMember s then answer s .completerAbort
    else
      match bar4Refused s a n with
      | some x => answer (refuseBar4 s offset.toNat false x) .completerAbort
      | none =>
        match reqRead (sectorSpans a n) s with
        | (.ok bs, t) => answer t (.bytes bs)
        | (.error _, t) => answer t .none)

/-- Writes bytes sector by sector. -/
def bar4Spans : List (Nat × Nat × Nat) → List Byte → State → State
  | [], _, s => s
  | (a, o, n) :: rest, bs, s =>
    let t := if n = 32 then (writeSector s (dieOfAddr a) (winOff a) (bytesToBv 256 (bs.take 32))).2
      else (rmwSector s none (dieOfAddr a) (winOff a) (fun x => mergeSector x o (bs.take n)) []).2
    bar4Spans rest (bs.drop n) t

/-- BAR4_WRITE: a posted write, discarded where it is refused. DEDUCED (log entry 82): before READY it is one of the writes that
R466 has ignored and logged, as BAR4_REFUSED. -/
def execBar4Write (offset : BitVec 41) (data : List Byte) (s : State) : Host.Outcome State Fault Refusal :=
  let a := s.hq.bar4Base.toNat + offset.toNat
  .next (if !barReachable s 0 || !inBar4 s offset.toNat data.length || isMember s then s
    else if !isReady s then refuseBar4 s offset.toNat true .outside
    else
      match bar4Refused s a data.length with
      | some x => refuseBar4 s offset.toNat true x
      | none => bar4Spans (sectorSpans a data.length) data (touchScratch s.nextUid (s.zw.id.toNat * 2 ^ 52 + a) data.length s))

/-- BAR4_RESIZE to 2^(30 + log2) bytes: a BASE that no longer fits becomes 0 (R361, R479). -/
def execBar4Resize (log2 : Fin 12) (s : State) : Host.Outcome State Fault Refusal :=
  .next (configRequest s (fun s =>
      let t := { s with io := { s.io with bar4Log2 := 30 + log2.val } }
      let base := s.hq.bar4Base
      if aligned (2 ^ (30 + log2.val)) base.toNat then t
      else
        logEvent { t with hq := { t.hq with bar4Base := 0 } } evBar4BaseCleared 0 (base.zeroExtend 64)
          (BitVec.ofNat 64 (2 ^ (30 + log2.val)))))

/-- PCIE_ERROR: reported through AER, with one record each, by its severity (R360). -/
def execPcieError (e : AerEvent) (s : State) : Host.Outcome State Fault Refusal :=
  .next (if barReachable s 0 then
      occur { s with io := { s.io with aer := some e } }
        (eventRec s (evAer e.uncorrectable) 0 false none e.status e.header0 e.header1 0) true
    else s)

end Sys2Proof.Machine
end

