-- ==== Sys2Proof/Machine/Dispatch.lean ====
section
/-!
DEFINITION. The dispatcher: one arm per command, each one direct call of its meaning.
-/
namespace Sys2Proof.Machine

open Sys2Proof

def exec (i : Instr) (s : State) : Host.Outcome State Fault Refusal :=
  match i with
  | .nop c => Sys2Proof.Machine.execNop c s
  | .fence c => Sys2Proof.Machine.execFence c s
  | .eventSignal c => Sys2Proof.Machine.execEventSignal c s
  | .eventWait c => Sys2Proof.Machine.execEventWait c s
  | .waitTime c => Sys2Proof.Machine.execWaitTime c s
  | .copy c hostFault => Sys2Proof.Machine.execCopy c hostFault s
  | .fill c hostFault => Sys2Proof.Machine.execFill c hostFault s
  | .matmul c => Sys2Proof.Machine.execMatmul c s
  | .matmulList c => Sys2Proof.Machine.execMatmulList c s
  | .matmulChain c => Sys2Proof.Machine.execMatmulChain c s
  | .conv c => Sys2Proof.Machine.execConv c s
  | .attend c => Sys2Proof.Machine.execAttend c s
  | .attendBwd c => Sys2Proof.Machine.execAttendBwd c s
  | .kvAppend c => Sys2Proof.Machine.execKvAppend c s
  | .kvIndex c => Sys2Proof.Machine.execKvIndex c s
  | .vecchain c => Sys2Proof.Machine.execVecchain c s
  | .reduce c => Sys2Proof.Machine.execReduce c s
  | .random c => Sys2Proof.Machine.execRandom c s
  | .sampleTokens c => Sys2Proof.Machine.execSampleTokens c s
  | .refine c ran => Sys2Proof.Machine.execRefine c ran s
  | .collective c peerFailed => Sys2Proof.Machine.execCollective c peerFailed s
  | .encode c => Sys2Proof.Machine.execEncode c s
  | .decode c => Sys2Proof.Machine.execDecode c s
  | .motion c => Sys2Proof.Machine.execMotion c s
  | .modelBind c => Sys2Proof.Machine.execModelBind c s
  | .tableLoad c => Sys2Proof.Machine.execTableLoad c s
  | .spoolLoad c => Sys2Proof.Machine.execSpoolLoad c s
  | .ringWake f page hostFault => Sys2Proof.Machine.execRingWake f page hostFault s
  | .ringPoll r hostFault => Sys2Proof.Machine.execRingPoll r hostFault s
  | .commandFetch r => Sys2Proof.Machine.execCommandFetch r s
  | .commandStart c => Sys2Proof.Machine.execCommandStart c s
  | .eventRecheck c => Sys2Proof.Machine.execEventRecheck c s
  | .commandDeadline c => Sys2Proof.Machine.execCommandDeadline c s
  | .completionPost r hostFault => Sys2Proof.Machine.execCompletionPost r hostFault s
  | .cqHeadRecheck r hostFault => Sys2Proof.Machine.execCqHeadRecheck r hostFault s
  | .irqDelayExpire r => Sys2Proof.Machine.execIrqDelayExpire r s
  | .timeWaitReached c => Sys2Proof.Machine.execTimeWaitReached c s
  | .tileGroupStart d region clusters => Sys2Proof.Machine.execTileGroupStart d region clusters s
  | .arrayPass d k p => Sys2Proof.Machine.execArrayPass d k p s
  | .spRead d k addr user flips => Sys2Proof.Machine.execSpRead d k addr user flips s
  | .spWrite d k addr data => Sys2Proof.Machine.execSpWrite d k addr data s
  | .spScrubRead d k word flips => Sys2Proof.Machine.execSpScrubRead d k word flips s
  | .spScrubEpochEnd d => Sys2Proof.Machine.execSpScrubEpochEnd d s
  | .neighbourAccess d k dir addr op => Sys2Proof.Machine.execNeighbourAccess d k dir addr op s
  | .neighbourSignal d k dir => Sys2Proof.Machine.execNeighbourSignal d k dir s
  | .healthWindowEnd d => Sys2Proof.Machine.execHealthWindowEnd d s
  | .tableSwap p table => Sys2Proof.Machine.execTableSwap p table s
  | .statLinkDecision c => Sys2Proof.Machine.execStatLinkDecision c s
  | .refineGraphCommand c => Sys2Proof.Machine.execRefineGraphCommand c s
  | .refineUpdate c => Sys2Proof.Machine.execRefineUpdate c s
  | .refineStepBoundary c => Sys2Proof.Machine.execRefineStepBoundary c s
  | .collectiveJoin c prints => Sys2Proof.Machine.execCollectiveJoin c prints s
  | .collectiveStep c peer => Sys2Proof.Machine.execCollectiveStep c peer s
  | .collectiveYield c news => Sys2Proof.Machine.execCollectiveYield c news s
  | .ringAttendStep turn => Sys2Proof.Machine.execRingAttendStep turn s
  | .encodeRelease c => Sys2Proof.Machine.execEncodeRelease c s
  | .spoolSwap => Sys2Proof.Machine.execSpoolSwap s
  | .spoolWindowChange => Sys2Proof.Machine.execSpoolWindowChange s
  | .huskWrite c => Sys2Proof.Machine.execHuskWrite c s
  | .partitionQuiesce p => Sys2Proof.Machine.execPartitionQuiesce p s
  | .drainComplete what => Sys2Proof.Machine.execDrainComplete what s
  | .hbmRead d offset c damage => Sys2Proof.Machine.execHbmRead d offset c damage s
  | .hbmWrite d offset data => Sys2Proof.Machine.execHbmWrite d offset data s
  | .hbmRmw d offset op c damage => Sys2Proof.Machine.execHbmRmw d offset op c damage s
  | .hbmSoftRepair row spare => Sys2Proof.Machine.execHbmSoftRepair row spare s
  | .hbmRefresh d stack => Sys2Proof.Machine.execHbmRefresh d stack s
  | .hbmRfm d stack => Sys2Proof.Machine.execHbmRfm d stack s
  | .hbmScrubRead d ch damage => Sys2Proof.Machine.execHbmScrubRead d ch damage s
  | .hbmScrubEpochEnd d => Sys2Proof.Machine.execHbmScrubEpochEnd d s
  | .hbmLaneRetrain d result => Sys2Proof.Machine.execHbmLaneRetrain d result s
  | .hbmTraining d stack result => Sys2Proof.Machine.execHbmTraining d stack result s
  | .hbmMaintenance d results => Sys2Proof.Machine.execHbmMaintenance d results s
  | .governorEpoch r => Sys2Proof.Machine.execGovernorEpoch r s
  | .fastLimiter => Sys2Proof.Machine.execFastLimiter s
  | .sagEnter x => Sys2Proof.Machine.execSagEnter x s
  | .sagClampLift => Sys2Proof.Machine.execSagClampLift s
  | .sagInhibitLift => Sys2Proof.Machine.execSagInhibitLift s
  | .flashHistoryWrite failedAt => Sys2Proof.Machine.execFlashHistoryWrite failedAt s
  | .orderlyShutdown x => Sys2Proof.Machine.execOrderlyShutdown x s
  | .coldReset x => Sys2Proof.Machine.execColdReset x s
  | .moduleReset => Sys2Proof.Machine.execModuleReset s
  | .pfFlr => Sys2Proof.Machine.execPfFlr s
  | .vfFlr f => Sys2Proof.Machine.execVfFlr f s
  | .vfEnable f => Sys2Proof.Machine.execVfEnable f s
  | .bootComplete firmware baseboard => Sys2Proof.Machine.execBootComplete firmware baseboard s
  | .sramRepair => Sys2Proof.Machine.execSramRepair s
  | .clusterSelfTest d failed => Sys2Proof.Machine.execClusterSelfTest d failed s
  | .functionalSelfTest d implicated passed => Sys2Proof.Machine.execFunctionalSelfTest d implicated passed s
  | .selfTestTimeout d => Sys2Proof.Machine.execSelfTestTimeout d s
  | .moduleReady => Sys2Proof.Machine.execModuleReady s
  | .dieOff d => Sys2Proof.Machine.execDieOff d s
  | .dieOn d => Sys2Proof.Machine.execDieOn d s
  | .requestedShutdown => Sys2Proof.Machine.execRequestedShutdown s
  | .retest value => Sys2Proof.Machine.execRetest value s
  | .spiEnLow => Sys2Proof.Machine.execSpiEnLow s
  | .powerExtract => Sys2Proof.Machine.execPowerExtract s
  | .powerOff => Sys2Proof.Machine.execPowerOff s
  | .powerOn => Sys2Proof.Machine.execPowerOn s
  | .setLimit w => Sys2Proof.Machine.execSetLimit w s
  | .readStatus => Sys2Proof.Machine.execReadStatus s
  | .histRead selector => Sys2Proof.Machine.execHistRead selector s
  | .tbPpsEdge second => Sys2Proof.Machine.execTbPpsEdge second s
  | .tbRefChange present => Sys2Proof.Machine.execTbRefChange present s
  | .timeRxGo length => Sys2Proof.Machine.execTimeRxGo length s
  | .timeHoldover => Sys2Proof.Machine.execTimeHoldover s
  | .ptpSyncSend p => Sys2Proof.Machine.execPtpSyncSend p s
  | .ptpAnnounceSend p => Sys2Proof.Machine.execPtpAnnounceSend p s
  | .portDetect x => Sys2Proof.Machine.execPortDetect x s
  | .portTrainDone p lanes => Sys2Proof.Machine.execPortTrainDone p lanes s
  | .neg p data => Sys2Proof.Machine.execNeg p data s
  | .portTrainLimit p => Sys2Proof.Machine.execPortTrainLimit p s
  | .portDownRetry p => Sys2Proof.Machine.execPortDownRetry p s
  | .portRetrain p => Sys2Proof.Machine.execPortRetrain p s
  | .portRetrainLimit p => Sys2Proof.Machine.execPortRetrainLimit p s
  | .codewordReceive p lane word => Sys2Proof.Machine.execCodewordReceive p lane word s
  | .flitReceive p => Sys2Proof.Machine.execFlitReceive p s
  | .packetTransmit p => Sys2Proof.Machine.execPacketTransmit p s
  | .rd p => Sys2Proof.Machine.execRd p s
  | .wr p => Sys2Proof.Machine.execWr p s
  | .wrm p => Sys2Proof.Machine.execWrm p s
  | .atomic p => Sys2Proof.Machine.execAtomic p s
  | .rsp p => Sys2Proof.Machine.execRsp p s
  | .nak p => Sys2Proof.Machine.execNak p s
  | .quarantineEnd p => Sys2Proof.Machine.execQuarantineEnd p s
  | .nakWindowEnd p => Sys2Proof.Machine.execNakWindowEnd p s
  | .requestTimeout d tag => Sys2Proof.Machine.execRequestTimeout d tag s
  | .desc p => Sys2Proof.Machine.execDesc p s
  | .descTimeout c => Sys2Proof.Machine.execDescTimeout c s
  | .completion p => Sys2Proof.Machine.execCompletion p s
  | .configRd p => Sys2Proof.Machine.execConfigRd p s
  | .configWr p => Sys2Proof.Machine.execConfigWr p s
  | .error p => Sys2Proof.Machine.execError p s
  | .time p => Sys2Proof.Machine.execTime p s
  | .memberProbe index => Sys2Proof.Machine.execMemberProbe index s
  | .memberProbeTimeout index => Sys2Proof.Machine.execMemberProbeTimeout index s
  | .quietPeriodEnd index => Sys2Proof.Machine.execQuietPeriodEnd index s
  | .anchorSilence => Sys2Proof.Machine.execAnchorSilence s
  | .remoteConfigGo value => Sys2Proof.Machine.execRemoteConfigGo value s
  | .remoteConfigTimeout => Sys2Proof.Machine.execRemoteConfigTimeout s
  | .bar4Read offset bytes => Sys2Proof.Machine.execBar4Read offset bytes s
  | .bar4Write offset data => Sys2Proof.Machine.execBar4Write offset data s
  | .bar4Resize log2 => Sys2Proof.Machine.execBar4Resize log2 s
  | .pcieError e => Sys2Proof.Machine.execPcieError e s
  | .registerWrite f offset size value => Sys2Proof.Machine.execRegisterWrite f offset size value s
  | .registerLowRead f offset size => Sys2Proof.Machine.execRegisterLowRead f offset size s
  | .stageSelect sel => Sys2Proof.Machine.execStageSelect sel s
  | .ringConfigCommit f => Sys2Proof.Machine.execRingConfigCommit f s
  | .ringEnable r => Sys2Proof.Machine.execRingEnable r s
  | .ringDisable r => Sys2Proof.Machine.execRingDisable r s
  | .zwWinCommit => Sys2Proof.Machine.execZwWinCommit s
  | .ringGroupCommit => Sys2Proof.Machine.execRingGroupCommit s
  | .partModeWrite mode => Sys2Proof.Machine.execPartModeWrite mode s
  | .partitionConfig p value => Sys2Proof.Machine.execPartitionConfig p value s
  | .partitionHold p => Sys2Proof.Machine.execPartitionHold p s
  | .partitionUnhold p => Sys2Proof.Machine.execPartitionUnhold p s
  | .partitionEvict p => Sys2Proof.Machine.execPartitionEvict p s
  | .suspend ctx => Sys2Proof.Machine.execSuspend ctx s
  | .release ctx => Sys2Proof.Machine.execRelease ctx s
  | .evict ctx => Sys2Proof.Machine.execEvict ctx s
  | .partKeyWrite p key => Sys2Proof.Machine.execPartKeyWrite p key s
  | .moduleIdWrite id anchor byAnchor => Sys2Proof.Machine.execModuleIdWrite id anchor byAnchor s
  | .portDisable p => Sys2Proof.Machine.execPortDisable p s
  | .portEnable p => Sys2Proof.Machine.execPortEnable p s
  | .codecDisable d => Sys2Proof.Machine.execCodecDisable d s
  | .codecEnable d => Sys2Proof.Machine.execCodecEnable d s
  | .hbmFence d ch => Sys2Proof.Machine.execHbmFence d ch s
  | .hbmMaint d => Sys2Proof.Machine.execHbmMaint d s
  | .hbmInjArm d value => Sys2Proof.Machine.execHbmInjArm d value s
  | .dieCluInjArm d value => Sys2Proof.Machine.execDieCluInjArm d value s
  | .clearLog => Sys2Proof.Machine.execClearLog s
  | .errRingEnable => Sys2Proof.Machine.execErrRingEnable s
  | .errRingDisable => Sys2Proof.Machine.execErrRingDisable s
  | .errHeadReread => Sys2Proof.Machine.execErrHeadReread s
  | .coalWindowEnd => Sys2Proof.Machine.execCoalWindowEnd s
  | .errIrq => Sys2Proof.Machine.execErrIrq s
  | .tileGroupEnd g => Sys2Proof.Machine.execTileGroupEnd g s
  | .tagReuseTimeout d tag => Sys2Proof.Machine.execTagReuseTimeout d tag s
  | .managementWatchdog d => Sys2Proof.Machine.execManagementWatchdog d s
  | .ppsOkLost => Sys2Proof.Machine.execPpsOkLost s
  | .spiEnRelease => Sys2Proof.Machine.execSpiEnRelease s
  | .perstRelease => Sys2Proof.Machine.execPerstRelease s

end Sys2Proof.Machine
end

