-- ==== Sys2Proof/Machine/Step.lean ====
section
/-!
DEFINITION. One step of the block: the front command of the queue, or one tick of the timeline when the queue is empty.
-/
namespace Sys2Proof.Machine

open Sys2Proof

/-- The block idles: the timeline, which nothing stops, advances, and what only time brings to its end goes on: rails that come up,
dies that go OFF, a register access that waits for a tag, and a member's held COMPLETIONs (R9, R419, R437, R461, R478; log
entry 2). -/
def idle (s : State) : State := memberPost (retryRcfg (settlePower (tick s)))

/-- Takes the command at the front of the queue and performs it on the module with the queue's rest. On an empty queue the
block idles. -/
def step (s : State) : Host.Outcome State Fault Refusal :=
  match s.pending with
  | [] => .next (idle s)
  | c :: rest => exec c { s with pending := rest }

/-- The state with the command that the word spells put at the front of its queue; unchanged where it spells none. -/
def State.withFetchWord (s : State) (nbits w : Nat) : State :=
  match decodeTableWord nbits w with
  | some c => { s with pending := c :: s.pending }
  | none => s

end Sys2Proof.Machine
end

