-- ==== Sys2Proof/Certificates/Slice0/Obligations.lean ====
section
/-!
DEFINITION. The statements for the provers. `Sys2Proof.Claims` holds the vocabulary they share; each obligation is one
`def Obligations.<Name> : Prop`.
-/
namespace Sys2Proof.Claims

open Sys2Proof Sys2Proof.Machine

/-! ### Vocabulary: commands -/

/-- Command number `u` is `c`, of opcode `op`. It has started, no pre-emption or abort waits for it, and no tile group of it
runs (R379, R406). -/
def Runs (s : State) (u : Uid) (op : Nat) (c : Cmd) : Prop :=
  findCmd s u = some c ∧ opcodeOf c.desc = op ∧ c.phase = .started
    ∧ c.suspending = false ∧ c.evicting = false ∧ c.aborting = false ∧ ∀ g ∈ s.groups, g.cmd ≠ u

/-- The same where the context lets it work: it is open, neither suspended nor closed by the spool, and for work in tile groups open
for GUARD ticks more; or the command runs on without a husk slot (R398, R399, R405, R407). -/
def RunsOpen (s : State) (u : Uid) (op : Nat) (c : Cmd) : Prop :=
  Runs s u op c ∧ (startsGroups s c = true ∨ tileOp op = false ∧ ctxOpen s c = true)

/-- A codec command that has started, is the first of its engine, and has no tile group (R340). -/
def RunsCodec (s : State) (u : Uid) (op : Nat) (c : Cmd) : Prop :=
  findCmd s u = some c ∧ opcodeOf c.desc = op ∧ c.phase = .started ∧ codecTurn s c = true ∧ ∀ g ∈ s.groups, g.cmd ≠ u

/-- The command's remote data have been used. -/
def forget (s : State) (u : Uid) : State := modCmd s u (fun c => { c with remoteData := [] })

/-- The state in which a command has done everything but post its completion record: TICK is that of its last write, or now where
it wrote nothing (R377), and MODE of a REFINE tells of the ballast (R239). -/
def finishedNow (s : State) (u : Uid) (st : Status) : State :=
  modCmd s u (fun c =>
    { c with status := st, worked := true, unjudged := false, tick := ((findCmd s u).bind Cmd.lastWrite).getD s.time.now
             mode := (if opcodeOf c.desc = 0x30 then refineMode c else c.mode), phase := .finished, remoteData := []
             written := [], ahead := [] })

/-- Nothing holds the end of a command back: no signal, no deadline, no count to report, no retry, no answer outstanding, no
reference slot to set, no release tick, and the module is its own anchor. -/
def EndsQuietly (s : State) (c : Cmd) : Prop :=
  signalEntries c.desc c.sync = [] ∧ deadlineOf c.desc = 0 ∧ c.nans = 0 ∧ c.invalid = 0 ∧ c.retried = false
    ∧ outstanding s c.uid = false ∧ c.pool = [] ∧ (opcodeOf c.desc ≠ 0x40 ∨ releaseTick c.desc = 0) ∧ isMember s = false

/-- A member that no step has moved and no yield waits for. -/
def Fresh (m : Cmd) : Prop := m.coll.step = 0 ∧ m.coll.sent = [] ∧ m.coll.yieldAt = none ∧ m.coll.paused = none

/-- A joined or waiting member of a group, started, of opcode `op`. -/
def Member (s : State) (u : Uid) (op : Nat) (c : Cmd) : Prop :=
  findCmd s u = some c ∧ opcodeOf c.desc = op ∧ c.phase = .started ∧ groupCmd c = true

/-- All units of an opcode's work that are still to do run to their end from `s` and leave `t`. -/
def UnitsRun (s : State) (c : Cmd) (x : OpSem) (fault : Bool) (t : State) : Prop :=
  opSem (opcodeOf c.desc) = some x ∧
    ((do
        let n ← x.units (ctxOf s c)
        runUnits x fault (ctxOf s c) (List.range n) : CmdM Unit).run.run s) = (.ok (), t)

/-- In `t` the command is complete but for its end: it is not a DEFERRED producer, and no pre-emption has reached it
(R167). -/
def Complete (t : State) (u : Uid) (c : Cmd) : Prop :=
  findCmd t u = some c ∧ isDeferred c = false ∧ c.aborting = false ∧ c.evicting = false

/-! ### Vocabulary: rings and set-up -/

/-- A write to page `page` of function `f` wakes ring `r` (R363, R367). -/
def WakeNames (s : State) (f : FuncIx) (page : RingIx) (r : Nat) : Prop :=
  (f.val = 0 ∧ r = page.val)
    ∨ (f.val ≠ 0 ∧ (vfOf s f.val).enabled = true ∧ slotRing s f.val page.val = some r)

/-- The index word `i` places after the ring's SQ_HEAD. -/
def headAhead (s : State) (r i : Nat) : BitVec 17 := (ixNext (ringOf s r).sqSize)^[i] (ringOf s r).sqHead

/-- The slot there, as host memory holds it. -/
def slotAhead (s : State) (r i : Nat) : BitVec 1024 :=
  bytesToBv 1024 (hostRead s ((ringOf s r).sqBase + 128 * fieldN (headAhead s r i) 0 16) 128)

/-- Set-up writes of the module's own port are performed: the port is up, and the module is READY and its own anchor (R466,
R475). -/
def SetupOpen (s : State) : Prop := hostUp s = true ∧ s.pwr.stage = 5 ∧ isMember s = false

/-! ### Vocabulary: clusters and HBM -/

/-- No injection is armed for a cluster (R105). -/
def NoClusterInjection (s : State) (d k : Nat) : Prop :=
  bit (dieOf s d).cluInj 31 = false ∨ fieldN (dieOf s d).cluInj 0 13 ≠ k

/-- No injection is armed for a channel (R271). -/
def NoHbmInjection (s : State) (d c : Nat) : Prop :=
  bit (dieOf s d).hbmInj 31 = false ∨ fieldN (dieOf s d).hbmInj 0 6 ≠ c

/-- The timeline has reached a multiple of 2^log2 ticks at this tick, which is not the one at which the window or epoch in force
began: the tick is such a multiple, or a doubled tick or a forward step has passed one (R101, R419, R420). -/
def AtTick (s : State) (log2 : Nat) (began : Tick) : Prop := boundaryNow s log2 = true ∧ s.time.now ≠ began

/-- The input has held 44.0 V or more for `n` ticks at least. The samples below are those that the model's rows have carried
(log entry 81). -/
def HeldFor (s : State) (n : Nat) : Prop := n ≤ since s.time.now s.pwr.lowAt

/-- The sector at a window offset of a die lies below the top of memory, and nothing refuses it (R246, R263). -/
def SectorServed (s : State) (d off : Nat) : Prop := off + 32 ≤ topOf s d ∧ offlineAt s d off = false

/-- Channel of a window offset, and number of its sector there (R247). -/
def chanAt (s : State) (d off : Nat) : Nat := (interleave (liveList s d) off).1
def sectorAt (s : State) (d off : Nat) : Nat := (interleave (liveList s d) off).2 / 32

/-- The sector stored there, the degraded lane that decoding it takes as an erasure, and the state with its row open. -/
def storedAt (s : State) (d off : Nat) : Sector := sectorOf s d (chanAt s d off) (sectorAt s d off)
def laneAt (s : State) (d off : Nat) : Option (Fin 36) := degLane (chanOf s d (chanAt s d off)) (sectorAt s d off)
def openedAt (s : State) (d off : Nat) : State := activate s d (chanAt s d off) (sectorAt s d off)

/-- An operation on records of no command changes nothing but the error log, the history's queue, the error ring in host
memory, messages to the host, the alert pin, and, at a member, the queues of its ports. -/
def LogOnly (s t : State) : Prop :=
  t.pending = s.pending ∧ t.hbm = s.hbm ∧ t.cmds = s.cmds ∧ t.kids = s.kids ∧ t.groups = s.groups ∧ t.dies = s.dies
    ∧ t.clusters = s.clusters ∧ t.chans = s.chans ∧ t.codecs = s.codecs ∧ t.part = s.part ∧ t.spool = s.spool
    ∧ t.time = s.time ∧ t.glb = s.glb ∧ t.hq.rings = s.hq.rings ∧ t.flash.mapOuts = s.flash.mapOuts
    ∧ t.flash.repairs = s.flash.repairs ∧ t.flash.log = s.flash.log ∧ t.zw.requests = s.zw.requests
    ∧ { t.pwr with alertN := s.pwr.alertN } = s.pwr ∧ t.io.answer = s.io.answer
    ∧ (isMember s = false → t.zw = s.zw)

/-- The module is down: it no longer runs, its last cause is `cause`, it holds no command, and its HBM is lost (R450). -/
def Down (t : State) (cause : Nat) : Prop :=
  t.pwr.running = false ∧ t.pwr.lastCause = BitVec.ofNat 8 cause ∧ t.cmds = [] ∧ t.kids = [] ∧ t.groups = [] ∧ t.hbm = []

/-- Every die has passed its functional self-test, has failed, or is OFF (R462). -/
def Settled (s : State) : Prop :=
  ∀ d < 8, ((pwrDieOf s d).off = true ∧ (pwrDieOf s d).state = 0) ∨ (pwrDieOf s d).state = 1 ∨ dieFailed s d = true

/-- The exact value of a finite number. -/
def exactVal : Val → ℚ
  | .fin neg m e => (if neg then -(m : ℚ) else m) * (2 : ℚ) ^ e
  | _ => 0

end Sys2Proof.Claims

open Sys2Proof Sys2Proof.Machine Sys2Proof.Claims

/-! ### Commands that wait -/

/-- NOP, FENCE, EVENT_SIGNAL, EVENT_WAIT and WAIT_TIME complete when what each waits for has come, and a FENCE behind a
failure and an EVENT_WAIT on a failed counter complete with DEPENDENCY_FAILED (R380, R382, R383). -/
def Obligations.WaitingCommandsComplete : Prop :=
  (∀ s u c, Runs s u 0x01 c → exec (.nop u) s = .next (doneCmd s u .ok))
  ∧ (∀ s u c, Runs s u 0x02 c → (∀ x ∈ earlierOf s c, x.phase = .finished) → fenceFailed s c = false →
      exec (.fence u) s = .next (doneCmd s u .ok))
  ∧ (∀ s u c, Runs s u 0x02 c → (∀ x ∈ earlierOf s c, x.phase = .finished) → fenceFailed s c = true →
      exec (.fence u) s = .next (failCmd s u .dependencyFailed))
  ∧ (∀ s u c, Runs s u 0x03 c → (∀ x ∈ earlierOf s c, x.phase = .finished) →
      exec (.eventSignal u) s = .next (doneCmd s u .ok))
  ∧ (∀ s u c t, Runs s u 0x04 c → (readWaits (ctxOf s c) (ownEntries c.desc)).run.run s = (.ok .met, t) →
      exec (.eventWait u) s = .next (doneCmd (forget t u) u .ok))
  ∧ (∀ s u c t, Runs s u 0x04 c → (readWaits (ctxOf s c) (ownEntries c.desc)).run.run s = (.ok .failed, t) →
      exec (.eventWait u) s = .next (failCmd (forget t u) u .dependencyFailed))
  ∧ (∀ s u c, Runs s u 0x05 c → reached s.time.now (waitTick c.desc) = true →
      exec (.waitTime u) s = .next (doneCmd s u .ok))

/-- What time and counters do to commands that wait: a started WAIT_TIME ends at its tick, a waiting command whose counters
are met is issued, and one whose deadline passes first misses it (R379, R380, R381, R383). -/
def Obligations.WaitsEnd : Prop :=
  (∀ s u c, findCmd s u = some c → c.phase = .started → opcodeOf c.desc = 0x05 →
      reached s.time.now (waitTick c.desc) = true → exec (.timeWaitReached u) s = .next (doneCmd s u .ok))
  ∧ (∀ s u c t, findCmd s u = some c → c.phase = .waiting →
      (readWaits (ctxOf s c) (headerWaits c.desc c.sync)).run.run s = (.ok .met, t) →
      exec (.eventRecheck u) s = .next (modCmd (forget t u) u (fun c => { c with phase := .issued })))
  ∧ (∀ s u c t, findCmd s u = some c → c.phase = .waiting →
      (readWaits (ctxOf s c) (headerWaits c.desc c.sync)).run.run s = (.ok .failed, t) →
      exec (.eventRecheck u) s = .next (failCmd (forget t u) u .dependencyFailed))
  ∧ (∀ s u c, findCmd s u = some c → c.phase = .waiting → deadlineOf c.desc ≠ 0 →
      reached s.time.now (deadlineOf c.desc) = true →
      exec (.commandDeadline u) s = .next (missDeadline s u false))

/-- The end of a command that nothing holds back: its status, its tick and its phase are set, its work counts as performed,
and nothing else of the module changes (R374, R377, R381). -/
def Obligations.QuietEndFinishes : Prop :=
  ∀ s u c st, findCmd s u = some c → EndsQuietly s c → doneCmd s u st = finishedNow s u st

/-! ### Commands that work by units -/

/-- COPY, FILL and the commands of the matrix, vector, random and codec units: when their remaining units run to the end, the
command ends with its status (R374, R411). In the last GUARD ticks of its context a command that works in tile groups does not
begin (R399). -/
def Obligations.UnitCommandsComplete : Prop :=
  ∀ s u c x t c', c.unitsDone.contains workDone = false → Complete t u c' →
    (∀ f, RunsOpen s u 0x08 c → UnitsRun s c x f t → exec (.copy u f) s = .next (doneCmd t u c'.status))
    ∧ (∀ f, RunsOpen s u 0x09 c → UnitsRun s c x f t → exec (.fill u f) s = .next (doneCmd t u c'.status))
    ∧ (UnitsRun s c x false t →
        (RunsOpen s u 0x10 c → exec (.matmul u) s = .next (doneCmd t u c'.status))
        ∧ (RunsOpen s u 0x11 c → exec (.matmulList u) s = .next (doneCmd t u c'.status))
        ∧ (RunsOpen s u 0x12 c → exec (.matmulChain u) s = .next (doneCmd t u c'.status))
        ∧ (RunsOpen s u 0x14 c → exec (.conv u) s = .next (doneCmd t u c'.status))
        ∧ (RunsOpen s u 0x18 c → groupCmd c = false → exec (.attend u) s = .next (doneCmd t u c'.status))
        ∧ (RunsOpen s u 0x19 c → exec (.attendBwd u) s = .next (doneCmd t u c'.status))
        ∧ (RunsOpen s u 0x1A c → exec (.kvAppend u) s = .next (doneCmd t u c'.status))
        ∧ (RunsOpen s u 0x20 c → exec (.vecchain u) s = .next (doneCmd t u c'.status))
        ∧ (RunsOpen s u 0x21 c → exec (.reduce u) s = .next (doneCmd t u c'.status))
        ∧ (RunsOpen s u 0x24 c → exec (.random u) s = .next (doneCmd t u c'.status))
        ∧ (RunsOpen s u 0x28 c → exec (.sampleTokens u) s = .next (doneCmd t u c'.status))
        ∧ (RunsCodec s u 0x40 c → exec (.encode u) s = .next (doneCmd t u c'.status))
        ∧ (RunsCodec s u 0x41 c → exec (.decode u) s = .next (doneCmd t u c'.status))
        ∧ (RunsCodec s u 0x42 c → exec (.motion u) s = .next (doneCmd t u c'.status)))
    ∧ (inGuard s c = true → c.runOn = false → ctxOpen s c = true →
        (Runs s u 0x10 c → exec (.matmul u) s = .next s) ∧ (Runs s u 0x11 c → exec (.matmulList u) s = .next s)
        ∧ (Runs s u 0x12 c → exec (.matmulChain u) s = .next s) ∧ (Runs s u 0x14 c → exec (.conv u) s = .next s)
        ∧ (Runs s u 0x18 c → groupCmd c = false → exec (.attend u) s = .next s)
        ∧ (Runs s u 0x19 c → exec (.attendBwd u) s = .next s) ∧ (Runs s u 0x1A c → exec (.kvAppend u) s = .next s)
        ∧ (Runs s u 0x20 c → exec (.vecchain u) s = .next s) ∧ (Runs s u 0x21 c → exec (.reduce u) s = .next s)
        ∧ (Runs s u 0x24 c → exec (.random u) s = .next s) ∧ (Runs s u 0x28 c → exec (.sampleTokens u) s = .next s))

/-- FILL and COPY over host memory: a FILL of at most 1 MiB repeats its 8-byte pattern from DST on, and a COPY of at most
1 MiB between host ranges writes at DST the bytes that stood at SRC; no other byte of host memory and nothing of HBM
changes, and the command's last write is that of this tick (R377, R384). -/
def Obligations.HostMoversWriteTheirRange : Prop :=
  (∀ s u c, RunsOpen s u 0x09 c → c.unitsDone = [] → bit c.desc 296 = true → 1 ≤ moveLength c.desc →
      moveLength c.desc ≤ 1048576 →
      exec (.fill u false) s = .next (doneCmd
        (modCmd (hostWrite s (fieldN c.desc 128 64) ((List.range (moveLength c.desc)).map (fun i =>
          BitVec.ofNat 8 (fieldN c.desc 192 64 / 2 ^ (8 * (i % 8))))))
          u (fun c => { c with lastWrite := some s.time.now, unitsDone := c.unitsDone ++ [0] })) u c.status))
  ∧ (∀ s u c, RunsOpen s u 0x08 c → c.unitsDone = [] → bit c.desc 296 = true → bit c.desc 297 = true →
      1 ≤ moveLength c.desc → moveLength c.desc ≤ 1048576 →
      exec (.copy u false) s = .next (doneCmd
        (modCmd (hostWrite s (fieldN c.desc 128 64) (hostRead s (fieldN c.desc 192 64) (moveLength c.desc))) u
          (fun c => { c with lastWrite := some s.time.now, unitsDone := c.unitsDone ++ [0] })) u c.status))
  ∧ (∀ s a bs b, smGet 0 (hostWrite s a bs).host b =
      if a ≤ b ∧ b < a + bs.length then bs.getD (b - a) 0 else smGet 0 s.host b)
  ∧ (∀ s a bs, (hostWrite s a bs).hbm = s.hbm)

/-! ### Tables, models, the spool -/

/-- TABLE_LOAD writes the free shadow bank and completes at the swap; KV_INDEX writes it, and completes once its image is
current; a swap, at a tile boundary on every die of the partition, makes the loaded bank current with the next generation, and while
a tile group runs there it does not happen (R135, R136, R137, R210). -/
def Obligations.TableCommandsComplete : Prop :=
  (∀ s u c img t, Runs s u 0x50 c → c.unitsDone = [] → shadowFree s (cmdPart s c) (loadTableId c.desc) = true →
      (readImage (ctxOf s c) (loadTableId c.desc) (fieldN c.desc 192 64) (fieldN c.desc 256 32) 24).run.run s
        = (.ok (img, []), t) →
      exec (.tableLoad u) s = .next
        (modCmd (writeShadow t (cmdPart s c) (loadTableId c.desc) u 0 img) u (fun c => { c with unitsDone := [0] })))
  ∧ (∀ s u c img t, Runs s u 0x1B c → c.unitsDone = [] → shadowFree s (cmdPart s c) (indexTableId c.desc) = true →
      (indexedImage (ctxOf s c)).run.run s = (.ok img, t) →
      exec (.kvIndex u) s = .next
        (modCmd (writeShadow t (cmdPart s c) (indexTableId c.desc) u
          (tableOf s (cmdPart s c) (indexTableId c.desc)).current.tag img) u (fun c => { c with unitsDone := [0] })))
  ∧ (∀ s u c, Runs s u 0x1B c → c.unitsDone ≠ [] →
      (tableOf s (cmdPart s c) (indexTableId c.desc)).pending = false →
      (tableOf s (cmdPart s c) (indexTableId c.desc)).loader = some u →
      shadowHeld s (cmdPart s c) (indexTableId c.desc) = false →
      exec (.kvIndex u) s = .next (doneCmd (modTable s (cmdPart s c) (indexTableId c.desc) (fun tb =>
        { tb with other := ⟨0, tb.current.tag, tb.current.image⟩, loader := none })) u .ok))
  ∧ (∀ s (p : PartIx) (n : Fin 64) u c, (tableOf s p.val n.val).loader = some u → findCmd s u = some c →
      c.phase = .started → (tableOf s p.val n.val).pending = true → opcodeOf c.desc = 0x50 → earlierStarted s c = true →
      (∀ g ∈ s.groups, g.running = true → hasDie (partOf s p.val).dies g.die = false) →
      exec (.tableSwap p n) s = .next (doneCmd (modTable s p.val n.val (fun tb =>
        { tb with current := { tb.other with gen := nextGen tb.current.gen }, other := tb.current, pending := false
                  loader := none })) u .ok))
  ∧ (∀ s (p : PartIx) (n : Fin 64) u c, (tableOf s p.val n.val).loader = some u → findCmd s u = some c →
      c.phase = .started → (tableOf s p.val n.val).pending = true → opcodeOf c.desc = 0x1B →
      (∀ g ∈ s.groups, g.running = true → hasDie (partOf s p.val).dies g.die = false) →
      exec (.tableSwap p n) s = .next (modTable s p.val n.val (fun tb =>
        { tb with current := { tb.other with gen := nextGen tb.current.gen }, other := tb.current, pending := false })))
  ∧ (∀ s (p : PartIx) (n : Fin 64) g, g ∈ s.groups → g.running = true → hasDie (partOf s p.val).dies g.die = true →
      exec (.tableSwap p n) s = .next s)

/-- A command that does its work in one go ends with it: MODEL_BIND, which first installs its record and then makes the references
of the slot's record current, a REFINE whose step leaves nothing to do, and a COLLECTIVE whose members all stand before their first
step and whose values are known; one whose group has members elsewhere, has begun, or is to yield goes on by steps (R237, R319, R328,
R331, R403). -/
def Obligations.WholeCommandsComplete : Prop :=
  (∀ s u c rec off s1 t c', Runs s u 0x48 c → bindInstall c.desc = true → c.unitsDone = [] →
      (bindRecord (ctxOf s c)).run.run s = (.ok (rec, off), s1) → recordChecks rec off = [] →
      t = modCmd (setModel s1 (cmdPart s c) (fieldN c.desc 128 8) rec) u (fun x => { x with unitsDone := [0] }) →
      Runs t u 0x48 c' → c'.desc = c.desc → exec (.modelBind u) s = exec (.modelBind u) t)
  ∧ (∀ s u c rec s1 t, Runs s u 0x48 c → bindInstall c.desc = false ∨ c.unitsDone ≠ [] →
      modelOf s (cmdPart s c) (fieldN c.desc 128 8) = rec → rec ≠ [] →
      recordChecks rec (if bindInstall c.desc then 24 else 16) = [] →
      (reloadRefs (ctxOf s c) (if bindInstall c.desc then 24 else 16) (tableRefs rec)).run.run s = (.ok (), s1) →
      (writeBinding (ctxOf s c) (fieldN c.desc 128 8)).run.run s1 = (.ok (), t) →
      exec (.modelBind u) s = .next (doneCmd t u .ok))
  ∧ (∀ s u c ran, RunsOpen s u 0x30 c → exec (.refine u ran) s = .next (refineAll refineFuel s u ran))
  ∧ (∀ s u c t c' ran, RunsOpen s u 0x30 c → c.refine.phase ≠ .ballastBoundary →
      (c.refine.phase = .boundary → c.refine.boundary = 0) →
      refineStarts s c = true →
      (refineStepM (ctxOf s c) c).run.run s = (.ok .onward, t) → findCmd t u = some c' → c'.refine.phase = .done →
      exec (.refine u ran) s = .next (doneRefine t c'))
  ∧ (∀ s u c p vals, Runs s u 0x38 c → peekPlan s c = some p → c.coll.joined = true →
      (∀ m ∈ localMembers s c, Fresh m) → allLocal s c = true →
      gatherValues s c p = some vals →
      exec (.collective u false) s = .next ((localMembers s c).foldl (finishMember vals) s))
  ∧ (∀ s u c p, Runs s u 0x38 c → peekPlan s c = some p → c.coll.joined = true →
      allLocal s c = false ∨ (∃ m ∈ localMembers s c, ¬ Fresh m) →
      exec (.collective u false) s =
        .next (stepRounds p.n ((localMembers s c).map Cmd.uid) (2 * p.steps + 2) s))

/-- SPOOL_LOAD writes the shadow spool; at the first cycle start after that tick, or at the next tick before the first spool, the swap
makes it current under the next generation and the load completes, and not before. The running ticks of a REFINE's step up to the swap
are counted by the spool that it ends (R232, R396, R400). -/
def Obligations.SpoolCommandsComplete : Prop :=
  (∀ s u c bs t, Runs s u 0x58 c → s.spool.loader = none →
      (readMem (ctxOf s c) tcBulk (fieldN c.desc 128 64) 2112).run.run s = (.ok bs, t) → spoolChecks bs 16 = [] →
      exec (.spoolLoad u) s =
        .next { t with spool := { t.spool with shadow := some bs, loader := some u, writtenAt := t.time.now } })
  ∧ (∀ s bs u, s.spool.shadow = some bs → s.spool.loader = some u → s.spool.gen = 0 → s.time.now ≠ s.spool.writtenAt →
      exec .spoolSwap s =
        .next (doneCmd { foldTicks s with spool := ⟨bs, nextGen s.spool.gen, none, none, s.spool.writtenAt⟩ } u .ok))
  ∧ (∀ s bs u, s.spool.shadow = some bs → s.spool.loader = some u → s.spool.gen ≠ 0 →
      (parseSpool s.spool.current).offset s.time.now.toNat < elapsed s.time.now s.time.cameFrom →
      (parseSpool s.spool.current).offset s.time.now.toNat < elapsed s.time.now s.spool.writtenAt →
      exec .spoolSwap s =
        .next (doneCmd { foldTicks s with spool := ⟨bs, nextGen s.spool.gen, none, none, s.spool.writtenAt⟩ } u .ok))
  ∧ (∀ s, s.time.now = s.spool.writtenAt → exec .spoolSwap s = .next s)

/-! ### Steps of long commands -/

/-- REFINE_STEP_BOUNDARY, REFINE_GRAPH_COMMAND and REFINE_UPDATE take one step of a REFINE that may go on, outside the last GUARD
ticks of its context where the step starts tile groups, and a step that leaves nothing to do ends it (R227, R229, R230, R237,
R399). -/
def Obligations.RefineStepsComplete : Prop :=
  ∀ s u c c' t, findCmd s u = some c → opcodeOf c.desc = 0x30 → goesOn c = true → refineStarts s c = true →
    (refineStepM (ctxOf s c) c).run.run s = (.ok .onward, t) → findCmd t u = some c' →
    (c'.refine.phase ≠ .done →
      (phaseKind c.refine.phase = .boundary → exec (.refineStepBoundary u) s = .next t)
      ∧ (phaseKind c.refine.phase = .graph → exec (.refineGraphCommand u) s = .next t)
      ∧ (phaseKind c.refine.phase = .update → exec (.refineUpdate u) s = .next t))
    ∧ (c'.refine.phase = .done →
      (phaseKind c.refine.phase = .boundary → exec (.refineStepBoundary u) s = .next (doneRefine t c'))
      ∧ (phaseKind c.refine.phase = .graph → exec (.refineGraphCommand u) s = .next (doneRefine t c')))

/-- Members of a group: they join when every fingerprint is known and all agree; a member's step with a peer, and a ring member's next
step, goes on or ends its command. News of a failure elsewhere ends a member that has not joined at once, and those that have joined
at the next boundary common to them, which a member that is to end with its group goes on to. A yield is agreed one step above the
largest step of any member, by notices in the scratch headers of members elsewhere, which such a member serves (R214, R215, R221, R322,
R328, R331, R333). -/
def Obligations.GroupRowsComplete : Prop :=
  (∀ s u c prints ms f, findCmd s u = some c → c.phase = .started → groupCmd c = true → c.coll.joined = false →
      c.aborting = false → c.suspending = false → c.evicting = false → groupView s c = some (ms, f) →
      areaInUse s c = false → groupPrints s c ms prints = List.replicate ms.length (some f) →
      (∀ m ∈ ms.filterMap (joinCmd s c), (groupView s m).map Prod.snd = some f ∧ heldMatches m f = true) →
      exec (.collectiveJoin u prints) s = .next ((ms.filterMap (joinCmd s c)).foldl
        (joinOne (((ms.filterMap (joinCmd s c)).map Cmd.uid).foldl min c.uid + 1)) s))
  ∧ (∀ s u c peer released t done, Member s u 0x38 c → c.aborting = false → stepsOn c = true →
      ((do
          let (p, b) ← collPlan (ctxOf s c) c.die
          rejectOn b
          runCollStep (ctxOf s c) p (if released then [peer] else []) [peer] : CmdM Bool).run.run s) = (.ok done, t) →
      exec (.collectiveStep u ⟨peer, false, released⟩) s = .next (if done then doneCmd t u .ok else t))
  ∧ (∀ s u c t done, Member s u 0x18 c → c.aborting = false → stepsOn c = true → ringReady s c = true →
      (∀ g ∈ s.groups, g.cmd ≠ u) → (runRingStep (ctxOf s c)).run.run s = (.ok done, t) →
      exec (.ringAttendStep ⟨u, false⟩) s = .next (if done then doneCmd t u .ok else t))
  ∧ (∀ s u c peer released t, c.aborting = false → c.coll.joined = false → t = failMember (dropGroups s u) c .aborted →
      startedMember t u = none →
      (Member s u 0x38 c → exec (.collectiveStep u ⟨peer, true, released⟩) s = .next t
        ∧ exec (.collective u true) s = .next t)
      ∧ (Member s u 0x18 c → exec (.ringAttendStep ⟨u, true⟩) s = .next t))
  ∧ (∀ s u c c' peer released t, c.aborting = false → c.coll.joined = true →
      t = (u :: otherMembers s c).foldl (endMember (nextCommon s c (otherMembers s c)) true) s →
      startedMember t u = some c' → c'.aborting = true →
      (Member s u 0x38 c → exec (.collectiveStep u ⟨peer, true, released⟩) s = .next
        (endTogether t c' (fun s c => memberStep s c (if released then [peer] else []) [peer])))
      ∧ (Member s u 0x18 c → exec (.ringAttendStep ⟨u, true⟩) s = .next (endTogether t c' ringStep)))
  ∧ (∀ s u c peer released, c.aborting = true → atAgreed c = true → groupsRunning s u = false →
      (Member s u 0x38 c →
        exec (.collectiveStep u ⟨peer, false, released⟩) s = .next (failMember (dropGroups s u) c .aborted)
        ∧ exec (.collective u false) s = .next (failMember (dropGroups s u) c .aborted))
      ∧ (Member s u 0x18 c → exec (.ringAttendStep ⟨u, false⟩) s = .next (failMember (dropGroups s u) c .aborted)))
  ∧ (∀ s u c answers agreed, Member s u 0x18 c →
      c.coll.joined = true → c.coll.yieldAt = none → c.suspending = true ∨ c.evicting = true →
      exec (.collectiveYield u ⟨answers, agreed⟩) s = .next (agreeYield s c (yieldStep s c answers)))
  ∧ (∀ s u c answers agreed t, Member s u 0x38 c → c.coll.joined = true →
      c.coll.yieldAt = none → c.suspending = true ∨ c.evicting = true →
      ((do
          let (p, _) ← collPlan (ctxOf s c) c.die
          writeNotices (ctxOf s c) p.rank 1 (remoteAreas s p)
          writeNotices (ctxOf s c) p.rank (yieldStep s c answers + 2) (remoteAreas s p) : CmdM Unit).run.run s) = (.ok (), t) →
      exec (.collectiveYield u ⟨answers, agreed⟩) s = .next (agreeYield t c (yieldStep s c answers)))
  ∧ (∀ s u c answers agreed, c.coll.joined = true →
      (c.suspending = false ∧ c.evicting = false) ∨ c.coll.yieldAt ≠ none →
      (Member s u 0x38 c → exec (.collectiveYield u ⟨answers, agreed⟩) s = .next (serveNotice s c))
      ∧ (Member s u 0x18 c → c.coll.yieldAt = none → ∀ b, agreed = some b →
        exec (.collectiveYield u ⟨answers, agreed⟩) s = .next (agreeYield s c b)))
  ∧ (∀ s c answers, (∀ x ∈ (c :: localMembers s c).map (fun m => m.coll.step) ++ answers, x < yieldStep s c answers)
      ∧ yieldStep s c answers - 1 ∈ (c :: localMembers s c).map (fun m => m.coll.step) ++ answers)

/-- What happens to commands from outside their own work: a producer is linked to the consumer that follows it, one that was found
without a consumer completes with its second pass, a held ENCODE is released at its tick, a command that waits on events is parked or
evicted at its boundary and one with a free husk slot is parked or evicted with its husk, one that no slot holds runs on or is evicted
without a husk, an aborting one fails, and a quiesced partition does what waited for it (R167, R311, R345, R391, R406, R407,
R409). -/
def Obligations.CommandTurnsComplete : Prop :=
  (∀ s u p x, findCmd s u = some p → undecided p = true → goesOn p = true → p.origin = none →
      s.cmds.find? (fun y => y.ring == p.ring && y.origin.isNone && y.sub == p.sub + 1) = some x →
      x.phase = .issued → x.module = p.module → linkable p.desc x.desc = true →
      exec (.statLinkDecision u) s = .next
        (modCmd (modCmd s x.uid (fun y => { y with link := .producer u p.desc })) u (fun y => { y with linkTo := some x.uid })))
  ∧ (∀ s u p t, findCmd s u = some p → secondDue p = true → goesOn p = true →
      (secondPass (ctxOf s p)).run.run s = (.ok (), t) →
      exec (.statLinkDecision u) s = .next (doneCmd (logCmd t u evStatTwoPass 0 false 0 0 0 0) u .ok))
  ∧ (∀ s u c, findCmd s u = some c → c.phase = .ending → c.worked = true → opcodeOf c.desc = 0x40 →
      releaseTick c.desc ≠ 0 → c.tickReached = false → reached s.time.now (releaseTick c.desc) = true →
      exec (.encodeRelease u) s = .next (advanceEnd (modCmd s u (fun x => { x with tickReached := true })) u))
  ∧ (∀ s u c, findCmd s u = some c → c.phase = .started → c.parent = none → atCut s c = true →
      (∀ x ∈ kidsOf s u, x.phase = .finished → cmdFailed x = false) →
      (c.aborting = false → c.suspending = true → c.evicting = false → uncut (opcodeOf c.desc) = false →
        (waitOp (opcodeOf c.desc) = true → exec (.huskWrite u) s = .next (park s c none))
        ∧ (waitOp (opcodeOf c.desc) = false → ∀ t,
          (∀ a, (writeHusk (ctxOf s c) c true).run.run s = (.ok (some a), t) →
            exec (.huskWrite u) s = .next (park t c (some (BitVec.ofNat 64 a))))
          ∧ ((writeHusk (ctxOf s c) c true).run.run s = (.ok none, t) →
            exec (.huskWrite u) s = .next (modTree (logCmd t u evNoHuskSlot 0 false 0 0 0 0) u (fun x =>
              { x with suspending := false, runOn := true, coll := { x.coll with yieldAt := none } })))))
      ∧ (c.aborting = false → c.evicting = true → uncut (opcodeOf c.desc) = false →
        (waitOp (opcodeOf c.desc) = true → exec (.huskWrite u) s = .next (endEvicted s c 0 false))
        ∧ (waitOp (opcodeOf c.desc) = false → ∀ t,
          (∀ a, (writeHusk (ctxOf s c) c false).run.run s = (.ok (some a), t) →
            exec (.huskWrite u) s = .next (endEvicted t c a false))
          ∧ ((writeHusk (ctxOf s c) c false).run.run s = (.ok none, t) →
            exec (.huskWrite u) s = .next (endEvicted t c 0 true))))
      ∧ (c.aborting = true → codecOp (opcodeOf c.desc) = false → exec (.huskWrite u) s = .next
        (failMember (dropTree (if c.orphan then logAborted s u else s) u) c .aborted)))
  ∧ (∀ s (p : PartIx), quiesced s p.val = true →
      exec (.partitionQuiesce p) s = .next (resumeAll (quiesceNow s p.val)))

/-! ### Rings -/

/-- A wake, or a poll interval that elapses, acts on an ON ring of a module that is its own anchor; a wake of any other ring, one of a
page whose slot names no ring, and every write to a wake page of a member, is ignored and counted (R312, R367, R369). -/
def Obligations.RingWakesAndPolls : Prop :=
  (∀ s f page r hf, WakeNames s f page r → (ringOf s r).state = .on → isMember s = false →
      exec (.ringWake f page hf) s = .next (wakeRing s r hf))
  ∧ (∀ s f page r hf, WakeNames s f page r → (ringOf s r).state ≠ .on ∨ isMember s = true →
      exec (.ringWake f page hf) s =
        .next { s with hq := { s.hq with cntWakeIgnored := s.hq.cntWakeIgnored + 1 } })
  ∧ (∀ s (f : FuncIx) page hf, f.val = 0 ∨ (vfOf s f.val).enabled = true → isMember s = true →
      exec (.ringWake f page hf) s =
        .next { s with hq := { s.hq with cntWakeIgnored := s.hq.cntWakeIgnored + 1 } })
  ∧ (∀ s (f : FuncIx) (page : RingIx) hf, f.val ≠ 0 → (vfOf s f.val).enabled = true → slotRing s f.val page.val = none →
      exec (.ringWake f page hf) s =
        .next { s with hq := { s.hq with cntWakeIgnored := s.hq.cntWakeIgnored + 1 } })
  ∧ (∀ s (r : RingIx) hf, (ringOf s r.val).state = .on → (ringOf s r.val).pollLog ≠ 0 → isMember s = false →
      exec (.ringPoll r hf) s = .next (wakeRing s r.val hf))

/-- Fetching takes every slot up to the tail, in order, and SQ_HEAD stands at the tail; here no slot of them takes a sync record.
The slots are read by up to 32 at a time, SQ_HEAD is written after each read, and a read that fails puts the ring in ERROR with
what the reads before it have brought (R367, R369). -/
def Obligations.FetchTakesEverySlot : Prop :=
  (∀ n s r, (∀ i < n, hasSync (slotAhead s r i) = false) →
      (ringOf (fetchSlots n s r) r).fetched
          = (ringOf s r).fetched ++ (List.range n).map (fun i => ⟨slotAhead s r i, 0⟩)
        ∧ (ringOf (fetchSlots n s r) r).sqHead = headAhead s r n
        ∧ (fetchSlots n s r).host = s.host ∧ (fetchSlots n s r).hbm = s.hbm ∧ (fetchSlots n s r).cmds = s.cmds)
  ∧ (∀ n s r ahead m t, ahead ≠ 0 → t = fetchSlots (min 32 ahead) s r →
      m = ixDist (ringOf t r).sqSize (ringOf t r).sqHead (ringOf s r).sqHead → m ≠ 0 →
      fetchReads (n + 1) s r ahead none = fetchReads n (writeSqHead t r) r (ahead - m) none
        ∧ ∀ k, fetchReads (n + 1) s r ahead (some (k + 1)) = fetchReads n (writeSqHead t r) r (ahead - m) (some k))
  ∧ (∀ n s r ahead, ahead ≠ 0 → fetchReads (n + 1) s r ahead (some 0) = ringError s r 2)

/-- COMMAND_FETCH: a fetched slot that a check refuses completes with what the check reports; one placed on a member is issued;
one for a failed die is logged and completes with ABORTED; one without header waits is issued (R373, R379, R387, R428, R441). -/
def Obligations.FetchedCommandsIssue : Prop :=
  ∀ s (r : RingIx) c t, waitList s r.val < 64 → isMember s = false → admitHead s r.val = some (c, t) →
    (∀ st off, fetchVerdict t r.val c.desc c.sync = some (st, off) →
      exec (.commandFetch r) s = .next (rejectCmd t c.uid st off))
    ∧ (fetchVerdict t r.val c.desc c.sync = none → c.module ≠ 0 →
      exec (.commandFetch r) s = .next (modCmd t c.uid (fun c => { c with phase := .issued })))
    ∧ (fetchVerdict t r.val c.desc c.sync = none → c.module = 0 → (∃ d ∈ diesOf c.dies, dieFailed t d = true) →
      exec (.commandFetch r) s = .next (failCmd (logAborted t c.uid) c.uid .aborted))
    ∧ (fetchVerdict t r.val c.desc c.sync = none → c.module = 0 → (∀ d ∈ diesOf c.dies, dieFailed t d = false) →
      waitCount c.desc = 0 →
      exec (.commandFetch r) s = .next (modCmd (forget t c.uid) c.uid (fun c => { c with phase := .issued })))

/-- COMMAND_START: a command that may start and whose checks pass starts, and a linked consumer's start ends its producer; one
placed on a member is forwarded; a suspended one
whose context has opened resumes; a fenced one behind a failure completes with DEPENDENCY_FAILED (R167, R312, R382, R387, R393, R408). -/
def Obligations.IssuedCommandsStart : Prop :=
  (∀ s u c t, findCmd s u = some c → mayStart s c = true → c.module = 0 ∨ c.origin ≠ none →
      (fenceFlag c.desc = true → fenceFailed s c = false) → linkState s c = .none →
      (startBody c).run.run s = (.ok (), t) → exec (.commandStart u) s = .next t)
  ∧ (∀ s u c t p, findCmd s u = some c → mayStart s c = true → c.module = 0 ∨ c.origin ≠ none →
      (fenceFlag c.desc = true → fenceFailed s c = false) → linkState s c = .alive p →
      (startBody c).run.run s = (.ok (), t) → exec (.commandStart u) s = .next (doneCmd t p.uid .ok))
  ∧ (∀ s u c, findCmd s u = some c → mayStart s c = true → c.module = 0 ∨ c.origin ≠ none →
      fenceFlag c.desc = true → fenceFailed s c = true →
      exec (.commandStart u) s = .next (failCmd s u .dependencyFailed))
  ∧ (∀ s u c, findCmd s u = some c → c.phase = .issued → c.module ≠ 0 → c.origin = none → isMember s = false →
      heldByOrder s c = false →
      heldForward s c = false → (partOf s (cmdPart s c)).hold = false → (fencePoint c = true → fenceFailed s c = false) →
      exec (.commandStart u) s = .next (forwardCmd s c))
  ∧ (∀ s u c, findCmd s u = some c → mayResume s c = true → exec (.commandStart u) s = .next (resumeCmd s c))

/-- COMPLETION_POST clears VALID of the husk of the ring's next command, and with no husk left it writes the completion record into
its entry of the completion ring, with the entry's phase, and moves the head on by one entry; a record of a function that drains after
an FLR is discarded and counted, also where the ring is full; CQ_HEAD_RECHECK takes a valid CQ_HEAD; IRQ_DELAY_EXPIRE sends the ring's
message (R370, R377, R378, R385, R408, R442). -/
def Obligations.CompletionRowsComplete : Prop :=
  (∀ s (r : RingIx) c, nextPost s r.val = some c → c.phase = .finished →
      (ringOf s r.val).state = .on ∨ (ringOf s r.val).state = .draining →
      completionHeld s r.val = false ∨ discards s r.val = true → isMember s = false →
      (c.husk = none → outstanding s c.uid = false → findCmd s c.uid = some c →
        exec (.completionPost r false) s = .next (postCompletion s r.val c))
      ∧ (∀ t c', t = clearHusk s c → mayPost t c.uid = true → findCmd t c.uid = some c' →
        exec (.completionPost r false) s = .next (postCompletion t r.val c')))
  ∧ (∀ s r c, discards s r = true → writeRecord s r c = { s with hq := { s.hq with cntFlrDiscard := s.hq.cntFlrDiscard + 1 } })
  ∧ (∀ s r c, (vfOf s (ringOf s r).function).draining = false → (vfOf s 0).draining = false →
      (writeRecord s r c).host = putBytes s.host ((ringOf s r).cqBase + 32 * fieldN (ringOf s r).cqNext 0 16)
          (bvToBytes 32 (completionRec c (!bit (ringOf s r).cqNext 16)))
        ∧ (ringOf (writeRecord s r c) r).cqNext = ixNext (ringOf s r).cqSize (ringOf s r).cqNext
        ∧ (writeRecord s r c).hbm = s.hbm ∧ (writeRecord s r c).cmds = s.cmds)
  ∧ (∀ s (r : RingIx) (h : BitVec 17), (ringOf s r.val).state = .on ∨ (ringOf s r.val).state = .draining →
      completionHeld s r.val = true → isMember s = false → h = bytesToBv 17 (hostRead s ((ringOf s r.val).ctrlBase + 12) 4) →
      fieldN h 0 16 < (ringOf s r.val).cqSize →
      ixDist (ringOf s r.val).cqSize h (ringOf s r.val).cqHead
        ≤ ixDist (ringOf s r.val).cqSize (ringOf s r.val).cqNext (ringOf s r.val).cqHead →
      exec (.cqHeadRecheck r false) s = .next (setRing s r.val { ringOf s r.val with cqHead := h }))
  ∧ (∀ s (r : RingIx), (ringOf s r.val).irqEn = true → (ringOf s r.val).irqDelay ≠ 0 → (ringOf s r.val).irqPending ≠ 0 →
      (ringOf s r.val).irqDelay ≤ elapsed s.time.now (ringOf s r.val).irqFirst →
      exec (.irqDelayExpire r) s = .next (sendMsix (setRing s r.val { ringOf s r.val with irqPending := 0 })
        (ringOf s r.val).function (ringOf s r.val).vector))

/-- Enabling and disabling rings: an OFF ring goes ON with SQ_HEAD 0 and WAKE_NEEDED 1 written to its control block and its
completion entries from index 0; an ON ring without work drains; an enable during the drain is held, and the end of the drain
leads to OFF and then ON. A stage that selects the ring holds what was committed (R367, R442, R443, R496). -/
def Obligations.RingEnableAndDisable : Prop :=
  (∀ s (r : RingIx), SetupOpen s → (ringOf s r.val).state = .off →
      ∃ t, exec (.ringEnable r) s = .next t
        ∧ (ringOf t r.val).state = .on ∧ (ringOf t r.val).sqHead = 0 ∧ (ringOf t r.val).cqNext = 0
        ∧ (ringOf t r.val).wakeNeeded = true
        ∧ t.host = putBytes (putBytes s.host ((ringOf s r.val).ctrlBase + 8) [0, 0, 0, 0])
            ((ringOf s r.val).ctrlBase + 16) [1, 0, 0, 0]
        ∧ t.hbm = s.hbm ∧ t.cmds = s.cmds
        ∧ (s.hq.ringSel.toNat = r.val → t.hq.stage = (ringOf t r.val).cfg))
  ∧ (∀ s (r : RingIx), SetupOpen s → (ringOf s r.val).state = .draining →
      ∃ t, exec (.ringEnable r) s = .next t ∧ (ringOf t r.val).state = .draining ∧ (ringOf t r.val).enableHeld = true
        ∧ t.host = s.host ∧ t.hbm = s.hbm ∧ t.cmds = s.cmds
        ∧ (s.hq.ringSel.toNat = r.val → t.hq.stage = (ringOf t r.val).cfg))
  ∧ (∀ s (r : RingIx), SetupOpen s → (ringOf s r.val).state = .on ∨ (ringOf s r.val).state = .error →
      (ringOf s r.val).fetched = [] →
      (∀ c ∈ s.cmds, c.ring = r.val → c.origin = none → c.phase ≠ .waiting ∧ c.phase ≠ .issued) →
      ∃ t, exec (.ringDisable r) s = .next t ∧ (ringOf t r.val).state = .draining ∧ (ringOf t r.val).cause = 0
        ∧ t.host = s.host ∧ t.hbm = s.hbm ∧ t.cmds = s.cmds
        ∧ (s.hq.ringSel.toNat = r.val → t.hq.stage = (ringOf t r.val).cfg))
  ∧ (∀ s (r : RingIx), (ringOf s r.val).state = .draining → ringEmpty s r.val = true →
      (ringOf s r.val).enableHeld = false →
      exec (.drainComplete (.ring r)) s = .next (setRing s r.val { ringOf s r.val with state := .off, enableHeld := false }))
  ∧ (∀ s (r : RingIx), (ringOf s r.val).state = .draining → ringEmpty s r.val = true →
      (ringOf s r.val).enableHeld = true →
      exec (.drainComplete (.ring r)) s =
        .next (ringOn (setRing s r.val { ringOf s r.val with state := .off, enableHeld := false }) r.val))

/-- DRAIN_COMPLETE of the other functions: a VF whose rings are OFF; the PF in its reset, with which HQ_ is reset and its snapshots
go; a quiesced partition; a codec engine with no started command of its own that has not completed, whose slots are all set; and a port
whose queues are empty (R357, R391, R442, R443, R460, R472). -/
def Obligations.DrainsEnd : Prop :=
  (∀ s (f : FuncIx), f.val ≠ 0 → (vfOf s f.val).draining = true →
      (∀ r ∈ ringsOf s f.val, (ringOf s r).state = .off) →
      exec (.drainComplete (.vf f)) s = .next (setVf s f.val
        { vfOf s f.val with draining := false, enabled := (vfOf s f.val).enableHeld, enableHeld := false }))
  ∧ (∀ s (f : FuncIx), f.val = 0 → (vfOf s 0).draining = true → (∀ e ∈ s.hq.rings, e.2.state = .off) →
      exec (.drainComplete (.vf f)) s = .next { s with
        hq := HqBlock.reset, io := { s.io with snapshots := smKeep (fun k => !hqSnapshot k) s.io.snapshots } })
  ∧ (∀ s (p : PartIx), (partOf s p.val).draining = true → quiesced s p.val = true →
      exec (.drainComplete (.partition p)) s = .next (resumeAll (quiesceNow s p.val)))
  ∧ (∀ s (d : DieIx), (codecOf s d.val).state = .draining →
      (∀ c ∈ s.cmds, onEngine s d.val c = false ∧ ∀ x ∈ c.pool, x.1 ≠ d.val) →
      exec (.drainComplete (.codec d)) s = .next (setCodec s d.val { codecOf s d.val with
        state := (if (codecOf s d.val).enableHeld then .on else .off), enableHeld := false, slots := [] }))
  ∧ (∀ s (p : PortIx), (portOf s p.val).stage = .draining → (portOf s p.val).txq = [] → (portOf s p.val).replay = [] →
      exec (.drainComplete (.port p)) s = .next (portOff s p.val))

/-! ### Set-up writes -/

/-- A write of a selector that changes the selection loads the committed contents into the stage (R366, R496). -/
def Obligations.StageSelectLoads : Prop :=
  (∀ s (ix : BitVec 12), SetupOpen s → s.hq.ringSel ≠ ix →
      exec (.stageSelect (.ring 0 ix)) s =
        .next { s with hq := { s.hq with ringSel := ix, stage := (ringOf s ix.toNat).cfg } })
  ∧ (∀ s (ix : BitVec 12), SetupOpen s → s.hq.ringSel = ix → exec (.stageSelect (.ring 0 ix)) s = .next s)
  ∧ (∀ s (f : FuncIx) (ix : BitVec 12), SetupOpen s → f.val ≠ 0 → (vfOf s f.val).enabled = true →
      (vfOf s f.val).select ≠ ix →
      exec (.stageSelect (.ring f ix)) s = .next { s with hq := { s.hq with
        vfs := smSet VfState.dflt s.hq.vfs f.val { vfOf s f.val with select := ix }
        vfStage := smSet 0 s.hq.vfStage f.val (match slotRing s f.val ix.toNat with
          | some r => (ringOf s r).cfg
          | none => 0) } })
  ∧ (∀ s (ix : BitVec 6), SetupOpen s → s.zw.winSel ≠ ix →
      exec (.stageSelect (.window ix)) s =
        .next { s with zw := { s.zw with winSel := ix, winStage := smGet 0 s.zw.windows ix.toNat } })
  ∧ (∀ s (g : BitVec 4) (m : BitVec 6), SetupOpen s → s.part.rgrpGroup ≠ g ∨ s.part.rgrpMember ≠ m →
      exec (.stageSelect (.ringGroup g m)) s = .next { s with part := { s.part with
        rgrpGroup := g, rgrpMember := m, rgrpCfgStage := (ringGroupOf s g.toNat).cfg
        rgrpMemberStage := smGet 0 (ringGroupOf s g.toNat).members m.toNat } })

/-- COMMIT applies the stage whole: of a ring, which then acts on ENABLE; of a window; of a ring group (R293, R366, R482,
R496). -/
def Obligations.CommitsApplyTheStage : Prop :=
  (∀ s, SetupOpen s → ringRanges s.hq.stage = true → slotShared s s.hq.ringSel.toNat s.hq.stage = false →
      ((ringOf s s.hq.ringSel.toNat).state = .off ∨
        sameButEnable s.hq.stage (ringOf s s.hq.ringSel.toNat).cfg = true) →
      exec (.ringConfigCommit 0) s = .next (setRingEnable
        (setRing s s.hq.ringSel.toNat { ringOf s s.hq.ringSel.toNat with cfg := s.hq.stage })
        s.hq.ringSel.toNat (bit s.hq.stage 384)))
  ∧ (∀ s (f : FuncIx) r x, SetupOpen s → f.val ≠ 0 → (vfOf s f.val).enabled = true →
      slotRing s f.val (vfOf s f.val).select.toNat = some r →
      x = (smGet 0 s.hq.vfStage f.val &&& ~~~pfOnlyMask) ||| ((ringOf s r).cfg &&& pfOnlyMask) →
      ringRanges x = true → slotShared s r x = false →
      ((ringOf s r).state = .off ∨ sameButEnable x (ringOf s r).cfg = true) →
      exec (.ringConfigCommit f) s = .next (setRingEnable
        (setRingStage (setRing s r { ringOf s r with cfg := x }) f.val x) r (bit x 384)))
  ∧ (∀ s, SetupOpen s → exec .zwWinCommit s =
      .next { s with zw := { s.zw with windows := smSet 0 s.zw.windows s.zw.winSel.toNat s.zw.winStage } })
  ∧ (∀ s, SetupOpen s → 1 ≤ s.part.rgrpGroup.toNat → s.part.rgrpGroup.toNat ≤ 8 →
      fieldN s.part.rgrpCfgStage 0 7 ≠ 1 → fieldN s.part.rgrpCfgStage 0 7 ≤ 64 →
      ringGroupUsed s s.part.rgrpGroup.toNat = false →
      exec .ringGroupCommit s = .next { s with part := { s.part with
        rgroups := smSet RingGroup.dflt s.part.rgroups s.part.rgrpGroup.toNat
          ⟨s.part.rgrpCfgStage, smSet 0 (ringGroupOf s s.part.rgrpGroup.toNat).members s.part.rgrpMember.toNat
            s.part.rgrpMemberStage⟩ } })

/-- Partitions: PART_MODE while every ring is OFF, PART_CFG, HOLD and its end, EVICT, the outbound key, and the module ID
(R292, R308, R388, R390, R391, R443). -/
def Obligations.PartitionRowsComplete : Prop :=
  (∀ s m, SetupOpen s → allRingsOff s = true →
      exec (.partModeWrite m) s = .next (windowChange { s with part := { s.part with mode := m } }))
  ∧ (∀ s (p : PartIx) (v : BitVec 32), SetupOpen s → field v 0 8 = 0 ∨ alignedGroup (field v 0 8) = true →
      (∀ q < 8, q ≠ p.val → (partOf s q).dies &&& field v 0 8 = 0) → field v 12 4 ≠ 0 →
      field v 0 8 = (partOf s p.val).dies → field v 12 4 = (partOf s p.val).tblGib →
      exec (.partitionConfig p v) s = .next (setPart s p.val { partOf s p.val with
        dies := field v 0 8, tblGib := field v 12 4, ringEligible := bit v 8, bgReserve := field v 16 4 }))
  ∧ (∀ s (p : PartIx) (v : BitVec 32), SetupOpen s → field v 0 8 = 0 ∨ alignedGroup (field v 0 8) = true →
      (∀ q < 8, q ≠ p.val → (partOf s q).dies &&& field v 0 8 = 0) → field v 12 4 ≠ 0 →
      field v 0 8 ≠ (partOf s p.val).dies ∨ field v 12 4 ≠ (partOf s p.val).tblGib →
      partRingsOff s p.val = true → quiesced s p.val = true →
      exec (.partitionConfig p v) s = .next { s with part := { s.part with
        parts := smSet Partition.dflt s.part.parts p.val { partOf s p.val with
          dies := field v 0 8, tblGib := field v 12 4, ringEligible := bit v 8, bgReserve := field v 16 4 }
        tables := smKeep (fun k => k / 64 != p.val) s.part.tables
        models := smKeep (fun k => k / 256 != p.val) s.part.models } })
  ∧ (∀ s (p : PartIx), SetupOpen s → (partOf s p.val).hold = false →
      exec (.partitionHold p) s =
        .next (setPart s p.val { partOf s p.val with hold := true, draining := !quiesced s p.val }))
  ∧ (∀ s (p : PartIx), SetupOpen s → (partOf s p.val).draining = false →
      exec (.partitionUnhold p) s = .next (resumeAll (setPart s p.val { partOf s p.val with hold := false })))
  ∧ (∀ s (p : PartIx), SetupOpen s → (partOf s p.val).draining = true →
      exec (.partitionUnhold p) s = .next (setPart s p.val { partOf s p.val with enableHeld := true }))
  ∧ (∀ s (p : PartIx), SetupOpen s → exec (.partitionEvict p) s = .next (evictPart s p.val))
  ∧ (∀ s (p : PartIx) key, SetupOpen s → quiesced s p.val = true →
      exec (.partKeyWrite p key) s = .next (setPart s p.val { partOf s p.val with key := key, keyHeld := none }))
  ∧ (∀ s (p : PartIx) key, SetupOpen s → quiesced s p.val = false →
      exec (.partKeyWrite p key) s = .next (setPart s p.val { partOf s p.val with keyHeld := some key }))
  ∧ (∀ s i a b, s.pwr.stage = 5 → (b = false ∧ hostUp s = true) ∨ (b = true ∧ isMember s = true) → allQuiesced s = false →
      exec (.moduleIdWrite i a b) s = .next { s with zw := { s.zw with heldId := some (i, a) } })
  ∧ (∀ s i a b, s.pwr.stage = 5 → (b = false ∧ hostUp s = true) ∨ (b = true ∧ isMember s = true) → allQuiesced s = true →
      exec (.moduleIdWrite i a b) s =
        .next (flushBuffer (memberPost { s with zw := { s.zw with id := i, anchorId := a, heldId := none } })))

/-- PART_PREEMPT: SUSPEND closes the context and asks its started commands to stop, RELEASE opens it, EVICT ends its commands, and
while the last action is in progress a further one is ignored and logged; the spool's windows act alike at every change (R398, R405,
R408, R409). -/
def Obligations.PreemptionRowsComplete : Prop :=
  (∀ s ctx, SetupOpen s → preemptBusy s = false →
      exec (.suspend ctx) s =
        .next (suspendCtx { s with part := { s.part with preemptCtx := ctx, preemptAction := 1 } } ctx.toNat)
      ∧ exec (.release ctx) s =
        .next (releaseCtx { s with part := { s.part with preemptCtx := ctx, preemptAction := 2 } } ctx.toNat)
      ∧ exec (.evict ctx) s =
        .next (evictCtx { s with part := { s.part with preemptCtx := ctx, preemptAction := 3 } } ctx.toNat))
  ∧ (∀ s ctx, SetupOpen s → preemptBusy s = true →
      exec (.suspend ctx) s = .next (logIgnored s 0x40030 (BitVec.ofNat 64 (preemptValue ctx 1)))
      ∧ exec (.release ctx) s = .next (logIgnored s 0x40030 (BitVec.ofNat 64 (preemptValue ctx 2)))
      ∧ exec (.evict ctx) s = .next (logIgnored s 0x40030 (BitVec.ofNat 64 (preemptValue ctx 3))))
  ∧ (∀ s tag, s.cmds = [] → suspendCtx s tag =
      { s with part := { s.part with suspended := smSet false s.part.suspended tag true, preempted := [] } })
  ∧ (∀ s tag, s.cmds = [] → releaseCtx s tag =
      { s with part := { s.part with suspended := smSet false s.part.suspended tag false, preempted := [] } })
  ∧ (∀ s, exec .spoolWindowChange s = .next (windowChange s))
  ∧ (∀ s, (∀ c ∈ s.cmds, (c.phase = .started → runsHere c = true → ctxOpen s c = true) ∧ c.phase ≠ .suspended) →
      windowChange s = s)

/-- Functions that are switched: codec engines and virtual functions. A configuration request before the PF is ready is answered with
Request Retry Status and changes nothing else (R357, R363, R442, R443, R466). -/
def Obligations.FunctionSwitchesComplete : Prop :=
  (∀ s (d : DieIx), SetupOpen s → (codecOf s d.val).state = .off →
      exec (.codecEnable d) s = .next (setCodec s d.val { codecOf s d.val with enable := true, state := .on }))
  ∧ (∀ s (d : DieIx), SetupOpen s → (codecOf s d.val).state = .draining →
      exec (.codecEnable d) s = .next (setCodec s d.val { codecOf s d.val with enable := true, enableHeld := true }))
  ∧ (∀ s (d : DieIx), SetupOpen s → (codecOf s d.val).state = .on →
      (∀ c ∈ s.cmds, codecOp (opcodeOf c.desc) = true → c.phase ≠ .waiting ∧ c.phase ≠ .issued) →
      ∃ t, exec (.codecDisable d) s = .next t ∧ (codecOf t d.val).enable = false ∧ (codecOf t d.val).state = .draining
        ∧ t.cmds = s.cmds ∧ t.host = s.host ∧ t.hbm = s.hbm)
  ∧ (∀ s (f : FuncIx), hostUp s = true → f.val ≠ 0 → (vfOf s f.val).draining = false →
      exec (.vfEnable f) s = .next (setVf s f.val { vfOf s f.val with enabled := true }))
  ∧ (∀ s (f : FuncIx), hostUp s = true → f.val ≠ 0 → (vfOf s f.val).draining = true →
      exec (.vfEnable f) s = .next (setVf s f.val { vfOf s f.val with enableHeld := true }))
  ∧ (∀ s (f : FuncIx) (l : Fin 12), portTrains s = true → hostUp s = false →
      exec (.vfEnable f) s = .next (answer s .retryStatus) ∧ exec (.vfFlr f) s = .next (answer s .retryStatus)
      ∧ exec .pfFlr s = .next (answer s .retryStatus) ∧ exec (.bar4Resize l) s = .next (answer s .retryStatus))
  ∧ (∀ s (f : FuncIx), hostUp s = true → f.val ≠ 0 → (vfOf s f.val).draining = false → (vfOf s f.val).enabled = true →
      ringsOf s f.val = [] → s.cmds = [] →
      ∃ t, exec (.vfFlr f) s = .next t ∧ t.host = s.host ∧ t.hbm = s.hbm ∧ t.hq.rings = s.hq.rings
        ∧ t.hq.vfs = smSet VfState.dflt s.hq.vfs f.val ⟨false, true, false, (vfOf s f.val).select⟩)

/-- Set-up writes for HBM and clusters: a live channel is fenced with cause 2 and its record, a maintenance request is held,
and an injection is armed (R105, R263, R265, R271). -/
def Obligations.FaultSetupCompletes : Prop :=
  (∀ s (d : DieIx) (ch : ChanIx), SetupOpen s → bit (dieOf s d.val).live ch.val = true →
      (chanOf s d.val ch.val).fenced = false →
      exec (.hbmFence d ch) s = .next (logEvent (modChan s d.val ch.val (fun x => { x with fenced := true })) evChannelFenced
        d.val (BitVec.ofNat 64 ch.val) 2))
  ∧ (∀ s (d : DieIx), SetupOpen s →
      exec (.hbmMaint d) s = .next (modDie s d.val (fun b => { b with maintHeld := true })))
  ∧ (∀ s (d : DieIx) (v : W32), SetupOpen s → bit (dieOf s d.val).hbmInj 31 = false → bit v 31 = true → fieldN v 8 2 ≠ 0 →
      exec (.hbmInjArm d v) s = .next (modDie s d.val (fun b => { b with hbmInj := v &&& 0x8000033F })))
  ∧ (∀ s (d : DieIx) (v : W32), SetupOpen s → bit (dieOf s d.val).cluInj 31 = false → bit v 31 = true → fieldN v 16 2 ≠ 0 →
      exec (.dieCluInjArm d v) s = .next (modDie s d.val (fun b => { b with cluInj := v &&& 0x80031FFF })))

/-- Before READY and on a module whose anchor is another module, a set-up write that arrives at the module's own port changes
nothing but the error log: it is ignored and logged, with its register's offset and the value written (R466, R475). -/
def Obligations.SetupClosedWritesAreLogged : Prop :=
  ∀ s, hostUp s = true → s.pwr.stage ≠ 5 ∨ isMember s = true →
    (∀ (r : RingIx), exec (.ringEnable r) s = .next (logIgnored s 0x30000 (BitVec.ofNat 64 (r.val + 2147483648)))
      ∧ exec (.ringDisable r) s = .next (logIgnored s 0x30000 (BitVec.ofNat 64 (r.val + 2147483648))))
    ∧ (∀ (ix : BitVec 12), exec (.stageSelect (.ring 0 ix)) s = .next (logIgnored s 0x30000 (BitVec.ofNat 64 ix.toNat)))
    ∧ (∀ (f : FuncIx) (ix : BitVec 12), f.val ≠ 0 → (vfOf s f.val).enabled = true →
      exec (.stageSelect (.ring f ix)) s = .next (logIgnored s 0 (BitVec.ofNat 64 ix.toNat))
      ∧ exec (.ringConfigCommit f) s =
        .next (logIgnored s 0 (BitVec.ofNat 64 ((vfOf s f.val).select.toNat + 2147483648))))
    ∧ (∀ (ix : BitVec 6), exec (.stageSelect (.window ix)) s = .next (logIgnored s 0x70030 (BitVec.ofNat 64 ix.toNat)))
    ∧ (∀ (g : BitVec 4) (m : BitVec 6), exec (.stageSelect (.ringGroup g m)) s =
      .next (logIgnored s 0x40040 (BitVec.ofNat 64 (g.toNat + 16 * m.toNat))))
    ∧ exec (.ringConfigCommit 0) s = .next (logIgnored s 0x30000 (BitVec.ofNat 64 (s.hq.ringSel.toNat + 2147483648)))
    ∧ exec .ringGroupCommit s = .next (logIgnored s 0x40040
      (BitVec.ofNat 64 (s.part.rgrpGroup.toNat + 16 * s.part.rgrpMember.toNat + 2147483648)))
    ∧ exec .zwWinCommit s = .next (logIgnored s 0x70030 (BitVec.ofNat 64 (s.zw.winSel.toNat + 2147483648)))
    ∧ (∀ (p : PartIx), exec (.partitionHold p) s = .next (logIgnored s 0x40018 1)
      ∧ exec (.partitionUnhold p) s = .next (logIgnored s 0x40018 0)
      ∧ exec (.partitionEvict p) s = .next (logIgnored s 0x40018 2))
    ∧ (∀ (p : PartIx) (v : BitVec 32),
      exec (.partitionConfig p v) s = .next (logIgnored s 0x40010 (BitVec.ofNat 64 v.toNat))
      ∧ exec (.partKeyWrite p v) s = .next (logIgnored s (0x70080 + 8 * p.val) (BitVec.ofNat 64 v.toNat)))
    ∧ (∀ (m : BitVec 1), exec (.partModeWrite m) s = .next (logIgnored s 0x40000 (BitVec.ofNat 64 m.toNat)))
    ∧ (∀ (ctx : CtxTag),
      exec (.suspend ctx) s = .next (logIgnored s 0x40030 (BitVec.ofNat 64 (ctx.toNat + 1 * 4096 + 2147483648)))
      ∧ exec (.release ctx) s = .next (logIgnored s 0x40030 (BitVec.ofNat 64 (ctx.toNat + 2 * 4096 + 2147483648)))
      ∧ exec (.evict ctx) s = .next (logIgnored s 0x40030 (BitVec.ofNat 64 (ctx.toNat + 3 * 4096 + 2147483648))))
    ∧ (∀ (d : DieIx), exec (.codecDisable d) s = .next (logIgnored s 0x80008 0)
      ∧ exec (.codecEnable d) s = .next (logIgnored s 0x80008 1)
      ∧ exec (.hbmMaint d) s = .next (logIgnored s (0x1010038 + d.val * 0x100000) 1))
    ∧ (∀ (d : DieIx) (v : W32),
      exec (.hbmInjArm d v) s = .next (logIgnored s (0x1010058 + d.val * 0x100000) (BitVec.ofNat 64 v.toNat))
      ∧ exec (.dieCluInjArm d v) s = .next (logIgnored s (0x1000028 + d.val * 0x100000) (BitVec.ofNat 64 v.toNat)))
    ∧ (∀ (d : DieIx) (ch : ChanIx), exec (.hbmFence d ch) s =
      .next (logIgnored s (0x1010018 + d.val * 0x100000) (BitVec.ofNat 64 (ch.val + 2147483648))))
    ∧ (∀ (p : PortIx),
      exec (.portDisable p) s = .next (logIgnored s 0x70018 (BitVec.ofNat 64 (2 * (portOf s p.val).maxWidth.toNat)))
      ∧ exec (.portEnable p) s = .next (logIgnored s 0x70018 (BitVec.ofNat 64 (1 + 2 * (portOf s p.val).maxWidth.toNat))))
    ∧ (∀ (v : W64), exec (.remoteConfigGo v) s =
      .next (logIgnored s 0x40 (BitVec.ofNat 64 (v ||| 0x80000000).toNat)))

/-! ### Clusters -/

/-- A scratchpad reads back what was written: after an aligned write of eight bytes, a read of the word answers them, in the cluster
itself and in every member of a bridle that they are delivered to; here no injection is armed for the cluster that reads, and it waits
for no halo (R78, R80, R84, R151). -/
def Obligations.ScratchpadReadsBackWhatWasWritten : Prop :=
  (∀ s (d : DieIx) (k : ClusterIx) (a : BitVec 18) bs user,
    (clusterOf s d.val k.val).mark ≠ .mappedOut → a.toNat % 8 = 0 → a.toNat + 8 ≤ 196608 → bs.length = 8 →
    NoClusterInjection s d.val k.val → haloHere s d.val k.val = true →
    ∃ t r, exec (.spWrite d k a ⟨none, bs⟩) s = .next t ∧ exec (.spRead d k a user .none) t = .next r
      ∧ r.io.answer = .value (bytesToBv 64 bs))
  ∧ (∀ s (d : DieIx) (k m : ClusterIx) (a : BitVec 18) bs user row, (clusterOf s d.val k.val).mark ≠ .mappedOut →
    (clusterOf s d.val m.val).mark ≠ .mappedOut → a.toNat % 8 = 0 → a.toNat + 8 ≤ 196608 → bs.length = 8 →
    (dieOf s d.val).cluInj.getLsbD 31 = false → haloHere s d.val m.val = true →
    m.val ∈ deliveredTo s d.val k.val (some row) →
    ∃ t r, exec (.spWrite d k a ⟨some row, bs⟩) s = .next t ∧ exec (.spRead d m a user .none) t = .next r
      ∧ r.io.answer = .value (bytesToBv 64 bs))

/-- Scratchpad reads and scrubs: an unwritten line reads as zeros, a written word without an error as its data, a member of an
exchange group whose halo has not been signalled gets nothing, and a scrub read goes over the next line of an enabled cluster. A tile of a
bridle is written to every member of the bridle that the cluster belongs to (R80, R84, R86, R87, R151, R187). -/
def Obligations.ScratchpadReadsComplete : Prop :=
  (∀ s (d : DieIx) (k : ClusterIx) (a : BitVec 18) user fl, (clusterOf s d.val k.val).mark ≠ .mappedOut →
      a.toNat / 8 * 8 < 196608 → haloHere s d.val k.val = true →
      lineWritten (clusterOf s d.val k.val) (a.toNat / 8 * 8) = false →
      exec (.spRead d k a user fl) s = .next { s with io := { s.io with answer := .value 0 } })
  ∧ (∀ s (d : DieIx) (k : ClusterIx) (a : BitVec 18) user w, (clusterOf s d.val k.val).mark ≠ .mappedOut →
      a.toNat / 8 * 8 < 196608 → haloHere s d.val k.val = true →
      lineWritten (clusterOf s d.val k.val) (a.toNat / 8 * 8) = true →
      w = spWord (clusterOf s d.val k.val) (a.toNat / 8 * 8) → w.poison = false → w.flips = 0 →
      exec (.spRead d k a user .none) s = .next (answer
        (setSpWord s d.val k.val (a.toNat / 8 * 8) { w with flips := 0, injected := false }) (.value w.data)))
  ∧ (∀ s (d : DieIx) (k : ClusterIx) (a : BitVec 18) user fl, (clusterOf s d.val k.val).mark ≠ .mappedOut →
      a.toNat / 8 * 8 < 196608 → haloHere s d.val k.val = false → exec (.spRead d k a user fl) s = .next (answer s .none))
  ∧ (∀ s (d : DieIx) (k : ClusterIx) w fl, (clusterOf s d.val k.val).mark = .enabled → (dieOf s d.val).scrubLines ≠ 0 →
      (clusterOf s d.val k.val).scrubbed < (dieOf s d.val).scrubQuota →
      exec (.spScrubRead d k w fl) s = .next (bumpDie (modCluster
        (scrubWords s d.val k.val (64 * (clusterOf s d.val k.val).scrubLine) w.val (flipMask fl)) d.val k.val
        (fun c => { c with scrubLine := (c.scrubLine + 1) % 3072, scrubbed := c.scrubbed + 1 })) d.val 7 1))
  ∧ (∀ s (d : DieIx) (k : ClusterIx) (a : BitVec 18) bs, (clusterOf s d.val k.val).mark ≠ .mappedOut →
      a.toNat + bs.length ≤ 196608 → exec (.spWrite d k a ⟨none, bs⟩) s = .next (spStore s d.val k.val a.toNat bs))
  ∧ (∀ s (d : DieIx) (k : ClusterIx) (a : BitVec 18) bs row, (clusterOf s d.val k.val).mark ≠ .mappedOut →
      a.toNat + bs.length ≤ 196608 → exec (.spWrite d k a ⟨some row, bs⟩) s =
        .next ((deliveredTo s d.val k.val (some row)).foldl (fun s m => spStore s d.val m a.toNat bs) s))
  ∧ (∀ s d k row g b, groupOn s d k = some g → g.bridles.find? (fun b => b.row == row && b.members.contains k) = some b →
      deliveredTo s d k (some row) = b.members)

/-- Neighbours of one tile group: a write and a read are performed in the neighbour, and a signal adds one to its counter of
the opposite direction, saturating (R81, R82, R83). -/
def Obligations.NeighbourRowsComplete : Prop :=
  (∀ s (d : DieIx) (k : ClusterIx) dir (a : BitVec 18) bs n, groupNeighbour s d.val k.val dir = some (some n) →
      a.toNat + bs.length ≤ 196608 →
      exec (.neighbourAccess d k dir a (.write bs)) s = .next (spStore s d.val n a.toNat bs))
  ∧ (∀ s (d : DieIx) (k : ClusterIx) dir (a : BitVec 18) m n bs t, groupNeighbour s d.val k.val dir = some (some n) →
      a.toNat + m ≤ 196608 → spLoad s d.val n a.toNat m = (some bs, t) →
      exec (.neighbourAccess d k dir a (.read m)) s = .next { t with io := { t.io with answer := .bytes bs } })
  ∧ (∀ s (d : DieIx) (k : ClusterIx) dir n, groupNeighbour s d.val k.val dir = some (some n) →
      exec (.neighbourSignal d k dir) s = .next (modCluster s d.val n (fun c => { c with
        signals := smSet 0 c.signals (dirIx (dirOpposite dir))
          (if smGet 0 c.signals (dirIx (dirOpposite dir)) = 0xFFFFFFFF then 0xFFFFFFFF
            else smGet 0 c.signals (dirIx (dirOpposite dir)) + 1) })))

/-- Tile groups and the array: the command that the die chooses starts a group on clusters that are free and placed as its unit
needs, of the unit that the region takes next or of a retry; the end of a group performs its unit, and a group in which a member still
waits for its halo does not end; a pass over a loaded tile
streams its rows, one that loads its tile makes it active first, and a pass whose tiles have not all been delivered to a bridle's
member, or whose halo has not been signalled, does not run (R80, R90, R93, R94, R148, R152, R187, R394, R406, R411, R495). -/
def Obligations.TileGroupRowsComplete : Prop :=
  (∀ s (d : DieIx) (region : Fin 32) ks c r g, chooseCmd s d.val = some (c, r) →
      readyGroup s c d.val region.val = some g → moverOp (opcodeOf c.desc) = false →
      placeOk s d.val region.val (ks.map Fin.val) g.placing g.failedOn = true →
      exec (.tileGroupStart d region ks) s =
        .next (startGroup (setRound s d.val r) d.val region.val (ks.map Fin.val) c g))
  ∧ (∀ s (d : DieIx) (region : Fin 32) c r g, chooseCmd s d.val = some (c, r) →
      readyGroup s c d.val region.val = some g → moverOp (opcodeOf c.desc) = true →
      exec (.tileGroupStart d region []) s = .next (startGroup (setRound s d.val r) d.val region.val [] c g))
  ∧ (∀ s i g c t, s.groups.find? (fun x => x.id == i && x.running && x.waits.all (signalled s x.die)) = some g → findCmd s g.cmd = some c →
      (endUnit s g c).run.run s = (.ok true, t) →
      exec (.tileGroupEnd i) s =
        .next (finishUnits { t with groups := t.groups.filter (fun x => x.id != i) } c.uid))
  ∧ (∀ s i g c t, s.groups.find? (fun x => x.id == i && x.running && x.waits.all (signalled s x.die)) = some g → findCmd s g.cmd = some c →
      (endUnit s g c).run.run s = (.ok false, t) →
      exec (.tileGroupEnd i) s =
        .next (boundaryOf { t with groups := t.groups.filter (fun x => x.id != i) } c.uid))
  ∧ (∀ s i, (∀ g ∈ s.groups, g.id = i → ∃ w ∈ g.waits, signalled s g.die w = false) → exec (.tileGroupEnd i) s = .next s)
  ∧ (∀ s (d : DieIx) (k : ClusterIx) (p : Pass) sf wf store, fmtOf p.streamFmt.toNat = some sf →
      fmtOf p.stationFmt.toNat = some wf → pairingOf sf wf = some p.pairing → 1 ≤ p.rows → p.rows ≤ 65536 →
      (clusterOf s d.val k.val).mark ≠ .mappedOut → bookOk s d.val k.val p wf = true →
      store = tileStore (passBook s d.val k.val p) wf → passInside p sf store = true →
      (passReady s d.val k.val (passTiles p sf store) = true → p.loadTile = false →
        ∀ tile, (clusterOf s d.val k.val).tile = some tile → tile.pairing = p.pairing → tile.fmt = p.stationFmt →
        exec (.arrayPass d k p) s = .next (passRows p.rows 0 s d.val k.val tile sf p))
      ∧ (passReady s d.val k.val (passTiles p sf store) = true → p.loadTile = true →
        ∀ tile t u, loadTile s d.val k.val p wf = (some tile, t) →
        checkTile (swapTile t d.val k.val) d.val k.val tile p = (true, u) →
        exec (.arrayPass d k p) s = .next (passRows p.rows 0 u d.val k.val tile sf p))
      ∧ (passReady s d.val k.val (passTiles p sf store) = false → exec (.arrayPass d k p) s = .next s))

/-- Boundaries of a die's health window and scrub epochs. The health window ends at a multiple of 2^WINDOW_LOG2 by the setting
in force: its counts start again and the limits written since apply. A scrub epoch ends at a multiple of 2^EPOCH_LOG2: what is
outstanding sets BEHIND and carries over, and the next quota begins, by the new setting where the tick is a boundary of the new
setting and by the one in force where it is not. At any other tick nothing changes (R86, R87, R101, R256, R270, R420). -/
def Obligations.DieBoundariesComplete : Prop :=
  (∀ s (d : DieIx), AtTick s (dieOf s d.val).health.windowLog2.toNat (dieOf s d.val).healthBegan →
      exec (.healthWindowEnd d) s = .next (modDie { s with
        clusters := smMap Cluster.dflt (fun i => i / 8192 == d.val)
          (fun c => { c with mismatchWin := 0, ueWin := 0, ceWin := 0 }) s.clusters
        chans := smMap Chan.dflt (fun i => i / 64 == d.val) (fun c => { c with ueWin := 0, ceWin := 0, rowCe := [] }) s.chans }
        d.val (fun b => { b with
          healthBegan := s.time.now
          health :=
          { windowLog2 := field b.chkCfg 0 6, mismatchLimit := field b.chkCfg 8 4, ueLimit := field b.chkCfg 12 4
            ceLimit := field b.chkCfg 16 12, rowCeLimit := field b.healthCfg 0 8, chUeLimit := field b.healthCfg 8 8 } })))
  ∧ (∀ s (d : DieIx), ¬ AtTick s (dieOf s d.val).health.windowLog2.toNat (dieOf s d.val).healthBegan →
      exec (.healthWindowEnd d) s = .next s)
  ∧ (∀ s (d : DieIx), AtTick s (fieldN (dieOf s d.val).scrubCfg 0 5) (dieOf s d.val).scrubBegan →
      linesOutstanding s d.val = 0 →
      exec (.spScrubEpochEnd d) s = .next (modDie s d.val (fun b => { b with
        scrubLines := fieldN b.scrubCfg 8 12, scrubEpoch := fieldN b.scrubCfg 0 5
        scrubQuota := b.scrubQuota + fieldN b.scrubCfg 8 12, scrubBegan := s.time.now })))
  ∧ (∀ s (d : DieIx), boundaryNow s (fieldN (dieOf s d.val).scrubCfg 0 5) = false →
      AtTick s (dieOf s d.val).scrubEpoch (dieOf s d.val).scrubBegan → linesOutstanding s d.val = 0 →
      exec (.spScrubEpochEnd d) s = .next (modDie s d.val (fun b => { b with
        scrubQuota := b.scrubQuota + b.scrubLines, scrubBegan := s.time.now })))
  ∧ (∀ s (d : DieIx), AtTick s (fieldN (dieOf s d.val).scrubCfg 0 5) (dieOf s d.val).scrubBegan
        ∨ AtTick s (dieOf s d.val).scrubEpoch (dieOf s d.val).scrubBegan → linesOutstanding s d.val ≠ 0 →
      exec (.spScrubEpochEnd d) s = .next (beginScrubEpoch
        (logEvent (modDie s d.val (fun b => { b with scrubCfg := setField b.scrubCfg 24 1 1 })) evScrubBehind d.val
          (BitVec.ofNat 64 (linesOutstanding s d.val)) 0) d.val))
  ∧ (∀ s (d : DieIx), ¬ AtTick s (fieldN (dieOf s d.val).scrubCfg 0 5) (dieOf s d.val).scrubBegan →
      ¬ AtTick s (dieOf s d.val).scrubEpoch (dieOf s d.val).scrubBegan → exec (.spScrubEpochEnd d) s = .next s)
  ∧ (∀ s (d : DieIx), AtTick s (fieldN (dieOf s d.val).hbmScrubCfg 0 5) (dieOf s d.val).hbmScrubBegan →
      (∀ c < 64, chanServes s d.val c = true → (dieOf s d.val).hbmScrubQuota ≤ (chanOf s d.val c).scrubbed) →
      exec (.hbmScrubEpochEnd d) s = .next (modDie s d.val (fun b => { b with
        hbmScrubRate := fieldN b.hbmScrubCfg 8 5, hbmScrubEpoch := fieldN b.hbmScrubCfg 0 5
        hbmScrubQuota := b.hbmScrubQuota + (if fieldN b.hbmScrubCfg 8 5 = 0 then 0 else 2 ^ fieldN b.hbmScrubCfg 8 5)
        hbmScrubBegan := s.time.now })))
  ∧ (∀ s (d : DieIx), boundaryNow s (fieldN (dieOf s d.val).hbmScrubCfg 0 5) = false →
      AtTick s (dieOf s d.val).hbmScrubEpoch (dieOf s d.val).hbmScrubBegan →
      (∀ c < 64, chanServes s d.val c = true → (dieOf s d.val).hbmScrubQuota ≤ (chanOf s d.val c).scrubbed) →
      exec (.hbmScrubEpochEnd d) s = .next (modDie s d.val (fun b => { b with
        hbmScrubQuota := b.hbmScrubQuota + (if b.hbmScrubRate = 0 then 0 else 2 ^ b.hbmScrubRate)
        hbmScrubBegan := s.time.now })))
  ∧ (∀ s (d : DieIx) c, AtTick s (fieldN (dieOf s d.val).hbmScrubCfg 0 5) (dieOf s d.val).hbmScrubBegan
        ∨ AtTick s (dieOf s d.val).hbmScrubEpoch (dieOf s d.val).hbmScrubBegan → c < 64 → chanServes s d.val c = true →
      (chanOf s d.val c).scrubbed < (dieOf s d.val).hbmScrubQuota →
      ∃ t, exec (.hbmScrubEpochEnd d) s = .next t ∧ bit (dieOf t d.val).hbmScrubCfg 24 = true
        ∧ (dieOf s d.val).hbmScrubQuota ≤ (dieOf t d.val).hbmScrubQuota ∧ t.chans = s.chans ∧ t.hbm = s.hbm)
  ∧ (∀ s (d : DieIx), ¬ AtTick s (fieldN (dieOf s d.val).hbmScrubCfg 0 5) (dieOf s d.val).hbmScrubBegan →
      ¬ AtTick s (dieOf s d.val).hbmScrubEpoch (dieOf s d.val).hbmScrubBegan → exec (.hbmScrubEpochEnd d) s = .next s)

/-! ### HBM -/

/-- The interleave of R247: the channel and the channel offset of a window offset; the function is a bijection between window
offsets below the top of memory and the bytes of live channels, and a 2 KiB aligned granule never spans two channels. -/
def Obligations.InterleaveIsABijection : Prop :=
  ∀ live : List Nat, live ≠ [] → live.Nodup →
    (∀ a, (interleave live a).1
        = live.getD ((a / 2048 + 9 * (a / 2048 / live.length)) % live.length) 0
      ∧ (interleave live a).2 = a / 2048 / live.length * 2048 + a % 2048)
    ∧ (∀ a < live.length * 2684354560, (interleave live a).1 ∈ live ∧ (interleave live a).2 < 2684354560)
    ∧ (∀ a b, a < live.length * 2684354560 → b < live.length * 2684354560 → interleave live a = interleave live b → a = b)
    ∧ (∀ c ∈ live, ∀ o < 2684354560, ∃ a < live.length * 2684354560, interleave live a = (c, o))
    ∧ (∀ a b, a / 2048 = b / 2048 → (interleave live a).1 = (interleave live b).1)
    ∧ (∀ r, ∀ c ∈ live, ∃ q < live.length, (interleave live ((r * live.length + q) * 2048)).1 = c)
    ∧ (∀ s d, (liveList s d).Pairwise (· < ·) ∧ ∀ c, c ∈ liveList s d ↔ c < 64 ∧ bit (dieOf s d).live c = true)

/-- Accesses to one sector that is served, by what a read of the stored sector finds: a clean one answers its data, a corrected
one its corrected data and counts, an uncorrectable one answers nothing and stays uncorrectable; a whole write stores the
sector with its check symbols, and a merge stores the merged sector and answers the old one, or writes nothing when its read is
uncorrectable; a write changes no other sector and nothing of another block. An access to a fenced channel, or to a die that refuses
every access, is not performed and is counted (R248, R249, R250, R253, R263, R272, R441). -/
def Obligations.HbmAccessesComplete : Prop :=
  (∀ s (d : DieIx) (off : BitVec 38) c dmg, off.toNat % 32 = 0 → SectorServed s d.val off.toNat →
      decodeSector (laneAt s d.val off.toNat) (storedAt s d.val off.toNat) dmg = .clean →
      exec (.hbmRead d off c dmg) s = .next { openedAt s d.val off.toNat with
        io := { s.io with answer := .bytes (bvToBytes 32 (field (damaged (storedAt s d.val off.toNat).code dmg) 0 256)) } })
  ∧ (∀ s (d : DieIx) (off : BitVec 38) c dmg cw ps, off.toNat % 32 = 0 → SectorServed s d.val off.toNat →
      decodeSector (laneAt s d.val off.toNat) (storedAt s d.val off.toNat) dmg = .corrected cw ps →
      ∃ t, exec (.hbmRead d off c dmg) s = .next t ∧ t.io.answer = .bytes (bvToBytes 32 (field cw 0 256))
        ∧ t.hbm = s.hbm ∧ t.cmds = s.cmds
        ∧ (dieOf t d.val).hbmCounters = bump (dieOf s d.val).hbmCounters 0 1)
  ∧ (∀ s (d : DieIx) (off : BitVec 38) dmg, off.toNat % 32 = 0 → SectorServed s d.val off.toNat →
      decodeSector (laneAt s d.val off.toNat) (storedAt s d.val off.toNat) dmg = .uncorrectable →
      ∃ t, exec (.hbmRead d off none dmg) s = .next t ∧ t.io.answer = .none
        ∧ t.hbm = (setSector s d.val (chanAt s d.val off.toNat) (sectorAt s d.val off.toNat)
          { storedAt s d.val off.toNat with lost := true }).hbm
        ∧ (dieOf t d.val).hbmCounters = bump (dieOf s d.val).hbmCounters 1 1)
  ∧ (∀ deg sec dmg, sec.lost = true → decodeSector deg sec dmg = .uncorrectable)
  ∧ (∀ s (d : DieIx) (off : BitVec 38) x, off.toNat % 32 = 0 → SectorServed s d.val off.toNat →
      NoHbmInjection s d.val (chanAt s d.val off.toNat) →
      exec (.hbmWrite d off x) s = .next (setSector (openedAt s d.val off.toNat) d.val
        (chanAt s d.val off.toNat) (sectorAt s d.val off.toNat) ⟨rsEncode x, false, false⟩))
  ∧ (∀ s (d : DieIx) (off : BitVec 38) op c dmg x, off.toNat % 32 = 0 → SectorServed s d.val off.toNat →
      decodeSector (laneAt s d.val off.toNat) (storedAt s d.val off.toNat) dmg = .clean →
      x = field (damaged (storedAt s d.val off.toNat).code dmg) 0 256 →
      exec (.hbmRmw d off op c dmg) s = .next { storeChan (openedAt s d.val off.toNat) d.val (chanAt s d.val off.toNat)
          (sectorAt s d.val off.toNat) (rmwValue op x) with
        io := { s.io with answer := .bytes (bvToBytes 32 x) } })
  ∧ (∀ s (d : DieIx) (off : BitVec 38) op dmg, off.toNat % 32 = 0 → SectorServed s d.val off.toNat →
      decodeSector (laneAt s d.val off.toNat) (storedAt s d.val off.toNat) dmg = .uncorrectable →
      ∃ t, exec (.hbmRmw d off op none dmg) s = .next t ∧ t.io.answer = .none
        ∧ t.hbm = (setSector s d.val (chanAt s d.val off.toNat) (sectorAt s d.val off.toNat)
          { storedAt s d.val off.toNat with lost := true }).hbm)
  ∧ (∀ s (d : DieIx) (off : BitVec 38) x op c dmg, off.toNat % 32 = 0 → offlineAt s d.val off.toNat = true →
      dieRefuses s d.val = true ∨ off.toNat + 32 ≤ topOf s d.val →
      exec (.hbmRead d off none dmg) s = .next (answer (bumpHbm s d.val 2) .none)
      ∧ exec (.hbmRmw d off op none dmg) s = .next (answer (bumpHbm s d.val 2) .none)
      ∧ exec (.hbmWrite d off x) s = .next (bumpHbm s d.val 2)
      ∧ (∃ t, exec (.hbmRead d off c dmg) s = .next t ∧ t.io.answer = .none))
  ∧ (∀ s d c i x, (storeChan s d c i x).host = s.host ∧ (storeChan s d c i x).cmds = s.cmds
      ∧ (storeChan s d c i x).hq = s.hq ∧ (storeChan s d c i x).err = s.err ∧ (storeChan s d c i x).part = s.part
      ∧ (storeChan s d c i x).pwr = s.pwr ∧ (storeChan s d c i x).time = s.time ∧ (storeChan s d c i x).zw = s.zw
      ∧ (storeChan s d c i x).chans = s.chans ∧ (storeChan s d c i x).clusters = s.clusters
      ∧ ∀ d' c' i', sectorKey d' c' i' ≠ sectorKey d c i → sectorOf (storeChan s d c i x) d' c' i' = sectorOf s d' c' i')

/-- An atomic stores, of the stored value old and its operands x and y taken as unsigned 64-bit numbers, (old + x) mod 2^64 for
ADD, the larger of old and x for MAX, and for CAS y when old equals x and old otherwise. Of the sector its word takes that value and
the other words stay; a merge takes each enabled byte of the data and keeps the others (R253, R296). -/
def Obligations.AtomicsStoreTheirValue : Prop :=
  (∀ old x y : W64, (atomicStore .add old x y).toNat = (old.toNat + x.toNat) % 2 ^ 64
      ∧ (atomicStore .max old x y).toNat = max old.toNat x.toNat
      ∧ (old = x → atomicStore .cas old x y = y) ∧ (old ≠ x → atomicStore .cas old x y = old))
  ∧ (∀ (o : Fin 4) (x y : W64) (c : BitVec 256) (q : Fin 4),
      (q ≠ o → (field (rmwValue (.add o x) c) (64 * q.val) 64 : W64) = field c (64 * q.val) 64
        ∧ (field (rmwValue (.max o x) c) (64 * q.val) 64 : W64) = field c (64 * q.val) 64
        ∧ (field (rmwValue (.cas o x y) c) (64 * q.val) 64 : W64) = field c (64 * q.val) 64)
      ∧ (field (rmwValue (.add o x) c) (64 * o.val) 64 : W64) = (field c (64 * o.val) 64 : W64) + x
      ∧ (field (rmwValue (.max o x) c) (64 * o.val) 64 : W64).toNat = max (fieldN c (64 * o.val) 64) x.toNat
      ∧ (field (rmwValue (.cas o x y) c) (64 * o.val) 64 : W64)
        = if (field c (64 * o.val) 64 : W64) = x then y else field c (64 * o.val) 64)
  ∧ (∀ (m : BitVec 32) (x c : BitVec 256) (i : Fin 32),
      (field (rmwValue (.merge m x) c) (8 * i.val) 8 : Byte)
        = if bit m i.val then field x (8 * i.val) 8 else field c (8 * i.val) 8)

/-- Refresh, refresh management at the stack's threshold, scrubbing, and soft repair of the listed row whose turn it is, of a die
in service (R255, R256, R267, R269). What a refresh does to activation counts is the model's choice (log entry 14). -/
def Obligations.HbmUpkeepCompletes : Prop :=
  (∀ s (d : DieIx) (st : Fin 2), (dieOf s d.val).selfRefresh = false →
      exec (.hbmRefresh d st) s =
        .next (modDie (refreshBanks s d.val st.val) d.val
          (fun b => { b with lastRefresh := smSet 0 b.lastRefresh st.val s.time.now })))
  ∧ (∀ s (d : DieIx) (st : Fin 2) k n, (dieOf s d.val).selfRefresh = false → (k, n) ∈ (dieOf s d.val).activations →
      k / 2048 = st.val → Config.rfmThreshold d.val st.val ≤ n →
      exec (.hbmRfm d st) s = .next (bumpHbm (refreshBanks s d.val st.val) d.val 6))
  ∧ (∀ s (d : DieIx) (st : Fin 2),
      (∀ x ∈ (dieOf s d.val).activations, x.1 / 2048 = st.val → x.2 < Config.rfmThreshold d.val st.val) →
      exec (.hbmRfm d st) s = .next s)
  ∧ (∀ s d st, (refreshBanks s d st).hbm = s.hbm)
  ∧ (∀ s (d : DieIx) (ch : ChanIx) dmg, bit (dieOf s d.val).live ch.val = true → (chanOf s d.val ch.val).fenced = false →
      (dieOf s d.val).selfRefresh = false → (dieOf s d.val).hbmScrubRate ≠ 0 →
      (chanOf s d.val ch.val).scrubbed < (dieOf s d.val).hbmScrubQuota →
      exec (.hbmScrubRead d ch dmg) s = .next (bumpHbm (modChan
        (scrubSector s d.val ch.val (chanOf s d.val ch.val).scrubNext dmg) d.val ch.val (fun c =>
          { c with scrubNext := (c.scrubNext + 1) % 83886080, scrubbed := c.scrubbed + 1 })) d.val 3))
  ∧ (∀ s (row : RowName), s.pwr.inhibit = false →
      (chanOf s row.die.val row.channel.val).faulty.contains (RowName.key row) = true →
      repairTurn s (RowName.entry row) = true →
      exec (.hbmSoftRepair row true) s = .next (listRow (logEvent (bumpHbm (modChan (modChan s row.die.val
        row.channel.val (fun x => { x with faulty := x.faulty.filter (· != RowName.key row) })) row.die.val row.channel.val
        (fun x => { x with softRepairs := x.softRepairs + 1 })) row.die.val 4) evRowRepair row.die.val
        (RowName.entry row) 0) row.die.val row.channel.val (RowName.key row))
      ∧ exec (.hbmSoftRepair row false) s = .next (listRow (logEvent (modChan s row.die.val row.channel.val
        (fun x => { x with faulty := x.faulty.filter (· != RowName.key row) })) evNoSpare row.die.val (RowName.entry row) 0)
        row.die.val row.channel.val (RowName.key row)))
  ∧ (∀ s d c row, (repairList s).contains (pendingEntry d c row) = false →
      (listRow s d c row).flash.queue = s.flash.queue ++ [.addRepair (pendingEntry d c row)])
  ∧ (∀ s (row : RowName) b, s.pwr.inhibit = true → exec (.hbmSoftRepair row b) s = .next s)

/-- Retraining of a lane, training of a stack in bring-up, and held maintenance of a die that is OFF or is brought up. Lane
retraining of a channel comes once in 2^17 ticks at most. A die that is being brought up reads ON when its self-test, its training and
held maintenance are over (R260, R261, R262, R265, R268, R460, R461, R465). -/
def Obligations.HbmTrainingCompletes : Prop :=
  (∀ s (d : DieIx) (r : ChanTraining) t, chanServes s d.val r.channel.val = true →
      t = modChan s d.val r.channel.val (fun x => { x with retrainedAt := some s.time.now }) →
      (retrainDue s (chanOf s d.val r.channel.val) = true → r.otherFailure = true →
        exec (.hbmLaneRetrain d r) s = .next (fenceChannel t d.val r.channel.val 0))
      ∧ (∀ (pc : Fin 2) (l : Fin 36), retrainDue s (chanOf s d.val r.channel.val) = true → r.otherFailure = false →
        r.badLanes = [(pc, l)] → laneOf (chanOf s d.val r.channel.val) pc.val = none →
        exec (.hbmLaneRetrain d r) s = .next (degradeLane t d.val r.channel.val pc.val l))
      ∧ (∀ x, (chanOf s d.val r.channel.val).retrainedAt = some x → since s.time.now x < 131072 →
        exec (.hbmLaneRetrain d r) s = .next s))
  ∧ (∀ s (d : DieIx) (st : Fin 2) r, ((s.pwr.stage = 2 ∨ s.pwr.stage = 3) ∧ (pwrDieOf s d.val).state = 0
        ∧ (pwrDieOf s d.val).off = false) ∨ comingOn (pwrDieOf s d.val) = true →
      (if st.val = 0 then (dieOf s d.val).trained0 else (dieOf s d.val).trained1) = false →
      s.pwr.inhibit = false ∨ pendingRepairs s d.val st.val = [] →
      exec (.hbmTraining d st r) s = .next
        (if (dieOf (trainStack s d.val st.val r true) d.val).trained0
            && (dieOf (trainStack s d.val st.val r true) d.val).trained1
          then comeOn (settleMap (trainStack s d.val st.val r true) d.val 1) d.val else trainStack s d.val st.val r true))
  ∧ (∀ s (d : DieIx) (st : Fin 2) r, s.pwr.inhibit = true → pendingRepairs s d.val st.val ≠ [] →
      exec (.hbmTraining d st r) s = .next s)
  ∧ (∀ s (d : DieIx) r0 r1, (dieOf s d.val).maintHeld = true →
      ((pwrDieOf s d.val).state = 0 ∧ s.pwr.stage = 5)
        ∨ (comingOn (pwrDieOf s d.val) = true ∧ (dieOf s d.val).trained0 = true ∧ (dieOf s d.val).trained1 = true) →
      s.pwr.inhibit = false ∨ (pendingRepairs s d.val 0 = [] ∧ pendingRepairs s d.val 1 = []) →
      exec (.hbmMaintenance d [r0, r1]) s = .next (comeOn (maintain s d.val r0 r1) d.val))
  ∧ (∀ s d, comingOn (pwrDieOf s d) = true → (dieOf s d).tested = true → (dieOf s d).trained0 = true →
      (dieOf s d).trained1 = true → (dieOf s d).maintHeld = false →
      (pwrDieOf s d).held = false →
      comeOn s d = startPorts (modPwrDie s d (fun x => { x with state := 1 })) [2 * d, 2 * d + 1])
  ∧ (∀ s d, comingOn (pwrDieOf s d) = true → (dieOf s d).maintHeld = true → comeOn s d = s)

/-! ### Errors and the persistent history -/

/-- The error ring's rows: its enable begins at index 0 and takes the buffered records, its disable leaves creation to the
buffer, HEAD is read again while something waits, each tracker with repeats creates its record at the end of a window, which lies at
a boundary of the setting in force or of a new one, and
the message is sent when records have been written since the last one and 2^10 ticks have passed (R431, R434, R435, R438). -/
def Obligations.ErrorRingRowsComplete : Prop :=
  (∀ s, hostUp s = true → isMember s = false → errEnabled s = false →
      exec .errRingEnable s = .next (flushBuffer { s with err := { s.err with
        cfg := setField s.err.cfg 0 1 1, writeIx := 0, head := 0, irqOwed := 0 } }))
  ∧ (∀ s, hostUp s = true → isMember s = false →
      exec .errRingDisable s = .next { s with err := { s.err with cfg := setField s.err.cfg 0 1 0 } })
  ∧ (∀ s, errEnabled s = true → isMember s = false → s.err.held ≠ [] ∨ s.err.summary ≠ none →
      exec .errHeadReread s = .next (errFlush (errReadHead s)))
  ∧ (∀ s, AtTick s s.err.coalLog2 s.err.coalBegan ∨ AtTick s (fieldN s.err.cfg 8 5) s.err.coalBegan →
      exec .coalWindowEnd s = .next ((s.err.trackers.filter (fun t => t.count ≠ 0)).foldl
        (fun s t => createRecord s (trackerRec s t) true)
        { s with err := { s.err with trackers := [], coalLog2 := coalAfter s, coalBegan := s.time.now } }))
  ∧ (∀ s, ¬ AtTick s s.err.coalLog2 s.err.coalBegan → ¬ AtTick s (fieldN s.err.cfg 8 5) s.err.coalBegan →
      exec .coalWindowEnd s = .next s)
  ∧ (∀ s, errEnabled s = true → bit s.err.cfg 27 = true → s.err.irqOwed ≠ 0 →
      (∀ t, s.err.irqLast = some t → 1024 ≤ since s.time.now t) →
      smGet true s.hq.msixMasked (fieldN s.err.cfg 16 11) = false →
      exec .errIrq s = .next { s with
        err := { s.err with irqOwed := 0, irqLast := some s.time.now }
        io := { s.io with msix := s.io.msix ++ [(0, fieldN s.err.cfg 16 11)] } })

/-- A record that is written takes one 64-byte entry of the ring, at the write index, with the entry's phase, and every other
byte of host memory stays; whatever an event of no command does, it changes nothing but what records are kept in
(R427, R430, R434, R435, R436). -/
def Obligations.RecordsChangeOnlyTheLog : Prop :=
  (∀ s r, (errPut s r).host = putBytes s.host (s.err.ringBase.toNat + 64 * fieldN s.err.writeIx 0 16)
      (bvToBytes 64 (encodeRec r (!bit s.err.writeIx 16)))
    ∧ (errPut s r).err.writeIx = ixNext (errSize s) s.err.writeIx
    ∧ (errPut s r).err.cntWritten = s.err.cntWritten + 1
    ∧ LogOnly s (errPut s r))
  ∧ (∀ s r log, LogOnly s (createRecord s r log))
  ∧ (∀ s ev d a b, LogOnly s (logEvent s ev d a b))

/-- The history in flash: outside the inhibit, while the management controller runs, its oldest waiting write is programmed, or
logged and given up where the flash fails; the erase of the event log waits behind earlier writes (R444, R445, R489). -/
def Obligations.FlashRowsComplete : Prop :=
  (∀ s w ws, s.flash.queue = w :: ws → s.pwr.inhibit = false → s.pwr.running = true →
      s.pwr.spiEnN = true →
      exec (.flashHistoryWrite none) s = .next (programHistory { s with flash := { s.flash with queue := ws } } w))
  ∧ (∀ s w ws a, s.flash.queue = w :: ws → s.pwr.inhibit = false → s.pwr.running = true →
      s.pwr.spiEnN = true →
      exec (.flashHistoryWrite (some a)) s =
        .next (logEvent { s with flash := { s.flash with queue := ws } } evFlashFailed 0 a 0))
  ∧ (∀ s fa, s.pwr.inhibit = true ∨ s.pwr.running = false ∨ s.pwr.spiEnN = false →
      exec (.flashHistoryWrite fa) s = .next s)
  ∧ (∀ s, hostUp s = true → isMember s = false →
      exec .clearLog s = .next { s with flash := { s.flash with queue := s.flash.queue ++ [.clearLog] } })

/-! ### Supply, resets and bring-up -/

/-- At power-on the clamp and the inhibit are in force and no sag counts; they lift as after a sag, the clamp when the input has held
44.0 V for 1,000 samples and the inhibit when it has for 100 ms, the inhibit without the record that ends a sag, and nothing is logged
for power-on. That 1,000 samples are 1,049 ticks and 100 ms are 104,858 ticks, counted from the last lower sample of a row, is the
model's reading (log entry 81) (R448, R449). -/
def Obligations.PowerOnCountsAsASag : Prop :=
  (State.reset.pwr.clamp = true ∧ State.reset.pwr.inhibit = true ∧ State.reset.pwr.sagSince = none
    ∧ State.reset.err.buffer = [] ∧ State.reset.err.nextSeq = 0)
  ∧ (∀ s mv, 40000 ≤ mv → mv ≤ 60000 → s.pwr.running = true ∨ s.pwr.presN = false →
      ∃ t, exec (.coldReset (.applied mv)) s = .next t ∧ t.pwr.clamp = true ∧ t.pwr.inhibit = true
        ∧ t.pwr.sagSince = none ∧ t.err.buffer = [] ∧ t.err.nextSeq = 0 ∧ t.flash.queue = [])
  ∧ (∀ s, s.pwr.running = true → s.pwr.clamp = true → HeldFor s 1049 →
      exec .sagClampLift s = .next { s with pwr := { s.pwr with clamp := false } })
  ∧ (∀ s, ¬ HeldFor s 1049 → exec .sagClampLift s = .next s)
  ∧ (∀ s, s.pwr.running = true → s.pwr.inhibit = true → s.pwr.clamp = false → HeldFor s 104858 → s.pwr.sagSince = none →
      exec .sagInhibitLift s = .next { s with pwr := { s.pwr with inhibit := false } })
  ∧ (∀ s x, s.pwr.running = true → s.pwr.inhibit = true → s.pwr.clamp = false → HeldFor s 104858 → s.pwr.sagSince = some x →
      exec .sagInhibitLift s = .next (logEvent { s with pwr := { s.pwr with inhibit := false, sagSince := none } }
        evSagCleared 0 (BitVec.ofNat 64 (since s.time.now x)) 0))
  ∧ (∀ s, s.pwr.clamp = true ∨ ¬ HeldFor s 104858 → exec .sagInhibitLift s = .next s)

/-- Cold, module and function resets, and the ways in which the module goes down: power that is applied, the return of the input after a
shutdown, which needs 44.0 V for 100 ms and, but after an undervoltage, an input that was below 38.0 V before, a module reset, an FLR of
the PF, and shutdowns, of which one for undervoltage comes below 38.0 V only (R447, R450, R451, R460, R466, R489, R490). -/
def Obligations.ResetsAndShutdowns : Prop :=
  (∀ s x mv, 40000 ≤ mv → mv ≤ 60000 →
      (x = .applied mv ∧ (s.pwr.running = true ∨ s.pwr.presN = false))
        ∨ (∃ ms dipped, x = .restored mv ms dipped ∧ s.pwr.running = false ∧ s.pwr.presN = true ∧ 44000 ≤ mv ∧ 100 ≤ ms
          ∧ (s.pwr.lastCause = 0 ∨ dipped = true)) →
      s.pwr.running = false ∨ (∀ d < 8, quarantined s d = []) → s.flash.queue = [] ∨ s.pwr.inhibit = true →
      ∃ t, exec (.coldReset x) s = .next t
      ∧ t.pending = s.pending ∧ t.host = s.host ∧ t.hbm = [] ∧ t.cmds = [] ∧ t.kids = [] ∧ t.groups = []
      ∧ t.hq = State.reset.hq
      ∧ t.part = State.reset.part ∧ t.spool = State.reset.spool ∧ t.time = State.reset.time ∧ t.err = State.reset.err
      ∧ t.glb = State.reset.glb ∧ t.codecs = [] ∧ t.pwr.running = true ∧ t.pwr.stage = 0 ∧ t.pwr.limitW = 2000
      ∧ t.pwr.inputMv = BitVec.ofNat 16 (mv / 10 * 10) ∧ t.flash.mapOuts = s.flash.mapOuts
      ∧ t.flash.repairs = s.flash.repairs ∧ t.flash.log = s.flash.log)
  ∧ (∀ s mv, mv < 40000 → exec (.coldReset (.applied mv)) s = .next s)
  ∧ (∀ s mv ms dipped, mv ≤ 60000 → mv < 44000 ∨ ms < 100 ∨ (s.pwr.lastCause ≠ 0 ∧ dipped = false) →
      exec (.coldReset (.restored mv ms dipped)) s = .next s)
  ∧ (∀ s, inService s = true → (∀ d < 8, quarantined s d = []) → ∃ t, exec .moduleReset s = .next t
      ∧ t.pending = s.pending ∧ t.host = s.host ∧ t.hbm = [] ∧ t.cmds = [] ∧ t.kids = [] ∧ t.groups = []
      ∧ t.hq = State.reset.hq
      ∧ t.part = State.reset.part ∧ t.spool = State.reset.spool ∧ t.time = State.reset.time ∧ t.err = State.reset.err
      ∧ t.codecs = [] ∧ t.flash = s.flash ∧ t.pwr.running = true ∧ t.pwr.stage = 2 ∧ t.pwr.limitW = s.pwr.limitW
      ∧ t.pwr.clamp = s.pwr.clamp ∧ t.pwr.inhibit = s.pwr.inhibit ∧ t.zw.id = s.pwr.baseId
      ∧ t.zw.anchorId = s.pwr.baseAnchor ∧ t.pwr.dies = smMap PwrDie.dflt (fun _ => true)
        (fun x => { x with state := 0, held := false, repairTicks := 0 }) s.pwr.dies)
  ∧ (∀ s, hostUp s = true → s.hq.rings = [] → s.cmds = [] → ∃ t, exec .pfFlr s = .next t
      ∧ t.err = State.reset.err ∧ t.io.bar4Log2 = 30 ∧ t.host = s.host ∧ t.hbm = s.hbm ∧ t.part = s.part ∧ t.dies = s.dies
      ∧ t.pwr = s.pwr ∧ t.zw = s.zw ∧ t.time = s.time ∧ t.hq.vfs = smSet VfState.dflt s.hq.vfs 0 ⟨false, true, false, 0⟩)
  ∧ (∀ s (x : ShutdownCause), s.pwr.running = true → x.cause ≠ 0 ∨ x.inputMv < 38000 →
      ∃ t, exec (.orderlyShutdown x) s = .next t ∧ Down t x.cause.val)
  ∧ (∀ s (x : ShutdownCause), x.cause = 0 → 38000 ≤ x.inputMv → exec (.orderlyShutdown x) s = .next s)
  ∧ (∀ s, hostUp s = true → ∃ t, exec .requestedShutdown s = .next t ∧ Down t 2)
  ∧ (∀ s, s.pwr.running = true → s.pwr.stage ≠ 0 → ∃ t, exec .spiEnLow s = .next t ∧ Down t 2 ∧ t.pwr.spiEnN = false)
  ∧ (∀ s, s.pwr.running = false ∨ s.pwr.stage = 0 →
      exec .spiEnLow s = .next { s with pwr := { s.pwr with spiEnN := false } })
  ∧ (∀ s, exec .spiEnRelease s = .next { s with pwr := { s.pwr with spiEnN := true } })
  ∧ (∀ s, exec .perstRelease s = .next { s with pwr := { s.pwr with perstN := true } })
  ∧ (∀ s, s.pwr.running = true → ∃ t, exec .powerExtract s = .next t ∧ Down t 2 ∧ t.pwr.presN = false)

/-- The stages of bring-up in turn: the end of BOOT with or without a valid baseboard record, which leads to RAILS, the rails that an
idle tick brings up, SRAM repair, both self-tests, a die that fails by a timeout or its management watchdog, and READY, which ends the
retest that this bring-up performed, or FAILED (R308, R459, R462, R463, R464, R491). -/
def Obligations.BringUpRowsComplete : Prop :=
  (∀ s fw, s.pwr.running = true → s.pwr.stage = 0 → s.pwr.spiEnN = true →
      exec (.bootComplete fw none) s = .next { s with
        pwr := { s.pwr with stage := 1, firmware := fw, baseId := 0, baseAnchor := 0, smbusAddr := 0x58, retest := s.flash.retest
                            retesting := s.flash.retest }
        zw := { s.zw with id := 0, anchorId := 0 } })
  ∧ (∀ s fw b, s.pwr.running = true → s.pwr.stage = 0 → s.pwr.spiEnN = true → baseboardOk b = true →
      ∃ t, exec (.bootComplete fw (some b)) s = .next t ∧ t.pwr.stage = 1 ∧ t.pwr.firmware = fw
        ∧ t.zw.id = BitVec.ofNat 12 (bytesToNat (b.take 2)) ∧ t.zw.anchorId = BitVec.ofNat 12 (bytesToNat ((b.drop 2).take 2))
        ∧ t.pwr.baseId = t.zw.id ∧ t.pwr.baseAnchor = t.zw.anchorId ∧ t.host = s.host ∧ t.hbm = s.hbm ∧ t.dies = s.dies
        ∧ t.err = s.err ∧ t.time = s.time)
  ∧ (∀ s, s.pwr.running = true → s.pwr.stage = 1 → (∀ d < 8, goingOff (pwrDieOf s d) = false) →
      settlePower s = { s with pwr := { s.pwr with stage := 2, railsAt := s.time.now } })
  ∧ (∀ s, s.pwr.running = true → s.pwr.stage = 2 →
      exec .sramRepair s = .next (startPorts { s with pwr := { s.pwr with stage := 3 } } (List.range 16)))
  ∧ (∀ s, s.pwr.running = true → s.pwr.stage = 1 →
      exec .sramRepair s = .next (startPorts { s with pwr := { s.pwr with stage := 3, railsAt := s.time.now } } (List.range 16)))
  ∧ (∀ s (d : DieIx) failed, s.pwr.stage = 3 → (dieOf s d.val).tested = false → (pwrDieOf s d.val).state = 0 →
      (pwrDieOf s d.val).off = false →
      (s.pwr.retesting = false → exec (.clusterSelfTest d failed) s =
        .next (modDie (mapOutFailed s d.val failed) d.val (fun b => { b with tested := true })))
      ∧ (s.pwr.retesting = true → exec (.clusterSelfTest d failed) s = .next
        (modDie (mapOutFailed (retestClusters s d.val failed) d.val failed) d.val (fun b => { b with tested := true }))))
  ∧ (∀ s (d : DieIx) failed, comingOn (pwrDieOf s d.val) = true → (dieOf s d.val).tested = false →
      exec (.clusterSelfTest d failed) s =
        .next (comeOn (modDie (mapOutFailed s d.val failed) d.val (fun b => { b with tested := true })) d.val))
  ∧ (∀ s (d : DieIx) pass, s.pwr.stage = 3 ∨ s.pwr.stage = 4 → (List.range 8).all (testedDie s) = true →
      (pwrDieOf s d.val).off = false → (pwrDieOf s d.val).state = 0 → usableClusters s d.val ≠ 0 →
      exec (.functionalSelfTest d [] pass) s = .next
        (if pass then modPwrDie { s with pwr := { s.pwr with stage := 4 } } d.val (fun x => { x with state := 1 })
          else { s with pwr := { s.pwr with stage := 4 } }))
  ∧ (∀ s (d : DieIx), bringingUp s = true → (pwrDieOf s d.val).off = false → (pwrDieOf s d.val).state = 0 →
      (4194304 + (pwrDieOf s d.val).repairTicks ≤ since s.time.now s.pwr.railsAt →
        exec (.selfTestTimeout d) s = .next (failDie s d.val 2))
      ∧ (since s.time.now s.pwr.railsAt < 4194304 + (pwrDieOf s d.val).repairTicks →
        exec (.selfTestTimeout d) s = .next s))
  ∧ (∀ s (d : DieIx), inService s = true → exec (.managementWatchdog d) s = .next (failDie s d.val 1))
  ∧ (∀ s, s.pwr.stage = 3 ∨ s.pwr.stage = 4 → Settled s → (∃ d < 8, (pwrDieOf s d).state = 1) →
      (s.pwr.retesting = false → exec .moduleReady s = .next { s with pwr := { s.pwr with stage := 5 } })
      ∧ (s.pwr.retesting = true → exec .moduleReady s =
        .next (queueHistory { s with pwr := { s.pwr with stage := 5, retest := false, retesting := false } } (.retest false))))
  ∧ (∀ s, s.pwr.stage = 3 ∨ s.pwr.stage = 4 → Settled s → (∀ d < 8, (pwrDieOf s d).state ≠ 1) →
      exec .moduleReady s = .next { s with pwr := { s.pwr with stage := 6 } })

/-- A die goes OFF while it belongs to no partition; it reads CHANGING until its clusters have lost power, and OFF then. A write for
a changing die is held, a second one takes it back, and a failed die keeps what is written. A die of a partition stays, and the write is
logged; an OFF die is reset and brought up again. That the change ends at the next idle tick is the model's choice (log entry 80)
(R460, R461). -/
def Obligations.DiesGoOffAndOn : Prop :=
  (∀ s (d : DieIx), hostUp s = true → partOfDie s d.val = none → (pwrDieOf s d.val).off = false →
      ((pwrDieOf s d.val).state ≠ 3 → (pwrDieOf s d.val).state ≠ 2 →
        exec (.dieOff d) s = .next (takeDieOff s d.val)
        ∧ (pwrDieOf (takeDieOff s d.val) d.val).state = 2 ∧ (pwrDieOf (takeDieOff s d.val) d.val).off = true
        ∧ (dieOf (takeDieOff s d.val) d.val).selfRefresh = true)
      ∧ ((pwrDieOf s d.val).state = 2 →
        exec (.dieOff d) s = .next (modPwrDie s d.val (fun x => { x with off := true, held := !x.held })))
      ∧ ((pwrDieOf s d.val).state = 3 → exec (.dieOff d) s = .next (modPwrDie s d.val (fun x => { x with off := true }))))
  ∧ (∀ s (d : DieIx) p, hostUp s = true → partOfDie s d.val = some p →
      exec (.dieOff d) s =
        .next (logIgnored s 0x10018 (BitVec.ofNat 64 (256 + (pwrDieOf s d.val).cap.toNat))))
  ∧ (∀ s (d : DieIx), hostUp s = true → (pwrDieOf s d.val).off = true →
      ((pwrDieOf s d.val).state = 2 →
        exec (.dieOn d) s = .next (modPwrDie s d.val (fun x => { x with off := false, held := !x.held })))
      ∧ ((pwrDieOf s d.val).state = 3 → exec (.dieOn d) s = .next (modPwrDie s d.val (fun x => { x with off := false })))
      ∧ ((pwrDieOf s d.val).state ≠ 2 → (pwrDieOf s d.val).state ≠ 3 →
        exec (.dieOn d) s = .next (modPwrDie (dieReset s d.val) d.val (fun x => { x with off := false, state := 2, held := false }))))
  ∧ (∀ s (d : DieIx), hostUp s = true → (pwrDieOf s d.val).off = false → exec (.dieOn d) s = .next s)
  ∧ (∀ s d, (pwrDieOf s d).state = 2 → (pwrDieOf s d).off = true → (pwrDieOf s d).held = false →
      ∃ t, endDieOff s d = t ∧ (pwrDieOf t d).state = 0 ∧ (pwrDieOf t d).off = true ∧ t.chans = s.chans ∧ t.hbm = s.hbm
        ∧ (∀ k, k < 8192 → (clusterOf t d k).words = [] ∧ (clusterOf t d k).tile = none)
        ∧ t.clusters = smMap Cluster.dflt (fun k => k / 8192 == d)
          (fun c => { c with words := [], written := [], signals := [], tile := none, shadow := none }) s.clusters)
  ∧ (∀ s d, goingOff (pwrDieOf s d) = false → endDieOff s d = s)

/-! ### Power and temperature -/

/-- The governor: SAG_ENTER and FAST_LIMITER drop every grant to step 0, and SAG_ENTER sets the clamp and the inhibit, lists the faulty
rows that wait, and logs the lowest sample; a boundary performs the governor's epoch; and the
grants of an epoch lie at most four steps above the last ones and within each die's ceiling, and either the model's
prediction fits the budget or every die stands at step 0 (R448, R452, R453, R454). -/
def Obligations.GovernorRowsComplete : Prop :=
  (∀ s (x : SagSamples), s.pwr.running = true → x.latestMv < 42000 →
      exec (.sagEnter x) s = .next (logEvent (listFaulty (dropGrants { s with pwr := { s.pwr with
        clamp := true, inhibit := true, sagSince := some (s.pwr.sagSince.getD s.time.now), lowAt := s.time.now
        inputMv := BitVec.ofNat 16 (x.latestMv / 10 * 10) } })) evSupplySag 0
        (BitVec.ofNat 64 (min x.lowestMv x.latestMv / 10 * 10)) 0))
  ∧ (∀ s (x : SagSamples), 42000 ≤ x.latestMv → exec (.sagEnter x) s = .next s)
  ∧ (∀ s, s.pwr.running = true →
      exec .fastLimiter s = .next (dropGrants { s with pwr := { s.pwr with fastLimit := true } }))
  ∧ (∀ s d, (pwrDieOf (dropGrants s) d).grant = 0)
  ∧ (∀ s r, r.inputMv ≤ 60000 → s.pwr.running = true → AtTick s 10 s.pwr.epochBegan →
      exec (.governorEpoch r) s = .next (governorEpoch s r))
  ∧ (∀ s r, r.inputMv ≤ 60000 → ¬ AtTick s 10 s.pwr.epochBegan → exec (.governorEpoch r) s = .next s)
  ∧ (∀ s w, (computeGrants s w).length = 8
      ∧ (∀ d < 8, (computeGrants s w).getD d 0 ≤ min (dieCeil s d) ((pwrDieOf s d).grant.toNat + 4))
      ∧ (Config.predict (s.time.now.toNat / 1024) (computeGrants s w) ≤ (powerLimit s : Int) - w - 20
        ∨ ∀ g ∈ computeGrants s w, g = 0))

/-- A zone that reads at or above its shutdown temperature at three consecutive boundaries shuts the module down with cause 1:
each such reading is counted and a lower one starts the count again, the third one shuts the module down, and three of
them at three boundaries in a row do so from any state, whatever happens between the boundaries that keeps the module running and
the zone's count (R452, R458). -/
def Obligations.ThreeHotReadingsShutDown : Prop :=
  (∀ s (r : EpochReadings) z c t, shutdownC z = some c → r.zones[z]? = some (some (.celsius t)) →
      (zoneOf (readZones r.zones s 0) z).hotReads = if (c : Int) ≤ t then (zoneOf s z).hotReads + 1 else 0)
  ∧ (∀ s s' r z c t, s.pwr.running = true → AtTick s 10 s.pwr.epochBegan → shutdownC z = some c →
      r.zones[z]? = some (some (.celsius t)) → (c : Int) ≤ t → 2 ≤ (zoneOf s z).hotReads → exec (.governorEpoch r) s = .next s' → Down s' 1)
  ∧ (∀ s s1 u1 s2 u2 s3 r1 r2 r3 z c t1 t2 t3, s.pwr.running = true → s1.pwr.running = true → s2.pwr.running = true →
      u1.pwr.running = true → u2.pwr.running = true → zoneOf u1 z = zoneOf s1 z → zoneOf u2 z = zoneOf s2 z →
      AtTick s 10 s.pwr.epochBegan → AtTick u1 10 u1.pwr.epochBegan → AtTick u2 10 u2.pwr.epochBegan →
      shutdownC z = some c → r1.zones[z]? = some (some (.celsius t1)) → r2.zones[z]? = some (some (.celsius t2)) → r3.zones[z]? = some (some (.celsius t3)) →
      (c : Int) ≤ t1 → (c : Int) ≤ t2 → (c : Int) ≤ t3 →
      exec (.governorEpoch r1) s = .next s1 → exec (.governorEpoch r2) u1 = .next s2 →
      exec (.governorEpoch r3) u2 = .next s3 → Down s3 1)

/-- The shelf's commands and RETEST: power off and on, the limit, status, history, and the answer not acknowledged, also to a frame with
a bad PEC or another command code
(R444, R446, R451, R459, R492). -/
def Obligations.ShelfRowsComplete : Prop :=
  (∀ s, controllerOn s = true → exec .powerOff s = .next (answer (shutdown s 2) .none))
  ∧ (∀ s, controllerOn s = false → exec .powerOff s = .next (answer s .nack))
  ∧ (∀ s, s.pwr.running = false → s.pwr.presN = true → s.pwr.lastCause = 1 ∨ s.pwr.lastCause = 2 →
      exec .powerOn s = .next (answer (coldReset s s.pwr.inputMv.toNat) .none))
  ∧ (∀ s, s.pwr.running = true → exec .powerOn s = .next (answer s .none))
  ∧ (∀ s w, controllerOn s = true → 1200 ≤ w → w ≤ 2000 → exec (.setLimit (.limit w)) s =
      .next (answer { s with pwr := { s.pwr with shelfLimitW := BitVec.ofNat 11 w } } .none))
  ∧ (∀ s, controllerOn s = true → exec (.setLimit (.limit 0)) s =
      .next (answer { s with pwr := { s.pwr with shelfLimitW := 2000 } } .none))
  ∧ (∀ s w, w ≠ 0 → w < 1200 ∨ 2000 < w → exec (.setLimit (.limit w)) s = .next (answer s .nack))
  ∧ (∀ s, exec (.setLimit .badFrame) s = .next (answer s .nack))
  ∧ (∀ s, exec .readStatus s = .next (answer { s with pwr := { s.pwr with alertN := true } }
      (.bytes (bvToBytes 2 s.pwr.inputMv ++ natToBytes 2 s.pwr.inputW.toNat
        ++ [BitVec.ofNat 8 s.pwr.stage.toNat, s.pwr.lastCause, 0, 0]))))
  ∧ (∀ s (sel : BitVec 16), controllerOn s = true → fieldN sel 0 2 ≠ 3 → bit sel 15 = false → exec (.histRead sel) s =
      .next (answer s (.bytes (bvToBytes 64 (historyEntry s (fieldN sel 0 2) (fieldN sel 2 13))))))
  ∧ (∀ s v, hostUp s = true →
      exec (.retest v) s = .next (queueHistory { s with pwr := { s.pwr with retest := v } } (.retest v)))

/-! ### Time -/

/-- Ticks compare by the modular half-range rule; a carried tick is more than 2^39 ticks ahead exactly when it is not valid,
the checks of WAIT_TIME and of deadlines reject exactly such ticks, and a valid one that lies in the past has been reached
(R422). -/
def Obligations.TicksCompareByHalfRange : Prop :=
  (∀ a b : Tick, (later a b = true ↔ 0 < (a.toNat + 2 ^ 40 - b.toNat) % 2 ^ 40
        ∧ (a.toNat + 2 ^ 40 - b.toNat) % 2 ^ 40 < 2 ^ 39)
      ∧ (reached a b = true ↔ (a.toNat + 2 ^ 40 - b.toNat) % 2 ^ 40 < 2 ^ 39))
  ∧ (∀ v now : Tick, validTick v now = true ↔ (v.toNat + 2 ^ 40 - now.toNat) % 2 ^ 40 < 2 ^ 39
      ∨ (now.toNat + 2 ^ 40 - v.toNat) % 2 ^ 40 ≤ 2 ^ 38)
  ∧ (∀ v now : Tick, validTick v now = true → later v now = true ∨ reached now v = true)
  ∧ (∀ v now : Tick, validTick v now = true → later now v = true →
      reached now v = true ∧ (now.toNat + 2 ^ 40 - v.toNat) % 2 ^ 40 ≤ 2 ^ 38)
  ∧ (∀ n : Nat, n ≤ 2 ^ 38 → ∀ now : Tick, validTick (now - BitVec.ofNat 40 n) now = true
      ∧ reached now (now - BitVec.ofNat 40 n) = true)
  ∧ (∀ now d, (Status.illegalDescriptor, 16) ∈ fetchWaitTime now d ↔ validTick (waitTick d) now = false)
  ∧ (∀ s r d y, (Status.illegalDescriptor, 8) ∈ headerChecks s r d y ↔
      deadlineOf d ≠ 0 ∧ validTick (deadlineOf d) s.time.now = false)

/-- The timeline: on an empty queue a step is one tick of the reference, which advances the timeline by one while no offset is
slewed, and what only time brings to its end (the model's choice, log entry 2); pulses, samples in units of a tick, holdover, which
every source has, the reference, the host's messages, and the messages of a master port (R415, R417, R418, R419, R421, R481, R488). -/
def Obligations.TimelineRowsComplete : Prop :=
  (∀ s, s.pending = [] → step s = .next (idle s))
  ∧ (∀ s, idle s = memberPost (retryRcfg (settlePower (tick s))))
  ∧ (∀ s, isMember s = false → s.glb.rcfgWaits = false → (∀ d < 8, goingOff (pwrDieOf s d) = false) → s.pwr.stage ≠ 1 →
      s.time.slew = 0 → idle s = tick s)
  ∧ (∀ s, s.time.slew = 0 → absTick (tick s) = absTick s + 1 ∧ (tick s).time.cameFrom = s.time.now ∧ (tick s).cmds = s.cmds
      ∧ (tick s).host = s.host ∧ (tick s).hbm = s.hbm ∧ (tick s).err = s.err ∧ (tick s).hq = s.hq)
  ∧ (∀ s n t, t = { s with time := { s.time with
        pps := s.time.pps.filter (fun t => decide (since s.time.now t < 2097152)) ++ [s.time.now] } } →
      (ppsEn s = false → exec (.tbPpsEdge n) s = .next t)
      ∧ (ppsEn s = true → timeSource s ≠ 0 → exec (.tbPpsEdge n) s = .next
        (sample t ((absTick s : Int) - (n * 1048576 : Nat)) 1 (((absTick s : Int) - (n * 1048576 : Nat)) * 1000000000 / 1048576)))
      ∧ (ppsEn s = true → timeSource s = 0 → exec (.tbPpsEdge n) s = .next
        (sample t ((absTick s : Int) - ((absTick s + 524288) / 1048576 * 1048576 : Nat)) 1
          (((absTick s : Int) - ((absTick s + 524288) / 1048576 * 1048576 : Nat)) * 1000000000 / 1048576))))
  ∧ (∀ s num (den : Nat) ns, 0 < den → s.time.sampled = true → -16 * (den : Int) ≤ num → num ≤ 16 * (den : Int) →
      sample s num den ns = { s with time := { s.time with
        goodSamples := min 8 (s.time.goodSamples + 1), locked := decide (8 ≤ min 8 (s.time.goodSamples + 1)), holdover := false
        offsetNs := satNs ns, exchange := none, slew := (-num) / (den : Int), lastSample := s.time.now } })
  ∧ (∀ s num (den : Nat) ns, 0 < den → s.time.sampled = true → num < -16 * (den : Int) → -16384 * (den : Int) < num →
      sample s num den ns = { s with time := { s.time with
        goodSamples := 0, locked := false, holdover := false
        offsetNs := satNs ns, exchange := none, slew := (-num) / (den : Int), lastSample := s.time.now } })
  ∧ (∀ s num (den : Nat) ns t, s.time.sampled = true → num ≤ -16384 * (den : Int) → 0 < den → bit s.time.cfg 5 = true →
      t = stepTimeline { s with time := { s.time with
        goodSamples := 0, locked := false, holdover := false, offsetNs := satNs ns, exchange := none } } ((-num) / (den : Int)) →
      sample s num den ns = { t with time := { t.time with lastSample := t.time.now } })
  ∧ (∀ s, ppsOk s = true ↔ (∃ t ∈ s.time.pps, since s.time.now t < 1048576)
      ∧ (∃ t ∈ s.time.pps, 1048576 ≤ since s.time.now t ∧ since s.time.now t < 2097152))
  ∧ (∀ s, (∀ t ∈ s.time.pps, 1048576 ≤ since s.time.now t) →
      exec .ppsOkLost s = .next { s with time := { s.time with pps := [] } })
  ∧ (∀ s b, exec (.tbRefChange b) s = .next { s with time := { s.time with refOk := b } })
  ∧ (∀ s, s.time.holdover = false → 4194304 ≤ since s.time.now s.time.lastSample →
      exec .timeHoldover s = .next (logEvent { s with time := { s.time with holdover := true } } evHoldover 0
        (s.time.offsetNs.signExtend 64) 0))
  ∧ (∀ s (len : BitVec 7), hostUp s = true → isMember s = false → 34 ≤ len.toNat → len.toNat ≤ 64 → timeSource s = 1 →
      exec (.timeRxGo len) s = .next (slaveMsg s .host (padTo 64 ((bvToBytes 64 s.time.rxData).take len.toNat)) len.toNat
        (fineNow s)))
  ∧ (∀ s (len : BitVec 7), hostUp s = true → isMember s = false → len.toNat < 34 ∨ 64 < len.toNat →
      exec (.timeRxGo len) s = .next (logIgnored s 0x20020 (BitVec.ofNat 64 len.toNat)))
  ∧ (∀ s (p : PortIx) t, masterPort s p.val = true → sendDue s 16 (portOf s p.val).syncAt = true →
      t = { modPort s p.val (fun q => { q with syncAt := some s.time.now }) with
        time := { s.time with syncSeq := s.time.syncSeq + 1 } } →
      exec (.ptpSyncSend p) s =
        .next (sendTime t p.val (portOf s p.val).partnerId (syncMsg t (p.val + 1) (s.time.syncSeq + 1))))
  ∧ (∀ s (p : PortIx) t, masterPort s p.val = true → sendDue s 20 (portOf s p.val).announceAt = true →
      t = { modPort s p.val (fun q => { q with announceAt := some s.time.now }) with
        time := { s.time with announceSeq := s.time.announceSeq + 1 } } →
      exec (.ptpAnnounceSend p) s =
        .next (sendTime t p.val (portOf s p.val).partnerId (announceMsg t (p.val + 1) (s.time.announceSeq + 1))))

/-! ### Zweve ports -/

/-- A port on its way to Active and back: MAX_WIDTH is taken at Detect, the lock sends the NEG, a good NEG makes the port
Active and a bad one fails the attempt, attempts that last too long fail, a Down port tries again, and an Active port that
retrains keeps what it holds. Without a cable a port that is not further than Detect is OFF, and an enabled one that gets a cable begins
(R3, R277, R278, R279, R280, R315, R487). -/
def Obligations.PortTrainingRowsComplete : Prop :=
  (∀ s (p : PortIx), cableSeated s p.val = true → (portOf s p.val).stage = .detect → portPowered s p.val = true →
      (portOf s p.val).retraining = false →
      exec (.portDetect ⟨p, true⟩) s = .next (setPort s p.val { portOf s p.val with
        stage := .train, limit := (portOf s p.val).maxWidth, stageStart := s.time.now }))
  ∧ (∀ s (p : PortIx) t, t = { s with pwr := { s.pwr with cables := setField s.pwr.cables p.val 1 0 } } →
      (portOf s p.val).retraining = false →
      ((portOf s p.val).stage = .detect → exec (.portDetect ⟨p, false⟩) s = .next (stageOff t p.val))
      ∧ ((portOf s p.val).stage ≠ .detect → exec (.portDetect ⟨p, false⟩) s = .next t))
  ∧ (∀ s p, (portOf s p).stage = .off → (portOf s p).enable = true → cableSeated s p = false → portPowered s p = true →
      p < 16 → seatCable s p true =
        toDetect { s with pwr := { s.pwr with cables := setField s.pwr.cables p 1 1 } } p)
  ∧ (∀ s p, cableSeated s p = false → beginPort s p = s)
  ∧ (∀ s (p : PortIx) lanes t, (portOf s p.val).stage = .train →
      t = setPort s p.val { portOf s p.val with
        stage := .negotiate, lanes := lanes, laneOrder := [], rxLanes := [], txFlits := [], txWords := 0, unlocked := 0 } →
      exec (.portTrainDone p lanes) s = .next (modPort t p.val (fun q => putFlits q
        (makeFlit 0 q.rxSeq false false 0 (packetSlots (msgPacket t 0 0 0 0 (bvToBytes 64 (negData t p.val))))
          :: List.replicate 4 (idleFlit q.rxSeq false)))))
  ∧ (∀ s (p : PortIx) x, (portOf s p.val).stage = .negotiate → negOk s x = true → (portOf s p.val).retraining = false →
      negWidth (portOf s p.val) ((portOf s p.val).lanes &&& field x 32 4) ≠ 0 →
      exec (.neg p x) s = .next (memberPost (becomeActive s p.val x
        (negWidth (portOf s p.val) ((portOf s p.val).lanes &&& field x 32 4)) ((portOf s p.val).lanes &&& field x 32 4))))
  ∧ (∀ s (p : PortIx) x, (portOf s p.val).stage = .negotiate → negOk s x = true → (portOf s p.val).retraining = false →
      negWidth (portOf s p.val) ((portOf s p.val).lanes &&& field x 32 4) = 0 →
      exec (.neg p x) s = .next (goDown (showPartner s p.val x ((portOf s p.val).lanes &&& field x 32 4)) p.val 0))
  ∧ (∀ s (p : PortIx) x, (portOf s p.val).stage = .negotiate → negOk s x = false →
      exec (.neg p x) s = .next (failAttempt (occur s (eventRec s evNegFailed (p.val / 2) false none (field x 0 64)
        (field x 64 64) (field x 128 64) (field x 192 64)) true) p.val))
  ∧ (∀ s (p : PortIx), (portOf s p.val).stage = .train ∨ (portOf s p.val).stage = .negotiate
        ∨ ((portOf s p.val).stage = .detect ∧ 0 < (portOf s p.val).retries) →
      (portOf s p.val).retraining = false → 524288 ≤ since s.time.now (portOf s p.val).stageStart →
      exec (.portTrainLimit p) s = .next (failAttempt s p.val))
  ∧ (∀ s p, (portOf s p).retries < 3 → (portOf s p).retraining = false → cableSeated s p = true →
      failAttempt s p = setPort s p { portOf s p with
        retries := (portOf s p).retries + 1, stage := .detect, lanesOk := 0, stageStart := s.time.now })
  ∧ (∀ s p, (portOf s p).retries < 3 → (portOf s p).retraining = false → cableSeated s p = false → failAttempt s p = stageOff s p)
  ∧ (∀ s p, 3 ≤ (portOf s p).retries → (portOf s p).retraining = false → failAttempt s p = goDown s p 0)
  ∧ (∀ s (p : PortIx), (portOf s p.val).stage = .down → (portOf s p.val).enable = true → portPowered s p.val = true →
      cableSeated s p.val = true → 1048576 ≤ since s.time.now (portOf s p.val).stageStart →
      exec (.portDownRetry p) s = .next (modPort (toDetect s p.val) p.val (fun q => { q with retries := 3 })))
  ∧ (∀ s (p : PortIx), (portOf s p.val).stage = .active ∨ (portOf s p.val).stage = .draining →
      exec (.portRetrain p) s = .next (bumpPort (setPort s p.val { portOf s p.val with
        stage := .detect, stageStart := s.time.now, retraining := true, retries := 0, width := 0, uncorrected := 0
        idleReplays := 0, lanesOk := 0, rxLanes := [], rxFlits := [] }) p.val cntRetrain))
  ∧ (∀ s (p : PortIx), (portOf s p.val).retraining = true → 524288 ≤ since s.time.now (portOf s p.val).stageStart →
      exec (.portRetrainLimit p) s = .next (goDown s p.val 1))

/-- Codewords, flits and packets at a port that carries them, its enable, and the windows of its NAK count and quarantine: a word
is decoded, counted where symbols were corrected, and its flits take their place by its marker; five flits leave as one codeword
on the lane whose turn it is, and with it go the event timestamps of the TIME packets in it. An OFF port that is enabled begins Detect
where it has power and a cable (R3, R274, R275, R281, R282, R283, R305, R306, R307, R313, R487). -/
def Obligations.PortTrafficRowsComplete : Prop :=
  (∀ s (p : PortIx) lane w m n, linkUp (portOf s p.val) = true ∨ (portOf s p.val).stage = .negotiate →
      fecDecode w = some (m, n) →
      exec (.codewordReceive p lane w) s =
        .next (takeCodeword (if n = 0 then s else bumpPort s p.val cntFecCorr) p.val lane.val m))
  ∧ (∀ s (p : PortIx) lane w, linkUp (portOf s p.val) = true ∨ (portOf s p.val).stage = .negotiate → fecDecode w = none →
      exec (.codewordReceive p lane w) s = .next (dropCodeword s p.val lane.val))
  ∧ (∀ s p lane m j, markerLane m = some j → takeCodeword s p lane m = modPort s p (fun q =>
      laneFlits s.time.now j (flitsOf m) { q with laneOrder := smSet none q.laneOrder lane (some j), unlocked := 0 }))
  ∧ (∀ t fs q, linkUp q = true → q.width = 1 → q.rxLanes = [] →
      (laneFlits t 0 fs q).rxFlits = q.rxFlits ++ fs.map (fun f => (t, f)) ∧ (laneFlits t 0 fs q).rxLanes = [])
  ∧ (∀ s p lane, linkUp (portOf s p) = true → smGet none (portOf s p).laneOrder lane = none →
      (portOf s p).uncorrectedIn ≠ s.time.now.toNat / 1024 →
      dropCodeword s p lane = askReplay (modPort (bumpPort s p cntFecUncorr) p (fun q => { q with
        uncorrected := 1, uncorrectedIn := s.time.now.toNat / 1024 })) p)
  ∧ (∀ s (p : PortIx) t f rest u, (portOf s p.val).rxFlits = (t, f) :: rest → linkUp (portOf s p.val) = true →
      u = setPort s p.val { portOf s p.val with rxFlits := rest } →
      (flitCrc f ≠ field f 96 32 → exec (.flitReceive p) s = .next (askReplay (bumpPort u p.val cntCrc) p.val))
      ∧ (flitCrc f = field f 96 32 → bit f 25 = true → exec (.flitReceive p) s = .next (takeControl u p.val f))
      ∧ (flitCrc f = field f 96 32 → bit f 25 = false → field f 0 12 ≠ (portOf s p.val).rxSeq + 1 →
        exec (.flitReceive p) s = .next (askReplay u p.val))
      ∧ (flitCrc f = field f 96 32 → bit f 25 = false → field f 0 12 = (portOf s p.val).rxSeq + 1 →
        exec (.flitReceive p) s = .next (takeSlots t (flitSlots f) (takeControl (takeCredits (bumpPort
          (modPort u p.val (fun q => { q with rxSeq := q.rxSeq + 1, nakDue := false, nakSent := false })) p.val cntFlitRx)
          p.val f) p.val f) p.val)))
  ∧ (∀ s (p : PortIx), linkUp (portOf s p.val) = true → exec (.packetTransmit p) s = .next (transmit s p.val))
  ∧ (∀ s p t, (portOf s p).resync = true → t = modPort s p (fun q =>
      putFlits { q with nakDue := false } [makeFlit 0 q.rxSeq q.nakDue true 0 []]) → transmitNext s p = t
        ∧ ((portOf t p).resync = true → transmit s p = t))
  ∧ (∀ s p, transmit s p = settleTimes (transmitNext s p) p)
  ∧ (∀ s p, (portOf s p).timesOut = [] → (portOf (settleTimes s p) p) = portOf s p ∧ (settleTimes s p).time = s.time)
  ∧ (∀ s p x, (portOf s p).timesOut = [x] → flitWaits (portOf s p) x.1 = true →
      (portOf (settleTimes s p) p) = portOf s p ∧ (settleTimes s p).time = s.time)
  ∧ (∀ s p x, (portOf s p).timesOut = [x] → flitWaits (portOf s p) x.1 = false → (portOf s p).retraining = false →
      (portOf s p).resync = false →
      settleTimes s p = timeSent (setPort s p { portOf s p with timesOut := [] }) p x.2)
  ∧ (∀ q f a b c e, q.txFlits = [a, b, c, e] → (putFlits q [f]).txFlits = []
      ∧ (putFlits q [f]).wire = q.wire ++ [(q.txWords % max 1 q.width.toNat,
        fecEncode (codewordOf (q.txWords % max 1 q.width.toNat) (q.txWords / max 1 q.width.toNat) [a, b, c, e, f]))])
  ∧ (∀ s (p : PortIx), SetupOpen s → (portOf s p.val).stage = .active →
      exec (.portDisable p) s = .next (setPort s p.val { portOf s p.val with
        enable := false, enableHeld := false, stage := .draining }))
  ∧ (∀ s (p : PortIx), SetupOpen s → (portOf s p.val).enable = false → (portOf s p.val).stage = .draining →
      exec (.portEnable p) s = .next (setPort s p.val { portOf s p.val with enable := true, enableHeld := true }))
  ∧ (∀ s (p : PortIx), SetupOpen s → (portOf s p.val).enable = false → (portOf s p.val).stage = .off →
      (portOf s p.val).retraining = false → portPowered s p.val = true → cableSeated s p.val = true →
      exec (.portEnable p) s = .next (toDetect (setPort s p.val { portOf s p.val with enable := true }) p.val))
  ∧ (∀ s (p : PortIx), SetupOpen s → (portOf s p.val).enable = false → (portOf s p.val).stage = .off →
      (portOf s p.val).retraining = false → cableSeated s p.val = false →
      exec (.portEnable p) s = .next (setPort s p.val { portOf s p.val with enable := true }))
  ∧ (∀ s (p : PortIx), SetupOpen s → (portOf s p.val).stage = .detect → (portOf s p.val).retraining = false →
      (portOf s p.val).enable = true → (portOf s p.val).enableHeld = false →
      exec (.portDisable p) s = .next (stageOff (setPort s p.val { portOf s p.val with enable := false }) p.val))
  ∧ (∀ s (p : PortIx) t u, (portOf s p.val).quarUntil = some t → reached s.time.now t = true →
      u = logEvent (modPort s p.val (fun q => { q with quarUntil := none, quarAnswer := none })) evQuarEnd (p.val / 2)
        (BitVec.ofNat 64 p.val) 0 →
      exec (.quarantineEnd p) s = .next (if nakLimit u ≤ (portOf u p.val).nakCount then startQuarantine u p.val else u))
  ∧ (∀ s (p : PortIx), AtTick s (nakWindow s) (portOf s p.val).nakBegan →
      exec (.nakWindowEnd p) s = .next (modPort s p.val (fun q => { q with nakCount := 0, nakBegan := s.time.now })))
  ∧ (∀ s (p : PortIx), ¬ AtTick s (nakWindow s) (portOf s p.val).nakBegan → exec (.nakWindowEnd p) s = .next s)

/-- SEQ and ACK compare by the half-range rule over 12 bits; a payload flit stays in the replay buffer until an ACK covers it,
and no new payload flit is sent while 1,024 are unacknowledged (R282). -/
def Obligations.ReplayHoldsUntilAcknowledged : Prop :=
  (∀ a x : BitVec 12, covers a x = true ↔ (a.toNat + 4096 - x.toNat) % 4096 < 2048)
  ∧ (∀ s p a, ∀ e, e ∈ (portOf (takeAck s p a) p).replay ↔ e ∈ (portOf s p).replay ∧ covers a e.1 = false)
  ∧ (∀ s p tag x, ∃ f, (portOf (sendFlits tag [x] s p) p).replay
      = (portOf s p).replay ++ [((portOf s p).txSeq, f, tag)]
      ∧ (portOf (sendFlits tag [x] s p) p).wire = (putFlits (portOf s p) [f]).wire
      ∧ (portOf (sendFlits tag [x] s p) p).txFlits = (putFlits (portOf s p) [f]).txFlits)
  ∧ (∀ s p, 1024 ≤ (portOf s p).replay.length →
      (portOf (transmit s p) p).replay = (portOf s p).replay ∧ (portOf (transmit s p) p).txSeq = (portOf s p).txSeq)

/-! ### Packets, requests and members -/

/-- The packet that is first at a port and of a row's type is performed when it is for this module and moved on or refused
when it is not; RD answers the stored bytes, a write answers OK after it is performed, an ATOMIC answers the old value, and a
request that the window check refuses answers ACCESS_DENIED. A write touches the scratch memory of collectives that run, and no other
command (R284, R289, R293, R296, R303, R309, R310, R321, R436). -/
def Obligations.PacketRowsComplete : Prop :=
  (∀ s (p : PortIx) k u,
      (takePacket s p.val (fun k => k.type == 1) = some (k, u) → exec (.rd p) s =
        .next (if k.dst = u.zw.id then takeRd u k else forwardPacket u p.val k))
      ∧ (takePacket s p.val (fun k => k.type == 2) = some (k, u) → exec (.wr p) s =
        .next (if k.dst = u.zw.id then takeWr u k else forwardPacket u p.val k))
      ∧ (takePacket s p.val (fun k => k.type == 3) = some (k, u) → exec (.wrm p) s =
        .next (if k.dst = u.zw.id then takeWrm u k else forwardPacket u p.val k))
      ∧ (takePacket s p.val (fun k => k.type == 4) = some (k, u) → exec (.atomic p) s =
        .next (if k.dst = u.zw.id then takeAtomic u k else forwardPacket u p.val k))
      ∧ (takePacket s p.val (fun k => k.type == 8) = some (k, u) → exec (.rsp p) s =
        .next (if k.dst = u.zw.id then takeRsp p.val u k else forwardPacket u p.val k))
      ∧ (takePacket s p.val (fun k => k.type == 9) = some (k, u) → exec (.nak p) s =
        .next (if k.dst = u.zw.id then takeRefusal p.val u k else forwardPacket u p.val k))
      ∧ (takePacket s p.val (isMsg 1) = some (k, u) → exec (.desc p) s =
        .next (if k.dst = u.zw.id then takeDesc p.val u k else forwardPacket u p.val k))
      ∧ (takePacket s p.val (isMsg 2) = some (k, u) → exec (.completion p) s =
        .next (if k.dst = u.zw.id then takeCompletion p.val u k else forwardPacket u p.val k))
      ∧ (takePacket s p.val (isMsg 3) = some (k, u) → exec (.configRd p) s =
        .next (if k.dst = u.zw.id then takeConfigRd u k else forwardPacket u p.val k))
      ∧ (takePacket s p.val (isMsg 4) = some (k, u) → exec (.configWr p) s =
        .next (if k.dst = u.zw.id then takeConfigWr u k else forwardPacket u p.val k))
      ∧ (takePacket s p.val (isMsg 5) = some (k, u) → exec (.error p) s =
        .next (if k.dst = u.zw.id then takeError u k else forwardPacket u p.val k))
      ∧ (takePacket s p.val (isMsg 6) = some (k, u) → exec (.time p) s =
        .next (if k.dst = u.zw.id then timePacket u p.val k else forwardPacket u p.val k)))
  ∧ (∀ s p k, k.hops = 0 → forwardPacket s p k = refuse s p k 2)
  ∧ (∀ s p k o, k.hops ≠ 0 → routePort s k.dst.toNat k.tc.toNat (k.tag.toNat / 8192) = some o →
      forwardPacket s p k = txPush s o { k with hops := k.hops - 1 })
  ∧ (∀ s k n bs t, lenBytes k.len = some n → requestRefused s .rd k.src.toNat k.key (packetAddr k) n = none →
      reqRead (sectorSpans (packetAddr k) n) s = (.ok bs, t) → takeRd s k = sendRsp t k .ok bs)
  ∧ (∀ s k t, requestRefused s .wr k.src.toNat k.key (packetAddr k) k.data.length = none →
      reqWrite (sectorSpans (packetAddr k) k.data.length) k.data (BitVec.allOnes 256) (packetTouch k k.data.length s)
        = (.ok (), t) →
      takeWr s k = sendRsp t k .ok [])
  ∧ (∀ s k t, requestRefused s .wr k.src.toNat k.key (packetAddr k) k.data.length = none →
      reqWrite (sectorSpans (packetAddr k) k.data.length) k.data (k.mask.zeroExtend 256) (packetTouch k k.data.length s)
        = (.ok (), t) →
      takeWrm s k = sendRsp t k .ok [])
  ∧ (∀ s k n, (∀ c ∈ allCmds s, liveCollective c = false) → packetTouch k n s = s)
  ∧ (∀ s k old t, requestRefused s .atom k.src.toNat k.key (packetAddr k) 8 = none →
      atomicLocal (packetTouch k 8 s) none (packetAddr k) (atomicOf k.op) (bytesToBv 64 (k.data.take 8))
        (bytesToBv 64 ((k.data.drop 8).take 8)) = (.ok old, t) →
      takeAtomic s k = sendRsp t k .ok (bvToBytes 8 old ++ List.replicate 8 0))
  ∧ (∀ s k w, requestRefused s .rd k.src.toNat k.key (packetAddr k) ((lenBytes k.len).getD 0) = some (.window w) →
      takeRd s k = sendRsp s k .accessDenied [])
  ∧ (∀ s k b m, (sendRsp s k b m).hbm = s.hbm ∧ (sendRsp s k b m).host = s.host ∧ (sendRsp s k b m).cmds = s.cmds
      ∧ (sendRsp s k b m).err = s.err ∧ (sendRsp s k b m).hq = s.hq)

/-- What time does to requests that wait, and the accesses of an anchor to its members: an overdue request fails and keeps its
tag, which is free after twice the timeout; a member that holds commands is probed once a timeout and lost when the probe goes unanswered;
the quiet period ends; a silent anchor's commands are ended, with a record each; GO sends a configuration access, which fails where its
entry names no member that can be reached, and waits for a tag where none is free (the model's choice, log entry 9); a write that meets
BUSY or selects no entry is ignored and logged (R298, R310, R311, R428, R478). -/
def Obligations.RequestRowsComplete : Prop :=
  (∀ s (d : DieIx) (tag : BitVec 13) r, findRequest s d.val tag.toNat = some r → r.late = false → overdue s r 1 = true →
      r.kind = .read ∨ r.kind = .write ∨ r.kind = .atomic ∨ r.kind = .signal →
      exec (.requestTimeout d tag) s = .next (timeoutRequest s r))
  ∧ (∀ s (d : DieIx) (tag : BitVec 13) r, findRequest s d.val tag.toNat = some r → r.late = true → overdue s r 2 = true →
      s.cmds = [] → s.kids = [] → isMember s = false →
      exec (.tagReuseTimeout d tag) s = .next (dropRequest s r))
  ∧ (∀ s u r, s.zw.requests.find? (fun r => r.cmd == some u && r.kind == .desc && !r.late && overdue s r 1) = some r →
      exec (.descTimeout u) s = .next (timeoutRequest s r))
  ∧ (∀ s r, s.zw.requests.find? (fun r => r.kind == .rcfg && !r.late && overdue s r 1) = some r →
      exec .remoteConfigTimeout s = .next (timeoutRequest s r))
  ∧ (∀ s (i : Fin 64) r, s.zw.requests.find? (fun r =>
        r.kind == .probe && !r.late && r.dst == (memberOf s i.val).id && overdue s r 1) = some r →
      exec (.memberProbeTimeout i) s = .next (timeoutRequest s r))
  ∧ (∀ s r, r.kind = .rcfg → s.cmds = [] → s.kids = [] → isMember s = false → timeoutRequest s r =
      endRcfg (modRequest s r (fun x => { x with late := true })) .fabricTimeout none)
  ∧ (∀ s (i : Fin 64) c t, isMember s = false → c ∈ s.cmds → c.phase = .forwarded → c.module.toNat = i.val →
      s.zw.requests = [] → (memberOf s i.val).quietUntil = none → probeDue s (memberOf s i.val) = true →
      sendConfig s .probe false (memberOf s i.val).id 0 0 = some (some t) →
      exec (.memberProbe i) s =
        .next (setMember t i.val { memberOf t i.val with probeSent := some s.time.now, lastProbe := some s.time.now }))
  ∧ (∀ s (i : Fin 64) t, (memberOf s i.val).quietUntil = some t → reached s.time.now t = true →
      exec (.quietPeriodEnd i) s = .next (setMember s i.val { memberOf s i.val with quietUntil := none }))
  ∧ (∀ s, isMember s = true → 4 * timeoutTicks s < since s.time.now s.zw.anchorHeard → (∀ c ∈ s.cmds, c.origin = none) →
      exec .anchorSilence s = .next s)
  ∧ (∀ s c, isMember s = true → 4 * timeoutTicks s < since s.time.now s.zw.anchorHeard → s.cmds = [c] → c.origin ≠ none →
      c.phase = .issued → exec .anchorSilence s = .next (abortCmd (logAborted s c.uid) c))
  ∧ (∀ s c, isMember s = true → 4 * timeoutTicks s < since s.time.now s.zw.anchorHeard → s.cmds = [c] → c.origin ≠ none →
      c.phase = .started → codecOp (opcodeOf c.desc) = true ∨ groupsRunning s c.uid = true →
      exec .anchorSilence s = .next (modCmd s c.uid (fun c => { c with aborting := true, orphan := true })))
  ∧ (∀ s (v : W64), SetupOpen s → exec (.remoteConfigGo v) s =
      .next (writeRcfg s (v ||| 0x80000000) (BitVec.allOnes 64) 0x40))
  ∧ (∀ s (v : W64) off, fieldN v 0 6 = 0 → writeRcfg s v (BitVec.allOnes 64) off = logIgnored s off v)
  ∧ (∀ s (v : W64) off, rcfgBusy s = true → writeRcfg s v (BitVec.allOnes 64) off = logIgnored s off v)
  ∧ (∀ s (v : W64) off t, rcfgBusy s = false → fieldN v 0 6 ≠ 0 → bit v 31 = true → isMember s = false →
      t = { s with glb := { s.glb with
        rcfgCtrl := (s.glb.rcfgCtrl &&& ~~~(0x7FFFFF3F : W64)) ||| (v &&& 0x7FFFFF3F), rcfgWrite := bit v 30 } } →
      writeRcfg s v (BitVec.allOnes 64) off = startRcfg t)
  ∧ (∀ s, (memberOf s (fieldN s.glb.rcfgCtrl 0 6)).valid = false ∨ (memberOf s (fieldN s.glb.rcfgCtrl 0 6)).quietUntil ≠ none →
      startRcfg s = endRcfg s .fabricUnreachable none)
  ∧ (∀ s, (memberOf s (fieldN s.glb.rcfgCtrl 0 6)).valid = true → (memberOf s (fieldN s.glb.rcfgCtrl 0 6)).quietUntil = none →
      freeForwardTag s = none → startRcfg s = { s with glb := { s.glb with rcfgWaits := true } })

/-! ### The host's port -/

/-- BAR4 and BAR0 of a module that answers: a read delivers what HBM holds, a write stores it and is a breach where it meets a running
collective's scratch memory, what lies outside, at a member
or on a fenced channel is refused, and a write before READY is ignored and logged (log entry 82); BAR4 takes a new size, and its BASE becomes 0 where it no longer fits; errors of the
port are recorded; a register access reads or writes its register, and one below the reset stage changes nothing
(R312, R321, R360, R361, R362, R466, R471, R472, R479). -/
def Obligations.HostPortRowsComplete : Prop :=
  (∀ s (o : BitVec 41) n bs t, barReachable s 0 = true → o.toNat + n ≤ 2 ^ s.io.bar4Log2 → isMember s = false →
      bar4Refused s (s.hq.bar4Base.toNat + o.toNat) n = none →
      reqRead (sectorSpans (s.hq.bar4Base.toNat + o.toNat) n) s = (.ok bs, t) →
      exec (.bar4Read o n) s = .next (answer t (.bytes bs)))
  ∧ (∀ s (o : BitVec 41) n x, barReachable s 0 = true → o.toNat + n ≤ 2 ^ s.io.bar4Log2 → isMember s = false →
      bar4Refused s (s.hq.bar4Base.toNat + o.toNat) n = some x →
      exec (.bar4Read o n) s = .next (answer (refuseBar4 s o.toNat false x) .completerAbort))
  ∧ (∀ s (o : BitVec 41) n, barReachable s 0 = true → o.toNat + n ≤ 2 ^ s.io.bar4Log2 → isMember s = true →
      exec (.bar4Read o n) s = .next (answer s .completerAbort))
  ∧ (∀ s (o : BitVec 41) bs, barReachable s 0 = true → o.toNat + bs.length ≤ 2 ^ s.io.bar4Log2 → isMember s = false →
      s.pwr.stage = 5 → bar4Refused s (s.hq.bar4Base.toNat + o.toNat) bs.length = none →
      exec (.bar4Write o bs) s =
        .next (bar4Spans (sectorSpans (s.hq.bar4Base.toNat + o.toNat) bs.length) bs
          (touchScratch s.nextUid (s.zw.id.toNat * 2 ^ 52 + (s.hq.bar4Base.toNat + o.toNat)) bs.length s)))
  ∧ (∀ s u a n, (∀ c ∈ allCmds s, scratchHit a n c = false) → touchScratch u a n s = s)
  ∧ (∀ s (o : BitVec 41) bs, barReachable s 0 = true → o.toNat + bs.length ≤ 2 ^ s.io.bar4Log2 → isMember s = false →
      s.pwr.stage ≠ 5 → exec (.bar4Write o bs) s = .next (refuseBar4 s o.toNat true .outside))
  ∧ (∀ s (o : BitVec 41) bs x, barReachable s 0 = true → o.toNat + bs.length ≤ 2 ^ s.io.bar4Log2 → isMember s = false →
      s.pwr.stage = 5 →
      bar4Refused s (s.hq.bar4Base.toNat + o.toNat) bs.length = some x →
      exec (.bar4Write o bs) s = .next (refuseBar4 s o.toNat true x))
  ∧ (∀ s (l : Fin 12), hostUp s = true → s.hq.bar4Base.toNat % 2 ^ (30 + l.val) = 0 →
      exec (.bar4Resize l) s = .next { s with io := { s.io with bar4Log2 := 30 + l.val } })
  ∧ (∀ s (l : Fin 12), hostUp s = true → s.hq.bar4Base.toNat % 2 ^ (30 + l.val) ≠ 0 →
      exec (.bar4Resize l) s = .next (logEvent { s with
        io := { s.io with bar4Log2 := 30 + l.val }, hq := { s.hq with bar4Base := 0 } } evBar4BaseCleared 0
        (s.hq.bar4Base.zeroExtend 64) (BitVec.ofNat 64 (2 ^ (30 + l.val)))))
  ∧ (∀ s e, barReachable s 0 = true → exec (.pcieError e) s = .next (occur { s with io := { s.io with aer := some e } }
      (eventRec s (evAer e.uncorrectable) 0 false none e.status e.header0 e.header1 0) true))
  ∧ (∀ s (f : FuncIx) off size v, barReachable s f.val = true →
      exec (.registerWrite f off size v) s = .next (registerWrite s (.own f.val) off size v)
      ∧ exec (.registerLowRead f off size) s =
        .next (answer (registerRead s f.val off size).2 (.value (registerRead s f.val off size).1)))
  ∧ (∀ s (f : FuncIx) off size v, barReachable s f.val = false →
      exec (.registerWrite f off size v) s = .next s ∧ exec (.registerLowRead f off size) s = .next s)
  ∧ (∀ s (v : W64), isMember s = false → v.toNat % 64 = 0 →
      registerWrite s (.own 0) 0x20018 8 v = { s with time := { s.time with txAddr := v } }
      ∧ (registerRead (registerWrite s (.own 0) 0x20018 8 v) 0 0x20018 8).1 = v)
  ∧ (∀ s (v : W64), isMember s = false → v.toNat % 64 ≠ 0 →
      registerWrite s (.own 0) 0x20018 8 v = logIgnored s 0x20018 v)

/-! ### Arithmetic of the matrix unit -/

/-- The flags of the exact and MX paths: what sets them, how they combine, and what leaves the accumulator; an exact zero
leaves as +0 (R45, R46). -/
def Obligations.AccumulatorFlags : Prop :=
  (∀ (a : Acc) (x y : Val), x = .nan ∨ y = .nan → a.step x y = { a with nan := true })
  ∧ (∀ (a : Acc) n neg e, Acc.step a (.inf n) (.fin neg 0 e) = { a with nan := true }
      ∧ Acc.step a (.fin neg 0 e) (.inf n) = { a with nan := true })
  ∧ (∀ (a : Acc) n neg m e, m ≠ 0 →
      Acc.step a (.inf n) (.fin neg m e) = (if n = neg then { a with pinf := true } else { a with ninf := true })
      ∧ Acc.step a (.fin neg m e) (.inf n) = (if n = neg then { a with pinf := true } else { a with ninf := true }))
  ∧ (∀ p a b, (combine p a b).nan = (a.nan || b.nan) ∧ (combine p a b).pinf = (a.pinf || b.pinf)
      ∧ (combine p a b).ninf = (a.ninf || b.ninf))
  ∧ (∀ p a, p ≠ .ordered →
      (a.nan = true ∨ (a.pinf = true ∧ a.ninf = true) → (leave p a).1 = .nan)
      ∧ (a.nan = false → a.pinf = true → a.ninf = false → (leave p a).1 = .inf false)
      ∧ (a.nan = false → a.pinf = false → a.ninf = true → (leave p a).1 = .inf true)
      ∧ (a.nan = false → a.pinf = false → a.ninf = false → ∀ n m e, a.v = .fin n m e → m ≠ 0 →
        (leave p a).1 = .fin n m e)
      ∧ (a.nan = false → a.pinf = false → a.ninf = false → ∀ n e, a.v = .fin n 0 e → (leave p a).1 = .fin false 0 0))

/-- On the exact path the accumulator holds the exact sum of the products of finite operands, in any order, over any number of
them, and segments combine without rounding (R42, R47, R48). -/
def Obligations.ExactPathHoldsTheExactSum : Prop :=
  (∀ xs : List (Val × Val), (∀ x ∈ xs, isFinite x.1 = true ∧ isFinite x.2 = true) →
      isFinite (segmentFrom .exact (Acc.start .exact) xs).v = true
      ∧ (segmentFrom .exact (Acc.start .exact) xs).nan = false
      ∧ exactVal (segmentFrom .exact (Acc.start .exact) xs).v = (xs.map (fun x => exactVal x.1 * exactVal x.2)).sum)
  ∧ (∀ a b : List Val, (∀ x ∈ a, isFinite x = true) → (∀ x ∈ b, isFinite x = true) →
      exactVal (product .exact a b).v = ((a.zip b).map (fun x => exactVal x.1 * exactVal x.2)).sum)

/-! ### The block as a whole -/

/-- A step takes the command at the front of the queue and performs it on the module with the queue's rest. -/
def Obligations.StepRunsTheFrontCommand : Prop :=
  ∀ s c rest, s.pending = c :: rest → step s = exec c { s with pending := rest }

/-- No command touches the queue of waiting commands. -/
def Obligations.CommandsLeaveTheQueue : Prop :=
  ∀ c s t, exec c s = .next t → t.pending = s.pending

/-- A command stops only where the input voltage lies beyond the operating range, of which no behaviour is specified; every other
command answers a next state (R493). -/
def Obligations.StopsOnlyBeyondRatings : Prop :=
  (∀ s x, 60000 < returnMv x → exec (.coldReset x) s = .fault .beyondRatings)
  ∧ (∀ s r, 60000 < r.inputMv → exec (.governorEpoch r) s = .fault .beyondRatings)
  ∧ (∀ c s, (∀ x, c = .coldReset x → returnMv x ≤ 60000) → (∀ r, c = .governorEpoch r → r.inputMv ≤ 60000) →
      ∃ t, exec c s = .next t)

/-- Every step keeps host memory and HBM in their canonical form: rising addresses, and no entry that equals what an unlisted
address reads as; so equal memories are equal data. -/
def Obligations.EveryStepKeepsMemoryCanonical : Prop :=
  ∀ s t, smWf 0 s.host = true → smWf Sector.dflt s.hbm = true → step s = .next t →
    smWf 0 t.host = true ∧ smWf Sector.dflt t.hbm = true

/-- Memory has its canonical form at reset. -/
def Obligations.ResetMemoryIsCanonical : Prop :=
  smWf 0 State.reset.host = true ∧ smWf Sector.dflt State.reset.hbm = true
end

