-- ==== Sys2Proof/Laws/CmdM.lean ====
section
/-!
SUPPORT. What each step of a command's run answers and leaves, so that no proof unfolds the monad.
-/
namespace Sys2Proof.Laws

open Sys2Proof Sys2Proof.Machine

variable {α β : Type}

/-- A run from a state: its result and the state it leaves. -/
theorem cmd_pure (a : α) (s : State) : (pure a : CmdM α).run.run s = (.ok a, s) := rfl

theorem cmd_throw (e : Stop) (s : State) : (throw e : CmdM α).run.run s = (.error e, s) := rfl

theorem cmd_get (s : State) : (get : CmdM State).run.run s = (.ok s, s) := rfl

theorem cmd_set (t s : State) : (set t : CmdM PUnit).run.run s = (.ok ⟨⟩, t) := rfl

theorem cmd_modify (f : State → State) (s : State) : (modify f : CmdM PUnit).run.run s = (.ok ⟨⟩, f s) := rfl

/-- A sequence that goes on. -/
theorem cmd_bind_ok {m : CmdM α} {f : α → CmdM β} {s t : State} {a : α} (h : m.run.run s = (.ok a, t)) :
    (m >>= f).run.run s = (f a).run.run t := by
  show (ExceptT.bindCont f (m.run.run s).1).run (m.run.run s).2 = _
  rw [h]
  rfl

/-- A sequence that stops. -/
theorem cmd_bind_error {m : CmdM α} {f : α → CmdM β} {s t : State} {e : Stop} (h : m.run.run s = (.error e, t)) :
    (m >>= f).run.run s = (.error e, t) := by
  show (ExceptT.bindCont f (m.run.run s).1).run (m.run.run s).2 = _
  rw [h]
  rfl

/-- Reading the state first. -/
theorem cmd_get_bind (f : State → CmdM β) (s : State) : (get >>= f).run.run s = (f s).run.run s := rfl

/-- Changing the state first. -/
theorem cmd_modify_bind (g : State → State) (f : PUnit → CmdM β) (s : State) :
    (modify g >>= f).run.run s = (f ⟨⟩).run.run (g s) := rfl

theorem cmd_set_bind (t : State) (f : PUnit → CmdM β) (s : State) : (set t >>= f).run.run s = (f ⟨⟩).run.run t := rfl

/-- How a sequence ended well. -/
theorem cmd_bind_ok_inv {m : CmdM α} {f : α → CmdM β} {s t : State} {b : β} (h : (m >>= f).run.run s = (.ok b, t)) :
    ∃ a r, m.run.run s = (.ok a, r) ∧ (f a).run.run r = (.ok b, t) := by
  rcases hm : m.run.run s with ⟨x, r⟩
  cases x with
  | ok a => exact ⟨a, r, rfl, by rw [cmd_bind_ok hm] at h; exact h⟩
  | error e => rw [cmd_bind_error hm] at h; cases h

end Sys2Proof.Laws
end

