-- ==== Sys2Proof/Laws/SMap.lean ====
section
/-!
SUPPORT. Sparse maps: reading after writing, and the canonical form that every operation keeps.
-/
namespace Sys2Proof.Laws

open Sys2Proof Sys2Proof.Machine

variable {α : Type} [DecidableEq α] {d : α}

/-- Writing one key leaves what every other key reads as. -/
theorem smGet_smSet_ne (m : SMap α) {k j : Nat} (v : α) (h : j ≠ k) : smGet d (smSet d m k v) j = smGet d m j := by
  induction m with
  | nil => by_cases hv : v = d <;> simp [smSet, smGet, hv, h]
  | cons x m ih =>
    obtain ⟨i, w⟩ := x
    unfold smSet
    split
    · split
      · subst_vars; simp [smGet, h, ih]
      · simp only [smGet, ih]
    · split
      · simp [smGet, h]
      · split
        · subst_vars; simp [smGet, h]
        · simp only [smGet, ih]

/-- A written key reads as what was written. -/
theorem smGet_smSet_self (m : SMap α) (k : Nat) (v : α) : smGet d (smSet d m k v) k = v := by
  induction m with
  | nil => by_cases hv : v = d <;> simp [smSet, smGet, hv]
  | cons x m ih =>
    obtain ⟨i, w⟩ := x
    unfold smSet
    split
    · split
      · exact ih
      · rename_i hne; simp only [smGet, hne, if_false, ih]
    · split
      · simp [smGet]
      · split
        · simp [smGet]
        · rename_i hne; simp only [smGet, hne, if_false, ih]

/-- Reading any key after a write. -/
theorem smGet_smSet (m : SMap α) (k j : Nat) (v : α) :
    smGet d (smSet d m k v) j = if j = k then v else smGet d m j := by
  by_cases h : j = k
  · subst h; simp [smGet_smSet_self]
  · simp [smGet_smSet_ne m v h, h]

/-- A second write of a key replaces the first, where the first is listed. -/
theorem smSet_smSet (m : SMap α) (k : Nat) {v : α} (hv : v ≠ d) (w : α) : smSet d (smSet d m k v) k w = smSet d m k w := by
  induction m with
  | nil => by_cases hw : w = d <;> simp [smSet, hv, hw]
  | cons x m ih =>
    obtain ⟨i, u⟩ := x
    by_cases hw : w = d
    · by_cases h1 : k < i
      · have h2 : k ≠ i := by omega
        simp [smSet, hv, hw, h1, h2]
      · by_cases h2 : k = i
        · simp [smSet, hv, hw, h2]
        · simp [smSet, hv, hw, h1, h2] at ih ⊢
          exact ih
    · by_cases h1 : k < i
      · simp [smSet, hv, hw, h1]
      · by_cases h2 : k = i
        · simp [smSet, hv, hw, h2]
        · simp [smSet, hv, hw, h1, h2, ih]

/-- The canonical form of a list with a head. -/
theorem smWfFrom_cons {lo : Option Nat} {k : Nat} {v : α} {m : SMap α} :
    smWfFrom d lo ((k, v) :: m) = true ↔ (∀ l, lo = some l → l < k) ∧ v ≠ d ∧ smWfFrom d (some k) m = true := by
  cases lo <;> simp [smWfFrom, and_assoc]

/-- A lower bound may be lowered. -/
theorem smWfFrom_weaken {lo lo' : Option Nat} {m : SMap α}
    (h : ∀ k, (∀ l, lo = some l → l < k) → ∀ l, lo' = some l → l < k) (w : smWfFrom d lo m = true) :
    smWfFrom d lo' m = true := by
  cases m with
  | nil => rfl
  | cons x m =>
    obtain ⟨k, v⟩ := x
    rw [smWfFrom_cons] at w ⊢
    exact ⟨h k w.1, w.2⟩

/-- A canonical tail is canonical below the head's own bound. -/
theorem smWfFrom_tail {lo : Option Nat} {i : Nat} {m : SMap α} (h : ∀ l, lo = some l → l < i)
    (w : smWfFrom d (some i) m = true) : smWfFrom d lo m = true :=
  smWfFrom_weaken (fun _ hk l hl => Nat.lt_trans (h l hl) (hk i rfl)) w

/-- Keys at or below the lower bound of a canonical map read as the default. -/
theorem smGet_below {l : Nat} {m : SMap α} (w : smWfFrom d (some l) m = true) {k : Nat} (h : k ≤ l) : smGet d m k = d := by
  induction m generalizing l with
  | nil => rfl
  | cons x m ih =>
    obtain ⟨i, v⟩ := x
    rw [smWfFrom_cons] at w
    have hl : l < i := w.1 l rfl
    have : k ≠ i := by omega
    simp only [smGet, this, if_false]
    exact ih w.2.2 (by omega)

/-- Deleting a key above the bound keeps the canonical form below it. -/
theorem smWfFrom_delete {lo : Option Nat} {m : SMap α} (w : smWfFrom d lo m = true) (k : Nat) :
    smWfFrom d lo (smSet d m k d) = true := by
  induction m generalizing lo with
  | nil => simp [smSet, smWfFrom]
  | cons x m ih =>
    obtain ⟨i, u⟩ := x
    rw [smWfFrom_cons] at w
    unfold smSet
    rw [if_pos rfl]
    split
    · exact smWfFrom_tail w.1 (ih w.2.2)
    · exact smWfFrom_cons.2 ⟨w.1, w.2.1, ih w.2.2⟩

theorem smWfFrom_smSet {lo : Option Nat} {m : SMap α} (w : smWfFrom d lo m = true) {k : Nat} (v : α)
    (hk : ∀ l, lo = some l → l < k) : smWfFrom d lo (smSet d m k v) = true := by
  by_cases hd : v = d
  · subst hd; exact smWfFrom_delete w k
  induction m generalizing lo with
  | nil =>
    unfold smSet
    rw [if_neg hd]
    exact smWfFrom_cons.2 ⟨hk, hd, rfl⟩
  | cons x m ih =>
    obtain ⟨i, u⟩ := x
    rw [smWfFrom_cons] at w
    unfold smSet
    rw [if_neg hd]
    split
    · rename_i hlt
      exact smWfFrom_cons.2 ⟨hk, hd, smWfFrom_cons.2 ⟨fun l hl => by cases hl; exact hlt, w.2⟩⟩
    · split
      · rename_i hnlt heq
        exact smWfFrom_cons.2 ⟨hk, hd, heq ▸ w.2.2⟩
      · rename_i hnlt hne
        exact smWfFrom_cons.2 ⟨w.1, w.2.1, ih w.2.2 (fun l hl => by cases hl; omega)⟩

/-- Writing keeps the canonical form. -/
theorem smWf_smSet {m : SMap α} (w : smWf d m = true) (k : Nat) (v : α) : smWf d (smSet d m k v) = true :=
  smWfFrom_smSet w v (by intro l hl; cases hl)

theorem smWfFrom_filter {lo : Option Nat} {m : SMap α} (p : Nat × α → Bool) (w : smWfFrom d lo m = true) :
    smWfFrom d lo (m.filter p) = true := by
  induction m generalizing lo with
  | nil => rfl
  | cons x m ih =>
    obtain ⟨i, u⟩ := x
    rw [smWfFrom_cons] at w
    simp only [List.filter_cons]
    split
    · exact smWfFrom_cons.2 ⟨w.1, w.2.1, ih w.2.2⟩
    · exact ih (smWfFrom_tail w.1 w.2.2)

/-- Dropping entries keeps the canonical form. -/
theorem smWf_smKeep {m : SMap α} (p : Nat → Bool) (w : smWf d m = true) : smWf d (smKeep p m) = true :=
  smWfFrom_filter _ w

theorem smWfFrom_smMap {lo : Option Nat} {m : SMap α} (p : Nat → Bool) (f : α → α) (w : smWfFrom d lo m = true) :
    smWfFrom d lo (smMap d p f m) = true := by
  induction m generalizing lo with
  | nil => rfl
  | cons x m ih =>
    obtain ⟨i, u⟩ := x
    rw [smWfFrom_cons] at w
    have step := ih w.2.2
    simp only [smMap, List.map_cons, List.filter_cons]
    by_cases hd : (if p i then f u else u) = d
    · rw [if_neg (by simpa using hd)]
      exact smWfFrom_tail w.1 step
    · rw [if_pos (by simpa using hd)]
      exact smWfFrom_cons.2 ⟨w.1, hd, step⟩

/-- Changing values and dropping those that become the default gives a canonical form. -/
theorem smWf_smMap {m : SMap α} (p : Nat → Bool) (f : α → α) (w : smWf d m = true) : smWf d (smMap d p f m) = true :=
  smWfFrom_smMap p f w

/-- Writing bytes keeps the canonical form. -/
theorem smWf_putBytes (bs : List Byte) {m : SMap Byte} (w : smWf 0 m = true) (a : Nat) : smWf 0 (putBytes m a bs) = true := by
  induction bs generalizing m a with
  | nil => exact w
  | cons b bs ih => exact ih (smWf_smSet w a b) (a + 1)

/-- What a byte reads as after a write of bytes. -/
theorem smGet_putBytes (bs : List Byte) (m : SMap Byte) (a b : Nat) :
    smGet 0 (putBytes m a bs) b = if a ≤ b ∧ b < a + bs.length then bs.getD (b - a) 0 else smGet 0 m b := by
  induction bs generalizing m a with
  | nil =>
    have : ¬ (a ≤ b ∧ b < a + ([] : List Byte).length) := by simp only [List.length_nil]; omega
    rw [if_neg this]; rfl
  | cons x bs ih =>
    rw [putBytes, ih _ (a + 1)]
    by_cases hb : b = a
    · subst hb
      have h1 : ¬ (b + 1 ≤ b ∧ b < b + 1 + bs.length) := by omega
      have h2 : b ≤ b ∧ b < b + (x :: bs).length := by simp only [List.length_cons]; omega
      rw [if_neg h1, if_pos h2, smGet_smSet_self, Nat.sub_self, List.getD_cons_zero]
    · rw [smGet_smSet_ne m x hb]
      by_cases h : a + 1 ≤ b ∧ b < a + 1 + bs.length
      · have h2 : a ≤ b ∧ b < a + (x :: bs).length := by simp only [List.length_cons]; omega
        rw [if_pos h, if_pos h2]
        obtain ⟨n, hn⟩ : ∃ n, b - a = n + 1 := ⟨b - a - 1, by omega⟩
        have hn' : b - (a + 1) = n := by omega
        rw [hn, hn', List.getD_cons_succ]
      · have h2 : ¬ (a ≤ b ∧ b < a + (x :: bs).length) := by simp only [List.length_cons]; omega
        rw [if_neg h, if_neg h2]

/-! ### Host memory -/

/-- A host write keeps host memory canonical. -/
theorem hostWrite_wf {s : State} (w : smWf 0 s.host = true) (a : Nat) (bs : List Byte) :
    smWf 0 (hostWrite s a bs).host = true := smWf_putBytes bs w a

/-- Every byte of host memory after a write. -/
theorem hostWrite_byte (s : State) (a : Nat) (bs : List Byte) (b : Nat) :
    smGet 0 (hostWrite s a bs).host b = if a ≤ b ∧ b < a + bs.length then bs.getD (b - a) 0 else smGet 0 s.host b :=
  smGet_putBytes bs s.host a b

/-! ### Sectors -/

/-- A stored sector reads back, and every other sector is as before. -/
theorem sectorOf_setSector (s : State) (d c i : Nat) (v : Sector) :
    sectorOf (setSector s d c i v) d c i = v := smGet_smSet_self _ _ v

theorem sectorOf_setSector_ne (s : State) {d c i d' c' i' : Nat} (v : Sector)
    (h : sectorKey d' c' i' ≠ sectorKey d c i) : sectorOf (setSector s d c i v) d' c' i' = sectorOf s d' c' i' :=
  smGet_smSet_ne _ v h

/-- Storing a sector keeps HBM canonical. -/
theorem setSector_wf {s : State} (w : smWf Sector.dflt s.hbm = true) (d c i : Nat) (v : Sector) :
    smWf Sector.dflt (setSector s d c i v).hbm = true := smWf_smSet w _ v

end Sys2Proof.Laws
end

