-- ==== Sys2Proof/Laws/State.lean ====
section
/-!
SUPPORT. What every named update leaves of every field of State, and what it puts into the part it replaces.
-/
namespace Sys2Proof.Laws

open Sys2Proof Sys2Proof.Machine

variable (s : State)

/-! ### setDie -/

@[simp] theorem setDie_pending (d : Nat) (v : DieBlock) : (setDie s d v).pending = s.pending := rfl
@[simp] theorem setDie_freeCount (d : Nat) (v : DieBlock) : (setDie s d v).freeCount = s.freeCount := rfl
@[simp] theorem setDie_nextUid (d : Nat) (v : DieBlock) : (setDie s d v).nextUid = s.nextUid := rfl
@[simp] theorem setDie_nextGroup (d : Nat) (v : DieBlock) : (setDie s d v).nextGroup = s.nextGroup := rfl
@[simp] theorem setDie_host (d : Nat) (v : DieBlock) : (setDie s d v).host = s.host := rfl
@[simp] theorem setDie_hbm (d : Nat) (v : DieBlock) : (setDie s d v).hbm = s.hbm := rfl
@[simp] theorem setDie_glb (d : Nat) (v : DieBlock) : (setDie s d v).glb = s.glb := rfl
@[simp] theorem setDie_pwr (d : Nat) (v : DieBlock) : (setDie s d v).pwr = s.pwr := rfl
@[simp] theorem setDie_time (d : Nat) (v : DieBlock) : (setDie s d v).time = s.time := rfl
@[simp] theorem setDie_hq (d : Nat) (v : DieBlock) : (setDie s d v).hq = s.hq := rfl
@[simp] theorem setDie_cmds (d : Nat) (v : DieBlock) : (setDie s d v).cmds = s.cmds := rfl
@[simp] theorem setDie_kids (d : Nat) (v : DieBlock) : (setDie s d v).kids = s.kids := rfl
@[simp] theorem setDie_part (d : Nat) (v : DieBlock) : (setDie s d v).part = s.part := rfl
@[simp] theorem setDie_spool (d : Nat) (v : DieBlock) : (setDie s d v).spool = s.spool := rfl
@[simp] theorem setDie_err (d : Nat) (v : DieBlock) : (setDie s d v).err = s.err := rfl
@[simp] theorem setDie_flash (d : Nat) (v : DieBlock) : (setDie s d v).flash = s.flash := rfl
@[simp] theorem setDie_zw (d : Nat) (v : DieBlock) : (setDie s d v).zw = s.zw := rfl
@[simp] theorem setDie_codecSel (d : Nat) (v : DieBlock) : (setDie s d v).codecSel = s.codecSel := rfl
@[simp] theorem setDie_codecs (d : Nat) (v : DieBlock) : (setDie s d v).codecs = s.codecs := rfl
@[simp] theorem setDie_clusters (d : Nat) (v : DieBlock) : (setDie s d v).clusters = s.clusters := rfl
@[simp] theorem setDie_chans (d : Nat) (v : DieBlock) : (setDie s d v).chans = s.chans := rfl
@[simp] theorem setDie_groups (d : Nat) (v : DieBlock) : (setDie s d v).groups = s.groups := rfl
@[simp] theorem setDie_scratchNamed (d : Nat) (v : DieBlock) : (setDie s d v).scratchNamed = s.scratchNamed := rfl
@[simp] theorem setDie_io (d : Nat) (v : DieBlock) : (setDie s d v).io = s.io := rfl

/-! ### setCluster -/

@[simp] theorem setCluster_pending (d k : Nat) (v : Cluster) : (setCluster s d k v).pending = s.pending := rfl
@[simp] theorem setCluster_freeCount (d k : Nat) (v : Cluster) : (setCluster s d k v).freeCount = s.freeCount := rfl
@[simp] theorem setCluster_nextUid (d k : Nat) (v : Cluster) : (setCluster s d k v).nextUid = s.nextUid := rfl
@[simp] theorem setCluster_nextGroup (d k : Nat) (v : Cluster) : (setCluster s d k v).nextGroup = s.nextGroup := rfl
@[simp] theorem setCluster_host (d k : Nat) (v : Cluster) : (setCluster s d k v).host = s.host := rfl
@[simp] theorem setCluster_hbm (d k : Nat) (v : Cluster) : (setCluster s d k v).hbm = s.hbm := rfl
@[simp] theorem setCluster_glb (d k : Nat) (v : Cluster) : (setCluster s d k v).glb = s.glb := rfl
@[simp] theorem setCluster_pwr (d k : Nat) (v : Cluster) : (setCluster s d k v).pwr = s.pwr := rfl
@[simp] theorem setCluster_time (d k : Nat) (v : Cluster) : (setCluster s d k v).time = s.time := rfl
@[simp] theorem setCluster_hq (d k : Nat) (v : Cluster) : (setCluster s d k v).hq = s.hq := rfl
@[simp] theorem setCluster_cmds (d k : Nat) (v : Cluster) : (setCluster s d k v).cmds = s.cmds := rfl
@[simp] theorem setCluster_kids (d k : Nat) (v : Cluster) : (setCluster s d k v).kids = s.kids := rfl
@[simp] theorem setCluster_part (d k : Nat) (v : Cluster) : (setCluster s d k v).part = s.part := rfl
@[simp] theorem setCluster_spool (d k : Nat) (v : Cluster) : (setCluster s d k v).spool = s.spool := rfl
@[simp] theorem setCluster_err (d k : Nat) (v : Cluster) : (setCluster s d k v).err = s.err := rfl
@[simp] theorem setCluster_flash (d k : Nat) (v : Cluster) : (setCluster s d k v).flash = s.flash := rfl
@[simp] theorem setCluster_zw (d k : Nat) (v : Cluster) : (setCluster s d k v).zw = s.zw := rfl
@[simp] theorem setCluster_codecSel (d k : Nat) (v : Cluster) : (setCluster s d k v).codecSel = s.codecSel := rfl
@[simp] theorem setCluster_codecs (d k : Nat) (v : Cluster) : (setCluster s d k v).codecs = s.codecs := rfl
@[simp] theorem setCluster_dies (d k : Nat) (v : Cluster) : (setCluster s d k v).dies = s.dies := rfl
@[simp] theorem setCluster_chans (d k : Nat) (v : Cluster) : (setCluster s d k v).chans = s.chans := rfl
@[simp] theorem setCluster_groups (d k : Nat) (v : Cluster) : (setCluster s d k v).groups = s.groups := rfl
@[simp] theorem setCluster_scratchNamed (d k : Nat) (v : Cluster) : (setCluster s d k v).scratchNamed = s.scratchNamed := rfl
@[simp] theorem setCluster_io (d k : Nat) (v : Cluster) : (setCluster s d k v).io = s.io := rfl

/-! ### setChan -/

@[simp] theorem setChan_pending (d c : Nat) (v : Chan) : (setChan s d c v).pending = s.pending := rfl
@[simp] theorem setChan_freeCount (d c : Nat) (v : Chan) : (setChan s d c v).freeCount = s.freeCount := rfl
@[simp] theorem setChan_nextUid (d c : Nat) (v : Chan) : (setChan s d c v).nextUid = s.nextUid := rfl
@[simp] theorem setChan_nextGroup (d c : Nat) (v : Chan) : (setChan s d c v).nextGroup = s.nextGroup := rfl
@[simp] theorem setChan_host (d c : Nat) (v : Chan) : (setChan s d c v).host = s.host := rfl
@[simp] theorem setChan_hbm (d c : Nat) (v : Chan) : (setChan s d c v).hbm = s.hbm := rfl
@[simp] theorem setChan_glb (d c : Nat) (v : Chan) : (setChan s d c v).glb = s.glb := rfl
@[simp] theorem setChan_pwr (d c : Nat) (v : Chan) : (setChan s d c v).pwr = s.pwr := rfl
@[simp] theorem setChan_time (d c : Nat) (v : Chan) : (setChan s d c v).time = s.time := rfl
@[simp] theorem setChan_hq (d c : Nat) (v : Chan) : (setChan s d c v).hq = s.hq := rfl
@[simp] theorem setChan_cmds (d c : Nat) (v : Chan) : (setChan s d c v).cmds = s.cmds := rfl
@[simp] theorem setChan_kids (d c : Nat) (v : Chan) : (setChan s d c v).kids = s.kids := rfl
@[simp] theorem setChan_part (d c : Nat) (v : Chan) : (setChan s d c v).part = s.part := rfl
@[simp] theorem setChan_spool (d c : Nat) (v : Chan) : (setChan s d c v).spool = s.spool := rfl
@[simp] theorem setChan_err (d c : Nat) (v : Chan) : (setChan s d c v).err = s.err := rfl
@[simp] theorem setChan_flash (d c : Nat) (v : Chan) : (setChan s d c v).flash = s.flash := rfl
@[simp] theorem setChan_zw (d c : Nat) (v : Chan) : (setChan s d c v).zw = s.zw := rfl
@[simp] theorem setChan_codecSel (d c : Nat) (v : Chan) : (setChan s d c v).codecSel = s.codecSel := rfl
@[simp] theorem setChan_codecs (d c : Nat) (v : Chan) : (setChan s d c v).codecs = s.codecs := rfl
@[simp] theorem setChan_dies (d c : Nat) (v : Chan) : (setChan s d c v).dies = s.dies := rfl
@[simp] theorem setChan_clusters (d c : Nat) (v : Chan) : (setChan s d c v).clusters = s.clusters := rfl
@[simp] theorem setChan_groups (d c : Nat) (v : Chan) : (setChan s d c v).groups = s.groups := rfl
@[simp] theorem setChan_scratchNamed (d c : Nat) (v : Chan) : (setChan s d c v).scratchNamed = s.scratchNamed := rfl
@[simp] theorem setChan_io (d c : Nat) (v : Chan) : (setChan s d c v).io = s.io := rfl

/-! ### setRing -/

@[simp] theorem setRing_pending (r : Nat) (v : Ring) : (setRing s r v).pending = s.pending := rfl
@[simp] theorem setRing_freeCount (r : Nat) (v : Ring) : (setRing s r v).freeCount = s.freeCount := rfl
@[simp] theorem setRing_nextUid (r : Nat) (v : Ring) : (setRing s r v).nextUid = s.nextUid := rfl
@[simp] theorem setRing_nextGroup (r : Nat) (v : Ring) : (setRing s r v).nextGroup = s.nextGroup := rfl
@[simp] theorem setRing_host (r : Nat) (v : Ring) : (setRing s r v).host = s.host := rfl
@[simp] theorem setRing_hbm (r : Nat) (v : Ring) : (setRing s r v).hbm = s.hbm := rfl
@[simp] theorem setRing_glb (r : Nat) (v : Ring) : (setRing s r v).glb = s.glb := rfl
@[simp] theorem setRing_pwr (r : Nat) (v : Ring) : (setRing s r v).pwr = s.pwr := rfl
@[simp] theorem setRing_time (r : Nat) (v : Ring) : (setRing s r v).time = s.time := rfl
@[simp] theorem setRing_cmds (r : Nat) (v : Ring) : (setRing s r v).cmds = s.cmds := rfl
@[simp] theorem setRing_kids (r : Nat) (v : Ring) : (setRing s r v).kids = s.kids := rfl
@[simp] theorem setRing_part (r : Nat) (v : Ring) : (setRing s r v).part = s.part := rfl
@[simp] theorem setRing_spool (r : Nat) (v : Ring) : (setRing s r v).spool = s.spool := rfl
@[simp] theorem setRing_err (r : Nat) (v : Ring) : (setRing s r v).err = s.err := rfl
@[simp] theorem setRing_flash (r : Nat) (v : Ring) : (setRing s r v).flash = s.flash := rfl
@[simp] theorem setRing_zw (r : Nat) (v : Ring) : (setRing s r v).zw = s.zw := rfl
@[simp] theorem setRing_codecSel (r : Nat) (v : Ring) : (setRing s r v).codecSel = s.codecSel := rfl
@[simp] theorem setRing_codecs (r : Nat) (v : Ring) : (setRing s r v).codecs = s.codecs := rfl
@[simp] theorem setRing_dies (r : Nat) (v : Ring) : (setRing s r v).dies = s.dies := rfl
@[simp] theorem setRing_clusters (r : Nat) (v : Ring) : (setRing s r v).clusters = s.clusters := rfl
@[simp] theorem setRing_chans (r : Nat) (v : Ring) : (setRing s r v).chans = s.chans := rfl
@[simp] theorem setRing_groups (r : Nat) (v : Ring) : (setRing s r v).groups = s.groups := rfl
@[simp] theorem setRing_scratchNamed (r : Nat) (v : Ring) : (setRing s r v).scratchNamed = s.scratchNamed := rfl
@[simp] theorem setRing_io (r : Nat) (v : Ring) : (setRing s r v).io = s.io := rfl
@[simp] theorem setRing_hq_ringSel (r : Nat) (v : Ring) : (setRing s r v).hq.ringSel = s.hq.ringSel := rfl
@[simp] theorem setRing_hq_stage (r : Nat) (v : Ring) : (setRing s r v).hq.stage = s.hq.stage := rfl
@[simp] theorem setRing_hq_vfStage (r : Nat) (v : Ring) : (setRing s r v).hq.vfStage = s.hq.vfStage := rfl
@[simp] theorem setRing_hq_vfs (r : Nat) (v : Ring) : (setRing s r v).hq.vfs = s.hq.vfs := rfl
@[simp] theorem setRing_hq_bar4Base (r : Nat) (v : Ring) : (setRing s r v).hq.bar4Base = s.hq.bar4Base := rfl
@[simp] theorem setRing_hq_cntWakeIgnored (r : Nat) (v : Ring) : (setRing s r v).hq.cntWakeIgnored = s.hq.cntWakeIgnored := rfl
@[simp] theorem setRing_hq_cntFlrDiscard (r : Nat) (v : Ring) : (setRing s r v).hq.cntFlrDiscard = s.hq.cntFlrDiscard := rfl
@[simp] theorem setRing_hq_msixMasked (r : Nat) (v : Ring) : (setRing s r v).hq.msixMasked = s.hq.msixMasked := rfl
@[simp] theorem setRing_hq_msixEntries (r : Nat) (v : Ring) : (setRing s r v).hq.msixEntries = s.hq.msixEntries := rfl
@[simp] theorem setRing_hq_msixPending (r : Nat) (v : Ring) : (setRing s r v).hq.msixPending = s.hq.msixPending := rfl

/-! ### setVf -/

@[simp] theorem setVf_pending (f : Nat) (v : VfState) : (setVf s f v).pending = s.pending := rfl
@[simp] theorem setVf_freeCount (f : Nat) (v : VfState) : (setVf s f v).freeCount = s.freeCount := rfl
@[simp] theorem setVf_nextUid (f : Nat) (v : VfState) : (setVf s f v).nextUid = s.nextUid := rfl
@[simp] theorem setVf_nextGroup (f : Nat) (v : VfState) : (setVf s f v).nextGroup = s.nextGroup := rfl
@[simp] theorem setVf_host (f : Nat) (v : VfState) : (setVf s f v).host = s.host := rfl
@[simp] theorem setVf_hbm (f : Nat) (v : VfState) : (setVf s f v).hbm = s.hbm := rfl
@[simp] theorem setVf_glb (f : Nat) (v : VfState) : (setVf s f v).glb = s.glb := rfl
@[simp] theorem setVf_pwr (f : Nat) (v : VfState) : (setVf s f v).pwr = s.pwr := rfl
@[simp] theorem setVf_time (f : Nat) (v : VfState) : (setVf s f v).time = s.time := rfl
@[simp] theorem setVf_cmds (f : Nat) (v : VfState) : (setVf s f v).cmds = s.cmds := rfl
@[simp] theorem setVf_kids (f : Nat) (v : VfState) : (setVf s f v).kids = s.kids := rfl
@[simp] theorem setVf_part (f : Nat) (v : VfState) : (setVf s f v).part = s.part := rfl
@[simp] theorem setVf_spool (f : Nat) (v : VfState) : (setVf s f v).spool = s.spool := rfl
@[simp] theorem setVf_err (f : Nat) (v : VfState) : (setVf s f v).err = s.err := rfl
@[simp] theorem setVf_flash (f : Nat) (v : VfState) : (setVf s f v).flash = s.flash := rfl
@[simp] theorem setVf_zw (f : Nat) (v : VfState) : (setVf s f v).zw = s.zw := rfl
@[simp] theorem setVf_codecSel (f : Nat) (v : VfState) : (setVf s f v).codecSel = s.codecSel := rfl
@[simp] theorem setVf_codecs (f : Nat) (v : VfState) : (setVf s f v).codecs = s.codecs := rfl
@[simp] theorem setVf_dies (f : Nat) (v : VfState) : (setVf s f v).dies = s.dies := rfl
@[simp] theorem setVf_clusters (f : Nat) (v : VfState) : (setVf s f v).clusters = s.clusters := rfl
@[simp] theorem setVf_chans (f : Nat) (v : VfState) : (setVf s f v).chans = s.chans := rfl
@[simp] theorem setVf_groups (f : Nat) (v : VfState) : (setVf s f v).groups = s.groups := rfl
@[simp] theorem setVf_scratchNamed (f : Nat) (v : VfState) : (setVf s f v).scratchNamed = s.scratchNamed := rfl
@[simp] theorem setVf_io (f : Nat) (v : VfState) : (setVf s f v).io = s.io := rfl
@[simp] theorem setVf_hq_ringSel (f : Nat) (v : VfState) : (setVf s f v).hq.ringSel = s.hq.ringSel := rfl
@[simp] theorem setVf_hq_stage (f : Nat) (v : VfState) : (setVf s f v).hq.stage = s.hq.stage := rfl
@[simp] theorem setVf_hq_vfStage (f : Nat) (v : VfState) : (setVf s f v).hq.vfStage = s.hq.vfStage := rfl
@[simp] theorem setVf_hq_rings (f : Nat) (v : VfState) : (setVf s f v).hq.rings = s.hq.rings := rfl
@[simp] theorem setVf_hq_bar4Base (f : Nat) (v : VfState) : (setVf s f v).hq.bar4Base = s.hq.bar4Base := rfl
@[simp] theorem setVf_hq_cntWakeIgnored (f : Nat) (v : VfState) : (setVf s f v).hq.cntWakeIgnored = s.hq.cntWakeIgnored := rfl
@[simp] theorem setVf_hq_cntFlrDiscard (f : Nat) (v : VfState) : (setVf s f v).hq.cntFlrDiscard = s.hq.cntFlrDiscard := rfl
@[simp] theorem setVf_hq_msixMasked (f : Nat) (v : VfState) : (setVf s f v).hq.msixMasked = s.hq.msixMasked := rfl
@[simp] theorem setVf_hq_msixEntries (f : Nat) (v : VfState) : (setVf s f v).hq.msixEntries = s.hq.msixEntries := rfl
@[simp] theorem setVf_hq_msixPending (f : Nat) (v : VfState) : (setVf s f v).hq.msixPending = s.hq.msixPending := rfl

/-! ### setPart -/

@[simp] theorem setPart_pending (p : Nat) (v : Partition) : (setPart s p v).pending = s.pending := rfl
@[simp] theorem setPart_freeCount (p : Nat) (v : Partition) : (setPart s p v).freeCount = s.freeCount := rfl
@[simp] theorem setPart_nextUid (p : Nat) (v : Partition) : (setPart s p v).nextUid = s.nextUid := rfl
@[simp] theorem setPart_nextGroup (p : Nat) (v : Partition) : (setPart s p v).nextGroup = s.nextGroup := rfl
@[simp] theorem setPart_host (p : Nat) (v : Partition) : (setPart s p v).host = s.host := rfl
@[simp] theorem setPart_hbm (p : Nat) (v : Partition) : (setPart s p v).hbm = s.hbm := rfl
@[simp] theorem setPart_glb (p : Nat) (v : Partition) : (setPart s p v).glb = s.glb := rfl
@[simp] theorem setPart_pwr (p : Nat) (v : Partition) : (setPart s p v).pwr = s.pwr := rfl
@[simp] theorem setPart_time (p : Nat) (v : Partition) : (setPart s p v).time = s.time := rfl
@[simp] theorem setPart_hq (p : Nat) (v : Partition) : (setPart s p v).hq = s.hq := rfl
@[simp] theorem setPart_cmds (p : Nat) (v : Partition) : (setPart s p v).cmds = s.cmds := rfl
@[simp] theorem setPart_kids (p : Nat) (v : Partition) : (setPart s p v).kids = s.kids := rfl
@[simp] theorem setPart_spool (p : Nat) (v : Partition) : (setPart s p v).spool = s.spool := rfl
@[simp] theorem setPart_err (p : Nat) (v : Partition) : (setPart s p v).err = s.err := rfl
@[simp] theorem setPart_flash (p : Nat) (v : Partition) : (setPart s p v).flash = s.flash := rfl
@[simp] theorem setPart_zw (p : Nat) (v : Partition) : (setPart s p v).zw = s.zw := rfl
@[simp] theorem setPart_codecSel (p : Nat) (v : Partition) : (setPart s p v).codecSel = s.codecSel := rfl
@[simp] theorem setPart_codecs (p : Nat) (v : Partition) : (setPart s p v).codecs = s.codecs := rfl
@[simp] theorem setPart_dies (p : Nat) (v : Partition) : (setPart s p v).dies = s.dies := rfl
@[simp] theorem setPart_clusters (p : Nat) (v : Partition) : (setPart s p v).clusters = s.clusters := rfl
@[simp] theorem setPart_chans (p : Nat) (v : Partition) : (setPart s p v).chans = s.chans := rfl
@[simp] theorem setPart_groups (p : Nat) (v : Partition) : (setPart s p v).groups = s.groups := rfl
@[simp] theorem setPart_scratchNamed (p : Nat) (v : Partition) : (setPart s p v).scratchNamed = s.scratchNamed := rfl
@[simp] theorem setPart_io (p : Nat) (v : Partition) : (setPart s p v).io = s.io := rfl
@[simp] theorem setPart_part_mode (p : Nat) (v : Partition) : (setPart s p v).part.mode = s.part.mode := rfl
@[simp] theorem setPart_part_sel (p : Nat) (v : Partition) : (setPart s p v).part.sel = s.part.sel := rfl
@[simp] theorem setPart_part_ctxBase (p : Nat) (v : Partition) : (setPart s p v).part.ctxBase = s.part.ctxBase := rfl
@[simp] theorem setPart_part_preemptCtx (p : Nat) (v : Partition) : (setPart s p v).part.preemptCtx = s.part.preemptCtx := rfl
@[simp] theorem setPart_part_preemptAction (p : Nat) (v : Partition) : (setPart s p v).part.preemptAction = s.part.preemptAction := rfl
@[simp] theorem setPart_part_preempted (p : Nat) (v : Partition) : (setPart s p v).part.preempted = s.part.preempted := rfl
@[simp] theorem setPart_part_suspended (p : Nat) (v : Partition) : (setPart s p v).part.suspended = s.part.suspended := rfl
@[simp] theorem setPart_part_rgrpGroup (p : Nat) (v : Partition) : (setPart s p v).part.rgrpGroup = s.part.rgrpGroup := rfl
@[simp] theorem setPart_part_rgrpMember (p : Nat) (v : Partition) : (setPart s p v).part.rgrpMember = s.part.rgrpMember := rfl
@[simp] theorem setPart_part_rgrpCfgStage (p : Nat) (v : Partition) : (setPart s p v).part.rgrpCfgStage = s.part.rgrpCfgStage := rfl
@[simp] theorem setPart_part_rgrpMemberStage (p : Nat) (v : Partition) : (setPart s p v).part.rgrpMemberStage = s.part.rgrpMemberStage := rfl
@[simp] theorem setPart_part_rgroups (p : Nat) (v : Partition) : (setPart s p v).part.rgroups = s.part.rgroups := rfl
@[simp] theorem setPart_part_rounds (p : Nat) (v : Partition) : (setPart s p v).part.rounds = s.part.rounds := rfl
@[simp] theorem setPart_part_tables (p : Nat) (v : Partition) : (setPart s p v).part.tables = s.part.tables := rfl
@[simp] theorem setPart_part_models (p : Nat) (v : Partition) : (setPart s p v).part.models = s.part.models := rfl

/-! ### setTable -/

@[simp] theorem setTable_pending (p t : Nat) (v : Table) : (setTable s p t v).pending = s.pending := rfl
@[simp] theorem setTable_freeCount (p t : Nat) (v : Table) : (setTable s p t v).freeCount = s.freeCount := rfl
@[simp] theorem setTable_nextUid (p t : Nat) (v : Table) : (setTable s p t v).nextUid = s.nextUid := rfl
@[simp] theorem setTable_nextGroup (p t : Nat) (v : Table) : (setTable s p t v).nextGroup = s.nextGroup := rfl
@[simp] theorem setTable_host (p t : Nat) (v : Table) : (setTable s p t v).host = s.host := rfl
@[simp] theorem setTable_hbm (p t : Nat) (v : Table) : (setTable s p t v).hbm = s.hbm := rfl
@[simp] theorem setTable_glb (p t : Nat) (v : Table) : (setTable s p t v).glb = s.glb := rfl
@[simp] theorem setTable_pwr (p t : Nat) (v : Table) : (setTable s p t v).pwr = s.pwr := rfl
@[simp] theorem setTable_time (p t : Nat) (v : Table) : (setTable s p t v).time = s.time := rfl
@[simp] theorem setTable_hq (p t : Nat) (v : Table) : (setTable s p t v).hq = s.hq := rfl
@[simp] theorem setTable_cmds (p t : Nat) (v : Table) : (setTable s p t v).cmds = s.cmds := rfl
@[simp] theorem setTable_kids (p t : Nat) (v : Table) : (setTable s p t v).kids = s.kids := rfl
@[simp] theorem setTable_spool (p t : Nat) (v : Table) : (setTable s p t v).spool = s.spool := rfl
@[simp] theorem setTable_err (p t : Nat) (v : Table) : (setTable s p t v).err = s.err := rfl
@[simp] theorem setTable_flash (p t : Nat) (v : Table) : (setTable s p t v).flash = s.flash := rfl
@[simp] theorem setTable_zw (p t : Nat) (v : Table) : (setTable s p t v).zw = s.zw := rfl
@[simp] theorem setTable_codecSel (p t : Nat) (v : Table) : (setTable s p t v).codecSel = s.codecSel := rfl
@[simp] theorem setTable_codecs (p t : Nat) (v : Table) : (setTable s p t v).codecs = s.codecs := rfl
@[simp] theorem setTable_dies (p t : Nat) (v : Table) : (setTable s p t v).dies = s.dies := rfl
@[simp] theorem setTable_clusters (p t : Nat) (v : Table) : (setTable s p t v).clusters = s.clusters := rfl
@[simp] theorem setTable_chans (p t : Nat) (v : Table) : (setTable s p t v).chans = s.chans := rfl
@[simp] theorem setTable_groups (p t : Nat) (v : Table) : (setTable s p t v).groups = s.groups := rfl
@[simp] theorem setTable_scratchNamed (p t : Nat) (v : Table) : (setTable s p t v).scratchNamed = s.scratchNamed := rfl
@[simp] theorem setTable_io (p t : Nat) (v : Table) : (setTable s p t v).io = s.io := rfl
@[simp] theorem setTable_part_mode (p t : Nat) (v : Table) : (setTable s p t v).part.mode = s.part.mode := rfl
@[simp] theorem setTable_part_sel (p t : Nat) (v : Table) : (setTable s p t v).part.sel = s.part.sel := rfl
@[simp] theorem setTable_part_parts (p t : Nat) (v : Table) : (setTable s p t v).part.parts = s.part.parts := rfl
@[simp] theorem setTable_part_ctxBase (p t : Nat) (v : Table) : (setTable s p t v).part.ctxBase = s.part.ctxBase := rfl
@[simp] theorem setTable_part_preemptCtx (p t : Nat) (v : Table) : (setTable s p t v).part.preemptCtx = s.part.preemptCtx := rfl
@[simp] theorem setTable_part_preemptAction (p t : Nat) (v : Table) : (setTable s p t v).part.preemptAction = s.part.preemptAction := rfl
@[simp] theorem setTable_part_preempted (p t : Nat) (v : Table) : (setTable s p t v).part.preempted = s.part.preempted := rfl
@[simp] theorem setTable_part_suspended (p t : Nat) (v : Table) : (setTable s p t v).part.suspended = s.part.suspended := rfl
@[simp] theorem setTable_part_rgrpGroup (p t : Nat) (v : Table) : (setTable s p t v).part.rgrpGroup = s.part.rgrpGroup := rfl
@[simp] theorem setTable_part_rgrpMember (p t : Nat) (v : Table) : (setTable s p t v).part.rgrpMember = s.part.rgrpMember := rfl
@[simp] theorem setTable_part_rgrpCfgStage (p t : Nat) (v : Table) : (setTable s p t v).part.rgrpCfgStage = s.part.rgrpCfgStage := rfl
@[simp] theorem setTable_part_rgrpMemberStage (p t : Nat) (v : Table) : (setTable s p t v).part.rgrpMemberStage = s.part.rgrpMemberStage := rfl
@[simp] theorem setTable_part_rgroups (p t : Nat) (v : Table) : (setTable s p t v).part.rgroups = s.part.rgroups := rfl
@[simp] theorem setTable_part_rounds (p t : Nat) (v : Table) : (setTable s p t v).part.rounds = s.part.rounds := rfl
@[simp] theorem setTable_part_models (p t : Nat) (v : Table) : (setTable s p t v).part.models = s.part.models := rfl

/-! ### setPort -/

@[simp] theorem setPort_pending (p : Nat) (v : Port) : (setPort s p v).pending = s.pending := rfl
@[simp] theorem setPort_freeCount (p : Nat) (v : Port) : (setPort s p v).freeCount = s.freeCount := rfl
@[simp] theorem setPort_nextUid (p : Nat) (v : Port) : (setPort s p v).nextUid = s.nextUid := rfl
@[simp] theorem setPort_nextGroup (p : Nat) (v : Port) : (setPort s p v).nextGroup = s.nextGroup := rfl
@[simp] theorem setPort_host (p : Nat) (v : Port) : (setPort s p v).host = s.host := rfl
@[simp] theorem setPort_hbm (p : Nat) (v : Port) : (setPort s p v).hbm = s.hbm := rfl
@[simp] theorem setPort_glb (p : Nat) (v : Port) : (setPort s p v).glb = s.glb := rfl
@[simp] theorem setPort_pwr (p : Nat) (v : Port) : (setPort s p v).pwr = s.pwr := rfl
@[simp] theorem setPort_time (p : Nat) (v : Port) : (setPort s p v).time = s.time := rfl
@[simp] theorem setPort_hq (p : Nat) (v : Port) : (setPort s p v).hq = s.hq := rfl
@[simp] theorem setPort_cmds (p : Nat) (v : Port) : (setPort s p v).cmds = s.cmds := rfl
@[simp] theorem setPort_kids (p : Nat) (v : Port) : (setPort s p v).kids = s.kids := rfl
@[simp] theorem setPort_part (p : Nat) (v : Port) : (setPort s p v).part = s.part := rfl
@[simp] theorem setPort_spool (p : Nat) (v : Port) : (setPort s p v).spool = s.spool := rfl
@[simp] theorem setPort_err (p : Nat) (v : Port) : (setPort s p v).err = s.err := rfl
@[simp] theorem setPort_flash (p : Nat) (v : Port) : (setPort s p v).flash = s.flash := rfl
@[simp] theorem setPort_codecSel (p : Nat) (v : Port) : (setPort s p v).codecSel = s.codecSel := rfl
@[simp] theorem setPort_codecs (p : Nat) (v : Port) : (setPort s p v).codecs = s.codecs := rfl
@[simp] theorem setPort_dies (p : Nat) (v : Port) : (setPort s p v).dies = s.dies := rfl
@[simp] theorem setPort_clusters (p : Nat) (v : Port) : (setPort s p v).clusters = s.clusters := rfl
@[simp] theorem setPort_chans (p : Nat) (v : Port) : (setPort s p v).chans = s.chans := rfl
@[simp] theorem setPort_groups (p : Nat) (v : Port) : (setPort s p v).groups = s.groups := rfl
@[simp] theorem setPort_scratchNamed (p : Nat) (v : Port) : (setPort s p v).scratchNamed = s.scratchNamed := rfl
@[simp] theorem setPort_io (p : Nat) (v : Port) : (setPort s p v).io = s.io := rfl
@[simp] theorem setPort_zw_id (p : Nat) (v : Port) : (setPort s p v).zw.id = s.zw.id := rfl
@[simp] theorem setPort_zw_anchorId (p : Nat) (v : Port) : (setPort s p v).zw.anchorId = s.zw.anchorId := rfl
@[simp] theorem setPort_zw_heldId (p : Nat) (v : Port) : (setPort s p v).zw.heldId = s.zw.heldId := rfl
@[simp] theorem setPort_zw_linkCfg (p : Nat) (v : Port) : (setPort s p v).zw.linkCfg = s.zw.linkCfg := rfl
@[simp] theorem setPort_zw_portSel (p : Nat) (v : Port) : (setPort s p v).zw.portSel = s.zw.portSel := rfl
@[simp] theorem setPort_zw_winSel (p : Nat) (v : Port) : (setPort s p v).zw.winSel = s.zw.winSel := rfl
@[simp] theorem setPort_zw_winStage (p : Nat) (v : Port) : (setPort s p v).zw.winStage = s.zw.winStage := rfl
@[simp] theorem setPort_zw_windows (p : Nat) (v : Port) : (setPort s p v).zw.windows = s.zw.windows := rfl
@[simp] theorem setPort_zw_routeSel (p : Nat) (v : Port) : (setPort s p v).zw.routeSel = s.zw.routeSel := rfl
@[simp] theorem setPort_zw_routes (p : Nat) (v : Port) : (setPort s p v).zw.routes = s.zw.routes := rfl
@[simp] theorem setPort_zw_members (p : Nat) (v : Port) : (setPort s p v).zw.members = s.zw.members := rfl
@[simp] theorem setPort_zw_requests (p : Nat) (v : Port) : (setPort s p v).zw.requests = s.zw.requests := rfl
@[simp] theorem setPort_zw_nextTag (p : Nat) (v : Port) : (setPort s p v).zw.nextTag = s.zw.nextTag := rfl
@[simp] theorem setPort_zw_anchorHeard (p : Nat) (v : Port) : (setPort s p v).zw.anchorHeard = s.zw.anchorHeard := rfl
@[simp] theorem setPort_zw_descFirst (p : Nat) (v : Port) : (setPort s p v).zw.descFirst = s.zw.descFirst := rfl
@[simp] theorem setPort_zw_memberSeqs (p : Nat) (v : Port) : (setPort s p v).zw.memberSeqs = s.zw.memberSeqs := rfl

/-! ### setMember -/

@[simp] theorem setMember_pending (i : Nat) (v : Member) : (setMember s i v).pending = s.pending := rfl
@[simp] theorem setMember_freeCount (i : Nat) (v : Member) : (setMember s i v).freeCount = s.freeCount := rfl
@[simp] theorem setMember_nextUid (i : Nat) (v : Member) : (setMember s i v).nextUid = s.nextUid := rfl
@[simp] theorem setMember_nextGroup (i : Nat) (v : Member) : (setMember s i v).nextGroup = s.nextGroup := rfl
@[simp] theorem setMember_host (i : Nat) (v : Member) : (setMember s i v).host = s.host := rfl
@[simp] theorem setMember_hbm (i : Nat) (v : Member) : (setMember s i v).hbm = s.hbm := rfl
@[simp] theorem setMember_glb (i : Nat) (v : Member) : (setMember s i v).glb = s.glb := rfl
@[simp] theorem setMember_pwr (i : Nat) (v : Member) : (setMember s i v).pwr = s.pwr := rfl
@[simp] theorem setMember_time (i : Nat) (v : Member) : (setMember s i v).time = s.time := rfl
@[simp] theorem setMember_hq (i : Nat) (v : Member) : (setMember s i v).hq = s.hq := rfl
@[simp] theorem setMember_cmds (i : Nat) (v : Member) : (setMember s i v).cmds = s.cmds := rfl
@[simp] theorem setMember_kids (i : Nat) (v : Member) : (setMember s i v).kids = s.kids := rfl
@[simp] theorem setMember_part (i : Nat) (v : Member) : (setMember s i v).part = s.part := rfl
@[simp] theorem setMember_spool (i : Nat) (v : Member) : (setMember s i v).spool = s.spool := rfl
@[simp] theorem setMember_err (i : Nat) (v : Member) : (setMember s i v).err = s.err := rfl
@[simp] theorem setMember_flash (i : Nat) (v : Member) : (setMember s i v).flash = s.flash := rfl
@[simp] theorem setMember_codecSel (i : Nat) (v : Member) : (setMember s i v).codecSel = s.codecSel := rfl
@[simp] theorem setMember_codecs (i : Nat) (v : Member) : (setMember s i v).codecs = s.codecs := rfl
@[simp] theorem setMember_dies (i : Nat) (v : Member) : (setMember s i v).dies = s.dies := rfl
@[simp] theorem setMember_clusters (i : Nat) (v : Member) : (setMember s i v).clusters = s.clusters := rfl
@[simp] theorem setMember_chans (i : Nat) (v : Member) : (setMember s i v).chans = s.chans := rfl
@[simp] theorem setMember_groups (i : Nat) (v : Member) : (setMember s i v).groups = s.groups := rfl
@[simp] theorem setMember_scratchNamed (i : Nat) (v : Member) : (setMember s i v).scratchNamed = s.scratchNamed := rfl
@[simp] theorem setMember_io (i : Nat) (v : Member) : (setMember s i v).io = s.io := rfl
@[simp] theorem setMember_zw_id (i : Nat) (v : Member) : (setMember s i v).zw.id = s.zw.id := rfl
@[simp] theorem setMember_zw_anchorId (i : Nat) (v : Member) : (setMember s i v).zw.anchorId = s.zw.anchorId := rfl
@[simp] theorem setMember_zw_heldId (i : Nat) (v : Member) : (setMember s i v).zw.heldId = s.zw.heldId := rfl
@[simp] theorem setMember_zw_linkCfg (i : Nat) (v : Member) : (setMember s i v).zw.linkCfg = s.zw.linkCfg := rfl
@[simp] theorem setMember_zw_portSel (i : Nat) (v : Member) : (setMember s i v).zw.portSel = s.zw.portSel := rfl
@[simp] theorem setMember_zw_ports (i : Nat) (v : Member) : (setMember s i v).zw.ports = s.zw.ports := rfl
@[simp] theorem setMember_zw_winSel (i : Nat) (v : Member) : (setMember s i v).zw.winSel = s.zw.winSel := rfl
@[simp] theorem setMember_zw_winStage (i : Nat) (v : Member) : (setMember s i v).zw.winStage = s.zw.winStage := rfl
@[simp] theorem setMember_zw_windows (i : Nat) (v : Member) : (setMember s i v).zw.windows = s.zw.windows := rfl
@[simp] theorem setMember_zw_routeSel (i : Nat) (v : Member) : (setMember s i v).zw.routeSel = s.zw.routeSel := rfl
@[simp] theorem setMember_zw_routes (i : Nat) (v : Member) : (setMember s i v).zw.routes = s.zw.routes := rfl
@[simp] theorem setMember_zw_requests (i : Nat) (v : Member) : (setMember s i v).zw.requests = s.zw.requests := rfl
@[simp] theorem setMember_zw_nextTag (i : Nat) (v : Member) : (setMember s i v).zw.nextTag = s.zw.nextTag := rfl
@[simp] theorem setMember_zw_anchorHeard (i : Nat) (v : Member) : (setMember s i v).zw.anchorHeard = s.zw.anchorHeard := rfl
@[simp] theorem setMember_zw_descFirst (i : Nat) (v : Member) : (setMember s i v).zw.descFirst = s.zw.descFirst := rfl
@[simp] theorem setMember_zw_memberSeqs (i : Nat) (v : Member) : (setMember s i v).zw.memberSeqs = s.zw.memberSeqs := rfl

/-! ### setCodec -/

@[simp] theorem setCodec_pending (d : Nat) (v : Codec) : (setCodec s d v).pending = s.pending := rfl
@[simp] theorem setCodec_freeCount (d : Nat) (v : Codec) : (setCodec s d v).freeCount = s.freeCount := rfl
@[simp] theorem setCodec_nextUid (d : Nat) (v : Codec) : (setCodec s d v).nextUid = s.nextUid := rfl
@[simp] theorem setCodec_nextGroup (d : Nat) (v : Codec) : (setCodec s d v).nextGroup = s.nextGroup := rfl
@[simp] theorem setCodec_host (d : Nat) (v : Codec) : (setCodec s d v).host = s.host := rfl
@[simp] theorem setCodec_hbm (d : Nat) (v : Codec) : (setCodec s d v).hbm = s.hbm := rfl
@[simp] theorem setCodec_glb (d : Nat) (v : Codec) : (setCodec s d v).glb = s.glb := rfl
@[simp] theorem setCodec_pwr (d : Nat) (v : Codec) : (setCodec s d v).pwr = s.pwr := rfl
@[simp] theorem setCodec_time (d : Nat) (v : Codec) : (setCodec s d v).time = s.time := rfl
@[simp] theorem setCodec_hq (d : Nat) (v : Codec) : (setCodec s d v).hq = s.hq := rfl
@[simp] theorem setCodec_cmds (d : Nat) (v : Codec) : (setCodec s d v).cmds = s.cmds := rfl
@[simp] theorem setCodec_kids (d : Nat) (v : Codec) : (setCodec s d v).kids = s.kids := rfl
@[simp] theorem setCodec_part (d : Nat) (v : Codec) : (setCodec s d v).part = s.part := rfl
@[simp] theorem setCodec_spool (d : Nat) (v : Codec) : (setCodec s d v).spool = s.spool := rfl
@[simp] theorem setCodec_err (d : Nat) (v : Codec) : (setCodec s d v).err = s.err := rfl
@[simp] theorem setCodec_flash (d : Nat) (v : Codec) : (setCodec s d v).flash = s.flash := rfl
@[simp] theorem setCodec_zw (d : Nat) (v : Codec) : (setCodec s d v).zw = s.zw := rfl
@[simp] theorem setCodec_codecSel (d : Nat) (v : Codec) : (setCodec s d v).codecSel = s.codecSel := rfl
@[simp] theorem setCodec_dies (d : Nat) (v : Codec) : (setCodec s d v).dies = s.dies := rfl
@[simp] theorem setCodec_clusters (d : Nat) (v : Codec) : (setCodec s d v).clusters = s.clusters := rfl
@[simp] theorem setCodec_chans (d : Nat) (v : Codec) : (setCodec s d v).chans = s.chans := rfl
@[simp] theorem setCodec_groups (d : Nat) (v : Codec) : (setCodec s d v).groups = s.groups := rfl
@[simp] theorem setCodec_scratchNamed (d : Nat) (v : Codec) : (setCodec s d v).scratchNamed = s.scratchNamed := rfl
@[simp] theorem setCodec_io (d : Nat) (v : Codec) : (setCodec s d v).io = s.io := rfl

/-! ### setPwrDie -/

@[simp] theorem setPwrDie_pending (d : Nat) (v : PwrDie) : (setPwrDie s d v).pending = s.pending := rfl
@[simp] theorem setPwrDie_freeCount (d : Nat) (v : PwrDie) : (setPwrDie s d v).freeCount = s.freeCount := rfl
@[simp] theorem setPwrDie_nextUid (d : Nat) (v : PwrDie) : (setPwrDie s d v).nextUid = s.nextUid := rfl
@[simp] theorem setPwrDie_nextGroup (d : Nat) (v : PwrDie) : (setPwrDie s d v).nextGroup = s.nextGroup := rfl
@[simp] theorem setPwrDie_host (d : Nat) (v : PwrDie) : (setPwrDie s d v).host = s.host := rfl
@[simp] theorem setPwrDie_hbm (d : Nat) (v : PwrDie) : (setPwrDie s d v).hbm = s.hbm := rfl
@[simp] theorem setPwrDie_glb (d : Nat) (v : PwrDie) : (setPwrDie s d v).glb = s.glb := rfl
@[simp] theorem setPwrDie_time (d : Nat) (v : PwrDie) : (setPwrDie s d v).time = s.time := rfl
@[simp] theorem setPwrDie_hq (d : Nat) (v : PwrDie) : (setPwrDie s d v).hq = s.hq := rfl
@[simp] theorem setPwrDie_cmds (d : Nat) (v : PwrDie) : (setPwrDie s d v).cmds = s.cmds := rfl
@[simp] theorem setPwrDie_kids (d : Nat) (v : PwrDie) : (setPwrDie s d v).kids = s.kids := rfl
@[simp] theorem setPwrDie_part (d : Nat) (v : PwrDie) : (setPwrDie s d v).part = s.part := rfl
@[simp] theorem setPwrDie_spool (d : Nat) (v : PwrDie) : (setPwrDie s d v).spool = s.spool := rfl
@[simp] theorem setPwrDie_err (d : Nat) (v : PwrDie) : (setPwrDie s d v).err = s.err := rfl
@[simp] theorem setPwrDie_flash (d : Nat) (v : PwrDie) : (setPwrDie s d v).flash = s.flash := rfl
@[simp] theorem setPwrDie_zw (d : Nat) (v : PwrDie) : (setPwrDie s d v).zw = s.zw := rfl
@[simp] theorem setPwrDie_codecSel (d : Nat) (v : PwrDie) : (setPwrDie s d v).codecSel = s.codecSel := rfl
@[simp] theorem setPwrDie_codecs (d : Nat) (v : PwrDie) : (setPwrDie s d v).codecs = s.codecs := rfl
@[simp] theorem setPwrDie_dies (d : Nat) (v : PwrDie) : (setPwrDie s d v).dies = s.dies := rfl
@[simp] theorem setPwrDie_clusters (d : Nat) (v : PwrDie) : (setPwrDie s d v).clusters = s.clusters := rfl
@[simp] theorem setPwrDie_chans (d : Nat) (v : PwrDie) : (setPwrDie s d v).chans = s.chans := rfl
@[simp] theorem setPwrDie_groups (d : Nat) (v : PwrDie) : (setPwrDie s d v).groups = s.groups := rfl
@[simp] theorem setPwrDie_scratchNamed (d : Nat) (v : PwrDie) : (setPwrDie s d v).scratchNamed = s.scratchNamed := rfl
@[simp] theorem setPwrDie_io (d : Nat) (v : PwrDie) : (setPwrDie s d v).io = s.io := rfl
@[simp] theorem setPwrDie_pwr_limitW (d : Nat) (v : PwrDie) : (setPwrDie s d v).pwr.limitW = s.pwr.limitW := rfl
@[simp] theorem setPwrDie_pwr_retest (d : Nat) (v : PwrDie) : (setPwrDie s d v).pwr.retest = s.pwr.retest := rfl
@[simp] theorem setPwrDie_pwr_retesting (d : Nat) (v : PwrDie) : (setPwrDie s d v).pwr.retesting = s.pwr.retesting := rfl
@[simp] theorem setPwrDie_pwr_inputMv (d : Nat) (v : PwrDie) : (setPwrDie s d v).pwr.inputMv = s.pwr.inputMv := rfl
@[simp] theorem setPwrDie_pwr_inputW (d : Nat) (v : PwrDie) : (setPwrDie s d v).pwr.inputW = s.pwr.inputW := rfl
@[simp] theorem setPwrDie_pwr_clamp (d : Nat) (v : PwrDie) : (setPwrDie s d v).pwr.clamp = s.pwr.clamp := rfl
@[simp] theorem setPwrDie_pwr_inhibit (d : Nat) (v : PwrDie) : (setPwrDie s d v).pwr.inhibit = s.pwr.inhibit := rfl
@[simp] theorem setPwrDie_pwr_shelfLimitW (d : Nat) (v : PwrDie) : (setPwrDie s d v).pwr.shelfLimitW = s.pwr.shelfLimitW := rfl
@[simp] theorem setPwrDie_pwr_stage (d : Nat) (v : PwrDie) : (setPwrDie s d v).pwr.stage = s.pwr.stage := rfl
@[simp] theorem setPwrDie_pwr_dieSel (d : Nat) (v : PwrDie) : (setPwrDie s d v).pwr.dieSel = s.pwr.dieSel := rfl
@[simp] theorem setPwrDie_pwr_thermCfg (d : Nat) (v : PwrDie) : (setPwrDie s d v).pwr.thermCfg = s.pwr.thermCfg := rfl
@[simp] theorem setPwrDie_pwr_zoneSel (d : Nat) (v : PwrDie) : (setPwrDie s d v).pwr.zoneSel = s.pwr.zoneSel := rfl
@[simp] theorem setPwrDie_pwr_zones (d : Nat) (v : PwrDie) : (setPwrDie s d v).pwr.zones = s.pwr.zones := rfl
@[simp] theorem setPwrDie_pwr_regClamp (d : Nat) (v : PwrDie) : (setPwrDie s d v).pwr.regClamp = s.pwr.regClamp := rfl
@[simp] theorem setPwrDie_pwr_epochBegan (d : Nat) (v : PwrDie) : (setPwrDie s d v).pwr.epochBegan = s.pwr.epochBegan := rfl
@[simp] theorem setPwrDie_pwr_fastLimit (d : Nat) (v : PwrDie) : (setPwrDie s d v).pwr.fastLimit = s.pwr.fastLimit := rfl
@[simp] theorem setPwrDie_pwr_sagSince (d : Nat) (v : PwrDie) : (setPwrDie s d v).pwr.sagSince = s.pwr.sagSince := rfl
@[simp] theorem setPwrDie_pwr_lowAt (d : Nat) (v : PwrDie) : (setPwrDie s d v).pwr.lowAt = s.pwr.lowAt := rfl
@[simp] theorem setPwrDie_pwr_railsAt (d : Nat) (v : PwrDie) : (setPwrDie s d v).pwr.railsAt = s.pwr.railsAt := rfl
@[simp] theorem setPwrDie_pwr_running (d : Nat) (v : PwrDie) : (setPwrDie s d v).pwr.running = s.pwr.running := rfl
@[simp] theorem setPwrDie_pwr_lastCause (d : Nat) (v : PwrDie) : (setPwrDie s d v).pwr.lastCause = s.pwr.lastCause := rfl
@[simp] theorem setPwrDie_pwr_alertN (d : Nat) (v : PwrDie) : (setPwrDie s d v).pwr.alertN = s.pwr.alertN := rfl
@[simp] theorem setPwrDie_pwr_spiEnN (d : Nat) (v : PwrDie) : (setPwrDie s d v).pwr.spiEnN = s.pwr.spiEnN := rfl
@[simp] theorem setPwrDie_pwr_perstN (d : Nat) (v : PwrDie) : (setPwrDie s d v).pwr.perstN = s.pwr.perstN := rfl
@[simp] theorem setPwrDie_pwr_presN (d : Nat) (v : PwrDie) : (setPwrDie s d v).pwr.presN = s.pwr.presN := rfl
@[simp] theorem setPwrDie_pwr_cables (d : Nat) (v : PwrDie) : (setPwrDie s d v).pwr.cables = s.pwr.cables := rfl
@[simp] theorem setPwrDie_pwr_baseId (d : Nat) (v : PwrDie) : (setPwrDie s d v).pwr.baseId = s.pwr.baseId := rfl
@[simp] theorem setPwrDie_pwr_baseAnchor (d : Nat) (v : PwrDie) : (setPwrDie s d v).pwr.baseAnchor = s.pwr.baseAnchor := rfl
@[simp] theorem setPwrDie_pwr_smbusAddr (d : Nat) (v : PwrDie) : (setPwrDie s d v).pwr.smbusAddr = s.pwr.smbusAddr := rfl
@[simp] theorem setPwrDie_pwr_firmware (d : Nat) (v : PwrDie) : (setPwrDie s d v).pwr.firmware = s.pwr.firmware := rfl

/-! ### setZone -/

@[simp] theorem setZone_pending (z : Nat) (v : Zone) : (setZone s z v).pending = s.pending := rfl
@[simp] theorem setZone_freeCount (z : Nat) (v : Zone) : (setZone s z v).freeCount = s.freeCount := rfl
@[simp] theorem setZone_nextUid (z : Nat) (v : Zone) : (setZone s z v).nextUid = s.nextUid := rfl
@[simp] theorem setZone_nextGroup (z : Nat) (v : Zone) : (setZone s z v).nextGroup = s.nextGroup := rfl
@[simp] theorem setZone_host (z : Nat) (v : Zone) : (setZone s z v).host = s.host := rfl
@[simp] theorem setZone_hbm (z : Nat) (v : Zone) : (setZone s z v).hbm = s.hbm := rfl
@[simp] theorem setZone_glb (z : Nat) (v : Zone) : (setZone s z v).glb = s.glb := rfl
@[simp] theorem setZone_time (z : Nat) (v : Zone) : (setZone s z v).time = s.time := rfl
@[simp] theorem setZone_hq (z : Nat) (v : Zone) : (setZone s z v).hq = s.hq := rfl
@[simp] theorem setZone_cmds (z : Nat) (v : Zone) : (setZone s z v).cmds = s.cmds := rfl
@[simp] theorem setZone_kids (z : Nat) (v : Zone) : (setZone s z v).kids = s.kids := rfl
@[simp] theorem setZone_part (z : Nat) (v : Zone) : (setZone s z v).part = s.part := rfl
@[simp] theorem setZone_spool (z : Nat) (v : Zone) : (setZone s z v).spool = s.spool := rfl
@[simp] theorem setZone_err (z : Nat) (v : Zone) : (setZone s z v).err = s.err := rfl
@[simp] theorem setZone_flash (z : Nat) (v : Zone) : (setZone s z v).flash = s.flash := rfl
@[simp] theorem setZone_zw (z : Nat) (v : Zone) : (setZone s z v).zw = s.zw := rfl
@[simp] theorem setZone_codecSel (z : Nat) (v : Zone) : (setZone s z v).codecSel = s.codecSel := rfl
@[simp] theorem setZone_codecs (z : Nat) (v : Zone) : (setZone s z v).codecs = s.codecs := rfl
@[simp] theorem setZone_dies (z : Nat) (v : Zone) : (setZone s z v).dies = s.dies := rfl
@[simp] theorem setZone_clusters (z : Nat) (v : Zone) : (setZone s z v).clusters = s.clusters := rfl
@[simp] theorem setZone_chans (z : Nat) (v : Zone) : (setZone s z v).chans = s.chans := rfl
@[simp] theorem setZone_groups (z : Nat) (v : Zone) : (setZone s z v).groups = s.groups := rfl
@[simp] theorem setZone_scratchNamed (z : Nat) (v : Zone) : (setZone s z v).scratchNamed = s.scratchNamed := rfl
@[simp] theorem setZone_io (z : Nat) (v : Zone) : (setZone s z v).io = s.io := rfl
@[simp] theorem setZone_pwr_limitW (z : Nat) (v : Zone) : (setZone s z v).pwr.limitW = s.pwr.limitW := rfl
@[simp] theorem setZone_pwr_retest (z : Nat) (v : Zone) : (setZone s z v).pwr.retest = s.pwr.retest := rfl
@[simp] theorem setZone_pwr_retesting (z : Nat) (v : Zone) : (setZone s z v).pwr.retesting = s.pwr.retesting := rfl
@[simp] theorem setZone_pwr_inputMv (z : Nat) (v : Zone) : (setZone s z v).pwr.inputMv = s.pwr.inputMv := rfl
@[simp] theorem setZone_pwr_inputW (z : Nat) (v : Zone) : (setZone s z v).pwr.inputW = s.pwr.inputW := rfl
@[simp] theorem setZone_pwr_clamp (z : Nat) (v : Zone) : (setZone s z v).pwr.clamp = s.pwr.clamp := rfl
@[simp] theorem setZone_pwr_inhibit (z : Nat) (v : Zone) : (setZone s z v).pwr.inhibit = s.pwr.inhibit := rfl
@[simp] theorem setZone_pwr_shelfLimitW (z : Nat) (v : Zone) : (setZone s z v).pwr.shelfLimitW = s.pwr.shelfLimitW := rfl
@[simp] theorem setZone_pwr_stage (z : Nat) (v : Zone) : (setZone s z v).pwr.stage = s.pwr.stage := rfl
@[simp] theorem setZone_pwr_dieSel (z : Nat) (v : Zone) : (setZone s z v).pwr.dieSel = s.pwr.dieSel := rfl
@[simp] theorem setZone_pwr_dies (z : Nat) (v : Zone) : (setZone s z v).pwr.dies = s.pwr.dies := rfl
@[simp] theorem setZone_pwr_thermCfg (z : Nat) (v : Zone) : (setZone s z v).pwr.thermCfg = s.pwr.thermCfg := rfl
@[simp] theorem setZone_pwr_zoneSel (z : Nat) (v : Zone) : (setZone s z v).pwr.zoneSel = s.pwr.zoneSel := rfl
@[simp] theorem setZone_pwr_regClamp (z : Nat) (v : Zone) : (setZone s z v).pwr.regClamp = s.pwr.regClamp := rfl
@[simp] theorem setZone_pwr_epochBegan (z : Nat) (v : Zone) : (setZone s z v).pwr.epochBegan = s.pwr.epochBegan := rfl
@[simp] theorem setZone_pwr_fastLimit (z : Nat) (v : Zone) : (setZone s z v).pwr.fastLimit = s.pwr.fastLimit := rfl
@[simp] theorem setZone_pwr_sagSince (z : Nat) (v : Zone) : (setZone s z v).pwr.sagSince = s.pwr.sagSince := rfl
@[simp] theorem setZone_pwr_lowAt (z : Nat) (v : Zone) : (setZone s z v).pwr.lowAt = s.pwr.lowAt := rfl
@[simp] theorem setZone_pwr_railsAt (z : Nat) (v : Zone) : (setZone s z v).pwr.railsAt = s.pwr.railsAt := rfl
@[simp] theorem setZone_pwr_running (z : Nat) (v : Zone) : (setZone s z v).pwr.running = s.pwr.running := rfl
@[simp] theorem setZone_pwr_lastCause (z : Nat) (v : Zone) : (setZone s z v).pwr.lastCause = s.pwr.lastCause := rfl
@[simp] theorem setZone_pwr_alertN (z : Nat) (v : Zone) : (setZone s z v).pwr.alertN = s.pwr.alertN := rfl
@[simp] theorem setZone_pwr_spiEnN (z : Nat) (v : Zone) : (setZone s z v).pwr.spiEnN = s.pwr.spiEnN := rfl
@[simp] theorem setZone_pwr_perstN (z : Nat) (v : Zone) : (setZone s z v).pwr.perstN = s.pwr.perstN := rfl
@[simp] theorem setZone_pwr_presN (z : Nat) (v : Zone) : (setZone s z v).pwr.presN = s.pwr.presN := rfl
@[simp] theorem setZone_pwr_cables (z : Nat) (v : Zone) : (setZone s z v).pwr.cables = s.pwr.cables := rfl
@[simp] theorem setZone_pwr_baseId (z : Nat) (v : Zone) : (setZone s z v).pwr.baseId = s.pwr.baseId := rfl
@[simp] theorem setZone_pwr_baseAnchor (z : Nat) (v : Zone) : (setZone s z v).pwr.baseAnchor = s.pwr.baseAnchor := rfl
@[simp] theorem setZone_pwr_smbusAddr (z : Nat) (v : Zone) : (setZone s z v).pwr.smbusAddr = s.pwr.smbusAddr := rfl
@[simp] theorem setZone_pwr_firmware (z : Nat) (v : Zone) : (setZone s z v).pwr.firmware = s.pwr.firmware := rfl

/-! ### setRound -/

@[simp] theorem setRound_pending (d : Nat) (v : DispatchRound) : (setRound s d v).pending = s.pending := rfl
@[simp] theorem setRound_freeCount (d : Nat) (v : DispatchRound) : (setRound s d v).freeCount = s.freeCount := rfl
@[simp] theorem setRound_nextUid (d : Nat) (v : DispatchRound) : (setRound s d v).nextUid = s.nextUid := rfl
@[simp] theorem setRound_nextGroup (d : Nat) (v : DispatchRound) : (setRound s d v).nextGroup = s.nextGroup := rfl
@[simp] theorem setRound_host (d : Nat) (v : DispatchRound) : (setRound s d v).host = s.host := rfl
@[simp] theorem setRound_hbm (d : Nat) (v : DispatchRound) : (setRound s d v).hbm = s.hbm := rfl
@[simp] theorem setRound_glb (d : Nat) (v : DispatchRound) : (setRound s d v).glb = s.glb := rfl
@[simp] theorem setRound_pwr (d : Nat) (v : DispatchRound) : (setRound s d v).pwr = s.pwr := rfl
@[simp] theorem setRound_time (d : Nat) (v : DispatchRound) : (setRound s d v).time = s.time := rfl
@[simp] theorem setRound_hq (d : Nat) (v : DispatchRound) : (setRound s d v).hq = s.hq := rfl
@[simp] theorem setRound_cmds (d : Nat) (v : DispatchRound) : (setRound s d v).cmds = s.cmds := rfl
@[simp] theorem setRound_kids (d : Nat) (v : DispatchRound) : (setRound s d v).kids = s.kids := rfl
@[simp] theorem setRound_spool (d : Nat) (v : DispatchRound) : (setRound s d v).spool = s.spool := rfl
@[simp] theorem setRound_err (d : Nat) (v : DispatchRound) : (setRound s d v).err = s.err := rfl
@[simp] theorem setRound_flash (d : Nat) (v : DispatchRound) : (setRound s d v).flash = s.flash := rfl
@[simp] theorem setRound_zw (d : Nat) (v : DispatchRound) : (setRound s d v).zw = s.zw := rfl
@[simp] theorem setRound_codecSel (d : Nat) (v : DispatchRound) : (setRound s d v).codecSel = s.codecSel := rfl
@[simp] theorem setRound_codecs (d : Nat) (v : DispatchRound) : (setRound s d v).codecs = s.codecs := rfl
@[simp] theorem setRound_dies (d : Nat) (v : DispatchRound) : (setRound s d v).dies = s.dies := rfl
@[simp] theorem setRound_clusters (d : Nat) (v : DispatchRound) : (setRound s d v).clusters = s.clusters := rfl
@[simp] theorem setRound_chans (d : Nat) (v : DispatchRound) : (setRound s d v).chans = s.chans := rfl
@[simp] theorem setRound_groups (d : Nat) (v : DispatchRound) : (setRound s d v).groups = s.groups := rfl
@[simp] theorem setRound_scratchNamed (d : Nat) (v : DispatchRound) : (setRound s d v).scratchNamed = s.scratchNamed := rfl
@[simp] theorem setRound_io (d : Nat) (v : DispatchRound) : (setRound s d v).io = s.io := rfl
@[simp] theorem setRound_part_mode (d : Nat) (v : DispatchRound) : (setRound s d v).part.mode = s.part.mode := rfl
@[simp] theorem setRound_part_sel (d : Nat) (v : DispatchRound) : (setRound s d v).part.sel = s.part.sel := rfl
@[simp] theorem setRound_part_parts (d : Nat) (v : DispatchRound) : (setRound s d v).part.parts = s.part.parts := rfl
@[simp] theorem setRound_part_ctxBase (d : Nat) (v : DispatchRound) : (setRound s d v).part.ctxBase = s.part.ctxBase := rfl
@[simp] theorem setRound_part_preemptCtx (d : Nat) (v : DispatchRound) : (setRound s d v).part.preemptCtx = s.part.preemptCtx := rfl
@[simp] theorem setRound_part_preemptAction (d : Nat) (v : DispatchRound) : (setRound s d v).part.preemptAction = s.part.preemptAction := rfl
@[simp] theorem setRound_part_preempted (d : Nat) (v : DispatchRound) : (setRound s d v).part.preempted = s.part.preempted := rfl
@[simp] theorem setRound_part_suspended (d : Nat) (v : DispatchRound) : (setRound s d v).part.suspended = s.part.suspended := rfl
@[simp] theorem setRound_part_rgrpGroup (d : Nat) (v : DispatchRound) : (setRound s d v).part.rgrpGroup = s.part.rgrpGroup := rfl
@[simp] theorem setRound_part_rgrpMember (d : Nat) (v : DispatchRound) : (setRound s d v).part.rgrpMember = s.part.rgrpMember := rfl
@[simp] theorem setRound_part_rgrpCfgStage (d : Nat) (v : DispatchRound) : (setRound s d v).part.rgrpCfgStage = s.part.rgrpCfgStage := rfl
@[simp] theorem setRound_part_rgrpMemberStage (d : Nat) (v : DispatchRound) : (setRound s d v).part.rgrpMemberStage = s.part.rgrpMemberStage := rfl
@[simp] theorem setRound_part_rgroups (d : Nat) (v : DispatchRound) : (setRound s d v).part.rgroups = s.part.rgroups := rfl
@[simp] theorem setRound_part_tables (d : Nat) (v : DispatchRound) : (setRound s d v).part.tables = s.part.tables := rfl
@[simp] theorem setRound_part_models (d : Nat) (v : DispatchRound) : (setRound s d v).part.models = s.part.models := rfl

/-! ### setSector -/

@[simp] theorem setSector_pending (d c i : Nat) (v : Sector) : (setSector s d c i v).pending = s.pending := rfl
@[simp] theorem setSector_freeCount (d c i : Nat) (v : Sector) : (setSector s d c i v).freeCount = s.freeCount := rfl
@[simp] theorem setSector_nextUid (d c i : Nat) (v : Sector) : (setSector s d c i v).nextUid = s.nextUid := rfl
@[simp] theorem setSector_nextGroup (d c i : Nat) (v : Sector) : (setSector s d c i v).nextGroup = s.nextGroup := rfl
@[simp] theorem setSector_host (d c i : Nat) (v : Sector) : (setSector s d c i v).host = s.host := rfl
@[simp] theorem setSector_glb (d c i : Nat) (v : Sector) : (setSector s d c i v).glb = s.glb := rfl
@[simp] theorem setSector_pwr (d c i : Nat) (v : Sector) : (setSector s d c i v).pwr = s.pwr := rfl
@[simp] theorem setSector_time (d c i : Nat) (v : Sector) : (setSector s d c i v).time = s.time := rfl
@[simp] theorem setSector_hq (d c i : Nat) (v : Sector) : (setSector s d c i v).hq = s.hq := rfl
@[simp] theorem setSector_cmds (d c i : Nat) (v : Sector) : (setSector s d c i v).cmds = s.cmds := rfl
@[simp] theorem setSector_kids (d c i : Nat) (v : Sector) : (setSector s d c i v).kids = s.kids := rfl
@[simp] theorem setSector_part (d c i : Nat) (v : Sector) : (setSector s d c i v).part = s.part := rfl
@[simp] theorem setSector_spool (d c i : Nat) (v : Sector) : (setSector s d c i v).spool = s.spool := rfl
@[simp] theorem setSector_err (d c i : Nat) (v : Sector) : (setSector s d c i v).err = s.err := rfl
@[simp] theorem setSector_flash (d c i : Nat) (v : Sector) : (setSector s d c i v).flash = s.flash := rfl
@[simp] theorem setSector_zw (d c i : Nat) (v : Sector) : (setSector s d c i v).zw = s.zw := rfl
@[simp] theorem setSector_codecSel (d c i : Nat) (v : Sector) : (setSector s d c i v).codecSel = s.codecSel := rfl
@[simp] theorem setSector_codecs (d c i : Nat) (v : Sector) : (setSector s d c i v).codecs = s.codecs := rfl
@[simp] theorem setSector_dies (d c i : Nat) (v : Sector) : (setSector s d c i v).dies = s.dies := rfl
@[simp] theorem setSector_clusters (d c i : Nat) (v : Sector) : (setSector s d c i v).clusters = s.clusters := rfl
@[simp] theorem setSector_chans (d c i : Nat) (v : Sector) : (setSector s d c i v).chans = s.chans := rfl
@[simp] theorem setSector_groups (d c i : Nat) (v : Sector) : (setSector s d c i v).groups = s.groups := rfl
@[simp] theorem setSector_scratchNamed (d c i : Nat) (v : Sector) : (setSector s d c i v).scratchNamed = s.scratchNamed := rfl
@[simp] theorem setSector_io (d c i : Nat) (v : Sector) : (setSector s d c i v).io = s.io := rfl

/-! ### modCmd -/

@[simp] theorem modCmd_pending (u : Uid) (f : Cmd → Cmd) : (modCmd s u f).pending = s.pending := rfl
@[simp] theorem modCmd_freeCount (u : Uid) (f : Cmd → Cmd) : (modCmd s u f).freeCount = s.freeCount := rfl
@[simp] theorem modCmd_nextUid (u : Uid) (f : Cmd → Cmd) : (modCmd s u f).nextUid = s.nextUid := rfl
@[simp] theorem modCmd_nextGroup (u : Uid) (f : Cmd → Cmd) : (modCmd s u f).nextGroup = s.nextGroup := rfl
@[simp] theorem modCmd_host (u : Uid) (f : Cmd → Cmd) : (modCmd s u f).host = s.host := rfl
@[simp] theorem modCmd_hbm (u : Uid) (f : Cmd → Cmd) : (modCmd s u f).hbm = s.hbm := rfl
@[simp] theorem modCmd_glb (u : Uid) (f : Cmd → Cmd) : (modCmd s u f).glb = s.glb := rfl
@[simp] theorem modCmd_pwr (u : Uid) (f : Cmd → Cmd) : (modCmd s u f).pwr = s.pwr := rfl
@[simp] theorem modCmd_time (u : Uid) (f : Cmd → Cmd) : (modCmd s u f).time = s.time := rfl
@[simp] theorem modCmd_hq (u : Uid) (f : Cmd → Cmd) : (modCmd s u f).hq = s.hq := rfl
@[simp] theorem modCmd_part (u : Uid) (f : Cmd → Cmd) : (modCmd s u f).part = s.part := rfl
@[simp] theorem modCmd_spool (u : Uid) (f : Cmd → Cmd) : (modCmd s u f).spool = s.spool := rfl
@[simp] theorem modCmd_err (u : Uid) (f : Cmd → Cmd) : (modCmd s u f).err = s.err := rfl
@[simp] theorem modCmd_flash (u : Uid) (f : Cmd → Cmd) : (modCmd s u f).flash = s.flash := rfl
@[simp] theorem modCmd_zw (u : Uid) (f : Cmd → Cmd) : (modCmd s u f).zw = s.zw := rfl
@[simp] theorem modCmd_codecSel (u : Uid) (f : Cmd → Cmd) : (modCmd s u f).codecSel = s.codecSel := rfl
@[simp] theorem modCmd_codecs (u : Uid) (f : Cmd → Cmd) : (modCmd s u f).codecs = s.codecs := rfl
@[simp] theorem modCmd_dies (u : Uid) (f : Cmd → Cmd) : (modCmd s u f).dies = s.dies := rfl
@[simp] theorem modCmd_clusters (u : Uid) (f : Cmd → Cmd) : (modCmd s u f).clusters = s.clusters := rfl
@[simp] theorem modCmd_chans (u : Uid) (f : Cmd → Cmd) : (modCmd s u f).chans = s.chans := rfl
@[simp] theorem modCmd_groups (u : Uid) (f : Cmd → Cmd) : (modCmd s u f).groups = s.groups := rfl
@[simp] theorem modCmd_scratchNamed (u : Uid) (f : Cmd → Cmd) : (modCmd s u f).scratchNamed = s.scratchNamed := rfl
@[simp] theorem modCmd_io (u : Uid) (f : Cmd → Cmd) : (modCmd s u f).io = s.io := rfl

/-! ### dropCmd -/

@[simp] theorem dropCmd_pending (u : Uid) : (dropCmd s u).pending = s.pending := rfl
@[simp] theorem dropCmd_freeCount (u : Uid) : (dropCmd s u).freeCount = s.freeCount := rfl
@[simp] theorem dropCmd_nextUid (u : Uid) : (dropCmd s u).nextUid = s.nextUid := rfl
@[simp] theorem dropCmd_nextGroup (u : Uid) : (dropCmd s u).nextGroup = s.nextGroup := rfl
@[simp] theorem dropCmd_host (u : Uid) : (dropCmd s u).host = s.host := rfl
@[simp] theorem dropCmd_hbm (u : Uid) : (dropCmd s u).hbm = s.hbm := rfl
@[simp] theorem dropCmd_glb (u : Uid) : (dropCmd s u).glb = s.glb := rfl
@[simp] theorem dropCmd_pwr (u : Uid) : (dropCmd s u).pwr = s.pwr := rfl
@[simp] theorem dropCmd_time (u : Uid) : (dropCmd s u).time = s.time := rfl
@[simp] theorem dropCmd_hq (u : Uid) : (dropCmd s u).hq = s.hq := rfl
@[simp] theorem dropCmd_part (u : Uid) : (dropCmd s u).part = s.part := rfl
@[simp] theorem dropCmd_spool (u : Uid) : (dropCmd s u).spool = s.spool := rfl
@[simp] theorem dropCmd_err (u : Uid) : (dropCmd s u).err = s.err := rfl
@[simp] theorem dropCmd_flash (u : Uid) : (dropCmd s u).flash = s.flash := rfl
@[simp] theorem dropCmd_zw (u : Uid) : (dropCmd s u).zw = s.zw := rfl
@[simp] theorem dropCmd_codecSel (u : Uid) : (dropCmd s u).codecSel = s.codecSel := rfl
@[simp] theorem dropCmd_codecs (u : Uid) : (dropCmd s u).codecs = s.codecs := rfl
@[simp] theorem dropCmd_dies (u : Uid) : (dropCmd s u).dies = s.dies := rfl
@[simp] theorem dropCmd_clusters (u : Uid) : (dropCmd s u).clusters = s.clusters := rfl
@[simp] theorem dropCmd_chans (u : Uid) : (dropCmd s u).chans = s.chans := rfl
@[simp] theorem dropCmd_groups (u : Uid) : (dropCmd s u).groups = s.groups := rfl
@[simp] theorem dropCmd_scratchNamed (u : Uid) : (dropCmd s u).scratchNamed = s.scratchNamed := rfl
@[simp] theorem dropCmd_io (u : Uid) : (dropCmd s u).io = s.io := rfl

/-! ### hostWrite -/

@[simp] theorem hostWrite_pending (a : Nat) (bs : List Byte) : (hostWrite s a bs).pending = s.pending := rfl
@[simp] theorem hostWrite_freeCount (a : Nat) (bs : List Byte) : (hostWrite s a bs).freeCount = s.freeCount := rfl
@[simp] theorem hostWrite_nextUid (a : Nat) (bs : List Byte) : (hostWrite s a bs).nextUid = s.nextUid := rfl
@[simp] theorem hostWrite_nextGroup (a : Nat) (bs : List Byte) : (hostWrite s a bs).nextGroup = s.nextGroup := rfl
@[simp] theorem hostWrite_hbm (a : Nat) (bs : List Byte) : (hostWrite s a bs).hbm = s.hbm := rfl
@[simp] theorem hostWrite_glb (a : Nat) (bs : List Byte) : (hostWrite s a bs).glb = s.glb := rfl
@[simp] theorem hostWrite_pwr (a : Nat) (bs : List Byte) : (hostWrite s a bs).pwr = s.pwr := rfl
@[simp] theorem hostWrite_time (a : Nat) (bs : List Byte) : (hostWrite s a bs).time = s.time := rfl
@[simp] theorem hostWrite_hq (a : Nat) (bs : List Byte) : (hostWrite s a bs).hq = s.hq := rfl
@[simp] theorem hostWrite_cmds (a : Nat) (bs : List Byte) : (hostWrite s a bs).cmds = s.cmds := rfl
@[simp] theorem hostWrite_kids (a : Nat) (bs : List Byte) : (hostWrite s a bs).kids = s.kids := rfl
@[simp] theorem hostWrite_part (a : Nat) (bs : List Byte) : (hostWrite s a bs).part = s.part := rfl
@[simp] theorem hostWrite_spool (a : Nat) (bs : List Byte) : (hostWrite s a bs).spool = s.spool := rfl
@[simp] theorem hostWrite_err (a : Nat) (bs : List Byte) : (hostWrite s a bs).err = s.err := rfl
@[simp] theorem hostWrite_flash (a : Nat) (bs : List Byte) : (hostWrite s a bs).flash = s.flash := rfl
@[simp] theorem hostWrite_zw (a : Nat) (bs : List Byte) : (hostWrite s a bs).zw = s.zw := rfl
@[simp] theorem hostWrite_codecSel (a : Nat) (bs : List Byte) : (hostWrite s a bs).codecSel = s.codecSel := rfl
@[simp] theorem hostWrite_codecs (a : Nat) (bs : List Byte) : (hostWrite s a bs).codecs = s.codecs := rfl
@[simp] theorem hostWrite_dies (a : Nat) (bs : List Byte) : (hostWrite s a bs).dies = s.dies := rfl
@[simp] theorem hostWrite_clusters (a : Nat) (bs : List Byte) : (hostWrite s a bs).clusters = s.clusters := rfl
@[simp] theorem hostWrite_chans (a : Nat) (bs : List Byte) : (hostWrite s a bs).chans = s.chans := rfl
@[simp] theorem hostWrite_groups (a : Nat) (bs : List Byte) : (hostWrite s a bs).groups = s.groups := rfl
@[simp] theorem hostWrite_scratchNamed (a : Nat) (bs : List Byte) : (hostWrite s a bs).scratchNamed = s.scratchNamed := rfl
@[simp] theorem hostWrite_io (a : Nat) (bs : List Byte) : (hostWrite s a bs).io = s.io := rfl

/-! ### answer -/

@[simp] theorem answer_pending (a : Answer) : (answer s a).pending = s.pending := rfl
@[simp] theorem answer_freeCount (a : Answer) : (answer s a).freeCount = s.freeCount := rfl
@[simp] theorem answer_nextUid (a : Answer) : (answer s a).nextUid = s.nextUid := rfl
@[simp] theorem answer_nextGroup (a : Answer) : (answer s a).nextGroup = s.nextGroup := rfl
@[simp] theorem answer_host (a : Answer) : (answer s a).host = s.host := rfl
@[simp] theorem answer_hbm (a : Answer) : (answer s a).hbm = s.hbm := rfl
@[simp] theorem answer_glb (a : Answer) : (answer s a).glb = s.glb := rfl
@[simp] theorem answer_pwr (a : Answer) : (answer s a).pwr = s.pwr := rfl
@[simp] theorem answer_time (a : Answer) : (answer s a).time = s.time := rfl
@[simp] theorem answer_hq (a : Answer) : (answer s a).hq = s.hq := rfl
@[simp] theorem answer_cmds (a : Answer) : (answer s a).cmds = s.cmds := rfl
@[simp] theorem answer_kids (a : Answer) : (answer s a).kids = s.kids := rfl
@[simp] theorem answer_part (a : Answer) : (answer s a).part = s.part := rfl
@[simp] theorem answer_spool (a : Answer) : (answer s a).spool = s.spool := rfl
@[simp] theorem answer_err (a : Answer) : (answer s a).err = s.err := rfl
@[simp] theorem answer_flash (a : Answer) : (answer s a).flash = s.flash := rfl
@[simp] theorem answer_zw (a : Answer) : (answer s a).zw = s.zw := rfl
@[simp] theorem answer_codecSel (a : Answer) : (answer s a).codecSel = s.codecSel := rfl
@[simp] theorem answer_codecs (a : Answer) : (answer s a).codecs = s.codecs := rfl
@[simp] theorem answer_dies (a : Answer) : (answer s a).dies = s.dies := rfl
@[simp] theorem answer_clusters (a : Answer) : (answer s a).clusters = s.clusters := rfl
@[simp] theorem answer_chans (a : Answer) : (answer s a).chans = s.chans := rfl
@[simp] theorem answer_groups (a : Answer) : (answer s a).groups = s.groups := rfl
@[simp] theorem answer_scratchNamed (a : Answer) : (answer s a).scratchNamed = s.scratchNamed := rfl
@[simp] theorem answer_io_bar4Log2 (a : Answer) : (answer s a).io.bar4Log2 = s.io.bar4Log2 := rfl
@[simp] theorem answer_io_msix (a : Answer) : (answer s a).io.msix = s.io.msix := rfl
@[simp] theorem answer_io_aer (a : Answer) : (answer s a).io.aer = s.io.aer := rfl
@[simp] theorem answer_io_snapshots (a : Answer) : (answer s a).io.snapshots = s.io.snapshots := rfl

/-! ### An update by a function is a replacement -/

theorem modDie_eq (d : Nat) (f : DieBlock → DieBlock) : modDie s d f = setDie s d (f (dieOf s d)) := rfl
theorem modCluster_eq (d k : Nat) (f : Cluster → Cluster) : modCluster s d k f = setCluster s d k (f (clusterOf s d k)) := rfl
theorem modChan_eq (d c : Nat) (f : Chan → Chan) : modChan s d c f = setChan s d c (f (chanOf s d c)) := rfl
theorem modRing_eq (r : Nat) (f : Ring → Ring) : modRing s r f = setRing s r (f (ringOf s r)) := rfl
theorem modPart_eq (p : Nat) (f : Partition → Partition) : modPart s p f = setPart s p (f (partOf s p)) := rfl
theorem modTable_eq (p t : Nat) (f : Table → Table) : modTable s p t f = setTable s p t (f (tableOf s p t)) := rfl
theorem modPort_eq (p : Nat) (f : Port → Port) : modPort s p f = setPort s p (f (portOf s p)) := rfl
theorem modCodec_eq (d : Nat) (f : Codec → Codec) : modCodec s d f = setCodec s d (f (codecOf s d)) := rfl
theorem modPwrDie_eq (d : Nat) (f : PwrDie → PwrDie) : modPwrDie s d f = setPwrDie s d (f (pwrDieOf s d)) := rfl

/-! ### Reading a part after replacing one -/

@[simp] theorem dieOf_setDie (i : Nat) (v : DieBlock) : dieOf (setDie s i v) i = v := smGet_smSet_self _ _ _
theorem dieOf_setDie_ne {i j : Nat} (v : DieBlock) (h : j ≠ i) : dieOf (setDie s i v) j = dieOf s j := smGet_smSet_ne _ _ h
@[simp] theorem ringOf_setRing (i : Nat) (v : Ring) : ringOf (setRing s i v) i = v := smGet_smSet_self _ _ _
theorem ringOf_setRing_ne {i j : Nat} (v : Ring) (h : j ≠ i) : ringOf (setRing s i v) j = ringOf s j := smGet_smSet_ne _ _ h
@[simp] theorem vfOf_setVf (i : Nat) (v : VfState) : vfOf (setVf s i v) i = v := smGet_smSet_self _ _ _
theorem vfOf_setVf_ne {i j : Nat} (v : VfState) (h : j ≠ i) : vfOf (setVf s i v) j = vfOf s j := smGet_smSet_ne _ _ h
@[simp] theorem partOf_setPart (i : Nat) (v : Partition) : partOf (setPart s i v) i = v := smGet_smSet_self _ _ _
theorem partOf_setPart_ne {i j : Nat} (v : Partition) (h : j ≠ i) : partOf (setPart s i v) j = partOf s j := smGet_smSet_ne _ _ h
@[simp] theorem portOf_setPort (i : Nat) (v : Port) : portOf (setPort s i v) i = v := smGet_smSet_self _ _ _
theorem portOf_setPort_ne {i j : Nat} (v : Port) (h : j ≠ i) : portOf (setPort s i v) j = portOf s j := smGet_smSet_ne _ _ h
@[simp] theorem memberOf_setMember (i : Nat) (v : Member) : memberOf (setMember s i v) i = v := smGet_smSet_self _ _ _
theorem memberOf_setMember_ne {i j : Nat} (v : Member) (h : j ≠ i) : memberOf (setMember s i v) j = memberOf s j := smGet_smSet_ne _ _ h
@[simp] theorem codecOf_setCodec (i : Nat) (v : Codec) : codecOf (setCodec s i v) i = v := smGet_smSet_self _ _ _
theorem codecOf_setCodec_ne {i j : Nat} (v : Codec) (h : j ≠ i) : codecOf (setCodec s i v) j = codecOf s j := smGet_smSet_ne _ _ h
@[simp] theorem pwrDieOf_setPwrDie (i : Nat) (v : PwrDie) : pwrDieOf (setPwrDie s i v) i = v := smGet_smSet_self _ _ _
theorem pwrDieOf_setPwrDie_ne {i j : Nat} (v : PwrDie) (h : j ≠ i) : pwrDieOf (setPwrDie s i v) j = pwrDieOf s j := smGet_smSet_ne _ _ h
@[simp] theorem zoneOf_setZone (i : Nat) (v : Zone) : zoneOf (setZone s i v) i = v := smGet_smSet_self _ _ _
theorem zoneOf_setZone_ne {i j : Nat} (v : Zone) (h : j ≠ i) : zoneOf (setZone s i v) j = zoneOf s j := smGet_smSet_ne _ _ h
@[simp] theorem roundOf_setRound (i : Nat) (v : DispatchRound) : roundOf (setRound s i v) i = v := smGet_smSet_self _ _ _
theorem roundOf_setRound_ne {i j : Nat} (v : DispatchRound) (h : j ≠ i) : roundOf (setRound s i v) j = roundOf s j := smGet_smSet_ne _ _ h
@[simp] theorem clusterOf_setCluster (i j : Nat) (v : Cluster) : clusterOf (setCluster s i j v) i j = v := smGet_smSet_self _ _ _
theorem clusterOf_setCluster_ne {i j i' j' : Nat} (v : Cluster) (h : i' * 8192 + j' ≠ i * 8192 + j) :
    clusterOf (setCluster s i j v) i' j' = clusterOf s i' j' := smGet_smSet_ne _ _ h
@[simp] theorem chanOf_setChan (i j : Nat) (v : Chan) : chanOf (setChan s i j v) i j = v := smGet_smSet_self _ _ _
theorem chanOf_setChan_ne {i j i' j' : Nat} (v : Chan) (h : i' * 64 + j' ≠ i * 64 + j) :
    chanOf (setChan s i j v) i' j' = chanOf s i' j' := smGet_smSet_ne _ _ h
@[simp] theorem tableOf_setTable (i j : Nat) (v : Table) : tableOf (setTable s i j v) i j = v := smGet_smSet_self _ _ _
theorem tableOf_setTable_ne {i j i' j' : Nat} (v : Table) (h : i' * 64 + j' ≠ i * 64 + j) :
    tableOf (setTable s i j v) i' j' = tableOf s i' j' := smGet_smSet_ne _ _ h

/-! ### Reading a part after replacing another kind of part -/

@[simp] theorem clusterOf_setDie (d : Nat) (v : DieBlock) (x y : Nat) : clusterOf (setDie s d v) x y = clusterOf s x y := rfl
@[simp] theorem chanOf_setDie (d : Nat) (v : DieBlock) (x y : Nat) : chanOf (setDie s d v) x y = chanOf s x y := rfl
@[simp] theorem ringOf_setDie (d : Nat) (v : DieBlock) (x : Nat) : ringOf (setDie s d v) x = ringOf s x := rfl
@[simp] theorem vfOf_setDie (d : Nat) (v : DieBlock) (x : Nat) : vfOf (setDie s d v) x = vfOf s x := rfl
@[simp] theorem partOf_setDie (d : Nat) (v : DieBlock) (x : Nat) : partOf (setDie s d v) x = partOf s x := rfl
@[simp] theorem tableOf_setDie (d : Nat) (v : DieBlock) (x y : Nat) : tableOf (setDie s d v) x y = tableOf s x y := rfl
@[simp] theorem portOf_setDie (d : Nat) (v : DieBlock) (x : Nat) : portOf (setDie s d v) x = portOf s x := rfl
@[simp] theorem memberOf_setDie (d : Nat) (v : DieBlock) (x : Nat) : memberOf (setDie s d v) x = memberOf s x := rfl
@[simp] theorem codecOf_setDie (d : Nat) (v : DieBlock) (x : Nat) : codecOf (setDie s d v) x = codecOf s x := rfl
@[simp] theorem pwrDieOf_setDie (d : Nat) (v : DieBlock) (x : Nat) : pwrDieOf (setDie s d v) x = pwrDieOf s x := rfl
@[simp] theorem zoneOf_setDie (d : Nat) (v : DieBlock) (x : Nat) : zoneOf (setDie s d v) x = zoneOf s x := rfl
@[simp] theorem sectorOf_setDie (d : Nat) (v : DieBlock) (x y q : Nat) : sectorOf (setDie s d v) x y q = sectorOf s x y q := rfl
@[simp] theorem findCmd_setDie (d : Nat) (v : DieBlock) (w : Uid) : findCmd (setDie s d v) w = findCmd s w := rfl
@[simp] theorem dieOf_setCluster (d k : Nat) (v : Cluster) (x : Nat) : dieOf (setCluster s d k v) x = dieOf s x := rfl
@[simp] theorem chanOf_setCluster (d k : Nat) (v : Cluster) (x y : Nat) : chanOf (setCluster s d k v) x y = chanOf s x y := rfl
@[simp] theorem ringOf_setCluster (d k : Nat) (v : Cluster) (x : Nat) : ringOf (setCluster s d k v) x = ringOf s x := rfl
@[simp] theorem vfOf_setCluster (d k : Nat) (v : Cluster) (x : Nat) : vfOf (setCluster s d k v) x = vfOf s x := rfl
@[simp] theorem partOf_setCluster (d k : Nat) (v : Cluster) (x : Nat) : partOf (setCluster s d k v) x = partOf s x := rfl
@[simp] theorem tableOf_setCluster (d k : Nat) (v : Cluster) (x y : Nat) : tableOf (setCluster s d k v) x y = tableOf s x y := rfl
@[simp] theorem portOf_setCluster (d k : Nat) (v : Cluster) (x : Nat) : portOf (setCluster s d k v) x = portOf s x := rfl
@[simp] theorem memberOf_setCluster (d k : Nat) (v : Cluster) (x : Nat) : memberOf (setCluster s d k v) x = memberOf s x := rfl
@[simp] theorem codecOf_setCluster (d k : Nat) (v : Cluster) (x : Nat) : codecOf (setCluster s d k v) x = codecOf s x := rfl
@[simp] theorem pwrDieOf_setCluster (d k : Nat) (v : Cluster) (x : Nat) : pwrDieOf (setCluster s d k v) x = pwrDieOf s x := rfl
@[simp] theorem zoneOf_setCluster (d k : Nat) (v : Cluster) (x : Nat) : zoneOf (setCluster s d k v) x = zoneOf s x := rfl
@[simp] theorem sectorOf_setCluster (d k : Nat) (v : Cluster) (x y q : Nat) : sectorOf (setCluster s d k v) x y q = sectorOf s x y q := rfl
@[simp] theorem findCmd_setCluster (d k : Nat) (v : Cluster) (w : Uid) : findCmd (setCluster s d k v) w = findCmd s w := rfl
@[simp] theorem dieOf_setChan (d c : Nat) (v : Chan) (x : Nat) : dieOf (setChan s d c v) x = dieOf s x := rfl
@[simp] theorem clusterOf_setChan (d c : Nat) (v : Chan) (x y : Nat) : clusterOf (setChan s d c v) x y = clusterOf s x y := rfl
@[simp] theorem ringOf_setChan (d c : Nat) (v : Chan) (x : Nat) : ringOf (setChan s d c v) x = ringOf s x := rfl
@[simp] theorem vfOf_setChan (d c : Nat) (v : Chan) (x : Nat) : vfOf (setChan s d c v) x = vfOf s x := rfl
@[simp] theorem partOf_setChan (d c : Nat) (v : Chan) (x : Nat) : partOf (setChan s d c v) x = partOf s x := rfl
@[simp] theorem tableOf_setChan (d c : Nat) (v : Chan) (x y : Nat) : tableOf (setChan s d c v) x y = tableOf s x y := rfl
@[simp] theorem portOf_setChan (d c : Nat) (v : Chan) (x : Nat) : portOf (setChan s d c v) x = portOf s x := rfl
@[simp] theorem memberOf_setChan (d c : Nat) (v : Chan) (x : Nat) : memberOf (setChan s d c v) x = memberOf s x := rfl
@[simp] theorem codecOf_setChan (d c : Nat) (v : Chan) (x : Nat) : codecOf (setChan s d c v) x = codecOf s x := rfl
@[simp] theorem pwrDieOf_setChan (d c : Nat) (v : Chan) (x : Nat) : pwrDieOf (setChan s d c v) x = pwrDieOf s x := rfl
@[simp] theorem zoneOf_setChan (d c : Nat) (v : Chan) (x : Nat) : zoneOf (setChan s d c v) x = zoneOf s x := rfl
@[simp] theorem sectorOf_setChan (d c : Nat) (v : Chan) (x y q : Nat) : sectorOf (setChan s d c v) x y q = sectorOf s x y q := rfl
@[simp] theorem findCmd_setChan (d c : Nat) (v : Chan) (w : Uid) : findCmd (setChan s d c v) w = findCmd s w := rfl
@[simp] theorem dieOf_setRing (r : Nat) (v : Ring) (x : Nat) : dieOf (setRing s r v) x = dieOf s x := rfl
@[simp] theorem clusterOf_setRing (r : Nat) (v : Ring) (x y : Nat) : clusterOf (setRing s r v) x y = clusterOf s x y := rfl
@[simp] theorem chanOf_setRing (r : Nat) (v : Ring) (x y : Nat) : chanOf (setRing s r v) x y = chanOf s x y := rfl
@[simp] theorem vfOf_setRing (r : Nat) (v : Ring) (x : Nat) : vfOf (setRing s r v) x = vfOf s x := rfl
@[simp] theorem partOf_setRing (r : Nat) (v : Ring) (x : Nat) : partOf (setRing s r v) x = partOf s x := rfl
@[simp] theorem tableOf_setRing (r : Nat) (v : Ring) (x y : Nat) : tableOf (setRing s r v) x y = tableOf s x y := rfl
@[simp] theorem portOf_setRing (r : Nat) (v : Ring) (x : Nat) : portOf (setRing s r v) x = portOf s x := rfl
@[simp] theorem memberOf_setRing (r : Nat) (v : Ring) (x : Nat) : memberOf (setRing s r v) x = memberOf s x := rfl
@[simp] theorem codecOf_setRing (r : Nat) (v : Ring) (x : Nat) : codecOf (setRing s r v) x = codecOf s x := rfl
@[simp] theorem pwrDieOf_setRing (r : Nat) (v : Ring) (x : Nat) : pwrDieOf (setRing s r v) x = pwrDieOf s x := rfl
@[simp] theorem zoneOf_setRing (r : Nat) (v : Ring) (x : Nat) : zoneOf (setRing s r v) x = zoneOf s x := rfl
@[simp] theorem sectorOf_setRing (r : Nat) (v : Ring) (x y q : Nat) : sectorOf (setRing s r v) x y q = sectorOf s x y q := rfl
@[simp] theorem findCmd_setRing (r : Nat) (v : Ring) (w : Uid) : findCmd (setRing s r v) w = findCmd s w := rfl
@[simp] theorem dieOf_setVf (f : Nat) (v : VfState) (x : Nat) : dieOf (setVf s f v) x = dieOf s x := rfl
@[simp] theorem clusterOf_setVf (f : Nat) (v : VfState) (x y : Nat) : clusterOf (setVf s f v) x y = clusterOf s x y := rfl
@[simp] theorem chanOf_setVf (f : Nat) (v : VfState) (x y : Nat) : chanOf (setVf s f v) x y = chanOf s x y := rfl
@[simp] theorem ringOf_setVf (f : Nat) (v : VfState) (x : Nat) : ringOf (setVf s f v) x = ringOf s x := rfl
@[simp] theorem partOf_setVf (f : Nat) (v : VfState) (x : Nat) : partOf (setVf s f v) x = partOf s x := rfl
@[simp] theorem tableOf_setVf (f : Nat) (v : VfState) (x y : Nat) : tableOf (setVf s f v) x y = tableOf s x y := rfl
@[simp] theorem portOf_setVf (f : Nat) (v : VfState) (x : Nat) : portOf (setVf s f v) x = portOf s x := rfl
@[simp] theorem memberOf_setVf (f : Nat) (v : VfState) (x : Nat) : memberOf (setVf s f v) x = memberOf s x := rfl
@[simp] theorem codecOf_setVf (f : Nat) (v : VfState) (x : Nat) : codecOf (setVf s f v) x = codecOf s x := rfl
@[simp] theorem pwrDieOf_setVf (f : Nat) (v : VfState) (x : Nat) : pwrDieOf (setVf s f v) x = pwrDieOf s x := rfl
@[simp] theorem zoneOf_setVf (f : Nat) (v : VfState) (x : Nat) : zoneOf (setVf s f v) x = zoneOf s x := rfl
@[simp] theorem sectorOf_setVf (f : Nat) (v : VfState) (x y q : Nat) : sectorOf (setVf s f v) x y q = sectorOf s x y q := rfl
@[simp] theorem findCmd_setVf (f : Nat) (v : VfState) (w : Uid) : findCmd (setVf s f v) w = findCmd s w := rfl
@[simp] theorem dieOf_setPart (p : Nat) (v : Partition) (x : Nat) : dieOf (setPart s p v) x = dieOf s x := rfl
@[simp] theorem clusterOf_setPart (p : Nat) (v : Partition) (x y : Nat) : clusterOf (setPart s p v) x y = clusterOf s x y := rfl
@[simp] theorem chanOf_setPart (p : Nat) (v : Partition) (x y : Nat) : chanOf (setPart s p v) x y = chanOf s x y := rfl
@[simp] theorem ringOf_setPart (p : Nat) (v : Partition) (x : Nat) : ringOf (setPart s p v) x = ringOf s x := rfl
@[simp] theorem vfOf_setPart (p : Nat) (v : Partition) (x : Nat) : vfOf (setPart s p v) x = vfOf s x := rfl
@[simp] theorem tableOf_setPart (p : Nat) (v : Partition) (x y : Nat) : tableOf (setPart s p v) x y = tableOf s x y := rfl
@[simp] theorem portOf_setPart (p : Nat) (v : Partition) (x : Nat) : portOf (setPart s p v) x = portOf s x := rfl
@[simp] theorem memberOf_setPart (p : Nat) (v : Partition) (x : Nat) : memberOf (setPart s p v) x = memberOf s x := rfl
@[simp] theorem codecOf_setPart (p : Nat) (v : Partition) (x : Nat) : codecOf (setPart s p v) x = codecOf s x := rfl
@[simp] theorem pwrDieOf_setPart (p : Nat) (v : Partition) (x : Nat) : pwrDieOf (setPart s p v) x = pwrDieOf s x := rfl
@[simp] theorem zoneOf_setPart (p : Nat) (v : Partition) (x : Nat) : zoneOf (setPart s p v) x = zoneOf s x := rfl
@[simp] theorem sectorOf_setPart (p : Nat) (v : Partition) (x y q : Nat) : sectorOf (setPart s p v) x y q = sectorOf s x y q := rfl
@[simp] theorem findCmd_setPart (p : Nat) (v : Partition) (w : Uid) : findCmd (setPart s p v) w = findCmd s w := rfl
@[simp] theorem dieOf_setTable (p t : Nat) (v : Table) (x : Nat) : dieOf (setTable s p t v) x = dieOf s x := rfl
@[simp] theorem clusterOf_setTable (p t : Nat) (v : Table) (x y : Nat) : clusterOf (setTable s p t v) x y = clusterOf s x y := rfl
@[simp] theorem chanOf_setTable (p t : Nat) (v : Table) (x y : Nat) : chanOf (setTable s p t v) x y = chanOf s x y := rfl
@[simp] theorem ringOf_setTable (p t : Nat) (v : Table) (x : Nat) : ringOf (setTable s p t v) x = ringOf s x := rfl
@[simp] theorem vfOf_setTable (p t : Nat) (v : Table) (x : Nat) : vfOf (setTable s p t v) x = vfOf s x := rfl
@[simp] theorem partOf_setTable (p t : Nat) (v : Table) (x : Nat) : partOf (setTable s p t v) x = partOf s x := rfl
@[simp] theorem portOf_setTable (p t : Nat) (v : Table) (x : Nat) : portOf (setTable s p t v) x = portOf s x := rfl
@[simp] theorem memberOf_setTable (p t : Nat) (v : Table) (x : Nat) : memberOf (setTable s p t v) x = memberOf s x := rfl
@[simp] theorem codecOf_setTable (p t : Nat) (v : Table) (x : Nat) : codecOf (setTable s p t v) x = codecOf s x := rfl
@[simp] theorem pwrDieOf_setTable (p t : Nat) (v : Table) (x : Nat) : pwrDieOf (setTable s p t v) x = pwrDieOf s x := rfl
@[simp] theorem zoneOf_setTable (p t : Nat) (v : Table) (x : Nat) : zoneOf (setTable s p t v) x = zoneOf s x := rfl
@[simp] theorem sectorOf_setTable (p t : Nat) (v : Table) (x y q : Nat) : sectorOf (setTable s p t v) x y q = sectorOf s x y q := rfl
@[simp] theorem findCmd_setTable (p t : Nat) (v : Table) (w : Uid) : findCmd (setTable s p t v) w = findCmd s w := rfl
@[simp] theorem dieOf_setPort (p : Nat) (v : Port) (x : Nat) : dieOf (setPort s p v) x = dieOf s x := rfl
@[simp] theorem clusterOf_setPort (p : Nat) (v : Port) (x y : Nat) : clusterOf (setPort s p v) x y = clusterOf s x y := rfl
@[simp] theorem chanOf_setPort (p : Nat) (v : Port) (x y : Nat) : chanOf (setPort s p v) x y = chanOf s x y := rfl
@[simp] theorem ringOf_setPort (p : Nat) (v : Port) (x : Nat) : ringOf (setPort s p v) x = ringOf s x := rfl
@[simp] theorem vfOf_setPort (p : Nat) (v : Port) (x : Nat) : vfOf (setPort s p v) x = vfOf s x := rfl
@[simp] theorem partOf_setPort (p : Nat) (v : Port) (x : Nat) : partOf (setPort s p v) x = partOf s x := rfl
@[simp] theorem tableOf_setPort (p : Nat) (v : Port) (x y : Nat) : tableOf (setPort s p v) x y = tableOf s x y := rfl
@[simp] theorem memberOf_setPort (p : Nat) (v : Port) (x : Nat) : memberOf (setPort s p v) x = memberOf s x := rfl
@[simp] theorem codecOf_setPort (p : Nat) (v : Port) (x : Nat) : codecOf (setPort s p v) x = codecOf s x := rfl
@[simp] theorem pwrDieOf_setPort (p : Nat) (v : Port) (x : Nat) : pwrDieOf (setPort s p v) x = pwrDieOf s x := rfl
@[simp] theorem zoneOf_setPort (p : Nat) (v : Port) (x : Nat) : zoneOf (setPort s p v) x = zoneOf s x := rfl
@[simp] theorem sectorOf_setPort (p : Nat) (v : Port) (x y q : Nat) : sectorOf (setPort s p v) x y q = sectorOf s x y q := rfl
@[simp] theorem findCmd_setPort (p : Nat) (v : Port) (w : Uid) : findCmd (setPort s p v) w = findCmd s w := rfl
@[simp] theorem dieOf_setMember (i : Nat) (v : Member) (x : Nat) : dieOf (setMember s i v) x = dieOf s x := rfl
@[simp] theorem clusterOf_setMember (i : Nat) (v : Member) (x y : Nat) : clusterOf (setMember s i v) x y = clusterOf s x y := rfl
@[simp] theorem chanOf_setMember (i : Nat) (v : Member) (x y : Nat) : chanOf (setMember s i v) x y = chanOf s x y := rfl
@[simp] theorem ringOf_setMember (i : Nat) (v : Member) (x : Nat) : ringOf (setMember s i v) x = ringOf s x := rfl
@[simp] theorem vfOf_setMember (i : Nat) (v : Member) (x : Nat) : vfOf (setMember s i v) x = vfOf s x := rfl
@[simp] theorem partOf_setMember (i : Nat) (v : Member) (x : Nat) : partOf (setMember s i v) x = partOf s x := rfl
@[simp] theorem tableOf_setMember (i : Nat) (v : Member) (x y : Nat) : tableOf (setMember s i v) x y = tableOf s x y := rfl
@[simp] theorem portOf_setMember (i : Nat) (v : Member) (x : Nat) : portOf (setMember s i v) x = portOf s x := rfl
@[simp] theorem codecOf_setMember (i : Nat) (v : Member) (x : Nat) : codecOf (setMember s i v) x = codecOf s x := rfl
@[simp] theorem pwrDieOf_setMember (i : Nat) (v : Member) (x : Nat) : pwrDieOf (setMember s i v) x = pwrDieOf s x := rfl
@[simp] theorem zoneOf_setMember (i : Nat) (v : Member) (x : Nat) : zoneOf (setMember s i v) x = zoneOf s x := rfl
@[simp] theorem sectorOf_setMember (i : Nat) (v : Member) (x y q : Nat) : sectorOf (setMember s i v) x y q = sectorOf s x y q := rfl
@[simp] theorem findCmd_setMember (i : Nat) (v : Member) (w : Uid) : findCmd (setMember s i v) w = findCmd s w := rfl
@[simp] theorem dieOf_setCodec (d : Nat) (v : Codec) (x : Nat) : dieOf (setCodec s d v) x = dieOf s x := rfl
@[simp] theorem clusterOf_setCodec (d : Nat) (v : Codec) (x y : Nat) : clusterOf (setCodec s d v) x y = clusterOf s x y := rfl
@[simp] theorem chanOf_setCodec (d : Nat) (v : Codec) (x y : Nat) : chanOf (setCodec s d v) x y = chanOf s x y := rfl
@[simp] theorem ringOf_setCodec (d : Nat) (v : Codec) (x : Nat) : ringOf (setCodec s d v) x = ringOf s x := rfl
@[simp] theorem vfOf_setCodec (d : Nat) (v : Codec) (x : Nat) : vfOf (setCodec s d v) x = vfOf s x := rfl
@[simp] theorem partOf_setCodec (d : Nat) (v : Codec) (x : Nat) : partOf (setCodec s d v) x = partOf s x := rfl
@[simp] theorem tableOf_setCodec (d : Nat) (v : Codec) (x y : Nat) : tableOf (setCodec s d v) x y = tableOf s x y := rfl
@[simp] theorem portOf_setCodec (d : Nat) (v : Codec) (x : Nat) : portOf (setCodec s d v) x = portOf s x := rfl
@[simp] theorem memberOf_setCodec (d : Nat) (v : Codec) (x : Nat) : memberOf (setCodec s d v) x = memberOf s x := rfl
@[simp] theorem pwrDieOf_setCodec (d : Nat) (v : Codec) (x : Nat) : pwrDieOf (setCodec s d v) x = pwrDieOf s x := rfl
@[simp] theorem zoneOf_setCodec (d : Nat) (v : Codec) (x : Nat) : zoneOf (setCodec s d v) x = zoneOf s x := rfl
@[simp] theorem sectorOf_setCodec (d : Nat) (v : Codec) (x y q : Nat) : sectorOf (setCodec s d v) x y q = sectorOf s x y q := rfl
@[simp] theorem findCmd_setCodec (d : Nat) (v : Codec) (w : Uid) : findCmd (setCodec s d v) w = findCmd s w := rfl
@[simp] theorem dieOf_setPwrDie (d : Nat) (v : PwrDie) (x : Nat) : dieOf (setPwrDie s d v) x = dieOf s x := rfl
@[simp] theorem clusterOf_setPwrDie (d : Nat) (v : PwrDie) (x y : Nat) : clusterOf (setPwrDie s d v) x y = clusterOf s x y := rfl
@[simp] theorem chanOf_setPwrDie (d : Nat) (v : PwrDie) (x y : Nat) : chanOf (setPwrDie s d v) x y = chanOf s x y := rfl
@[simp] theorem ringOf_setPwrDie (d : Nat) (v : PwrDie) (x : Nat) : ringOf (setPwrDie s d v) x = ringOf s x := rfl
@[simp] theorem vfOf_setPwrDie (d : Nat) (v : PwrDie) (x : Nat) : vfOf (setPwrDie s d v) x = vfOf s x := rfl
@[simp] theorem partOf_setPwrDie (d : Nat) (v : PwrDie) (x : Nat) : partOf (setPwrDie s d v) x = partOf s x := rfl
@[simp] theorem tableOf_setPwrDie (d : Nat) (v : PwrDie) (x y : Nat) : tableOf (setPwrDie s d v) x y = tableOf s x y := rfl
@[simp] theorem portOf_setPwrDie (d : Nat) (v : PwrDie) (x : Nat) : portOf (setPwrDie s d v) x = portOf s x := rfl
@[simp] theorem memberOf_setPwrDie (d : Nat) (v : PwrDie) (x : Nat) : memberOf (setPwrDie s d v) x = memberOf s x := rfl
@[simp] theorem codecOf_setPwrDie (d : Nat) (v : PwrDie) (x : Nat) : codecOf (setPwrDie s d v) x = codecOf s x := rfl
@[simp] theorem zoneOf_setPwrDie (d : Nat) (v : PwrDie) (x : Nat) : zoneOf (setPwrDie s d v) x = zoneOf s x := rfl
@[simp] theorem sectorOf_setPwrDie (d : Nat) (v : PwrDie) (x y q : Nat) : sectorOf (setPwrDie s d v) x y q = sectorOf s x y q := rfl
@[simp] theorem findCmd_setPwrDie (d : Nat) (v : PwrDie) (w : Uid) : findCmd (setPwrDie s d v) w = findCmd s w := rfl
@[simp] theorem dieOf_setZone (z : Nat) (v : Zone) (x : Nat) : dieOf (setZone s z v) x = dieOf s x := rfl
@[simp] theorem clusterOf_setZone (z : Nat) (v : Zone) (x y : Nat) : clusterOf (setZone s z v) x y = clusterOf s x y := rfl
@[simp] theorem chanOf_setZone (z : Nat) (v : Zone) (x y : Nat) : chanOf (setZone s z v) x y = chanOf s x y := rfl
@[simp] theorem ringOf_setZone (z : Nat) (v : Zone) (x : Nat) : ringOf (setZone s z v) x = ringOf s x := rfl
@[simp] theorem vfOf_setZone (z : Nat) (v : Zone) (x : Nat) : vfOf (setZone s z v) x = vfOf s x := rfl
@[simp] theorem partOf_setZone (z : Nat) (v : Zone) (x : Nat) : partOf (setZone s z v) x = partOf s x := rfl
@[simp] theorem tableOf_setZone (z : Nat) (v : Zone) (x y : Nat) : tableOf (setZone s z v) x y = tableOf s x y := rfl
@[simp] theorem portOf_setZone (z : Nat) (v : Zone) (x : Nat) : portOf (setZone s z v) x = portOf s x := rfl
@[simp] theorem memberOf_setZone (z : Nat) (v : Zone) (x : Nat) : memberOf (setZone s z v) x = memberOf s x := rfl
@[simp] theorem codecOf_setZone (z : Nat) (v : Zone) (x : Nat) : codecOf (setZone s z v) x = codecOf s x := rfl
@[simp] theorem pwrDieOf_setZone (z : Nat) (v : Zone) (x : Nat) : pwrDieOf (setZone s z v) x = pwrDieOf s x := rfl
@[simp] theorem sectorOf_setZone (z : Nat) (v : Zone) (x y q : Nat) : sectorOf (setZone s z v) x y q = sectorOf s x y q := rfl
@[simp] theorem findCmd_setZone (z : Nat) (v : Zone) (w : Uid) : findCmd (setZone s z v) w = findCmd s w := rfl
@[simp] theorem dieOf_setRound (d : Nat) (v : DispatchRound) (x : Nat) : dieOf (setRound s d v) x = dieOf s x := rfl
@[simp] theorem clusterOf_setRound (d : Nat) (v : DispatchRound) (x y : Nat) : clusterOf (setRound s d v) x y = clusterOf s x y := rfl
@[simp] theorem chanOf_setRound (d : Nat) (v : DispatchRound) (x y : Nat) : chanOf (setRound s d v) x y = chanOf s x y := rfl
@[simp] theorem ringOf_setRound (d : Nat) (v : DispatchRound) (x : Nat) : ringOf (setRound s d v) x = ringOf s x := rfl
@[simp] theorem vfOf_setRound (d : Nat) (v : DispatchRound) (x : Nat) : vfOf (setRound s d v) x = vfOf s x := rfl
@[simp] theorem partOf_setRound (d : Nat) (v : DispatchRound) (x : Nat) : partOf (setRound s d v) x = partOf s x := rfl
@[simp] theorem tableOf_setRound (d : Nat) (v : DispatchRound) (x y : Nat) : tableOf (setRound s d v) x y = tableOf s x y := rfl
@[simp] theorem portOf_setRound (d : Nat) (v : DispatchRound) (x : Nat) : portOf (setRound s d v) x = portOf s x := rfl
@[simp] theorem memberOf_setRound (d : Nat) (v : DispatchRound) (x : Nat) : memberOf (setRound s d v) x = memberOf s x := rfl
@[simp] theorem codecOf_setRound (d : Nat) (v : DispatchRound) (x : Nat) : codecOf (setRound s d v) x = codecOf s x := rfl
@[simp] theorem pwrDieOf_setRound (d : Nat) (v : DispatchRound) (x : Nat) : pwrDieOf (setRound s d v) x = pwrDieOf s x := rfl
@[simp] theorem zoneOf_setRound (d : Nat) (v : DispatchRound) (x : Nat) : zoneOf (setRound s d v) x = zoneOf s x := rfl
@[simp] theorem sectorOf_setRound (d : Nat) (v : DispatchRound) (x y q : Nat) : sectorOf (setRound s d v) x y q = sectorOf s x y q := rfl
@[simp] theorem findCmd_setRound (d : Nat) (v : DispatchRound) (w : Uid) : findCmd (setRound s d v) w = findCmd s w := rfl
@[simp] theorem dieOf_setSector (d c i : Nat) (v : Sector) (x : Nat) : dieOf (setSector s d c i v) x = dieOf s x := rfl
@[simp] theorem clusterOf_setSector (d c i : Nat) (v : Sector) (x y : Nat) : clusterOf (setSector s d c i v) x y = clusterOf s x y := rfl
@[simp] theorem chanOf_setSector (d c i : Nat) (v : Sector) (x y : Nat) : chanOf (setSector s d c i v) x y = chanOf s x y := rfl
@[simp] theorem ringOf_setSector (d c i : Nat) (v : Sector) (x : Nat) : ringOf (setSector s d c i v) x = ringOf s x := rfl
@[simp] theorem vfOf_setSector (d c i : Nat) (v : Sector) (x : Nat) : vfOf (setSector s d c i v) x = vfOf s x := rfl
@[simp] theorem partOf_setSector (d c i : Nat) (v : Sector) (x : Nat) : partOf (setSector s d c i v) x = partOf s x := rfl
@[simp] theorem tableOf_setSector (d c i : Nat) (v : Sector) (x y : Nat) : tableOf (setSector s d c i v) x y = tableOf s x y := rfl
@[simp] theorem portOf_setSector (d c i : Nat) (v : Sector) (x : Nat) : portOf (setSector s d c i v) x = portOf s x := rfl
@[simp] theorem memberOf_setSector (d c i : Nat) (v : Sector) (x : Nat) : memberOf (setSector s d c i v) x = memberOf s x := rfl
@[simp] theorem codecOf_setSector (d c i : Nat) (v : Sector) (x : Nat) : codecOf (setSector s d c i v) x = codecOf s x := rfl
@[simp] theorem pwrDieOf_setSector (d c i : Nat) (v : Sector) (x : Nat) : pwrDieOf (setSector s d c i v) x = pwrDieOf s x := rfl
@[simp] theorem zoneOf_setSector (d c i : Nat) (v : Sector) (x : Nat) : zoneOf (setSector s d c i v) x = zoneOf s x := rfl
@[simp] theorem findCmd_setSector (d c i : Nat) (v : Sector) (w : Uid) : findCmd (setSector s d c i v) w = findCmd s w := rfl
@[simp] theorem dieOf_modCmd (u : Uid) (f : Cmd → Cmd) (x : Nat) : dieOf (modCmd s u f) x = dieOf s x := rfl
@[simp] theorem clusterOf_modCmd (u : Uid) (f : Cmd → Cmd) (x y : Nat) : clusterOf (modCmd s u f) x y = clusterOf s x y := rfl
@[simp] theorem chanOf_modCmd (u : Uid) (f : Cmd → Cmd) (x y : Nat) : chanOf (modCmd s u f) x y = chanOf s x y := rfl
@[simp] theorem ringOf_modCmd (u : Uid) (f : Cmd → Cmd) (x : Nat) : ringOf (modCmd s u f) x = ringOf s x := rfl
@[simp] theorem vfOf_modCmd (u : Uid) (f : Cmd → Cmd) (x : Nat) : vfOf (modCmd s u f) x = vfOf s x := rfl
@[simp] theorem partOf_modCmd (u : Uid) (f : Cmd → Cmd) (x : Nat) : partOf (modCmd s u f) x = partOf s x := rfl
@[simp] theorem tableOf_modCmd (u : Uid) (f : Cmd → Cmd) (x y : Nat) : tableOf (modCmd s u f) x y = tableOf s x y := rfl
@[simp] theorem portOf_modCmd (u : Uid) (f : Cmd → Cmd) (x : Nat) : portOf (modCmd s u f) x = portOf s x := rfl
@[simp] theorem memberOf_modCmd (u : Uid) (f : Cmd → Cmd) (x : Nat) : memberOf (modCmd s u f) x = memberOf s x := rfl
@[simp] theorem codecOf_modCmd (u : Uid) (f : Cmd → Cmd) (x : Nat) : codecOf (modCmd s u f) x = codecOf s x := rfl
@[simp] theorem pwrDieOf_modCmd (u : Uid) (f : Cmd → Cmd) (x : Nat) : pwrDieOf (modCmd s u f) x = pwrDieOf s x := rfl
@[simp] theorem zoneOf_modCmd (u : Uid) (f : Cmd → Cmd) (x : Nat) : zoneOf (modCmd s u f) x = zoneOf s x := rfl
@[simp] theorem sectorOf_modCmd (u : Uid) (f : Cmd → Cmd) (x y q : Nat) : sectorOf (modCmd s u f) x y q = sectorOf s x y q := rfl
@[simp] theorem dieOf_dropCmd (u : Uid) (x : Nat) : dieOf (dropCmd s u) x = dieOf s x := rfl
@[simp] theorem clusterOf_dropCmd (u : Uid) (x y : Nat) : clusterOf (dropCmd s u) x y = clusterOf s x y := rfl
@[simp] theorem chanOf_dropCmd (u : Uid) (x y : Nat) : chanOf (dropCmd s u) x y = chanOf s x y := rfl
@[simp] theorem ringOf_dropCmd (u : Uid) (x : Nat) : ringOf (dropCmd s u) x = ringOf s x := rfl
@[simp] theorem vfOf_dropCmd (u : Uid) (x : Nat) : vfOf (dropCmd s u) x = vfOf s x := rfl
@[simp] theorem partOf_dropCmd (u : Uid) (x : Nat) : partOf (dropCmd s u) x = partOf s x := rfl
@[simp] theorem tableOf_dropCmd (u : Uid) (x y : Nat) : tableOf (dropCmd s u) x y = tableOf s x y := rfl
@[simp] theorem portOf_dropCmd (u : Uid) (x : Nat) : portOf (dropCmd s u) x = portOf s x := rfl
@[simp] theorem memberOf_dropCmd (u : Uid) (x : Nat) : memberOf (dropCmd s u) x = memberOf s x := rfl
@[simp] theorem codecOf_dropCmd (u : Uid) (x : Nat) : codecOf (dropCmd s u) x = codecOf s x := rfl
@[simp] theorem pwrDieOf_dropCmd (u : Uid) (x : Nat) : pwrDieOf (dropCmd s u) x = pwrDieOf s x := rfl
@[simp] theorem zoneOf_dropCmd (u : Uid) (x : Nat) : zoneOf (dropCmd s u) x = zoneOf s x := rfl
@[simp] theorem sectorOf_dropCmd (u : Uid) (x y q : Nat) : sectorOf (dropCmd s u) x y q = sectorOf s x y q := rfl
@[simp] theorem dieOf_hostWrite (a : Nat) (bs : List Byte) (x : Nat) : dieOf (hostWrite s a bs) x = dieOf s x := rfl
@[simp] theorem clusterOf_hostWrite (a : Nat) (bs : List Byte) (x y : Nat) : clusterOf (hostWrite s a bs) x y = clusterOf s x y := rfl
@[simp] theorem chanOf_hostWrite (a : Nat) (bs : List Byte) (x y : Nat) : chanOf (hostWrite s a bs) x y = chanOf s x y := rfl
@[simp] theorem ringOf_hostWrite (a : Nat) (bs : List Byte) (x : Nat) : ringOf (hostWrite s a bs) x = ringOf s x := rfl
@[simp] theorem vfOf_hostWrite (a : Nat) (bs : List Byte) (x : Nat) : vfOf (hostWrite s a bs) x = vfOf s x := rfl
@[simp] theorem partOf_hostWrite (a : Nat) (bs : List Byte) (x : Nat) : partOf (hostWrite s a bs) x = partOf s x := rfl
@[simp] theorem tableOf_hostWrite (a : Nat) (bs : List Byte) (x y : Nat) : tableOf (hostWrite s a bs) x y = tableOf s x y := rfl
@[simp] theorem portOf_hostWrite (a : Nat) (bs : List Byte) (x : Nat) : portOf (hostWrite s a bs) x = portOf s x := rfl
@[simp] theorem memberOf_hostWrite (a : Nat) (bs : List Byte) (x : Nat) : memberOf (hostWrite s a bs) x = memberOf s x := rfl
@[simp] theorem codecOf_hostWrite (a : Nat) (bs : List Byte) (x : Nat) : codecOf (hostWrite s a bs) x = codecOf s x := rfl
@[simp] theorem pwrDieOf_hostWrite (a : Nat) (bs : List Byte) (x : Nat) : pwrDieOf (hostWrite s a bs) x = pwrDieOf s x := rfl
@[simp] theorem zoneOf_hostWrite (a : Nat) (bs : List Byte) (x : Nat) : zoneOf (hostWrite s a bs) x = zoneOf s x := rfl
@[simp] theorem sectorOf_hostWrite (a : Nat) (bs : List Byte) (x y q : Nat) : sectorOf (hostWrite s a bs) x y q = sectorOf s x y q := rfl
@[simp] theorem findCmd_hostWrite (a : Nat) (bs : List Byte) (w : Uid) : findCmd (hostWrite s a bs) w = findCmd s w := rfl
@[simp] theorem dieOf_answer (a : Answer) (x : Nat) : dieOf (answer s a) x = dieOf s x := rfl
@[simp] theorem clusterOf_answer (a : Answer) (x y : Nat) : clusterOf (answer s a) x y = clusterOf s x y := rfl
@[simp] theorem chanOf_answer (a : Answer) (x y : Nat) : chanOf (answer s a) x y = chanOf s x y := rfl
@[simp] theorem ringOf_answer (a : Answer) (x : Nat) : ringOf (answer s a) x = ringOf s x := rfl
@[simp] theorem vfOf_answer (a : Answer) (x : Nat) : vfOf (answer s a) x = vfOf s x := rfl
@[simp] theorem partOf_answer (a : Answer) (x : Nat) : partOf (answer s a) x = partOf s x := rfl
@[simp] theorem tableOf_answer (a : Answer) (x y : Nat) : tableOf (answer s a) x y = tableOf s x y := rfl
@[simp] theorem portOf_answer (a : Answer) (x : Nat) : portOf (answer s a) x = portOf s x := rfl
@[simp] theorem memberOf_answer (a : Answer) (x : Nat) : memberOf (answer s a) x = memberOf s x := rfl
@[simp] theorem codecOf_answer (a : Answer) (x : Nat) : codecOf (answer s a) x = codecOf s x := rfl
@[simp] theorem pwrDieOf_answer (a : Answer) (x : Nat) : pwrDieOf (answer s a) x = pwrDieOf s x := rfl
@[simp] theorem zoneOf_answer (a : Answer) (x : Nat) : zoneOf (answer s a) x = zoneOf s x := rfl
@[simp] theorem sectorOf_answer (a : Answer) (x y q : Nat) : sectorOf (answer s a) x y q = sectorOf s x y q := rfl
@[simp] theorem findCmd_answer (a : Answer) (w : Uid) : findCmd (answer s a) w = findCmd s w := rfl

/-! ### The time of the timeline -/

@[simp] theorem absTick_setAbsTick (came : Tick) (a : Nat) : absTick (setAbsTick s came a) = a := by
  show a / 2 ^ 40 * 2 ^ 40 + (BitVec.ofNat 40 a).toNat = a
  rw [BitVec.toNat_ofNat]
  omega

end Sys2Proof.Laws
end

