-- ==== Sys2Proof/Laws/Commands.lean ====
section
/-!
SUPPORT. What the shared operations of commands answer: finding and changing a command, its right to run, its units, checks,
and the exact sum of two numbers.
-/
namespace Sys2Proof.Laws

open Sys2Proof Sys2Proof.Machine Sys2Proof.Claims

/-! ### Commands by number -/

/-- A command that is found carries the number looked for. -/
theorem findCmd_uid {s : State} {u : Uid} {c : Cmd} (h : findCmd s u = some c) : c.uid = u := by
  simpa using List.find?_some h

/-- Looking up a number after changing the entry of it. -/
theorem find_mapped {u : Uid} {f : Cmd → Cmd} (hf : ∀ c, (f c).uid = c.uid) (l : List Cmd) :
    (l.map (fun c => if c.uid == u then f c else c)).find? (fun c => c.uid == u)
      = (l.find? (fun c => c.uid == u)).map f := by
  induction l with
  | nil => rfl
  | cons a l ih =>
    simp only [List.map_cons, List.find?_cons]
    by_cases h : a.uid == u
    · simp [h, hf]
    · simpa [h] using ih

/-- Looking up another number. -/
theorem find_mapped_ne {u v : Uid} {f : Cmd → Cmd} (hf : ∀ c, (f c).uid = c.uid) (h : v ≠ u) (l : List Cmd) :
    (l.map (fun c => if c.uid == u then f c else c)).find? (fun c => c.uid == v) = l.find? (fun c => c.uid == v) := by
  induction l with
  | nil => rfl
  | cons a l ih =>
    simp only [List.map_cons, List.find?_cons]
    have ha : ((if a.uid == u then f a else a).uid == v) = (a.uid == v) := by
      split <;> simp [hf]
    rw [ha, ih]
    by_cases e : a.uid = u
    · have : (a.uid == v) = false := by simp [e, Ne.symm h]
      simp [this]
    · simp [e]

/-- Changing one command changes what is found, by the same function. -/
theorem findCmd_modCmd {s : State} {u : Uid} {f : Cmd → Cmd} (hf : ∀ c, (f c).uid = c.uid) :
    findCmd (modCmd s u f) u = (findCmd s u).map f := by
  unfold findCmd allCmds modCmd mapCmds
  rw [← List.map_append]
  exact find_mapped hf _

/-- Changing one command leaves what is found under another number. -/
theorem findCmd_modCmd_ne {s : State} {u v : Uid} {f : Cmd → Cmd} (hf : ∀ c, (f c).uid = c.uid) (h : v ≠ u) :
    findCmd (modCmd s u f) v = findCmd s v := by
  unfold findCmd allCmds modCmd mapCmds
  rw [← List.map_append]
  exact find_mapped_ne hf h _

/-- Two changes of one command are one. -/
theorem modCmd_modCmd {s : State} {u : Uid} {f g : Cmd → Cmd} (hf : ∀ c, (f c).uid = c.uid) :
    modCmd (modCmd s u f) u g = modCmd s u (fun c => g (f c)) := by
  simp only [modCmd, mapCmds, List.map_map, Function.comp_def]
  have h : (fun c : Cmd => if (if c.uid == u then f c else c).uid == u then g (if c.uid == u then f c else c)
      else if c.uid == u then f c else c) = fun c => if c.uid == u then g (f c) else c := by
    funext c
    by_cases h : c.uid = u <;> simp [h, hf]
  rw [h]

/-! ### Commands that run -/

/-- A started command with nothing in its way may run: where its context lets it, or as a command that is never cut. -/
theorem mayRun_of_runs {s : State} {u : Uid} {op : Nat} {c : Cmd} (h : Runs s u op c)
    (w : (startsGroups s c = true ∨ tileOp op = false ∧ ctxOpen s c = true) ∨ (waitOp op || neverCut op) = true) :
    mayRun s c = true := by
  obtain ⟨h1, h2, h3, h4, h5, h6, h7⟩ := h
  have hg : s.groups.any (fun g => g.cmd == c.uid) = false := by
    simp only [List.any_eq_false]
    intro g hg
    simp [findCmd_uid h1, h7 g hg]
  simp only [startsGroups, Bool.or_eq_true, Bool.and_eq_true, Bool.not_eq_true'] at w
  rcases w with ((w | ⟨w, w'⟩) | ⟨w, w'⟩) | w | w <;> simp [mayRun, goesOn, *]

/-- A row of a running command acts on that command. -/
theorem withRunning_of {s : State} {u : Uid} {op : Nat} {c : Cmd} {f : Cmd → State} (h : Runs s u op c)
    (w : mayRun s c = true) : withRunning s u op f = f c := by
  unfold withRunning
  rw [h.1]
  simp [h.2.1, w]

/-- All units of a command done: the command ends with its status. -/
theorem runWhole_of {s t : State} {u : Uid} {c c' : Cmd} {x : OpSem} {f : Bool} (h : findCmd s u = some c)
    (hx : UnitsRun s c x f t) (hc : Complete t u c') : runWhole f s c = doneCmd t u c'.status := by
  have hr := hx.2
  simp at hr
  simp [runWhole, hx.1, hr, finishUnits, findCmd_uid h, hc.1, hc.2.1, hc.2.2.1, hc.2.2.2]

theorem runUnitsRow_of {s t : State} {u : Uid} {op : Nat} {c c' : Cmd} {x : OpSem} (h : RunsOpen s u op c)
    (hd : c.unitsDone.contains workDone = false) (hx : UnitsRun s c x false t) (hc : Complete t u c') :
    runUnitsRow op u s = doneCmd t u c'.status := by
  unfold runUnitsRow
  rw [withRunning_of h.1 (mayRun_of_runs h.1 (.inl h.2)), hd]
  simp [runWhole_of h.1.1 hx hc]

theorem runCodecRow_of {s t : State} {u : Uid} {op : Nat} {c c' : Cmd} {x : OpSem} (ho : codecOp op = true)
    (h : RunsCodec s u op c) (hx : UnitsRun s c x false t) (hc : Complete t u c') :
    runCodecRow op u s = doneCmd t u c'.status := by
  obtain ⟨h1, h2, h3, h4, h5⟩ := h
  have hg : s.groups.any (fun g => g.cmd == c.uid) = false := by
    simp only [List.any_eq_false]
    intro g hg
    simp [findCmd_uid h1, h5 g hg]
  have hm : mayRun s c = true := by simp [mayRun, goesOn, h2, h3, ho, hg]
  simp [runCodecRow, withRunning, h1, h2, hm, h4, runWhole_of h1 hx hc]

/-- One unit of a command of one unit, and its mark. -/
theorem runUnits_one {x : OpSem} {k : Ctx} {s t : State} {c : Cmd} (h : findCmd s k.uid = some c) (hd : c.unitsDone = [])
    (hx : (x.unit false k 0).run.run s = (.ok (), t)) :
    (runUnits x false k [0]).run.run s
      = (.ok (), modCmd t k.uid (fun c => { c with unitsDone := c.unitsDone ++ [0] })) := by
  have h1 : ¬ ((findCmd s k.uid).elim [] Cmd.unitsDone).contains 0 = true := by rw [h]; simp [hd]
  unfold runUnits
  rw [cmd_get_bind]
  simp only [h1, Bool.not_false, if_true]
  show ((x.unit false k 0 >>= fun _ => markUnit k 0 >>= fun _ => runUnits x false k []).run.run s) = _
  rw [cmd_bind_ok hx]
  rfl

/-- A FILL unit of host memory. -/
theorem unitFill_host {s : State} {k : Ctx} {n : Nat} (h : bit k.desc 296 = true) (hn : moveBytes k.desc 0 = n) :
    (unitFill false k 0).run.run s
      = (.ok (), noteWrite k.uid (hostWrite s (fieldN k.desc 128 64) ((range 0 n).map (patternByte k.desc)))) := by
  unfold unitFill moveOut
  rw [hn, Nat.zero_mul]
  simp only [h, if_true, cmdHostWrite]
  rfl

/-! ### Set-up, rings, checks -/

/-- A set-up write on a READY module that is its own anchor applies. -/
theorem setupWrite_open {s : State} {off v : Nat} {f : State → State} (h : SetupOpen s) : setupWrite s off v f = f s := by
  simp [setupWrite, isReady, h.1, h.2.1, h.2.2]

/-- Fetching a slot without a sync record takes one place of the ring (R367). -/
theorem fetchSlots_step {n : Nat} {s : State} {r : Nat} (h : hasSync (slotAhead s r 0) = false) :
    fetchSlots (n + 1) s r = fetchSlots n (setRing s r { ringOf s r with
      sqHead := ixNext (ringOf s r).sqSize (ringOf s r).sqHead
      fetched := (ringOf s r).fetched ++ [⟨slotAhead s r 0, 0⟩] }) r := by
  have h' : hasSync (bytesToBv 1024
      (hostRead s ((ringOf s r).sqBase + 128 * fieldN (ringOf s r).sqHead 0 16) 128)) = false := h
  cases n <;> exact if_neg (by rw [h']; decide)

/-- What a check of an operand adds to the list of faults. -/
theorem mem_need {ok : Bool} {off : Nat} {x : Bad} : x ∈ need ok off ↔ ok = false ∧ x = (.illegalDescriptor, off) := by
  cases ok <;> simp [need]

theorem mem_needZero {ok : Bool} {off : Nat} {x : Bad} : x ∈ needZero ok off ↔ ok = false ∧ x = (.reservedNonzero, off) := by
  cases ok <;> simp [needZero]

/-! ### Exact sums (R42) -/

/-- A magnitude brought to a lower place keeps its value. -/
theorem fixedAt_val (n : Bool) (m : Nat) (e q : Int) (h : q ≤ e) :
    ((fixedAt n m e q : Int) : ℚ) * (2 : ℚ) ^ q = exactVal (.fin n m e) := by
  obtain ⟨k, hk⟩ : ∃ k : Nat, e - q = k := ⟨(e - q).toNat, by omega⟩
  have he : e = q + k := by omega
  have hp : (2 : ℚ) ^ e = 2 ^ q * 2 ^ k := by
    rw [he, zpow_add₀ (by norm_num)]
    simp
  simp only [fixedAt, scaleUp, hk, exactVal, hp]
  cases n <;> simp <;> ring

end Sys2Proof.Laws
end

