-- ==== Sys2Proof/Laws/Fec.lean ====
section
/-!
SUPPORT. Laws of RS(544,514): symbols of value 0 ahead of a word's first nonzero symbol leave a syndrome as it is.
-/
namespace Sys2Proof.Laws

open Sys2Proof Sys2Proof.Machine

theorem symMulFrom_zero (n : Nat) (b : Sym) : symMulFrom n 0 b = 0 := by
  induction n generalizing b with
  | zero => rfl
  | succ n ih =>
    have h : symX2 0 = 0 := by decide
    simp only [symMulFrom, h, ih]
    simp

/-- A Horner sum from 0 skips the zeros ahead. -/
theorem symHorner_zeros (x : Sym) (n : Nat) (cs : List Sym) :
    symHorner x 0 (List.replicate n 0 ++ cs) = symHorner x 0 cs := by
  induction n with
  | zero => rfl
  | succ n ih =>
    simp only [List.replicate_succ, List.cons_append, symHorner, symMul, symMulFrom_zero, BitVec.xor_self]
    exact ih

theorem fecSyndromes_zeros (n : Nat) (cs : List Sym) :
    fecSyndromes (List.replicate n 0 ++ cs) = fecSyndromes cs := by
  simp only [fecSyndromes, symHorner_zeros]

/-- Syndromes of zeros make a word a codeword. -/
theorem fecDecode_good {w : BitVec 5440} (h : (fecSyndromes (symbolsOf 544 w)).all (· == 0) = true) :
    fecDecode w = some (field w 0 5140, 0) := by
  simp only [fecDecode, h, if_true]

/-- A word whose locator is longer than fifteen is not corrected. -/
theorem fecDecode_bad {w : BitVec 5440} (h : (fecSyndromes (symbolsOf 544 w)).all (· == 0) = false)
    (hl : 15 < (fecLocator (fecSyndromes (symbolsOf 544 w))).length) : fecDecode w = none := by
  simp only [fecDecode, h, Bool.false_eq_true, if_false, decide_eq_true hl, Bool.true_or, if_true]

end Sys2Proof.Laws
end

