-- ==== Sys2Proof/Safety.lean ====
section
/-!
DEFINITION. A safe run: the module neither faults nor meets a row without a meaning.
-/
namespace Sys2Proof.Machine

/-- The step answers a next state. -/
def StepsSafely (s : State) : Prop := ∃ t, step s = .next t

end Sys2Proof.Machine
end

