-- ==== Sys2Proof/WellFormed.lean ====
section
/-!
DEFINITION. Which command terms are well formed: operand lists of the lengths their rows need.
-/
namespace Sys2Proof

/-- A well-formed command. -/
def Instr.wf : Instr → Bool
  | .governorEpoch r => r.zones.length == 32 && r.dieW.length == 8 && r.inputMv % 10 == 0
      && (r.zones.take 30).all (fun z => z != some .openOrShorted)
  | .sagEnter x => x.lowestMv % 10 == 0 && x.latestMv % 10 == 0 && decide (x.lowestMv ≤ x.latestMv)
  | .orderlyShutdown x => x.inputMv % 10 == 0
  | .coldReset (.applied mv) => mv % 10 == 0
  | .coldReset (.restored mv _ _) => mv % 10 == 0
  | .arrayPass _ _ p => decide (1 ≤ p.rows) && decide (p.rows ≤ 65536)
  | .bar4Read _ n => decide (1 ≤ n)
  | .bar4Write _ d => decide (d ≠ [])
  | .spWrite _ _ _ d => decide (d.bytes ≠ [])
  | .neighbourAccess _ _ _ _ (.read n) => decide (1 ≤ n)
  | .neighbourAccess _ _ _ _ (.write d) => decide (d ≠ [])
  | .bootComplete _ (some b) => b.length == 16
  | .tileGroupStart _ _ ks => decide ks.Nodup
  | .hbmMaintenance _ rs => rs.length == 2
  | .hbmRead _ o _ _ => o.toNat % 32 == 0
  | .hbmWrite _ o _ => o.toNat % 32 == 0
  | .hbmRmw _ o _ _ _ => o.toNat % 32 == 0
  | _ => true

end Sys2Proof
end

