-- ==== Sys2Proof/Tests/Slice0.lean ====
section
/-!
SUPPORT. Tests of the model: a smoke test of `Instr.wf`, small tests of commands with values from the spec, and a witness for
the hypotheses of every statement.
-/
namespace Sys2Proof.Tests

set_option Elab.async false

open Sys2Proof Sys2Proof.Machine Sys2Proof.Claims

/-! ### States the tests start from -/

/-- A module that is READY, with its dies on. -/
def ready : State :=
  { State.reset with
    pwr := { State.reset.pwr with
      stage := 5, clamp := false, inhibit := false, perstN := true
      dies := (List.range 8).map (fun d => (d, { PwrDie.dflt with state := 1 })) }
    dies := (List.range 8).map (fun d => (d, { DieBlock.dflt with
      live := BitVec.allOnes 64, shadow := BitVec.allOnes 64, trained0 := true, trained1 := true, tested := true })) }

/-- A descriptor of an opcode and fields, each a place and a value. -/
def descOf (op : Nat) (fs : List (Nat × Nat)) : BitVec 1024 := BitVec.ofNat 1024 (op + (fs.map (fun f => f.2 * 2 ^ f.1)).sum)

/-- A tile group of command 1 on a die. -/
def anyGroup (d : Nat) (running : Bool) : TileGroup :=
  { TileGroup.fresh 0 1 0 .grid with die := d, running := running }

/-- Command 1 of ring 0, started. -/
def cmdOf (d : BitVec 1024) : Cmd := { freshCmd 1 0 0 d 0 0 1 with phase := .started }

/-- The module with one command. -/
def withCmds (cs : List Cmd) : State := { ready with cmds := cs, nextUid := 9 }
def withCmd (d : BitVec 1024) : State := withCmds [cmdOf d]

/-- A module whose anchor is module 7. -/
def member : State := { ready with zw := { ready.zw with anchorId := 7 } }

/-- Stores bytes in HBM. -/
def put (s : State) (a : Nat) (bs : List Byte) : State := bar4Spans (sectorSpans a bs.length) bs s

/-- The bytes of a tensor descriptor (R375). -/
def tens (base fmt : Nat) (dims strides : List Nat) : List Byte :=
  bvToBytes 64 (BitVec.ofNat 512 (base + fmt * 2 ^ 64 + dims.length * 2 ^ 72
    + ((List.range dims.length).map (fun i =>
        dims.getD i 0 * 2 ^ (130 + 25 * i) + strides.getD i 0 * 2 ^ (280 + 38 * i))).sum))

def w64 (n : Nat) : List Byte := bvToBytes 8 (BitVec.ofNat 64 n)

/-- Where operand `i` of the tests lies, above the table area. -/
def opAt (i : Nat) : Nat := 17179869184 + 64 * i

/-- Stores the descriptor of a tensor of format `fmt`, whose elements lie at a place of its own. -/
def putTens (s : State) (i fmt : Nat) (dims st : List Nat) : State :=
  put s (opAt i) (tens (17179885568 + 256 * i) fmt dims st)

/-- A program of one stage, which moves source `src` to slot 3 (R112). -/
def progOf (src : Nat) : List Byte := bvToBytes 32 (BitVec.ofNat 256 (1 + (1 + src * 2 ^ 8 + 3 * 2 ^ 20) * 2 ^ 128))

/-- The state that a row leaves. -/
def nextOf (s : State) (c : Instr) : State :=
  match exec c s with
  | .next t => t
  | _ => s

/-- Whether a command's work runs to its end with a value that passes a test. -/
def okWith {α : Type} (m : CmdM α) (s : State) (p : α → Bool) : Bool :=
  match (m.run.run s).1 with
  | .ok v => p v
  | .error _ => false

theorem runs_to {α : Type} [DecidableEq α] {m : CmdM α} {s : State} {v : α} (h : okWith m s (fun x => decide (x = v)) = true) :
    m.run.run s = (.ok v, (m.run.run s).2) := by
  unfold okWith at h
  split at h
  next x hx => exact Prod.ext_iff.mpr ⟨hx.trans (congrArg _ (of_decide_eq_true h)), rfl⟩
  next => cases h

theorem runs_some {α : Type} {m : CmdM α} {s : State} (h : okWith m s (fun _ => true) = true) :
    ∃ v, m.run.run s = (.ok v, (m.run.run s).2) := by
  unfold okWith at h
  split at h
  next x hx => exact ⟨x, Prod.ext_iff.mpr ⟨hx, rfl⟩⟩
  next => cases h

/-- The value with which a command's work ends. -/
def valueOf {α : Type} [Inhabited α] (m : CmdM α) (s : State) : α :=
  match (m.run.run s).1 with
  | .ok v => v
  | .error _ => default

theorem runs_with {α β : Type} [Inhabited α] [Inhabited β] {m : CmdM (α × β)} {s : State} {p : α × β → Bool}
    (h : okWith m s p = true) :
    m.run.run s = (.ok ((valueOf m s).1, (valueOf m s).2), (m.run.run s).2) ∧ p (valueOf m s) = true := by
  unfold okWith at h
  unfold valueOf
  split at h
  next x hx => exact ⟨Prod.ext_iff.mpr ⟨hx, rfl⟩, h⟩
  next => cases h

theorem some_of {α : Type} {o : Option α} (h : o.isSome = true) : ∃ v, o = some v := Option.isSome_iff_exists.mp h

/-! ### Witnesses: commands -/

/-- An EVENT_WAIT for the counter at operand 40 to reach 5. -/
def waitDesc : BitVec 1024 := descOf 0x04 [(128, 1), (256, opAt 40), (320, 5)]
def waitAt (n : Nat) : State := put (withCmd waitDesc) (opAt 40) (w64 n)

/-- A NOP that waits for the same counter. -/
def headWait : Cmd :=
  { cmdOf (descOf 0x01 [(8, 1)]) with phase := .waiting, sync := descOf 0 [(64, opAt 40), (128, 5)] }
def headAt (c : Cmd) (n : Nat) : State := put (withCmds [c]) (opAt 40) (w64 n)

theorem witness_WaitingCommandsComplete :
    (∃ s u c, Runs s u 0x01 c)
    ∧ (∃ s u c, Runs s u 0x02 c ∧ (∀ x ∈ earlierOf s c, x.phase = .finished) ∧ fenceFailed s c = false)
    ∧ (∃ s u c, Runs s u 0x02 c ∧ (∀ x ∈ earlierOf s c, x.phase = .finished) ∧ fenceFailed s c = true)
    ∧ (∃ s u c, Runs s u 0x03 c ∧ (∀ x ∈ earlierOf s c, x.phase = .finished))
    ∧ (∃ s u c t, Runs s u 0x04 c ∧ (readWaits (ctxOf s c) (ownEntries c.desc)).run.run s = (.ok .met, t))
    ∧ (∃ s u c t, Runs s u 0x04 c ∧ (readWaits (ctxOf s c) (ownEntries c.desc)).run.run s = (.ok .failed, t))
    ∧ (∃ s u c, Runs s u 0x05 c ∧ reached s.time.now (waitTick c.desc) = true) :=
  ⟨⟨withCmd 1, 1, cmdOf 1, by unfold Runs; decide +kernel⟩,
   ⟨withCmd 2, 1, cmdOf 2, by unfold Runs; decide +kernel⟩,
   ⟨setRing (withCmd 2) 0 { ringOf ready 0 with failedSince := true }, 1, cmdOf 2, by unfold Runs; decide +kernel⟩,
   ⟨withCmd 3, 1, cmdOf 3, by unfold Runs; decide +kernel⟩,
   ⟨waitAt 5, 1, cmdOf waitDesc, _, by unfold Runs; decide +kernel, runs_to (by decide +kernel)⟩,
   ⟨waitAt (2 ^ 63), 1, cmdOf waitDesc, _, by unfold Runs; decide +kernel, runs_to (by decide +kernel)⟩,
   ⟨withCmd 5, 1, cmdOf 5, by unfold Runs; decide +kernel⟩⟩

theorem witness_WaitsEnd :
    (∃ s u c, findCmd s u = some c ∧ c.phase = .started ∧ opcodeOf c.desc = 0x05
      ∧ reached s.time.now (waitTick c.desc) = true)
    ∧ (∃ s u c t, findCmd s u = some c ∧ c.phase = .waiting
      ∧ (readWaits (ctxOf s c) (headerWaits c.desc c.sync)).run.run s = (.ok .met, t))
    ∧ (∃ s u c t, findCmd s u = some c ∧ c.phase = .waiting
      ∧ (readWaits (ctxOf s c) (headerWaits c.desc c.sync)).run.run s = (.ok .failed, t))
    ∧ (∃ s u c, findCmd s u = some c ∧ c.phase = .waiting ∧ deadlineOf c.desc ≠ 0
      ∧ reached s.time.now (deadlineOf c.desc) = true) :=
  ⟨⟨withCmd 5, 1, cmdOf 5, by decide +kernel⟩,
   ⟨headAt headWait 5, 1, headWait, _, by decide +kernel, by decide +kernel, runs_to (by decide +kernel)⟩,
   ⟨headAt headWait (2 ^ 63), 1, headWait, _, by decide +kernel, by decide +kernel, runs_to (by decide +kernel)⟩,
   ⟨{ headAt { headWait with desc := descOf 0x01 [(64, 1)] } 0 with time := { ready.time with now := 1 } }, 1,
     { headWait with desc := descOf 0x01 [(64, 1)] }, by decide +kernel⟩⟩

theorem witness_QuietEndFinishes : ∃ s u c, findCmd s u = some c ∧ EndsQuietly s c :=
  ⟨withCmd 1, 1, cmdOf 1, by unfold EndsQuietly; decide +kernel⟩

/-- Whether a command's units run to their end from `s`, and leave it complete. -/
def unitsEnd (s : State) (c : Cmd) : Bool :=
  match opSem (opcodeOf c.desc) with
  | none => false
  | some x =>
    let m : CmdM Unit := do
      let n ← x.units (ctxOf s c)
      runUnits x false (ctxOf s c) (List.range n)
    okWith m s (fun _ => true)
      && (findCmd (m.run.run s).2 c.uid).any (fun c => !isDeferred c && !c.aborting && !c.evicting)

theorem units_end {s : State} {c : Cmd} (h : unitsEnd s c = true) :
    ∃ x t c', Complete t c.uid c' ∧ UnitsRun s c x false t := by
  unfold unitsEnd at h
  split at h
  · cases h
  · next x hx =>
    simp only [Bool.and_eq_true, Option.any_eq_true_iff_get, Bool.not_eq_true'] at h
    obtain ⟨h1, h2, ⟨h3, h4⟩, h5⟩ := h
    obtain ⟨v, hv⟩ := runs_some h1
    exact ⟨x, _, _, ⟨(Option.some_get h2).symm, h3, h4, h5⟩, hx, hv⟩

/-- Rows of FP8, and pixels or heads of FP16, at operands. -/
def rowsAt (is : List Nat) (s : State) : State := is.foldl (fun s i => putTens s i 0x10 [1, 1] [1, 1]) s
def headsAt (n : Nat) (is : List Nat) (s : State) : State :=
  is.foldl (fun s i => putTens s i 0x02 [1, 1, 1, n] [32, 32, 32, 2]) s

def matmulDesc : BitVec 1024 := descOf 0x10 [(128, opAt 0), (192, opAt 1), (256, opAt 2)]
def listDesc : BitVec 1024 := descOf 0x11 [(128, opAt 0), (192, opAt 1), (256, opAt 2), (704, opAt 10), (768, 1)]
def chainDesc : BitVec 1024 :=
  descOf 0x12 [(128, opAt 0), (192, opAt 1), (256, opAt 2), (320, opAt 3), (384, opAt 9), (768, 0x10)]
def convDesc : BitVec 1024 := descOf 0x14 [(128, opAt 4), (256, opAt 5), (596, 6), (528, 1), (532, 1)]
def attendDesc : BitVec 1024 :=
  descOf 0x18 [(128, opAt 6), (192, opAt 7), (256, opAt 8), (320, opAt 11), (704, 0x3F800000)]
def vecDesc : BitVec 1024 := descOf 0x20 [(128, opAt 12), (256, opAt 0), (512, opAt 3)]
def reduceDesc : BitVec 1024 := descOf 0x21 [(128, opAt 0), (192, opAt 20), (256, 6)]
def randomDesc : BitVec 1024 :=
  descOf 0x24 [(512, opAt 30), (576, 0x38), (584, 1), (642, 1), (792, 4)]
def sampleDesc : BitVec 1024 := descOf 0x28 [(128, opAt 13), (192, opAt 14), (256, opAt 21)]
/-- Each command with its operands in HBM. -/
def matmulAt : State := rowsAt [0, 1, 2] (withCmd matmulDesc)
def listAt : State := put (rowsAt [0, 1, 2] (withCmd listDesc)) (opAt 10)
  (w64 17179885568 ++ w64 0 ++ w64 17179886080 ++ w64 1)
def chainAt : State := put (rowsAt [0, 1, 2, 3] (withCmd chainDesc)) (opAt 9) (progOf 5)
def convAt : State := headsAt 1 [4, 5] (withCmd convDesc)
def attendAt : State := headsAt 16 [6, 7, 8, 11] (withCmd attendDesc)
def vecAt : State := put (rowsAt [0, 3] (withCmd vecDesc)) (opAt 12) (progOf 1)
def reduceAt : State := rowsAt [0] (withCmd reduceDesc)
def sampleAt : State := put (putTens (withCmd sampleDesc) 13 0x02 [1, 1] [2, 2]) (opAt 14)
  (w64 0 ++ w64 0 ++ w64 (0x3F800000 * 2 ^ 32) ++ w64 0)

/-- FILL and COPY of eight bytes of host memory. -/
def fillDesc : BitVec 1024 := descOf 0x09 [(256, 8), (296, 1)]
def copyDesc : BitVec 1024 := descOf 0x08 [(128, 64), (256, 8), (296, 1), (297, 1)]

/-- A command whose units have all been done. -/
def doneOnce (op : Nat) : Cmd := { cmdOf (descOf op []) with unitsDone := [0] }

theorem runsOpen_one {c : Cmd} {s : State} {op : Nat} (h : findCmd s 1 = some c ∧ opcodeOf c.desc = op ∧ c.phase = .started
    ∧ c.suspending = false ∧ c.evicting = false ∧ c.aborting = false ∧ s.groups = [] ∧ startsGroups s c = true) :
    RunsOpen s 1 op c := by
  obtain ⟨h1, h2, h3, h4, h5, h6, h7, h8⟩ := h
  exact ⟨⟨h1, h2, h3, h4, h5, h6, by rw [h7]; simp⟩, .inl h8⟩

/-- Some state and command of an opcode meet the hypotheses of its completion. -/
def UnitWitness (op : Nat) : Prop :=
  ∃ s u c x t c', c.unitsDone.contains workDone = false ∧ Complete t u c' ∧ UnitsRun s c x false t ∧ RunsOpen s u op c

theorem unit_witness (s : State) (c : Cmd) (op : Nat) (hd : c.uid = 1 ∧ c.unitsDone.contains workDone = false)
    (h : findCmd s 1 = some c ∧ opcodeOf c.desc = op ∧ c.phase = .started ∧ c.suspending = false ∧ c.evicting = false
      ∧ c.aborting = false ∧ s.groups = [] ∧ startsGroups s c = true) (he : unitsEnd s c = true) :
    UnitWitness op := by
  obtain ⟨x, t, c', h1, h2⟩ := units_end he
  exact ⟨s, 1, c, x, t, c', hd.2, hd.1 ▸ h1, h2, runsOpen_one h⟩

theorem unit_copy : UnitWitness 0x08 :=
  unit_witness (withCmd copyDesc) (cmdOf copyDesc) _ (by decide +kernel) (by decide +kernel) (by decide +kernel)
theorem unit_fill : UnitWitness 0x09 :=
  unit_witness (withCmd fillDesc) (cmdOf fillDesc) _ (by decide +kernel) (by decide +kernel) (by decide +kernel)
theorem unit_matmul : UnitWitness 0x10 :=
  unit_witness matmulAt (cmdOf matmulDesc) _ (by decide +kernel) (by decide +kernel) (by decide +kernel)
theorem unit_list : UnitWitness 0x11 :=
  unit_witness listAt (cmdOf listDesc) _ (by decide +kernel) (by decide +kernel) (by decide +kernel)
theorem unit_chain : UnitWitness 0x12 :=
  unit_witness chainAt (cmdOf chainDesc) _ (by decide +kernel) (by decide +kernel) (by decide +kernel)
theorem unit_conv : UnitWitness 0x14 :=
  unit_witness convAt (cmdOf convDesc) _ (by decide +kernel) (by decide +kernel) (by decide +kernel)
theorem unit_attendBwd : UnitWitness 0x19 :=
  unit_witness (withCmds [doneOnce 0x19]) (doneOnce 0x19) _ (by decide +kernel) (by decide +kernel) (by decide +kernel)
theorem unit_kvAppend : UnitWitness 0x1A :=
  unit_witness (withCmds [doneOnce 0x1A]) (doneOnce 0x1A) _ (by decide +kernel) (by decide +kernel) (by decide +kernel)
theorem unit_vecchain : UnitWitness 0x20 :=
  unit_witness vecAt (cmdOf vecDesc) _ (by decide +kernel) (by decide +kernel) (by decide +kernel)
theorem unit_reduce : UnitWitness 0x21 :=
  unit_witness reduceAt (cmdOf reduceDesc) _ (by decide +kernel) (by decide +kernel) (by decide +kernel)
theorem unit_random : UnitWitness 0x24 :=
  unit_witness (withCmd randomDesc) (cmdOf randomDesc) _ (by decide +kernel) (by decide +kernel) (by decide +kernel)
theorem unit_sample : UnitWitness 0x28 :=
  unit_witness sampleAt (cmdOf sampleDesc) _ (by decide +kernel) (by decide +kernel) (by decide +kernel)
/-- A spool of GUARD 8 and of a period of 1,024 ticks, whose windows are open to every context for the first 1,000, and command
1 at offset `n` of it. -/
def guardSpool : List Byte :=
  [10, 2, 0, 0, 0, 0, 0, 0, 8] ++ List.replicate 59 0 ++ [0xEE, 0xEE, 0xEE, 0xEE, 0xE8, 3, 0, 0, 0xFF, 0xFF, 0xFF, 0xFF]
def guarded (n op : Nat) : State :=
  { withCmd (descOf op []) with
    spool := { ready.spool with current := guardSpool, gen := 1 }, time := { ready.time with now := BitVec.ofNat 40 n } }

/-- With 8 ticks left tile groups may still start, with 7 they may not (R399). -/
theorem test_guard_boundary : startsGroups (guarded 992 0x10) (cmdOf (descOf 0x10 [])) = true
    ∧ startsGroups (guarded 993 0x10) (cmdOf (descOf 0x10 [])) = false := by decide +kernel

theorem attend_ends : unitsEnd attendAt (cmdOf attendDesc) = true := by decide +kernel

theorem witness_UnitCommandsComplete :
    (∀ op ∈ [0x08, 0x09, 0x10, 0x11, 0x12, 0x14, 0x19, 0x1A, 0x20, 0x21, 0x24, 0x28],
      UnitWitness op)
    ∧ (∃ s u c x t c', c.unitsDone.contains workDone = false ∧ Complete t u c' ∧ UnitsRun s c x false t
      ∧ RunsOpen s u 0x18 c ∧ groupCmd c = false)
    ∧ (∀ op ∈ [0x40, 0x41, 0x42], ∃ s u c x t c', c.unitsDone.contains workDone = false ∧ Complete t u c'
      ∧ UnitsRun s c x false t ∧ RunsCodec s u op c)
    ∧ (∀ op ∈ [0x10, 0x11, 0x12, 0x14, 0x18, 0x19, 0x1A, 0x20, 0x21, 0x24, 0x28], ∃ s u c,
      c.unitsDone.contains workDone = false ∧ inGuard s c = true ∧ c.runOn = false ∧ ctxOpen s c = true ∧ Runs s u op c
      ∧ groupCmd c = false) := by
  refine ⟨?_, ?_, ?_, ?_⟩
  · simp only [List.forall_mem_cons, List.not_mem_nil, false_implies, implies_true, and_true]
    exact ⟨unit_copy, unit_fill, unit_matmul, unit_list, unit_chain, unit_conv, unit_attendBwd, unit_kvAppend, unit_vecchain, unit_reduce, unit_random, unit_sample⟩
  · obtain ⟨x, t, c', h1, h2⟩ := units_end attend_ends
    exact ⟨attendAt, 1, cmdOf attendDesc, x, t, c', by decide +kernel, h1, h2, runsOpen_one (by decide +kernel),
      by decide +kernel⟩
  · have h : ∀ op ∈ [0x40, 0x41, 0x42], unitsEnd (withCmds [doneOnce op]) (doneOnce op) = true
        ∧ RunsCodec (withCmds [doneOnce op]) 1 op (doneOnce op) := by
      unfold RunsCodec
      decide +kernel
    intro op hop
    obtain ⟨x, t, c', h1, h2⟩ := units_end (h op hop).1
    exact ⟨withCmds [doneOnce op], 1, doneOnce op, x, t, c', by rfl, h1, h2, (h op hop).2⟩
  · have h : ∀ op ∈ [0x10, 0x11, 0x12, 0x14, 0x18, 0x19, 0x1A, 0x20, 0x21, 0x24, 0x28],
        (cmdOf (descOf op [])).unitsDone.contains workDone = false ∧ inGuard (guarded 993 op) (cmdOf (descOf op [])) = true
        ∧ (cmdOf (descOf op [])).runOn = false ∧ ctxOpen (guarded 993 op) (cmdOf (descOf op [])) = true
        ∧ Runs (guarded 993 op) 1 op (cmdOf (descOf op [])) ∧ groupCmd (cmdOf (descOf op [])) = false := by
      unfold Runs
      decide +kernel
    exact fun op hop => ⟨guarded 993 op, 1, cmdOf (descOf op []), h op hop⟩

theorem witness_HostMoversWriteTheirRange :
    (∃ s u c, RunsOpen s u 0x09 c ∧ c.unitsDone = [] ∧ bit c.desc 296 = true ∧ 1 ≤ moveLength c.desc
      ∧ moveLength c.desc ≤ 1048576)
    ∧ (∃ s u c, RunsOpen s u 0x08 c ∧ c.unitsDone = [] ∧ bit c.desc 296 = true ∧ bit c.desc 297 = true
      ∧ 1 ≤ moveLength c.desc ∧ moveLength c.desc ≤ 1048576) :=
  ⟨⟨withCmd fillDesc, 1, cmdOf fillDesc, runsOpen_one (by decide +kernel), by decide +kernel⟩,
   ⟨withCmd copyDesc, 1, cmdOf copyDesc, runsOpen_one (by decide +kernel), by decide +kernel⟩⟩

/-! ### Witnesses: tables, models, the spool, REFINE, groups -/

/-- TABLE_LOAD of table 32 from HBM that reads as zeros: the header of an index without slots. -/
def loadDesc : BitVec 1024 := descOf 0x50 [(128, 32), (192, opAt 0), (256, 64)]

/-- KV_INDEX of no pages of a cache of one slot of one page, into table 32, whose index matches the cache. -/
def indexDesc : BitVec 1024 := descOf 0x1B [(128, opAt 80), (192, 32)]
def indexImage : List Byte := [1, 0, 0, 0, 1, 0, 0, 0, 1, 1]
def indexAt : State :=
  setTable (put (withCmd indexDesc) (opAt 80) (bvToBytes 64 (BitVec.ofNat 512
    (opAt 90 + 2 ^ 64 + 2 ^ 96 + 0x10 * 2 ^ 128 + 2 ^ 136 + 2 ^ 144 + 2 ^ 152 + 8192 * 2 ^ 160)))) 0 32
    { Table.dflt with current := ⟨1, 0, indexImage⟩ }

/-- Command 1 loads a table. -/
def loading (op t : Nat) (pending : Bool) (done : List Nat) : State :=
  setTable (withCmds [{ cmdOf (descOf op [(128, t), (192, t)]) with unitsDone := done }]) 0 t
    { Table.dflt with pending := pending, loader := some 1 }

theorem witness_TableCommandsComplete :
    (∃ s u c img t, Runs s u 0x50 c ∧ c.unitsDone = [] ∧ shadowFree s (cmdPart s c) (loadTableId c.desc) = true
      ∧ (readImage (ctxOf s c) (loadTableId c.desc) (fieldN c.desc 192 64) (fieldN c.desc 256 32) 24).run.run s
        = (.ok (img, []), t))
    ∧ (∃ s u c img t, Runs s u 0x1B c ∧ c.unitsDone = [] ∧ shadowFree s (cmdPart s c) (indexTableId c.desc) = true
      ∧ (indexedImage (ctxOf s c)).run.run s = (.ok img, t))
    ∧ (∃ s u c, Runs s u 0x1B c ∧ c.unitsDone ≠ [] ∧ (tableOf s (cmdPart s c) (indexTableId c.desc)).pending = false
      ∧ (tableOf s (cmdPart s c) (indexTableId c.desc)).loader = some u
      ∧ shadowHeld s (cmdPart s c) (indexTableId c.desc) = false)
    ∧ (∃ s, ∃ (p : PartIx) (n : Fin 64), ∃ u c, (tableOf s p.val n.val).loader = some u ∧ findCmd s u = some c
      ∧ c.phase = .started ∧ (tableOf s p.val n.val).pending = true ∧ opcodeOf c.desc = 0x50 ∧ earlierStarted s c = true
      ∧ ∀ g ∈ s.groups, g.running = true → hasDie (partOf s p.val).dies g.die = false)
    ∧ (∃ s, ∃ (p : PartIx) (n : Fin 64), ∃ u c, (tableOf s p.val n.val).loader = some u ∧ findCmd s u = some c
      ∧ c.phase = .started ∧ (tableOf s p.val n.val).pending = true ∧ opcodeOf c.desc = 0x1B
      ∧ ∀ g ∈ s.groups, g.running = true → hasDie (partOf s p.val).dies g.die = false)
    ∧ (∃ s, ∃ p : PartIx, ∃ g, g ∈ s.groups ∧ g.running = true ∧ hasDie (partOf s p.val).dies g.die = true) :=
  ⟨⟨withCmd loadDesc, 1, cmdOf loadDesc, List.replicate 64 0, _, by unfold Runs; decide +kernel, by decide +kernel,
      by decide +kernel, runs_to (by decide +kernel)⟩,
   ⟨indexAt, 1, cmdOf indexDesc, indexImage, _, by unfold Runs; decide +kernel, by decide +kernel, by decide +kernel,
      runs_to (by decide +kernel)⟩,
   ⟨loading 0x1B 32 false [0], 1, { cmdOf (descOf 0x1B [(128, 32), (192, 32)]) with unitsDone := [0] },
      by unfold Runs; decide +kernel⟩,
   ⟨loading 0x50 0 true [0], 0, 0, 1, { cmdOf (descOf 0x50 [(128, 0), (192, 0)]) with unitsDone := [0] }, by decide +kernel⟩,
   ⟨{ loading 0x1B 63 true [0] with groups := [anyGroup 2 false] }, 0, 63, 1,
      { cmdOf (descOf 0x1B [(128, 63), (192, 63)]) with unitsDone := [0] }, by decide +kernel⟩,
   ⟨{ loading 0x50 0 true [0] with groups := [anyGroup 7 true] }, 0, anyGroup 7 true, by decide +kernel⟩⟩

/-- A model record without buckets and tables. -/
def plainRecord : List Byte := 1 :: List.replicate 255 0

/-- A REFINE of one step on the operands 0 and 1, its graph a NOP. -/
def refineDesc : BitVec 1024 :=
  descOf 0x30 [(128, opAt 60), (704, 1), (256, opAt 50), (320, opAt 0), (384, opAt 1), (736, 1)]
def refineCmd (d : BitVec 1024) (ph : RefinePhase) : Cmd := { cmdOf d with refine := ⟨ph, 0, 0, none, 0, 0, 0, 0, []⟩ }
def refineAt (ph : RefinePhase) : State :=
  put (rowsAt [0, 1] (withCmds [refineCmd refineDesc ph])) (opAt 60) [1]

/-- ALL_REDUCE of one FP16 value over dies 0 and 1 of this module. -/
def collDesc : BitVec 1024 := descOf 0x38 [(128, opAt 4), (192, opAt 5), (256, opAt 70), (484, 1)]
def collCmd (i step : Nat) (joined : Bool) : Cmd :=
  { cmdOf collDesc with uid := i + 1, sub := i, dies := BitVec.ofNat 8 (2 ^ i)
                        coll := { (cmdOf collDesc).coll with joined := joined, step := step } }
def collAt (cs : List Cmd) : State :=
  put (headsAt 1 [4, 5] (withCmds cs)) (opAt 70)
    (bvToBytes 64 (BitVec.ofNat 512 (7 + 2 * 2 ^ 32)) ++ w64 19327352832 ++ w64 (274877906944 + 19327352832))

/-- What a command's work leaves of it. -/
def leaves {α : Type} [DecidableEq α] (m : CmdM α) (s : State) (v : α) (p : Cmd → Bool) : Bool :=
  okWith m s (fun x => decide (x = v)) && (findCmd (m.run.run s).2 1).any p

theorem decided {α : Type} [DecidableEq α] {o : Option α} {f : α → Bool} (h : o.any f = true) : ∃ v, o = some v ∧ f v = true := by
  simp only [Option.any_eq_true_iff_get] at h
  exact ⟨_, (Option.some_get h.1).symm, h.2⟩

theorem leaves_iff {α : Type} [DecidableEq α] {m : CmdM α} {s : State} {v : α} {p : Cmd → Bool}
    (h : leaves m s v p = true) : ∃ t c', m.run.run s = (.ok v, t) ∧ findCmd t 1 = some c' ∧ p c' = true := by
  simp only [leaves, Bool.and_eq_true, Option.any_eq_true_iff_get] at h
  exact ⟨_, _, runs_to h.1, (Option.some_get h.2.1).symm, h.2.2⟩

theorem runs_of {op : Nat} {s : State} {u : Uid} {c : Cmd} (h : findCmd s u = some c ∧ opcodeOf c.desc = op
    ∧ c.phase = .started ∧ c.suspending = false ∧ c.evicting = false ∧ c.aborting = false ∧ s.groups = []) :
    Runs s u op c := by
  obtain ⟨h1, h2, h3, h4, h5, h6, h7⟩ := h
  exact ⟨h1, h2, h3, h4, h5, h6, by rw [h7]; simp⟩

def bindAt : State := setModel (withCmd 0x48) 0 0 plainRecord

/-- MODEL_BIND of slot 0 that installs the record at operand 0, before and after it has done so. -/
def installDesc : BitVec 1024 := descOf 0x48 [(136, 1), (192, opAt 0)]
def installAt : State := put (withCmd installDesc) (opAt 0) [1]
def installCtx : Ctx := ctxOf installAt (cmdOf installDesc)
def installed : State :=
  modCmd (setModel ((bindRecord installCtx).run.run installAt).2 (cmdPart installAt (cmdOf installDesc))
    (fieldN (cmdOf installDesc).desc 128 8) (valueOf (bindRecord installCtx) installAt).1) 1 (fun x => { x with unitsDone := [0] })

theorem witness_WholeCommandsComplete :
    (∃ s u c rec off s1 t c', Runs s u 0x48 c ∧ bindInstall c.desc = true ∧ c.unitsDone = []
      ∧ (bindRecord (ctxOf s c)).run.run s = (.ok (rec, off), s1) ∧ recordChecks rec off = []
      ∧ t = modCmd (setModel s1 (cmdPart s c) (fieldN c.desc 128 8) rec) u (fun x => { x with unitsDone := [0] })
      ∧ Runs t u 0x48 c' ∧ c'.desc = c.desc)
    ∧ (∃ s u c rec s1 t, Runs s u 0x48 c ∧ bindInstall c.desc = false
      ∧ modelOf s (cmdPart s c) (fieldN c.desc 128 8) = rec ∧ rec ≠ []
      ∧ recordChecks rec (if bindInstall c.desc then 24 else 16) = []
      ∧ (reloadRefs (ctxOf s c) (if bindInstall c.desc then 24 else 16) (tableRefs rec)).run.run s = (.ok (), s1)
      ∧ (writeBinding (ctxOf s c) (fieldN c.desc 128 8)).run.run s1 = (.ok (), t))
    ∧ (∃ s u c, RunsOpen s u 0x30 c)
    ∧ (∃ s u c t c', RunsOpen s u 0x30 c ∧ c.refine.phase ≠ .ballastBoundary
      ∧ (c.refine.phase = .boundary → c.refine.boundary = 0) ∧ refineStarts s c = true
      ∧ (refineStepM (ctxOf s c) c).run.run s = (.ok .onward, t) ∧ findCmd t u = some c' ∧ c'.refine.phase = .done)
    ∧ (∃ s u c p vals, Runs s u 0x38 c ∧ peekPlan s c = some p ∧ c.coll.joined = true
      ∧ (∀ m ∈ localMembers s c, Fresh m) ∧ allLocal s c = true ∧ gatherValues s c p = some vals)
    ∧ (∃ s u c p, Runs s u 0x38 c ∧ peekPlan s c = some p ∧ c.coll.joined = true
      ∧ (allLocal s c = false ∨ ∃ m ∈ localMembers s c, ¬ Fresh m)) := by
  have h := runs_with (m := bindRecord installCtx) (s := installAt) (p := fun x => decide (recordChecks x.1 x.2 = []))
    (by decide +kernel)
  have hr : Runs installed 1 0x48 { cmdOf installDesc with unitsDone := [0] } := runs_of (by decide +kernel)
  refine ⟨⟨installAt, 1, cmdOf installDesc, (valueOf (bindRecord installCtx) installAt).1,
      (valueOf (bindRecord installCtx) installAt).2, ((bindRecord installCtx).run.run installAt).2, installed,
      { cmdOf installDesc with unitsDone := [0] }, runs_of (by decide +kernel), by decide +kernel, by decide +kernel, h.1,
      of_decide_eq_true h.2, by unfold installed; exact rfl, hr, rfl⟩,
    ⟨bindAt, 1, cmdOf 0x48, plainRecord, _, _, runs_of (by decide +kernel), by decide +kernel, by decide +kernel,
      by decide +kernel, by decide +kernel, runs_to (by decide +kernel), runs_to (by decide +kernel)⟩,
    ⟨withCmd 0x30, 1, cmdOf 0x30, runsOpen_one (by decide +kernel)⟩, ?_, ?_, ?_⟩
  · obtain ⟨t, c', h1, h2, h3⟩ := leaves_iff (m := refineStepM (ctxOf (withCmds [refineCmd 0x30 .boundary])
      (refineCmd 0x30 .boundary)) (refineCmd 0x30 .boundary)) (s := withCmds [refineCmd 0x30 .boundary])
      (v := .onward) (p := fun c => c.refine.phase == .done) (by decide +kernel)
    exact ⟨_, 1, refineCmd 0x30 .boundary, t, c', runsOpen_one (by decide +kernel), by decide +kernel, by decide +kernel,
      by decide +kernel, h1, h2, by simpa using h3⟩
  · obtain ⟨p, h1, h2⟩ := decided (o := peekPlan (collAt [collCmd 0 0 true, collCmd 1 0 true]) (collCmd 0 0 true))
      (f := fun p => (gatherValues (collAt [collCmd 0 0 true, collCmd 1 0 true]) (collCmd 0 0 true) p).isSome)
      (by decide +kernel)
    obtain ⟨v, hv⟩ := some_of h2
    exact ⟨_, 1, collCmd 0 0 true, p, v, runs_of (by decide +kernel), h1, by decide +kernel,
      by unfold Fresh; decide +kernel, by decide +kernel, hv⟩
  · obtain ⟨p, h⟩ := some_of (o := peekPlan (collAt [collCmd 0 1 true]) (collCmd 0 1 true)) (by decide +kernel)
    exact ⟨_, 1, collCmd 0 1 true, p, runs_of (by decide +kernel), h, by decide +kernel,
      by unfold Fresh; decide +kernel⟩

/-- A spool of one entry, of a period of 1,024 ticks. -/
def spoolBytes : List Byte := [10, 1] ++ List.replicate 2110 0
def spoolDesc : BitVec 1024 := descOf 0x58 [(128, opAt 0)]

/-- A module whose shadow spool was written at tick 0, at tick `n`; the spool in force has generation `g`. -/
def spoolAt (g : Byte) (n : Nat) : State :=
  { withCmd spoolDesc with
    spool := ⟨spoolBytes, g, some spoolBytes, some 1, 0⟩
    time := { ready.time with now := BitVec.ofNat 40 n, cameFrom := BitVec.ofNat 40 (n - 1) } }

/-- A spool loaded at tick 0 swaps at the next tick where none is in force, else at the next cycle start, tick 1,024 (R400). -/
theorem test_spool_swap_tick :
    let swapped (g : Byte) (n : Nat) := (nextOf (spoolAt g n) .spoolSwap).spool.shadow == none
    swapped 0 0 = false ∧ swapped 0 1 = true ∧ swapped 255 0 = false ∧ swapped 255 1023 = false ∧ swapped 255 1024 = true := by
  decide +kernel

theorem witness_SpoolCommandsComplete :
    (∃ s u c bs t, Runs s u 0x58 c ∧ s.spool.loader = none
      ∧ (readMem (ctxOf s c) tcBulk (fieldN c.desc 128 64) 2112).run.run s = (.ok bs, t) ∧ spoolChecks bs 16 = [])
    ∧ (∃ (s : State), ∃ bs u, s.spool.shadow = some bs ∧ s.spool.loader = some u ∧ s.spool.gen = 0
      ∧ s.time.now ≠ s.spool.writtenAt)
    ∧ (∃ (s : State), ∃ bs u, s.spool.shadow = some bs ∧ s.spool.loader = some u ∧ s.spool.gen ≠ 0
      ∧ (parseSpool s.spool.current).offset s.time.now.toNat < elapsed s.time.now s.time.cameFrom
      ∧ (parseSpool s.spool.current).offset s.time.now.toNat < elapsed s.time.now s.spool.writtenAt)
    ∧ (∃ s : State, s.time.now = s.spool.writtenAt) :=
  ⟨⟨put (withCmd spoolDesc) (opAt 0) [10, 1], 1, cmdOf spoolDesc, spoolBytes, _, runs_of (by decide +kernel),
      by decide +kernel, runs_to (by decide +kernel), by decide +kernel⟩,
   ⟨spoolAt 0 1, spoolBytes, 1, rfl, rfl, rfl, by decide +kernel⟩,
   ⟨spoolAt 255 1024, spoolBytes, 1, rfl, rfl, by decide +kernel⟩,
   ⟨spoolAt 255 0, rfl⟩⟩

theorem witness_RefineStepsComplete :
    (∀ kind : RefineKind, ∃ s u c c' t, findCmd s u = some c ∧ opcodeOf c.desc = 0x30 ∧ goesOn c = true ∧ refineStarts s c = true
      ∧ (refineStepM (ctxOf s c) c).run.run s = (.ok .onward, t) ∧ findCmd t u = some c' ∧ c'.refine.phase ≠ .done
      ∧ phaseKind c.refine.phase = kind)
    ∧ (∀ kind ∈ [RefineKind.boundary, .graph], ∃ s u c c' t, findCmd s u = some c ∧ opcodeOf c.desc = 0x30
      ∧ goesOn c = true ∧ refineStarts s c = true ∧ (refineStepM (ctxOf s c) c).run.run s = (.ok .onward, t)
      ∧ findCmd t u = some c' ∧ c'.refine.phase = .done ∧ phaseKind c.refine.phase = kind) := by
  constructor
  · have h : ∀ ph ∈ [RefinePhase.boundary, .graph, .update],
        leaves (refineStepM (ctxOf (refineAt ph) (refineCmd refineDesc ph)) (refineCmd refineDesc ph)) (refineAt ph) .onward
          (fun c => c.refine.phase != .done) = true ∧ findCmd (refineAt ph) 1 = some (refineCmd refineDesc ph)
        ∧ opcodeOf (refineCmd refineDesc ph).desc = 0x30 ∧ goesOn (refineCmd refineDesc ph) = true
        ∧ refineStarts (refineAt ph) (refineCmd refineDesc ph) = true := by decide +kernel
    have g (ph) (hph : ph ∈ [RefinePhase.boundary, .graph, .update]) : ∃ s u c c' t, findCmd s u = some c
        ∧ opcodeOf c.desc = 0x30 ∧ goesOn c = true ∧ refineStarts s c = true
        ∧ (refineStepM (ctxOf s c) c).run.run s = (.ok .onward, t) ∧ findCmd t u = some c' ∧ c'.refine.phase ≠ .done ∧ phaseKind c.refine.phase = phaseKind ph := by
      obtain ⟨h0, h1, h2, h3, h7⟩ := h ph hph
      obtain ⟨t, c', h4, h5, h6⟩ := leaves_iff h0
      exact ⟨_, 1, refineCmd refineDesc ph, c', t, h1, h2, h3, h7, h4, h5, by simpa using h6, rfl⟩
    intro kind
    cases kind
    · exact g .boundary (by simp)
    · exact g .graph (by simp)
    · exact g .update (by simp)
  · have h : ∀ ph ∈ [RefinePhase.boundary, .done],
        leaves (refineStepM (ctxOf (withCmds [refineCmd 0x30 ph]) (refineCmd 0x30 ph)) (refineCmd 0x30 ph))
          (withCmds [refineCmd 0x30 ph]) .onward
          (fun c => c.refine.phase == .done) = true ∧ findCmd (withCmds [refineCmd 0x30 ph]) 1 = some (refineCmd 0x30 ph)
        ∧ opcodeOf (refineCmd 0x30 ph).desc = 0x30 ∧ goesOn (refineCmd 0x30 ph) = true
        ∧ refineStarts (withCmds [refineCmd 0x30 ph]) (refineCmd 0x30 ph) = true := by decide +kernel
    have g (ph) (hph : ph ∈ [RefinePhase.boundary, .done]) : ∃ s u c c' t, findCmd s u = some c
        ∧ opcodeOf c.desc = 0x30 ∧ goesOn c = true ∧ refineStarts s c = true
        ∧ (refineStepM (ctxOf s c) c).run.run s = (.ok .onward, t) ∧ findCmd t u = some c' ∧ c'.refine.phase = .done ∧ phaseKind c.refine.phase = phaseKind ph := by
      obtain ⟨h0, h1, h2, h3, h7⟩ := h ph hph
      obtain ⟨t, c', h4, h5, h6⟩ := leaves_iff h0
      exact ⟨_, 1, refineCmd 0x30 ph, c', t, h1, h2, h3, h7, h4, h5, by simpa using h6, rfl⟩
    intro kind hk
    simp only [List.mem_cons, List.not_mem_nil, or_false] at hk
    obtain rfl | rfl := hk
    · exact g .boundary (by simp)
    · exact g .done (by simp)

/-- A ring command whose group has no members left to step through. -/
def ringCmd (susp : Bool) : Cmd :=
  { cmdOf (descOf 0x18 [(128, opAt 6), (192, opAt 7), (256, opAt 8), (320, opAt 11), (704, 0x3F800000), (808, 1)]) with
    coll := { (cmdOf collDesc).coll with joined := true }
    suspending := susp }
/-- A ring command that has not joined. -/
def newRing : Cmd := { ringCmd false with coll := (cmdOf collDesc).coll }
def ringAt : State := headsAt 16 [6, 7, 8, 11] (withCmds [ringCmd false])

/-- The two members of the ALL_REDUCE before they have joined. -/
def joining : State := collAt [collCmd 0 0 false, collCmd 1 0 false]

/-- The yield of a member that suspends. -/
def yielding : Cmd := { collCmd 0 0 true with suspending := true }

/-- A member that is to end with its group at boundary 3. -/
def leaving (c : Cmd) (step : Nat) : Cmd :=
  { c with aborting := true, coll := { c.coll with joined := true, step := step, yieldAt := some 3 } }

theorem member_of {s : State} {u : Uid} {op : Nat} {c : Cmd} (h : findCmd s u = some c ∧ opcodeOf c.desc = op
    ∧ c.phase = .started ∧ groupCmd c = true) : Member s u op c := h

/-- A member that has not joined; its group descriptor reads as zeros. -/
def newMember : Cmd := { cmdOf (descOf 0x38 []) with dies := 1 }

/-- What news of a failure elsewhere leaves of a member that has joined. -/
def heard (s : State) (u : Uid) (c : Cmd) : State :=
  (u :: otherMembers s c).foldl (endMember (nextCommon s c (otherMembers s c)) true) s

theorem heard_aborts {s : State} {c : Cmd} (h : (startedMember (heard s 1 c) 1).any (fun c => c.aborting) = true) :
    ∃ t c', t = heard s 1 c ∧ startedMember t 1 = some c' ∧ c'.aborting = true := by
  obtain ⟨c', h1, h2⟩ := decided h
  exact ⟨_, c', rfl, h1, h2⟩

theorem witness_GroupRowsComplete :
    (∃ s u c prints ms f, findCmd s u = some c ∧ c.phase = .started ∧ groupCmd c = true ∧ c.coll.joined = false
      ∧ c.aborting = false ∧ c.suspending = false ∧ c.evicting = false ∧ groupView s c = some (ms, f)
      ∧ areaInUse s c = false ∧ groupPrints s c ms prints = List.replicate ms.length (some f)
      ∧ (∀ m ∈ ms.filterMap (joinCmd s c), (groupView s m).map Prod.snd = some f ∧ heldMatches m f = true))
    ∧ (∀ done, ∃ s u c peer t, Member s u 0x38 c ∧ c.aborting = false ∧ stepsOn c = true
      ∧ ((do
          let (p, b) ← collPlan (ctxOf s c) c.die
          rejectOn b
          runCollStep (ctxOf s c) p [] [peer] : CmdM Bool).run.run s) = (.ok done, t))
    ∧ (∃ s u c t done, Member s u 0x18 c ∧ c.aborting = false ∧ stepsOn c = true ∧ ringReady s c = true
      ∧ (∀ g ∈ s.groups, g.cmd ≠ u) ∧ (runRingStep (ctxOf s c)).run.run s = (.ok done, t))
    ∧ (∀ op ∈ [0x38, 0x18], ∃ s u c t, Member s u op c ∧ c.aborting = false ∧ c.coll.joined = false
      ∧ t = failMember (dropGroups s u) c .aborted ∧ startedMember t u = none)
    ∧ (∀ op ∈ [0x38, 0x18], ∃ s u c t c', Member s u op c ∧ c.aborting = false ∧ c.coll.joined = true
      ∧ t = (u :: otherMembers s c).foldl (endMember (nextCommon s c (otherMembers s c)) true) s
      ∧ startedMember t u = some c' ∧ c'.aborting = true)
    ∧ (∀ op ∈ [0x38, 0x18], ∃ s u c, Member s u op c ∧ c.aborting = true ∧ atAgreed c = true ∧ groupsRunning s u = false)
    ∧ (∃ s u c, Member s u 0x18 c ∧ c.coll.joined = true ∧ c.coll.yieldAt = none
      ∧ (c.suspending = true ∨ c.evicting = true))
    ∧ (∃ s u c answers t, Member s u 0x38 c ∧ c.coll.joined = true
      ∧ c.coll.yieldAt = none ∧ (c.suspending = true ∨ c.evicting = true)
      ∧ ((do
          let (p, _) ← collPlan (ctxOf s c) c.die
          writeNotices (ctxOf s c) p.rank 1 (remoteAreas s p)
          writeNotices (ctxOf s c) p.rank (yieldStep s c answers + 2) (remoteAreas s p) : CmdM Unit).run.run s) = (.ok (), t))
    ∧ (∀ op ∈ [0x38, 0x18], ∃ s u c, Member s u op c ∧ c.coll.joined = true
      ∧ ((c.suspending = false ∧ c.evicting = false) ∨ c.coll.yieldAt ≠ none) ∧ c.coll.yieldAt = none)
    ∧ (∃ s u c, Member s u 0x38 c ∧ c.coll.joined = true ∧ c.suspending = true ∧ c.coll.yieldAt ≠ none) := by
  refine ⟨?_, ?_, ?_, ?_, ?_, ?_, ?_, ?_, ?_, ?_⟩
  · obtain ⟨⟨ms, f⟩, h1, h2⟩ := decided (o := groupView joining (collCmd 0 0 false)) (f := fun x =>
        groupPrints joining (collCmd 0 0 false) x.1 [] == List.replicate x.1.length (some x.2)
        && (x.1.filterMap (joinCmd joining (collCmd 0 0 false))).all (fun m =>
          (groupView joining m).map Prod.snd == some x.2 && heldMatches m x.2)) (by decide +kernel)
    simp only [Bool.and_eq_true, List.all_eq_true, beq_iff_eq] at h2
    have h : findCmd joining 1 = some (collCmd 0 0 false) ∧ (collCmd 0 0 false).phase = .started
        ∧ groupCmd (collCmd 0 0 false) = true ∧ (collCmd 0 0 false).coll.joined = false
        ∧ (collCmd 0 0 false).aborting = false ∧ (collCmd 0 0 false).suspending = false
        ∧ (collCmd 0 0 false).evicting = false ∧ areaInUse joining (collCmd 0 0 false) = false := by decide +kernel
    obtain ⟨g1, g2, g3, g4, g5, g6, g7, g8⟩ := h
    exact ⟨joining, 1, collCmd 0 0 false, [], ms, f, g1, g2, g3, g4, g5, g6, g7, h1, g8, h2.1, h2.2⟩
  · intro done
    cases done
    · exact ⟨collAt [collCmd 0 0 true, collCmd 1 0 true], 1, collCmd 0 0 true, 1, _, member_of (by decide +kernel),
        rfl, rfl, runs_to (by decide +kernel)⟩
    · exact ⟨collAt [collCmd 0 3 true], 1, collCmd 0 3 true, 0, _, member_of (by decide +kernel), rfl, rfl,
        runs_to (by decide +kernel)⟩
  · exact ⟨ringAt, 1, ringCmd false, _, true, member_of (by decide +kernel), rfl, rfl, by decide +kernel,
      by decide +kernel, runs_to (by decide +kernel)⟩
  · simp only [List.forall_mem_cons, List.not_mem_nil, false_implies, implies_true, and_true]
    exact ⟨⟨withCmds [newMember], 1, newMember, _, member_of (by decide +kernel), rfl, rfl, rfl,
        by decide +kernel⟩,
      ⟨withCmds [newRing], 1, newRing, _, member_of (by decide +kernel), rfl, rfl, rfl, by decide +kernel⟩⟩
  · simp only [List.forall_mem_cons, List.not_mem_nil, false_implies, implies_true, and_true]
    obtain ⟨t, c', h⟩ := heard_aborts (s := collAt [collCmd 0 0 true, collCmd 1 1 true]) (c := collCmd 0 0 true)
      (by decide +kernel)
    obtain ⟨r, d', g⟩ := heard_aborts (s := ringAt) (c := ringCmd false) (by decide +kernel)
    exact ⟨⟨_, 1, _, t, c', member_of (by decide +kernel), rfl, rfl, h⟩, ⟨_, 1, _, r, d', member_of (by decide +kernel), rfl, rfl, g⟩⟩
  · simp only [List.forall_mem_cons, List.not_mem_nil, false_implies, implies_true, and_true]
    exact ⟨⟨withCmds [leaving (collCmd 0 0 true) 3], 1, leaving (collCmd 0 0 true) 3, member_of (by decide +kernel), rfl,
        rfl, by decide +kernel⟩,
      ⟨withCmds [leaving (ringCmd false) 4], 1, leaving (ringCmd false) 4, member_of (by decide +kernel), rfl, rfl,
        by decide +kernel⟩⟩
  · exact ⟨withCmds [ringCmd true], 1, ringCmd true, member_of (by decide +kernel), rfl, rfl, .inl rfl⟩
  · exact ⟨collAt [yielding], 1, yielding, [4], _, member_of (by decide +kernel), rfl, rfl, .inl rfl,
      runs_to (by decide +kernel)⟩
  · simp only [List.forall_mem_cons, List.not_mem_nil, false_implies, implies_true, and_true]
    exact ⟨⟨collAt [collCmd 0 0 true], 1, collCmd 0 0 true, member_of (by decide +kernel), rfl, .inl ⟨rfl, rfl⟩, rfl⟩,
      ⟨ringAt, 1, ringCmd false, member_of (by decide +kernel), rfl, .inl ⟨rfl, rfl⟩, rfl⟩⟩
  · exact ⟨withCmds [{ leaving (collCmd 0 0 true) 1 with suspending := true }], 1,
      { leaving (collCmd 0 0 true) 1 with suspending := true }, member_of (by decide +kernel), rfl, rfl, by decide +kernel⟩

/-- A yield is one step above the largest of members here and elsewhere; a member that hears of a failure goes on to the boundary
above the largest step of this module's members, and not at its boundary it is not yet failed (R331, R333). -/
theorem test_common_boundary :
    let s := collAt [collCmd 0 0 true, collCmd 1 2 true]
    (yieldStep s (collCmd 0 0 true) [1], yieldStep s (collCmd 0 0 true) [4], nextCommon s (collCmd 0 0 true) [2]) = (3, 5, 3)
      ∧ (atAgreed (leaving (collCmd 0 0 true) 2), atAgreed (leaving (collCmd 0 0 true) 3)) = (false, true) := by
  decide +kernel

/-- A DEFERRED product and the product that takes its output. -/
def producer : Cmd := { cmdOf matmulDesc with mode := modeDeferred, unitsDone := [workDone] }
def second : Cmd := { producer with mode := modeTwoPass }
def consumer : Cmd := { freshCmd 2 0 1 (descOf 0x10 [(128, opAt 2)]) 0 0 1 with phase := .issued }

/-- An ENCODE held until tick 9. -/
def encodeHeld : Cmd :=
  { cmdOf (descOf 0x40 [(512, 9)]) with phase := .ending, worked := true }

/-- A command that has been told to suspend, or to end with a husk; one with a husk slot of its own. -/
def told (op : Nat) (evicting : Bool) : Cmd := { cmdOf (descOf op []) with suspending := !evicting, evicting := evicting }
def slotted (op : Nat) (evicting : Bool) : Cmd := { told op evicting with husk := some (BitVec.ofNat 64 (opAt 200)) }
/-- A context table in memory whose entry for the context gives one husk slot of 4 KiB. -/
def huskAt (c : Cmd) : State :=
  put { withCmds [c] with part := { ready.part with ctxBase := BitVec.ofNat 64 (opAt 100) } } (opAt 100)
    (bvToBytes 16 (BitVec.ofNat 128 (2 ^ 16 + 12 * 2 ^ 23 + opAt 200 * 2 ^ 64)))
/-- An aborted command, itself alone or because the die of its ring has failed. -/
def aborted (orphan : Bool) : Cmd := { cmdOf (descOf 0x09 []) with aborting := true, orphan := orphan }

/-- Command 1 has reached a boundary at which a request waits for it. -/
def AtTurn (s : State) (c : Cmd) : Prop :=
  findCmd s 1 = some c ∧ c.phase = .started ∧ c.parent = none ∧ atCut s c = true
    ∧ ∀ x ∈ kidsOf s 1, x.phase = .finished → cmdFailed x = false

theorem at_turn {s : State} {c : Cmd} (h : findCmd s 1 = some c ∧ c.phase = .started ∧ c.parent = none ∧ atCut s c = true
    ∧ s.kids = []) : AtTurn s c := by
  obtain ⟨h1, h2, h3, h4, h5⟩ := h
  exact ⟨h1, h2, h3, h4, by simp [kidsOf, h5]⟩

theorem witness_CommandTurnsComplete :
    (∃ s u p x, findCmd s u = some p ∧ undecided p = true ∧ goesOn p = true ∧ p.origin = none
      ∧ s.cmds.find? (fun y => y.ring == p.ring && y.origin.isNone && y.sub == p.sub + 1) = some x
      ∧ x.phase = .issued ∧ x.module = p.module ∧ linkable p.desc x.desc = true)
    ∧ (∃ s u p t, findCmd s u = some p ∧ secondDue p = true ∧ goesOn p = true
      ∧ (secondPass (ctxOf s p)).run.run s = (.ok (), t))
    ∧ (∃ s u c, findCmd s u = some c ∧ c.phase = .ending ∧ c.worked = true ∧ opcodeOf c.desc = 0x40
      ∧ releaseTick c.desc ≠ 0 ∧ c.tickReached = false ∧ reached s.time.now (releaseTick c.desc) = true)
    ∧ (∀ ev, ∃ s c, AtTurn s c ∧ c.aborting = false ∧ c.suspending = !ev ∧ c.evicting = ev
      ∧ uncut (opcodeOf c.desc) = false ∧ waitOp (opcodeOf c.desc) = true)
    ∧ (∀ ev, ∃ s c a t, AtTurn s c ∧ c.aborting = false ∧ c.suspending = !ev ∧ c.evicting = ev
      ∧ uncut (opcodeOf c.desc) = false ∧ waitOp (opcodeOf c.desc) = false
      ∧ (writeHusk (ctxOf s c) c (!ev)).run.run s = (.ok (some a), t))
    ∧ (∀ ev, ∃ s c t, AtTurn s c ∧ c.aborting = false ∧ c.suspending = !ev ∧ c.evicting = ev
      ∧ uncut (opcodeOf c.desc) = false ∧ waitOp (opcodeOf c.desc) = false
      ∧ (writeHusk (ctxOf s c) c (!ev)).run.run s = (.ok none, t))
    ∧ (∀ orphan, ∃ s c, AtTurn s c ∧ c.aborting = true ∧ codecOp (opcodeOf c.desc) = false ∧ c.orphan = orphan)
    ∧ (∃ s, ∃ p : PartIx, quiesced s p.val = true) := by
  refine ⟨⟨withCmds [producer, consumer], 1, producer, consumer, by decide +kernel⟩,
    ⟨put (rowsAt [0, 1, 2] (withCmds [second])) (opAt 9) (progOf 5), 1, second, _, by decide +kernel, by decide +kernel,
      by decide +kernel, runs_to (by decide +kernel)⟩,
    ⟨{ withCmds [encodeHeld] with time := { ready.time with now := 9 } }, 1, encodeHeld, by decide +kernel⟩,
    fun ev => ?_, fun ev => ?_, fun ev => ?_, fun o => ?_, ⟨ready, 7, by decide +kernel⟩⟩
  · exact ⟨withCmds [told 4 ev], told 4 ev, at_turn (by cases ev <;> decide +kernel), rfl, rfl, rfl,
      by cases ev <;> decide +kernel, by cases ev <;> decide +kernel⟩
  · refine ⟨huskAt (slotted 0x09 ev), slotted 0x09 ev, opAt 200, _, at_turn ?_, rfl, rfl, rfl, ?_, ?_, runs_to ?_⟩
      <;> cases ev <;> decide +kernel
  · refine ⟨withCmds [told 0x09 ev], told 0x09 ev, _, at_turn ?_, rfl, rfl, rfl, ?_, ?_, runs_to ?_⟩
      <;> cases ev <;> decide +kernel
  · refine ⟨withCmds [aborted o], aborted o, at_turn ?_, rfl, ?_, rfl⟩ <;> cases o <;> decide +kernel

/-! ### Witnesses: rings -/

/-- A ring of function `f` that takes commands of every context for all dies, polls, and sends messages after a delay. -/
def ringOn1 (f : Nat) (st : RunState) : Ring :=
  { Ring.dflt with
    cfg := Ring.dflt.cfg ||| (0xFF#512 <<< 376) ||| (0xFFF#512 <<< 356) ||| (6#512 <<< 312) ||| (1#512 <<< 283)
      ||| (5#512 <<< 296) ||| (BitVec.ofNat 512 f <<< 320)
    state := st }
/-- The module with its last ring in a state. -/
def ringAt1 (r : Ring) : State := setRing ready 4095 r

theorem witness_RingWakesAndPolls :
    (∃ s, ∃ (f : FuncIx) (page : RingIx), ∃ r, WakeNames s f page r ∧ (ringOf s r).state = .on ∧ isMember s = false)
    ∧ (∃ s, ∃ (f : FuncIx) (page : RingIx), ∃ r, WakeNames s f page r ∧ ((ringOf s r).state ≠ .on ∨ isMember s = true))
    ∧ (∃ s, ∃ f : FuncIx, (f.val = 0 ∨ (vfOf s f.val).enabled = true) ∧ isMember s = true)
    ∧ (∃ s, ∃ (f : FuncIx) (page : RingIx), f.val ≠ 0 ∧ (vfOf s f.val).enabled = true ∧ slotRing s f.val page.val = none)
    ∧ (∃ s, ∃ r : RingIx, (ringOf s r.val).state = .on ∧ (ringOf s r.val).pollLog ≠ 0 ∧ isMember s = false) :=
  ⟨⟨setVf (ringAt1 (ringOn1 63 .on)) 63 ⟨true, false, false, 0⟩, 63, 0, 4095, by unfold WakeNames; decide +kernel⟩,
   ⟨ready, 0, 4095, 4095, by unfold WakeNames; decide +kernel⟩,
   ⟨setVf member 63 ⟨true, false, false, 0⟩, 63, by decide +kernel⟩,
   ⟨setVf (ringAt1 (ringOn1 63 .on)) 63 ⟨true, false, false, 0⟩, 63, 1, by decide +kernel⟩,
   ⟨ringAt1 (ringOn1 0 .on), 4095, by decide +kernel⟩⟩

theorem witness_FetchTakesEverySlot :
    (∃ s, ∀ i < 3, hasSync (slotAhead s 4095 i) = false)
    ∧ (∃ s, ∃ r ahead m t, ahead ≠ 0 ∧ t = fetchSlots (min 32 ahead) s r
      ∧ m = ixDist (ringOf t r).sqSize (ringOf t r).sqHead (ringOf s r).sqHead ∧ m ≠ 0) :=
  ⟨⟨hostWrite (ringAt1 (ringOn1 0 .on)) 128 [5], by unfold slotAhead headAhead; decide +kernel⟩,
   ⟨ringAt1 (ringOn1 0 .on), 4095, 33, _, _, by decide +kernel, rfl, rfl, by decide +kernel⟩⟩

def slotOf (d : BitVec 1024) : State := ringAt1 { ringOn1 0 .on with fetched := [⟨d, 0⟩] }

theorem admitted (s : State) (r : Nat) (p : Cmd → State → Bool) (h : (admitHead s r).any (fun x => p x.1 x.2) = true) :
    ∃ c t, admitHead s r = some (c, t) ∧ p c t = true := by
  obtain ⟨⟨c, t⟩, h1, h2⟩ := decided h
  exact ⟨c, t, h1, h2⟩

theorem witness_FetchedCommandsIssue :
    (∃ s, ∃ r : RingIx, ∃ c t, waitList s r.val < 64 ∧ isMember s = false ∧ admitHead s r.val = some (c, t)
      ∧ (fetchVerdict t r.val c.desc c.sync).isSome = true)
    ∧ (∃ s, ∃ r : RingIx, ∃ c t, waitList s r.val < 64 ∧ isMember s = false ∧ admitHead s r.val = some (c, t)
      ∧ fetchVerdict t r.val c.desc c.sync = none ∧ c.module ≠ 0)
    ∧ (∃ s, ∃ r : RingIx, ∃ c t, waitList s r.val < 64 ∧ isMember s = false ∧ admitHead s r.val = some (c, t)
      ∧ fetchVerdict t r.val c.desc c.sync = none ∧ c.module = 0 ∧ ∃ d ∈ diesOf c.dies, dieFailed t d = true)
    ∧ (∃ s, ∃ r : RingIx, ∃ c t, waitList s r.val < 64 ∧ isMember s = false ∧ admitHead s r.val = some (c, t)
      ∧ fetchVerdict t r.val c.desc c.sync = none ∧ c.module = 0 ∧ (∀ d ∈ diesOf c.dies, dieFailed t d = false)
      ∧ waitCount c.desc = 0) := by
  refine ⟨?_, ?_, ?_, ?_⟩
  · obtain ⟨c, t, h1, h2⟩ := admitted (slotOf 0xEE) 4095 (fun c t => (fetchVerdict t 4095 c.desc c.sync).isSome)
      (by decide +kernel)
    exact ⟨slotOf 0xEE, 4095, c, t, by decide +kernel, by decide +kernel, h1, h2⟩
  · obtain ⟨c, t, h1, h2⟩ := admitted (ringAt1 { ringOn1 0 .on with fetched := [⟨descOf 1 [(14, 1)], 0x13F⟩] }) 4095
      (fun c t => decide (fetchVerdict t 4095 c.desc c.sync = none ∧ c.module ≠ 0)) (by decide +kernel)
    exact ⟨_, 4095, c, t, by decide +kernel, by decide +kernel, h1, of_decide_eq_true h2⟩
  · obtain ⟨c, t, h1, h2⟩ := admitted (setPwrDie (slotOf 1) 7 { PwrDie.dflt with state := 3 }) 4095 (fun c t => decide
      (fetchVerdict t 4095 c.desc c.sync = none ∧ c.module = 0 ∧ ∃ d ∈ diesOf c.dies, dieFailed t d = true))
      (by decide +kernel)
    exact ⟨_, 4095, c, t, by decide +kernel, by decide +kernel, h1, of_decide_eq_true h2⟩
  · obtain ⟨c, t, h1, h2⟩ := admitted (slotOf 1) 4095 (fun c t => decide (fetchVerdict t 4095 c.desc c.sync = none
      ∧ c.module = 0 ∧ (∀ d ∈ diesOf c.dies, dieFailed t d = false) ∧ waitCount c.desc = 0)) (by decide +kernel)
    exact ⟨slotOf 1, 4095, c, t, by decide +kernel, by decide +kernel, h1, of_decide_eq_true h2⟩

/-- An issued command, and one that has been placed on member 63. -/
def issued (d : BitVec 1024) : Cmd := { cmdOf d with phase := .issued }
def linked : Cmd := { issued 1 with uid := 2, sub := 1, link := .producer 1 1 }
def fencedAt (s : State) : State := setRing s 0 { ringOn1 0 .on with failedSince := true }

theorem witness_IssuedCommandsStart :
    (∃ s u c t, findCmd s u = some c ∧ mayStart s c = true ∧ (c.module = 0 ∨ c.origin ≠ none)
      ∧ (fenceFlag c.desc = true → fenceFailed s c = false) ∧ linkState s c = .none
      ∧ (startBody c).run.run s = (.ok (), t))
    ∧ (∃ s u c t p, findCmd s u = some c ∧ mayStart s c = true ∧ (c.module = 0 ∨ c.origin ≠ none)
      ∧ (fenceFlag c.desc = true → fenceFailed s c = false) ∧ linkState s c = .alive p
      ∧ (startBody c).run.run s = (.ok (), t))
    ∧ (∃ s u c, findCmd s u = some c ∧ mayStart s c = true ∧ (c.module = 0 ∨ c.origin ≠ none)
      ∧ fenceFlag c.desc = true ∧ fenceFailed s c = true)
    ∧ (∃ s u c, findCmd s u = some c ∧ c.phase = .issued ∧ c.module ≠ 0 ∧ c.origin = none ∧ isMember s = false
      ∧ heldByOrder s c = false
      ∧ heldForward s c = false ∧ (partOf s (cmdPart s c)).hold = false ∧ (fencePoint c = true → fenceFailed s c = false))
    ∧ (∃ s u c, findCmd s u = some c ∧ mayResume s c = true) :=
  ⟨⟨withCmds [issued 1], 1, issued 1, _, by decide +kernel, by decide +kernel, by decide +kernel, by decide +kernel, rfl,
      runs_to (by decide +kernel)⟩,
   ⟨withCmds [cmdOf 1, linked], 2, linked, _, cmdOf 1, by decide +kernel, by decide +kernel, by decide +kernel,
      by decide +kernel, by decide +kernel, runs_to (by decide +kernel)⟩,
   ⟨fencedAt (withCmds [issued (descOf 1 [(13, 1)])]), 1, issued (descOf 1 [(13, 1)]), by decide +kernel⟩,
   ⟨withCmds [{ issued 1 with module := 63 }], 1, { issued 1 with module := 63 }, by decide +kernel⟩,
   ⟨withCmds [{ cmdOf 1 with phase := .suspended }], 1, { cmdOf 1 with phase := .suspended }, by decide +kernel⟩⟩

/-- A finished command of the last ring. -/
def finished : Cmd := { cmdOf 1 with ring := 4095, phase := .finished }
def fullRing : Ring := { ringOn1 0 .on with cqNext := 0x10000 }
/-- A finished command that resumed from a husk in HBM. -/
def fromHusk : Cmd := { finished with husk := some (BitVec.ofNat 64 (opAt 200)) }
/-- A function that drains after its reset, with a full ring. -/
def flrAt (c : Cmd) : State :=
  setVf (setRing (withCmds [c]) 4095 { fullRing with state := .draining, cfg := (ringOn1 63 .on).cfg }) 63 ⟨false, true, false, 0⟩

theorem witness_CompletionRowsComplete :
    (∃ s, ∃ r : RingIx, ∃ c, nextPost s r.val = some c ∧ c.phase = .finished
      ∧ ((ringOf s r.val).state = .on ∨ (ringOf s r.val).state = .draining) ∧ completionHeld s r.val = false
      ∧ isMember s = false ∧ c.husk = none ∧ outstanding s c.uid = false ∧ findCmd s c.uid = some c)
    ∧ (∃ s, ∃ r : RingIx, ∃ c, nextPost s r.val = some c ∧ c.phase = .finished
      ∧ ((ringOf s r.val).state = .on ∨ (ringOf s r.val).state = .draining) ∧ completionHeld s r.val = true
      ∧ discards s r.val = true ∧ isMember s = false ∧ c.husk = none ∧ outstanding s c.uid = false
      ∧ findCmd s c.uid = some c)
    ∧ (∃ s, ∃ r : RingIx, ∃ c t c', nextPost s r.val = some c ∧ c.phase = .finished
      ∧ ((ringOf s r.val).state = .on ∨ (ringOf s r.val).state = .draining) ∧ completionHeld s r.val = false
      ∧ isMember s = false ∧ c.husk ≠ none ∧ t = clearHusk s c ∧ mayPost t c.uid = true ∧ findCmd t c.uid = some c')
    ∧ (∃ s r, discards s r = true)
    ∧ (∃ s r, (vfOf s (ringOf s r).function).draining = false ∧ (vfOf s 0).draining = false)
    ∧ (∃ s, ∃ (r : RingIx) (h : BitVec 17), ((ringOf s r.val).state = .on ∨ (ringOf s r.val).state = .draining)
      ∧ completionHeld s r.val = true ∧ isMember s = false ∧ h = bytesToBv 17 (hostRead s ((ringOf s r.val).ctrlBase + 12) 4)
      ∧ fieldN h 0 16 < (ringOf s r.val).cqSize
      ∧ ixDist (ringOf s r.val).cqSize h (ringOf s r.val).cqHead
        ≤ ixDist (ringOf s r.val).cqSize (ringOf s r.val).cqNext (ringOf s r.val).cqHead)
    ∧ (∃ s, ∃ r : RingIx, (ringOf s r.val).irqEn = true ∧ (ringOf s r.val).irqDelay ≠ 0 ∧ (ringOf s r.val).irqPending ≠ 0
      ∧ (ringOf s r.val).irqDelay ≤ elapsed s.time.now (ringOf s r.val).irqFirst) :=
  have ⟨c', h, _⟩ := decided (o := findCmd (clearHusk (setRing (withCmds [fromHusk]) 4095 (ringOn1 0 .on)) fromHusk) 1)
    (f := fun _ => true) (by decide +kernel)
  ⟨⟨setRing (withCmds [finished]) 4095 (ringOn1 0 .draining), 4095, finished, by decide +kernel⟩,
   ⟨flrAt finished, 4095, finished, by decide +kernel⟩,
   ⟨setRing (withCmds [fromHusk]) 4095 (ringOn1 0 .on), 4095, fromHusk, _, c', by decide +kernel, by decide +kernel,
     by decide +kernel, by decide +kernel, by decide +kernel, by decide +kernel, rfl, by decide +kernel, h⟩,
   ⟨flrAt finished, 4095, by decide +kernel⟩,
   ⟨ready, 4095, by decide +kernel⟩,
   ⟨hostWrite (setRing (withCmds [finished]) 4095 fullRing) 12 [63], 4095, 63, by decide +kernel⟩,
   ⟨{ ringAt1 { ringOn1 0 .on with irqPending := 1 } with time := { ready.time with now := 5 } }, 4095, by decide +kernel⟩⟩

/-- HQ_RING_SEL selects the last ring. -/
def chosen (s : State) : State := { s with hq := { s.hq with ringSel := 4095 } }

theorem witness_RingEnableAndDisable :
    (∃ s, ∃ r : RingIx, SetupOpen s ∧ s.hq.ringSel.toNat = r.val ∧ (ringOf s r.val).state = .off)
    ∧ (∃ s, ∃ r : RingIx, SetupOpen s ∧ s.hq.ringSel.toNat = r.val ∧ (ringOf s r.val).state = .draining)
    ∧ (∃ s, ∃ r : RingIx, SetupOpen s ∧ s.hq.ringSel.toNat = r.val ∧ ((ringOf s r.val).state = .on ∨ (ringOf s r.val).state = .error)
      ∧ (ringOf s r.val).fetched = []
      ∧ (∀ c ∈ s.cmds, c.ring = r.val → c.origin = none → c.phase ≠ .waiting ∧ c.phase ≠ .issued))
    ∧ (∃ s, ∃ r : RingIx, (ringOf s r.val).state = .draining ∧ ringEmpty s r.val = true
      ∧ (ringOf s r.val).enableHeld = false)
    ∧ (∃ s, ∃ r : RingIx, (ringOf s r.val).state = .draining ∧ ringEmpty s r.val = true
      ∧ (ringOf s r.val).enableHeld = true) :=
  ⟨⟨chosen ready, 4095, by unfold SetupOpen; decide +kernel⟩,
   ⟨chosen (ringAt1 (ringOn1 0 .draining)), 4095, by unfold SetupOpen; decide +kernel⟩,
   ⟨chosen (setRing (withCmds [finished]) 4095 (ringOn1 0 .error)), 4095, by unfold SetupOpen; decide +kernel⟩,
   ⟨ringAt1 (ringOn1 0 .draining), 4095, by decide +kernel⟩,
   ⟨ringAt1 { ringOn1 0 .draining with enableHeld := true }, 4095, by decide +kernel⟩⟩

theorem witness_DrainsEnd :
    (∃ s, ∃ f : FuncIx, f.val ≠ 0 ∧ (vfOf s f.val).draining = true ∧ (∀ r ∈ ringsOf s f.val, (ringOf s r).state = .off))
    ∧ (∃ s, ∃ f : FuncIx, f.val = 0 ∧ (vfOf s 0).draining = true ∧ (∀ e ∈ s.hq.rings, e.2.state = .off))
    ∧ (∃ s, ∃ p : PartIx, (partOf s p.val).draining = true ∧ quiesced s p.val = true)
    ∧ (∃ s, ∃ d : DieIx, (codecOf s d.val).state = .draining
      ∧ (∀ c ∈ s.cmds, onEngine s d.val c = false ∧ ∀ x ∈ c.pool, x.1 ≠ d.val))
    ∧ (∃ s, ∃ p : PortIx, (portOf s p.val).stage = .draining ∧ (portOf s p.val).txq = [] ∧ (portOf s p.val).replay = []) :=
  ⟨⟨setVf (ringAt1 (ringOn1 63 .off)) 63 ⟨true, true, false, 0⟩, 63, by decide +kernel⟩,
   ⟨setVf (ringAt1 (ringOn1 0 .off)) 0 ⟨true, true, false, 0⟩, 0, by decide +kernel⟩,
   ⟨setPart (withCmd 1) 7 { Partition.dflt with draining := true }, 7, by decide +kernel⟩,
   ⟨setCodec (withCmd 1) 7 { codecOf ready 7 with state := .draining }, 7, by decide +kernel⟩,
   ⟨setPort ready 15 { portOf ready 15 with stage := .draining }, 15, by decide +kernel⟩⟩

/-! ### Witnesses: set-up -/

def onePart (x : Partition) : State := setPart ready 7 x

theorem witness_StageSelectLoads :
    (∃ s, ∃ ix : BitVec 12, SetupOpen s ∧ s.hq.ringSel ≠ ix)
    ∧ (∃ s, ∃ ix : BitVec 12, SetupOpen s ∧ s.hq.ringSel = ix)
    ∧ (∃ s, ∃ f : FuncIx, ∃ ix : BitVec 12, SetupOpen s ∧ f.val ≠ 0 ∧ (vfOf s f.val).enabled = true
      ∧ (vfOf s f.val).select ≠ ix)
    ∧ (∃ s, ∃ ix : BitVec 6, SetupOpen s ∧ s.zw.winSel ≠ ix)
    ∧ (∃ s, ∃ (g : BitVec 4) (m : BitVec 6), SetupOpen s ∧ (s.part.rgrpGroup ≠ g ∨ s.part.rgrpMember ≠ m)) :=
  ⟨⟨ready, 4095, by unfold SetupOpen; decide +kernel⟩,
   ⟨ready, 0, by unfold SetupOpen; decide +kernel⟩,
   ⟨setVf ready 63 ⟨true, false, false, 0⟩, 63, 4095, by unfold SetupOpen; decide +kernel⟩,
   ⟨ready, 63, by unfold SetupOpen; decide +kernel⟩,
   ⟨ready, 0, 63, by unfold SetupOpen; decide +kernel⟩⟩

/-- A VF whose slot 0 is the last ring. -/
def vfAt : State := { setVf (ringAt1 (ringOn1 63 .off)) 63 ⟨true, false, false, 0⟩ with
  hq := { (setVf (ringAt1 (ringOn1 63 .off)) 63 ⟨true, false, false, 0⟩).hq with vfStage := [(63, Ring.dflt.cfg)] } }

theorem witness_CommitsApplyTheStage :
    (∃ s, SetupOpen s ∧ ringRanges s.hq.stage = true ∧ slotShared s s.hq.ringSel.toNat s.hq.stage = false
      ∧ ((ringOf s s.hq.ringSel.toNat).state = .off
        ∨ sameButEnable s.hq.stage (ringOf s s.hq.ringSel.toNat).cfg = true))
    ∧ (∃ s, ∃ f : FuncIx, ∃ r x, SetupOpen s ∧ f.val ≠ 0 ∧ (vfOf s f.val).enabled = true
      ∧ slotRing s f.val (vfOf s f.val).select.toNat = some r
      ∧ x = (smGet 0 s.hq.vfStage f.val &&& ~~~pfOnlyMask) ||| ((ringOf s r).cfg &&& pfOnlyMask)
      ∧ ringRanges x = true ∧ slotShared s r x = false
      ∧ ((ringOf s r).state = .off ∨ sameButEnable x (ringOf s r).cfg = true))
    ∧ (∃ s, SetupOpen s)
    ∧ (∃ s, SetupOpen s ∧ 1 ≤ s.part.rgrpGroup.toNat ∧ s.part.rgrpGroup.toNat ≤ 8
      ∧ fieldN s.part.rgrpCfgStage 0 7 ≠ 1 ∧ fieldN s.part.rgrpCfgStage 0 7 ≤ 64
      ∧ ringGroupUsed s s.part.rgrpGroup.toNat = false) :=
  ⟨⟨{ ready with hq := { ready.hq with stage := Ring.dflt.cfg } }, by unfold SetupOpen; decide +kernel⟩,
   ⟨vfAt, 63, 4095, _, by unfold SetupOpen; decide +kernel, by decide +kernel, by decide +kernel, by decide +kernel, rfl,
      by decide +kernel, by decide +kernel, by decide +kernel⟩,
   ⟨ready, by unfold SetupOpen; decide +kernel⟩,
   ⟨{ ready with part := { ready.part with rgrpGroup := 8, rgrpCfgStage := 64 } }, by unfold SetupOpen; decide +kernel⟩⟩

theorem witness_PartitionRowsComplete :
    (∃ s, SetupOpen s ∧ allRingsOff s = true)
    ∧ (∃ s, ∃ (p : PartIx) (v : BitVec 32), SetupOpen s ∧ (field v 0 8 = 0 ∨ alignedGroup (field v 0 8) = true)
      ∧ (∀ q < 8, q ≠ p.val → (partOf s q).dies &&& field v 0 8 = 0) ∧ field v 12 4 ≠ 0
      ∧ field v 0 8 = (partOf s p.val).dies ∧ field v 12 4 = (partOf s p.val).tblGib)
    ∧ (∃ s, ∃ (p : PartIx) (v : BitVec 32), SetupOpen s ∧ (field v 0 8 = 0 ∨ alignedGroup (field v 0 8) = true)
      ∧ (∀ q < 8, q ≠ p.val → (partOf s q).dies &&& field v 0 8 = 0) ∧ field v 12 4 ≠ 0
      ∧ (field v 0 8 ≠ (partOf s p.val).dies ∨ field v 12 4 ≠ (partOf s p.val).tblGib)
      ∧ partRingsOff s p.val = true ∧ quiesced s p.val = true)
    ∧ (∃ s, ∃ p : PartIx, SetupOpen s ∧ (partOf s p.val).hold = false ∧ (partOf s p.val).draining = false)
    ∧ (∃ s, ∃ p : PartIx, SetupOpen s ∧ (partOf s p.val).draining = true)
    ∧ (∃ s, ∃ p : PartIx, SetupOpen s ∧ quiesced s p.val = true)
    ∧ (∃ s, ∃ p : PartIx, SetupOpen s ∧ quiesced s p.val = false)
    ∧ (∃ s, ∃ b : Bool, s.pwr.stage = 5 ∧ ((b = false ∧ hostUp s = true) ∨ (b = true ∧ isMember s = true)) ∧ allQuiesced s = false)
    ∧ (∃ s, ∃ b : Bool, s.pwr.stage = 5 ∧ ((b = false ∧ hostUp s = true) ∨ (b = true ∧ isMember s = true)) ∧ allQuiesced s = true) :=
  ⟨⟨ready, by unfold SetupOpen; decide +kernel⟩,
   ⟨ready, 0, 0x10FF, by unfold SetupOpen; decide +kernel⟩,
   ⟨ready, 0, 0x1080, by unfold SetupOpen; decide +kernel⟩,
   ⟨ready, 7, by unfold SetupOpen; decide +kernel⟩,
   ⟨onePart { Partition.dflt with draining := true }, 7, by unfold SetupOpen; decide +kernel⟩,
   ⟨ready, 7, by unfold SetupOpen; decide +kernel⟩,
   ⟨withCmd 1, 0, by unfold SetupOpen; decide +kernel⟩,
   ⟨withCmd 1, false, by decide +kernel⟩,
   ⟨member, true, by decide +kernel⟩⟩

/-- The module whose last pre-emption, of an action, concerns a command. -/
def asked (action : BitVec 2) (c : Cmd) : State :=
  { withCmds [c] with part := { ready.part with preemptAction := action, preempted := [1] } }

theorem witness_PreemptionRowsComplete :
    (∃ s, SetupOpen s ∧ preemptBusy s = false)
    ∧ (∃ s, SetupOpen s ∧ preemptBusy s = true ∧ cutPending s s.part.preempted = true)
    ∧ (∃ s, SetupOpen s ∧ preemptBusy s = true ∧ cutPending s s.part.preempted = false)
    ∧ (∃ s : State, s.cmds = [])
    ∧ (∃ s : State, s.cmds ≠ [] ∧ ∀ c ∈ s.cmds,
      (c.phase = .started → runsHere c = true → ctxOpen s c = true) ∧ c.phase ≠ .suspended) :=
  ⟨⟨ready, by unfold SetupOpen; decide +kernel⟩,
   ⟨asked 1 { cmdOf 9 with suspending := true }, by unfold SetupOpen; decide +kernel⟩,
   ⟨asked 2 { cmdOf 9 with phase := .suspended }, by unfold SetupOpen; decide +kernel⟩, ⟨ready, rfl⟩, ⟨withCmd 1, by decide +kernel, by decide +kernel⟩⟩

theorem witness_FunctionSwitchesComplete :
    (∃ s, ∃ d : DieIx, SetupOpen s ∧ (codecOf s d.val).state = .off)
    ∧ (∃ s, ∃ d : DieIx, SetupOpen s ∧ (codecOf s d.val).state = .draining)
    ∧ (∃ s, ∃ d : DieIx, SetupOpen s ∧ (codecOf s d.val).state = .on
      ∧ (∀ c ∈ s.cmds, codecOp (opcodeOf c.desc) = true → c.phase ≠ .waiting ∧ c.phase ≠ .issued))
    ∧ (∃ s, ∃ f : FuncIx, hostUp s = true ∧ f.val ≠ 0 ∧ (vfOf s f.val).draining = false)
    ∧ (∃ s, ∃ f : FuncIx, hostUp s = true ∧ f.val ≠ 0 ∧ (vfOf s f.val).draining = true)
    ∧ (∃ s, portTrains s = true ∧ hostUp s = false)
    ∧ (∃ s, ∃ f : FuncIx, hostUp s = true ∧ f.val ≠ 0 ∧ (vfOf s f.val).draining = false ∧ (vfOf s f.val).enabled = true
      ∧ ringsOf s f.val = [] ∧ s.cmds = []) :=
  ⟨⟨setCodec ready 7 { codecOf ready 7 with state := .off }, 7, by unfold SetupOpen; decide +kernel⟩,
   ⟨setCodec ready 7 { codecOf ready 7 with state := .draining }, 7, by unfold SetupOpen; decide +kernel⟩,
   ⟨setCodec (withCmd 0x40) 7 { codecOf ready 7 with state := .on }, 7, by unfold SetupOpen; decide +kernel⟩,
   ⟨ready, 63, by decide +kernel⟩,
   ⟨setVf ready 63 ⟨true, true, false, 0⟩, 63, by decide +kernel⟩,
   ⟨{ ready with pwr := { ready.pwr with stage := 2 } }, by decide +kernel⟩,
   ⟨setVf ready 63 ⟨true, false, false, 0⟩, 63, by decide +kernel⟩⟩

theorem witness_FaultSetupCompletes :
    (∃ s, ∃ (d : DieIx) (ch : ChanIx), SetupOpen s ∧ bit (dieOf s d.val).live ch.val = true
      ∧ (chanOf s d.val ch.val).fenced = false)
    ∧ (∃ s, ∃ (d : DieIx) (v : W32), SetupOpen s ∧ bit (dieOf s d.val).hbmInj 31 = false ∧ bit v 31 = true
      ∧ fieldN v 8 2 ≠ 0)
    ∧ (∃ s, ∃ (d : DieIx) (v : W32), SetupOpen s ∧ bit (dieOf s d.val).cluInj 31 = false ∧ bit v 31 = true
      ∧ fieldN v 16 2 ≠ 0) :=
  ⟨⟨ready, 7, 63, by unfold SetupOpen; decide +kernel⟩,
   ⟨ready, 7, 0x8000033F, by unfold SetupOpen; decide +kernel⟩,
   ⟨ready, 7, 0x80031FFF, by unfold SetupOpen; decide +kernel⟩⟩

theorem witness_SetupClosedWritesAreLogged :
    (∃ s, hostUp s = true ∧ s.pwr.stage ≠ 5 ∧ isMember s = false)
    ∧ (∃ s, hostUp s = true ∧ s.pwr.stage = 5 ∧ isMember s = true)
    ∧ (∃ s, ∃ f : FuncIx, hostUp s = true ∧ (s.pwr.stage ≠ 5 ∨ isMember s = true) ∧ f.val ≠ 0
      ∧ (vfOf s f.val).enabled = true) :=
  ⟨⟨{ ready with pwr := { ready.pwr with stage := 4 } }, by decide +kernel⟩, ⟨member, by decide +kernel⟩,
   ⟨setVf member 63 ⟨true, false, false, 0⟩, 63, by decide +kernel⟩⟩

/-! ### Witnesses: clusters -/

/-- Cluster 0 of die 7 with a word, a tile and scrub work to do. -/
def oneCluster (f : Cluster → Cluster) : State := setCluster ready 7 8191 (f (clusterOf ready 7 8191))
def scrubbing : State := modDie ready 7 (fun b => { b with scrubLines := 1 })

/-- Tile group 0 on the clusters 0 and 1 of die 7, side by side in one region. -/
def groupOf (unit : Nat) : TileGroup :=
  { TileGroup.fresh 0 1 unit .free with die := 7, clusters := [0, 1], running := true }
def inGroup : State := { withCmd 9 with groups := [groupOf 0], nextGroup := 1 }

/-- The group with a row bridle of its clusters, and one of whose clusters the second waits for a halo of the first. -/
def onBridle : State := { inGroup with groups := [{ groupOf 0 with bridles := [⟨true, 0, [0, 1]⟩] }] }
def haloWaiting : State := { inGroup with groups := [{ groupOf 0 with waits := [(1, 0)] }] }

theorem witness_ScratchpadReadsBackWhatWasWritten :
    (∃ s, ∃ (d : DieIx) (k : ClusterIx) (a : BitVec 18), ∃ bs : List Byte, (clusterOf s d.val k.val).mark ≠ .mappedOut
      ∧ a.toNat % 8 = 0 ∧ a.toNat + 8 ≤ 196608 ∧ bs.length = 8 ∧ NoClusterInjection s d.val k.val
      ∧ haloHere s d.val k.val = true)
    ∧ (∃ s, ∃ (d : DieIx) (k m : ClusterIx) (a : BitVec 18), ∃ (bs : List Byte) (row : Bool),
      (clusterOf s d.val k.val).mark ≠ .mappedOut ∧ (clusterOf s d.val m.val).mark ≠ .mappedOut ∧ a.toNat % 8 = 0
      ∧ a.toNat + 8 ≤ 196608 ∧ bs.length = 8 ∧ (dieOf s d.val).cluInj.getLsbD 31 = false ∧ haloHere s d.val m.val = true
      ∧ m.val ∈ deliveredTo s d.val k.val (some row) ∧ m ≠ k) :=
  ⟨⟨ready, 7, 8191, 196600, [1, 2, 3, 4, 5, 6, 7, 8], by unfold NoClusterInjection; decide +kernel⟩,
   ⟨onBridle, 7, 0, 1, 196600, [1, 2, 3, 4, 5, 6, 7, 8], true, by decide +kernel⟩⟩

theorem witness_ScratchpadReadsComplete :
    (∃ s, ∃ (d : DieIx) (k : ClusterIx) (a : BitVec 18), (clusterOf s d.val k.val).mark ≠ .mappedOut
      ∧ a.toNat / 8 * 8 < 196608 ∧ haloHere s d.val k.val = true
      ∧ lineWritten (clusterOf s d.val k.val) (a.toNat / 8 * 8) = false)
    ∧ (∃ s, ∃ (d : DieIx) (k : ClusterIx) (a : BitVec 18), ∃ w, (clusterOf s d.val k.val).mark ≠ .mappedOut
      ∧ a.toNat / 8 * 8 < 196608 ∧ haloHere s d.val k.val = true
      ∧ lineWritten (clusterOf s d.val k.val) (a.toNat / 8 * 8) = true
      ∧ w = spWord (clusterOf s d.val k.val) (a.toNat / 8 * 8) ∧ w.poison = false ∧ w.flips = 0)
    ∧ (∃ s, ∃ (d : DieIx) (k : ClusterIx) (a : BitVec 18), (clusterOf s d.val k.val).mark ≠ .mappedOut
      ∧ a.toNat / 8 * 8 < 196608 ∧ haloHere s d.val k.val = false)
    ∧ (∃ s, ∃ (d : DieIx) (k : ClusterIx), (clusterOf s d.val k.val).mark = .enabled ∧ (dieOf s d.val).scrubLines ≠ 0
      ∧ (clusterOf s d.val k.val).scrubbed < (dieOf s d.val).scrubQuota)
    ∧ (∃ s, ∃ (d : DieIx) (k : ClusterIx) (a : BitVec 18), ∃ bs : List Byte, (clusterOf s d.val k.val).mark ≠ .mappedOut
      ∧ a.toNat + bs.length ≤ 196608)
    ∧ (∃ s d k g b, groupOn s d k = some g ∧ g.bridles.find? (fun b => b.row == true && b.members.contains k) = some b) :=
  ⟨⟨ready, 7, 8191, 196607, by decide +kernel⟩,
   ⟨spStore ready 7 8191 196600 [1], 7, 8191, 196607, _, by decide +kernel, by decide +kernel, by decide +kernel,
      by decide +kernel, rfl, by decide +kernel, by decide +kernel⟩,
   ⟨haloWaiting, 7, 1, 196607, by decide +kernel⟩,
   ⟨scrubbing, 7, 8191, by decide +kernel⟩,
   ⟨ready, 7, 8191, 196604, [1, 2, 3, 4], by decide +kernel⟩,
   ⟨onBridle, 7, 1, { groupOf 0 with bridles := [⟨true, 0, [0, 1]⟩] }, ⟨true, 0, [0, 1]⟩, by decide +kernel⟩⟩

theorem witness_NeighbourRowsComplete :
    (∃ s, ∃ (d : DieIx) (k : ClusterIx), ∃ dir, ∃ a : BitVec 18, ∃ (bs : List Byte) (n : Nat),
      groupNeighbour s d.val k.val dir = some (some n) ∧ a.toNat + bs.length ≤ 196608)
    ∧ (∃ s, ∃ (d : DieIx) (k : ClusterIx), ∃ dir, ∃ a : BitVec 18, ∃ m n bs t,
      groupNeighbour s d.val k.val dir = some (some n) ∧ a.toNat + m ≤ 196608
      ∧ spLoad s d.val n a.toNat m = (some bs, t)) :=
  ⟨⟨inGroup, 7, 0, .east, 196604, [1, 2, 3, 4], 1, by decide +kernel⟩,
   ⟨inGroup, 7, 0, .east, 196604, 4, 1, [0, 0, 0, 0], (spLoad inGroup 7 1 196604 4).2, by decide +kernel, by decide +kernel,
      Prod.ext_iff.mpr ⟨show _ = some _ by decide +kernel, rfl⟩⟩⟩

/-- RANDOM with a unit to start on die 0, and FILL of 1 MiB and 8 bytes. -/
def randomAt : State := withCmd randomDesc
def longFill : BitVec 1024 := descOf 0x09 [(256, 1048584), (296, 1)]

/-- A pass of one row over an FP8 tile. -/
def onePass (load : Bool) : Pass :=
  { pairing := .byte8, streamFmt := 0x10, stationFmt := 0x10, loadTile := load, tileAddr := 0, tileScaleAddr := 0
    rowsAddr := 4096, rowScaleAddr := 0, slotAddr := 8192, rows := 1, firstOfSegment := true, defect := none
    codebook := none }
def zeroTile : Tile := ⟨.byte8, 0x10, List.replicate 512 0, []⟩

theorem witness_TileGroupRowsComplete :
    (∃ s, ∃ (d : DieIx) (region : Fin 32), ∃ ks : List ClusterIx, ∃ c r g, chooseCmd s d.val = some (c, r)
      ∧ readyGroup s c d.val region.val = some g ∧ moverOp (opcodeOf c.desc) = false
      ∧ placeOk s d.val region.val (ks.map Fin.val) g.placing g.failedOn = true)
    ∧ (∃ s, ∃ (d : DieIx) (region : Fin 32), ∃ c r g, chooseCmd s d.val = some (c, r)
      ∧ readyGroup s c d.val region.val = some g ∧ moverOp (opcodeOf c.desc) = true)
    ∧ (∃ s i g c t, s.groups.find? (fun x => x.id == i && x.running && x.waits.all (signalled s x.die)) = some g ∧ findCmd s g.cmd = some c
      ∧ (endUnit s g c).run.run s = (.ok true, t))
    ∧ (∃ s i g c t, s.groups.find? (fun x => x.id == i && x.running && x.waits.all (signalled s x.die)) = some g ∧ findCmd s g.cmd = some c
      ∧ (endUnit s g c).run.run s = (.ok false, t))
    ∧ (∃ s i, (∃ g ∈ s.groups, g.id = i) ∧ ∀ g ∈ s.groups, g.id = i → ∃ w ∈ g.waits, signalled s g.die w = false)
    ∧ (∃ s, ∃ (d : DieIx) (k : ClusterIx) (p : Pass), ∃ sf wf store tile, fmtOf p.streamFmt.toNat = some sf
      ∧ fmtOf p.stationFmt.toNat = some wf ∧ pairingOf sf wf = some p.pairing ∧ 1 ≤ p.rows ∧ p.rows ≤ 65536
      ∧ (clusterOf s d.val k.val).mark ≠ .mappedOut ∧ bookOk s d.val k.val p wf = true
      ∧ store = tileStore (passBook s d.val k.val p) wf ∧ passInside p sf store = true
      ∧ passReady s d.val k.val (passTiles p sf store) = true ∧ p.loadTile = false
      ∧ (clusterOf s d.val k.val).tile = some tile ∧ tile.pairing = p.pairing ∧ tile.fmt = p.stationFmt)
    ∧ (∃ s, ∃ (d : DieIx) (k : ClusterIx) (p : Pass), ∃ sf wf store tile t u, fmtOf p.streamFmt.toNat = some sf
      ∧ fmtOf p.stationFmt.toNat = some wf ∧ pairingOf sf wf = some p.pairing ∧ 1 ≤ p.rows ∧ p.rows ≤ 65536
      ∧ (clusterOf s d.val k.val).mark ≠ .mappedOut ∧ bookOk s d.val k.val p wf = true
      ∧ store = tileStore (passBook s d.val k.val p) wf ∧ passInside p sf store = true
      ∧ passReady s d.val k.val (passTiles p sf store) = true ∧ p.loadTile = true
      ∧ loadTile s d.val k.val p wf = (some tile, t) ∧ checkTile (swapTile t d.val k.val) d.val k.val tile p = (true, u))
    ∧ (∃ s, ∃ (d : DieIx) (k : ClusterIx) (p : Pass), ∃ sf wf store, fmtOf p.streamFmt.toNat = some sf
      ∧ fmtOf p.stationFmt.toNat = some wf ∧ pairingOf sf wf = some p.pairing ∧ 1 ≤ p.rows ∧ p.rows ≤ 65536
      ∧ (clusterOf s d.val k.val).mark ≠ .mappedOut ∧ bookOk s d.val k.val p wf = true
      ∧ store = tileStore (passBook s d.val k.val p) wf ∧ passInside p sf store = true
      ∧ passReady s d.val k.val (passTiles p sf store) = false) := by
  refine ⟨?_, ?_, ?_, ?_, ⟨haloWaiting, 0, by decide +kernel⟩, ?_, ?_, ?_⟩
  · obtain ⟨⟨c, r⟩, h1, h2⟩ := decided (o := chooseCmd randomAt 0)
      (f := fun x => (readyGroup randomAt x.1 0 31).any (fun g => !moverOp (opcodeOf x.1.desc)
        && placeOk randomAt 0 31 [8191] g.placing g.failedOn)) (by decide +kernel)
    obtain ⟨g, h3, h4⟩ := decided h2
    simp only [Bool.and_eq_true, Bool.not_eq_true'] at h4
    exact ⟨randomAt, 0, 31, [8191], c, r, g, h1, h3, h4⟩
  · obtain ⟨⟨c, r⟩, h1, h2⟩ := decided (o := chooseCmd (withCmd fillDesc) 0)
      (f := fun x => (readyGroup (withCmd fillDesc) x.1 0 31).any (fun _ => moverOp (opcodeOf x.1.desc))) (by decide +kernel)
    obtain ⟨g, h3, h4⟩ := decided h2
    exact ⟨withCmd fillDesc, 0, 31, c, r, g, h1, h3, h4⟩
  · exact ⟨{ withCmd fillDesc with groups := [groupOf 0] }, 0, groupOf 0, cmdOf fillDesc, _, by decide +kernel,
      by decide +kernel, runs_to (by decide +kernel)⟩
  · exact ⟨{ withCmd longFill with groups := [groupOf 1] }, 0, groupOf 1, cmdOf longFill, _, by decide +kernel,
      by decide +kernel, runs_to (by decide +kernel)⟩
  · exact ⟨oneCluster (fun c => { c with tile := some zeroTile }), 7, 8191, onePass false, .flt .e4m3, .flt .e4m3,
      .flt .e4m3, zeroTile, by decide +kernel⟩
  · obtain ⟨tile, h1, h2⟩ := decided (o := (loadTile ready 7 8191 (onePass true) (.flt .e4m3)).1)
      (f := fun x => (checkTile (swapTile (loadTile ready 7 8191 (onePass true) (.flt .e4m3)).2 7 8191) 7 8191 x
        (onePass true)).1) (by decide +kernel)
    refine ⟨ready, 7, 8191, onePass true, .flt .e4m3, .flt .e4m3, .flt .e4m3, tile, _, _, ?_, ?_, ?_, ?_, ?_, ?_, ?_, ?_, ?_,
      ?_, rfl, Prod.ext_iff.mpr ⟨h1, rfl⟩, Prod.ext_iff.mpr ⟨h2, rfl⟩⟩ <;> decide +kernel
  · exact ⟨onBridle, 7, 0, onePass false, .flt .e4m3, .flt .e4m3, .flt .e4m3, by decide +kernel⟩

/-- A state at the tick after the one before it, and the module at one that is a multiple of every window and epoch. -/
def atTick (s : State) (t : Tick) : State := { s with time := { s.time with now := t, cameFrom := t - 1 } }
def boundary : State := atTick ready (2 ^ 39)

/-- A doubled tick or a forward step has passed a boundary of 1,024 ticks where a multiple lies among the ticks that it counted
(R419, R420). -/
theorem test_passed_boundary :
    let at_ (t f : Tick) := boundaryNow { ready with time := { ready.time with now := t, cameFrom := f } } 10
    (at_ 1025 1023, at_ 1025 1024, at_ 9000 1000, at_ 1023 1000, at_ 1024 1023) = (true, false, true, false, true) := by
  decide +kernel

theorem witness_DieBoundariesComplete :
    (∃ s, ∃ d : DieIx, AtTick s (dieOf s d.val).health.windowLog2.toNat (dieOf s d.val).healthBegan)
    ∧ (∃ s, ∃ d : DieIx, ¬ AtTick s (dieOf s d.val).health.windowLog2.toNat (dieOf s d.val).healthBegan)
    ∧ (∃ s, ∃ d : DieIx, AtTick s (fieldN (dieOf s d.val).scrubCfg 0 5) (dieOf s d.val).scrubBegan
      ∧ linesOutstanding s d.val = 0)
    ∧ (∃ s, ∃ d : DieIx, boundaryNow s (fieldN (dieOf s d.val).scrubCfg 0 5) = false
      ∧ AtTick s (dieOf s d.val).scrubEpoch (dieOf s d.val).scrubBegan ∧ linesOutstanding s d.val = 0)
    ∧ (∃ s, ∃ d : DieIx, (AtTick s (fieldN (dieOf s d.val).scrubCfg 0 5) (dieOf s d.val).scrubBegan
        ∨ AtTick s (dieOf s d.val).scrubEpoch (dieOf s d.val).scrubBegan) ∧ linesOutstanding s d.val ≠ 0)
    ∧ (∃ s, ∃ d : DieIx, ¬ AtTick s (fieldN (dieOf s d.val).scrubCfg 0 5) (dieOf s d.val).scrubBegan
      ∧ ¬ AtTick s (dieOf s d.val).scrubEpoch (dieOf s d.val).scrubBegan)
    ∧ (∃ s, ∃ d : DieIx, AtTick s (fieldN (dieOf s d.val).hbmScrubCfg 0 5) (dieOf s d.val).hbmScrubBegan
      ∧ ∀ c < 64, chanServes s d.val c = true → (dieOf s d.val).hbmScrubQuota ≤ (chanOf s d.val c).scrubbed)
    ∧ (∃ s, ∃ d : DieIx, boundaryNow s (fieldN (dieOf s d.val).hbmScrubCfg 0 5) = false
      ∧ AtTick s (dieOf s d.val).hbmScrubEpoch (dieOf s d.val).hbmScrubBegan
      ∧ ∀ c < 64, chanServes s d.val c = true → (dieOf s d.val).hbmScrubQuota ≤ (chanOf s d.val c).scrubbed)
    ∧ (∃ s, ∃ d : DieIx, ∃ c, (AtTick s (fieldN (dieOf s d.val).hbmScrubCfg 0 5) (dieOf s d.val).hbmScrubBegan
        ∨ AtTick s (dieOf s d.val).hbmScrubEpoch (dieOf s d.val).hbmScrubBegan) ∧ c < 64 ∧ chanServes s d.val c = true
      ∧ (chanOf s d.val c).scrubbed < (dieOf s d.val).hbmScrubQuota)
    ∧ (∃ s, ∃ d : DieIx, ¬ AtTick s (fieldN (dieOf s d.val).hbmScrubCfg 0 5) (dieOf s d.val).hbmScrubBegan
      ∧ ¬ AtTick s (dieOf s d.val).hbmScrubEpoch (dieOf s d.val).hbmScrubBegan) := by
  unfold AtTick
  exact ⟨⟨boundary, 7, by decide +kernel⟩, ⟨atTick ready 1, 7, by decide +kernel⟩,
   ⟨modDie boundary 7 (fun b => { b with scrubQuota := 0 }), 7, by decide +kernel⟩,
   ⟨modDie (atTick ready 1024) 7 (fun b => { b with scrubQuota := 0, scrubEpoch := 10 }), 7, by decide +kernel⟩,
   ⟨modDie boundary 7 (fun b => { b with scrubQuota := 1 }), 7, by decide +kernel⟩, ⟨atTick ready 1, 7, by decide +kernel⟩,
   ⟨modDie boundary 7 (fun b => { b with hbmScrubQuota := 0 }), 7, by decide +kernel⟩,
   ⟨modDie (atTick ready 1024) 7 (fun b => { b with hbmScrubQuota := 0, hbmScrubEpoch := 10 }), 7, by decide +kernel⟩,
   ⟨modDie boundary 7 (fun b => { b with hbmScrubQuota := 1 }), 7, 63, by decide +kernel⟩,
   ⟨atTick ready 1, 7, by decide +kernel⟩⟩

/-! ### Witnesses: HBM -/

theorem witness_InterleaveIsABijection :
    ∃ live : List Nat, live ≠ [] ∧ live.Nodup ∧ ∃ a < live.length * 2684354560, ∃ b < live.length * 2684354560,
      interleave live a = interleave live b ∧ a / 2048 = b / 2048 ∧ ∃ c ∈ live, ∃ o < 2684354560, interleave live a = (c, o) :=
  ⟨[0, 63], by decide, by decide, 5368709119, by decide, 5368709119, by decide, rfl, rfl, 0, by decide, 2684354559, by decide,
    by decide +kernel⟩

/-- The last sector below the top of memory. -/
def topOff : BitVec 38 := 171798691808

/-- That sector when a read of it has found it uncorrectable. -/
def lostAt : State :=
  setSector ready 7 (chanAt ready 7 topOff.toNat) (sectorAt ready 7 topOff.toNat)
    { storedAt ready 7 topOff.toNat with lost := true }

/-- What a read finds there. -/
def foundAt (s : State) (dmg : List (Fin 36 × Byte)) : RsOutcome :=
  decodeSector (laneAt s 7 topOff.toNat) (storedAt s 7 topOff.toNat) dmg

theorem witness_HbmAccessesComplete :
    (∃ s, ∃ (d : DieIx) (off : BitVec 38), ∃ dmg, off.toNat % 32 = 0 ∧ SectorServed s d.val off.toNat
      ∧ decodeSector (laneAt s d.val off.toNat) (storedAt s d.val off.toNat) dmg = .clean)
    ∧ (∃ s, ∃ (d : DieIx) (off : BitVec 38), ∃ dmg cw ps, off.toNat % 32 = 0 ∧ SectorServed s d.val off.toNat
      ∧ decodeSector (laneAt s d.val off.toNat) (storedAt s d.val off.toNat) dmg = .corrected cw ps)
    ∧ (∃ s, ∃ (d : DieIx) (off : BitVec 38), ∃ dmg, off.toNat % 32 = 0 ∧ SectorServed s d.val off.toNat
      ∧ decodeSector (laneAt s d.val off.toNat) (storedAt s d.val off.toNat) dmg = .uncorrectable)
    ∧ (∃ sec : Sector, sec.lost = true)
    ∧ (∃ s, ∃ (d : DieIx) (off : BitVec 38), off.toNat % 32 = 0 ∧ SectorServed s d.val off.toNat
      ∧ NoHbmInjection s d.val (chanAt s d.val off.toNat))
    ∧ (∃ s, ∃ (d : DieIx) (off : BitVec 38), off.toNat % 32 = 0 ∧ offlineAt s d.val off.toNat = true
      ∧ dieRefuses s d.val = true ∧ ¬ off.toNat + 32 ≤ topOf s d.val)
    ∧ (∃ s, ∃ (d : DieIx) (off : BitVec 38), off.toNat % 32 = 0 ∧ offlineAt s d.val off.toNat = true
      ∧ dieRefuses s d.val = false ∧ off.toNat + 32 ≤ topOf s d.val) :=
  ⟨⟨ready, 7, topOff, [], by decide, by unfold SectorServed; decide +kernel, show foundAt ready [] = _ by decide +kernel⟩,
   ⟨ready, 7, topOff, [(31, 0xFF)], rsEncode 0, [31], by decide, by unfold SectorServed; decide +kernel,
      show foundAt ready [(31, 0xFF)] = _ by decide +kernel⟩,
   ⟨lostAt, 7, topOff, [], by decide, by unfold SectorServed; decide +kernel, show foundAt lostAt [] = _ by decide +kernel⟩,
   ⟨{ Sector.dflt with lost := true }, rfl⟩,
   ⟨ready, 7, topOff, by decide, by unfold SectorServed; decide +kernel, by unfold NoHbmInjection; decide +kernel⟩,
   ⟨setPwrDie ready 7 { PwrDie.dflt with state := 3 }, 7, topOff + 32, by decide +kernel⟩,
   ⟨modChan ready 7 (chanAt ready 7 topOff.toNat) (fun x => { x with fenced := true }), 7, topOff, by decide +kernel⟩⟩

theorem witness_AtomicsStoreTheirValue : (∃ old x : W64, old = x) ∧ (∃ old x : W64, old ≠ x) :=
  ⟨⟨1, 1, rfl⟩, ⟨1, 2, by decide⟩⟩

/-- The last row of the last channel, found faulty. -/
def lastRow : RowName := ⟨7, 63, 1, 31, 0x7FFFF⟩
def faultyRow : State := modChan ready 7 63 (fun x => { x with faulty := [RowName.key lastRow] })

/-- A stack one of whose banks has been activated as often as its threshold. -/
def worn : State := modDie ready 7 (fun b => { b with activations := [(2048, Config.rfmThreshold 7 1)] })

theorem witness_HbmUpkeepCompletes :
    (∃ s, ∃ d : DieIx, (dieOf s d.val).selfRefresh = false)
    ∧ (∃ s, ∃ (d : DieIx) (st : Fin 2), ∃ k n, (dieOf s d.val).selfRefresh = false ∧ (k, n) ∈ (dieOf s d.val).activations
      ∧ k / 2048 = st.val ∧ Config.rfmThreshold d.val st.val ≤ n)
    ∧ (∃ s, ∃ (d : DieIx) (st : Fin 2),
      ∀ x ∈ (dieOf s d.val).activations, x.1 / 2048 = st.val → x.2 < Config.rfmThreshold d.val st.val)
    ∧ (∃ s, ∃ (d : DieIx) (ch : ChanIx), bit (dieOf s d.val).live ch.val = true ∧ (chanOf s d.val ch.val).fenced = false
      ∧ (dieOf s d.val).selfRefresh = false ∧ (dieOf s d.val).hbmScrubRate ≠ 0
      ∧ (chanOf s d.val ch.val).scrubbed < (dieOf s d.val).hbmScrubQuota)
    ∧ (∃ s, ∃ row : RowName, s.pwr.inhibit = false
      ∧ (chanOf s row.die.val row.channel.val).faulty.contains (RowName.key row) = true
      ∧ repairTurn s (RowName.entry row) = true)
    ∧ (∃ s d c row, (repairList s).contains (pendingEntry d c row) = false ∧ s.pwr.inhibit = false)
    ∧ (∃ s : State, s.pwr.inhibit = true) :=
  ⟨⟨ready, 7, by decide +kernel⟩,
   ⟨worn, 7, 1, 2048, Config.rfmThreshold 7 1, rfl, show _ ∈ [(2048, Config.rfmThreshold 7 1)] from List.mem_singleton.mpr rfl,
      rfl, le_refl _⟩,
   ⟨ready, 7, 1, show ∀ x ∈ ([] : List (Nat × Nat)), _ by simp⟩,
   ⟨ready, 7, 63, by decide +kernel⟩, ⟨faultyRow, lastRow, by decide +kernel⟩,
   ⟨ready, 7, 63, RowName.key lastRow, by decide +kernel⟩, ⟨State.reset, rfl⟩⟩

/-- The module in bring-up, at a stage. -/
def bringing (n : Nat) : State := { State.reset with pwr := { State.reset.pwr with running := true, stage := n, inhibit := false } }
def maintained : State := setPwrDie (modDie ready 7 (fun b => { b with maintHeld := true })) 7 PwrDie.dflt
/-- Die 7 in the bring-up that a write of OFF = 0 started, with maintenance held or not. -/
def coming (held trained : Bool) : State :=
  setPwrDie (modDie ready 7 (fun b => { b with maintHeld := held, trained1 := trained })) 7 { PwrDie.dflt with state := 2 }
/-- Channel 63 of die 7 was retrained at tick 0. -/
def retrained (n : Nat) : State := { modChan ready 7 63 (fun x => { x with retrainedAt := some 0 }) with
  time := { ready.time with now := BitVec.ofNat 40 n } }
/-- The flash lists the last row as pending. -/
def rowListed (s : State) (inhibit : Bool) : State :=
  { s with flash := { s.flash with repairs := [RowName.entry lastRow] }, pwr := { s.pwr with inhibit := inhibit } }

theorem witness_HbmTrainingCompletes :
    (∃ s, ∃ (d : DieIx) (r : ChanTraining), chanServes s d.val r.channel.val = true
      ∧ retrainDue s (chanOf s d.val r.channel.val) = true ∧ r.otherFailure = true)
    ∧ (∃ s, ∃ (d : DieIx) (r : ChanTraining) (pc : Fin 2) (l : Fin 36), chanServes s d.val r.channel.val = true
      ∧ retrainDue s (chanOf s d.val r.channel.val) = true ∧ r.otherFailure = false ∧ r.badLanes = [(pc, l)]
      ∧ laneOf (chanOf s d.val r.channel.val) pc.val = none)
    ∧ (∃ s, ∃ (d : DieIx) (r : ChanTraining), ∃ x, chanServes s d.val r.channel.val = true
      ∧ (chanOf s d.val r.channel.val).retrainedAt = some x ∧ since s.time.now x < 131072)
    ∧ (∃ s, ∃ (d : DieIx) (st : Fin 2), (s.pwr.stage = 2 ∨ s.pwr.stage = 3) ∧ (pwrDieOf s d.val).state = 0
      ∧ (pwrDieOf s d.val).off = false
      ∧ (if st.val = 0 then (dieOf s d.val).trained0 else (dieOf s d.val).trained1) = false
      ∧ (s.pwr.inhibit = false ∨ pendingRepairs s d.val st.val = []))
    ∧ (∃ s, ∃ (d : DieIx) (st : Fin 2), comingOn (pwrDieOf s d.val) = true
      ∧ (if st.val = 0 then (dieOf s d.val).trained0 else (dieOf s d.val).trained1) = false
      ∧ (s.pwr.inhibit = false ∨ pendingRepairs s d.val st.val = []))
    ∧ (∃ s, ∃ (d : DieIx) (st : Fin 2), s.pwr.inhibit = true ∧ pendingRepairs s d.val st.val ≠ [])
    ∧ (∃ s, ∃ d : DieIx, (dieOf s d.val).maintHeld = true ∧ (pwrDieOf s d.val).state = 0 ∧ s.pwr.stage = 5
      ∧ (s.pwr.inhibit = false ∨ (pendingRepairs s d.val 0 = [] ∧ pendingRepairs s d.val 1 = [])))
    ∧ (∃ s, ∃ d : DieIx, (dieOf s d.val).maintHeld = true ∧ comingOn (pwrDieOf s d.val) = true
      ∧ (dieOf s d.val).trained0 = true ∧ (dieOf s d.val).trained1 = true
      ∧ (s.pwr.inhibit = false ∨ (pendingRepairs s d.val 0 = [] ∧ pendingRepairs s d.val 1 = [])))
    ∧ (∃ s d, comingOn (pwrDieOf s d) = true ∧ (dieOf s d).tested = true ∧ (dieOf s d).trained0 = true
      ∧ (dieOf s d).trained1 = true ∧ (dieOf s d).maintHeld = false ∧ (pwrDieOf s d).held = false)
    ∧ (∃ s d, comingOn (pwrDieOf s d) = true ∧ (dieOf s d).maintHeld = true) :=
  ⟨⟨retrained 131072, 7, ⟨63, true, [], []⟩, by decide +kernel⟩, ⟨ready, 7, ⟨63, false, [(1, 35)], []⟩, 1, 35, by decide +kernel⟩,
   ⟨retrained 131071, 7, ⟨63, true, [], []⟩, 0, by decide +kernel⟩,
   ⟨bringing 3, 7, 1, by decide +kernel⟩, ⟨coming false false, 7, 1, by decide +kernel⟩,
   ⟨rowListed (bringing 3) true, 7, 1, by decide +kernel⟩, ⟨maintained, 7, by decide +kernel⟩,
   ⟨coming true true, 7, by decide +kernel⟩, ⟨coming false true, 7, by decide +kernel⟩, ⟨coming true true, 7, by decide +kernel⟩⟩

/-! ### Witnesses: errors, flash, power, bring-up -/

def errAt (cfg : W32) (owed : Nat) : State :=
  { ready with
    err := { ready.err with cfg := cfg, irqOwed := owed, held := [eventRec ready evHoldover 0 false none 0 0 0 0] }
    hq := { ready.hq with msixMasked := [(2047, false)] }
    time := { ready.time with now := 1024 } }
def written : State := { ready with flash := { ready.flash with queue := [.clearLog] } }
def inhibited : State := { ready with pwr := { ready.pwr with running := true, inhibit := true } }
def running : State := { ready with pwr := { ready.pwr with running := true } }
def offDie (x : PwrDie) : State := setPwrDie (setPart running 0 Partition.dflt) 7 x
/-- A module in bring-up whose dies have passed the tests so far. -/
def testing (x : PwrDie) : State :=
  { ready with
    pwr := { ready.pwr with
      running := true, stage := 4
      dies := (List.range 8).map (fun d => (d, x)) } }

def hot (z : Nat) (t : Int) : EpochReadings := ⟨List.replicate z none ++ [some (.celsius t)], 60000, 0, 0, []⟩

/-- The module whose input was last low at tick 0, at tick `n`, with the clamp and the inhibit as given. -/
def sagged (n : Nat) (clamp : Bool) (since? : Option Tick) : State :=
  { ready with
    pwr := { ready.pwr with running := true, clamp := clamp, inhibit := true, sagSince := since?, lowAt := 0 }
    time := { ready.time with now := BitVec.ofNat 40 n } }

theorem witness_PowerOnCountsAsASag :
    (∃ (s : State) (mv : Nat), 40000 ≤ mv ∧ mv ≤ 60000 ∧ (s.pwr.running = true ∨ s.pwr.presN = false))
    ∧ (∃ s : State, s.pwr.running = true ∧ s.pwr.clamp = true ∧ HeldFor s 1049)
    ∧ (∃ s : State, s.pwr.clamp = true ∧ ¬ HeldFor s 1049)
    ∧ (∃ s : State, s.pwr.running = true ∧ s.pwr.inhibit = true ∧ s.pwr.clamp = false ∧ HeldFor s 104858
      ∧ s.pwr.sagSince = none)
    ∧ (∃ (s : State) (x : Tick), s.pwr.running = true ∧ s.pwr.inhibit = true ∧ s.pwr.clamp = false ∧ HeldFor s 104858
      ∧ s.pwr.sagSince = some x)
    ∧ (∃ s : State, s.pwr.clamp = true ∧ HeldFor s 104858)
    ∧ (∃ s : State, s.pwr.clamp = false ∧ ¬ HeldFor s 104858) := by
  unfold HeldFor
  exact ⟨⟨running, 40000, by decide +kernel⟩, ⟨sagged 1049 true none, by decide +kernel⟩,
   ⟨sagged 1048 true none, by decide +kernel⟩, ⟨sagged 104858 false none, by decide +kernel⟩,
   ⟨sagged 104858 false (some 0), 0, by decide +kernel⟩, ⟨sagged 104858 true none, by decide +kernel⟩,
   ⟨sagged 104857 false none, by decide +kernel⟩⟩

/-- A module that a shutdown has taken down, with its last cause. -/
def downBy (cause : Byte) : State :=
  { ready with pwr := { ready.pwr with running := false, stage := 0, lastCause := cause, presN := true } }

theorem witness_ResetsAndShutdowns :
    (∃ (s : State) (x : PowerReturn) (mv : Nat), 40000 ≤ mv ∧ mv ≤ 60000 ∧ x = .applied mv ∧ s.pwr.running = true
      ∧ (∀ d < 8, quarantined s d = []) ∧ (s.flash.queue = [] ∨ s.pwr.inhibit = true))
    ∧ (∃ (s : State) (x : PowerReturn) (mv : Nat), 40000 ≤ mv ∧ mv ≤ 60000 ∧ (∃ ms dipped, x = .restored mv ms dipped
        ∧ s.pwr.running = false ∧ s.pwr.presN = true ∧ 44000 ≤ mv ∧ 100 ≤ ms ∧ s.pwr.lastCause = 0 ∧ dipped = false)
      ∧ (s.flash.queue = [] ∨ s.pwr.inhibit = true))
    ∧ (∃ (s : State) (x : PowerReturn) (mv : Nat), 40000 ≤ mv ∧ mv ≤ 60000 ∧ (∃ ms dipped, x = .restored mv ms dipped
        ∧ s.pwr.running = false ∧ s.pwr.presN = true ∧ 44000 ≤ mv ∧ 100 ≤ ms ∧ s.pwr.lastCause ≠ 0 ∧ dipped = true)
      ∧ (s.flash.queue = [] ∨ s.pwr.inhibit = true))
    ∧ (∃ mv, mv < 40000) ∧ (∃ mv ms : Nat, mv ≤ 60000 ∧ mv < 44000 ∧ 100 ≤ ms) ∧ (∃ mv ms : Nat, 44000 ≤ mv ∧ mv ≤ 60000 ∧ ms < 100)
    ∧ (∃ s : State, s.pwr.lastCause ≠ 0) ∧ (∃ s, inService s = true ∧ (∀ d < 8, quarantined s d = []))
    ∧ (∃ s, hostUp s = true ∧ s.hq.rings = [] ∧ s.cmds = [])
    ∧ (∃ (s : State) (x : ShutdownCause), s.pwr.running = true ∧ x.cause ≠ 0)
    ∧ (∃ (s : State) (x : ShutdownCause), s.pwr.running = true ∧ x.cause = 0 ∧ x.inputMv < 38000)
    ∧ (∃ x : ShutdownCause, x.cause = 0 ∧ 38000 ≤ x.inputMv)
    ∧ (∃ s : State, s.pwr.running = true ∧ s.pwr.stage ≠ 0) ∧ (∃ s : State, s.pwr.running = false)
    ∧ (∃ s : State, s.pwr.running = true ∧ s.pwr.stage = 0) :=
  ⟨⟨running, .applied 60000, 60000, by decide +kernel⟩,
   ⟨downBy 0, .restored 44000 100 false, 44000, by decide, by decide, ⟨100, false, by decide +kernel⟩, by decide +kernel⟩,
   ⟨downBy 2, .restored 60000 100 true, 60000, by decide, by decide, ⟨100, true, by decide +kernel⟩, by decide +kernel⟩,
   ⟨39999, by decide⟩, ⟨43999, 100, by decide⟩, ⟨44000, 99, by decide⟩, ⟨downBy 1, by decide +kernel⟩,
   ⟨running, by decide +kernel⟩, ⟨running, by decide +kernel⟩, ⟨running, ⟨2, 60000⟩, by decide +kernel⟩,
   ⟨running, ⟨0, 37999⟩, by decide +kernel⟩, ⟨⟨0, 38000⟩, by decide⟩, ⟨running, by decide +kernel⟩, ⟨downBy 0, rfl⟩,
   ⟨bringing 0, by decide +kernel⟩⟩

/-- The module in bring-up, at `n` ticks after its rails came up, while hard repairs of die 7 have taken 5 ticks. -/
def railed (n : Nat) : State :=
  { setPwrDie (bringing 3) 7 { PwrDie.dflt with repairTicks := 5 } with time := { ready.time with now := BitVec.ofNat 40 n } }
def retesting (s : State) : State := { s with pwr := { s.pwr with retesting := true } }

theorem witness_BringUpRowsComplete :
    (∃ s : State, s.pwr.running = true ∧ s.pwr.stage = 0 ∧ s.pwr.spiEnN = true ∧ ∃ b, baseboardOk b = true)
    ∧ (∃ s : State, s.pwr.running = true ∧ s.pwr.stage = 1 ∧ (∀ d < 8, goingOff (pwrDieOf s d) = false))
    ∧ (∃ s : State, s.pwr.running = true ∧ s.pwr.stage = 2)
    ∧ (∀ b, ∃ s, ∃ d : DieIx, s.pwr.stage = 3 ∧ (dieOf s d.val).tested = false ∧ (pwrDieOf s d.val).state = 0
      ∧ (pwrDieOf s d.val).off = false ∧ s.pwr.retesting = b)
    ∧ (∃ s, ∃ d : DieIx, comingOn (pwrDieOf s d.val) = true ∧ (dieOf s d.val).tested = false)
    ∧ (∃ s, ∃ d : DieIx, (s.pwr.stage = 3 ∨ s.pwr.stage = 4) ∧ (List.range 8).all (testedDie s) = true
      ∧ (pwrDieOf s d.val).off = false ∧ (pwrDieOf s d.val).state = 0 ∧ usableClusters s d.val ≠ 0)
    ∧ (∃ s, ∃ d : DieIx, bringingUp s = true ∧ (pwrDieOf s d.val).off = false ∧ (pwrDieOf s d.val).state = 0
      ∧ 4194304 + (pwrDieOf s d.val).repairTicks ≤ since s.time.now s.pwr.railsAt)
    ∧ (∃ s, ∃ d : DieIx, bringingUp s = true ∧ (pwrDieOf s d.val).off = false ∧ (pwrDieOf s d.val).state = 0
      ∧ since s.time.now s.pwr.railsAt < 4194304 + (pwrDieOf s d.val).repairTicks)
    ∧ (∃ s, inService s = true)
    ∧ (∀ b, ∃ s, (s.pwr.stage = 3 ∨ s.pwr.stage = 4) ∧ Settled s ∧ (∃ d < 8, (pwrDieOf s d).state = 1)
      ∧ s.pwr.retesting = b)
    ∧ (∃ s, (s.pwr.stage = 3 ∨ s.pwr.stage = 4) ∧ Settled s ∧ (∀ d < 8, (pwrDieOf s d).state ≠ 1)) := by
  unfold Settled
  refine ⟨⟨bringing 0, rfl, rfl, rfl, List.replicate 16 0, by decide +kernel⟩, ⟨bringing 1, by decide +kernel⟩,
    ⟨bringing 2, by decide +kernel⟩, fun b => ?_,
    ⟨modDie (coming false true) 7 (fun b => { b with tested := false }), 7, by decide +kernel⟩,
    ⟨testing PwrDie.dflt, 7, by decide +kernel⟩, ⟨railed 4194309, 7, by decide +kernel⟩,
    ⟨railed 4194308, 7, by decide +kernel⟩, ⟨running, by decide +kernel⟩, fun b => ?_,
    ⟨testing { PwrDie.dflt with state := 3 }, by decide +kernel⟩⟩
  · cases b
    · exact ⟨bringing 3, 7, by decide +kernel⟩
    · exact ⟨retesting (bringing 3), 7, by decide +kernel⟩
  · cases b
    · exact ⟨testing { PwrDie.dflt with state := 1 }, by decide +kernel⟩
    · exact ⟨retesting (testing { PwrDie.dflt with state := 1 }), by decide +kernel⟩

theorem witness_DiesGoOffAndOn :
    (∀ st ∈ [0, 1, 2, 3], ∃ s, ∃ d : DieIx, hostUp s = true ∧ partOfDie s d.val = none ∧ (pwrDieOf s d.val).off = false
      ∧ (pwrDieOf s d.val).state = st)
    ∧ (∃ s, ∃ d : DieIx, ∃ p, hostUp s = true ∧ partOfDie s d.val = some p)
    ∧ (∀ st ∈ [0, 1, 2, 3], ∃ s, ∃ d : DieIx, hostUp s = true ∧ (pwrDieOf s d.val).off = true
      ∧ (pwrDieOf s d.val).state = st)
    ∧ (∃ s d, (pwrDieOf s d).state = 2 ∧ (pwrDieOf s d).off = true ∧ (pwrDieOf s d).held = false)
    ∧ (∃ s d, goingOff (pwrDieOf s d) = false) := by
  have h : ∀ off, ∀ st ∈ [0, 1, 2, 3], hostUp (offDie { PwrDie.dflt with state := st, off := off }) = true
      ∧ partOfDie (offDie { PwrDie.dflt with state := st, off := off }) 7 = none
      ∧ (pwrDieOf (offDie { PwrDie.dflt with state := st, off := off }) 7).off = off
      ∧ (pwrDieOf (offDie { PwrDie.dflt with state := st, off := off }) 7).state = st := by decide +kernel
  exact ⟨fun st hs => ⟨_, 7, h false st hs⟩, ⟨running, 7, 0, by decide +kernel⟩,
    fun st hs => ⟨_, 7, (h true st hs).1, (h true st hs).2.2⟩,
    ⟨offDie { PwrDie.dflt with state := 2, off := true }, 7, by decide +kernel⟩, ⟨running, 7, by decide +kernel⟩⟩

theorem witness_GovernorRowsComplete :
    (∃ (s : State) (x : SagSamples), s.pwr.running = true ∧ x.latestMv < 42000)
    ∧ (∃ x : SagSamples, 42000 ≤ x.latestMv) ∧ (∃ s : State, s.pwr.running = true)
    ∧ (∃ (s : State) (r : EpochReadings), r.inputMv ≤ 60000 ∧ s.pwr.running = true ∧ AtTick s 10 s.pwr.epochBegan)
    ∧ (∃ (s : State) (r : EpochReadings), r.inputMv ≤ 60000 ∧ ¬ AtTick s 10 s.pwr.epochBegan) :=
  ⟨⟨running, ⟨41000, 41999⟩, by decide +kernel⟩, ⟨⟨41000, 42000⟩, by decide⟩, ⟨running, rfl⟩,
   ⟨atTick running 1024, hot 0 0, by unfold AtTick; decide +kernel⟩,
   ⟨atTick running 1025, hot 0 0, by unfold AtTick; decide +kernel⟩⟩

/-- The module at a boundary when zone 29 has read 110 °C `n` times in a row. -/
def hotAt (n : Nat) : State := setZone (atTick running (BitVec.ofNat 40 (1024 * (n + 1)))) 29 ⟨110, 110, n != 0, n != 0, n⟩

theorem witness_ThreeHotReadingsShutDown :
    (∃ (r : EpochReadings) (z c : Nat) (t : Int), shutdownC z = some c ∧ r.zones[z]? = some (some (.celsius t)))
    ∧ (∃ (s s' : State) (r : EpochReadings) (z c : Nat) (t : Int), s.pwr.running = true ∧ AtTick s 10 s.pwr.epochBegan
      ∧ shutdownC z = some c ∧ r.zones[z]? = some (some (.celsius t)) ∧ (c : Int) ≤ t ∧ 2 ≤ (zoneOf s z).hotReads
      ∧ exec (.governorEpoch r) s = .next s')
    ∧ (∃ (s s1 u1 s2 u2 s3 : State) (r : EpochReadings) (z c : Nat) (t : Int), s.pwr.running = true
      ∧ s1.pwr.running = true ∧ s2.pwr.running = true ∧ u1.pwr.running = true ∧ u2.pwr.running = true
      ∧ zoneOf u1 z = zoneOf s1 z ∧ zoneOf u2 z = zoneOf s2 z ∧ AtTick s 10 s.pwr.epochBegan
      ∧ AtTick u1 10 u1.pwr.epochBegan ∧ AtTick u2 10 u2.pwr.epochBegan ∧ shutdownC z = some c
      ∧ r.zones[z]? = some (some (.celsius t)) ∧ (c : Int) ≤ t ∧ exec (.governorEpoch r) s = .next s1
      ∧ exec (.governorEpoch r) u1 = .next s2 ∧ exec (.governorEpoch r) u2 = .next s3) := by
  have h (s : State) : exec (.governorEpoch (hot 29 110)) s = .next (nextOf s (.governorEpoch (hot 29 110))) := by
    simp [nextOf, exec, execGovernorEpoch, hot]
  exact ⟨⟨hot 29 110, 29, 110, 110, by decide +kernel⟩,
    ⟨setZone (atTick running 1024) 29 { zoneOf running 29 with hotReads := 2 }, _, hot 29 110, 29, 110, 110,
      by decide +kernel, by unfold AtTick; decide +kernel, by decide +kernel, by decide +kernel, by decide +kernel,
      by decide +kernel, h _⟩,
    ⟨hotAt 0, nextOf (hotAt 0) (.governorEpoch (hot 29 110)), hotAt 1, nextOf (hotAt 1) (.governorEpoch (hot 29 110)), hotAt 2,
      nextOf (hotAt 2) (.governorEpoch (hot 29 110)), hot 29 110, 29, 110, 110, by decide +kernel, by decide +kernel, by decide +kernel,
      by decide +kernel, by decide +kernel, by decide +kernel, by decide +kernel, by unfold AtTick; decide +kernel, by unfold AtTick; decide +kernel,
      by unfold AtTick; decide +kernel, by decide +kernel, by decide +kernel, by decide +kernel, h (hotAt 0), h (hotAt 1), h (hotAt 2)⟩⟩

theorem witness_ShelfRowsComplete :
    (∃ s, controllerOn s = true) ∧ (∃ s, controllerOn s = false)
    ∧ (∃ s : State, s.pwr.running = false ∧ s.pwr.presN = true ∧ (s.pwr.lastCause = 1 ∨ s.pwr.lastCause = 2))
    ∧ (∃ s : State, s.pwr.running = true) ∧ (∃ s w, controllerOn s = true ∧ 1200 ≤ w ∧ w ≤ 2000)
    ∧ (∃ w, w ≠ 0 ∧ (w < 1200 ∨ 2000 < w))
    ∧ (∃ s, ∃ sel : BitVec 16, controllerOn s = true ∧ fieldN sel 0 2 ≠ 3 ∧ bit sel 15 = false) ∧ (∃ s, hostUp s = true) :=
  ⟨⟨running, by decide +kernel⟩, ⟨{ running with pwr := { running.pwr with running := false } }, by decide +kernel⟩,
   ⟨{ running with pwr := { running.pwr with running := false, lastCause := 2, presN := true } }, by decide +kernel⟩,
   ⟨running, rfl⟩, ⟨running, 2000, by decide +kernel⟩, ⟨2001, by decide⟩, ⟨running, 0x7FFE, by decide +kernel⟩,
   ⟨running, by decide +kernel⟩⟩

theorem witness_ErrorRingRowsComplete :
    (∃ s, hostUp s = true ∧ isMember s = false ∧ errEnabled s = false)
    ∧ (∃ s, hostUp s = true ∧ isMember s = false)
    ∧ (∃ s, errEnabled s = true ∧ isMember s = false ∧ (s.err.held ≠ [] ∨ s.err.summary ≠ none))
    ∧ (∃ s : State, AtTick s s.err.coalLog2 s.err.coalBegan) ∧ (∃ s : State, AtTick s (fieldN s.err.cfg 8 5) s.err.coalBegan)
    ∧ (∃ s : State, ¬ AtTick s s.err.coalLog2 s.err.coalBegan ∧ ¬ AtTick s (fieldN s.err.cfg 8 5) s.err.coalBegan)
    ∧ (∃ s, errEnabled s = true ∧ bit s.err.cfg 27 = true ∧ s.err.irqOwed ≠ 0
      ∧ (∀ t, s.err.irqLast = some t → 1024 ≤ since s.time.now t)
      ∧ smGet true s.hq.msixMasked (fieldN s.err.cfg 16 11) = false) :=
  ⟨⟨ready, by decide +kernel⟩, ⟨ready, by decide +kernel⟩, ⟨errAt 1 0, by decide +kernel⟩,
   ⟨boundary, by unfold AtTick; decide +kernel⟩, ⟨boundary, by unfold AtTick; decide +kernel⟩,
   ⟨ready, by unfold AtTick; decide +kernel⟩,
   ⟨{ errAt 0xFFF0001 1 with err := { (errAt 0xFFF0001 1).err with irqLast := some 0 } }, by decide +kernel,
      by decide +kernel, by decide +kernel, fun t h => by cases h; decide +kernel, by decide +kernel⟩⟩

theorem witness_FlashRowsComplete :
    (∃ s : State, ∃ w ws, s.flash.queue = w :: ws ∧ s.pwr.inhibit = false ∧ s.pwr.running = true ∧ s.pwr.spiEnN = true)
    ∧ (∃ s : State, s.pwr.inhibit = true) ∧ (∃ s : State, s.pwr.running = false) ∧ (∃ s : State, s.pwr.spiEnN = false)
    ∧ (∃ s, hostUp s = true ∧ isMember s = false) :=
  ⟨⟨written, .clearLog, [], rfl, by decide +kernel⟩, ⟨inhibited, rfl⟩, ⟨downBy 0, rfl⟩,
   ⟨{ written with pwr := { written.pwr with spiEnN := false } }, rfl⟩, ⟨ready, by decide +kernel⟩⟩

/-! ### Witnesses: the timeline -/

theorem witness_TicksCompareByHalfRange :
    (∃ v now : Tick, validTick v now = true ∧ later now v = true) ∧ (∃ n : Nat, n ≤ 2 ^ 38) :=
  ⟨⟨0, 2 ^ 38, by decide +kernel⟩, 2 ^ 38, le_refl _⟩

def timeAt (cfg : W32) : State :=
  { ready with time := { ready.time with cfg := cfg, now := 4194304, sampled := true } }
def masterAt : State := setPort (timeAt (1 <<< 20)) 15 { portOf ready 15 with stage := .active }

/-- A module that has heard two pulses, one in each of the last two periods of 2^20 ticks. -/
def pulsed : State := { timeAt 5 with time := { (timeAt 5).time with pps := [2097153, 3145729] } }

/-- PPS_OK needs an edge in each of the last two seconds (R421). -/
theorem test_pps_ok : ppsOk pulsed = true
    ∧ ppsOk { pulsed with time := { pulsed.time with pps := [3145729, 4194303] } } = false
    ∧ ppsOk { pulsed with time := { pulsed.time with pps := [2097152, 3145729] } } = false := by decide +kernel

/-- The offset that decides lock, slew and step is exact: 16 and 1/2 ticks loses the lock, 16 keeps it; 16,383 and 1/2 ticks behind is
slewed, by the whole ticks of it, and 16,384 is stepped (R419, R421). -/
theorem test_fractional_offsets :
    let after (num : Int) := (sample { timeAt 0x25 with time := { (timeAt 0x25).time with goodSamples := 8, locked := true } } num 2 0).time
    ((after 32).locked, (after 33).locked, (after (-32)).locked, (after (-33)).locked) = (true, false, true, false)
      ∧ ((after (-32767)).slew, (after (-32767)).now) = (16383, 4194304)
      ∧ ((after (-32768)).slew, (after (-32768)).now) = (0, 4194304 + 16384) := by decide +kernel

theorem witness_TimelineRowsComplete :
    (∃ s : State, s.pending = [])
    ∧ (∃ s : State, isMember s = false ∧ s.glb.rcfgWaits = false ∧ (∀ d < 8, goingOff (pwrDieOf s d) = false)
      ∧ s.pwr.stage ≠ 1 ∧ s.time.slew = 0)
    ∧ (∃ s, ppsEn s = false) ∧ (∃ s, ppsEn s = true ∧ timeSource s ≠ 0) ∧ (∃ s, ppsEn s = true ∧ timeSource s = 0)
    ∧ (∃ (s : State) (num : Int) (den : Nat), 0 < den ∧ s.time.sampled = true ∧ -16 * (den : Int) ≤ num
      ∧ num ≤ 16 * (den : Int))
    ∧ (∃ (s : State) (num : Int) (den : Nat), 0 < den ∧ s.time.sampled = true ∧ num < -16 * (den : Int)
      ∧ -16384 * (den : Int) < num)
    ∧ (∃ (s : State) (num : Int) (den : Nat), s.time.sampled = true ∧ num ≤ -16384 * (den : Int) ∧ 0 < den
      ∧ bit s.time.cfg 5 = true)
    ∧ (∃ s : State, s.time.pps ≠ [] ∧ ∀ t ∈ s.time.pps, 1048576 ≤ since s.time.now t)
    ∧ (∃ s : State, s.time.holdover = false ∧ 4194304 ≤ since s.time.now s.time.lastSample)
    ∧ (∃ s, ∃ len : BitVec 7, hostUp s = true ∧ isMember s = false ∧ 34 ≤ len.toNat ∧ len.toNat ≤ 64 ∧ timeSource s = 1)
    ∧ (∃ s, ∃ len : BitVec 7, hostUp s = true ∧ isMember s = false ∧ (len.toNat < 34 ∨ 64 < len.toNat))
    ∧ (∃ s, ∃ p : PortIx, masterPort s p.val = true ∧ sendDue s 16 (portOf s p.val).syncAt = true)
    ∧ (∃ s, ∃ p : PortIx, masterPort s p.val = true ∧ sendDue s 20 (portOf s p.val).announceAt = true) :=
  ⟨⟨ready, rfl⟩, ⟨ready, by decide +kernel⟩, ⟨ready, by decide +kernel⟩, ⟨timeAt 5, by decide +kernel⟩,
   ⟨timeAt 4, by decide +kernel⟩, ⟨timeAt 1, 32, 2, by decide +kernel⟩, ⟨timeAt 1, -32767, 2, by decide +kernel⟩,
   ⟨timeAt 0x21, -32768, 2, by decide +kernel⟩,
   ⟨{ pulsed with time := { pulsed.time with pps := [3145728] } }, List.cons_ne_nil _ _,
     fun t h => by rw [List.mem_singleton.mp h]; decide +kernel⟩,
   ⟨timeAt 1, by decide +kernel⟩, ⟨timeAt 1, 64, by decide +kernel⟩,
   ⟨timeAt 1, 65, by decide +kernel⟩, ⟨masterAt, 15, by decide +kernel⟩, ⟨masterAt, 15, by decide +kernel⟩⟩

/-! ### Witnesses: Zweve -/

/-- The module at tick 2^20 with its last port as given. -/
def portAt (q : Port) : State := { setPort ready 15 q with time := { ready.time with now := 1048576 } }
def activePort : Port := { Port.dflt with stage := .active }

/-- NEG data of module 9, with 255 credits a pool. -/
def goodNeg : BitVec 512 :=
  BitVec.ofNat 512 (1 + 9 * 2 ^ 16 + 15 * 2 ^ 32 + ((List.range 8).map (fun i => 255 * 2 ^ (64 + 16 * i))).sum)

/-- The module without a cable at its last port. -/
def uncabled (q : Port) : State := { portAt q with pwr := { ready.pwr with cables := 0x7FFF } }

theorem witness_PortTrainingRowsComplete :
    (∃ s, ∃ p : PortIx, cableSeated s p.val = true ∧ (portOf s p.val).stage = .detect ∧ portPowered s p.val = true
      ∧ (portOf s p.val).retraining = false)
    ∧ (∃ s, ∃ p : PortIx, (portOf s p.val).retraining = false ∧ (portOf s p.val).stage ≠ .detect)
    ∧ (∃ s p, (portOf s p).stage = .off ∧ (portOf s p).enable = true ∧ cableSeated s p = false ∧ portPowered s p = true
      ∧ p < 16)
    ∧ (∃ s, ∃ p : PortIx, (portOf s p.val).stage = .train)
    ∧ (∃ s, ∃ p : PortIx, ∃ x, (portOf s p.val).stage = .negotiate ∧ negOk s x = true
      ∧ (portOf s p.val).retraining = false ∧ negWidth (portOf s p.val) ((portOf s p.val).lanes &&& field x 32 4) ≠ 0)
    ∧ (∃ s, ∃ p : PortIx, ∃ x, (portOf s p.val).stage = .negotiate ∧ negOk s x = true
      ∧ (portOf s p.val).retraining = false ∧ negWidth (portOf s p.val) ((portOf s p.val).lanes &&& field x 32 4) = 0)
    ∧ (∃ s, ∃ p : PortIx, ∃ x, (portOf s p.val).stage = .negotiate ∧ negOk s x = false)
    ∧ (∃ s, ∃ p : PortIx, (portOf s p.val).stage = .train
      ∧ (portOf s p.val).retraining = false ∧ 524288 ≤ since s.time.now (portOf s p.val).stageStart)
    ∧ (∃ s, ∃ p : PortIx, (portOf s p.val).stage = .detect ∧ 0 < (portOf s p.val).retries
      ∧ (portOf s p.val).retraining = false ∧ 524288 ≤ since s.time.now (portOf s p.val).stageStart)
    ∧ (∀ b, ∃ s p, (portOf s p).retries < 3 ∧ (portOf s p).retraining = false ∧ cableSeated s p = b)
    ∧ (∃ s p, 3 ≤ (portOf s p).retries ∧ (portOf s p).retraining = false)
    ∧ (∃ s, ∃ p : PortIx, (portOf s p.val).stage = .down ∧ (portOf s p.val).enable = true ∧ portPowered s p.val = true
      ∧ cableSeated s p.val = true ∧ 1048576 ≤ since s.time.now (portOf s p.val).stageStart)
    ∧ (∃ s, ∃ p : PortIx, (portOf s p.val).stage = .active ∨ (portOf s p.val).stage = .draining)
    ∧ (∃ s, ∃ p : PortIx, (portOf s p.val).retraining = true
      ∧ 524288 ≤ since s.time.now (portOf s p.val).stageStart) := by
  refine ⟨⟨portAt { Port.dflt with stage := .detect }, 15, ?_⟩, ⟨portAt activePort, 15, ?_⟩,
   ⟨uncabled Port.dflt, 15, ?_⟩, ⟨portAt { Port.dflt with stage := .train }, 15, ?_⟩,
   ⟨portAt { Port.dflt with stage := .negotiate, lanes := 15 }, 15, goodNeg, ?_⟩,
   ⟨portAt { Port.dflt with stage := .negotiate, lanes := 0 }, 15, goodNeg, ?_⟩,
   ⟨portAt { Port.dflt with stage := .negotiate }, 15, 0, ?_⟩,
   ⟨portAt { Port.dflt with stage := .train, stageStart := 524288 }, 15, ?_⟩,
   ⟨portAt { Port.dflt with stage := .detect, retries := 1, stageStart := 524288 }, 15, ?_⟩,
   fun b => ?_, ⟨portAt { Port.dflt with retries := 3 }, 15, ?_⟩, ⟨portAt { Port.dflt with stage := .down }, 15, ?_⟩,
   ⟨portAt activePort, 15, ?_⟩, ⟨portAt { activePort with retraining := true }, 15, ?_⟩⟩
  case _ : ∃ s p, _ =>
    cases b
    · exact ⟨uncabled { Port.dflt with retries := 2 }, 15, by decide +kernel⟩
    · exact ⟨portAt { Port.dflt with retries := 2 }, 15, by decide +kernel⟩
  all_goals decide +kernel

/-- A packet of module 5 about 32 bytes behind a window for everybody. -/
def packetOf (type op : BitVec 4) : Packet :=
  { type := type, tc := 0, hops := 1, dst := 3, src := 5, tag := 0, len := 2, op := op, addr := 2147483648, key := 0
    status := 0, reserved := false, data := List.replicate 32 7, mask := 0xFF, stamp := 0, flow := 0 }

/-- A port that has received a flit. -/
def flitAt (f : BitVec 1024) : State := portAt { activePort with rxFlits := [(7, f)] }

/-- The coefficients of (x + 1)(x + α) … (x + α^15), a word with sixteen syndromes of 0 and a seventeenth that is not. -/
def badTail : List Sym := (fecGen 16).reverse
def badWord : BitVec 5440 :=
  BitVec.ofNat 5440 (((List.range 17).map (fun i => (badTail.getD i 0).toNat * 2 ^ (10 * (527 + i)))).sum)
theorem badWord_symbols : symbolsOf 544 badWord = List.replicate 527 0 ++ badTail := by decide +kernel
theorem zero_symbols : symbolsOf 544 (0 : BitVec 5440) = List.replicate 544 0 ++ [] := by decide +kernel
/-- The word of zeros is a codeword. -/
theorem decodes_zero : fecDecode 0 = some (0, 0) :=
  (Laws.fecDecode_good (by rw [zero_symbols, Laws.fecSyndromes_zeros]; decide +kernel)).trans (by decide +kernel)
/-- Its locator has seventeen roots to find, which is too many. -/
theorem decodes_bad : fecDecode badWord = none :=
  Laws.fecDecode_bad (by rw [badWord_symbols, Laws.fecSyndromes_zeros]; decide +kernel)
    (by rw [badWord_symbols, Laws.fecSyndromes_zeros]; decide +kernel)

theorem witness_PortTrafficRowsComplete :
    (∃ s, ∃ p : PortIx, ∃ w m n, (linkUp (portOf s p.val) = true ∨ (portOf s p.val).stage = .negotiate)
      ∧ fecDecode w = some (m, n))
    ∧ (∃ s, ∃ p : PortIx, ∃ w, (linkUp (portOf s p.val) = true ∨ (portOf s p.val).stage = .negotiate)
      ∧ fecDecode w = none)
    ∧ (∃ m j, markerLane m = some j) ∧ (∃ q : Port, linkUp q = true ∧ q.width = 1 ∧ q.rxLanes = [])
    ∧ (∃ s p lane, linkUp (portOf s p) = true ∧ smGet none (portOf s p).laneOrder lane = none
      ∧ (portOf s p).uncorrectedIn ≠ s.time.now.toNat / 1024)
    ∧ (∃ s, ∃ p : PortIx, ∃ t f rest, (portOf s p.val).rxFlits = (t, f) :: rest ∧ linkUp (portOf s p.val) = true
      ∧ flitCrc f ≠ field f 96 32)
    ∧ (∃ s, ∃ p : PortIx, ∃ t f rest, (portOf s p.val).rxFlits = (t, f) :: rest ∧ linkUp (portOf s p.val) = true
      ∧ flitCrc f = field f 96 32 ∧ bit f 25 = true)
    ∧ (∃ s, ∃ p : PortIx, ∃ t f rest, (portOf s p.val).rxFlits = (t, f) :: rest ∧ linkUp (portOf s p.val) = true
      ∧ flitCrc f = field f 96 32 ∧ bit f 25 = false ∧ field f 0 12 ≠ (portOf s p.val).rxSeq + 1)
    ∧ (∃ s, ∃ p : PortIx, ∃ t f rest, (portOf s p.val).rxFlits = (t, f) :: rest ∧ linkUp (portOf s p.val) = true
      ∧ flitCrc f = field f 96 32 ∧ bit f 25 = false ∧ field f 0 12 = (portOf s p.val).rxSeq + 1)
    ∧ (∃ s p t, (portOf s p).resync = true ∧ t = modPort s p (fun q =>
      putFlits { q with nakDue := false } [makeFlit 0 q.rxSeq q.nakDue true 0 []]) ∧ (portOf t p).resync = true)
    ∧ (∃ s p, (portOf s p).timesOut = [])
    ∧ (∃ s p x, (portOf s p).timesOut = [x] ∧ flitWaits (portOf s p) x.1 = true)
    ∧ (∃ s p x, (portOf s p).timesOut = [x] ∧ flitWaits (portOf s p) x.1 = false ∧ (portOf s p).retraining = false
      ∧ (portOf s p).resync = false) ∧ (∃ q : Port, ∃ a b c e, q.txFlits = [a, b, c, e])
    ∧ (∃ s, ∃ p : PortIx, SetupOpen s ∧ (portOf s p.val).stage = .active)
    ∧ (∃ s, ∃ p : PortIx, SetupOpen s ∧ (portOf s p.val).enable = false ∧ (portOf s p.val).stage = .draining)
    ∧ (∃ s, ∃ p : PortIx, SetupOpen s ∧ (portOf s p.val).enable = false ∧ (portOf s p.val).stage = .off
      ∧ (portOf s p.val).retraining = false ∧ portPowered s p.val = true ∧ cableSeated s p.val = true)
    ∧ (∃ s, ∃ p : PortIx, SetupOpen s ∧ (portOf s p.val).enable = false ∧ (portOf s p.val).stage = .off
      ∧ (portOf s p.val).retraining = false ∧ cableSeated s p.val = false)
    ∧ (∃ s, ∃ p : PortIx, SetupOpen s ∧ (portOf s p.val).stage = .detect ∧ (portOf s p.val).retraining = false
      ∧ (portOf s p.val).enable = true ∧ (portOf s p.val).enableHeld = false)
    ∧ (∃ s, ∃ p : PortIx, ∃ t, (portOf s p.val).quarUntil = some t ∧ reached s.time.now t = true)
    ∧ (∃ s, ∃ p : PortIx, AtTick s (nakWindow s) (portOf s p.val).nakBegan)
    ∧ (∃ s, ∃ p : PortIx, ¬ AtTick s (nakWindow s) (portOf s p.val).nakBegan) :=
  ⟨⟨portAt activePort, 15, 0, 0, 0, by decide +kernel, decodes_zero⟩,
   ⟨portAt activePort, 15, badWord, by decide +kernel, decodes_bad⟩,
   ⟨0xA0, 0, by decide +kernel⟩, ⟨{ activePort with width := 1 }, rfl, rfl, rfl⟩,
   ⟨portAt activePort, 15, 0, by decide +kernel⟩,
   ⟨flitAt 1, 15, 7, 1, [], by decide +kernel⟩,
   ⟨flitAt (makeFlit 0 0 false true 0 []), 15, 7, makeFlit 0 0 false true 0 [], [], by decide +kernel⟩,
   ⟨flitAt (makeFlit 0 0 false false 0 []), 15, 7, makeFlit 0 0 false false 0 [], [], by decide +kernel⟩,
   ⟨flitAt (makeFlit 1 0 false false 0 []), 15, 7, makeFlit 1 0 false false 0 [], [], by decide +kernel⟩,
   ⟨portAt { activePort with resync := true }, 15, _, by decide +kernel, rfl, by decide +kernel⟩,
   ⟨portAt activePort, 15, by decide +kernel⟩,
   ⟨portAt { activePort with timesOut := [(5, packetOf 0xA 6)], txFlits := [makeFlit 5 0 false false 0 []] }, 15,
      (5, packetOf 0xA 6), by decide +kernel⟩,
   ⟨portAt { activePort with timesOut := [(5, packetOf 0xA 6)], txFlits := [makeFlit 6 0 false false 0 []] }, 15,
      (5, packetOf 0xA 6), by decide +kernel⟩,
   ⟨{ activePort with txFlits := [1, 2, 3, 4] }, 1, 2, 3, 4, rfl⟩,
   ⟨portAt activePort, 15, by unfold SetupOpen; decide +kernel⟩,
   ⟨portAt { activePort with enable := false, stage := .draining }, 15, by unfold SetupOpen; decide +kernel⟩,
   ⟨portAt { Port.dflt with enable := false }, 15, by unfold SetupOpen; decide +kernel⟩,
   ⟨uncabled { Port.dflt with enable := false }, 15, by unfold SetupOpen; decide +kernel⟩,
   ⟨portAt { Port.dflt with stage := .detect }, 15, by unfold SetupOpen; decide +kernel⟩,
   ⟨portAt { activePort with quarUntil := some 1048576 }, 15, 1048576, by decide +kernel⟩,
   ⟨portAt activePort, 15, by unfold AtTick; decide +kernel⟩, ⟨ready, 15, by unfold AtTick; decide +kernel⟩⟩

theorem witness_ReplayHoldsUntilAcknowledged : ∃ s p, 1024 ≤ (portOf s p).replay.length :=
  ⟨portAt { activePort with replay := List.replicate 1024 (0, 0, none) }, 15, by decide +kernel⟩

def openWindow : State :=
  { portAt activePort with
    zw := { (portAt activePort).zw with
      windows := [(63, 0xF ||| (0xFFF#128 <<< 20) ||| (8192#128 <<< 64) ||| (1#128 <<< 84))]
      routes := [(3, 0x8000)] } }
def receivedAt (k : Packet) : State := portAt { activePort with rxPackets := [k] }

theorem served {α : Type} {r : Except HbmStop α × State} (h : (match r.1 with | .ok _ => true | .error _ => false) = true) :
    ∃ v t, r = (.ok v, t) := by
  obtain ⟨x, t⟩ := r
  cases x with
  | ok v => exact ⟨v, t, rfl⟩
  | error e => cases h

theorem witness_PacketRowsComplete :
    (∀ type ∈ [1, 2, 3, 4, 8, 9], ∃ s, ∃ p : PortIx, ∃ k u, takePacket s p.val (fun k => k.type == type) = some (k, u))
    ∧ (∀ kind ∈ [1, 2, 3, 4, 5, 6], ∃ s, ∃ p : PortIx, ∃ k u, takePacket s p.val (isMsg kind) = some (k, u))
    ∧ (∃ k : Packet, k.hops = 0)
    ∧ (∃ s, ∃ k : Packet, ∃ o, k.hops ≠ 0 ∧ routePort s k.dst.toNat k.tc.toNat (k.tag.toNat / 8192) = some o)
    ∧ (∃ s k n bs t, lenBytes k.len = some n ∧ requestRefused s .rd k.src.toNat k.key (packetAddr k) n = none
      ∧ reqRead (sectorSpans (packetAddr k) n) s = (.ok bs, t))
    ∧ (∃ s k t, requestRefused s .wr k.src.toNat k.key (packetAddr k) k.data.length = none
      ∧ reqWrite (sectorSpans (packetAddr k) k.data.length) k.data (BitVec.allOnes 256) (packetTouch k k.data.length s)
        = (.ok (), t))
    ∧ (∃ s k t, requestRefused s .wr k.src.toNat k.key (packetAddr k) k.data.length = none
      ∧ reqWrite (sectorSpans (packetAddr k) k.data.length) k.data (k.mask.zeroExtend 256) (packetTouch k k.data.length s)
        = (.ok (), t))
    ∧ (∃ s, allCmds s ≠ [] ∧ ∀ c ∈ allCmds s, liveCollective c = false)
    ∧ (∃ s k old t, requestRefused s .atom k.src.toNat k.key (packetAddr k) 8 = none
      ∧ atomicLocal (packetTouch k 8 s) none (packetAddr k) (atomicOf k.op) (bytesToBv 64 (k.data.take 8))
        (bytesToBv 64 ((k.data.drop 8).take 8)) = (.ok old, t))
    ∧ (∃ s k w, requestRefused s .rd k.src.toNat k.key (packetAddr k) ((lenBytes k.len).getD 0) = some (.window w)) := by
  refine ⟨?_, ?_, ⟨{ packetOf 1 0 with hops := 0 }, rfl⟩, ⟨openWindow, packetOf 1 0, 15, by decide +kernel⟩, ?_, ?_, ?_,
    ⟨withCmds [{ cmdOf 0x38 with phase := .issued }], by decide +kernel⟩, ?_,
    ⟨ready, packetOf 1 0, 17179869184, by decide +kernel⟩⟩
  · intro type h
    have h' : ∀ t ∈ [1, 2, 3, 4, 8, 9], (takePacket (receivedAt (packetOf t 0)) 15 (fun k => k.type == t)).isSome = true := by
      decide +kernel
    obtain ⟨⟨k, u⟩, hk⟩ := some_of (h' type h)
    exact ⟨_, 15, k, u, hk⟩
  · intro kind h
    have h' : ∀ t ∈ [1, 2, 3, 4, 5, 6], (takePacket (receivedAt (packetOf 0xA t)) 15 (isMsg t)).isSome = true := by
      decide +kernel
    obtain ⟨⟨k, u⟩, hk⟩ := some_of (h' kind h)
    exact ⟨_, 15, k, u, hk⟩
  · obtain ⟨bs, t, h⟩ := served (r := reqRead (sectorSpans (packetAddr (packetOf 1 0)) 32) openWindow) (by decide +kernel)
    exact ⟨openWindow, packetOf 1 0, 32, bs, t, by decide +kernel, by decide +kernel, h⟩
  · obtain ⟨⟨⟩, t, h⟩ := served (r := reqWrite (sectorSpans (packetAddr (packetOf 2 0)) (packetOf 2 0).data.length)
      (packetOf 2 0).data (BitVec.allOnes 256) (packetTouch (packetOf 2 0) (packetOf 2 0).data.length openWindow)) (by decide +kernel)
    exact ⟨openWindow, packetOf 2 0, t, by decide +kernel, h⟩
  · obtain ⟨⟨⟩, t, h⟩ := served (r := reqWrite (sectorSpans (packetAddr (packetOf 3 0)) (packetOf 3 0).data.length)
      (packetOf 3 0).data ((packetOf 3 0).mask.zeroExtend 256)
        (packetTouch (packetOf 3 0) (packetOf 3 0).data.length openWindow)) (by decide +kernel)
    exact ⟨openWindow, packetOf 3 0, t, by decide +kernel, h⟩
  · obtain ⟨old, t, h⟩ := served (r := atomicLocal (packetTouch (packetOf 4 0) 8 openWindow) none
        (packetAddr (packetOf 4 0)) (atomicOf (packetOf 4 0).op)
      (bytesToBv 64 ((packetOf 4 0).data.take 8)) (bytesToBv 64 (((packetOf 4 0).data.drop 8).take 8))) (by decide +kernel)
    exact ⟨openWindow, packetOf 4 0, old, t, by decide +kernel, h⟩

/-- A request of die 7 with the last tag, sent at tick 0. -/
def requestOf (kind : ReqKind) (late : Bool) : Request :=
  ⟨7, 8191, some 1, kind, 3, 1, 0, 32, 0, late, 15⟩
def askedAt (r : Request) : State :=
  { portAt activePort with
    zw := { (portAt activePort).zw with requests := [r], linkCfg := 5 <<< 4, members := [(63, { Member.dflt with id := 3, valid := true })] } }
/-- A command forwarded to member 63, which a route leads to. -/
def forwardedAt : State :=
  { openWindow with
    cmds := [{ cmdOf 1 with module := 63, phase := .forwarded }]
    zw := { openWindow.zw with members := [(63, { Member.dflt with id := 3, valid := true })] } }
def silentAt (cs : List Cmd) : State :=
  { member with cmds := cs, zw := { member.zw with linkCfg := 5 <<< 4 }, time := { ready.time with now := 129 } }

/-- A started command of the anchor's. -/
def orphaned (op : Nat) : Cmd := { cmdOf (descOf op []) with origin := some (0, 15) }
/-- An access to member 63 has been written, which is quiet or not. -/
def rcfgAt (quiet : Option Tick) (busy : Bool) : State :=
  { ready with
    glb := { ready.glb with rcfgCtrl := 63, rcfgWaits := busy }
    zw := { ready.zw with members := [(63, { Member.dflt with id := 3, valid := true, quietUntil := quiet })] } }
/-- The same with a request out for every tag. -/
def allTagsOut : State :=
  { rcfgAt none false with zw := { (rcfgAt none false).zw with
      requests := (List.range 8192).map (fun t => { requestOf .desc false with die := 0, tag := BitVec.ofNat 13 t }) } }

theorem no_tag : freeForwardTag allTagsOut = none := by
  refine List.findSome?_eq_none_iff.mpr fun t _ => if_pos ?_
  have h : tagBusy allTagsOut 0 (t % 8192) = true := by
    simp only [tagBusy, allTagsOut, List.any_map, List.any_eq_true, List.mem_range]
    exact ⟨t % 8192, Nat.mod_lt _ (by decide), by simp⟩
  rw [h]
  rfl

theorem witness_RequestRowsComplete :
    (∃ s, ∃ (d : DieIx) (tag : BitVec 13), ∃ r, findRequest s d.val tag.toNat = some r ∧ r.late = false
      ∧ overdue s r 1 = true ∧ (r.kind = .read ∨ r.kind = .write ∨ r.kind = .atomic ∨ r.kind = .signal))
    ∧ (∃ s, ∃ (d : DieIx) (tag : BitVec 13), ∃ r, findRequest s d.val tag.toNat = some r ∧ r.late = true
      ∧ overdue s r 2 = true ∧ s.cmds = [] ∧ s.kids = [] ∧ isMember s = false)
    ∧ (∃ (s : State), ∃ u r, s.zw.requests.find? (fun r => r.cmd == some u && r.kind == .desc && !r.late && overdue s r 1) = some r)
    ∧ (∃ (s : State), ∃ r, s.zw.requests.find? (fun r => r.kind == .rcfg && !r.late && overdue s r 1) = some r
      ∧ r.kind = .rcfg ∧ s.cmds = [] ∧ s.kids = [] ∧ isMember s = false)
    ∧ (∃ s : State, ∃ i : Fin 64, ∃ r, s.zw.requests.find? (fun r =>
        r.kind == .probe && !r.late && r.dst == (memberOf s i.val).id && overdue s r 1) = some r)
    ∧ (∃ s, ∃ i : Fin 64, ∃ c t, isMember s = false ∧ c ∈ s.cmds ∧ c.phase = .forwarded ∧ c.module.toNat = i.val
      ∧ s.zw.requests = [] ∧ (memberOf s i.val).quietUntil = none ∧ probeDue s (memberOf s i.val) = true
      ∧ sendConfig s .probe false (memberOf s i.val).id 0 0 = some (some t))
    ∧ (∃ s, ∃ i : Fin 64, ∃ t, (memberOf s i.val).quietUntil = some t ∧ reached s.time.now t = true)
    ∧ (∃ s, isMember s = true ∧ 4 * timeoutTicks s < since s.time.now s.zw.anchorHeard ∧ ∀ c ∈ s.cmds, c.origin = none)
    ∧ (∃ s c, isMember s = true ∧ 4 * timeoutTicks s < since s.time.now s.zw.anchorHeard ∧ s.cmds = [c] ∧ c.origin ≠ none
      ∧ c.phase = .issued)
    ∧ (∃ s c, isMember s = true ∧ 4 * timeoutTicks s < since s.time.now s.zw.anchorHeard ∧ s.cmds = [c] ∧ c.origin ≠ none
      ∧ c.phase = .started ∧ codecOp (opcodeOf c.desc) = true)
    ∧ (∃ s c, isMember s = true ∧ 4 * timeoutTicks s < since s.time.now s.zw.anchorHeard ∧ s.cmds = [c] ∧ c.origin ≠ none
      ∧ c.phase = .started ∧ groupsRunning s c.uid = true)
    ∧ (∃ s, SetupOpen s) ∧ (∃ v : W64, bit v 31 = true ∧ fieldN v 0 6 = 0) ∧ (∃ s, rcfgBusy s = true)
    ∧ (∃ s, ∃ v : W64, rcfgBusy s = false ∧ fieldN v 0 6 ≠ 0 ∧ bit v 31 = true ∧ isMember s = false)
    ∧ (∃ s, (memberOf s (fieldN s.glb.rcfgCtrl 0 6)).valid = false)
    ∧ (∃ s, (memberOf s (fieldN s.glb.rcfgCtrl 0 6)).valid = true ∧ (memberOf s (fieldN s.glb.rcfgCtrl 0 6)).quietUntil ≠ none)
    ∧ (∃ s, (memberOf s (fieldN s.glb.rcfgCtrl 0 6)).valid = true ∧ (memberOf s (fieldN s.glb.rcfgCtrl 0 6)).quietUntil = none
      ∧ freeForwardTag s = none) := by
  have h : ((sendConfig forwardedAt .probe false (memberOf forwardedAt 63).id 0 0).bind id).isSome = true := by decide +kernel
  obtain ⟨t, ht⟩ := some_of h
  refine ⟨⟨askedAt (requestOf .signal false), 7, 8191, requestOf .signal false, by decide +kernel⟩,
    ⟨askedAt (requestOf .read true), 7, 8191, requestOf .read true, by decide +kernel⟩,
    ⟨askedAt (requestOf .desc false), 1, requestOf .desc false, by decide +kernel⟩,
    ⟨askedAt (requestOf .rcfg false), requestOf .rcfg false, by decide +kernel⟩,
    ⟨askedAt (requestOf .probe false), 63, requestOf .probe false, by decide +kernel⟩,
    ⟨forwardedAt, 63, { cmdOf 1 with module := 63, phase := .forwarded }, t, by decide +kernel, by decide +kernel,
      by decide +kernel, by decide +kernel, by decide +kernel, by decide +kernel, by decide +kernel, ?_⟩,
    ⟨setMember (portAt activePort) 63 { Member.dflt with quietUntil := some 1048576 }, 63, 1048576, by decide +kernel⟩,
    ⟨silentAt [], by decide +kernel⟩,
    ⟨silentAt [{ cmdOf 1 with origin := some (0, 15), phase := .issued }],
      { cmdOf 1 with origin := some (0, 15), phase := .issued }, by decide +kernel⟩,
    ⟨silentAt [orphaned 0x40], orphaned 0x40, by decide +kernel⟩,
    ⟨{ silentAt [orphaned 9] with groups := [anyGroup 7 true] }, orphaned 9, by decide +kernel⟩,
    ⟨ready, by unfold SetupOpen; decide +kernel⟩, ⟨0x80000000, by decide +kernel⟩,
    ⟨rcfgAt none true, by decide +kernel⟩, ⟨ready, 0x8000003F, by decide +kernel⟩, ⟨ready, by decide +kernel⟩,
    ⟨rcfgAt (some 5) false, by decide +kernel⟩, ⟨allTagsOut, by decide +kernel, by decide +kernel, no_tag⟩⟩
  obtain ⟨x, h1, h2⟩ := Option.bind_eq_some_iff.mp ht
  exact h1.trans (congrArg some h2)

/-! ### Witnesses: the host's port, arithmetic, the block -/

def hostAt : State := { running with io := { running.io with bar4Log2 := 41 } }
def farBase : State := { hostAt with hq := { hostAt.hq with bar4Base := 1073741824 } }

theorem witness_HostPortRowsComplete :
    (∃ s, ∃ o : BitVec 41, ∃ n bs t, barReachable s 0 = true ∧ o.toNat + n ≤ 2 ^ s.io.bar4Log2 ∧ isMember s = false
      ∧ bar4Refused s (s.hq.bar4Base.toNat + o.toNat) n = none
      ∧ reqRead (sectorSpans (s.hq.bar4Base.toNat + o.toNat) n) s = (.ok bs, t))
    ∧ (∃ s, ∃ o : BitVec 41, ∃ n x, barReachable s 0 = true ∧ o.toNat + n ≤ 2 ^ s.io.bar4Log2 ∧ isMember s = false
      ∧ bar4Refused s (s.hq.bar4Base.toNat + o.toNat) n = some x)
    ∧ (∃ s, ∃ o : BitVec 41, ∃ n, barReachable s 0 = true ∧ o.toNat + n ≤ 2 ^ s.io.bar4Log2 ∧ isMember s = true)
    ∧ (∃ s, ∃ o : BitVec 41, ∃ bs : List Byte, barReachable s 0 = true ∧ o.toNat + bs.length ≤ 2 ^ s.io.bar4Log2
      ∧ isMember s = false ∧ s.pwr.stage = 5 ∧ bar4Refused s (s.hq.bar4Base.toNat + o.toNat) bs.length = none)
    ∧ (∃ s a n, allCmds s ≠ [] ∧ ∀ c ∈ allCmds s, scratchHit a n c = false)
    ∧ (∃ s, ∃ o : BitVec 41, ∃ bs : List Byte, barReachable s 0 = true ∧ o.toNat + bs.length ≤ 2 ^ s.io.bar4Log2
      ∧ isMember s = false ∧ s.pwr.stage ≠ 5)
    ∧ (∃ s, ∃ o : BitVec 41, ∃ bs : List Byte, ∃ x, barReachable s 0 = true ∧ o.toNat + bs.length ≤ 2 ^ s.io.bar4Log2
      ∧ isMember s = false ∧ s.pwr.stage = 5 ∧ bar4Refused s (s.hq.bar4Base.toNat + o.toNat) bs.length = some x)
    ∧ (∃ s, ∃ l : Fin 12, hostUp s = true ∧ s.hq.bar4Base.toNat % 2 ^ (30 + l.val) = 0)
    ∧ (∃ s, ∃ l : Fin 12, hostUp s = true ∧ s.hq.bar4Base.toNat % 2 ^ (30 + l.val) ≠ 0)
    ∧ (∃ s, ∃ f : FuncIx, barReachable s f.val = true) ∧ (∃ s, ∃ f : FuncIx, barReachable s f.val = false)
    ∧ (∃ s, ∃ v : W64, isMember s = false ∧ v.toNat % 64 = 0) ∧ (∃ s, ∃ v : W64, isMember s = false ∧ v.toNat % 64 ≠ 0) := by
  obtain ⟨bs, t, h⟩ := served (r := reqRead (sectorSpans (hostAt.hq.bar4Base.toNat + (17179869184 : BitVec 41).toNat) 4) hostAt)
    (by decide +kernel)
  exact ⟨⟨hostAt, 17179869184, 4, bs, t, by decide +kernel, by decide +kernel, by decide +kernel, by decide +kernel, h⟩,
    ⟨hostAt, 2199023255548, 4, .outside, by decide +kernel⟩,
    ⟨{ hostAt with zw := { hostAt.zw with anchorId := 7 } }, 0, 4, by decide +kernel⟩,
    ⟨hostAt, 17179869184, [1, 2, 3, 4], by decide +kernel⟩, ⟨withCmd 1, 0, 1, by decide +kernel⟩,
    ⟨{ hostAt with pwr := { hostAt.pwr with stage := 4 } }, 17179869184, [1, 2, 3, 4], by decide +kernel⟩,
    ⟨hostAt, 2199023255548, [1, 2, 3, 4], .outside, by decide +kernel⟩,
    ⟨hostAt, 11, by decide +kernel⟩, ⟨farBase, 1, by decide +kernel⟩,
    ⟨setVf running 63 ⟨true, false, false, 0⟩, 63, by decide +kernel⟩, ⟨running, 63, by decide +kernel⟩,
    ⟨ready, 64, by decide +kernel⟩, ⟨ready, 1, by decide +kernel⟩⟩

def accOf (nan pinf ninf : Bool) (v : Val) : Acc := { Acc.start .exact with nan := nan, pinf := pinf, ninf := ninf, v := v }

theorem witness_AccumulatorFlags :
    (∃ x y : Val, x = .nan ∨ y = .nan) ∧ (∃ m : Nat, m ≠ 0)
    ∧ (∃ p : Path, ∃ a : Acc, p ≠ .ordered ∧ a.nan = true) ∧ (∃ p : Path, ∃ a : Acc, p ≠ .ordered ∧ a.nan = false
      ∧ a.pinf = true ∧ a.ninf = true)
    ∧ (∃ p : Path, ∃ a : Acc, p ≠ .ordered ∧ a.nan = false ∧ a.pinf = true ∧ a.ninf = false)
    ∧ (∃ p : Path, ∃ a : Acc, p ≠ .ordered ∧ a.nan = false ∧ a.pinf = false ∧ a.ninf = true)
    ∧ (∃ p : Path, ∃ a : Acc, ∃ n m e, p ≠ .ordered ∧ a.nan = false ∧ a.pinf = false ∧ a.ninf = false ∧ a.v = .fin n m e
      ∧ m ≠ 0)
    ∧ (∃ p : Path, ∃ a : Acc, ∃ n e, p ≠ .ordered ∧ a.nan = false ∧ a.pinf = false ∧ a.ninf = false
      ∧ a.v = .fin n 0 e) :=
  ⟨⟨.nan, .inf true, .inl rfl⟩, ⟨1, by decide⟩, ⟨.exact, accOf true false false .nan, by decide, rfl⟩,
   ⟨.mx, accOf false true true .nan, by decide, rfl, rfl, rfl⟩, ⟨.exact, accOf false true false .nan, by decide, rfl, rfl, rfl⟩,
   ⟨.exact, accOf false false true .nan, by decide, rfl, rfl, rfl⟩,
   ⟨.mx, accOf false false false (.fin true 1 (-5)), true, 1, -5, by decide, rfl, rfl, rfl, rfl, by decide⟩,
   ⟨.exact, accOf false false false (.fin true 0 3), true, 3, by decide, rfl, rfl, rfl, rfl⟩⟩

theorem witness_ExactPathHoldsTheExactSum :
    (∃ xs : List (Val × Val), xs ≠ [] ∧ ∀ x ∈ xs, isFinite x.1 = true ∧ isFinite x.2 = true)
    ∧ (∃ a b : List Val, a ≠ [] ∧ b ≠ [] ∧ (∀ x ∈ a, isFinite x = true) ∧ (∀ x ∈ b, isFinite x = true)) :=
  ⟨⟨[(.fin true 3 (-2), .fin false 5 1)], by decide, by decide⟩,
   ⟨[.fin true 3 (-2)], [.fin false 5 1], by decide, by decide, by decide, by decide⟩⟩

theorem witness_StepRunsTheFrontCommand : ∃ s : State, ∃ c rest, s.pending = c :: rest :=
  ⟨{ ready with pending := [.nop 1] }, .nop 1, [], rfl⟩

theorem witness_CommandsLeaveTheQueue : ∃ c s t, exec c s = .next t :=
  ⟨.nop 1, ready, ready, by rfl⟩

theorem witness_StopsOnlyBeyondRatings :
    (∃ x, 60000 < returnMv x) ∧ (∃ r : EpochReadings, 60000 < r.inputMv)
    ∧ (∃ c : Instr, (∀ x, c = .coldReset x → returnMv x ≤ 60000) ∧ (∀ r, c = .governorEpoch r → r.inputMv ≤ 60000)) :=
  ⟨⟨.restored 60001 100 true, by decide⟩, ⟨{ hot 0 0 with inputMv := 60001 }, by decide⟩,
   ⟨.coldReset (.applied 60000), fun x h => by cases h; decide, fun r h => by cases h⟩⟩

theorem witness_EveryStepKeepsMemoryCanonical :
    ∃ s t, smWf 0 s.host = true ∧ smWf Sector.dflt s.hbm = true ∧ step s = .next t :=
  ⟨State.reset, tick State.reset, by decide +kernel, by decide +kernel, by rfl⟩

/-! ### Well-formed and ill-formed terms -/

/-- Each check of `Instr.wf` refuses a term that breaks it. -/
theorem test_wf_refuses :
    Instr.wf (.governorEpoch ⟨List.replicate 31 none, 48000, 0, 0, List.replicate 8 0⟩) = false
    ∧ Instr.wf (.governorEpoch ⟨List.replicate 32 none, 48000, 0, 0, List.replicate 7 0⟩) = false
    ∧ Instr.wf (.arrayPass 0 0 { onePass true with rows := 0 }) = false
    ∧ Instr.wf (.arrayPass 0 0 { onePass true with rows := 65537 }) = false
    ∧ Instr.wf (.bar4Read 0 0) = false
    ∧ Instr.wf (.bar4Write 0 []) = false
    ∧ Instr.wf (.spWrite 0 0 0 ⟨none, []⟩) = false
    ∧ Instr.wf (.neighbourAccess 0 0 .north 0 (.read 0)) = false
    ∧ Instr.wf (.neighbourAccess 0 0 .north 0 (.write [])) = false
    ∧ Instr.wf (.bootComplete 0 (some [1])) = false
    ∧ Instr.wf (.tileGroupStart 0 0 [3, 3]) = false
    ∧ Instr.wf (.hbmMaintenance 0 []) = false
    ∧ Instr.wf (.hbmRead 0 31 none []) = false
    ∧ Instr.wf (.hbmWrite 0 33 0) = false
    ∧ Instr.wf (.hbmRmw 0 1 (.add 0 1) none []) = false := by decide +kernel

/-- Input voltages come at a resolution of 10 mV, the lowest sample of a sag is no higher than the latest, and only the thermistors'
zones can read as open or shorted. -/
theorem test_wf_refuses_samples :
    let epoch (z : Nat) (mv : Nat) : Instr :=
      .governorEpoch ⟨List.replicate z none ++ [some .openOrShorted] ++ List.replicate (31 - z) none, mv, 0, 0, List.replicate 8 0⟩
    [epoch 29 48000, epoch 30 48005, .sagEnter ⟨41205, 41800⟩, .sagEnter ⟨41200, 41805⟩, .sagEnter ⟨41810, 41800⟩,
      .orderlyShutdown ⟨0, 37995⟩, .coldReset (.applied 40005), .coldReset (.restored 44005 100 true)].map Instr.wf
      = List.replicate 8 false
    ∧ [epoch 30 48000, .sagEnter ⟨41800, 41800⟩, .orderlyShutdown ⟨0, 37990⟩, .coldReset (.applied 40010),
      .coldReset (.restored 44010 100 true)].map Instr.wf = List.replicate 5 true := by decide +kernel

theorem test_wf_accepts :
    Instr.wf (.governorEpoch ⟨List.replicate 32 none, 48000, 0, 0, List.replicate 8 0⟩) = true
    ∧ Instr.wf (.arrayPass 0 0 { onePass true with rows := 65536 }) = true
    ∧ Instr.wf (.bootComplete 0 (some (List.replicate 16 1))) = true
    ∧ Instr.wf (.tileGroupStart 0 0 [3, 4]) = true
    ∧ Instr.wf (.hbmRead 0 32 none []) = true ∧ Instr.wf (.nop 0) = true := by decide +kernel

/-- No row of the opcode table gives its command bits. -/
theorem test_no_words : decodeTableWord 32 0 = none ∧ (ready.withFetchWord 32 0).pending = [] := ⟨rfl, rfl⟩

/-! ### Values of the spec's worked examples -/

/-- The adder example of the scope file: the sum wraps to 1, and 1 rotated left by 13 is 0x2000. -/
theorem test_wrap_and_rotate : ((0xFFFF_FFFF : W32) + 2).rotateLeft 13 = 0x0000_2000 := by decide

/-- R415: 1,700,000,000.5 s is 0x3F_1008_0000. -/
theorem test_timeline_value :
    (setAbsTick ready 0 (1700000000 * 2 ^ 20 + 500000000 * 2 ^ 20 / 10 ^ 9)).time.now = 0x3F_1008_0000 := by decide +kernel

/-- The example of the interleave with channel 17 mapped out, and with all 64 channels live. -/
theorem test_interleave :
    interleave ((List.range 64).erase 17) 0x12345678 = (19, 0x49_FE78)
    ∧ (interleave (List.range 64) 0x12345678).1 = 52 := by decide +kernel

/-- The tile of the example of a row check: its checksum column starts with 16 and 0.5, and its check vector finds nothing. -/
def exampleTile : Tile :=
  ⟨.byte8, 0x10, List.replicate 16 0x38 ++ [0, 0, 0, 0x30] ++ List.replicate 492 0, []⟩
theorem test_row_check :
    (exampleTile.colSums.take 3).map toBits32 = [0x41800000, 0x3F000000, 0]
    ∧ checkVectorBad exampleTile (onePass true) = false := by decide +kernel

/-- The faulty element of the example: column 3 one too low is a mismatch. -/
theorem test_check_vector :
    checkVectorBad exampleTile { onePass true with defect := some ⟨0, 3, -(2 ^ 32)⟩ } = true := by decide +kernel

/-- The example of two plateaus: the record (512, 4096.25, 0.25, 32). -/
theorem test_two_plateaus :
    statBytes (statMerge ⟨valOfInt 256, c32 0x45800200, .zero false, .zero false⟩
      ⟨valOfInt 256, c32 0x45800600, .zero false, .zero false⟩)
    = statBytes ⟨valOfInt 512, c32 0x45800200, c32 0x3E800000, valOfInt 32⟩ := by decide +kernel

/-- The example of reflect padding: rows −2, 0, 2 read rows 2, 0, 2. -/
theorem test_reflect : ([-2, 0, 2].map (resolvePad 2 5)) = [some 2, some 0, some 2] := by decide

/-- The example of a C16 tensor of shape (1, 4, 4, 40). -/
def exampleC16 : Tensor :=
  { Tensor.none with fmt := .flt .bf16, layout := 1, dims := [1, 4, 4, 40], strides := [1536, 128, 32, 512] }
theorem test_blocked_offsets :
    [(0, 0), (0, 15), (1, 0), (4, 0), (0, 16), (15, 39)].map (fun x => exampleC16.elemOffset x.1 x.2)
      = [0, 30, 32, 128, 512, 1518] := by decide +kernel

/-- The header slot of the example's remote event signal. -/
theorem test_atomic_header :
    headerSlot { (msgPacket ready 0 0x2A7 0xA042 0x1002468A00 []) with
      type := 4, tc := 1, hops := 8, src := 0x013, len := 1, key := 0x5A1703C2 }
    = (0x5A1703C240091A28#64 ++ 0x0006810804CA9E14#64 : BitVec 128) := by decide +kernel

/-- The example of one sampled row: token 2 for word 0xC0000000, token 1 for 0x40000000, both with lp 0xBF317218. -/
def exampleRow : List Val := [c32 0x40000000, c32 0x40600000, c32 0x40600000, one, .nan, c32 0x3F000000]
theorem test_ranked_tokens :
    (rankTokens 4 (exampleRow.map (fun x => fmul x (rcpV (c32 0x3F000000))))).map Prod.fst = [1, 2, 0, 3] := by decide +kernel

/-- The check value of CRC-32C over "123456789". -/
theorem test_crc : crc32c [0x31, 0x32, 0x33, 0x34, 0x35, 0x36, 0x37, 0x38, 0x39] = 0xE3069283 := by decide +kernel

/-- One symbol in error is corrected, here data symbol 31; two are not taken for one in the same place. -/
theorem test_burst_code :
    rsDecode none (rsEncode 0x1234 ^^^ (0x55#288 <<< 248)) = .corrected (rsEncode 0x1234) [31]
    ∧ rsSyndromes (rsEncode 0x1234) = [0, 0, 0, 0] := by decide +kernel

/-- The example of a ring of 64 slots: three slots after index 62 of pass 1 come index 1 of pass 0. -/
theorem test_ring_wrap : ixAdd 64 (0x1003E : BitVec 17) 3 = 0x00001 := by decide +kernel

/-! ### One step each -/

/-- An empty queue: one tick of the timeline, which wraps at 40 bits. -/
theorem test_tick_wraps :
    (match step { State.reset with time := { State.reset.time with now := 0xFF_FFFF_FFFF } } with
      | .next t => decide (t.time.now = 0)
      | _ => false) = true := by decide +kernel

/-- A step takes the front of the queue. -/
theorem test_step_pops :
    (match step { ready with pending := [.moduleReady, .dieOff 7] } with
      | .next t => decide (t.pending = [.dieOff 7])
      | _ => false) = true := by decide +kernel

theorem test_nop_finishes :
    ((findCmd (nextOf (withCmd (descOf 0x01 [])) (.nop 1)) 1).map (fun c => (c.phase, c.status))) = some (.finished, .ok) := by
  decide +kernel

/-- FILL of eight bytes of host memory. -/
theorem test_fill_host :
    hostRead (nextOf (withCmd (fillDesc ||| (0x0102030405060708#1024 <<< 192))) (.fill 1 false)) 0 9
      = [8, 7, 6, 5, 4, 3, 2, 1, 0] := by decide +kernel

/-- The bytes that a memory read delivered. -/
def answerOf (s : State) (c : Instr) : Option (List Byte) :=
  match (nextOf s c).io.answer with
  | .bytes bs => some bs
  | _ => none

theorem test_hbm_write_read :
    answerOf (nextOf ready (.hbmWrite 3 64 0xFEDC)) (.hbmRead 3 64 none [])
      = some ([0xDC, 0xFE] ++ List.replicate 30 0) := by decide +kernel

/-- A damaged symbol is corrected on the way. -/
theorem test_hbm_corrects :
    answerOf (nextOf ready (.hbmWrite 3 64 0xFEDC)) (.hbmRead 3 64 none [(31, 0xFF)])
      = some ([0xDC, 0xFE] ++ List.replicate 30 0) := by decide +kernel

/-- An atomic ADD wraps modulo 2^64, in its own 8 bytes only. -/
theorem test_hbm_add_wraps :
    answerOf (nextOf (nextOf ready (.hbmWrite 0 0 (BitVec.ofNat 256 (2 ^ 64 - 1)))) (.hbmRmw 0 0 (.add 0 2) none []))
      (.hbmRead 0 0 none []) = some (1 :: List.replicate 31 0) := by decide +kernel

/-- A read of eight bytes that were written; one flipped bit of the stored word does not reach the reader. -/
theorem test_sp_corrects :
    let s := nextOf ready (.spWrite 2 5 64 ⟨none, [1, 2, 3, 4, 5, 6, 7, 8]⟩)
    (nextOf s (.spRead 2 5 64 .fill .none)).io.answer = .value 0x0807060504030201
    ∧ (nextOf s (.spRead 2 5 64 .fill (.single 9))).io.answer = .value 0x0807060504030201 := by decide +kernel

/-- A sag sets the clamp and the inhibit. -/
theorem test_sag :
    let t := nextOf { ready with pwr := { ready.pwr with running := true } } (.sagEnter ⟨41200, 41800⟩)
    (t.pwr.clamp, t.pwr.inhibit) = (true, true) := by decide +kernel

/-- DST of a failing member of a collective, and of one that is aborted with it, gets free values (R333). -/
theorem test_coll_fails :
    let s := collAt [collCmd 0 0 true, collCmd 1 0 true]
    ((spoilCmd s 1 .memUncorrectable).freeCount, (spoilCmd s 2 .aborted).freeCount) = (1, 1) := by decide +kernel

end Sys2Proof.Tests
end

section
/-!
SUPPORT. Zweve ports: setting one bit of a register, replacing a port twice, and what each shared operation of Link.lean does,
case by case (R274 to R283, R307, R313, R315, R487).
-/
namespace Sys2Proof.Laws

open Sys2Proof Sys2Proof.Machine

/-! ### One bit of a register -/

/-- Every bit after setting bit `i`. -/
theorem bit_setField_one {n : Nat} (x : BitVec n) (i j : Nat) :
    bit (setField x i 1 1) j = (bit x j || decide (j < n) && decide (i = j)) := by
  have hm : BitVec.ofNat n ((2 ^ 1 - 1) * 2 ^ i) = BitVec.twoPow n i :=
    BitVec.eq_of_toNat_eq (by
      rw [BitVec.toNat_ofNat, BitVec.toNat_twoPow, show (2 ^ 1 - 1) * 2 ^ i = 2 ^ i from Nat.one_mul _])
  have h : setField x i 1 1 = (x &&& ~~~BitVec.twoPow n i) ||| BitVec.twoPow n i := hm ▸ rfl
  by_cases hj : j < n
  · by_cases hi : i = j
    · subst hi; simp [h, bit, hj]
    · simp [h, bit, hj, hi, Ne.symm hi]
  · simp [bit, hj, BitVec.getLsbD_of_ge _ _ (Nat.le_of_not_lt hj)]

/-- Setting a bit that is set changes nothing. -/
theorem setField_one_of_bit {n : Nat} {x : BitVec n} {i : Nat} (h : bit x i = true) : setField x i 1 1 = x := by
  apply BitVec.eq_of_getLsbD_eq
  intro j hj
  have hb := bit_setField_one x i j
  by_cases hi : i = j
  · subst hi
    exact hb.trans (by simp [h]) |>.trans h.symm
  · exact hb.trans (by simp [hi, bit])

/-! ### Replacing a port twice -/

/-- The second of two replacements of a port stands alone, where the first is no port at rest. -/
theorem setPort_setPort (s : State) (p : Nat) {v : Port} (w : Port) (h : v ≠ Port.dflt) :
    setPort (setPort s p v) p w = setPort s p w := by
  unfold setPort
  simp only [smSet_smSet _ _ h]

/-- A port that is not OFF is not the default port. -/
theorem ne_portDflt_of_stage {v : Port} (h : v.stage ≠ .off) : v ≠ Port.dflt :=
  fun e => h (by rw [e]; rfl)

/-! ### Cables and the begin of a port (R3, R487) -/

/-- A cable that is seated already leaves a port that is not OFF as it is. -/
theorem seatCable_of_seated {s : State} {p : Nat} (hc : cableSeated s p = true) (ho : (portOf s p).stage ≠ .off) :
    seatCable s p true = s := by
  have h : setField s.pwr.cables p 1 1 = s.pwr.cables := setField_one_of_bit hc
  simp [seatCable, h, ho]

/-- A port with power and a cable begins at Detect. -/
theorem beginPort_ready {s : State} {p : Nat} (hp : portPowered s p = true) (hc : cableSeated s p = true) :
    beginPort s p = toDetect s p := by
  simp [beginPort, hp, hc]

/-- Without a cable no port begins. -/
theorem beginPort_uncabled {s : State} {p : Nat} (hc : cableSeated s p = false) : beginPort s p = s := by
  simp [beginPort, hc]

/-- An enabled OFF port with power begins with its cable. -/
theorem seatCable_begins {s t : State} {p : Nat}
    (ht : t = { s with pwr := { s.pwr with cables := setField s.pwr.cables p 1 1 } })
    (ho : (portOf s p).stage = .off) (he : (portOf s p).enable = true) (hp : portPowered s p = true) (h : p < 16) :
    seatCable s p true = toDetect t p := by
  have hc : cableSeated t p = true := by simp [ht, cableSeated, bit_setField_one, h]
  have hp' : portPowered t p = true := by rw [ht]; exact hp
  have hq : portOf t p = portOf s p := by rw [ht]; rfl
  have hs : seatCable s p true = if (portOf t p).stage == .off && (portOf t p).enable then beginPort t p else t := by
    rw [ht]; rfl
  simp [hs, hq, ho, he, beginPort_ready hp' hc]

/-- A cable that goes: a port that awaits its signal is OFF, any other goes on. -/
theorem seatCable_gone {s t : State} {p : Nat}
    (ht : t = { s with pwr := { s.pwr with cables := setField s.pwr.cables p 1 0 } })
    (hr : (portOf s p).retraining = false) :
    seatCable s p false = if (portOf s p).stage = .detect then stageOff t p else t := by
  subst ht
  have hq : portOf { s with pwr := { s.pwr with cables := setField s.pwr.cables p 1 0 } } p = portOf s p := rfl
  by_cases h : (portOf s p).stage = .detect <;> simp [seatCable, hq, hr, h]

/-- A signal on a lane of a powered port in Detect: MAX_WIDTH is taken (R315). -/
theorem detectSignal_trains {s : State} {p : Nat} (hd : (portOf s p).stage = .detect) (hp : portPowered s p = true)
    (hr : (portOf s p).retraining = false) :
    detectSignal s p = setPort s p { portOf s p with
      stage := .train, limit := (portOf s p).maxWidth, stageStart := s.time.now } := by
  simp [detectSignal, hd, hp, hr]

/-! ### Attempts that fail (R277) -/

/-- Fewer than three retries so far: back to Detect with a cable, OFF without one. -/
theorem failAttempt_retry {s : State} {p : Nat} (hn : (portOf s p).retries < 3) (hr : (portOf s p).retraining = false) :
    failAttempt s p = if cableSeated s p then setPort s p { portOf s p with
        retries := (portOf s p).retries + 1, stage := .detect, lanesOk := 0, stageStart := s.time.now }
      else stageOff s p := by
  have h3 : ¬ 3 ≤ (portOf s p).retries := Nat.not_le.2 hn
  cases hc : cableSeated s p <;> simp [failAttempt, h3, hr, hc, modPort_eq]

/-- After three retries the port goes Down. -/
theorem failAttempt_down {s : State} {p : Nat} (hn : 3 ≤ (portOf s p).retries) (hr : (portOf s p).retraining = false) :
    failAttempt s p = goDown s p 0 := by
  simp [failAttempt, hn, hr]

/-! ### The partner's NEG (R278, R279) -/

/-- A good NEG at a port in Negotiate that does not retrain: Active at the common width, Down where there is none. -/
theorem takeNeg_good {s : State} {p : Nat} {x : BitVec 512} (hn : (portOf s p).stage = .negotiate) (hx : negOk s x = true)
    (hr : (portOf s p).retraining = false) :
    takeNeg s p x =
      if negWidth (portOf s p) ((portOf s p).lanes &&& field x 32 4) = 0 then
        goDown (showPartner s p x ((portOf s p).lanes &&& field x 32 4)) p 0
      else memberPost (becomeActive s p x (negWidth (portOf s p) ((portOf s p).lanes &&& field x 32 4))
        ((portOf s p).lanes &&& field x 32 4)) := by
  simp [takeNeg, hn, hx, hr]

/-- A bad NEG is logged and fails the attempt. -/
theorem takeNeg_bad {s : State} {p : Nat} {x : BitVec 512} (hn : (portOf s p).stage = .negotiate) (hx : negOk s x = false) :
    takeNeg s p x = failAttempt (occur s (eventRec s evNegFailed (p / 2) false none (field x 0 64) (field x 64 64)
      (field x 128 64) (field x 192 64)) true) p := by
  simp [takeNeg, hn, hx]

/-! ### Retraining (R280) -/

/-- A port that carries packets goes back to Detect, and keeps its queues and replay buffer. -/
theorem retrainPort_up {s : State} {p : Nat} (h : (portOf s p).stage = .active ∨ (portOf s p).stage = .draining) :
    retrainPort s p = bumpPort (setPort s p { portOf s p with
      stage := .detect, stageStart := s.time.now, retraining := true, retries := 0, width := 0, uncorrected := 0
      idleReplays := 0, lanesOk := 0, rxLanes := [], rxFlits := [] }) p cntRetrain := by
  rcases h with h | h <;> simp [retrainPort, h]

/-! ### Codewords (R274, R275, R283) -/

/-- A codeword on the one lane of a port: its flits follow at once. -/
theorem laneFlits_one (t : Tick) (fs : List (BitVec 1024)) {q : Port} (hl : linkUp q = true) (hw : q.width = 1)
    (hn : q.rxLanes = []) :
    laneFlits t 0 fs q = { q with rxTurn := 1, rxFlits := q.rxFlits ++ fs.map (fun f => (t, f)) } := by
  simp [laneFlits, hl, takeTurns, hw, hn, Nat.mod_one, smGet, smSet]

/-- The first uncorrectable codeword of a 2^10-tick interval, on a lane that no marker has named yet: it is counted, and a NAK
is due. -/
theorem dropCodeword_first {s : State} {p lane : Nat} (hl : linkUp (portOf s p) = true)
    (ho : smGet none (portOf s p).laneOrder lane = none) (hi : (portOf s p).uncorrectedIn ≠ s.time.now.toNat / 1024) :
    dropCodeword s p lane = askReplay (modPort (bumpPort s p cntFecUncorr) p (fun q => { q with
      uncorrected := 1, uncorrectedIn := s.time.now.toNat / 1024 })) p := by
  simp only [dropCodeword, hl, hi, bumpPort, modPort_eq, portOf_setPort, ho, setPort_time]
  rfl

/-- Five flits that wait leave as one codeword, on the lane whose turn it is. -/
theorem putFlits_fifth {q : Port} {a b c e : BitVec 1024} (f : BitVec 1024) (h : q.txFlits = [a, b, c, e]) :
    putFlits q [f] = { q with
      txFlits := [], txWords := q.txWords + 1
      wire := q.wire ++ [(q.txWords % max 1 q.width.toNat,
        fecEncode (codewordOf (q.txWords % max 1 q.width.toNat) (q.txWords / max 1 q.width.toNat) [a, b, c, e, f]))] } := by
  simp [putFlits, formCodewords, h]

/-! ### Event timestamps of TIME packets (R313) -/

/-- While a port retrains or awaits the partner's first ACK, no timestamp is taken. -/
theorem settleTimes_resync {s : State} {p : Nat} (h : (portOf s p).resync = true) : settleTimes s p = s := by
  simp [settleTimes, h]

/-- Packets whose flits all wait stay as they are. -/
theorem settleTimes_waiting {s : State} {p : Nat} (h : ∀ x ∈ (portOf s p).timesOut, flitWaits (portOf s p) x.1 = true) :
    portOf (settleTimes s p) p = portOf s p ∧ (settleTimes s p).time = s.time := by
  have hk : (portOf s p).timesOut.filter (fun x => flitWaits (portOf s p) x.1) = (portOf s p).timesOut :=
    List.filter_eq_self.2 h
  have hg : (portOf s p).timesOut.filter (fun x => !flitWaits (portOf s p) x.1) = [] :=
    List.filter_eq_nil_iff.2 (fun x hx => by simp [h x hx])
  unfold settleTimes
  simp only [hk, hg, List.foldl_nil]
  split <;> simp

/-- A packet whose flit has left takes its timestamp, and waits no more. -/
theorem settleTimes_gone {s : State} {p : Nat} {x : BitVec 12 × Packet} (h : (portOf s p).timesOut = [x])
    (hw : flitWaits (portOf s p) x.1 = false) (ht : (portOf s p).retraining = false) (hr : (portOf s p).resync = false) :
    settleTimes s p = timeSent (setPort s p { portOf s p with timesOut := [] }) p x.2 := by
  simp [settleTimes, ht, hr, h, hw]

/-- A port that awaits the partner's first ACK sends an idle flit. -/
theorem transmitNext_resync {s : State} {p : Nat} (h : (portOf s p).resync = true) :
    transmitNext s p = modPort s p (fun q =>
      putFlits { q with nakDue := false } [makeFlit 0 q.rxSeq q.nakDue true 0 []]) := by
  simp [transmitNext, h, sendIdle, idleFlit]

/-! ### Enable and disable (R307) -/

/-- An Active port that is disabled drains. -/
theorem disablePort_active {s : State} {p : Nat} (h : (portOf s p).stage = .active) :
    disablePort s p = setPort s p { portOf s p with enable := false, enableHeld := false, stage := .draining } := by
  simp only [disablePort, modPort_eq, portOf_setPort, h]
  exact setPort_setPort s p _ (ne_portDflt_of_stage (by simp))

/-- A port in Detect with no held enable is OFF at once. -/
theorem disablePort_detect {s : State} {p : Nat} (h : (portOf s p).stage = .detect) (hr : (portOf s p).retraining = false)
    (hh : (portOf s p).enableHeld = false) :
    disablePort s p = stageOff (setPort s p { portOf s p with enable := false }) p := by
  simp only [disablePort, modPort_eq, portOf_setPort, h, hr, portOff, hh]
  rfl

/-- An enable during a drain is held. -/
theorem enablePort_draining {s : State} {p : Nat} (he : (portOf s p).enable = false) (h : (portOf s p).stage = .draining) :
    enablePort s p = setPort s p { portOf s p with enable := true, enableHeld := true } := by
  simp [enablePort, he, h]

/-- An OFF port that is enabled begins. -/
theorem enablePort_off {s : State} {p : Nat} (he : (portOf s p).enable = false) (h : (portOf s p).stage = .off)
    (hr : (portOf s p).retraining = false) :
    enablePort s p = beginPort (setPort s p { portOf s p with enable := true }) p := by
  simp [enablePort, he, h, hr]

end Sys2Proof.Laws
end

section
/-!
PROOF. The module as a whole takes its commands from the queue.
-/
namespace Sys2Proof.Proofs

open Sys2Proof Sys2Proof.Machine

/-- Settles O56: with a command at the front the queue is not empty, and `step` takes that command. -/
theorem stepRunsTheFrontCommand : Obligations.StepRunsTheFrontCommand := by
  intro s c rest h
  simp only [step, h]

end Sys2Proof.Proofs
end

section
/-!
PROOF. The rows that train a port (R277 to R280, R315, R487).
-/
namespace Sys2Proof.Proofs

open Sys2Proof Sys2Proof.Machine Sys2Proof.Laws

section Rows

variable {s : State} {p : PortIx}

/-- PORT_DETECT with a signal: a cable that is seated already changes nothing, and the port trains. -/
theorem exec_portDetect_signal (hc : cableSeated s p.val = true) (hd : (portOf s p.val).stage = .detect)
    (hp : portPowered s p.val = true) (hr : (portOf s p.val).retraining = false) :
    exec (.portDetect ⟨p, true⟩) s = .next (setPort s p.val { portOf s p.val with
      stage := .train, limit := (portOf s p.val).maxWidth, stageStart := s.time.now }) := by
  have hs : seatCable s p.val true = s := seatCable_of_seated hc (by simp [hd])
  show Host.Outcome.next (detectSignal (seatCable s p.val true) p.val) = _
  rw [hs, detectSignal_trains hd hp hr]

/-- PORT_DETECT without a cable: only a port in Detect changes. -/
theorem exec_portDetect_gone {t : State}
    (ht : t = { s with pwr := { s.pwr with cables := setField s.pwr.cables p.val 1 0 } })
    (hr : (portOf s p.val).retraining = false) :
    exec (.portDetect ⟨p, false⟩) s = .next (if (portOf s p.val).stage = .detect then stageOff t p.val else t) :=
  congrArg Host.Outcome.next (seatCable_gone ht hr)

/-- PORT_TRAIN_DONE at a port in training: the NEG leaves in a codeword of its own. -/
theorem exec_portTrainDone_train {lanes : BitVec 4} {t : State} (h : (portOf s p.val).stage = .train)
    (ht : t = setPort s p.val { portOf s p.val with
      stage := .negotiate, lanes := lanes, laneOrder := [], rxLanes := [], txFlits := [], txWords := 0, unlocked := 0 }) :
    exec (.portTrainDone p lanes) s = .next (modPort t p.val (fun q => putFlits q
      (makeFlit 0 q.rxSeq false false 0 (packetSlots (msgPacket t 0 0 0 0 (bvToBytes 64 (negData t p.val))))
        :: List.replicate 4 (idleFlit q.rxSeq false)))) := by
  subst ht
  exact congrArg Host.Outcome.next (if_pos (beq_iff_eq.2 h))

/-- PORT_TRAIN_LIMIT past its time in training, in Negotiate, or in Detect after a failed attempt: the attempt fails. -/
theorem exec_portTrainLimit_late (h : (portOf s p.val).stage = .train ∨ (portOf s p.val).stage = .negotiate
      ∨ ((portOf s p.val).stage = .detect ∧ 0 < (portOf s p.val).retries))
    (hr : (portOf s p.val).retraining = false) (hl : 524288 ≤ since s.time.now (portOf s p.val).stageStart) :
    exec (.portTrainLimit p) s = .next (failAttempt s p.val) := by
  have ha : attempting (portOf s p.val) = true := by simpa [attempting, or_assoc] using h
  exact congrArg Host.Outcome.next (if_pos (by simp [ha, hr, hl]))

/-- PORT_DOWN_RETRY after 2^20 ticks: one attempt more. -/
theorem exec_portDownRetry_due (hd : (portOf s p.val).stage = .down) (he : (portOf s p.val).enable = true)
    (hp : portPowered s p.val = true) (hc : cableSeated s p.val = true)
    (hl : 1048576 ≤ since s.time.now (portOf s p.val).stageStart) :
    exec (.portDownRetry p) s = .next (modPort (toDetect s p.val) p.val (fun q => { q with retries := 3 })) :=
  congrArg Host.Outcome.next (if_pos (by simp [hd, he, hp, hc, hl]))

/-- PORT_RETRAIN_LIMIT past its time: the port goes Down. -/
theorem exec_portRetrainLimit_late (hr : (portOf s p.val).retraining = true)
    (hl : 524288 ≤ since s.time.now (portOf s p.val).stageStart) :
    exec (.portRetrainLimit p) s = .next (goDown s p.val 1) :=
  congrArg Host.Outcome.next (if_pos (by simp [hr, hl]))

end Rows

/-- Settles O48, clause by clause: each row of training by what its shared operation does in that case. -/
theorem portTrainingRowsComplete : Obligations.PortTrainingRowsComplete := by
  refine ⟨fun s p hc hd hp hr => exec_portDetect_signal hc hd hp hr, fun s p t ht hr => ⟨fun hd => ?gone, fun hd => ?kept⟩,
    fun s p ho he _ hp h => seatCable_begins rfl ho he hp h, fun s p hc => beginPort_uncabled hc,
    fun s p lanes t h ht => exec_portTrainDone_train h ht, fun s p x hn hx hr hw => ?active, fun s p x hn hx hr hw => ?noWidth,
    fun s p x hn hx => congrArg Host.Outcome.next (takeNeg_bad hn hx), fun s p h hr hl => exec_portTrainLimit_late h hr hl,
    fun s p hn hr hc => ?again, fun s p hn hr hc => ?uncabled, fun s p hn hr => failAttempt_down hn hr,
    fun s p hd he hp hc hl => exec_portDownRetry_due hd he hp hc hl,
    fun s p h => congrArg Host.Outcome.next (retrainPort_up h), fun s p hr hl => exec_portRetrainLimit_late hr hl⟩
  case gone => rw [exec_portDetect_gone ht hr, if_pos hd]
  case kept => rw [exec_portDetect_gone ht hr, if_neg hd]
  case active => exact congrArg Host.Outcome.next ((takeNeg_good hn hx hr).trans (if_neg hw))
  case noWidth => exact congrArg Host.Outcome.next ((takeNeg_good hn hx hr).trans (if_pos hw))
  case again => rw [failAttempt_retry hn hr, if_pos hc]
  case uncabled => rw [failAttempt_retry hn hr, hc]; exact if_neg Bool.false_ne_true

end Sys2Proof.Proofs
end

section
/-!
PROOF. The rows of a port that carries packets (R274, R275, R281 to R283, R305 to R307, R313).
-/
namespace Sys2Proof.Proofs

open Sys2Proof Sys2Proof.Machine Sys2Proof.Laws Sys2Proof.Claims

/-- CODEWORD_RECEIVE at a port that listens: the word goes by its decoding. -/
theorem exec_codewordReceive_listening {s : State} {p : PortIx} (lane : Fin 4) (w : BitVec 5440)
    (h : linkUp (portOf s p.val) = true ∨ (portOf s p.val).stage = .negotiate) :
    exec (.codewordReceive p lane w) s = .next ((fecDecode w).elim (dropCodeword s p.val lane.val)
      (fun x => takeCodeword (if x.2 = 0 then s else bumpPort s p.val cntFecCorr) p.val lane.val x.1)) := by
  have hl : (!linkUp (portOf s p.val) && (portOf s p.val).stage != .negotiate) = false := by
    rcases h with h | h <;> simp [h]
  show execCodewordReceive p lane w s = _
  unfold execCodewordReceive
  simp only [hl, Bool.false_eq_true, if_false]
  cases fecDecode w with
  | none => rfl
  | some x => rfl

/-- A codeword with a marker gives its lane that number, and its flits their place. -/
theorem takeCodeword_marked {s : State} {p lane : Nat} {m : BitVec 5140} {j : Nat} (h : markerLane m = some j) :
    takeCodeword s p lane m = modPort s p (fun q =>
      laneFlits s.time.now j (flitsOf m) { q with laneOrder := smSet none q.laneOrder lane (some j), unlocked := 0 }) := by
  simp only [takeCodeword, h]

/-- FLIT_RECEIVE at a port that carries packets: by the CRC, the idle bit and the SEQ of the flit. -/
theorem exec_flitReceive_up {s u : State} {p : PortIx} {t : Tick} {f : BitVec 1024} {rest : List (Tick × BitVec 1024)}
    (hf : (portOf s p.val).rxFlits = (t, f) :: rest) (hl : linkUp (portOf s p.val) = true)
    (hu : u = setPort s p.val { portOf s p.val with rxFlits := rest }) :
    exec (.flitReceive p) s = .next (
      if flitCrc f ≠ field f 96 32 then askReplay (bumpPort u p.val cntCrc) p.val
      else if bit f 25 = true then takeControl u p.val f
      else if field f 0 12 ≠ (portOf s p.val).rxSeq + 1 then askReplay u p.val
      else takeSlots t (flitSlots f) (takeControl (takeCredits (bumpPort
        (modPort u p.val (fun q => { q with rxSeq := q.rxSeq + 1, nakDue := false, nakSent := false })) p.val cntFlitRx)
        p.val f) p.val f) p.val) := by
  show execFlitReceive p s = _
  simp only [execFlitReceive, hf, hl, ← hu, bne_iff_ne, Bool.not_true, Bool.false_and, Bool.false_eq_true, if_false]

/-- QUARANTINE_END at its tick: the end is logged, and a count still at the limit starts the next one. -/
theorem exec_quarantineEnd_due {s u : State} {p : PortIx} {t : Tick} (hq : (portOf s p.val).quarUntil = some t)
    (ht : reached s.time.now t = true)
    (hu : u = logEvent (modPort s p.val (fun q => { q with quarUntil := none, quarAnswer := none })) evQuarEnd (p.val / 2)
      (BitVec.ofNat 64 p.val) 0) :
    exec (.quarantineEnd p) s = .next (if nakLimit u ≤ (portOf u p.val).nakCount then startQuarantine u p.val else u) := by
  show execQuarantineEnd p s = _
  simp only [execQuarantineEnd, hq, ht, if_true, ← hu]

/-- The model's check of a window's end is the statements' `AtTick`. -/
theorem atBoundary_iff {s : State} {n : Nat} {b : Tick} : atBoundary s n b = true ↔ AtTick s n b := by
  simp [atBoundary, AtTick]

/-- PORT_DISABLE where set-up writes are performed. -/
theorem exec_portDisable_open {s : State} {p : PortIx} (h : SetupOpen s) :
    exec (.portDisable p) s = .next (disablePort s p.val) :=
  congrArg Host.Outcome.next (setupWrite_open h)

/-- PORT_ENABLE where set-up writes are performed. -/
theorem exec_portEnable_open {s : State} {p : PortIx} (h : SetupOpen s) :
    exec (.portEnable p) s = .next (enablePort s p.val) :=
  congrArg Host.Outcome.next (setupWrite_open h)

/-- Settles O49, clause by clause: each row of a port that carries packets by what its shared operation does in that case. -/
theorem portTrafficRowsComplete : Obligations.PortTrafficRowsComplete := by
  refine ⟨fun s p lane w m n h hw => ?decoded, fun s p lane w h hw => ?dropped, fun s p lane m j h => takeCodeword_marked h,
    fun t fs q hl hw hn => ?oneLane, fun s p lane hl ho hi => dropCodeword_first hl ho hi,
    fun s p t f rest u hf hl hu => ?flit, fun s p h => congrArg Host.Outcome.next (if_pos h), fun s p t hr ht => ?resync,
    fun s p => rfl, fun s p h => settleTimes_waiting (by simp [h]), fun s p x h hw => settleTimes_waiting (by simp [h, hw]),
    fun s p x h hw ht hr => settleTimes_gone h hw ht hr, fun q f a b c e h => ?fifth, fun s p h ha => ?disable,
    fun s p h he hd => ?held, fun s p h he ho hr hp hc => ?begins, fun s p h he ho hr hc => ?uncabled,
    fun s p h hd hr _ hh => ?detect, fun s p t u hq ht hu => exec_quarantineEnd_due hq ht hu, fun s p h => ?window,
    fun s p h => ?noWindow⟩
  case decoded => simp only [exec_codewordReceive_listening lane w h, hw, Option.elim_some]
  case dropped => simp only [exec_codewordReceive_listening lane w h, hw, Option.elim_none]
  case oneLane => rw [laneFlits_one t fs hl hw hn]; exact ⟨rfl, hn⟩
  case flit =>
    rw [exec_flitReceive_up hf hl hu]
    refine ⟨fun hc => ?_, fun hc hi => ?_, fun hc hi hs => ?_, fun hc hi hs => ?_⟩
    · rw [if_pos hc]
    · rw [if_neg (not_not.2 hc), if_pos hi]
    · rw [if_neg (not_not.2 hc), if_neg (Bool.eq_false_iff.1 hi), if_pos hs]
    · rw [if_neg (not_not.2 hc), if_neg (Bool.eq_false_iff.1 hi), if_neg (not_not.2 hs)]
  case resync =>
    have hn : transmitNext s p = t := (transmitNext_resync hr).trans ht.symm
    refine ⟨hn, fun h => ?_⟩
    unfold transmit
    rw [hn, settleTimes_resync h]
  case fifth => rw [putFlits_fifth f h]; exact ⟨rfl, rfl⟩
  case disable => rw [exec_portDisable_open h, disablePort_active ha]
  case held => rw [exec_portEnable_open h, enablePort_draining he hd]
  case begins =>
    rw [exec_portEnable_open h, enablePort_off he ho hr]
    exact congrArg Host.Outcome.next (beginPort_ready hp hc)
  case uncabled =>
    rw [exec_portEnable_open h, enablePort_off he ho hr]
    exact congrArg Host.Outcome.next (beginPort_uncabled hc)
  case detect => rw [exec_portDisable_open h, disablePort_detect hd hr hh]
  case window => exact congrArg Host.Outcome.next (if_pos (atBoundary_iff.2 h))
  case noWindow => exact congrArg Host.Outcome.next (if_neg (mt atBoundary_iff.1 h))

end Sys2Proof.Proofs
end

section
/-!
SUPPORT. Matrix products: the exact value of a product and of a sum, what one product does to an accumulator, what leaves it, and
the tree over segments (R42, R45 to R48).
-/
namespace Sys2Proof.Laws

open Sys2Proof Sys2Proof.Machine Sys2Proof.Claims

/-! ### Exact values -/

theorem isFinite_iff {v : Val} : isFinite v = true ↔ ∃ n m e, v = .fin n m e := by
  cases v <;> simp [isFinite]

theorem exactVal_fin_zero (n : Bool) (e : Int) : exactVal (.fin n 0 e) = 0 := by simp [exactVal]

/-- An integer at a place, written with its sign apart. -/
theorem exactVal_ofInt (i q : Int) : exactVal (.fin (decide (i < 0)) i.natAbs q) = (i : ℚ) * 2 ^ q := by
  obtain h | h := lt_or_ge i 0
  · have hi : ((i.natAbs : ℕ) : ℚ) = -(i : ℚ) := by rw [Nat.cast_natAbs, abs_of_neg h, Int.cast_neg]
    simp [exactVal, h, hi]
  · have hi : ((i.natAbs : ℕ) : ℚ) = (i : ℚ) := by rw [Nat.cast_natAbs, abs_of_nonneg h]
    simp [exactVal, not_lt.2 h, hi]

/-- The exact product of two finite values. -/
theorem mulX_exact {x y : Val} (hx : isFinite x = true) (hy : isFinite y = true) :
    isFinite (mulX x y) = true ∧ exactVal (mulX x y) = exactVal x * exactVal y := by
  obtain ⟨n₁, m₁, e₁, rfl⟩ := isFinite_iff.1 hx
  obtain ⟨n₂, m₂, e₂, rfl⟩ := isFinite_iff.1 hy
  refine ⟨rfl, ?_⟩
  simp only [mulX, exactVal, zpow_add₀ (two_ne_zero (α := ℚ)), Nat.cast_mul]
  cases n₁ <;> cases n₂ <;> simp <;> ring

/-- The exact sum of two finite values: both are brought to the lower place. -/
theorem addX_exact {x y : Val} (hx : isFinite x = true) (hy : isFinite y = true) :
    isFinite (addX x y) = true ∧ exactVal (addX x y) = exactVal x + exactVal y := by
  obtain ⟨n₁, m₁, e₁, rfl⟩ := isFinite_iff.1 hx
  obtain ⟨n₂, m₂, e₂, rfl⟩ := isFinite_iff.1 hy
  simp only [addX, addFin]
  split_ifs with hz h₁ h₂ hs
  · obtain ⟨rfl, rfl⟩ : m₁ = 0 ∧ m₂ = 0 := by simpa using hz
    simp [Val.zero, isFinite, exactVal_fin_zero]
  · simp [h₁, isFinite, exactVal_fin_zero]
  · simp [h₂, isFinite, exactVal_fin_zero]
  all_goals
    refine ⟨rfl, ?_⟩
    rw [← fixedAt_val n₁ m₁ e₁ _ (min_le_left e₁ e₂), ← fixedAt_val n₂ m₂ e₂ _ (min_le_right e₁ e₂), ← add_mul, ← Int.cast_add]
  · rw [hs, Int.cast_zero, zero_mul]; exact exactVal_fin_zero _ _
  · exact exactVal_ofInt _ _

/-! ### One product (R45) -/

theorem mulX_nan {x y : Val} (h : x = .nan ∨ y = .nan) : mulX x y = .nan := by
  obtain rfl | rfl := h
  · rfl
  · cases x <;> rfl

/-- A product that is NaN sets the nan flag. -/
theorem accStep_nan {a : Acc} {x y : Val} (h : mulX x y = .nan) : a.step x y = { a with nan := true } := by
  simp only [Acc.step, h]

/-- An infinite product sets the flag of its sign. -/
theorem accStep_inf {a : Acc} {x y : Val} {n : Bool} (h : mulX x y = .inf n) :
    a.step x y = if n then { a with ninf := true } else { a with pinf := true } := by
  simp only [Acc.step, h]

/-- A finite product enters the sum. -/
theorem accStep_finite {a : Acc} {x y : Val} (h : isFinite (mulX x y) = true) :
    a.step x y = { a with v := addX a.v (mulX x y) } := by
  obtain ⟨n, m, e, h⟩ := isFinite_iff.1 h
  simp only [Acc.step, h]

theorem mulX_inf_zero (n neg : Bool) (e : Int) :
    mulX (.inf n) (.fin neg 0 e) = .nan ∧ mulX (.fin neg 0 e) (.inf n) = .nan := ⟨rfl, rfl⟩

theorem mulX_inf_fin (n neg : Bool) {m : Nat} (e : Int) (h : m ≠ 0) :
    mulX (.inf n) (.fin neg m e) = .inf (n != neg) ∧ mulX (.fin neg m e) (.inf n) = .inf (neg != n) :=
  ⟨if_neg h, if_neg h⟩

/-! ### What leaves the accumulator (R45, R46) -/

section Leave

variable {p : Path} {a : Acc}

/-- The nan flag, or both infinity flags, make a NaN. -/
theorem leave_nan (hp : p ≠ .ordered) (h : a.nan = true ∨ (a.pinf = true ∧ a.ninf = true)) : (leave p a).1 = .nan := by
  have hf : (a.nan || (a.pinf && a.ninf)) = true := by simpa using h
  cases p with
  | ordered => exact absurd rfl hp
  | exact | mx => simp only [leave, hf, if_true]

/-- One infinity flag makes that infinity. -/
theorem leave_inf {n : Bool} (hp : p ≠ .ordered) (hn : a.nan = false) (h : a.pinf = !n) (h' : a.ninf = n) :
    (leave p a).1 = .inf n := by
  cases p with
  | ordered => exact absurd rfl hp
  | exact | mx => cases n <;> simp [leave, hn, h, h']

/-- Without a flag the accumulator's value leaves, an exact zero as +0. -/
theorem leave_fin {n : Bool} {m : Nat} {e : Int} (hp : p ≠ .ordered) (hn : a.nan = false) (hpi : a.pinf = false)
    (hni : a.ninf = false) (hv : a.v = .fin n m e) :
    (leave p a).1 = if m = 0 then .zero false else .fin n m e := by
  cases p with
  | ordered => exact absurd rfl hp
  | exact | mx =>
    by_cases hm : m = 0 <;> simp [leave, hn, hpi, hni, hv, hm]

end Leave

/-! ### Cutting into pieces and the tree (R47, R48) -/

/-- Pieces that are enough in number hold the whole list, in order. -/
theorem flatten_pieces {α : Type} {w n : Nat} {xs : List α} (h : xs.length ≤ w * n) : (pieces w n xs).flatten = xs := by
  induction n generalizing xs with
  | zero => simpa [pieces, eq_comm] using h
  | succ n ih =>
    have hd : (xs.drop w).length ≤ w * n := by rw [List.length_drop]; rw [Nat.mul_succ] at h; omega
    cases xs with
    | nil => rfl
    | cons x xs => simp [pieces, ih hd]

theorem length_pairUp {α : Type} (f : α → α → α) : ∀ l : List α, (pairUp f l).length = (l.length + 1) / 2
  | [] => by simp [pairUp]
  | [_] => by simp [pairUp]
  | _ :: _ :: rest => by simp only [pairUp, List.length_cons, length_pairUp f rest]; omega

section Tree

variable {α M : Type} [AddMonoid M] {R : α → M → Prop} {f : α → α → α} {d : α}

/-- One level of the tree keeps the sum of what its entries stand for. -/
theorem pairUp_sum (hf : ∀ {a b x y}, R a x → R b y → R (f a b) (x + y)) {l : List α} {qs : List M}
    (h : List.Forall₂ R l qs) : ∃ rs, List.Forall₂ R (pairUp f l) rs ∧ rs.sum = qs.sum := by
  induction l using pairUp.induct generalizing qs with
  | case1 a b rest ih =>
    obtain _ | ⟨ha, _ | ⟨hb, hr⟩⟩ := h
    obtain ⟨rs, hrs, hsum⟩ := ih hr
    exact ⟨_ :: rs, .cons (hf ha hb) hrs, by simp [hsum, add_assoc]⟩
  | case2 l hl => exact ⟨qs, by rwa [pairUp.eq_2 f l hl], rfl⟩

/-- The tree's result stands for the sum of what its leaves stand for. -/
theorem tree_sum (hf : ∀ {a b x y}, R a x → R b y → R (f a b) (x + y)) (hd : R d 0) {l : List α} {qs : List M}
    (h : List.Forall₂ R l qs) : R (tree f d l) qs.sum := by
  suffices hn : ∀ n (l : List α) (qs : List M), l.length ≤ n → List.Forall₂ R l qs →
      R ((treeFrom f n l).headD d) qs.sum from hn _ _ _ le_rfl h
  intro n
  induction n with
  | zero =>
    intro l qs hl h
    obtain rfl := List.eq_nil_of_length_eq_zero (Nat.le_zero.1 hl)
    obtain _ | _ := h
    exact hd
  | succ n ih =>
    intro l qs hl h
    match l, h with
    | [], .nil => exact hd
    | [a], .cons ha .nil => simpa [treeFrom] using ha
    | a :: b :: rest, h =>
      obtain ⟨rs, hrs, hsum⟩ := pairUp_sum hf h
      rw [← hsum]
      refine ih _ _ ?_ hrs
      rw [length_pairUp]
      simp only [List.length_cons] at hl ⊢
      omega

end Tree

/-! ### The exact path (R42) -/

/-- An accumulator that holds `q` exactly, with no flag set. -/
structure Holds (a : Acc) (q : ℚ) : Prop where
  finite : isFinite a.v = true
  nan : a.nan = false
  pinf : a.pinf = false
  ninf : a.ninf = false
  val : exactVal a.v = q

theorem holds_start : Holds (Acc.start .exact) 0 := ⟨rfl, rfl, rfl, rfl, exactVal_fin_zero _ _⟩

theorem holds_step {a : Acc} {q : ℚ} {x y : Val} (h : Holds a q) (hx : isFinite x = true) (hy : isFinite y = true) :
    Holds (a.step x y) (q + exactVal x * exactVal y) := by
  obtain ⟨hm, hmv⟩ := mulX_exact hx hy
  obtain ⟨hs, hsv⟩ := addX_exact h.finite hm
  rw [accStep_finite hm]
  exact ⟨hs, h.nan, h.pinf, h.ninf, by rw [hsv, hmv, h.val]⟩

theorem holds_combine {a b : Acc} {p q : ℚ} (ha : Holds a p) (hb : Holds b q) : Holds (combine .exact a b) (p + q) := by
  obtain ⟨hs, hsv⟩ := addX_exact ha.finite hb.finite
  exact ⟨hs, by simp [combine, ha.nan, hb.nan], by simp [combine, ha.pinf, hb.pinf], by simp [combine, ha.ninf, hb.ninf],
    by rw [← ha.val, ← hb.val]; exact hsv⟩

/-- The exact sum of the products of a list of pairs. -/
def dotVal (xs : List (Val × Val)) : ℚ := (xs.map (fun x => exactVal x.1 * exactVal x.2)).sum

/-- A segment of finite pairs adds its exact sum. -/
theorem holds_segment {a : Acc} {q : ℚ} {xs : List (Val × Val)} (h : Holds a q)
    (hxs : ∀ x ∈ xs, isFinite x.1 = true ∧ isFinite x.2 = true) : Holds (segmentFrom .exact a xs) (q + dotVal xs) := by
  induction xs generalizing a q with
  | nil => simpa [segmentFrom, dotExact, dotVal] using h
  | cons x xs ih =>
    obtain ⟨⟨hx, hy⟩, hr⟩ := List.forall_mem_cons.1 hxs
    have := ih (holds_step h hx hy) hr
    rwa [add_assoc] at this

/-- The segments of finite operands combine to the exact sum of their products. -/
theorem holds_product {a b : List Val} (ha : ∀ x ∈ a, isFinite x = true) (hb : ∀ x ∈ b, isFinite x = true) :
    Holds (product .exact a b) (dotVal (a.zip b)) := by
  have hfin : ∀ x ∈ a.zip b, isFinite x.1 = true ∧ isFinite x.2 = true := fun x hx =>
    ⟨ha _ (List.of_mem_zip hx).1, hb _ (List.of_mem_zip hx).2⟩
  have hcut : (pieces 4096 ((a.zip b).length / 4096 + 1) (a.zip b)).flatten = a.zip b := flatten_pieces (by omega)
  have hsum : dotVal (a.zip b) = ((pieces 4096 ((a.zip b).length / 4096 + 1) (a.zip b)).map dotVal).sum := by
    conv_lhs => rw [← hcut]
    simp only [dotVal, List.map_flatten, List.sum_flatten, List.map_map]
    rfl
  rw [hsum]
  refine tree_sum holds_combine holds_start ?_
  rw [List.forall₂_map_left_iff, List.forall₂_map_right_iff, List.forall₂_same]
  intro xs hxs
  have hseg := holds_segment holds_start (xs := xs) fun x hx => hfin x (hcut ▸ List.mem_flatten_of_mem hxs hx)
  rwa [zero_add] at hseg

end Sys2Proof.Laws
end

section
/-!
PROOF. The arithmetic of the matrix unit (R42, R45 to R48).
-/
namespace Sys2Proof.Proofs

open Sys2Proof Sys2Proof.Machine Sys2Proof.Laws

/-- Settles O55: an exact sum is kept by every product, by induction on the list of pairs, and by every level of the tree. -/
theorem exactPathHoldsTheExactSum : Obligations.ExactPathHoldsTheExactSum := by
  refine ⟨fun xs hxs => ?_, fun a b ha hb => (holds_product ha hb).val⟩
  have h := holds_segment holds_start hxs
  rw [zero_add] at h
  exact ⟨h.finite, h.nan, h.val⟩

/-- Settles O54, clause by clause: the flags by the product of the operands, and what leaves by the flags. -/
theorem accumulatorFlags : Obligations.AccumulatorFlags := by
  refine ⟨fun a x y h => accStep_nan (mulX_nan h), fun a n neg e => ?zero, fun a n neg m e hm => ?inf,
    fun p a b => ⟨rfl, rfl, rfl⟩, fun p a hp => ⟨leave_nan hp, fun hn hpi hni => leave_inf hp hn hpi hni,
      fun hn hpi hni => leave_inf hp hn hpi hni, fun hn hpi hni n m e hv hm => ?value, fun hn hpi hni n e hv => ?zeroLeaves⟩⟩
  case zero =>
    obtain ⟨h, h'⟩ := mulX_inf_zero n neg e
    exact ⟨accStep_nan h, accStep_nan h'⟩
  case inf =>
    obtain ⟨h, h'⟩ := mulX_inf_fin n neg e hm
    rw [accStep_inf h, accStep_inf h']
    cases n <;> cases neg <;> exact ⟨rfl, rfl⟩
  case value => rw [leave_fin hp hn hpi hni hv, if_neg hm]
  case zeroLeaves => rw [leave_fin hp hn hpi hni hv, if_pos rfl]; rfl

end Sys2Proof.Proofs
end

section
/-!
SUPPORT. Scratchpads: what a write of one changes and leaves, the word that an aligned write of eight bytes stores, and what a read
finds (R78, R80, R84, R87, R151).
-/
namespace Sys2Proof.Laws

open Sys2Proof Sys2Proof.Machine Sys2Proof.Claims

/-! ### What scratchpad writes leave -/

/-- From `s` to `t` only the stored words and the written bits of clusters `ks` of die `d` may have changed: every other cluster is as
it was, and of all clusters the marks and the signal counters. -/
structure ScratchOnly (d : Nat) (ks : List Nat) (s t : State) : Prop where
  groups : t.groups = s.groups
  dies : t.dies = s.dies
  others : ∀ d' k', (∀ k ∈ ks, d' * 8192 + k' ≠ d * 8192 + k) → clusterOf t d' k' = clusterOf s d' k'
  mark : ∀ d' k', (clusterOf t d' k').mark = (clusterOf s d' k').mark
  signals : ∀ d' k', (clusterOf t d' k').signals = (clusterOf s d' k').signals

section Frame

variable {d k : Nat} {ks : List Nat} {s t u : State}

theorem ScratchOnly.refl (d : Nat) (ks : List Nat) (s : State) : ScratchOnly d ks s s :=
  ⟨rfl, rfl, fun _ _ _ => rfl, fun _ _ => rfl, fun _ _ => rfl⟩

theorem ScratchOnly.trans (h : ScratchOnly d ks s t) (h' : ScratchOnly d ks t u) : ScratchOnly d ks s u :=
  ⟨h'.groups.trans h.groups, h'.dies.trans h.dies, fun d' k' hn => (h'.others d' k' hn).trans (h.others d' k' hn),
    fun d' k' => (h'.mark d' k').trans (h.mark d' k'), fun d' k' => (h'.signals d' k').trans (h.signals d' k')⟩

/-- A replaced cluster, read anywhere. -/
theorem clusterOf_setCluster_key (s : State) (d k d' k' : Nat) (v : Cluster) :
    clusterOf (setCluster s d k v) d' k' = if d' * 8192 + k' = d * 8192 + k then v else clusterOf s d' k' :=
  smGet_smSet ..

/-- An update of a cluster that keeps its mark and its counters. -/
theorem scratchOnly_modCluster {f : Cluster → Cluster} (hk : k ∈ ks) (hm : ∀ c, (f c).mark = c.mark)
    (hs : ∀ c, (f c).signals = c.signals) : ScratchOnly d ks s (modCluster s d k f) := by
  have hself : ∀ d' k', d' * 8192 + k' = d * 8192 + k → clusterOf s d k = clusterOf s d' k' := fun d' k' h => by
    simp only [clusterOf, h]
  refine ⟨rfl, rfl, fun d' k' hn => ?_, fun d' k' => ?_, fun d' k' => ?_⟩ <;>
    rw [modCluster_eq, clusterOf_setCluster_key]
  · rw [if_neg (hn k hk)]
  · split
    next h => rw [hm, hself d' k' h]
    next => rfl
  · split
    next h => rw [hs, hself d' k' h]
    next => rfl

theorem scratchOnly_setSpWord (hk : k ∈ ks) (a : Nat) (w : SpWord) : ScratchOnly d ks s (setSpWord s d k a w) :=
  scratchOnly_modCluster hk (fun _ => rfl) (fun _ => rfl)

theorem scratchOnly_touchLine (hk : k ∈ ks) (a : Nat) : ScratchOnly d ks s (touchLine s d k a) := by
  unfold touchLine
  split
  · exact .refl d ks s
  · exact (List.foldlRecOn (motive := ScratchOnly d ks s) _ _ (.refl d ks s)
      (fun t ht i _ => ht.trans (scratchOnly_setSpWord hk _ _))).trans
      (scratchOnly_modCluster hk (fun _ => rfl) (fun _ => rfl))

theorem scratchOnly_writeInWord (hk : k ∈ ks) (a : Nat) (bs : List Byte) :
    ScratchOnly d ks s (writeInWord s d k a bs) := by
  unfold writeInWord
  split <;> exact (scratchOnly_touchLine hk a).trans (scratchOnly_setSpWord hk _ _)

theorem ScratchOnly.dieOf_eq (h : ScratchOnly d ks s t) (x : Nat) : dieOf t x = dieOf s x := by
  simp only [dieOf, h.dies]

theorem ScratchOnly.haloHere_eq (h : ScratchOnly d ks s t) (x y : Nat) : haloHere t x y = haloHere s x y := by
  simp only [haloHere, groupOn, signalled, h.groups, h.signals]

end Frame

/-! ### An aligned word of eight bytes (R78, R80) -/

/-- The scratchpad holds word `w` at `a`, written and without an error. -/
def HoldsWord (s : State) (d k a : Nat) (w : W64) : Prop :=
  lineWritten (clusterOf s d k) a = true ∧ spWord (clusterOf s d k) a = { SpWord.dflt with data := w }

section Word

variable {s : State} {d k a : Nat} {bs : List Byte}

theorem spWord_setSpWord (s : State) (d k a : Nat) (w : SpWord) : spWord (clusterOf (setSpWord s d k a w) d k) a = w := by
  simp [setSpWord, modCluster_eq, spWord, smGet_smSet_self]

theorem lineWritten_setSpWord (s : State) (d k a b : Nat) (w : SpWord) :
    lineWritten (clusterOf (setSpWord s d k a w) d k) b = lineWritten (clusterOf s d k) b := by
  simp [setSpWord, modCluster_eq, lineWritten]

theorem lineWritten_touchLine (s : State) (d k a : Nat) : lineWritten (clusterOf (touchLine s d k a) d k) a = true := by
  unfold touchLine
  split
  next h => exact h
  next => simp [modCluster_eq, lineWritten, smGet_smSet_self]

/-- A write of a whole word. -/
theorem holdsWord_writeInWord (hl : bs.length = 8) : HoldsWord (writeInWord s d k a bs) d k a (bytesToBv 64 bs) := by
  unfold writeInWord
  rw [if_pos hl]
  exact ⟨by rw [lineWritten_setSpWord, lineWritten_touchLine], spWord_setSpWord ..⟩

/-- Eight bytes at a word's address are one piece. -/
theorem wordPieces_aligned (ha : a % 8 = 0) (hl : bs.length = 8) : wordPieces bs.length a bs = [(a, bs)] := by
  obtain ⟨b, bs', rfl⟩ := List.exists_cons_of_length_eq_add_one hl
  rw [hl]
  simp [wordPieces, ha, hl, List.take_of_length_le hl.le, List.drop_of_length_le hl.le]

theorem injectWord_none (h : NoClusterInjection s d k) : injectWord s d k a = s := by
  rcases h with h | h <;> simp [injectWord, h]

theorem ScratchOnly.noInjection {ks : List Nat} {t : State} (h : ScratchOnly d ks s t) {x : Nat}
    (hi : NoClusterInjection s d x) : NoClusterInjection t d x := by
  unfold NoClusterInjection
  rwa [h.dieOf_eq]

/-- Eight bytes at a word's address, where no injection is armed, are a write of that word. -/
theorem spStore_aligned (ha : a % 8 = 0) (hl : bs.length = 8) (hi : NoClusterInjection s d k) :
    spStore s d k a bs = writeInWord s d k a bs := by
  have hne : bs.isEmpty = false := by cases bs <;> simp_all
  have hw : ScratchOnly d [k] s (writeInWord s d k a bs) := scratchOnly_writeInWord (List.mem_singleton_self k) a bs
  simp only [spStore, hne, wordPieces_aligned ha hl, List.foldl_cons, List.foldl_nil]
  exact injectWord_none (hw.noInjection hi)

/-! ### Delivery to the members of a bridle (R151) -/

/-- Delivering eight aligned bytes to clusters without an injection changes only their words. -/
theorem deliver_scratchOnly {ks : List Nat} (ha : a % 8 = 0) (hl : bs.length = 8)
    (hi : ∀ x ∈ ks, NoClusterInjection s d x) :
    ScratchOnly d ks s (ks.foldl (fun s m => spStore s d m a bs) s) :=
  List.foldlRecOn (motive := ScratchOnly d ks s) ks _ (.refl d ks s) fun t ht x hx => by
    rw [spStore_aligned ha hl (ht.noInjection (hi x hx))]
    exact ht.trans (scratchOnly_writeInWord hx a bs)

/-- After the delivery each of them holds the word: a later delivery to another cluster leaves it, one to the same stores it again. -/
theorem deliver_holdsWord {ks : List Nat} {m : Nat} (ha : a % 8 = 0) (hl : bs.length = 8)
    (hi : ∀ x ∈ ks, NoClusterInjection s d x) (hm : m ∈ ks ∨ HoldsWord s d m a (bytesToBv 64 bs)) :
    HoldsWord (ks.foldl (fun s m => spStore s d m a bs) s) d m a (bytesToBv 64 bs) := by
  induction ks generalizing s with
  | nil => exact hm.resolve_left (List.not_mem_nil)
  | cons x ks ih =>
    obtain ⟨hx, hks⟩ := List.forall_mem_cons.1 hi
    have hw : ScratchOnly d [x] s (writeInWord s d x a bs) := scratchOnly_writeInWord (List.mem_singleton_self x) a bs
    rw [List.foldl_cons, spStore_aligned ha hl hx]
    refine ih (fun y hy => hw.noInjection (hks y hy)) ?_
    by_cases hmx : m = x
    · exact .inr (hmx ▸ holdsWord_writeInWord hl)
    · refine hm.imp (fun h => (List.mem_cons.1 h).resolve_left hmx) fun h => ?_
      unfold HoldsWord
      rwa [hw.others d m (by simpa using hmx)]

end Word

/-! ### Reads (R80, R84) -/

section Read

variable {s : State} {d k a : Nat}

/-- No bit of a word without an error and without a disturbance is flipped. -/
theorem flipBits_zero : flipBits 0#72 = [] := by
  simp [flipBits, bit]

theorem readWord_unwritten (f : BitVec 72) (h : lineWritten (clusterOf s d k) a = false) :
    readWord s d k a f = (some 0, s) := by
  simp [readWord, h]

/-- Undisturbed, a written word without an error reads as its data. -/
theorem readWord_clean {w : SpWord} (h : lineWritten (clusterOf s d k) a = true) (hw : w = spWord (clusterOf s d k) a)
    (hp : w.poison = false) (hf : w.flips = 0) :
    readWord s d k a 0#72 = (some w.data, setSpWord s d k a { w with flips := 0, injected := false }) := by
  have hr : readStored s d k a 0#72 false = (.data w.data, setSpWord s d k a { w with flips := 0, injected := false }) := by
    simp only [readStored, ← hw, hp, hf, BitVec.xor_self, BitVec.ofNat_eq_ofNat, flipBits_zero]
  simp [readWord, h, hr]

end Read

end Sys2Proof.Laws
end

section
/-!
PROOF. Scratchpad rows (R78, R80, R84, R86, R87, R151, R187).
-/
namespace Sys2Proof.Proofs

open Sys2Proof Sys2Proof.Machine Sys2Proof.Laws Sys2Proof.Claims

theorem present_iff {s : State} {d k : Nat} : present s d k = true ↔ (clusterOf s d k).mark ≠ .mappedOut := by
  simp [present]

section Rows

variable {s : State} {d : DieIx} {k : ClusterIx} {a : BitVec 18}

/-- SP_READ in a present cluster that waits for no halo: what the read of the word gives. -/
theorem exec_spRead_value (user : SpUser) {fl : SpFlips} {w : W64} {t : State} (hp : (clusterOf s d.val k.val).mark ≠ .mappedOut)
    (ha : a.toNat / 8 * 8 < 196608) (hh : haloHere s d.val k.val = true)
    (hr : readWord s d.val k.val (a.toNat / 8 * 8) (flipMask fl) = (some w, t)) :
    exec (.spRead d k a user fl) s = .next (answer t (.value w)) := by
  have hin : ¬ spEnd ≤ a.toNat / 8 * 8 := Nat.not_le.2 ha
  show execSpRead d k a user fl s = _
  simp [execSpRead, present_iff.2 hp, hin, hh, hr]

/-- SP_READ of a member whose halo is still to come. -/
theorem exec_spRead_waits (user : SpUser) (fl : SpFlips) (hp : (clusterOf s d.val k.val).mark ≠ .mappedOut)
    (ha : a.toNat / 8 * 8 < 196608) (hh : haloHere s d.val k.val = false) :
    exec (.spRead d k a user fl) s = .next (answer s .none) := by
  have hin : ¬ spEnd ≤ a.toNat / 8 * 8 := Nat.not_le.2 ha
  show execSpRead d k a user fl s = _
  simp [execSpRead, present_iff.2 hp, hin, hh]

/-- SP_WRITE inside the banks of a present cluster reaches everyone that it is delivered to. -/
theorem exec_spWrite_inside {bs : List Byte} (b : Option Bool) (hp : (clusterOf s d.val k.val).mark ≠ .mappedOut)
    (ha : a.toNat + bs.length ≤ 196608) :
    exec (.spWrite d k a ⟨b, bs⟩) s =
      .next ((deliveredTo s d.val k.val b).foldl (fun s m => spStore s d.val m a.toNat bs) s) := by
  have hin : ¬ spEnd < a.toNat + bs.length := Nat.not_lt.2 ha
  show execSpWrite d k a ⟨b, bs⟩ s = _
  simp [execSpWrite, present_iff.2 hp, hin]

/-- A read after a write, in a cluster that the write is delivered to. -/
theorem spRead_after_spWrite {m : ClusterIx} {bs : List Byte} {b : Option Bool} (user : SpUser)
    (hk : (clusterOf s d.val k.val).mark ≠ .mappedOut) (hm : (clusterOf s d.val m.val).mark ≠ .mappedOut)
    (ha : a.toNat % 8 = 0) (hin : a.toNat + 8 ≤ 196608) (hl : bs.length = 8)
    (hi : ∀ x ∈ deliveredTo s d.val k.val b, NoClusterInjection s d.val x) (hh : haloHere s d.val m.val = true)
    (hmem : m.val ∈ deliveredTo s d.val k.val b) :
    ∃ t r, exec (.spWrite d k a ⟨b, bs⟩) s = .next t ∧ exec (.spRead d m a user .none) t = .next r
      ∧ r.io.answer = .value (bytesToBv 64 bs) := by
  have hs := deliver_scratchOnly ha hl hi
  obtain ⟨hwritten, hword⟩ := deliver_holdsWord ha hl hi (.inl hmem)
  have haddr : a.toNat / 8 * 8 = a.toNat := Nat.div_mul_cancel (Nat.dvd_of_mod_eq_zero ha)
  refine ⟨_, _, exec_spWrite_inside b hk (hl ▸ hin), exec_spRead_value user ?_ (by omega) ((hs.haloHere_eq _ _).trans hh)
    ((congrArg (readWord _ d.val m.val · _) haddr).trans (readWord_clean hwritten hword.symm rfl rfl)), rfl⟩
  rwa [hs.mark]

end Rows

/-- Settles O26: after the delivery every member holds the word, and a read of a word held without an error answers it. -/
theorem scratchpadReadsBackWhatWasWritten : Obligations.ScratchpadReadsBackWhatWasWritten := by
  refine ⟨fun s d k a bs user hk ha hin hl hi hh => ?_, fun s d k m a bs user row hk hm ha hin hl hi hh hmem => ?_⟩
  · refine spRead_after_spWrite user hk hk ha hin hl (fun x hx => ?_) hh (List.mem_singleton_self k.val)
    rwa [List.mem_singleton.1 hx]
  · exact spRead_after_spWrite user hk hm ha hin hl (fun _ _ => .inl hi) hh hmem

/-- SP_SCRUB_READ of an enabled cluster with lines outstanding. -/
theorem exec_spScrubRead_due {s : State} {d : DieIx} {k : ClusterIx} (w : Fin 8) (fl : SpFlips)
    (he : (clusterOf s d.val k.val).mark = .enabled) (hn : (dieOf s d.val).scrubLines ≠ 0)
    (hq : (clusterOf s d.val k.val).scrubbed < (dieOf s d.val).scrubQuota) :
    exec (.spScrubRead d k w fl) s = .next (bumpDie (modCluster
      (scrubWords s d.val k.val (64 * (clusterOf s d.val k.val).scrubLine) w.val (flipMask fl)) d.val k.val
      (fun c => { c with scrubLine := (c.scrubLine + 1) % 3072, scrubbed := c.scrubbed + 1 })) d.val 7 1) := by
  show execSpScrubRead d k w fl s = _
  simp [execSpScrubRead, he, hn, hq]

/-- Settles O27, clause by clause: each read by what the word is, each write by whom it is delivered to. -/
theorem scratchpadReadsComplete : Obligations.ScratchpadReadsComplete := by
  refine ⟨fun s d k a user fl hp ha hh hw => ?unwritten, fun s d k a user w hp ha hh hl hw hpo hf => ?clean,
    fun s d k a user fl hp ha hh => exec_spRead_waits user fl hp ha hh,
    fun s d k w fl he hn hq => exec_spScrubRead_due w fl he hn hq,
    fun s d k a bs hp ha => exec_spWrite_inside none hp ha,
    fun s d k a bs row hp ha => exec_spWrite_inside (some row) hp ha, fun s d k row g b hg hb => ?bridle⟩
  case unwritten => exact exec_spRead_value user hp ha hh (readWord_unwritten _ hw)
  case clean => exact exec_spRead_value user hp ha hh (readWord_clean hl hw hpo hf)
  case bridle => simp only [deliveredTo, hg, Option.elim_some, hb]

end Sys2Proof.Proofs
end

section
/-!
SUPPORT. Set-up of fences and injections, signal counters, and the boundaries of scrub epochs (R83, R86, R87, R105, R256, R263, R265,
R271).
-/
namespace Sys2Proof.Laws

open Sys2Proof Sys2Proof.Machine

/-! ### Set-up writes of HBM and clusters -/

/-- Arming a free injection register stores ARM and the fields of the mask. -/
theorem armWrite_arms {old new mask : W32} {lo : Nat} (ho : bit old 31 = false) (hn : bit new 31 = true)
    (hk : fieldN new lo 2 ≠ 0) : armWrite old new mask lo = some (new &&& (mask ||| BitVec.twoPow 32 31)) := by
  have harm : new &&& BitVec.twoPow 32 31 = BitVec.twoPow 32 31 := (BitVec.and_twoPow ..).trans (if_pos hn)
  simp [armWrite, ho, hn, hk, BitVec.and_or_distrib_left, harm]

/-- GO of HBM_FENCE on a live channel that serves: it is fenced with cause 2 and its record. -/
theorem writeFence_live {s : State} {d ch off v : Nat} (hl : bit (dieOf s d).live ch = true)
    (hf : (chanOf s d ch).fenced = false) :
    writeFence s d ch off v = logEvent (modChan s d ch (fun x => { x with fenced := true })) evChannelFenced d
      (BitVec.ofNat 64 ch) 2 := by
  simp [writeFence, fenceChannel, hl, hf]

/-! ### Signal counters -/

/-- A saturating count of a 32-bit counter. -/
theorem saturate_succ (v : W32) :
    BitVec.ofNat 32 (saturate 32 (v.toNat + 1)) = if v = 0xFFFFFFFF then 0xFFFFFFFF else v + 1 := by
  split
  next h => subst h; rfl
  next h =>
    have hv : v.toNat + 1 ≤ 2 ^ 32 - 1 := by bv_omega
    rw [saturate, min_eq_left hv]
    apply BitVec.eq_of_toNat_eq
    simp

/-! ### Scrub epochs -/

/-- At a boundary of the new setting it comes into force. -/
theorem beginScrubEpoch_new {s : State} {d : Nat} (h : boundaryNow s (fieldN (dieOf s d).scrubCfg 0 5) = true) :
    beginScrubEpoch s d = modDie s d (fun b => { b with
      scrubLines := fieldN b.scrubCfg 8 12, scrubEpoch := fieldN b.scrubCfg 0 5
      scrubQuota := b.scrubQuota + fieldN b.scrubCfg 8 12, scrubBegan := s.time.now }) := by
  simp [beginScrubEpoch, modDie_eq, h]

/-- At any other boundary the setting in force goes on. -/
theorem beginScrubEpoch_kept {s : State} {d : Nat} (h : boundaryNow s (fieldN (dieOf s d).scrubCfg 0 5) = false) :
    beginScrubEpoch s d = modDie s d (fun b => { b with
      scrubQuota := b.scrubQuota + b.scrubLines, scrubBegan := s.time.now }) := by
  simp [beginScrubEpoch, modDie_eq, h]

theorem beginHbmEpoch_new {s : State} {d : Nat} (h : boundaryNow s (fieldN (dieOf s d).hbmScrubCfg 0 5) = true) :
    beginHbmEpoch s d = modDie s d (fun b => { b with
      hbmScrubRate := fieldN b.hbmScrubCfg 8 5, hbmScrubEpoch := fieldN b.hbmScrubCfg 0 5
      hbmScrubQuota := b.hbmScrubQuota + (if fieldN b.hbmScrubCfg 8 5 = 0 then 0 else 2 ^ fieldN b.hbmScrubCfg 8 5)
      hbmScrubBegan := s.time.now }) := by
  simp [beginHbmEpoch, modDie_eq, h]

theorem beginHbmEpoch_kept {s : State} {d : Nat} (h : boundaryNow s (fieldN (dieOf s d).hbmScrubCfg 0 5) = false) :
    beginHbmEpoch s d = modDie s d (fun b => { b with
      hbmScrubQuota := b.hbmScrubQuota + (if b.hbmScrubRate = 0 then 0 else 2 ^ b.hbmScrubRate)
      hbmScrubBegan := s.time.now }) := by
  simp [beginHbmEpoch, modDie_eq, h]

/-- Whatever setting the next epoch takes, the register stays and the quota does not fall. -/
theorem beginHbmEpoch_keeps (s : State) (d : Nat) :
    (dieOf (beginHbmEpoch s d) d).hbmScrubCfg = (dieOf s d).hbmScrubCfg
      ∧ (dieOf s d).hbmScrubQuota ≤ (dieOf (beginHbmEpoch s d) d).hbmScrubQuota := by
  simp [beginHbmEpoch, modDie_eq]

/-- Sectors are outstanding where a serving channel has not reached the quota. -/
theorem sectorsOutstanding_iff {s : State} {d : Nat} : sectorsOutstanding s d = true ↔
    ∃ c < 64, chanServes s d c = true ∧ (chanOf s d c).scrubbed < (dieOf s d).hbmScrubQuota := by
  simp [sectorsOutstanding]

theorem sectorsOutstanding_eq_false_iff {s : State} {d : Nat} : sectorsOutstanding s d = false ↔
    ∀ c < 64, chanServes s d c = true → (dieOf s d).hbmScrubQuota ≤ (chanOf s d c).scrubbed := by
  simp [sectorsOutstanding]

end Sys2Proof.Laws
end

section
/-!
PROOF. Set-up writes of HBM and clusters (R105, R263, R265, R271).
-/
namespace Sys2Proof.Proofs

open Sys2Proof Sys2Proof.Machine Sys2Proof.Laws Sys2Proof.Claims

section Rows

variable {s : State} {d : DieIx}

/-- HBM_FENCE where set-up writes are performed. -/
theorem exec_hbmFence_open (ch : ChanIx) (h : SetupOpen s) :
    exec (.hbmFence d ch) s = .next (writeFence s d.val ch.val (dieRegAt d.val 1 0x18) (ch.val + 2 ^ 31)) :=
  congrArg Host.Outcome.next (setupWrite_open h)

/-- HBM_INJ_ARM of a free register. -/
theorem exec_hbmInjArm_free {v : W32} (h : SetupOpen s) (ho : bit (dieOf s d.val).hbmInj 31 = false)
    (hn : bit v 31 = true) (hk : fieldN v 8 2 ≠ 0) :
    exec (.hbmInjArm d v) s = .next (modDie s d.val (fun b => { b with hbmInj := v &&& 0x8000033F })) := by
  have hw : ∀ off, writeHbmInj s d.val v off = modDie s d.val (fun b => { b with hbmInj := v &&& 0x8000033F }) := fun off => by
    simp only [writeHbmInj, armWrite_arms ho hn hk]
    rfl
  exact congrArg Host.Outcome.next ((setupWrite_open h).trans (hw _))

/-- DIE_CLU_INJ_ARM of a free register. -/
theorem exec_dieCluInjArm_free {v : W32} (h : SetupOpen s) (ho : bit (dieOf s d.val).cluInj 31 = false)
    (hn : bit v 31 = true) (hk : fieldN v 16 2 ≠ 0) :
    exec (.dieCluInjArm d v) s = .next (modDie s d.val (fun b => { b with cluInj := v &&& 0x80031FFF })) := by
  have hw : ∀ off, writeCluInj s d.val v off = modDie s d.val (fun b => { b with cluInj := v &&& 0x80031FFF }) := fun off => by
    simp only [writeCluInj, armWrite_arms ho hn hk]
    rfl
  exact congrArg Host.Outcome.next ((setupWrite_open h).trans (hw _))

end Rows

/-- Settles O24: where set-up writes are performed, each is the write of its register. -/
theorem faultSetupCompletes : Obligations.FaultSetupCompletes := by
  refine ⟨fun s d ch h hl hf => ?_, fun s d h => congrArg Host.Outcome.next (setupWrite_open h),
    fun s d v h ho hn hk => exec_hbmInjArm_free h ho hn hk, fun s d v h ho hn hk => exec_dieCluInjArm_free h ho hn hk⟩
  rw [exec_hbmFence_open ch h, writeFence_live hl hf]

end Sys2Proof.Proofs
end

section
/-!
PROOF. Neighbour accesses and signals (R81 to R83).
-/
namespace Sys2Proof.Proofs

open Sys2Proof Sys2Proof.Machine Sys2Proof.Laws

section Rows

variable {s : State} {d : DieIx} {k : ClusterIx} {dir : Dir} {a : BitVec 18} {n : Nat}

/-- NEIGHBOUR_ACCESS with a write, inside the banks of a neighbour of the group. -/
theorem exec_neighbourAccess_write {bs : List Byte} (h : groupNeighbour s d.val k.val dir = some (some n))
    (ha : a.toNat + bs.length ≤ 196608) :
    exec (.neighbourAccess d k dir a (.write bs)) s = .next (spStore s d.val n a.toNat bs) := by
  have hin : ¬ spEnd < a.toNat + bs.length := Nat.not_lt.2 ha
  show execNeighbourAccess d k dir a (.write bs) s = _
  simp only [execNeighbourAccess, h, hin, if_false]

/-- NEIGHBOUR_ACCESS with a read that finds its bytes. -/
theorem exec_neighbourAccess_read {m : Nat} {bs : List Byte} {t : State}
    (h : groupNeighbour s d.val k.val dir = some (some n)) (ha : a.toNat + m ≤ 196608)
    (hr : spLoad s d.val n a.toNat m = (some bs, t)) :
    exec (.neighbourAccess d k dir a (.read m)) s = .next (answer t (.bytes bs)) := by
  have hin : ¬ spEnd < a.toNat + m := Nat.not_lt.2 ha
  show execNeighbourAccess d k dir a (.read m) s = _
  simp only [execNeighbourAccess, h, hin, if_false, hr]

/-- NEIGHBOUR_SIGNAL toward a neighbour of the group. -/
theorem exec_neighbourSignal_inside (h : groupNeighbour s d.val k.val dir = some (some n)) :
    exec (.neighbourSignal d k dir) s = .next (modCluster s d.val n (fun c => { c with
      signals := smSet 0 c.signals (dirIx (dirOpposite dir))
        (BitVec.ofNat 32 (saturate 32 ((smGet 0 c.signals (dirIx (dirOpposite dir))).toNat + 1))) })) := by
  show execNeighbourSignal d k dir s = _
  simp only [execNeighbourSignal, h]

end Rows

/-- Settles O28: each access inside the group is that of the neighbour, and the count saturates. -/
theorem neighbourRowsComplete : Obligations.NeighbourRowsComplete := by
  refine ⟨fun s d k dir a bs n h ha => exec_neighbourAccess_write h ha,
    fun s d k dir a m n bs t h ha hr => exec_neighbourAccess_read h ha hr, fun s d k dir n h => ?_⟩
  simp only [exec_neighbourSignal_inside h, saturate_succ]

end Sys2Proof.Proofs
end

section
/-!
PROOF. Tile groups and array passes (R80, R90, R93, R94, R148, R152, R187, R394, R406, R411, R495).
-/
namespace Sys2Proof.Proofs

open Sys2Proof Sys2Proof.Machine Sys2Proof.Laws

section Groups

variable {s : State} {d : DieIx} {region : Fin 32} {c : Cmd} {r : DispatchRound} {g : TileGroup}

/-- TILE_GROUP_START of the die's choice, on clusters that the group fits. -/
theorem exec_tileGroupStart_fits {ks : List ClusterIx} (hc : chooseCmd s d.val = some (c, r))
    (hg : readyGroup s c d.val region.val = some g)
    (hf : groupFits s d.val region.val (ks.map Fin.val) c g = true) :
    exec (.tileGroupStart d region ks) s =
      .next (startGroup (setRound s d.val r) d.val region.val (ks.map Fin.val) c g) := by
  show execTileGroupStart d region ks s = _
  simp only [execTileGroupStart, hc, hg, hf, if_true]

/-- A command whose units run on clusters fits where its placement is met. -/
theorem groupFits_clusters {ks : List Nat} {d region : Nat} (hm : moverOp (opcodeOf c.desc) = false)
    (hp : placeOk s d region ks g.placing g.failedOn = true) : groupFits s d region ks c g = true := by
  simp [groupFits, hm, hp]

/-- A command whose units run on the movers takes no cluster. -/
theorem groupFits_mover {d region : Nat} (hm : moverOp (opcodeOf c.desc) = true) : groupFits s d region [] c g = true := by
  simp [groupFits, hm]

/-- TILE_GROUP_END of a group that no halo holds back, after its unit: the command's end where all its units are done, else a tile
boundary of it. -/
theorem exec_tileGroupEnd_unit {i : Nat} {all : Bool} {t : State}
    (hg : s.groups.find? (fun x => x.id == i && x.running && x.waits.all (signalled s x.die)) = some g)
    (hc : findCmd s g.cmd = some c) (hu : (endUnit s g c).run.run s = (.ok all, t)) :
    exec (.tileGroupEnd i) s = .next (if all then finishUnits { t with groups := t.groups.filter (fun x => x.id != i) } c.uid
      else boundaryOf { t with groups := t.groups.filter (fun x => x.id != i) } c.uid) := by
  show execTileGroupEnd i s = _
  simp only [execTileGroupEnd, hg, hc, hu]

/-- TILE_GROUP_END of a group in which a member waits for its halo. -/
theorem exec_tileGroupEnd_waits {i : Nat} (h : ∀ g ∈ s.groups, g.id = i → ∃ w ∈ g.waits, signalled s g.die w = false) :
    exec (.tileGroupEnd i) s = .next s := by
  have hn : s.groups.find? (fun x => x.id == i && x.running && x.waits.all (signalled s x.die)) = none := by
    refine List.find?_eq_none.2 fun g hg hi => ?_
    simp only [Bool.and_eq_true, beq_iff_eq, List.all_eq_true] at hi
    obtain ⟨⟨hid, -⟩, hall⟩ := hi
    obtain ⟨w, hw, hs⟩ := h g hg hid
    exact Bool.false_ne_true (hs ▸ hall w hw)
  show execTileGroupEnd i s = _
  simp only [execTileGroupEnd, hn]

end Groups

section Passes

variable {s : State} {d k : Nat} {p : Pass} {sf wf : Fmt}

/-- ARRAY_PASS in a present cluster, with formats that make its pairing. -/
theorem exec_arrayPass_formats {d : DieIx} {k : ClusterIx} (hs : fmtOf p.streamFmt.toNat = some sf)
    (hw : fmtOf p.stationFmt.toNat = some wf) (hp : pairingOf sf wf = some p.pairing) (h1 : 1 ≤ p.rows) (h2 : p.rows ≤ 65536)
    (hm : (clusterOf s d.val k.val).mark ≠ .mappedOut) (hb : bookOk s d.val k.val p wf = true) :
    exec (.arrayPass d k p) s = .next (runPass s d.val k.val p sf wf) := by
  have hpr : present s d.val k.val = true := present_iff.2 hm
  show execArrayPass d k p s = _
  simp [execArrayPass, hs, hw, hp, h1, h2, hpr, hb]

/-- A pass whose tiles or halo are still to come does not run. -/
theorem runPass_notReady (hi : passInside p sf (tileStore (passBook s d k p) wf) = true)
    (hr : passReady s d k (passTiles p sf (tileStore (passBook s d k p) wf)) = false) : runPass s d k p sf wf = s := by
  simp [runPass, hi, hr]

/-- A pass over the active tile streams its rows. -/
theorem runPass_active {tile : Tile} (hi : passInside p sf (tileStore (passBook s d k p) wf) = true)
    (hr : passReady s d k (passTiles p sf (tileStore (passBook s d k p) wf)) = true) (hl : p.loadTile = false)
    (ht : (clusterOf s d k).tile = some tile) (hp : tile.pairing = p.pairing) (hf : tile.fmt = p.stationFmt) :
    runPass s d k p sf wf = passRows p.rows 0 s d k tile sf p := by
  simp [runPass, hi, hr, hl, ht, hp, hf]

/-- A pass that loads its tile makes it active, compares its check vector, and then streams its rows. -/
theorem runPass_loads {tile : Tile} {t u : State} (hi : passInside p sf (tileStore (passBook s d k p) wf) = true)
    (hr : passReady s d k (passTiles p sf (tileStore (passBook s d k p) wf)) = true) (hl : p.loadTile = true)
    (ht : loadTile s d k p wf = (some tile, t)) (hc : checkTile (swapTile t d k) d k tile p = (true, u)) :
    runPass s d k p sf wf = passRows p.rows 0 u d k tile sf p := by
  simp [runPass, hi, hr, hl, ht, hc]

end Passes

/-- Settles O29, clause by clause: the start by whether the group fits, the end by what its unit answers, and the pass by whether it is
ready and loads its tile. -/
theorem tileGroupRowsComplete : Obligations.TileGroupRowsComplete := by
  refine ⟨fun s d region ks c r g hc hg hm hp => exec_tileGroupStart_fits hc hg (groupFits_clusters hm hp),
    fun s d region c r g hc hg hm => exec_tileGroupStart_fits hc hg (groupFits_mover hm),
    fun s i g c t hg hc hu => exec_tileGroupEnd_unit hg hc hu, fun s i g c t hg hc hu => exec_tileGroupEnd_unit hg hc hu,
    fun s i h => exec_tileGroupEnd_waits h, fun s d k p sf wf store hs hw hp h1 h2 hm hb hstore hi => ?pass⟩
  case pass =>
    subst hstore
    rw [exec_arrayPass_formats hs hw hp h1 h2 hm hb]
    exact ⟨fun hr hl tile ht hpair hf => congrArg Host.Outcome.next (runPass_active hi hr hl ht hpair hf),
      fun hr hl tile t u ht hc => congrArg Host.Outcome.next (runPass_loads hi hr hl ht hc),
      fun hr => congrArg Host.Outcome.next (runPass_notReady hi hr)⟩

end Sys2Proof.Proofs
end

section
/-!
PROOF. Boundaries of health windows and scrub epochs (R86, R87, R101, R256, R270, R420).
-/
namespace Sys2Proof.Proofs

open Sys2Proof Sys2Proof.Machine Sys2Proof.Laws Sys2Proof.Claims

/-- An epoch ends at a boundary of the setting in force or of the new one. -/
theorem epochEnds_iff {s : State} {m n : Nat} {b : Tick} : epochEnds s m n b = true ↔ AtTick s n b ∨ AtTick s m b := by
  simp only [epochEnds, Bool.or_eq_true, atBoundary_iff, or_comm]

section Rows

variable {s : State} {d : DieIx}

/-- SP_SCRUB_EPOCH_END at a boundary with nothing outstanding. -/
theorem exec_spScrubEpochEnd_clean (h : AtTick s (fieldN (dieOf s d.val).scrubCfg 0 5) (dieOf s d.val).scrubBegan
      ∨ AtTick s (dieOf s d.val).scrubEpoch (dieOf s d.val).scrubBegan) (hn : linesOutstanding s d.val = 0) :
    exec (.spScrubEpochEnd d) s = .next (beginScrubEpoch s d.val) := by
  show execSpScrubEpochEnd d s = _
  simp only [execSpScrubEpochEnd, epochEnds_iff.2 h, if_true, if_pos hn]

/-- SP_SCRUB_EPOCH_END at a boundary with lines outstanding: BEHIND and its record come first. -/
theorem exec_spScrubEpochEnd_behind (h : AtTick s (fieldN (dieOf s d.val).scrubCfg 0 5) (dieOf s d.val).scrubBegan
      ∨ AtTick s (dieOf s d.val).scrubEpoch (dieOf s d.val).scrubBegan) (hn : linesOutstanding s d.val ≠ 0) :
    exec (.spScrubEpochEnd d) s = .next (beginScrubEpoch
      (logEvent (modDie s d.val (fun b => { b with scrubCfg := setField b.scrubCfg 24 1 1 })) evScrubBehind d.val
        (BitVec.ofNat 64 (linesOutstanding s d.val)) 0) d.val) := by
  show execSpScrubEpochEnd d s = _
  simp only [execSpScrubEpochEnd, epochEnds_iff.2 h, if_true, if_neg hn]

/-- HBM_SCRUB_EPOCH_END at a boundary: BEHIND is set first where sectors are outstanding. -/
theorem exec_hbmScrubEpochEnd_boundary {b : Bool}
    (h : AtTick s (fieldN (dieOf s d.val).hbmScrubCfg 0 5) (dieOf s d.val).hbmScrubBegan
      ∨ AtTick s (dieOf s d.val).hbmScrubEpoch (dieOf s d.val).hbmScrubBegan) (hb : sectorsOutstanding s d.val = b) :
    exec (.hbmScrubEpochEnd d) s = .next (beginHbmEpoch
      (if b then modDie s d.val (fun b => { b with hbmScrubCfg := setField b.hbmScrubCfg 24 1 1 }) else s) d.val) := by
  show execHbmScrubEpochEnd d s = _
  simp only [execHbmScrubEpochEnd, epochEnds_iff.2 h, if_true, hb]

/-- At any other tick neither epoch ends. -/
theorem exec_spScrubEpochEnd_idle (hnew : ¬ AtTick s (fieldN (dieOf s d.val).scrubCfg 0 5) (dieOf s d.val).scrubBegan)
    (hold : ¬ AtTick s (dieOf s d.val).scrubEpoch (dieOf s d.val).scrubBegan) : exec (.spScrubEpochEnd d) s = .next s :=
  congrArg Host.Outcome.next (if_neg (mt epochEnds_iff.1 (not_or.2 ⟨hnew, hold⟩)))

theorem exec_hbmScrubEpochEnd_idle
    (hnew : ¬ AtTick s (fieldN (dieOf s d.val).hbmScrubCfg 0 5) (dieOf s d.val).hbmScrubBegan)
    (hold : ¬ AtTick s (dieOf s d.val).hbmScrubEpoch (dieOf s d.val).hbmScrubBegan) :
    exec (.hbmScrubEpochEnd d) s = .next s :=
  congrArg Host.Outcome.next (if_neg (mt epochEnds_iff.1 (not_or.2 ⟨hnew, hold⟩)))

end Rows

/-- Settles O30, clause by clause: whether the window or epoch ends, what is outstanding then, and which setting begins. -/
theorem dieBoundariesComplete : Obligations.DieBoundariesComplete := by
  refine ⟨fun s d h => congrArg Host.Outcome.next (if_pos (atBoundary_iff.2 h)),
    fun s d h => congrArg Host.Outcome.next (if_neg (mt atBoundary_iff.1 h)), fun s d h hn => ?linesNew,
    fun s d hnew h hn => ?linesKept, fun s d h hn => exec_spScrubEpochEnd_behind h hn,
    fun s d hnew hold => exec_spScrubEpochEnd_idle hnew hold, fun s d h hn => ?sectorsNew,
    fun s d hnew h hn => ?sectorsKept, fun s d c h hc hserves hq => ?sectorsBehind,
    fun s d hnew hold => exec_hbmScrubEpochEnd_idle hnew hold⟩
  case linesNew => rw [exec_spScrubEpochEnd_clean (.inl h) hn, beginScrubEpoch_new h.1]
  case linesKept => rw [exec_spScrubEpochEnd_clean (.inr h) hn, beginScrubEpoch_kept hnew]
  case sectorsNew =>
    rw [exec_hbmScrubEpochEnd_boundary (.inl h) (sectorsOutstanding_eq_false_iff.2 hn)]
    exact congrArg Host.Outcome.next (beginHbmEpoch_new h.1)
  case sectorsKept =>
    rw [exec_hbmScrubEpochEnd_boundary (.inr h) (sectorsOutstanding_eq_false_iff.2 hn)]
    exact congrArg Host.Outcome.next (beginHbmEpoch_kept hnew)
  case sectorsBehind =>
    obtain ⟨hcfg, hquota⟩ := beginHbmEpoch_keeps
      (modDie s d.val (fun b => { b with hbmScrubCfg := setField b.hbmScrubCfg 24 1 1 })) d.val
    rw [modDie_eq, dieOf_setDie] at hcfg hquota
    refine ⟨_, exec_hbmScrubEpochEnd_boundary h (sectorsOutstanding_iff.2 ⟨c, hc, hserves, hq⟩), ?_, hquota, rfl, rfl⟩
    exact (congrArg (bit · 24) hcfg).trans (by simp [bit_setField_one])

end Sys2Proof.Proofs
end

section
/-!
SUPPORT. Tables: the run of a command that loads one, and the swap of its banks (R135 to R137, R210).
-/
namespace Sys2Proof.Laws

open Sys2Proof Sys2Proof.Machine Sys2Proof.Claims

/-! ### Commands that are never cut -/

/-- A row of a started command that nothing cuts acts on that command, whatever its context lets it do (R406). -/
theorem withRunning_neverCut {s : State} {u : Uid} {op : Nat} {c : Cmd} {f : Cmd → State} (h : Runs s u op c)
    (hop : neverCut op = true) : withRunning s u op f = f c :=
  withRunning_of h (mayRun_of_runs h (.inr (by rw [hop, Bool.or_true])))

/-- A run that goes on leaves the state that it has come to. -/
theorem settleRun_onward {s t : State} {u : Uid} {m : CmdM Bool} (h : m.run.run s = (.ok false, t)) :
    settleRun s u m = t := by
  simp only [settleRun, h]

/-- Without a failed check nothing stops. -/
theorem rejectOn_nil (s : State) : (rejectOn []).run.run s = (.ok (), s) := rfl

/-! ### Writing the shadow bank (R135, R210) -/

section Writes

variable {s t : State} {c : Cmd} {img : List Byte}

/-- TABLE_LOAD whose image is read without a fault writes the free shadow bank, under the image tag 0. -/
theorem runTableLoad_free (hd : c.unitsDone = []) (hf : shadowFree s (cmdPart s c) (loadTableId c.desc) = true)
    (hi : (readImage (ctxOf s c) (loadTableId c.desc) (fieldN c.desc 192 64) (fieldN c.desc 256 32) 24).run.run s
      = (.ok (img, []), t)) :
    runTableLoad s c = modCmd (writeShadow t (cmdPart s c) (loadTableId c.desc) c.uid 0 img) c.uid
      (fun c => { c with unitsDone := [0] }) := by
  have hgo : ¬ (!c.unitsDone.isEmpty || !shadowFree s (cmdPart s c) (loadTableId c.desc)) = true := by simp [hd, hf]
  exact (if_neg hgo).trans (settleRun_onward ((cmd_bind_ok hi).trans (cmd_bind_ok (rejectOn_nil t))))

/-- KV_INDEX at its beginning writes the free shadow bank, under the tag of the current one. -/
theorem runKvIndex_free (hd : c.unitsDone = []) (hf : shadowFree s (cmdPart s c) (indexTableId c.desc) = true)
    (hi : (indexedImage (ctxOf s c)).run.run s = (.ok img, t)) :
    runKvIndex s c = modCmd (writeShadow t (cmdPart s c) (indexTableId c.desc) c.uid
      (tableOf s (cmdPart s c) (indexTableId c.desc)).current.tag img) c.uid (fun c => { c with unitsDone := [0] }) := by
  have hgo : ¬ (!shadowFree s (cmdPart s c) (indexTableId c.desc)) = true := by simp [hf]
  exact (if_pos (List.isEmpty_iff.2 hd)).trans ((if_neg hgo).trans (settleRun_onward (cmd_bind_ok hi)))

/-- KV_INDEX after its swap, once no running command is bound to the retired generation: both banks hold the image, and it ends. -/
theorem runKvIndex_swapped (hd : c.unitsDone ≠ []) (hp : (tableOf s (cmdPart s c) (indexTableId c.desc)).pending = false)
    (hl : (tableOf s (cmdPart s c) (indexTableId c.desc)).loader = some c.uid)
    (hh : shadowHeld s (cmdPart s c) (indexTableId c.desc) = false) :
    runKvIndex s c = doneCmd (modTable s (cmdPart s c) (indexTableId c.desc) (fun tb =>
      { tb with other := ⟨0, tb.current.tag, tb.current.image⟩, loader := none })) c.uid .ok := by
  have hgo : ¬ ((tableOf s (cmdPart s c) (indexTableId c.desc)).pending
      || (tableOf s (cmdPart s c) (indexTableId c.desc)).loader != some c.uid
      || shadowHeld s (cmdPart s c) (indexTableId c.desc)) = true := by simp [hp, hl, hh]
  exact (if_neg (mt List.isEmpty_iff.1 hd)).trans (if_neg hgo)

end Writes

/-! ### Swaps (R136, R137) -/

/-- A partition stands at a tile boundary where no tile group runs on a die of it. -/
theorem atTileBoundary_iff {s : State} {p : Nat} : atTileBoundary s p = true ↔
    ∀ g ∈ s.groups, g.running = true → hasDie (partOf s p).dies g.die = false := by
  simp [atTileBoundary]

section Swaps

variable {s : State} {p t : Nat} {u : Uid} {c : Cmd}

/-- A pending load at a tile boundary: a TABLE_LOAD swaps and ends behind its ring's earlier starts, a KV_INDEX swaps and goes on. -/
theorem tableSwapAt_pending (hl : (tableOf s p t).loader = some u) (hc : findCmd s u = some c) (hs : c.phase = .started)
    (hp : (tableOf s p t).pending = true) (hb : atTileBoundary s p = true) :
    tableSwapAt s p t =
      if opcodeOf c.desc = 0x50 then
        if earlierStarted s c = true then doneCmd (modTable s p t (fun tb => { swapBanks tb with loader := none })) u .ok else s
      else modTable s p t swapBanks := by
  simp [tableSwapAt, hl, hc, hs, hp, hb, findCmd_uid hc]

/-- Off the tile boundary no table of the partition swaps. -/
theorem tableSwapAt_tileRuns (hb : atTileBoundary s p = false) : tableSwapAt s p t = s := by
  simp only [tableSwapAt, hb, Bool.not_false, Bool.or_true, if_true]
  cases (tableOf s p t).loader.bind (findCmd s) <;> rfl

end Swaps

end Sys2Proof.Laws
end

section
/-!
PROOF. Commands that load tables (R135 to R137, R210).
-/
namespace Sys2Proof.Proofs

open Sys2Proof Sys2Proof.Machine Sys2Proof.Laws Sys2Proof.Claims

section Rows

variable {s : State} {u : Uid} {c : Cmd}

/-- TABLE_LOAD of a running command is that command's run. -/
theorem exec_tableLoad_runs (h : Runs s u 0x50 c) : exec (.tableLoad u) s = .next (runTableLoad s c) :=
  congrArg Host.Outcome.next (withRunning_neverCut h rfl)

/-- KV_INDEX of a running command is that command's run. -/
theorem exec_kvIndex_runs (h : Runs s u 0x1B c) : exec (.kvIndex u) s = .next (runKvIndex s c) :=
  congrArg Host.Outcome.next (withRunning_neverCut h rfl)

theorem exec_tableSwap (p : PartIx) (n : Fin 64) : exec (.tableSwap p n) s = .next (tableSwapAt s p.val n.val) := rfl

end Rows

/-- Settles O6, clause by clause: the shadow bank written, KV_INDEX after its swap, and the swap by the command that loads. -/
theorem tableCommandsComplete : Obligations.TableCommandsComplete := by
  refine ⟨fun s u c img t h hd hf hi => ?load, fun s u c img t h hd hf hi => ?index,
    fun s u c h hd hp hl hh => ?indexSwapped, fun s p n u c hl hc hs hp hop he hg => ?swapLoad,
    fun s p n u c hl hc hs hp hop hg => ?swapIndex, fun s p n g hg hr hd => ?tileRuns⟩
  case load =>
    obtain rfl : c.uid = u := findCmd_uid h.1
    rw [exec_tableLoad_runs h, runTableLoad_free hd hf hi]
  case index =>
    obtain rfl : c.uid = u := findCmd_uid h.1
    rw [exec_kvIndex_runs h, runKvIndex_free hd hf hi]
  case indexSwapped =>
    obtain rfl : c.uid = u := findCmd_uid h.1
    rw [exec_kvIndex_runs h, runKvIndex_swapped hd hp hl hh]
  case swapLoad =>
    rw [exec_tableSwap, tableSwapAt_pending hl hc hs hp (atTileBoundary_iff.2 hg), if_pos hop, if_pos he]
    rfl
  case swapIndex =>
    rw [exec_tableSwap, tableSwapAt_pending hl hc hs hp (atTileBoundary_iff.2 hg), if_neg (by rw [hop]; decide)]
    rfl
  case tileRuns =>
    have hb : ¬ atTileBoundary s p.val = true := fun h => Bool.noConfusion (hd.symm.trans (atTileBoundary_iff.1 h g hg hr))
    rw [exec_tableSwap, tableSwapAt_tileRuns (Bool.eq_false_of_not_eq_true hb)]

end Sys2Proof.Proofs
end

section
/-!
SUPPORT. Turns of commands: the decision of a statistic link, a request taken at a boundary, and the start of an issued command
(R167, R311, R373, R382, R387, R406 to R409).
-/
namespace Sys2Proof.Laws

open Sys2Proof Sys2Proof.Machine

/-! ### Statistic links (R167) -/

section Links

variable {s t : State} {p x : Cmd}

/-- The mode says which decision a producer waits for: a DEFERRED one for its link, a TWO_PASS one for its second pass. -/
theorem not_undecided_of_secondDue (h : secondDue p = true) : undecided p = false := by
  simp only [secondDue, Bool.and_eq_true, beq_iff_eq] at h
  obtain ⟨⟨-, hmode⟩, -⟩ := h
  simp [undecided, isDeferred, hmode, modeTwoPass, modeDeferred]

/-- A producer is linked to the next command of its ring where that command has been issued and qualifies; nothing is fetched. -/
theorem decideLink_fits (ho : p.origin = none)
    (hx : s.cmds.find? (fun y => y.ring == p.ring && y.origin.isNone && y.sub == p.sub + 1) = some x)
    (hi : x.phase = .issued) (hm : x.module = p.module) (hl : linkable p.desc x.desc = true) :
    decideLink s p = modCmd (modCmd s x.uid (fun y => { y with link := .producer p.uid p.desc })) p.uid
      (fun y => { y with linkTo := some x.uid }) := by
  simp [decideLink, hx, ho, hi, hm, hl, Option.filter]

/-- A second pass that runs to its end completes its producer, with its record. -/
theorem runSecond_ok (h : (secondPass (ctxOf s p)).run.run s = (.ok (), t)) :
    runSecond s p = doneCmd (logCmd t p.uid evStatTwoPass 0 false 0 0 0 0) p.uid .ok := by
  simp only [runSecond, h]

end Links

/-! ### Held ENCODEs (R345) -/

/-- An ENCODE whose work is done is held until its release tick, where it names one. -/
theorem heldForRelease_iff {c : Cmd} : heldForRelease c = true ↔
    c.worked = true ∧ opcodeOf c.desc = 0x40 ∧ releaseTick c.desc ≠ 0 ∧ c.tickReached = false := by
  simp [heldForRelease, and_assoc]

/-! ### Requests at a boundary (R311, R406, R407, R409) -/

theorem uncut_eq_false {op : Nat} : uncut op = false ↔ codecOp op = false ∧ neverCut op = false := Bool.or_eq_false_iff

/-- A command without a parent is its own root. -/
theorem rootOf_noParent {s : State} {c : Cmd} (h : c.parent = none) : rootOf s c = c := by
  simp [rootOf, h]

/-- Command `u` of a queue is `c`. It has started and stands at a boundary, and none of its graph commands has failed. -/
structure StandsAtCut (s : State) (u : Uid) (c : Cmd) : Prop where
  found : findCmd s u = some c
  started : c.phase = .started
  root : c.parent = none
  cut : atCut s c = true
  kids : ∀ x ∈ kidsOf s u, x.phase = .finished → cmdFailed x = false

section Cuts

variable {s t : State} {u : Uid} {c : Cmd} {a : Nat}

/-- A request that waits for a command is taken at its boundary; an abort also of a command that runs to completion. -/
theorem boundaryOf_cut (h : StandsAtCut s u c) (hop : codecOp (opcodeOf c.desc) = false)
    (hn : c.aborting = true ∨ neverCut (opcodeOf c.desc) = false) (hask : cutAsked s c = true) :
    boundaryOf s u = cutCmd s c := by
  have hnone : (kidsOf s c.uid).find? (fun x => x.phase == .finished && cmdFailed x) = none := by
    refine List.find?_eq_none.2 fun x hx hf => ?_
    obtain ⟨hfin, hfail⟩ := Bool.and_eq_true_iff.1 hf
    exact Bool.false_ne_true ((h.kids x (findCmd_uid h.found ▸ hx) (beq_iff_eq.1 hfin)).symm.trans hfail)
  simp [boundaryOf, h.found, rootOf_noParent h.root, h.started, hop, hn, hask, h.cut, hnone]

theorem cutAsked_of_suspending (h : c.suspending = true) : cutAsked s c = true := by simp [cutAsked, h]

theorem cutAsked_of_evicting (h : c.evicting = true) : cutAsked s c = true := by simp [cutAsked, h]

theorem cutAsked_of_aborting (h : c.aborting = true) : cutAsked s c = true := by simp [cutAsked, h]

/-- An abort comes before every other request. -/
theorem cutCmd_aborting (h : c.aborting = true) :
    cutCmd s c = failMember (dropTree (if c.orphan then logAborted s c.uid else s) c.uid) c .aborted := if_pos h

/-- A command that waits on events is cut without a husk. -/
theorem cutCmd_waitOp (ha : c.aborting = false) (hw : waitOp (opcodeOf c.desc) = true) :
    cutCmd s c = if c.evicting then endEvicted s c 0 false else park s c none := by
  simp [cutCmd, ha, hw]

/-- Any other command is cut with the husk that it has written. -/
theorem cutCmd_husk (ha : c.aborting = false) (hw : waitOp (opcodeOf c.desc) = false)
    (h : (writeHusk (ctxOf s c) c (!c.evicting)).run.run s = (.ok (some a), t)) :
    cutCmd s c = if c.evicting then endEvicted t c a false else park t c (some (BitVec.ofNat 64 a)) := by
  simp only [cutCmd, ha, hw, h, Bool.false_eq_true, if_false]

/-- Without a free husk slot it is evicted with nothing kept, or runs on. -/
theorem cutCmd_noSlot (ha : c.aborting = false) (hw : waitOp (opcodeOf c.desc) = false)
    (h : (writeHusk (ctxOf s c) c (!c.evicting)).run.run s = (.ok none, t)) :
    cutCmd s c = if c.evicting then endEvicted t c 0 true
      else modTree (logCmd t c.uid evNoHuskSlot 0 false 0 0 0 0) c.uid (fun x =>
        { x with suspending := false, runOn := true, coll := { x.coll with yieldAt := none } }) := by
  simp only [cutCmd, ha, hw, h, Bool.false_eq_true, if_false]

end Cuts

/-! ### Start (R312, R373, R382, R393, R408) -/

section Starts

variable {s t : State} {c p : Cmd}

theorem issued_of_mayStart (h : mayStart s c = true) : c.phase = .issued := by
  simp only [mayStart, Bool.and_eq_true, beq_iff_eq] at h
  obtain ⟨⟨⟨⟨⟨⟨hphase, -⟩, -⟩, -⟩, -⟩, -⟩, -⟩ := h
  exact hphase

/-- Only a suspended command resumes. -/
theorem mayResume_of_issued (h : c.phase = .issued) : mayResume s c = false := by
  simp [mayResume, h]

/-- A module that is its own anchor serves its rings. -/
theorem unserved_of_anchor (h : isMember s = false) : unserved s c = false := by
  simp [unserved, h]

/-- Without a link a start leaves what its body leaves. -/
theorem startCmd_unlinked (hl : linkState s c = .none) (h : (startBody c).run.run s = (.ok (), t)) : startCmd s c = t := by
  simp only [startCmd, h, hl]

/-- A linked consumer's start ends its producer. -/
theorem startCmd_linked (hl : linkState s c = .alive p) (h : (startBody c).run.run s = (.ok (), t)) :
    startCmd s c = doneCmd t p.uid .ok := by
  simp only [startCmd, h, hl]

end Starts

end Sys2Proof.Laws
end

section
/-!
PROOF. What happens to commands from outside their own work (R167, R311, R345, R391, R406, R407, R409).
-/
namespace Sys2Proof.Proofs

open Sys2Proof Sys2Proof.Machine Sys2Proof.Laws

section Rows

variable {s : State} {u : Uid} {c p : Cmd}

/-- STAT_LINK_DECISION of a DEFERRED producer is the decision. -/
theorem exec_statLinkDecision_undecided (hp : findCmd s u = some p) (hu : undecided p = true) (hg : goesOn p = true) :
    exec (.statLinkDecision u) s = .next (decideLink s p) := by
  show execStatLinkDecision u s = _
  simp [execStatLinkDecision, hp, hu, hg]

/-- STAT_LINK_DECISION of a producer without a consumer is its second pass. -/
theorem exec_statLinkDecision_secondDue (hp : findCmd s u = some p) (hd : secondDue p = true) (hg : goesOn p = true) :
    exec (.statLinkDecision u) s = .next (runSecond s p) := by
  show execStatLinkDecision u s = _
  simp [execStatLinkDecision, hp, not_undecided_of_secondDue hd, hd, hg]

/-- ENCODE_RELEASE of a held command whose tick is reached. -/
theorem exec_encodeRelease_reached (hc : findCmd s u = some c) (he : c.phase = .ending) (hh : heldForRelease c = true)
    (hr : reached s.time.now (releaseTick c.desc) = true) :
    exec (.encodeRelease u) s = .next (advanceEnd (modCmd s u (fun x => { x with tickReached := true })) u) := by
  show execEncodeRelease u s = _
  simp [execEncodeRelease, hc, he, hh, hr]

/-- HUSK_WRITE of a started command at its boundary takes the request that waits for it. -/
theorem exec_huskWrite_cut (h : StandsAtCut s u c) (hop : codecOp (opcodeOf c.desc) = false)
    (hn : c.aborting = true ∨ neverCut (opcodeOf c.desc) = false) (hask : cutAsked s c = true) :
    exec (.huskWrite u) s = .next (cutCmd s c) := by
  show execHuskWrite u s = _
  simp [execHuskWrite, h.found, h.started, boundaryOf_cut h hop hn hask]

/-- PARTITION_QUIESCE of a quiesced partition. -/
theorem exec_partitionQuiesce_quiesced {p : PartIx} (h : quiesced s p.val = true) :
    exec (.partitionQuiesce p) s = .next (resumeAll (quiesceNow s p.val)) := congrArg Host.Outcome.next (if_pos h)

end Rows

/-- Settles O11, clause by clause: the producer by its mode, the release by its tick, and the cut by the request that waits, the kind of
opcode and whether a husk slot is free. -/
theorem commandTurnsComplete : Obligations.CommandTurnsComplete := by
  refine ⟨fun s u p x hp hu hg ho hx hi hm hl => ?link, fun s u p t hp hd hg hs => ?second,
    fun s u c hc he hw hop hr ht hnow => exec_encodeRelease_reached hc he (heldForRelease_iff.2 ⟨hw, hop, hr, ht⟩) hnow,
    fun s u c hc hs hroot hcut hkids => ?cuts, fun s p h => exec_partitionQuiesce_quiesced h⟩
  case link =>
    obtain rfl : p.uid = u := findCmd_uid hp
    rw [exec_statLinkDecision_undecided hp hu hg, decideLink_fits ho hx hi hm hl]
  case second =>
    obtain rfl : p.uid = u := findCmd_uid hp
    rw [exec_statLinkDecision_secondDue hp hd hg, runSecond_ok hs]
  case cuts =>
    have h : StandsAtCut s u c := ⟨hc, hs, hroot, hcut, hkids⟩
    obtain rfl : c.uid = u := findCmd_uid hc
    refine ⟨fun ha hsus he hun => ?suspend, fun ha he hun => ?evict, fun ha hop => ?abort⟩
    case suspend =>
      obtain ⟨hop, hn⟩ := uncut_eq_false.1 hun
      rw [exec_huskWrite_cut h hop (.inr hn) (cutAsked_of_suspending hsus)]
      refine ⟨fun hw => ?_, fun hw t => ⟨fun a hr => ?_, fun hr => ?_⟩⟩
      · rw [cutCmd_waitOp ha hw, he]; rfl
      · rw [cutCmd_husk ha hw (by rw [he]; exact hr), he]; rfl
      · rw [cutCmd_noSlot ha hw (by rw [he]; exact hr), he]; rfl
    case evict =>
      obtain ⟨hop, hn⟩ := uncut_eq_false.1 hun
      rw [exec_huskWrite_cut h hop (.inr hn) (cutAsked_of_evicting he)]
      refine ⟨fun hw => ?_, fun hw t => ⟨fun a hr => ?_, fun hr => ?_⟩⟩
      · rw [cutCmd_waitOp ha hw, if_pos he]
      · rw [cutCmd_husk ha hw (by rw [he]; exact hr), if_pos he]
      · rw [cutCmd_noSlot ha hw (by rw [he]; exact hr), if_pos he]
    case abort => rw [exec_huskWrite_cut h hop (.inl ha) (cutAsked_of_aborting ha), cutCmd_aborting ha]

end Sys2Proof.Proofs
end

section
/-!
PROOF. The start of issued commands (R167, R312, R382, R387, R393, R408).
-/
namespace Sys2Proof.Proofs

open Sys2Proof Sys2Proof.Machine Sys2Proof.Laws

section Rows

variable {s : State} {u : Uid} {c : Cmd}

/-- COMMAND_START of a suspended command whose context has opened resumes it. -/
theorem exec_commandStart_resumes (hc : findCmd s u = some c) (h : mayResume s c = true) :
    exec (.commandStart u) s = .next (resumeCmd s c) := by
  show execCommandStart u s = _
  simp [execCommandStart, hc, h]

/-- COMMAND_START of a command placed on a member, which nothing holds at the anchor, forwards it. -/
theorem exec_commandStart_forwards (hc : findCmd s u = some c) (hi : c.phase = .issued) (hm : c.module ≠ 0)
    (ho : c.origin = none) (ha : isMember s = false) (hord : heldByOrder s c = false) (hfwd : heldForward s c = false)
    (hh : (partOf s (cmdPart s c)).hold = false) (hf : fencePoint c = true → fenceFailed s c = false) :
    exec (.commandStart u) s = .next (forwardCmd s c) := by
  have hplaced : (c.phase == .issued && c.module != 0 && c.origin.isNone) = true := by
    rw [hi, bne_iff_ne.2 hm, ho]; rfl
  have hfence : (fencePoint c && fenceFailed s c) = false := Bool.and_eq_false_imp.2 hf
  show execCommandStart u s = _
  simp only [execCommandStart, hc, mayResume_of_issued hi, hplaced, unserved_of_anchor ha, hord, hfwd, hh, hfence, Bool.or_self,
    Bool.false_eq_true, if_true, if_false]

/-- COMMAND_START of a command that may start here: its fence is judged first, then its link, and then it starts. -/
theorem exec_commandStart_mayStart (hc : findCmd s u = some c) (h : mayStart s c = true) (hm : c.module = 0 ∨ c.origin ≠ none) :
    exec (.commandStart u) s = .next (
      if fenceFlag c.desc && fenceFailed s c then failCmd s u .dependencyFailed
      else if linkState s c == .broken then failCmd s u .dependencyFailed
      else startCmd s c) := by
  have hhere : ¬ (c.phase == .issued && c.module != 0 && c.origin.isNone) = true := by
    simp only [Bool.and_eq_true, bne_iff_ne, Option.isNone_iff_eq_none]
    exact fun ⟨⟨_, hmod⟩, ho⟩ => hm.elim hmod (· ho)
  show execCommandStart u s = _
  simp only [execCommandStart, hc, mayResume_of_issued (issued_of_mayStart h), hhere, h, Bool.not_true, Bool.false_eq_true, if_false]

/-- Past its fence, and with no broken link, it starts. -/
theorem exec_commandStart_starts (hc : findCmd s u = some c) (h : mayStart s c = true) (hm : c.module = 0 ∨ c.origin ≠ none)
    (hf : fenceFlag c.desc = true → fenceFailed s c = false) (hl : linkState s c ≠ .broken) :
    exec (.commandStart u) s = .next (startCmd s c) := by
  have hfence : (fenceFlag c.desc && fenceFailed s c) = false := Bool.and_eq_false_imp.2 hf
  rw [exec_commandStart_mayStart hc h hm, hfence, beq_false_of_ne hl]
  rfl

end Rows

/-- Settles O15, clause by clause: the start by its link, and its other ends by the fence, the placement and the suspension. -/
theorem issuedCommandsStart : Obligations.IssuedCommandsStart := by
  refine ⟨fun s u c t hc h hm hf hl hb => ?unlinked, fun s u c t p hc h hm hf hl hb => ?linked,
    fun s u c hc h hm hflag hfail => ?fenced,
    fun s u c hc hi hm ho ha hord hfwd hh hf => exec_commandStart_forwards hc hi hm ho ha hord hfwd hh hf,
    fun s u c hc h => exec_commandStart_resumes hc h⟩
  case unlinked =>
    rw [exec_commandStart_starts hc h hm hf (by simp [hl]), startCmd_unlinked hl hb]
  case linked =>
    rw [exec_commandStart_starts hc h hm hf (by simp [hl]), startCmd_linked hl hb]
  case fenced => rw [exec_commandStart_mayStart hc h hm, hflag, hfail]; rfl

end Sys2Proof.Proofs
end

section
/-!
SUPPORT. Members of groups: what a row of a member does, joining when all fingerprints agree, one step, the end at an agreed boundary,
and the boundary that a yield agrees (R214, R215, R221, R322, R328, R331, R333).
-/
namespace Sys2Proof.Laws

open Sys2Proof Sys2Proof.Machine Sys2Proof.Claims

section Members

variable {s t : State} {u : Uid} {op : Nat} {c c' : Cmd} {f : State → Cmd → State}

theorem startedMember_of (h : Member s u op c) : startedMember s u = some c := by
  obtain ⟨hfound, -, hstarted, hgroup⟩ := h
  simp [startedMember, hfound, hstarted, hgroup]

/-! ### Rows of a member (R221, R333) -/

/-- A row of a member hears the news of a failure, if any, and then acts on what the member has become. -/
theorem memberRow_of (h : Member s u op c) {news : Bool} (ht : t = if news then hearFailure s c else s) :
    memberRow s u op news f = (startedMember t u).elim t
      (fun c' => if c'.aborting then endTogether t c' f else if news then t else f t c') := by
  simp only [memberRow, startedMember_of h, Option.filter, h.2.1, beq_self_eq_true, if_true, ← ht]
  cases startedMember t u <;> rfl

/-- Without such news a member that is not to end goes on. -/
theorem memberRow_goesOn (h : Member s u op c) (ha : c.aborting = false) : memberRow s u op false f = f s c := by
  simp [memberRow_of h rfl, startedMember_of h, ha]

/-- A member that is to end with its group goes on to its boundary. -/
theorem memberRow_ending (h : Member s u op c) (ha : c.aborting = true) : memberRow s u op false f = endTogether s c f := by
  simp [memberRow_of h rfl, startedMember_of h, ha]

/-- News that leaves no started member leaves nothing more to do. -/
theorem memberRow_news_gone (h : Member s u op c) (hg : startedMember (hearFailure s c) u = none) :
    memberRow s u op true f = hearFailure s c := by
  simp [memberRow_of h rfl, hg]

/-- After news that makes it end with its group, a member goes on to its boundary in the same row. -/
theorem memberRow_news_ending (h : Member s u op c) (hg : startedMember (hearFailure s c) u = some c') (ha : c'.aborting = true) :
    memberRow s u op true f = endTogether (hearFailure s c) c' f := by
  simp [memberRow_of h rfl, hg, ha]

theorem hearFailure_waiting (h : c.coll.joined = false) : hearFailure s c = failMember (dropGroups s c.uid) c .aborted := by
  simp [hearFailure, h]

theorem hearFailure_joined (h : c.coll.joined = true) :
    hearFailure s c = (c.uid :: otherMembers s c).foldl (endMember (nextCommon s c (otherMembers s c)) true) s := by
  simp [hearFailure, h]

/-- A member that stands at the agreed boundary ends there, without another step. -/
theorem endTogether_atAgreed (h : Member s c.uid op c) (hb : atAgreed c = true) (hg : groupsRunning s c.uid = false) :
    endTogether s c f = failMember (dropGroups s c.uid) c .aborted := by
  obtain ⟨hfound, -, hstarted, -⟩ := h
  simp [endTogether, hb, hfound, hstarted, hg]

/-! ### Joining (R322, R214) -/

/-- Where every rank's fingerprint is known and is the same, and what a husk recorded agrees with it, the members here join. -/
theorem joinGroup_agree {prints : List PeerPrint} {ms : List (Nat × Nat)} {p : List Nat} (hv : groupView s c = some (ms, p))
    (harea : areaInUse s c = false) (hseen : groupPrints s c ms prints = List.replicate ms.length (some p))
    (hagree : ∀ m ∈ ms.filterMap (joinCmd s c), (groupView s m).map Prod.snd = some p ∧ heldMatches m p = true) :
    joinGroup s c prints = (ms.filterMap (joinCmd s c)).foldl
      (joinOne (((ms.filterMap (joinCmd s c)).map Cmd.uid).foldl min c.uid + 1)) s := by
  have hknown : (List.replicate ms.length (some p)).any Option.isNone = false := by simp
  have hall : (List.replicate ms.length (some p)).filterMap id = List.replicate ms.length p := List.filterMap_replicate_of_some rfl
  simp only [joinGroup, hv, hseen, hknown, harea, hall, Bool.or_self, Bool.false_eq_true, if_false]
  refine if_pos (List.all_eq_true.2 fun m hm => ?_)
  obtain ⟨hprint, hheld⟩ := hagree m hm
  obtain ⟨⟨ns, q⟩, hview, rfl⟩ := Option.map_eq_some_iff.1 hprint
  simp [hview, hheld]

/-! ### One step (R215, R328) -/

/-- A step that runs through leaves what it has done; the last one ends the member's command. -/
theorem memberStep_ok {news peers : List Nat} {done : Bool} (hs : stepsOn c = true)
    (hr : (do
        let (p, b) ← collPlan (ctxOf s c) c.die
        rejectOn b
        runCollStep (ctxOf s c) p news peers : CmdM Bool).run.run s = (.ok done, t)) :
    memberStep s c news peers = if done then doneCmd t c.uid .ok else t := by
  simp only [memberStep, hs, Bool.not_true, Bool.false_eq_true, if_false, hr]
  cases done <;> rfl

/-- The same of a ring member that is ready and has no tile group. -/
theorem ringStep_ok {done : Bool} (hs : stepsOn c = true) (hready : ringReady s c = true) (hg : ∀ g ∈ s.groups, g.cmd ≠ c.uid)
    (hr : (runRingStep (ctxOf s c)).run.run s = (.ok done, t)) :
    ringStep s c = if done then doneCmd t c.uid .ok else t := by
  have hnone : s.groups.any (fun g => g.cmd == c.uid) = false := by simpa using hg
  simp only [ringStep, hs, hready, hnone, Bool.not_true, Bool.or_self, Bool.false_eq_true, if_false, hr]
  cases done <;> rfl

/-! ### Yields (R331) -/

section Yields

variable {answers : List Nat}

/-- A ring attention's members need no notices to agree a boundary. -/
theorem askYield_ring (hop : opcodeOf c.desc = 0x18) : askYield s c answers = agreeYield s c (yieldStep s c answers) := by
  simp only [askYield, hop]
  rfl

/-- A collective's boundary is agreed once its notices stand in the scratch headers of the members elsewhere. -/
theorem askYield_collective (hop : opcodeOf c.desc = 0x38)
    (hr : (do
        let (p, _) ← collPlan (ctxOf s c) c.die
        writeNotices (ctxOf s c) p.rank 1 (remoteAreas s p)
        writeNotices (ctxOf s c) p.rank (yieldStep s c answers + 2) (remoteAreas s p) : CmdM Unit).run.run s = (.ok (), t)) :
    askYield s c answers = agreeYield t c (yieldStep s c answers) := by
  simp only [askYield, hop, beq_self_eq_true, if_true, hr]

/-- The boundary of a yield stands one above the largest step of the members here and elsewhere: the fold that finds it is `List.max?`. -/
theorem yieldStep_max (s : State) (c : Cmd) (answers : List Nat) :
    ((c :: localMembers s c).map (fun m => m.coll.step) ++ answers).max? = some (yieldStep s c answers - 1) := rfl

end Yields

end Members

end Sys2Proof.Laws
end

section
/-!
PROOF. Joining, steps, ends and yields of groups (R214, R215, R221, R322, R328, R331, R333).
-/
namespace Sys2Proof.Proofs

open Sys2Proof Sys2Proof.Machine Sys2Proof.Laws Sys2Proof.Claims

section Rows

variable {s : State} {u : Uid} {op : Nat} {c : Cmd}

/-- COLLECTIVE_JOIN of a member that nothing is asked of is the joining of its group. -/
theorem exec_collectiveJoin_waiting {prints : List PeerPrint} (h : Member s u op c) (hj : c.coll.joined = false)
    (ha : c.aborting = false) (hs : c.suspending = false) (he : c.evicting = false) :
    exec (.collectiveJoin u prints) s = .next (joinGroup s c prints) := by
  show execCollectiveJoin u prints s = _
  simp [execCollectiveJoin, startedMember_of h, hj, ha, hs, he]

theorem exec_collectiveStep (u : Uid) (peer : StepPeer) : exec (.collectiveStep u peer) s =
    .next (memberRow s u 0x38 peer.failed (fun s c => memberStep s c (if peer.released then [peer.rank] else []) [peer.rank])) := rfl

theorem exec_collective (u : Uid) (news : Bool) : exec (.collective u news) s =
    .next (memberRow s u 0x38 news (fun s c => if c.aborting || mayRun s c then runCollective s c else s)) := rfl

theorem exec_ringAttendStep (turn : RingTurn) : exec (.ringAttendStep turn) s =
    .next (memberRow s turn.cmd 0x18 turn.peerFailed ringStep) := rfl

/-- COLLECTIVE_YIELD of a joined member that is asked to yield and has agreed no boundary agrees one. -/
theorem exec_collectiveYield_asked {news : YieldNews} (h : Member s u op c) (hj : c.coll.joined = true)
    (hy : c.coll.yieldAt = none) (hask : c.suspending = true ∨ c.evicting = true) :
    exec (.collectiveYield u news) s = .next (askYield s c news.steps) := by
  show execCollectiveYield u news s = _
  simp [execCollectiveYield, startedMember_of h, hj, hy, hask]

/-- COLLECTIVE_YIELD of any other joined member takes the news of those elsewhere: a notice, or a ring attention's boundary. -/
theorem exec_collectiveYield_told {news : YieldNews} (h : Member s u op c) (hj : c.coll.joined = true)
    (hn : (c.suspending = false ∧ c.evicting = false) ∨ c.coll.yieldAt ≠ none) :
    exec (.collectiveYield u news) s = .next (
      if opcodeOf c.desc = 0x38 then serveNotice s c
      else if c.coll.yieldAt.isSome then s
      else news.agreed.elim s (agreeYield s c)) := by
  have hasks : ¬ ((c.suspending || c.evicting) && c.coll.yieldAt.isNone) = true := by
    simp only [Bool.and_eq_true, Bool.or_eq_true, Option.isNone_iff_eq_none]
    rintro ⟨hask, hnone⟩
    obtain ⟨hs, he⟩ | hsome := hn
    · simp [hs, he] at hask
    · exact hsome hnone
  show execCollectiveYield u news s = _
  simp only [execCollectiveYield, startedMember_of h, hj, hasks, Bool.not_true, Bool.false_eq_true, if_false, beq_iff_eq]

end Rows

/-- Settles O10, clause by clause: the join, the two kinds of step, the news of a failure by whether the member has joined, the end at
the boundary, and the yield by who is asked. -/
theorem groupRowsComplete : Obligations.GroupRowsComplete := by
  refine ⟨fun s u c prints ms f hc hs hg hj ha hsus he hv harea hseen hagree => ?join,
    fun s u c peer released t done h ha hs hr => ?step, fun s u c t done h ha hs hready hg hr => ?ringStep,
    fun s u c peer released t ha hj ht hgone => ?newsWaiting, fun s u c c' peer released t ha hj ht hc' ha' => ?newsJoined,
    fun s u c peer released ha hb hg => ?ends, fun s u c answers agreed h hj hy hask => ?yieldRing,
    fun s u c answers agreed t h hj hy hask hr => ?yieldCollective, fun s u c answers agreed hj hn => ?told,
    fun s c answers => ?largest⟩
  case join =>
    rw [exec_collectiveJoin_waiting ⟨hc, rfl, hs, hg⟩ hj ha hsus he, joinGroup_agree hv harea hseen hagree]
  case step =>
    obtain rfl : c.uid = u := findCmd_uid h.1
    rw [exec_collectiveStep, memberRow_goesOn h ha, memberStep_ok hs hr]
  case ringStep =>
    obtain rfl : c.uid = u := findCmd_uid h.1
    rw [exec_ringAttendStep, memberRow_goesOn h ha, ringStep_ok hs hready hg hr]
  case newsWaiting =>
    have hrow {op f} (h : Member s u op c) : memberRow s u op true f = t := by
      obtain rfl : c.uid = u := findCmd_uid h.1
      rw [← hearFailure_waiting hj] at ht
      subst ht
      exact memberRow_news_gone h hgone
    exact ⟨fun h => ⟨congrArg _ (hrow h), congrArg _ (hrow h)⟩, fun h => congrArg _ (hrow h)⟩
  case newsJoined =>
    have hrow {op f} (h : Member s u op c) : memberRow s u op true f = endTogether t c' f := by
      obtain rfl : c.uid = u := findCmd_uid h.1
      rw [← hearFailure_joined hj] at ht
      subst ht
      exact memberRow_news_ending h hc' ha'
    exact ⟨fun h => congrArg _ (hrow h), fun h => congrArg _ (hrow h)⟩
  case ends =>
    have hrow {op f} (h : Member s u op c) : memberRow s u op false f = failMember (dropGroups s u) c .aborted := by
      obtain rfl : c.uid = u := findCmd_uid h.1
      rw [memberRow_ending h ha, endTogether_atAgreed h hb hg]
    exact ⟨fun h => ⟨congrArg _ (hrow h), congrArg _ (hrow h)⟩, fun h => congrArg _ (hrow h)⟩
  case yieldRing =>
    rw [exec_collectiveYield_asked h hj hy hask, askYield_ring h.2.1]
  case yieldCollective =>
    rw [exec_collectiveYield_asked h hj hy hask, askYield_collective h.2.1 hr]
  case told =>
    refine ⟨fun h => ?_, fun h hy b hb => ?_⟩
    · rw [exec_collectiveYield_told h hj hn, if_pos h.2.1]
    · rw [exec_collectiveYield_told h hj hn, if_neg (by rw [h.2.1]; decide), hy, hb]
      rfl
  case largest =>
    obtain ⟨hmem, hle⟩ := List.max?_eq_some_iff.1 (yieldStep_max s c answers)
    exact ⟨fun x hx => Nat.lt_succ_of_le (hle x hx), hmem⟩

end Sys2Proof.Proofs
end

section
/-!
SUPPORT. Commands that do their work in one go: the record of a MODEL_BIND, the steps of a REFINE, and a COLLECTIVE's group (R227 to
R237, R319, R328, R331, R399, R403).
-/
namespace Sys2Proof.Laws

open Sys2Proof Sys2Proof.Machine Sys2Proof.Claims

/-- A run that has performed all its work ends its command. -/
theorem settleRun_done {s t : State} {u : Uid} {m : CmdM Bool} (h : m.run.run s = (.ok true, t)) :
    settleRun s u m = doneCmd t u .ok := by
  simp only [settleRun, h]

/-- Checks that all pass stop nothing. -/
theorem rejectOn_of_nil {bs : List Bad} (h : bs = []) (s : State) : (rejectOn bs).run.run s = (.ok (), s) := by
  rw [h]
  exact rejectOn_nil s

/-- A command whose finished units have been set has those units. -/
theorem unitsDone_of_set {s : State} {u : Uid} {c : Cmd} {l : List Nat}
    (h : findCmd (modCmd s u (fun x => { x with unitsDone := l })) u = some c) : c.unitsDone = l := by
  rw [findCmd_modCmd (f := fun x => { x with unitsDone := l }) (fun _ => rfl)] at h
  obtain ⟨x, -, rfl⟩ := Option.map_eq_some_iff.1 h
  rfl

/-- A running command goes on: nothing waits for its next tile boundary (R406). -/
theorem goesOn_of_runs {s : State} {u : Uid} {op : Nat} {c : Cmd} (h : Runs s u op c) : goesOn c = true := by
  obtain ⟨-, -, hs, hsus, hev, hab, -⟩ := h
  simp [goesOn, hs, hsus, hev, hab]

/-! ### MODEL_BIND (R403) -/

section ModelBind

variable {s t s₁ : State} {u : Uid} {c c' : Cmd} {rec : List Byte} {off : Nat}

/-- A record that passes its checks stands in its slot. -/
theorem installModel_ok (hr : (bindRecord (ctxOf s c)).run.run s = (.ok (rec, off), s₁)) (hk : recordChecks rec off = []) :
    installModel s c = modCmd (setModel s₁ (cmdPart s c) (fieldN c.desc 128 8) rec) c.uid (fun x => { x with unitsDone := [0] }) :=
  settleRun_onward ((cmd_bind_ok hr).trans (cmd_bind_ok (rejectOn_of_nil hk s₁)))

/-- A record in its slot whose references can be made current is bound, and the command ends. -/
theorem bindModel_ok (hm : modelOf s (cmdPart s c) (fieldN c.desc 128 8) = rec) (hne : rec ≠ [])
    (hk : recordChecks rec (if bindInstall c.desc then 24 else 16) = [])
    (hr : (reloadRefs (ctxOf s c) (if bindInstall c.desc then 24 else 16) (tableRefs rec)).run.run s = (.ok (), s₁))
    (hw : (writeBinding (ctxOf s c) (fieldN c.desc 128 8)).run.run s₁ = (.ok (), t)) :
    bindModel s c = doneCmd t c.uid .ok := by
  subst hm
  have hneed : need (!(modelOf s (cmdPart s c) (fieldN c.desc 128 8)).isEmpty) (if bindInstall c.desc then 24 else 16) = [] := by
    simp [need, hne]
  exact settleRun_done ((cmd_bind_ok (rejectOn_of_nil hneed s)).trans ((cmd_bind_ok (rejectOn_of_nil hk s)).trans
    ((cmd_bind_ok hr).trans (cmd_bind_ok hw))))

/-- A MODEL_BIND that installs nothing, or has installed its record, binds. -/
theorem runModelBind_binds (hc : findCmd s u = some c) (hs : c.phase = .started)
    (h : bindInstall c.desc = false ∨ c.unitsDone ≠ []) : runModelBind s c = bindModel s c := by
  obtain rfl : c.uid = u := findCmd_uid hc
  rcases h with h | h <;> simp [runModelBind, hc, hs, h]

/-- A MODEL_BIND that is to install its record does so, and then binds. -/
theorem runModelBind_installs (hi : bindInstall c.desc = true) (hd : c.unitsDone = []) (ht : installModel s c = t)
    (hc : findCmd t c.uid = some c') (hs : c'.phase = .started) (hd' : c'.unitsDone ≠ []) :
    runModelBind s c = bindModel t c' := by
  simp [runModelBind, hi, hd, ht, hc, hs, hd']

end ModelBind

/-! ### Steps of a REFINE (R227 to R237) -/

section Refine

variable {s t : State} {u : Uid} {c c' : Cmd}

/-- A step that has been taken ends a REFINE that has nothing left to do; any other goes on. -/
theorem refineOnce_onward (h : (refineStepM (ctxOf s c) c).run.run s = (.ok .onward, t)) (hc : findCmd t c.uid = some c') :
    refineOnce s c = if c'.refine.phase = .done then (doneRefine t c', false) else (t, true) := by
  simp only [refineOnce, h, hc, beq_iff_eq]

/-- A row takes the step that is next, where that may run and is of the row's kind. -/
theorem refineRow_of (hc : findCmd s u = some c) (hop : opcodeOf c.desc = 0x30) (hg : goesOn c = true)
    (hs : refineStarts s c = true) : refineRow s u (phaseKind c.refine.phase) = (refineOnce s c).1 := by
  simp [refineRow, hc, hop, hg, hs]

/-- No running ticks pass before a step that is no boundary, or that is the first. -/
theorem refineAll_step {n : Nat} {ran : List Nat} (hc : findCmd s u = some c) (hop : opcodeOf c.desc = 0x30) (hg : goesOn c = true)
    (hs : refineStarts s c = true) (hb : c.refine.phase ≠ .ballastBoundary)
    (hfirst : c.refine.phase = .boundary → c.refine.boundary = 0) :
    refineAll (n + 1) s u ran = if (refineOnce s c).2 then refineAll n (refineOnce s c).1 u ran else (refineOnce s c).1 := by
  have hends : (((c.refine.phase == .boundary && decide (1 ≤ c.refine.boundary)) || c.refine.phase == .ballastBoundary)
      && !outstanding s u) = false := by
    by_cases hp : c.refine.phase = .boundary
    · simp [hp, hfirst hp]
    · simp [hp, hb]
  simp only [refineAll, hc, hop, hg, hs, hends, bne_self_eq_false, Bool.not_true, Bool.or_self, Bool.false_eq_true, if_false]

end Refine

/-! ### A COLLECTIVE as a whole (R319, R328, R331) -/

section Collective

variable {s : State} {u : Uid} {op : Nat} {c : Cmd}

/-- A running member of a group that works in no tile groups may run, whatever its context. -/
theorem mayRun_of_group (h : Runs s u op c) (ht : tileOp op = false) (hg : groupCmd c = true) : mayRun s c = true := by
  have hgo : goesOn c = true := goesOn_of_runs h
  obtain ⟨hc, hop, -, -, -, -, hno⟩ := h
  have hnone : s.groups.any (fun g => g.cmd == c.uid) = false := by simpa [findCmd_uid hc] using hno
  simp [mayRun, hgo, hop, hnone, ht, hg]

theorem groupCmd_of_collective (h : opcodeOf c.desc = 0x38) : groupCmd c = true := by
  simp [groupCmd, groupDesc, h]

/-- The model's check that no step has moved a member and no yield waits for it is the statements' `Fresh`. -/
theorem all_fresh_iff {l : List Cmd} : (l.all fun m =>
    m.coll.step == 0 && m.coll.sent.isEmpty && m.coll.yieldAt.isNone && m.coll.paused.isNone) = true ↔ ∀ m ∈ l, Fresh m := by
  simp [Fresh, and_assoc]

variable {p : CollPlan}

/-- A group of this module before its first step reads every SRC before any DST is written. -/
theorem runCollective_whole {vals : List (List W32)} (hp : peekPlan s c = some p) (hj : c.coll.joined = true)
    (hl : allLocal s c = true) (hf : ∀ m ∈ localMembers s c, Fresh m) (hv : gatherValues s c p = some vals) :
    runCollective s c = (localMembers s c).foldl (finishMember vals) s := by
  have hall := all_fresh_iff.2 hf
  simp only [runCollective, hp, hj, hl, hall, hv, Bool.and_self, Bool.not_true, Bool.false_eq_true, if_false, if_true]

/-- Any other group goes on by steps. -/
theorem runCollective_steps (hp : peekPlan s c = some p) (hj : c.coll.joined = true)
    (h : allLocal s c = false ∨ ∃ m ∈ localMembers s c, ¬ Fresh m) :
    runCollective s c = stepRounds p.n ((localMembers s c).map Cmd.uid) (2 * p.steps + 2) s := by
  have hnot : ¬ (allLocal s c = true ∧ ∀ m ∈ localMembers s c, Fresh m) := by
    rintro ⟨hl, hf⟩
    obtain hn | ⟨m, hm, hn⟩ := h
    · exact Bool.false_ne_true (hn.symm.trans hl)
    · exact hn (hf m hm)
  simp only [runCollective, hp, hj, Bool.and_eq_true, all_fresh_iff, hnot, Bool.not_true, Bool.false_eq_true, if_false]

end Collective

end Sys2Proof.Laws
end

section
/-!
PROOF. MODEL_BIND, REFINE and COLLECTIVE (R227 to R237, R319, R328, R331, R399, R403).
-/
namespace Sys2Proof.Proofs

open Sys2Proof Sys2Proof.Machine Sys2Proof.Laws Sys2Proof.Claims

section Rows

variable {s t : State} {u : Uid} {c c' : Cmd}

/-- MODEL_BIND of a running command is that command's run. -/
theorem exec_modelBind_runs (h : Runs s u 0x48 c) : exec (.modelBind u) s = .next (runModelBind s c) :=
  congrArg Host.Outcome.next (withRunning_neverCut h rfl)

/-- MODEL_BIND that installs nothing, or has installed its record, binds. -/
theorem exec_modelBind_binds (h : Runs s u 0x48 c) (hb : bindInstall c.desc = false ∨ c.unitsDone ≠ []) :
    exec (.modelBind u) s = .next (bindModel s c) := by
  rw [exec_modelBind_runs h]
  obtain ⟨hc, -, hs, -⟩ := h
  rw [runModelBind_binds hc hs hb]

/-- REFINE of a running command takes its steps until it ends or has to wait. -/
theorem exec_refine_runs {ran : List Nat} (h : RunsOpen s u 0x30 c) :
    exec (.refine u ran) s = .next (refineAll refineFuel s u ran) :=
  congrArg Host.Outcome.next (withRunning_of h.1 (mayRun_of_runs h.1 (.inl h.2)))

/-- COLLECTIVE of a running command, without news of a failure, is its group's run. -/
theorem exec_collective_runs (h : Runs s u 0x38 c) : exec (.collective u false) s = .next (runCollective s c) := by
  have hg : groupCmd c = true := groupCmd_of_collective h.2.1
  have hrun : mayRun s c = true := mayRun_of_group h rfl hg
  obtain ⟨hc, hop, hs, -, -, hab, -⟩ := h
  rw [exec_collective, memberRow_goesOn ⟨hc, hop, hs, hg⟩ hab, hrun, Bool.or_true, if_pos rfl]

/-- What a row of a REFINE's kind of step leaves, by whether the step leaves anything to do. -/
theorem refineRow_onward (hc : findCmd s u = some c) (hop : opcodeOf c.desc = 0x30) (hg : goesOn c = true)
    (hs : refineStarts s c = true) (h : (refineStepM (ctxOf s c) c).run.run s = (.ok .onward, t)) (hc' : findCmd t u = some c') :
    refineRow s u (phaseKind c.refine.phase) = if c'.refine.phase = .done then doneRefine t c' else t := by
  obtain rfl : c.uid = u := findCmd_uid hc
  rw [refineRow_of hc hop hg hs, refineOnce_onward h hc', apply_ite Prod.fst]

end Rows

/-- Settles O7, clause by clause: the record installed and bound, the one step that ends a REFINE, and a COLLECTIVE by where its
members stand. -/
theorem wholeCommandsComplete : Obligations.WholeCommandsComplete := by
  refine ⟨fun s u c rec off s1 t c' h hi hd hr hk ht h' _ => ?install, fun s u c rec s1 t h hb hm hne hk hr hw => ?bind,
    fun s u c ran h => exec_refine_runs h, fun s u c t c' ran h hb hfirst hs hr hc' hd => ?refine,
    fun s u c p vals h hp hj hf hl hv => ?whole, fun s u c p h hp hj hn => ?steps⟩
  case install =>
    have hbind := exec_modelBind_runs h
    obtain ⟨hc, -⟩ := h
    obtain rfl : c.uid = u := findCmd_uid hc
    have hmade : installModel s c = t := (installModel_ok hr hk).trans ht.symm
    have hdone : c'.unitsDone ≠ [] := by
      obtain ⟨hc', -⟩ := h'
      rw [unitsDone_of_set (ht ▸ hc')]
      exact List.cons_ne_nil 0 []
    rw [hbind, exec_modelBind_binds h' (.inr hdone)]
    obtain ⟨hc', -, hs', -⟩ := h'
    rw [runModelBind_installs hi hd hmade hc' hs' hdone]
  case bind =>
    obtain rfl : c.uid = u := findCmd_uid h.1
    rw [exec_modelBind_binds h hb, bindModel_ok hm hne hk hr hw]
  case refine =>
    obtain ⟨n, hn⟩ : ∃ n, refineFuel = n + 1 := Nat.exists_eq_succ_of_ne_zero (by decide)
    rw [exec_refine_runs h, hn]
    obtain ⟨hruns, -⟩ := h
    have hg : goesOn c = true := goesOn_of_runs hruns
    obtain ⟨hc, hop, -⟩ := hruns
    obtain rfl : c.uid = u := findCmd_uid hc
    have hend : refineOnce s c = (doneRefine t c', false) := by rw [refineOnce_onward hr hc', if_pos hd]
    rw [refineAll_step hc hop hg hs hb hfirst, hend]
    rfl
  case whole => rw [exec_collective_runs h, runCollective_whole hp hj hl hf hv]
  case steps => rw [exec_collective_runs h, runCollective_steps hp hj hn]

/-- Settles O9, for each kind of step: what the step leaves, by whether it leaves anything to do. -/
theorem refineStepsComplete : Obligations.RefineStepsComplete := by
  intro s u c c' t hc hop hg hs hr hc'
  have hrow {kind : RefineKind} (hk : phaseKind c.refine.phase = kind) :
      refineRow s u kind = if c'.refine.phase = .done then doneRefine t c' else t := by
    rw [← hk, refineRow_onward hc hop hg hs hr hc']
  refine ⟨fun hd => ?goesOn, fun hd => ?ends⟩
  case goesOn =>
    simp only [if_neg hd] at hrow
    exact ⟨fun hk => congrArg _ (hrow hk), fun hk => congrArg _ (hrow hk), fun hk => congrArg _ (hrow hk)⟩
  case ends =>
    simp only [if_pos hd] at hrow
    exact ⟨fun hk => congrArg _ (hrow hk), fun hk => congrArg _ (hrow hk)⟩

end Sys2Proof.Proofs
end

section
/-!
SUPPORT. The spool: when a swap is due, and what it leaves (R232, R396, R400).
-/
namespace Sys2Proof.Laws

open Sys2Proof Sys2Proof.Machine

section Spool

variable {s t : State} {u : Uid} {c : Cmd} {bs : List Byte}

/-- SPOOL_LOAD whose image is read without a fault writes the free shadow bank. -/
theorem runSpoolLoad_free (hl : s.spool.loader = none)
    (hr : (readMem (ctxOf s c) tcBulk (fieldN c.desc 128 64) 2112).run.run s = (.ok bs, t)) (hk : spoolChecks bs 16 = []) :
    runSpoolLoad s c =
      { t with spool := { t.spool with shadow := some bs, loader := some c.uid, writtenAt := t.time.now } } := by
  have hgo : ¬ s.spool.loader.isSome = true := by simp [hl]
  exact (if_neg hgo).trans
    (settleRun_onward ((cmd_bind_ok hr).trans (cmd_bind_ok (rejectOn_of_nil hk t))))

/-- Before the first spool a swap is due once the tick that wrote the shadow is over. -/
theorem cycleStart_unloaded (hg : s.spool.gen = 0) (hn : s.time.now ≠ s.spool.writtenAt) : cycleStart s = true := by
  simp [cycleStart, currentSpool, hg, hn]

/-- With a spool in force a swap is due where a cycle of it starts both after the last tick and after the one that wrote the shadow. -/
theorem cycleStart_iff (hg : s.spool.gen ≠ 0) : cycleStart s = true ↔
    (parseSpool s.spool.current).offset s.time.now.toNat < elapsed s.time.now s.time.cameFrom
      ∧ (parseSpool s.spool.current).offset s.time.now.toNat < elapsed s.time.now s.spool.writtenAt := by
  have hspool : currentSpool s = some (parseSpool s.spool.current) := if_neg hg
  simp only [cycleStart, hspool, decide_eq_true_eq, lt_min_iff]

/-- At the tick that wrote the shadow no swap is due. -/
theorem cycleStart_sameTick (h : s.time.now = s.spool.writtenAt) : cycleStart s = false := by
  by_cases hg : s.spool.gen = 0
  · simp [cycleStart, currentSpool, hg, h]
  · refine Bool.eq_false_of_not_eq_true fun hc => ?_
    obtain ⟨-, hlt⟩ := (cycleStart_iff hg).1 hc
    rw [h, elapsed, BitVec.sub_self] at hlt
    exact Nat.not_lt_zero _ hlt

/-- A swap counts the running ticks by the spool that it ends, makes the shadow current and ends the load. -/
theorem swapSpool_loaded (hs : s.spool.shadow = some bs) (hl : s.spool.loader = some u) :
    swapSpool s =
      doneCmd { foldTicks s with spool := ⟨bs, nextGen s.spool.gen, none, none, s.spool.writtenAt⟩ } u .ok := by
  simp only [swapSpool, hs, hl]
  rfl

end Spool

end Sys2Proof.Laws
end

section
/-!
PROOF. SPOOL_LOAD and SPOOL_SWAP (R232, R396, R400).
-/
namespace Sys2Proof.Proofs

open Sys2Proof Sys2Proof.Machine Sys2Proof.Laws Sys2Proof.Claims

section Rows

variable {s : State} {u : Uid} {c : Cmd} {bs : List Byte}

/-- SPOOL_LOAD of a running command is that command's run. -/
theorem exec_spoolLoad_runs (h : Runs s u 0x58 c) : exec (.spoolLoad u) s = .next (runSpoolLoad s c) :=
  congrArg Host.Outcome.next (withRunning_neverCut h rfl)

/-- SPOOL_SWAP where it is due swaps. -/
theorem exec_spoolSwap_due (hd : cycleStart s = true) (hs : s.spool.shadow = some bs) (hl : s.spool.loader = some u) :
    exec .spoolSwap s =
      .next (doneCmd { foldTicks s with spool := ⟨bs, nextGen s.spool.gen, none, none, s.spool.writtenAt⟩ } u .ok) :=
  congrArg Host.Outcome.next ((if_pos hd).trans (swapSpool_loaded hs hl))

/-- SPOOL_SWAP before it is due changes nothing. -/
theorem exec_spoolSwap_early (hd : cycleStart s = false) : exec .spoolSwap s = .next s :=
  congrArg Host.Outcome.next (if_neg (Bool.eq_false_iff.1 hd))

end Rows

/-- Settles O8, clause by clause: the shadow written, and the swap by whether it is due. -/
theorem spoolCommandsComplete : Obligations.SpoolCommandsComplete := by
  refine ⟨fun s u c bs t h hl hr hk => ?load,
    fun s bs u hs hl hg hn => exec_spoolSwap_due (cycleStart_unloaded hg hn) hs hl,
    fun s bs u hs hl hg hcame hwrote => exec_spoolSwap_due ((cycleStart_iff hg).2 ⟨hcame, hwrote⟩) hs hl,
    fun s h => exec_spoolSwap_early (cycleStart_sameTick h)⟩
  case load =>
    obtain rfl : c.uid = u := findCmd_uid h.1
    rw [exec_spoolLoad_runs h, runSpoolLoad_free hl hr hk]

end Sys2Proof.Proofs
end

section
/-!
PROOF. The interleave of R247 is a bijection between window offsets and the bytes of live channels.
-/
namespace Sys2Proof.Proofs

open Sys2Proof Sys2Proof.Machine

section Granules

variable {live : List Nat} {a b c n q q' r i j : Nat}

/-- The slot that R247 gives to the `q`th granule of row `r`, of `n` slots. -/
def rowSlot (n r q : Nat) : Nat := (r * n + q + 9 * r) % n

theorem rowSlot_lt (hn : 0 < n) : rowSlot n r q < n := Nat.mod_lt _ hn

/-- The granules of a row take different slots. -/
theorem rowSlot_inj (hq : q < n) (hq' : q' < n) (h : rowSlot n r q = rowSlot n r q') : q = q' := by
  have hmod : r * n + q ≡ r * n + q' [MOD n] := Nat.ModEq.add_right_cancel' (9 * r) h
  exact (hmod.add_left_cancel' (r * n)).eq_of_lt_of_lt hq hq'

/-- Every slot is taken by a granule of each row. -/
theorem exists_rowSlot_eq (r : Nat) (hi : i < n) : ∃ q < n, rowSlot n r q = i := by
  have hn : 0 < n := Nat.zero_lt_of_lt hi
  have hle : 9 * r ≤ n * (9 * r) := Nat.le_mul_of_pos_left _ hn
  refine ⟨(i + (n * (9 * r) - 9 * r)) % n, Nat.mod_lt _ hn, ?_⟩
  calc (r * n + (i + (n * (9 * r) - 9 * r)) % n + 9 * r) % n
      = (r * n + (i + (n * (9 * r) - 9 * r)) + 9 * r) % n := by simp [Nat.add_mod]
    _ = (i + n * (r + 9 * r)) % n := by congr 1; rw [Nat.mul_add, Nat.mul_comm r n]; omega
    _ = i := by rw [Nat.add_mul_mod_self_left, Nat.mod_eq_of_lt hi]

/-- A granule's number, taken apart into its row and its place there, decides channel and channel offset. -/
theorem interleave_eq (live : List Nat) (a : Nat) : interleave live a =
    (live.getD (rowSlot live.length (a / 2048 / live.length) (a / 2048 % live.length)) 0,
      a / 2048 / live.length * 2048 + a % 2048) := by
  simp only [interleave, rowSlot, Nat.div_add_mod']

/-- The same, from row, place and byte. -/
theorem interleave_granule (hq : q < live.length) (hi : i < 2048) :
    interleave live ((r * live.length + q) * 2048 + i) = (live.getD (rowSlot live.length r q) 0, r * 2048 + i) := by
  have hn : 0 < live.length := Nat.zero_lt_of_lt hq
  have hg : ((r * live.length + q) * 2048 + i) / 2048 = r * live.length + q := by omega
  have hb : ((r * live.length + q) * 2048 + i) % 2048 = i := by omega
  have hrow : (r * live.length + q) / live.length = r := by
    rw [Nat.add_comm, Nat.add_mul_div_right _ _ hn, Nat.div_eq_of_lt hq, Nat.zero_add]
  rw [interleave_eq, hg, hb, hrow, Nat.mul_add_mod', Nat.mod_eq_of_lt hq]

/-- A window offset below the top lies in a row of a channel. -/
theorem row_lt (ha : a < live.length * 2684354560) : a / 2048 / live.length < 1310720 := by
  have : a / 2048 < live.length * 1310720 := by omega
  exact Nat.div_lt_of_lt_mul this

theorem getD_inj (hnd : live.Nodup) (hi : i < live.length) (hj : j < live.length)
    (h : live.getD i 0 = live.getD j 0) : i = j := by
  rw [List.getD_eq_getElem _ _ hi, List.getD_eq_getElem _ _ hj] at h
  exact (hnd.getElem_inj_iff).1 h

theorem getD_mem (hi : i < live.length) : live.getD i 0 ∈ live := by
  rw [List.getD_eq_getElem _ _ hi]
  exact List.getElem_mem hi

/-- Window offsets with one image are one. -/
theorem interleave_inj (hn : 0 < live.length) (hnd : live.Nodup) (h : interleave live a = interleave live b) : a = b := by
  rw [interleave_eq, interleave_eq, Prod.mk.injEq] at h
  obtain ⟨hchan, hoff⟩ := h
  have hrow : a / 2048 / live.length = b / 2048 / live.length := by omega
  have hbyte : a % 2048 = b % 2048 := by omega
  rw [hrow] at hchan
  have hplace := rowSlot_inj (Nat.mod_lt _ hn) (Nat.mod_lt _ hn) (getD_inj hnd (rowSlot_lt hn) (rowSlot_lt hn) hchan)
  have hgran : a / 2048 = b / 2048 := by
    rw [← Nat.div_add_mod (a / 2048) live.length, ← Nat.div_add_mod (b / 2048) live.length, hrow, hplace]
  omega

/-- Each live channel has one granule of every row. -/
theorem exists_granule (hc : c ∈ live) (r : Nat) : ∃ q < live.length, live.getD (rowSlot live.length r q) 0 = c := by
  obtain ⟨i, hi, rfl⟩ := List.getElem_of_mem hc
  obtain ⟨q, hq, hslot⟩ := exists_rowSlot_eq r hi
  exact ⟨q, hq, by rw [hslot, List.getD_eq_getElem _ _ hi]⟩

end Granules

/-- Settles O31, clause by clause: a granule is a row and a place in it, and the places of a row go to the slots one to one. -/
theorem interleaveIsABijection : Obligations.InterleaveIsABijection := by
  intro live hne hnd
  have hn : 0 < live.length := List.length_pos_iff.2 hne
  refine ⟨fun a => ⟨rfl, rfl⟩, fun a ha => ?range, fun a b _ _ h => interleave_inj hn hnd h, fun c hc o ho => ?onto,
    fun a b h => by simp only [interleave_eq, h], fun r c hc => ?row,
    fun s d => ⟨List.pairwise_lt_range.filter _, fun c => by simp [liveList]⟩⟩
  case range =>
    have hrow := row_lt ha
    rw [interleave_eq]
    exact ⟨getD_mem (rowSlot_lt hn), by dsimp only; omega⟩
  case onto =>
    obtain ⟨q, hq, hslot⟩ := exists_granule hc (o / 2048)
    have hrow : o / 2048 * live.length + live.length ≤ 1310720 * live.length := by
      rw [← Nat.succ_mul]
      exact Nat.mul_le_mul_right _ (by omega)
    refine ⟨(o / 2048 * live.length + q) * 2048 + o % 2048, by omega, ?_⟩
    rw [interleave_granule hq (Nat.mod_lt _ (by decide)), hslot, Nat.div_add_mod']
  case row =>
    obtain ⟨q, hq, hslot⟩ := exists_granule hc r
    exact ⟨q, hq, by rw [← Nat.add_zero ((r * live.length + q) * 2048), interleave_granule hq (by decide), hslot]⟩

end Sys2Proof.Proofs
end

section
/-!
SUPPORT. What a register field holds after a field of the register has been replaced.
-/
namespace Sys2Proof.Laws

open Sys2Proof Sys2Proof.Machine

section Fields

variable {n lo w lo' w' : Nat} (x : BitVec n) (v : Nat)

theorem getLsbD_field (i : Nat) : (field x lo w).getLsbD i = (decide (i < w) && x.getLsbD (lo + i)) :=
  BitVec.getLsbD_extractLsb' ..

/-- Every bit of a register after a field of it has been replaced. -/
theorem getLsbD_setField (i : Nat) : (setField x lo w v).getLsbD i =
    if lo ≤ i ∧ i < lo + w then decide (i < n) && v.testBit (i - lo) else x.getLsbD i := by
  rw [setField, BitVec.getLsbD_or, BitVec.getLsbD_and, BitVec.getLsbD_not, BitVec.getLsbD_ofNat, BitVec.getLsbD_ofNat,
    Nat.testBit_mul_two_pow, Nat.testBit_mul_two_pow, Nat.testBit_two_pow_sub_one, Nat.testBit_mod_two_pow]
  by_cases hn : i < n
  · by_cases hlo : lo ≤ i
    · have hw : i - lo < w ↔ i < lo + w := by omega
      by_cases hi : i < lo + w <;> simp [hn, hlo, hw, hi]
    · simp [hn, hlo]
  · simp [hn, BitVec.getLsbD_of_ge x i (Nat.le_of_not_lt hn)]

/-- A replaced field holds the value. -/
theorem field_setField_same (h : lo + w ≤ n) : field (setField x lo w v) lo w = BitVec.ofNat w v := by
  refine BitVec.eq_of_getLsbD_eq fun i hi => ?_
  have hin : lo + i < n := by omega
  rw [getLsbD_field, getLsbD_setField, BitVec.getLsbD_ofNat]
  simp [hi, hin]

/-- A field apart from the replaced one stays. -/
theorem field_setField_apart (h : lo' + w' ≤ lo ∨ lo + w ≤ lo') :
    field (setField x lo w v) lo' w' = field x lo' w' := by
  refine BitVec.eq_of_getLsbD_eq fun i hi => ?_
  have hout : ¬ (lo ≤ lo' + i ∧ lo' + i < lo + w) := by omega
  rw [getLsbD_field, getLsbD_field, getLsbD_setField, if_neg hout]

end Fields

end Sys2Proof.Laws
end

section
/-!
PROOF. The value that an atomic stores, and the sector that a merge or an atomic leaves (R253, R296).
-/
namespace Sys2Proof.Proofs

open Sys2Proof Sys2Proof.Machine Sys2Proof.Laws

/-- An atomic on one word of a sector: the word takes the value of `f`. -/
theorem field_setWord_same (c : BitVec 256) (o : Fin 4) (v : W64) :
    field (setField c (64 * o.val) 64 v.toNat) (64 * o.val) 64 = v := by
  rw [field_setField_same _ _ (by omega), BitVec.ofNat_toNat, BitVec.setWidth_eq]

/-- The other words of the sector stay. -/
theorem field_setWord_ne (c : BitVec 256) {o q : Fin 4} (v : W64) (h : q ≠ o) :
    field (setField c (64 * o.val) 64 v.toNat) (64 * q.val) 64 = field c (64 * q.val) 64 :=
  field_setField_apart _ _ (by omega)

/-- The larger of two unsigned numbers. -/
theorem atomicStore_max_toNat (old x y : W64) : (atomicStore .max old x y).toNat = max old.toNat x.toNat := by
  simp only [atomicStore, max_def_lt]
  split <;> rfl

/-- The merge of the enabled ones of the first `n` bytes. -/
def mergeBytes (m : BitVec 32) (x c : BitVec 256) (n : Nat) : BitVec 256 :=
  (List.range n).foldl (fun y i => if bit m i then setField y (8 * i) 8 (fieldN x (8 * i) 8) else y) c

theorem mergeBytes_succ (m : BitVec 32) (x c : BitVec 256) (n : Nat) : mergeBytes m x c (n + 1) =
    if bit m n then setField (mergeBytes m x c n) (8 * n) 8 (fieldN x (8 * n) 8) else mergeBytes m x c n := by
  simp [mergeBytes, List.range_succ]

/-- Each enabled byte below `n` is that of the data, and every other byte stays. -/
theorem field_mergeBytes (m : BitVec 32) (x c : BitVec 256) {n i : Nat} (hn : n ≤ 32) (hi : i < 32) :
    field (mergeBytes m x c n) (8 * i) 8 = if i < n ∧ bit m i = true then field x (8 * i) 8 else field c (8 * i) 8 := by
  induction n with
  | zero => rfl
  | succ n ih =>
    have ih := ih (by omega)
    rw [mergeBytes_succ]
    obtain rfl | hne := eq_or_ne i n
    · by_cases hb : bit m i = true
      · simp [hb, field_setField_same _ _ (show 8 * i + 8 ≤ 256 by omega), fieldN]
      · simpa [hb] using ih
    · have hlt : i < n + 1 ↔ i < n := by omega
      simp only [hlt, ← ih]
      split
      · exact field_setField_apart _ _ (by omega)
      · rfl

/-- Settles O33: the value of each atomic, the word of the sector that takes it, and the bytes that a merge enables. -/
theorem atomicsStoreTheirValue : Obligations.AtomicsStoreTheirValue := by
  refine ⟨fun old x y => ⟨BitVec.toNat_add .., atomicStore_max_toNat .., fun h => if_pos h, fun h => if_neg h⟩,
    fun o x y c q => ⟨fun h => ⟨field_setWord_ne c _ h, field_setWord_ne c _ h, field_setWord_ne c _ h⟩,
      field_setWord_same .., ?_, field_setWord_same ..⟩,
    fun m x c i => ?_⟩
  · exact (congrArg BitVec.toNat (field_setWord_same ..)).trans (atomicStore_max_toNat ..)
  · exact (field_mergeBytes m x c le_rfl i.isLt).trans (by simp [i.isLt])

end Sys2Proof.Proofs
end

section
/-!
SUPPORT. What the operations on records leave: the queue, HBM, the commands and the dies as they were, and host memory in canonical
form (R430 to R438, R444, R445).
-/
namespace Sys2Proof.Laws

open Sys2Proof Sys2Proof.Machine

/-- Bytes that are canonical where the host memory of `s` is. -/
def KeepsHost (s : State) (m : SMap Byte) : Prop := smWf 0 s.host = true → smWf 0 m = true

/-- The state `t` has the queue, HBM, commands and dies of `s`, and its host memory is canonical where that of `s` is. -/
def Logged (s t : State) : Prop :=
  t.pending = s.pending ∧ t.hbm = s.hbm ∧ t.cmds = s.cmds ∧ t.dies = s.dies ∧ KeepsHost s t.host

section Records

variable {s t : State}

theorem logged_refl : Logged s s := ⟨rfl, rfl, rfl, rfl, id⟩

theorem logged_trans {r : State} (h : Logged s t) (h' : Logged t r) : Logged s r := by
  grind [Logged, KeepsHost]

/-- A sequence of logging steps logs. -/
theorem logged_foldl {α : Type} {xs : List α} {f : State → α → State} (hf : ∀ s x, Logged s (f s x)) :
    Logged s (xs.foldl f s) := by
  induction xs generalizing s with
  | nil => exact logged_refl
  | cons x xs ih => exact logged_trans (hf s x) ih

theorem logged_hostWrite {a bs} : Logged s (hostWrite s a bs) :=
  ⟨rfl, rfl, rfl, rfl, fun w => hostWrite_wf w a bs⟩

theorem logged_sendMsix {fn vec} : Logged s (sendMsix s fn vec) := by
  unfold sendMsix
  split <;> exact logged_refl

theorem logged_modPort {p f} : Logged s (modPort s p f) := logged_refl

theorem logged_txPush {p k} : Logged s (txPush s p k) := logged_modPort

theorem logged_sendKeyed {kind dst tag addr key data} (ht : sendKeyed s kind dst tag addr key data = some t) :
    Logged s t := by
  obtain ⟨p, -, rfl⟩ := Option.map_eq_some_iff.1 ht
  exact logged_txPush

theorem logged_sendMsg {kind dst tag addr data} (ht : sendMsg s kind dst tag addr data = some t) : Logged s t :=
  logged_sendKeyed ht

theorem logged_queueHistory {w} : Logged s (queueHistory s w) := by
  unfold queueHistory
  dsimp only
  split
  · split <;> exact logged_refl
  · exact logged_refl

theorem logged_errReadHead : Logged s (errReadHead s) := by
  unfold errReadHead
  dsimp only
  split <;> exact logged_refl

theorem logged_errPut {r} : Logged s (errPut s r) := by
  grind [errPut, Logged, KeepsHost, logged_hostWrite, logged_sendMsix]

theorem logged_countDrop {r} : Logged s (countDrop s r) := logged_refl

theorem logged_errPutHeld {rs} : Logged s (errPutHeld rs s) := by
  induction rs generalizing s with
  | nil => exact logged_refl
  | cons r rs ih => grind [errPutHeld, Logged, KeepsHost, logged_errPut]

theorem logged_errFlush : Logged s (errFlush s) := by
  grind [errFlush, Logged, KeepsHost, logged_errPutHeld, logged_errPut]

theorem logged_errPrepare {fatal} : Logged s (errPrepare s fatal) := by
  grind [errPrepare, Logged, KeepsHost, logged_errFlush, logged_errReadHead]

theorem logged_errSubmit {r} : Logged s (errSubmit s r) := by
  grind [errSubmit, Logged, KeepsHost, logged_errPut, logged_countDrop]

theorem logged_flushRecords {rs} : Logged s (flushRecords rs s) := by
  induction rs generalizing s with
  | nil => exact logged_errFlush
  | cons r rs ih => grind [flushRecords, Logged, KeepsHost, logged_errReadHead, logged_errPutHeld, logged_errSubmit]

theorem logged_flushBuffer : Logged s (flushBuffer s) := by
  grind [flushBuffer, Logged, KeepsHost, logged_flushRecords]

theorem logged_errBuffer {r} : Logged s (errBuffer s r) := by
  grind [errBuffer, Logged, KeepsHost, logged_countDrop]

theorem logged_sendRecords {rs} : Logged s (sendRecords rs s) := by
  induction rs generalizing s with
  | nil => exact logged_refl
  | cons r rs ih =>
    unfold sendRecords
    split
    next ht => exact logged_trans (logged_sendMsg ht) ih
    next => exact logged_refl

theorem logged_memberFlush : Logged s (memberFlush s) := by
  grind [memberFlush, Logged, KeepsHost, logged_sendRecords]

theorem logged_createRecord {r copy} : Logged s (createRecord s r copy) := by
  grind [createRecord, Logged, KeepsHost, logged_errPrepare, logged_queueHistory, logged_errBuffer, logged_errSubmit, logged_memberFlush]

theorem logged_endCoalWindow : Logged s (endCoalWindow s) :=
  logged_foldl (s := { s with err := _ }) fun s t => by split <;> [exact logged_refl; exact logged_createRecord]

theorem logged_leaveCoalWindow : Logged s (leaveCoalWindow s) := by
  grind [leaveCoalWindow, Logged, KeepsHost, logged_endCoalWindow]

theorem logged_occurInWindow {r copy} : Logged s (occurInWindow s r copy) := by
  grind [occurInWindow, Logged, KeepsHost, logged_createRecord]

theorem logged_occur {r copy} : Logged s (occur s r copy) := by
  grind [occur, Logged, KeepsHost, logged_createRecord, logged_occurInWindow, logged_leaveCoalWindow]

theorem logged_logEvent {ev die d0 d1} : Logged s (logEvent s ev die d0 d1) := logged_occur

theorem logged_logIgnored {offset value} : Logged s (logIgnored s offset value) := logged_logEvent

end Records

/-! ### Health of HBM rows and channels (R263, R267) -/

section Health

variable {s : State}

theorem logged_modChan {d c f} : Logged s (modChan s d c f) := logged_refl

theorem logged_fenceChannel {d c cause} : Logged s (fenceChannel s d c cause) := by
  grind [fenceChannel, Logged, KeepsHost, logged_logEvent, logged_modChan]

theorem logged_listRow {d c row} : Logged s (listRow s d c row) := by
  grind [listRow, Logged, KeepsHost, logged_queueHistory]

theorem logged_markFaulty {d c row} : Logged s (markFaulty s d c row) := by
  grind [markFaulty, Logged, KeepsHost, logged_modChan, logged_listRow]

end Health

end Sys2Proof.Laws
end

section
/-!
SUPPORT. Reads and writes of stored sectors, by what decoding finds (R248 to R250, R263, R272).
-/
namespace Sys2Proof.Laws

open Sys2Proof Sys2Proof.Machine Sys2Proof.Claims

section Sectors

variable {s t : State} {u : Option Uid} {d c i : Nat} {dmg : List (Fin 36 × Byte)}

/-! ### Counters of a die (R272) -/

@[simp] theorem hbmCounters_bumpHbm (k : Nat) :
    (dieOf (bumpHbm s d k) d).hbmCounters = bump (dieOf s d).hbmCounters k 1 := by
  rw [bumpHbm, modDie_eq, dieOf_setDie]

@[simp] theorem hbmCounters_activate : (dieOf (activate s d c i) d).hbmCounters = (dieOf s d).hbmCounters := by
  rw [activate, modDie_eq, dieOf_setDie]

/-- Where only records follow, the dies read as before. -/
theorem dieOf_logged (h : Logged s t) (d : Nat) : dieOf t d = dieOf s d := by
  obtain ⟨-, -, -, hdies, -⟩ := h
  rw [dieOf, hdies, dieOf]

/-- A corrected read is counted; what else it does is on record. -/
theorem logged_countCe {injected counts : Bool} : Logged (bumpHbm s d 0) (countCe s d c i injected counts) := by
  grind [countCe, Logged, KeepsHost, logged_modChan, logged_markFaulty]

/-- An uncorrectable read is counted; what else it does is on record. -/
theorem logged_countUe {injected : Bool} : Logged (bumpHbm s d 1) (countUe s d c i injected) := by
  grind [countUe, Logged, KeepsHost, logged_modChan, logged_markFaulty, logged_fenceChannel]

/-! ### Reads of a channel's sector (R249, R250) -/

theorem readChan_clean (h : decodeSector (degLane (chanOf s d c) i) (sectorOf s d c i) dmg = .clean) :
    readChan s u d c i dmg = (some (field (damaged (sectorOf s d c i).code dmg) 0 256), activate s d c i) := by
  have h' : decodeSector (degLane (chanOf (activate s d c i) d c) i) (sectorOf (activate s d c i) d c i) dmg = .clean := h
  simp only [readChan, h']
  rfl

theorem readChan_corrected {cw : BitVec 288} {ps : List Nat}
    (h : decodeSector (degLane (chanOf s d c) i) (sectorOf s d c i) dmg = .corrected cw ps) :
    ∃ t, readChan s u d c i dmg = (some (field cw 0 256), t) ∧ Logged (bumpHbm (activate s d c i) d 0) t := by
  have h' : decodeSector (degLane (chanOf (activate s d c i) d c) i) (sectorOf (activate s d c i) d c i) dmg =
    .corrected cw ps := h
  simp only [readChan, h']
  exact ⟨_, rfl, logged_trans logged_countCe logged_occur⟩

theorem readChan_uncorrectable (h : decodeSector (degLane (chanOf s d c) i) (sectorOf s d c i) dmg = .uncorrectable) :
    ∃ t, readChan s none d c i dmg = (none, t) ∧
      Logged (bumpHbm (setSector (activate s d c i) d c i { sectorOf s d c i with lost := true }) d 1) t := by
  have h' : decodeSector (degLane (chanOf (activate s d c i) d c) i) (sectorOf (activate s d c i) d c i) dmg =
    .uncorrectable := h
  simp only [readChan, h']
  exact ⟨_, rfl, logged_trans logged_countUe logged_occur⟩

/-! ### Writes of a channel's sector (R248, R271) -/

/-- Without an injection armed for the channel the sector is stored with its check symbols. -/
theorem storeChan_free {x : BitVec 256} (h : NoHbmInjection s d c) :
    storeChan s d c i x = setSector (activate s d c i) d c i ⟨rsEncode x, false, false⟩ := by
  have hinj : (dieOf (activate s d c i) d).hbmInj = (dieOf s d).hbmInj := by rw [activate, modDie_eq, dieOf_setDie]
  have hfree : ¬ (bit (dieOf s d).hbmInj 31 && fieldN (dieOf s d).hbmInj 0 6 == c) = true := by
    rcases h with h | h <;> simp [h]
  simp only [storeChan, hinj, if_neg hfree]

/-- A store changes its sector, and of the rest the dies only: their open rows, and the armed injection that it takes. -/
theorem storeChan_eq (s : State) (d c i : Nat) (x : BitVec 256) :
    ∃ dies v, storeChan s d c i x = setSector { s with dies := dies } d c i v := by
  unfold storeChan
  dsimp only
  split
  · exact ⟨_, _, rfl⟩
  · exact ⟨_, _, rfl⟩

/-- An answer to the host after a store. -/
theorem answer_storeChan (s : State) (d c i : Nat) (x : BitVec 256) (a : Answer) :
    answer (storeChan s d c i x) a = { storeChan s d c i x with io := { s.io with answer := a } } := by
  obtain ⟨dies, v, hstore⟩ := storeChan_eq s d c i x
  rw [hstore]
  rfl

end Sectors

/-! ### Accesses by window offset (R246, R263) -/

section Window

variable {s t : State} {u : Option Uid} {d off : Nat} {dmg : List (Fin 36 × Byte)}

theorem aboveTopAt_served (h : SectorServed s d off) : aboveTopAt s d off 32 = false := by
  obtain ⟨htop, -⟩ := h
  simp [aboveTopAt, Nat.not_lt.2 htop]

theorem aboveTopAt_refused (h : dieRefuses s d = true ∨ off + 32 ≤ topOf s d) : aboveTopAt s d off 32 = false := by
  rcases h with h | h
  · simp [aboveTopAt, h]
  · simp [aboveTopAt, Nat.not_lt.2 h]

theorem readSector_served {x : Option (BitVec 256)} (h : offlineAt s d off = false)
    (hr : readChan s u d (chanAt s d off) (sectorAt s d off) dmg = (x, t)) :
    readSector s u d off dmg = (x.elim (.error .uncorrectable) .ok, t) := by
  have hr' : readChan s u d (interleave (liveList s d) off).1 ((interleave (liveList s d) off).2 / 32) dmg = (x, t) := hr
  simp only [readSector, h, hr']
  cases x <;> rfl

theorem writeSector_served (h : offlineAt s d off = false) (x : BitVec 256) :
    writeSector s d off x = (.ok (), storeChan s d (chanAt s d off) (sectorAt s d off) x) := by
  simp only [writeSector, h]
  rfl

theorem readSector_offline (h : offlineAt s d off = true) : readSector s u d off dmg = (.error .offline, bumpHbm s d 2) := by
  simp only [readSector, h, if_true]

theorem writeSector_offline (h : offlineAt s d off = true) (x : BitVec 256) :
    writeSector s d off x = (.error .offline, bumpHbm s d 2) := by
  simp only [writeSector, h, if_true]

/-- Opening a row changes neither the channels in service nor what refuses accesses. -/
theorem liveList_activate (c i : Nat) : liveList (activate s d c i) d = liveList s d := by
  simp [liveList, activate, modDie_eq]

theorem offlineAt_activate (c i : Nat) : offlineAt (activate s d c i) d off = offlineAt s d off := by
  rw [offlineAt, liveList_activate]
  rfl

/-- A clean read and the write of what is made of it (R253). -/
theorem rmwSector_clean {f : BitVec 256 → BitVec 256} (h : offlineAt s d off = false)
    (hc : decodeSector (laneAt s d off) (storedAt s d off) dmg = .clean) :
    rmwSector s u d off f dmg = (.ok (field (damaged (storedAt s d off).code dmg) 0 256),
      storeChan (openedAt s d off) d (chanAt s d off) (sectorAt s d off)
        (f (field (damaged (storedAt s d off).code dmg) 0 256))) := by
  have hread : readSector s u d off dmg = (.ok (field (damaged (storedAt s d off).code dmg) 0 256), openedAt s d off) :=
    readSector_served h (readChan_clean hc)
  have hserved : offlineAt (openedAt s d off) d off = false := (offlineAt_activate _ _).trans h
  have hchan : chanAt (openedAt s d off) d off = chanAt s d off := by rw [chanAt, openedAt, liveList_activate, chanAt]
  have hsector : sectorAt (openedAt s d off) d off = sectorAt s d off := by
    rw [sectorAt, openedAt, liveList_activate, sectorAt]
  simp only [rmwSector, hread, writeSector_served hserved, hchan, hsector]

/-- A read that fails ends the merge. -/
theorem rmwSector_error {f : BitVec 256 → BitVec 256} {e : HbmStop} (h : readSector s u d off dmg = (.error e, t)) :
    rmwSector s u d off f dmg = (.error e, t) := by
  simp only [rmwSector, h]

end Window

end Sys2Proof.Laws
end

section
/-!
PROOF. HBM_READ, HBM_WRITE and HBM_RMW of one sector (R248 to R253, R263, R272, R441).
-/
namespace Sys2Proof.Proofs

open Sys2Proof Sys2Proof.Machine Sys2Proof.Laws Sys2Proof.Claims

section Rows

variable {s t : State} {d : DieIx} {off : BitVec 38} {c : Option Uid} {dmg : BurstDamage}

/-- An aligned offset is its sector's. -/
theorem sector_offset (h : off.toNat % 32 = 0) : off.toNat / 32 * 32 = off.toNat :=
  Nat.div_mul_cancel (Nat.dvd_of_mod_eq_zero h)

/-- HBM_READ of an offset that the die does not hold above its top, by what the read of the sector answers. -/
theorem exec_hbmRead_below {r : Except HbmStop (BitVec 256)} (ha : off.toNat % 32 = 0)
    (ht : aboveTopAt s d.val off.toNat 32 = false) (hr : readSector s c d.val off.toNat dmg = (r, t)) :
    exec (.hbmRead d off c dmg) s = .next (match r with
      | .ok x => answer t (.bytes (bvToBytes 32 x))
      | .error e => answer (accessFailed t c off.toNat e) .none) := by
  show execHbmRead d off c dmg s = _
  simp only [execHbmRead, sector_offset ha, ht, hr]
  cases r <;> rfl

/-- HBM_RMW, in the same way. -/
theorem exec_hbmRmw_below {r : Except HbmStop (BitVec 256)} {op : RmwOp} (ha : off.toNat % 32 = 0)
    (ht : aboveTopAt s d.val off.toNat 32 = false) (hr : rmwSector s c d.val off.toNat (rmwValue op) dmg = (r, t)) :
    exec (.hbmRmw d off op c dmg) s = .next (match r with
      | .ok x => answer t (.bytes (bvToBytes 32 x))
      | .error e => answer (accessFailed t c off.toNat e) .none) := by
  show execHbmRmw d off op c dmg s = _
  simp only [execHbmRmw, sector_offset ha, ht, hr]
  cases r <;> rfl

theorem exec_hbmWrite_below {x : BitVec 256} (ha : off.toNat % 32 = 0) (ht : aboveTopAt s d.val off.toNat 32 = false) :
    exec (.hbmWrite d off x) s = .next (writeSector s d.val off.toNat x).2 := by
  show execHbmWrite d off x s = _
  simp only [execHbmWrite, sector_offset ha, ht]
  rfl

/-- A read of a served sector that is uncorrectable. -/
theorem readSector_uncorrectable (h : SectorServed s d.val off.toNat)
    (hu : decodeSector (laneAt s d.val off.toNat) (storedAt s d.val off.toNat) dmg = .uncorrectable) :
    ∃ t, readSector s none d.val off.toNat dmg = (.error .uncorrectable, t)
      ∧ t.hbm = (setSector s d.val (chanAt s d.val off.toNat) (sectorAt s d.val off.toNat)
        { storedAt s d.val off.toNat with lost := true }).hbm
      ∧ (dieOf t d.val).hbmCounters = bump (dieOf s d.val).hbmCounters 1 1 := by
  obtain ⟨t, hread, hlog⟩ := readChan_uncorrectable hu
  obtain ⟨-, hhbm, -⟩ := id hlog
  refine ⟨t, readSector_served h.2 hread, hhbm, ?_⟩
  rw [dieOf_logged hlog, hbmCounters_bumpHbm, dieOf_setSector, hbmCounters_activate]

end Rows

/-- Settles O32, clause by clause: each access by whether it is served, and a served one by what the read of its sector finds. -/
theorem hbmAccessesComplete : Obligations.HbmAccessesComplete := by
  refine ⟨fun s d off c dmg ha hs hc => ?clean, fun s d off c dmg cw ps ha hs hc => ?corrected,
    fun s d off dmg ha hs hc => ?uncorrectable, fun deg sec dmg h => if_pos h, fun s d off x ha hs hinj => ?write,
    fun s d off op c dmg x ha hs hc hx => ?merge, fun s d off op dmg ha hs hc => ?mergeUncorrectable,
    fun s d off x op c dmg ha ho ht => ?offline, fun s d c i x => ?frame⟩
  case clean => exact exec_hbmRead_below ha (aboveTopAt_served hs) (readSector_served hs.2 (readChan_clean hc))
  case corrected =>
    obtain ⟨t, hread, hlog⟩ := readChan_corrected hc
    obtain ⟨-, hhbm, hcmds, -⟩ := id hlog
    refine ⟨_, exec_hbmRead_below ha (aboveTopAt_served hs) (readSector_served hs.2 hread), rfl, hhbm, hcmds, ?_⟩
    show (dieOf t d.val).hbmCounters = _
    rw [dieOf_logged hlog, hbmCounters_bumpHbm, hbmCounters_activate]
  case uncorrectable =>
    obtain ⟨t, hread, hhbm, hcount⟩ := readSector_uncorrectable hs hc
    exact ⟨_, exec_hbmRead_below ha (aboveTopAt_served hs) hread, rfl, hhbm, hcount⟩
  case write =>
    rw [exec_hbmWrite_below ha (aboveTopAt_served hs), writeSector_served hs.2, storeChan_free hinj]
    rfl
  case merge =>
    subst hx
    rw [exec_hbmRmw_below ha (aboveTopAt_served hs) (rmwSector_clean hs.2 hc)]
    exact congrArg Host.Outcome.next (answer_storeChan ..)
  case mergeUncorrectable =>
    obtain ⟨t, hread, hhbm, -⟩ := readSector_uncorrectable hs hc
    exact ⟨_, exec_hbmRmw_below ha (aboveTopAt_served hs) (rmwSector_error hread), rfl, hhbm⟩
  case offline =>
    have hbelow := aboveTopAt_refused ht
    refine ⟨exec_hbmRead_below ha hbelow (readSector_offline ho),
      exec_hbmRmw_below ha hbelow (rmwSector_error (readSector_offline ho)), ?_,
      ⟨_, exec_hbmRead_below ha hbelow (readSector_offline ho), rfl⟩⟩
    rw [exec_hbmWrite_below ha hbelow, writeSector_offline ho]
  case frame =>
    obtain ⟨dies, v, hstore⟩ := storeChan_eq s d c i x
    rw [hstore]
    exact ⟨rfl, rfl, rfl, rfl, rfl, rfl, rfl, rfl, rfl, rfl, fun d' c' i' h => sectorOf_setSector_ne _ _ h⟩

end Sys2Proof.Proofs
end

section
/-!
PROOF. HBM_REFRESH, HBM_RFM, HBM_SCRUB_READ and HBM_SOFT_REPAIR (R255, R256, R267, R269).
-/
namespace Sys2Proof.Proofs

open Sys2Proof Sys2Proof.Machine Sys2Proof.Laws

section Rows

variable {s : State} {d : DieIx}

/-- Refresh management is due where a bank of the stack has reached the threshold. -/
theorem rfmDue_iff {d st : Nat} : rfmDue s d st = true ↔
    ∃ x ∈ (dieOf s d).activations, x.1 / 2048 = st ∧ Config.rfmThreshold d st ≤ x.2 := by
  simp [rfmDue, bankOn]

theorem exec_hbmRefresh_awake (st : Fin 2) (h : (dieOf s d.val).selfRefresh = false) :
    exec (.hbmRefresh d st) s = .next (modDie (refreshBanks s d.val st.val) d.val
      (fun b => { b with lastRefresh := smSet 0 b.lastRefresh st.val s.time.now })) :=
  congrArg Host.Outcome.next (if_neg (Bool.eq_false_iff.1 h))

theorem exec_hbmRfm_due {st : Fin 2} (hself : (dieOf s d.val).selfRefresh = false) (h : rfmDue s d.val st.val = true) :
    exec (.hbmRfm d st) s = .next (bumpHbm (refreshBanks s d.val st.val) d.val 6) :=
  congrArg Host.Outcome.next (if_neg (by simp [hself, h]))

theorem exec_hbmRfm_early {st : Fin 2} (h : rfmDue s d.val st.val = false) : exec (.hbmRfm d st) s = .next s :=
  congrArg Host.Outcome.next (if_pos (by simp [h]))

/-- HBM_SCRUB_READ of a serving channel with sectors outstanding. -/
theorem exec_hbmScrubRead_outstanding {ch : ChanIx} {dmg : BurstDamage} (hserves : chanServes s d.val ch.val = true)
    (hself : (dieOf s d.val).selfRefresh = false) (hrate : (dieOf s d.val).hbmScrubRate ≠ 0)
    (hquota : (chanOf s d.val ch.val).scrubbed < (dieOf s d.val).hbmScrubQuota) :
    exec (.hbmScrubRead d ch dmg) s = .next (bumpHbm (modChan
      (scrubSector s d.val ch.val (chanOf s d.val ch.val).scrubNext dmg) d.val ch.val (fun c =>
        { c with scrubNext := (c.scrubNext + 1) % 83886080, scrubbed := c.scrubbed + 1 })) d.val 3) :=
  congrArg Host.Outcome.next (if_neg (by simp [hserves, hself, hrate, hquota]))

/-- The history's queue takes a row that the repair list does not hold. -/
theorem listRow_new {d c row : Nat} (h : (repairList s).contains (pendingEntry d c row) = false) :
    (listRow s d c row).flash.queue = s.flash.queue ++ [.addRepair (pendingEntry d c row)] := by
  rw [listRow, if_neg (Bool.eq_false_iff.1 h)]
  rfl

variable {row : RowName}

/-- HBM_SOFT_REPAIR of the row whose turn it is. -/
theorem exec_hbmSoftRepair_turn (spare : Bool) (hinhibit : s.pwr.inhibit = false)
    (hfaulty : (chanOf s row.die.val row.channel.val).faulty.contains (RowName.key row) = true)
    (hturn : repairTurn s (RowName.entry row) = true) :
    exec (.hbmSoftRepair row spare) s =
      let t := modChan s row.die.val row.channel.val
        (fun x => { x with faulty := x.faulty.filter (· != RowName.key row) })
      .next (listRow (if spare then
          logEvent (bumpHbm (modChan t row.die.val row.channel.val (fun x => { x with softRepairs := x.softRepairs + 1 }))
            row.die.val 4) evRowRepair row.die.val (RowName.entry row) 0
        else logEvent t evNoSpare row.die.val (RowName.entry row) 0) row.die.val row.channel.val (RowName.key row)) :=
  congrArg Host.Outcome.next (if_neg (by simpa [hinhibit, hturn] using hfaulty))

theorem exec_hbmSoftRepair_inhibited (spare : Bool) (h : s.pwr.inhibit = true) :
    exec (.hbmSoftRepair row spare) s = .next s :=
  congrArg Host.Outcome.next (if_pos (by simp [h]))

end Rows

/-- Settles O34, clause by clause: each row by whether it is due, and the soft repair by whether there is a spare. -/
theorem hbmUpkeepCompletes : Obligations.HbmUpkeepCompletes := by
  refine ⟨fun s d st h => exec_hbmRefresh_awake st h,
    fun s d st k n hself hmem hk hn => exec_hbmRfm_due hself (rfmDue_iff.2 ⟨(k, n), hmem, hk, hn⟩),
    fun s d st h => exec_hbmRfm_early (Bool.eq_false_iff.2 fun hdue => ?early), fun s d st => rfl,
    fun s d ch dmg hlive hfence hself hrate hquota =>
      exec_hbmScrubRead_outstanding (by simp [chanServes, hlive, hfence]) hself hrate hquota,
    fun s row hi hf ht => ⟨exec_hbmSoftRepair_turn true hi hf ht, exec_hbmSoftRepair_turn false hi hf ht⟩,
    fun s d c row h => listRow_new h, fun s row b h => exec_hbmSoftRepair_inhibited b h⟩
  case early =>
    obtain ⟨x, hmem, hst, hle⟩ := rfmDue_iff.1 hdue
    exact absurd (h x hmem hst) (Nat.not_lt.2 hle)

end Sys2Proof.Proofs
end

section
/-!
PROOF. HBM_LANE_RETRAIN, HBM_TRAINING and HBM_MAINTENANCE, and the end of a die's bring-up (R260 to R262, R265, R268, R460, R461, R465).
-/
namespace Sys2Proof.Proofs

open Sys2Proof Sys2Proof.Machine Sys2Proof.Laws

section Rows

variable {s : State} {d : DieIx} {r : ChanTraining}

/-- HBM_LANE_RETRAIN where it is due: the tick is noted, then the result acts. -/
theorem exec_hbmLaneRetrain_due (hserves : chanServes s d.val r.channel.val = true)
    (hdue : retrainDue s (chanOf s d.val r.channel.val) = true) :
    exec (.hbmLaneRetrain d r) s =
      let t := modChan s d.val r.channel.val (fun x => { x with retrainedAt := some s.time.now })
      .next (if r.otherFailure then fenceChannel t d.val r.channel.val 0
        else r.badLanes.foldl (fun s x => retrainLane s d.val r.channel.val x) t) :=
  congrArg Host.Outcome.next (if_neg (by simp [hserves, hdue]))

theorem exec_hbmLaneRetrain_early (h : retrainDue s (chanOf s d.val r.channel.val) = false) :
    exec (.hbmLaneRetrain d r) s = .next s :=
  congrArg Host.Outcome.next (if_pos (by simp [h]))

/-- The first lane that fails retraining degrades its pseudo-channel. -/
theorem retrainLane_first {d c : Nat} {x : Fin 2 × Fin 36} (h : laneOf (chanOf s d c) x.1.val = none) :
    retrainLane s d c x = degradeLane s d c x.1.val x.2 := by
  simp only [retrainLane, h]

/-- Noting the tick of a retraining leaves the degraded lanes. -/
theorem laneOf_retrainedAt (x : Chan) (t : Option Tick) (pc : Nat) : laneOf { x with retrainedAt := t } pc = laneOf x pc := rfl

theorem retrainDue_within {x : Chan} {t : Tick} (h : x.retrainedAt = some t) (ht : since s.time.now t < 131072) :
    retrainDue s x = false := by
  simp [retrainDue, h, ht]

variable {st : Fin 2} {result : StackTraining}

/-- HBM_TRAINING of a stack that has not been trained, at a stage that trains it. -/
theorem exec_hbmTraining_stage
    (hstage : ((s.pwr.stage = 2 ∨ s.pwr.stage = 3) ∧ (pwrDieOf s d.val).state = 0 ∧ (pwrDieOf s d.val).off = false)
      ∨ comingOn (pwrDieOf s d.val) = true)
    (hdone : (if st.val = 0 then (dieOf s d.val).trained0 else (dieOf s d.val).trained1) = false)
    (hfree : s.pwr.inhibit = false ∨ pendingRepairs s d.val st.val = []) :
    exec (.hbmTraining d st result) s =
      let t := trainStack s d.val st.val result true
      .next (if (dieOf t d.val).trained0 && (dieOf t d.val).trained1 then comeOn (settleMap t d.val 1) d.val else t) := by
  have hat : ((s.pwr.stage == 2 || s.pwr.stage == 3) && (pwrDieOf s d.val).state == 0 && !(pwrDieOf s d.val).off
      || comingOn (pwrDieOf s d.val)) = true := by
    rcases hstage with ⟨hs, h0, hoff⟩ | hcoming
    · simpa [h0, hoff] using Or.inl hs
    · simp [hcoming]
  have hwait : (s.pwr.inhibit && !(pendingRepairs s d.val st.val).isEmpty) = false := by
    rcases hfree with h | h <;> simp [h]
  exact congrArg Host.Outcome.next (if_neg (by simp only [hat, hdone, hwait]; decide))

theorem exec_hbmTraining_inhibited (hi : s.pwr.inhibit = true) (hp : pendingRepairs s d.val st.val ≠ []) :
    exec (.hbmTraining d st result) s = .next s := by
  have hwait : (s.pwr.inhibit && !(pendingRepairs s d.val st.val).isEmpty) = true := by simp [hi, hp]
  exact congrArg Host.Outcome.next (if_pos (by simp only [hwait, Bool.or_true]))

/-- HBM_MAINTENANCE that is held, of a die that is OFF, or brought up with its stacks trained. -/
theorem exec_hbmMaintenance_held {r0 r1 : StackTraining} (hheld : (dieOf s d.val).maintHeld = true)
    (hmay : ((pwrDieOf s d.val).state = 0 ∧ s.pwr.stage = 5)
      ∨ (comingOn (pwrDieOf s d.val) = true ∧ (dieOf s d.val).trained0 = true ∧ (dieOf s d.val).trained1 = true))
    (hfree : s.pwr.inhibit = false ∨ (pendingRepairs s d.val 0 = [] ∧ pendingRepairs s d.val 1 = [])) :
    exec (.hbmMaintenance d [r0, r1]) s = .next (comeOn (maintain s d.val r0 r1) d.val) := by
  have hact : ((pwrDieOf s d.val).state == 0 && s.pwr.stage == 5
      || comingOn (pwrDieOf s d.val) && (dieOf s d.val).trained0 && (dieOf s d.val).trained1) = true := by
    rcases hmay with ⟨h0, h5⟩ | ⟨hcoming, h0, h1⟩
    · simp [h0, h5]
    · simp [hcoming, h0, h1]
  have hwait : (s.pwr.inhibit
      && !((pendingRepairs s d.val 0).isEmpty && (pendingRepairs s d.val 1).isEmpty)) = false := by
    rcases hfree with h | ⟨h0, h1⟩
    · simp [h]
    · simp [h0, h1]
  exact congrArg Host.Outcome.next (if_neg (by simp only [hheld, hact, hwait]; decide))

/-- A die whose bring-up is complete is ON, where no OFF is held against it. -/
theorem comeOn_complete {d : Nat} (hcoming : comingOn (pwrDieOf s d) = true) (htested : (dieOf s d).tested = true)
    (h0 : (dieOf s d).trained0 = true) (h1 : (dieOf s d).trained1 = true) (hm : (dieOf s d).maintHeld = false)
    (hheld : (pwrDieOf s d).held = false) :
    comeOn s d = startPorts (modPwrDie s d (fun x => { x with state := 1 })) [2 * d, 2 * d + 1] := by
  simp [comeOn, hcoming, htested, h0, h1, hm, hheld]

/-- Held maintenance keeps a die from coming ON. -/
theorem comeOn_maintHeld {d : Nat} (h : (dieOf s d).maintHeld = true) : comeOn s d = s := by
  simp [comeOn, h]

end Rows

/-- Settles O35, clause by clause: the retraining by what it found and whether it is due, the training and the maintenance by what
lets them act, and the end of the bring-up by what is still held. -/
theorem hbmTrainingCompletes : Obligations.HbmTrainingCompletes := by
  refine ⟨fun s d r t hserves ht => ⟨fun hdue hother => ?other, fun pc l hdue hother hbad hlane => ?lane, fun x hx hlt =>
      exec_hbmLaneRetrain_early (retrainDue_within hx hlt)⟩,
    fun s d st r hstage hdone hfree => exec_hbmTraining_stage hstage hdone hfree,
    fun s d st r hi hp => exec_hbmTraining_inhibited hi hp,
    fun s d r0 r1 hheld hmay hfree => exec_hbmMaintenance_held hheld hmay hfree,
    fun s d hcoming htested h0 h1 hm hheld => comeOn_complete hcoming htested h0 h1 hm hheld,
    fun s d _ hm => comeOn_maintHeld hm⟩
  case other =>
    rw [exec_hbmLaneRetrain_due hserves hdue, ht]
    exact congrArg Host.Outcome.next (if_pos hother)
  case lane =>
    have hfirst : laneOf (chanOf t d.val r.channel.val) pc.val = none := by
      rw [ht, modChan_eq, chanOf_setChan, laneOf_retrainedAt, hlane]
    rw [exec_hbmLaneRetrain_due hserves hdue, ← ht, hbad]
    simp only [hother, Bool.false_eq_true, if_false, List.foldl_cons, List.foldl_nil]
    rw [retrainLane_first hfirst]

end Sys2Proof.Proofs
end

section
/-!
SUPPORT. What every operation keeps: the queue of waiting commands, and the canonical form of host memory and HBM. The rules for updates,
sequences, and the runs of a command.
-/
namespace Sys2Proof.Laws

open Sys2Proof Sys2Proof.Machine

/-- The state `t` has the queue of `s`, and its host memory and HBM are canonical where those of `s` are. -/
def Keeps (s t : State) : Prop :=
  t.pending = s.pending ∧ (smWf 0 s.host = true → smWf 0 t.host = true)
    ∧ (smWf Sector.dflt s.hbm = true → smWf Sector.dflt t.hbm = true)

/-- A run of a command keeps what `s₀` has, however it ends. -/
def KeepsRun {α : Type} (s₀ : State) (m : CmdM α) : Prop := ∀ s, Keeps s₀ s → Keeps s₀ (m.run.run s).2

/-- A run keeps what `s₀` has, and a result it ends with meets the condition. -/
def KeepsRunTo {α : Type} (s₀ : State) (P : α → Prop) (m : CmdM α) : Prop :=
  ∀ s, Keeps s₀ s → Keeps s₀ (m.run.run s).2 ∧ ∀ a, (m.run.run s).1 = .ok a → P a

/-- The checks and units of an opcode keep what each state has. -/
structure WorkKeeps (x : OpSem) : Prop where
  start {s₀ : State} {k : Ctx} : KeepsRun s₀ (x.start k)
  units {s₀ : State} {k : Ctx} : KeepsRun s₀ (x.units k)
  unit {s₀ : State} {b : Bool} {k : Ctx} {u : Nat} : KeepsRun s₀ (x.unit b k u)

/-- The next state of a row, where it has one, keeps what `s` has. -/
def Stays (s : State) (o : Host.Outcome State Fault Refusal) : Prop := ∀ t, o = .next t → Keeps s t

section Rules

variable {s s₀ t : State} {α β : Type}

theorem keeps_refl : Keeps s s := ⟨rfl, id, id⟩

theorem keeps_trans {r : State} (h : Keeps s t) (h' : Keeps t r) : Keeps s r := by
  obtain ⟨hp, hh, hb⟩ := h
  obtain ⟨hp', hh', hb'⟩ := h'
  exact ⟨hp'.trans hp, hh' ∘ hh, hb' ∘ hb⟩

/-- Records touch no more than this. -/
theorem keeps_logged (h : Logged s t) : Keeps s t := by
  obtain ⟨hp, hb, -, -, hh⟩ := h
  exact ⟨hp, hh, fun w => hb ▸ w⟩

theorem stays_next (h : Keeps s t) : Stays s (.next t) := by
  intro r hr
  cases hr
  exact h

theorem keeps_foldl {xs : List α} {f : State → α → State} (hf : ∀ s x, Keeps s (f s x)) : Keeps s (xs.foldl f s) := by
  induction xs generalizing s with
  | nil => exact keeps_refl
  | cons x xs ih => exact keeps_trans (hf s x) ih

/-! ### Runs -/

theorem keeps_run {m : CmdM α} (h : KeepsRun s m) : Keeps s (m.run.run s).2 := h s keeps_refl

theorem run_pure {a : α} : KeepsRun s₀ (pure a) := fun _ h => h

theorem run_throw {e : Stop} : KeepsRun s₀ (throw e : CmdM α) := fun _ h => h

theorem run_bind {m : CmdM α} {f : α → CmdM β} (h : KeepsRun s₀ m) (hf : ∀ a, KeepsRun s₀ (f a)) :
    KeepsRun s₀ (m >>= f) := by
  intro s hs
  have hm := h s hs
  rcases e : m.run.run s with ⟨a | a, t⟩
  · rw [e] at hm
    rw [cmd_bind_error e]
    exact hm
  · rw [e] at hm
    rw [cmd_bind_ok e]
    exact hf a t hm

/-- A check that may stop the run comes before the rest. -/
theorem run_guard {c : Prop} [Decidable c] {e : Stop} {m : CmdM β} (h : KeepsRun s₀ m) :
    KeepsRun s₀ (if c then (throw e : CmdM α) >>= fun _ => m else m) := by
  split
  · exact run_bind run_throw fun _ => h
  · exact h

theorem run_ite {c : Prop} [Decidable c] {m m' : CmdM α} (h : KeepsRun s₀ m) (h' : KeepsRun s₀ m') :
    KeepsRun s₀ (if c then m else m') := by
  split
  · exact h
  · exact h'

/-- A run that comes before the rest under a condition. -/
theorem run_when {c : Prop} [Decidable c] {m : CmdM α} {m' : CmdM β} (h : KeepsRun s₀ m) (h' : KeepsRun s₀ m') :
    KeepsRun s₀ (if c then m >>= fun _ => m' else m') :=
  run_ite (run_bind h fun _ => h') h'

/-- Either of two runs comes before the rest. -/
theorem run_either {c : Prop} [Decidable c] {m m' : CmdM α} {f : α → CmdM β} (h : KeepsRun s₀ m) (h' : KeepsRun s₀ m')
    (hf : ∀ a, KeepsRun s₀ (f a)) : KeepsRun s₀ (if c then m >>= f else m' >>= f) := by
  split
  · exact run_bind h hf
  · exact run_bind h' hf

theorem run_get {f : State → CmdM β} (hf : ∀ s, Keeps s₀ s → KeepsRun s₀ (f s)) : KeepsRun s₀ (get >>= f) :=
  fun s h => hf s h s h

theorem run_set (h : Keeps s₀ t) : KeepsRun s₀ (set t) := fun _ _ => h

theorem run_modify {f : State → State} (hf : ∀ s, Keeps s₀ s → Keeps s₀ (f s)) : KeepsRun s₀ (modify f) :=
  fun s h => hf s h

theorem run_tryCatch {m : CmdM α} {f : Stop → CmdM α} (h : KeepsRun s₀ m) (hf : ∀ e, KeepsRun s₀ (f e)) :
    KeepsRun s₀ (tryCatch m f) := by
  intro s hs
  have hm := h s hs
  rcases e : m.run.run s with ⟨a | a, t⟩ <;> rw [e] at hm <;> rw [ExceptT.run_tryCatch, StateT.run_bind, e]
  · exact hf a t hm
  · exact hm

/-! ### Runs whose result meets a condition -/

theorem runTo_pure {P : α → Prop} {a : α} (h : P a) : KeepsRunTo s₀ P (pure a) :=
  fun _ hs => ⟨hs, fun _ e => Except.ok.inj e ▸ h⟩

theorem runTo_of_run {m : CmdM α} (h : KeepsRun s₀ m) : KeepsRunTo s₀ (fun _ => True) m :=
  fun s hs => ⟨h s hs, fun _ _ => trivial⟩

theorem run_of_runTo {P : α → Prop} {m : CmdM α} (h : KeepsRunTo s₀ P m) : KeepsRun s₀ m :=
  fun s hs => (h s hs).1

theorem runTo_bind {P : α → Prop} {Q : β → Prop} {m : CmdM α} {f : α → CmdM β} (h : KeepsRunTo s₀ P m)
    (hf : ∀ a, P a → KeepsRunTo s₀ Q (f a)) : KeepsRunTo s₀ Q (m >>= f) := by
  intro s hs
  obtain ⟨hk, hp⟩ := h s hs
  rcases e : m.run.run s with ⟨a | a, t⟩
  · rw [e] at hk
    rw [cmd_bind_error e]
    exact ⟨hk, fun _ h => nomatch h⟩
  · rw [e] at hk hp
    rw [cmd_bind_ok e]
    exact hf a (hp a rfl) t hk

/-- A run whose result meets a condition comes first. -/
theorem run_bindTo {P : α → Prop} {m : CmdM α} {f : α → CmdM β} (h : KeepsRunTo s₀ P m)
    (hf : ∀ a, P a → KeepsRun s₀ (f a)) : KeepsRun s₀ (m >>= f) :=
  run_of_runTo (runTo_bind h fun a ha => runTo_of_run (hf a ha))

theorem runTo_ite {P : α → Prop} {c : Prop} [Decidable c] {m m' : CmdM α} (h : KeepsRunTo s₀ P m)
    (h' : KeepsRunTo s₀ P m') : KeepsRunTo s₀ P (if c then m else m') := by
  split
  · exact h
  · exact h'

theorem runTo_get {P : α → Prop} {f : State → CmdM α} (hf : ∀ s, Keeps s₀ s → KeepsRunTo s₀ P (f s)) :
    KeepsRunTo s₀ P (get >>= f) :=
  fun s h => hf s h s h

/-- A run without a condition comes first. -/
theorem runTo_after {Q : β → Prop} {m : CmdM α} {f : α → CmdM β} (h : KeepsRun s₀ m) (hf : ∀ a, KeepsRunTo s₀ Q (f a)) :
    KeepsRunTo s₀ Q (m >>= f) :=
  runTo_bind (runTo_of_run h) fun a _ => hf a

end Rules

end Sys2Proof.Laws
end

section
/-!
SUPPORT. The queue and memory's canonical form are kept by the named operations over State.
-/
namespace Sys2Proof.Laws

open Sys2Proof Sys2Proof.Machine

variable {s s₀ t : State}

theorem keeps_setDie {d v} : Keeps s (setDie s d v) := keeps_refl

theorem keeps_modDie {d f} : Keeps s (modDie s d f) := keeps_refl

theorem keeps_setCluster {d k v} : Keeps s (setCluster s d k v) := keeps_refl

theorem keeps_modCluster {d k f} : Keeps s (modCluster s d k f) := keeps_refl

theorem keeps_modChan {d c f} : Keeps s (modChan s d c f) := keeps_logged logged_modChan

theorem keeps_setRing {r v} : Keeps s (setRing s r v) := keeps_refl

theorem keeps_modRing {r f} : Keeps s (modRing s r f) := keeps_refl

theorem keeps_setVf {f v} : Keeps s (setVf s f v) := keeps_refl

theorem keeps_setPart {p v} : Keeps s (setPart s p v) := keeps_refl

theorem keeps_modPart {p f} : Keeps s (modPart s p f) := keeps_refl

theorem keeps_modTable {p t' f} : Keeps s (modTable s p t' f) := keeps_refl

theorem keeps_setPort {p v} : Keeps s (setPort s p v) := keeps_refl

theorem keeps_modPort {p f} : Keeps s (modPort s p f) := keeps_logged logged_modPort

theorem keeps_setMember {i v} : Keeps s (setMember s i v) := keeps_refl

theorem keeps_setCodec {d v} : Keeps s (setCodec s d v) := keeps_refl

theorem keeps_modCodec {d f} : Keeps s (modCodec s d f) := keeps_refl

theorem keeps_modPwrDie {d f} : Keeps s (modPwrDie s d f) := keeps_refl

theorem keeps_setZone {z v} : Keeps s (setZone s z v) := keeps_refl

theorem keeps_setRound {d v} : Keeps s (setRound s d v) := keeps_refl

theorem keeps_bumpHbm {d k} : Keeps s (bumpHbm s d k) := keeps_refl

theorem keeps_mapCmds {f} : Keeps s (mapCmds s f) := keeps_refl

theorem keeps_modCmd {u f} : Keeps s (modCmd s u f) := keeps_refl

theorem keeps_dropKids {u} : Keeps s (dropKids s u) := keeps_refl

theorem keeps_dropCmd {u} : Keeps s (dropCmd s u) := keeps_refl

theorem keeps_dropGroups {u} : Keeps s (dropGroups s u) := keeps_refl

theorem keeps_modTree {u f} : Keeps s (modTree s u f) := keeps_refl

theorem keeps_hostWrite {addr bs} : Keeps s (hostWrite s addr bs) := keeps_logged logged_hostWrite

theorem keeps_sendMsix {fn vec} : Keeps s (sendMsix s fn vec) := keeps_logged logged_sendMsix

theorem keeps_txPush {p k} : Keeps s (txPush s p k) := keeps_logged logged_txPush

theorem keeps_sendKeyed {kind dst tag addr key data} (ht : sendKeyed s kind dst tag addr key data = some t) : Keeps s t :=
  keeps_logged (logged_sendKeyed ht)

theorem keeps_sendMsg {kind dst tag addr data} (ht : sendMsg s kind dst tag addr data = some t) : Keeps s t :=
  keeps_logged (logged_sendMsg ht)

theorem keeps_queueHistory {w} : Keeps s (queueHistory s w) := keeps_logged logged_queueHistory

theorem keeps_errReadHead : Keeps s (errReadHead s) := keeps_logged logged_errReadHead

theorem keeps_errFlush : Keeps s (errFlush s) := keeps_logged logged_errFlush

theorem keeps_errPrepare {fatal} : Keeps s (errPrepare s fatal) := keeps_logged logged_errPrepare

theorem keeps_flushBuffer : Keeps s (flushBuffer s) := keeps_logged logged_flushBuffer

theorem keeps_memberFlush : Keeps s (memberFlush s) := keeps_logged logged_memberFlush

theorem keeps_createRecord {r logCopy} : Keeps s (createRecord s r logCopy) := keeps_logged logged_createRecord

theorem keeps_endCoalWindow : Keeps s (endCoalWindow s) := keeps_logged logged_endCoalWindow

theorem keeps_occur {r logCopy} : Keeps s (occur s r logCopy) := keeps_logged logged_occur

theorem keeps_logEvent {ev die d0 d1} : Keeps s (logEvent s ev die d0 d1) := keeps_logged logged_logEvent

theorem keeps_logCmd {u ev die inj d0 d1 d2 d3} : Keeps s (logCmd s u ev die inj d0 d1 d2 d3) := by
  grind [logCmd, Keeps, keeps_modCmd, keeps_errPrepare, keeps_createRecord, keeps_occur]

theorem keeps_logFor {u ev die inj d0 d1 d2 d3} : Keeps s (logFor s u ev die inj d0 d1 d2 d3) := by
  grind [logFor.eq_def, Keeps, keeps_occur, keeps_logCmd]

theorem keeps_logIgnored {offset value} : Keeps s (logIgnored s offset value) := keeps_logged logged_logIgnored

theorem keeps_setSector {d c i v} : Keeps s (setSector s d c i v) := ⟨rfl, id, fun w => setSector_wf w ..⟩

theorem keeps_fenceChannel {d c cause} : Keeps s (fenceChannel s d c cause) := keeps_logged logged_fenceChannel

theorem keeps_listRow {d c row} : Keeps s (listRow s d c row) := keeps_logged logged_listRow

theorem keeps_markFaulty {d c row} : Keeps s (markFaulty s d c row) := keeps_logged logged_markFaulty

theorem keeps_countUe {d c i injected} : Keeps s (countUe s d c i injected) := by
  grind [countUe, Keeps, keeps_modChan, keeps_bumpHbm, keeps_fenceChannel, keeps_markFaulty]

theorem keeps_countCe {d c i injected counts} : Keeps s (countCe s d c i injected counts) := by
  grind [countCe, Keeps, keeps_modChan, keeps_bumpHbm, keeps_markFaulty]

theorem keeps_activate {d c i} : Keeps s (activate s d c i) := keeps_refl

theorem keeps_readChan {u d c i dmg} : Keeps s (readChan s u d c i dmg).2 := by
  grind [readChan, Keeps, keeps_occur, keeps_logFor, keeps_setSector, keeps_countUe, keeps_countCe, keeps_activate]

theorem keeps_storeChan {d c i data} : Keeps s (storeChan s d c i data) := by
  grind [storeChan, Keeps, keeps_modDie, keeps_setSector, keeps_activate]

theorem keeps_readSector {u d off dmg} : Keeps s (readSector s u d off dmg).2 := by
  grind [readSector, Keeps, keeps_bumpHbm, keeps_readChan]

theorem keeps_writeSector {d off data} : Keeps s (writeSector s d off data).2 := by
  grind [writeSector, Keeps, keeps_bumpHbm, keeps_storeChan]

theorem keeps_rmwSector {u d off f dmg} : Keeps s (rmwSector s u d off f dmg).2 := by
  grind [rmwSector, Keeps, keeps_readSector, keeps_writeSector]

end Sys2Proof.Laws
end

section
/-!
SUPPORT. The queue and memory's canonical form are kept by memory accesses of commands and of requesters outside the die.
-/
namespace Sys2Proof.Laws

open Sys2Proof Sys2Proof.Machine

variable {s s₀ t : State}

theorem keeps_failWith {α : Type} {k st d1 d2} : KeepsRun s₀ (failWith k st d1 d2 : CmdM α) := by
  grind [failWith, run_throw, run_bind, run_modify, Keeps, keeps_logCmd]

theorem keeps_rejectOn {bs} : KeepsRun s₀ (rejectOn bs) := by
  grind [rejectOn, run_pure, run_throw, run_bind]

theorem keeps_tryChecks {m} (h : KeepsRun s₀ m) : KeepsRun s₀ (tryChecks m) := by
  grind [tryChecks, run_pure, run_throw, run_bind, run_tryCatch]

theorem keeps_tryWith {α : Type} {dflt : α} {m} (h : KeepsRun s₀ m) : KeepsRun s₀ (tryWith dflt m) := by
  grind [tryWith, run_pure, run_throw, run_bind, run_tryCatch]

theorem keeps_refuseLocal {α : Type} {k r kind a n} : KeepsRun s₀ (refuseLocal k r kind a n : CmdM α) := by
  grind [refuseLocal.eq_def, run_throw, run_bind, run_modify, Keeps, keeps_logCmd]

theorem keeps_stopHbm {α : Type} {k off x} : KeepsRun s₀ (stopHbm k off x : CmdM α) := by
  grind [stopHbm.eq_def, run_throw, run_bind, keeps_failWith]

theorem keeps_checkLocal {k kind a n} : KeepsRun s₀ (checkLocal k kind a n) := by
  grind [checkLocal, run_pure, run_bind, run_get, keeps_refuseLocal]

theorem keeps_cmdReadSector {k d off} : KeepsRun s₀ (cmdReadSector k d off) := by
  grind [cmdReadSector, run_pure, run_bind, run_get, run_set, Keeps, keeps_readSector, keeps_stopHbm]

theorem keeps_cmdWriteSector {k d off x} : KeepsRun s₀ (cmdWriteSector k d off x) := by
  grind [cmdWriteSector, run_pure, run_bind, run_get, run_set, Keeps, keeps_writeSector, keeps_stopHbm]

theorem keeps_cmdRmwSector {k d off f} : KeepsRun s₀ (cmdRmwSector k d off f) := by
  grind [cmdRmwSector, run_pure, run_bind, run_get, run_set, Keeps, keeps_rmwSector, keeps_stopHbm]

theorem keeps_readSpans {k x} : KeepsRun s₀ (readSpans k x) := by
  induction x with
  | nil => exact run_pure
  | cons x xs ih => grind [readSpans, run_pure, run_bind, keeps_cmdReadSector]

theorem keeps_writeSpans {k x y} : KeepsRun s₀ (writeSpans k x y) := by
  induction x generalizing k y with
  | nil => exact run_pure
  | cons x xs ih => grind [writeSpans, run_pure, run_bind, keeps_cmdWriteSector, keeps_cmdRmwSector]

theorem keeps_sendRequest {d key kind cmd bytes q} (ht : sendRequest s d key kind cmd bytes q = some (some t)) :
    Keeps s t := by
  grind [sendRequest, Keeps, Option.map_eq_some_iff, keeps_txPush]

theorem keeps_cmdRequest {k kind bytes q} : KeepsRun s₀ (cmdRequest k kind bytes q) := by
  grind [cmdRequest, run_throw, run_bind, run_get, run_set, Keeps, keeps_logCmd, → keeps_sendRequest]

theorem keeps_requestSectors {k tc x} : KeepsRun s₀ (requestSectors k tc x) := by
  induction x with
  | nil => exact run_pure
  | cons x xs ih => grind [requestSectors, run_pure, run_bind, run_get, keeps_cmdRequest]

theorem keeps_remoteRead {k tc a n} : KeepsRun s₀ (remoteRead k tc a n) := by
  grind [remoteRead, run_pure, run_throw, run_bind, run_get, keeps_requestSectors]

theorem keeps_sendPieces {k tc x} : KeepsRun s₀ (sendPieces k tc x) := by
  induction x with
  | nil => exact run_pure
  | cons x xs ih =>
    grind [sendPieces, run_pure, run_bind, run_get, run_modify, Keeps, Option.elim.eq_def, keeps_modCmd, keeps_cmdRequest]

theorem keeps_checkRange {k a n} : KeepsRun s₀ (checkRange k a n) := by
  grind [checkRange, run_pure, run_throw, run_bind, run_modify, Keeps, keeps_logCmd]

theorem keeps_readMem {k tc a n} : KeepsRun s₀ (readMem k tc a n) := by
  grind [readMem, run_pure, run_bind, run_get, keeps_checkLocal, keeps_readSpans, keeps_remoteRead, keeps_checkRange]

theorem keeps_breachAt {own a n} : Keeps s (breachAt own a n s) := by
  grind [breachAt, Keeps, keeps_mapCmds]

theorem keeps_touchScratch {u a n} : Keeps s (touchScratch u a n s) := keeps_breachAt

theorem keeps_touchFrom {src a n} : Keeps s (touchFrom src a n s) := keeps_breachAt

theorem keeps_noteWrite {u} : Keeps s (noteWrite u s) := keeps_refl

theorem keeps_writeMem {k tc a bs} : KeepsRun s₀ (writeMem k tc a bs) := by
  unfold writeMem
  refine run_bind keeps_checkRange fun _ => run_bind (run_modify fun s h => keeps_trans h keeps_touchScratch) fun _ => ?_
  grind [run_pure, run_bind, run_get, run_modify, Keeps, keeps_checkLocal, keeps_writeSpans, keeps_noteWrite, keeps_sendPieces]

theorem keeps_readNum {k tc a n} : KeepsRun s₀ (readNum k tc a n) := by
  grind [readNum, run_pure, run_bind, keeps_readMem]

theorem keeps_atomicLocal {u a op x y} : Keeps s (atomicLocal s u a op x y).2 := by
  grind [atomicLocal, Keeps, keeps_rmwSector]

theorem keeps_readTensor {k a off} : KeepsRun s₀ (readTensor k a off) := by
  grind [readTensor, run_pure, run_bind, keeps_readMem]

theorem keeps_readRuns {k tc base x} : KeepsRun s₀ (readRuns k tc base x) := by
  induction x with
  | nil => exact run_pure
  | cons x xs ih => grind [readRuns, run_pure, run_bind, keeps_readMem]

theorem keeps_readRowCodes {k tc t' r} : KeepsRun s₀ (readRowCodes k tc t' r) := by
  grind [readRowCodes, run_pure, run_bind, keeps_readRuns]

theorem keeps_readRowScales {k tc t' r} : KeepsRun s₀ (readRowScales k tc t' r) := by
  grind [readRowScales, run_pure, run_bind, keeps_readMem]

theorem keeps_readRow {k tc t' r} : KeepsRun s₀ (readRow k tc t' r) := by
  grind [readRow, run_pure, run_bind, keeps_readRowCodes, keeps_readRowScales]

theorem keeps_readRow32 {k tc t' r} : KeepsRun s₀ (readRow32 k tc t' r) := by
  grind [readRow32, run_pure, run_bind, keeps_readRow]

theorem keeps_writeRuns {k tc base x} : KeepsRun s₀ (writeRuns k tc base x) := by
  induction x with
  | nil => exact run_pure
  | cons x xs ih => grind [writeRuns, run_pure, run_bind, keeps_writeMem]

theorem keeps_addNans {k n} : KeepsRun s₀ (addNans k n) := by
  grind [addNans, run_bind, run_modify, Keeps, keeps_modCmd]

theorem keeps_writePart {k tc t' r c0 x} : KeepsRun s₀ (writePart k tc t' r c0 x) := by
  grind [writePart, run_bind, keeps_writeMem, keeps_writeRuns, keeps_addNans]

theorem keeps_writeRow {k tc t' r x} : KeepsRun s₀ (writeRow k tc t' r x) := keeps_writePart

end Sys2Proof.Laws
end

section
/-!
SUPPORT. The queue and memory's canonical form are kept by the end of a command: its signals, its record, and what a member
sends back.
-/
namespace Sys2Proof.Laws

open Sys2Proof Sys2Proof.Machine

variable {s s₀ t : State}

theorem keeps_signalOne {k a inc failed} : KeepsRun s₀ (signalOne k a inc failed) := by
  unfold signalOne
  refine run_get fun s h => ?_
  dsimp only
  split
  · refine run_bind keeps_checkLocal fun _ => run_bind (run_modify fun s h => keeps_trans h keeps_touchScratch) fun _ => ?_
    grind [run_pure, run_bind, run_get, run_set, Keeps, keeps_atomicLocal, keeps_stopHbm]
  · exact keeps_cmdRequest

theorem keeps_setSlot {d i v} : Keeps s (setSlot s d i v) := keeps_refl

theorem keeps_dropPool {u} : Keeps s (dropPool s u) := keeps_refl

theorem keeps_settlePool {u} : Keeps s (settlePool s u) := by
  grind [settlePool, Keeps, keeps_foldl, keeps_setSlot, keeps_dropPool]

theorem keeps_judgeEnd {c} : Keeps s (judgeEnd s c) := by
  grind [judgeEnd, Keeps, keeps_modCmd, keeps_logCmd]

theorem keeps_judged {u} : Keeps s (judged s u) := by
  grind [judged, Keeps, keeps_judgeEnd]

theorem keeps_advance {x y} : Keeps s (advance x s y) := by
  induction x generalizing s with
  | zero => exact keeps_refl
  | succ n ih =>
    unfold advance
    split
    · exact keeps_refl
    split
    · exact keeps_refl
    split
    · exact keeps_modCmd
    dsimp only
    generalize h : StateT.run (ExceptT.run _) s = r
    have hr : Keeps s r.2 := by
      rw [← h]
      exact keeps_run keeps_signalOne
    grind [keeps_modCmd, keeps_trans, keeps_refl]

theorem keeps_waitRun {u} : Keeps s (waitRun s t u) := by
  grind [waitRun, Keeps, keeps_modCmd]

theorem keeps_setHuskFlags {k a valid parked} : KeepsRun s₀ (setHuskFlags k a valid parked) := by
  grind [setHuskFlags, run_bind, keeps_writeMem, keeps_readNum]

theorem keeps_clearHusk {c} : Keeps s (clearHusk s c) := by
  grind [clearHusk, Keeps, keeps_run, keeps_modCmd, keeps_waitRun, keeps_setHuskFlags]

theorem keeps_postMembers {x} : Keeps s (postMembers x s) := by
  induction x generalizing s with
  | nil => exact keeps_refl
  | cons x xs ih => grind [postMembers, Keeps, keeps_dropCmd, → keeps_sendMsg, keeps_clearHusk]

theorem keeps_memberPost : Keeps s (memberPost s) := by
  grind [memberPost, Keeps, keeps_memberFlush, keeps_postMembers]

theorem keeps_advanceEnd {u} : Keeps s (advanceEnd s u) := by
  grind [advanceEnd, Keeps, keeps_settlePool, keeps_judged, keeps_advance, keeps_memberPost]

theorem keeps_logCounts {u} : Keeps s (logCounts s u) := by
  grind [logCounts, Keeps, keeps_logCmd]

theorem keeps_logAborted {u} : Keeps s (logAborted s u) := by
  grind [logAborted, Keeps, keeps_logCmd, keeps_logCounts]

theorem keeps_endWith {u st worked} : Keeps s (endWith s u st worked) := by
  grind [endWith, Keeps, keeps_modCmd, keeps_advanceEnd, keeps_logCounts]

theorem keeps_failCmd {u st} : Keeps s (failCmd s u st) := keeps_endWith

theorem keeps_missDeadline {u worked} : Keeps s (missDeadline s u worked) := by
  grind [missDeadline, Keeps, keeps_logCmd, keeps_endWith]

theorem keeps_doneCmd {u st} : Keeps s (doneCmd s u st) := by
  grind [doneCmd, Keeps, keeps_modCmd, keeps_endWith]

theorem keeps_logRejected {u st off} : Keeps s (logRejected s u st off) := by
  grind [logRejected, Keeps, Option.elim.eq_def, keeps_logCmd, keeps_logCounts]

theorem keeps_rejectCmd {u st off} : Keeps s (rejectCmd s u st off) := by
  grind [rejectCmd, Keeps, keeps_modCmd, keeps_dropKids, keeps_memberPost, keeps_logRejected]

theorem keeps_settleStop {u e} (h : Keeps s t) : Keeps s (settleStop s t u e) := by
  grind [settleStop.eq_def, Keeps, keeps_waitRun, keeps_failCmd, keeps_rejectCmd]

end Sys2Proof.Laws
end

section
/-!
SUPPORT. The queue and memory's canonical form are kept by the programs of a chain.
-/
namespace Sys2Proof.Laws

open Sys2Proof Sys2Proof.Machine

variable {s s₀ t : State}

theorem keeps_readProgram {k a} : KeepsRun s₀ (readProgram k a) := by
  grind [readProgram, run_pure, run_bind, keeps_readMem]

end Sys2Proof.Laws
end

section
/-!
SUPPORT. The queue and memory's canonical form are kept by VECCHAIN, REDUCE, RANDOM and SAMPLE_TOKENS.
-/
namespace Sys2Proof.Laws

open Sys2Proof Sys2Proof.Machine

variable {s s₀ t : State}

theorem keeps_tensorAt {k lo} : KeepsRun s₀ (tensorAt k lo) := by
  grind [tensorAt, run_pure, run_bind, keeps_readTensor]

theorem keeps_tensorReq {k lo} : KeepsRun s₀ (tensorReq k lo) := keeps_readTensor

theorem keeps_readAll32 {k tc t' x y} : KeepsRun s₀ (readAll32 k tc t' x y) := by
  induction x generalizing k tc t' y with
  | zero => exact run_pure
  | succ n ih => grind [readAll32, run_pure, run_bind, keeps_readRow32]

theorem keeps_vecPlan {k} : KeepsRun s₀ (vecPlan k) := by
  unfold vecPlan
  refine run_bind keeps_readProgram fun prog => run_bind keeps_tensorAt fun i0 => run_bind keeps_tensorAt fun i1 =>
    run_bind keeps_tensorAt fun i2 => run_bind keeps_tensorAt fun i3 => run_bind keeps_tensorAt fun o0 => ?_
  grind [run_pure, run_bind, keeps_tensorAt]

theorem keeps_reducePlan {k} : KeepsRun s₀ (reducePlan k) := by
  unfold reducePlan
  refine run_bind keeps_tensorReq fun x => ?_
  split
  dsimp only
  split
  · exact run_bind run_pure fun _ => run_pure
  · exact run_bind keeps_tensorAt fun _ => run_pure

theorem keeps_slotVals {k t' mode cols r} : KeepsRun s₀ (slotVals k t' mode cols r) := by
  grind [slotVals.eq_def, run_pure, run_bind, keeps_readRow32, keeps_readAll32]

theorem keeps_slotsRow {k ins bcast cols r} : KeepsRun s₀ (slotsRow k ins bcast cols r) := by
  grind [slotsRow, run_pure, run_bind, keeps_slotVals]

theorem keeps_statsAt {k p a r} : KeepsRun s₀ (statsAt k p a r) := by
  grind [statsAt, run_pure, run_bind, keeps_readMem]

theorem keeps_writeReduced {k p r vs} : KeepsRun s₀ (writeReduced k p r vs) := by
  grind [writeReduced, run_pure, run_bind, keeps_writeMem, keeps_writeRow]

theorem keeps_vecRow {k p r} : KeepsRun s₀ (vecRow k p r) := by
  unfold vecRow
  refine run_bind keeps_slotsRow fun xs => run_bind keeps_statsAt fun st =>
    run_get fun s h => run_bind keeps_addNans fun _ => ?_
  grind [run_pure, run_bind, keeps_writeRow, keeps_writeReduced]

theorem keeps_forRows {α : Type} {f : α → CmdM Unit} {xs} (hf : ∀ x, KeepsRun s₀ (f x)) : KeepsRun s₀ (forRows f xs) := by
  induction xs with
  | nil => exact run_pure
  | cons x xs ih => exact run_bind (hf x) fun _ => ih

theorem keeps_vecTables {k p off} : KeepsRun s₀ (vecTables k p off) := by
  grind [vecTables, run_pure, run_bind, run_get]

theorem keeps_startVecchain {k} : KeepsRun s₀ (startVecchain k) := by
  grind [startVecchain, run_pure, run_bind, keeps_rejectOn, keeps_vecPlan, keeps_vecTables]

theorem keeps_unitsVecchain {k} : KeepsRun s₀ (unitsVecchain k) := by
  grind [unitsVecchain, run_pure, run_bind, keeps_rejectOn, keeps_vecPlan]

theorem keeps_unitVecchain {k u} : KeepsRun s₀ (unitVecchain k u) := by
  grind [unitVecchain, run_bind, keeps_rejectOn, keeps_vecPlan, keeps_vecRow, keeps_forRows]

theorem keeps_startReduce {k} : KeepsRun s₀ (startReduce k) := by
  grind [startReduce, run_pure, run_bind, keeps_rejectOn, keeps_reducePlan]

theorem keeps_unitsReduce {k} : KeepsRun s₀ (unitsReduce k) := by
  grind [unitsReduce, run_pure, run_bind, keeps_rejectOn, keeps_reducePlan]

theorem keeps_unitReduce {k u} : KeepsRun s₀ (unitReduce k u) := by
  grind [unitReduce, run_bind, keeps_rejectOn, keeps_reducePlan, keeps_vecRow, keeps_forRows]

theorem keeps_unitsRandom {k} : KeepsRun s₀ (unitsRandom k) := run_pure

theorem keeps_unitRandom {k u} : KeepsRun s₀ (unitRandom k u) := by
  grind [unitRandom, run_bind, keeps_writeRow, keeps_forRows]

theorem keeps_samplePlan {k} : KeepsRun s₀ (samplePlan k) := by
  grind [samplePlan, run_pure, run_bind, keeps_tensorReq]

theorem keeps_sampleOne {k t' r} : KeepsRun s₀ (sampleOne k t' r) := by
  grind [sampleOne, run_bind, run_modify, Keeps, keeps_modCmd, keeps_readMem, keeps_writeMem, keeps_readRow32]

theorem keeps_startSample {k} : KeepsRun s₀ (startSample k) := by
  grind [startSample, run_pure, run_bind, keeps_rejectOn, keeps_samplePlan]

theorem keeps_unitsSample {k} : KeepsRun s₀ (unitsSample k) := by
  grind [unitsSample, run_pure, run_bind, keeps_rejectOn, keeps_samplePlan]

theorem keeps_unitSample {k u} : KeepsRun s₀ (unitSample k u) := by
  grind [unitSample, run_bind, keeps_rejectOn, keeps_forRows, keeps_samplePlan, keeps_sampleOne]

end Sys2Proof.Laws
end

section
/-!
SUPPORT. The queue and memory's canonical form are kept by COPY and FILL.
-/
namespace Sys2Proof.Laws

open Sys2Proof Sys2Proof.Machine

variable {s s₀ t : State}

theorem keeps_cmdHostRead {k fault a n} : KeepsRun s₀ (cmdHostRead k fault a n) := by
  grind [cmdHostRead, run_pure, run_bind, run_get, keeps_failWith]

theorem keeps_cmdHostWrite {k fault a bs} : KeepsRun s₀ (cmdHostWrite k fault a bs) := by
  grind [cmdHostWrite, run_bind, run_modify, Keeps, keeps_hostWrite, keeps_failWith, keeps_noteWrite]

theorem keeps_moveOut {k fault o bs} : KeepsRun s₀ (moveOut k fault o bs) := by
  grind [moveOut, run_bind, keeps_writeMem, keeps_cmdHostWrite]

theorem keeps_unitsMove {k} : KeepsRun s₀ (unitsMove k) := run_pure

theorem keeps_unitCopy {fault k u} : KeepsRun s₀ (unitCopy fault k u) := by
  grind [unitCopy, run_bind, keeps_readMem, keeps_cmdHostRead, keeps_moveOut]

theorem keeps_unitFill {fault k u} : KeepsRun s₀ (unitFill fault k u) := keeps_moveOut

theorem keeps_readWaits {k x} : KeepsRun s₀ (readWaits k x) := by
  induction x with
  | nil => exact run_pure
  | cons x xs ih => grind [readWaits, run_pure, run_bind, keeps_readNum]

end Sys2Proof.Laws
end

section
/-!
SUPPORT. The queue and memory's canonical form are kept by the rows of a matrix product.
-/
namespace Sys2Proof.Laws

open Sys2Proof Sys2Proof.Machine

variable {s s₀ t : State}

theorem keeps_stationaryRow {k t' cb r} : KeepsRun s₀ (stationaryRow k t' cb r) := by
  grind [stationaryRow.eq_def, run_pure, run_bind, keeps_readRowCodes, keeps_readRow]

theorem keeps_stationaryRows {k t' cb x y} : KeepsRun s₀ (stationaryRows k t' cb x y) := by
  induction x generalizing k t' cb y with
  | zero => exact run_pure
  | succ n ih => grind [stationaryRows, run_pure, run_bind, keeps_stationaryRow]

end Sys2Proof.Laws
end

section
/-!
SUPPORT. The queue and memory's canonical form are kept by ATTEND, ATTEND_BWD and KV_APPEND.
-/
namespace Sys2Proof.Laws

open Sys2Proof Sys2Proof.Machine

variable {s s₀ t : State}

theorem keeps_readCache {k a off} : KeepsRun s₀ (readCache k a off) := by
  grind [readCache, run_pure, run_bind, keeps_readMem]

theorem keeps_readPage {k c slot p off} : KeepsRun s₀ (readPage k c slot p off) := by
  grind [readPage, run_pure, run_bind, keeps_readNum]

theorem keeps_lenRec {k ptr mq nk b} : KeepsRun s₀ (lenRec k ptr mq nk b) := by
  grind [lenRec, run_pure, run_bind, keeps_readNum]

theorem keeps_lenRecs {k ptr mq nk x} : KeepsRun s₀ (lenRecs k ptr mq nk x) := by
  induction x with
  | nil => exact run_pure
  | cons x xs ih => grind [lenRecs, run_pure, run_bind, keeps_lenRec]

theorem keeps_attPlan {k} : KeepsRun s₀ (attPlan k) := by
  grind [attPlan, run_pure, run_bind, keeps_tensorReq, keeps_readCache, keeps_lenRecs]

theorem keeps_keyAt {k p b g j page} : KeepsRun s₀ (keyAt k p b g j page) := by
  grind [keyAt, run_pure, run_bind, keeps_readMem, keeps_readRow]

theorem keeps_keysOf {k p b g page x} : KeepsRun s₀ (keysOf k p b g page x) := by
  induction x with
  | nil => exact run_pure
  | cons x xs ih => grind [keysOf, run_pure, run_bind, keeps_keyAt]

theorem keeps_pageOf {k p b n} : KeepsRun s₀ (pageOf k p b n) := by
  grind [pageOf, run_pure, run_bind, keeps_readPage]

theorem keeps_readBlock {k p b g n} : KeepsRun s₀ (readBlock k p b g n) := by
  grind [readBlock, run_bind, keeps_keysOf, keeps_pageOf]

theorem keeps_readNeeded {k p b g lim x} : KeepsRun s₀ (readNeeded k p b g lim x) := by
  induction x with
  | nil => exact run_pure
  | cons x xs ih => grind [readNeeded, run_pure, run_bind, keeps_readBlock]

theorem keeps_freeM : KeepsRun s₀ (freeM) := by
  grind [freeM, run_pure, run_bind, run_get, run_set, Keeps]

theorem keeps_freeChunks {x} : KeepsRun s₀ (freeChunks x) := by
  induction x with
  | zero => exact run_pure
  | succ n ih => grind [freeChunks, run_pure, run_bind, keeps_freeM]

theorem keeps_spoilSpan {x} : KeepsRun s₀ (spoilSpan x) := by
  grind [spoilSpan, run_bind, run_modify, Keeps, keeps_writeSector, keeps_rmwSector, keeps_freeChunks]

theorem keeps_spoilRange {k r} : KeepsRun s₀ (spoilRange k r) := by
  grind [spoilRange, run_pure, run_throw, run_bind, run_get, keeps_forRows, keeps_spoilSpan]

theorem keeps_spoilRanges {k rs} : Keeps s (spoilRanges s k rs) := by
  grind [spoilRanges, Keeps, keeps_run, keeps_forRows, keeps_spoilRange]

theorem keeps_selectPages {k p q b g i sel} : KeepsRun s₀ (selectPages k p q b g i sel) := by
  grind [selectPages, run_pure, run_bind, run_get]

theorem keeps_queryRow {k p b h' i} : KeepsRun s₀ (queryRow k p b h' i) := by
  grind [queryRow, run_pure, run_bind, keeps_readRow]

theorem keeps_writeAtt {k p b h' i x} : KeepsRun s₀ (writeAtt k p b h' i x) := by
  grind [writeAtt, run_pure, run_throw, run_bind, run_get, keeps_writeMem, keeps_writeRow]

theorem keeps_retrievedBlocks {k p q b h' i g sel} : KeepsRun s₀ (retrievedBlocks k p q b h' i g sel) := by
  grind [retrievedBlocks, run_bind, keeps_readNeeded, keeps_selectPages]

theorem keeps_tilePartials {k p b h' g blks x} : KeepsRun s₀ (tilePartials k p b h' g blks x) := by
  induction x with
  | nil => exact run_pure
  | cons x xs ih => grind [tilePartials, run_pure, run_bind, keeps_queryRow, keeps_retrievedBlocks]

theorem keeps_unitPartials {k p x g} : KeepsRun s₀ (unitPartials k p x g) := by
  grind [unitPartials, run_pure, run_bind, keeps_readNeeded, keeps_tilePartials]

theorem keeps_attRows {k p us b h f is} (hf : ∀ i, KeepsRun s₀ (f i)) : KeepsRun s₀ (attRows k p us b h f is) := by
  induction is with
  | nil => exact run_pure
  | cons i is ih =>
    refine run_bind (run_tryCatch (hf i) fun e => ?_) fun _ => ih
    grind [run_pure, run_throw, run_bind, run_modify, Keeps, keeps_forRows, keeps_spoilRange, keeps_modCmd]

theorem keeps_keepPart {k x} : KeepsRun s₀ (keepPart k x) := by
  grind [keepPart, run_bind, run_modify, Keeps, keeps_modCmd]

theorem keeps_runAttUnit {k p u} : KeepsRun s₀ (runAttUnit k p u) := by
  grind [runAttUnit, run_pure, run_throw, run_bind, run_get, run_modify, Keeps, keeps_modCmd, keeps_writeAtt,
    keeps_unitPartials, keeps_attRows, keeps_keepPart]

theorem keeps_rowPages {k p b h' i} : KeepsRun s₀ (rowPages k p b h' i) := by
  grind [rowPages, run_pure, run_bind, keeps_selectPages, keeps_queryRow]

theorem keeps_rowsPages {k p b h' x} : KeepsRun s₀ (rowsPages k p b h' x) := by
  induction x with
  | nil => exact run_pure
  | cons x xs ih => grind [rowsPages, run_pure, run_bind, keeps_rowPages]

theorem keeps_retrievedSegs {k p b h' x} : KeepsRun s₀ (retrievedSegs k p b h' x) := by
  induction x with
  | nil => exact run_pure
  | cons x xs ih => grind [retrievedSegs, run_pure, run_bind, keeps_rowPages]

theorem keeps_tilesSegs {k p x} : KeepsRun s₀ (tilesSegs k p x) := by
  induction x with
  | nil => exact run_pure
  | cons x xs ih => grind [tilesSegs, run_pure, run_bind, keeps_retrievedSegs]

theorem keeps_headsPages {k p b x} : KeepsRun s₀ (headsPages k p b x) := by
  induction x with
  | nil => exact run_pure
  | cons x xs ih => grind [headsPages, run_pure, run_bind, keeps_rowPages, keeps_rowsPages]

theorem keeps_pagesBad {k c slot off x} : KeepsRun s₀ (pagesBad k c slot off x) := by
  induction x with
  | nil => exact run_pure
  | cons x xs ih => grind [pagesBad, run_pure, run_bind, keeps_readPage]

theorem keeps_entriesBad {k p c x} : KeepsRun s₀ (entriesBad k p c x) := by
  induction x with
  | nil => exact run_pure
  | cons x xs ih => grind [entriesBad, run_pure, run_bind, keeps_headsPages, keeps_pagesBad]

theorem keeps_pageChecks {k p} : KeepsRun s₀ (pageChecks k p) := by
  grind [pageChecks, run_pure, run_bind, keeps_entriesBad]

theorem keeps_markRing {k} : Keeps s (markRing k s) := by
  grind [markRing, Keeps, keeps_mapCmds]

theorem keeps_startAttend {k} : KeepsRun s₀ (startAttend k) := by
  unfold startAttend
  refine run_bind keeps_attPlan fun x => run_get fun s h => ?_
  refine run_either keeps_pageChecks run_pure fun pages => ?_
  refine run_get fun s h => run_get fun s h => run_bind keeps_rejectOn fun _ => ?_
  split <;> grind [run_pure, run_bind, run_modify, Keeps, keeps_markRing, keeps_modCmd, keeps_tilesSegs]

theorem keeps_unitsAttend {k} : KeepsRun s₀ (unitsAttend k) := by
  grind [unitsAttend, run_pure, run_bind, keeps_rejectOn, keeps_attPlan]

theorem keeps_unitAttend {k u} : KeepsRun s₀ (unitAttend k u) := by
  grind [unitAttend, run_bind, keeps_rejectOn, keeps_attPlan, keeps_runAttUnit]

theorem keeps_mapRecs {k a x} : KeepsRun s₀ (mapRecs k a x) := by
  induction x with
  | nil => exact run_pure
  | cons x xs ih => grind [mapRecs, run_pure, run_bind, keeps_readNum]

theorem keeps_mapPages {k c x} : KeepsRun s₀ (mapPages k c x) := by
  induction x with
  | nil => exact run_pure
  | cons x xs ih => grind [mapPages, run_pure, run_bind, keeps_readPage]

theorem keeps_appendPlan {k} : KeepsRun s₀ (appendPlan k) := by
  grind [appendPlan, run_pure, run_bind, keeps_tensorReq, keeps_readCache, keeps_mapRecs, keeps_mapPages]

theorem keeps_startKvAppend {k} : KeepsRun s₀ (startKvAppend k) := by
  grind [startKvAppend, run_pure, run_bind, keeps_rejectOn, keeps_appendPlan]

theorem keeps_appendOne {k p r h'} : KeepsRun s₀ (appendOne k p r h') := by
  grind [appendOne, run_bind, keeps_writeMem, keeps_readRow32, keeps_addNans, keeps_readPage]

theorem keeps_unitKvAppend {k x} : KeepsRun s₀ (unitKvAppend k x) := by
  grind [unitKvAppend, run_bind, keeps_rejectOn, keeps_forRows, keeps_appendPlan, keeps_appendOne]

theorem keeps_indexRecs {k c a x} : KeepsRun s₀ (indexRecs k c a x) := by
  induction x with
  | nil => exact run_pure
  | cons x xs ih => grind [indexRecs, run_pure, run_bind, Option.elim.eq_def, keeps_readNum]

theorem keeps_indexPlan {k} : KeepsRun s₀ (indexPlan k) := by
  grind [indexPlan, run_pure, run_bind, run_get, keeps_rejectOn, keeps_readCache, keeps_mapPages, keeps_indexRecs]

theorem keeps_startKvIndex {k} : KeepsRun s₀ (startKvIndex k) := by
  grind [startKvIndex, run_pure, run_bind, keeps_indexPlan]

theorem keeps_keyRows {k c page h' x} : KeepsRun s₀ (keyRows k c page h' x) := by
  induction x with
  | nil => exact run_pure
  | cons x xs ih => grind [keyRows, run_pure, run_bind, keeps_readMem]

theorem keeps_centroid {k c slot p h' n} : KeepsRun s₀ (centroid k c slot p h' n) := by
  grind [centroid, run_pure, run_bind, keeps_foldl, keeps_readPage, keeps_keyRows]

theorem keeps_entryPatches {k c img r x} : KeepsRun s₀ (entryPatches k c img r x) := by
  induction x with
  | nil => exact run_pure
  | cons x xs ih => grind [entryPatches, run_pure, run_bind, keeps_centroid]

theorem keeps_allPatches {k c img x} : KeepsRun s₀ (allPatches k c img x) := by
  induction x with
  | nil => exact run_pure
  | cons x xs ih => grind [allPatches, run_pure, run_bind, keeps_entryPatches]

theorem keeps_indexedImage {k} : KeepsRun s₀ (indexedImage k) := by
  grind [indexedImage, run_pure, run_bind, run_get, keeps_foldl, keeps_indexPlan, keeps_allPatches]

theorem keeps_bwdPlan {k} : KeepsRun s₀ (bwdPlan k) := by
  unfold bwdPlan
  refine run_bind keeps_tensorReq fun q => run_bind keeps_tensorReq fun kt => run_bind keeps_tensorReq fun vt =>
    run_bind keeps_tensorReq fun o => run_bind keeps_tensorReq fun go => run_bind keeps_tensorReq fun gq =>
    run_bind keeps_tensorReq fun gk => run_bind keeps_tensorReq fun gv => ?_
  dsimp only
  split
  · exact run_bind keeps_lenRecs fun _ => run_pure
  · exact run_bind run_pure fun _ => run_pure

theorem keeps_startAttendBwd {k} : KeepsRun s₀ (startAttendBwd k) := by
  grind [startAttendBwd, run_pure, run_bind, keeps_rejectOn, keeps_bwdPlan]

theorem keeps_rowsVals {k t' x} : KeepsRun s₀ (rowsVals k t' x) := by
  induction x with
  | nil => exact run_pure
  | cons x xs ih => grind [rowsVals, run_pure, run_bind, keeps_readRow]

theorem keeps_writeGrad {k t' r vs} : KeepsRun s₀ (writeGrad k t' r vs) := keeps_writeRow

theorem keeps_headTerms {k p b h' keys x} : KeepsRun s₀ (headTerms k p b h' keys x) := by
  induction x with
  | nil => exact run_pure
  | cons x xs ih => grind [headTerms, run_pure, run_bind, keeps_readNum, keeps_rowsVals]

theorem keeps_writeGq {k p b h' keys rows i} : KeepsRun s₀ (writeGq k p b h' keys rows i) := keeps_writeGrad

theorem keeps_headsTerms {k p b g keys x} : KeepsRun s₀ (headsTerms k p b g keys x) := by
  induction x with
  | nil => exact run_pure
  | cons x xs ih => grind [headsTerms, run_pure, run_bind, keeps_forRows, keeps_headTerms, keeps_writeGq]

theorem keeps_writeGkv {k p b g all j} : KeepsRun s₀ (writeGkv k p b g all j) := by
  grind [writeGkv, run_bind, keeps_writeGrad]

theorem keeps_bwdHead {k p b g} : KeepsRun s₀ (bwdHead k p b g) := by
  grind [bwdHead, run_bind, keeps_forRows, keeps_keysOf, keeps_headsTerms, keeps_writeGkv]

theorem keeps_unitAttendBwd {k x} : KeepsRun s₀ (unitAttendBwd k x) := by
  grind [unitAttendBwd, run_bind, keeps_rejectOn, keeps_forRows, keeps_bwdPlan, keeps_bwdHead]

end Sys2Proof.Laws
end

section
/-!
SUPPORT. The queue and memory's canonical form are kept by ENCODE, DECODE and MOTION.
-/
namespace Sys2Proof.Laws

open Sys2Proof Sys2Proof.Machine

variable {s s₀ t : State}

theorem keeps_readFrame {k a off} : KeepsRun s₀ (readFrame k a off) := by
  grind [readFrame, run_pure, run_bind, keeps_readMem]

theorem keeps_readPlane {k a pitch bytes x} : KeepsRun s₀ (readPlane k a pitch bytes x) := by
  induction x with
  | nil => exact run_pure
  | cons x xs ih => grind [readPlane, run_pure, run_bind, keeps_readMem]

theorem keeps_writePlane {k a pitch bytes data x} : KeepsRun s₀ (writePlane k a pitch bytes data x) := by
  induction x with
  | nil => exact run_pure
  | cons x xs ih => grind [writePlane, run_pure, run_bind, keeps_writeMem]

theorem keeps_readPlanes {k f} : KeepsRun s₀ (readPlanes k f) := by
  grind [readPlanes, run_pure, run_bind, keeps_readPlane]

theorem keeps_writePlanes {k f ps} : KeepsRun s₀ (writePlanes k f ps) := by
  grind [writePlanes, run_pure, run_throw, run_bind, run_get, keeps_writePlane]

theorem keeps_bumpCodec {d i n} : Keeps s (bumpCodec s d i n) := keeps_refl

theorem keeps_denySlots {k d a mask} : KeepsRun s₀ (denySlots k d a mask) := by
  unfold denySlots
  refine run_get fun s h => ?_
  split
  · exact run_bind (run_modify fun s h => keeps_trans h keeps_modCmd) fun _ => keeps_failWith
  · exact run_pure

theorem keeps_engineOn {d} : KeepsRun s₀ (engineOn d) := by
  grind [engineOn, run_pure, run_throw, run_bind, run_get]

theorem keeps_encodePlan {k die} : KeepsRun s₀ (encodePlan k die) := by
  grind [encodePlan, run_pure, run_bind, run_get, keeps_readMem, keeps_readFrame]

theorem keeps_checkEncode {k die} : KeepsRun s₀ (checkEncode k die) := by
  grind [checkEncode, run_bind, run_get, keeps_rejectOn, keeps_engineOn, keeps_encodePlan]

theorem keeps_startEncode {k} : KeepsRun s₀ (startEncode k) := by
  grind [startEncode, run_pure, run_bind, keeps_checkEncode]

theorem keeps_refPlanes {k die x} : KeepsRun s₀ (refPlanes k die x) := by
  induction x with
  | nil => exact run_pure
  | cons x xs ih => grind [refPlanes, run_pure, run_bind, run_get, keeps_readPlanes]

theorem keeps_encodeOn {k die} : KeepsRun s₀ (encodeOn k die) := by
  unfold encodeOn
  refine run_get fun s h => run_guard <| run_bind keeps_encodePlan fun x => run_get fun s h => run_bind keeps_rejectOn fun _ =>
    run_bind keeps_denySlots fun _ => run_bind keeps_readPlanes fun src => run_bind keeps_refPlanes fun refs => ?_
  dsimp only
  refine run_get fun s h => run_get fun s h => ?_
  grind [run_bind, run_modify, Keeps, keeps_setSlot, keeps_writeMem, keeps_writePlanes, keeps_bumpCodec, keeps_modCmd,
    keeps_settlePool]

theorem keeps_unitEncode {k x} : KeepsRun s₀ (unitEncode k x) := keeps_encodeOn

theorem keeps_readFrames {k a x} : KeepsRun s₀ (readFrames k a x) := by
  induction x with
  | nil => exact run_pure
  | cons x xs ih => grind [readFrames, run_pure, run_bind, keeps_readFrame]

theorem keeps_decodePlan {k} : KeepsRun s₀ (decodePlan k) := by
  grind [decodePlan, run_pure, run_bind, run_get, keeps_readMem, keeps_readFrames]

theorem keeps_startDecode {k} : KeepsRun s₀ (startDecode k) := by
  grind [startDecode, run_pure, run_bind, keeps_rejectOn, keeps_engineOn, keeps_decodePlan]

theorem keeps_writePictures {k x y} : KeepsRun s₀ (writePictures k x y) := by
  induction x generalizing y with
  | nil => exact run_pure
  | cons f fs ih =>
    cases y with
    | nil => exact run_pure
    | cons p ps => exact run_bind keeps_writePlanes fun _ => ih

theorem keeps_dropPending {a d} : Keeps s (dropPending a d s) := by
  grind [dropPending, Keeps, keeps_foldl, keeps_setSlot]

theorem keeps_breakStream {k bytes consumed resyncs reason} : KeepsRun s₀ (breakStream k bytes consumed resyncs reason) := by
  grind [breakStream, run_bind, run_modify, Keeps, keeps_failWith, keeps_writeMem, keeps_bumpCodec, keeps_dropPending]

theorem keeps_unitDecode {k x} : KeepsRun s₀ (unitDecode k x) := by
  unfold unitDecode
  refine run_get fun s h => run_guard <| run_bind keeps_decodePlan fun x => run_bind keeps_rejectOn fun _ =>
    run_bind keeps_denySlots fun _ => run_bind keeps_readMem fun unit => run_get fun s h => ?_
  dsimp only
  refine run_bind (run_set (keeps_trans h keeps_refl)) fun _ => ?_
  grind [run_bind, run_modify, Keeps, keeps_breakStream, keeps_rejectOn, keeps_foldl, keeps_setSlot, keeps_writePictures,
    keeps_writeMem, keeps_modCodec, keeps_bumpCodec, keeps_modCmd, keeps_settlePool]

theorem keeps_motionPlan {k} : KeepsRun s₀ (motionPlan k) := by
  grind [motionPlan, run_pure, run_bind, keeps_tensorReq]

theorem keeps_startMotion {k} : KeepsRun s₀ (startMotion k) := by
  grind [startMotion, run_pure, run_bind, keeps_rejectOn, keeps_engineOn, keeps_motionPlan]

theorem keeps_planeRows {k t' f x} : KeepsRun s₀ (planeRows k t' f x) := by
  induction x with
  | nil => exact run_pure
  | cons x xs ih => grind [planeRows, run_pure, run_bind, keeps_readRowCodes]

theorem keeps_readMotion {k t'} : KeepsRun s₀ (readMotion k t') := by
  grind [readMotion, run_pure, run_bind, keeps_planeRows]

theorem keeps_motionOn {k die} : KeepsRun s₀ (motionOn k die) := by
  unfold motionOn
  refine run_get fun s h => run_guard <| run_bind keeps_motionPlan fun x => run_bind keeps_rejectOn fun _ =>
    run_bind keeps_readMotion fun cur => run_bind keeps_readMotion fun prev => run_bind keeps_writeMem fun _ =>
    run_modify fun s h => keeps_trans h keeps_bumpCodec

theorem keeps_unitMotion {k x} : KeepsRun s₀ (unitMotion k x) := keeps_motionOn

end Sys2Proof.Laws
end

section
/-!
SUPPORT. The queue and memory's canonical form are kept by COLLECTIVE and the steps of ring attention.
-/
namespace Sys2Proof.Laws

open Sys2Proof Sys2Proof.Machine

variable {s s₀ t : State}

theorem keeps_readGroup {k a byte} : KeepsRun s₀ (readGroup k a byte) := by
  grind [readGroup, run_pure, run_bind, keeps_readMem]

theorem keeps_collPlan {k die} : KeepsRun s₀ (collPlan k die) := by
  grind [collPlan, run_pure, run_bind, run_get, keeps_tensorReq, keeps_readGroup]

theorem keeps_markScratch {k p} : Keeps s (markScratch k p s) := keeps_refl

theorem keeps_startCollective {k} : KeepsRun s₀ (startCollective k) := by
  grind [startCollective, run_pure, run_bind, run_modify, Keeps, keeps_rejectOn, keeps_collPlan, keeps_markScratch]

theorem keeps_readElems {k tc t' x y z} : KeepsRun s₀ (readElems k tc t' x y z) := by
  induction x generalizing k tc t' y z with
  | zero => exact run_pure
  | succ n ih => grind [readElems, run_pure, run_bind, keeps_readRowCodes]

theorem keeps_writeCols {k tc t' r c0 cs} : KeepsRun s₀ (writeCols k tc t' r c0 cs) := by
  grind [writeCols, run_bind, keeps_writeRuns]

theorem keeps_writeElems {k tc t' x y z} : KeepsRun s₀ (writeElems k tc t' x y z) := by
  induction x generalizing k tc t' y z with
  | zero => exact run_pure
  | succ n ih => grind [writeElems, run_pure, run_bind, keeps_writeCols]

theorem keeps_writeColl {k p e0 vs} : KeepsRun s₀ (writeColl k p e0 vs) := by
  grind [writeColl, run_bind, keeps_addNans, keeps_writeElems]

theorem keeps_writeResult {k p vals} : KeepsRun s₀ (writeResult k p vals) := by
  grind [writeResult, run_bind, keeps_writeElems, keeps_writeColl]

theorem keeps_readWork {k p r} : KeepsRun s₀ (readWork k p r) := by
  grind [readWork, run_pure, run_bind, keeps_readMem]

theorem keeps_valueOf {k p first r} : KeepsRun s₀ (valueOf k p first r) := by
  grind [valueOf, run_pure, run_bind, keeps_readElems, keeps_readWork]

theorem keeps_valuesOf {k p first x} : KeepsRun s₀ (valuesOf k p first x) := by
  induction x with
  | nil => exact run_pure
  | cons x xs ih => grind [valuesOf, run_pure, run_bind, keeps_valueOf]

theorem keeps_codesOf {k p x} : KeepsRun s₀ (codesOf k p x) := by
  induction x with
  | nil => exact run_pure
  | cons x xs ih => grind [codesOf, run_pure, run_bind, keeps_readElems]

theorem keeps_stepBytes {k p x} : KeepsRun s₀ (stepBytes k p x) := by
  grind [stepBytes, run_pure, run_bind, keeps_valuesOf, keeps_codesOf]

theorem keeps_mergeRanges {k p first lower x y} : KeepsRun s₀ (mergeRanges k p first lower x y) := by
  induction x generalizing k p first lower y with
  | nil => exact run_pure
  | cons x xs ih => grind [mergeRanges, run_pure, run_bind, keeps_writeMem, keeps_valueOf]

theorem keeps_keepRanges {k p x} : KeepsRun s₀ (keepRanges k p x) := by
  induction x with
  | nil => exact run_pure
  | cons x xs ih => grind [keepRanges, run_pure, run_bind, keeps_writeMem, keeps_valueOf]

theorem keeps_moveRanges {k p x y} : KeepsRun s₀ (moveRanges k p x y) := by
  induction x generalizing k p y with
  | nil => exact run_pure
  | cons x xs ih => grind [moveRanges, run_pure, run_bind, keeps_writeElems]

theorem keeps_absorb {k p x t'} : KeepsRun s₀ (absorb k p x t') := by
  grind [absorb, run_pure, run_bind, keeps_readMem, keeps_mergeRanges, keeps_keepRanges, keeps_moveRanges]

theorem keeps_placeOwn {k p} : KeepsRun s₀ (placeOwn k p) := by
  grind [placeOwn, run_pure, run_bind, keeps_readElems, keeps_writeElems, keeps_writeColl, keeps_readWork]

theorem keeps_modColl {k f} : KeepsRun s₀ (modColl k f) := by
  grind [modColl, run_bind, run_modify, Keeps, keeps_modCmd]

theorem keeps_sendStep {k p news x t' peer} : KeepsRun s₀ (sendStep k p news x t' peer) := by
  unfold sendStep
  refine run_get fun s h => run_get fun s h => ?_
  grind [run_pure, run_bind, run_get, keeps_stepBytes, keeps_writeMem, keeps_modColl, keeps_signalOne]

theorem keeps_sendSteps {k p news x t' peers} : KeepsRun s₀ (sendSteps k p news x t' peers) := by
  grind [sendSteps, run_bind, keeps_forRows, keeps_sendStep]

theorem keeps_arrived {k p x} : KeepsRun s₀ (arrived k p x) := by
  grind [arrived, run_pure, run_bind, run_get, keeps_readNum, keeps_modColl]

theorem keeps_closeStep {k p x t'} : KeepsRun s₀ (closeStep k p x t') := by
  grind [closeStep, run_pure, run_throw, run_bind, run_get, keeps_absorb, keeps_placeOwn, keeps_modColl, keeps_arrived]

theorem keeps_spoilBreach {k rs} : KeepsRun s₀ (spoilBreach k rs) := by
  grind [spoilBreach, run_pure, run_throw, run_bind, run_get, keeps_forRows, keeps_spoilRange]

theorem keeps_runCollStep {k p news peers} : KeepsRun s₀ (runCollStep k p news peers) := by
  unfold runCollStep
  refine run_get fun s h => ?_
  grind [run_pure, run_bind, run_get, keeps_spoilBreach, keeps_placeOwn, keeps_sendSteps, keeps_closeStep]

theorem keeps_spoilWork {k done acc} : Keeps s (spoilWork s k done acc) := by
  grind [spoilWork, Keeps, keeps_setSlot, keeps_spoilRanges]

theorem keeps_spoilCmd {u st} : Keeps s (spoilCmd s u st) := by
  grind [spoilCmd, Keeps, keeps_spoilWork]

theorem keeps_spoilGroup {c others st} : Keeps s (spoilGroup s c others st) := by
  grind [spoilGroup, Keeps, keeps_foldl, keeps_spoilCmd]

theorem keeps_endMember {b lost v} : Keeps s (endMember b lost s v) := by
  grind [endMember, Keeps, Option.elim.eq_def, keeps_modCmd, keeps_failCmd]

theorem keeps_endGroup {b others} : Keeps s (endGroup s b others) := by
  grind [endGroup, Keeps, keeps_foldl, keeps_endMember]

theorem keeps_absorbKids {u} : Keeps s (absorbKids s u) := by
  grind [absorbKids, Keeps, keeps_foldl, keeps_modCmd, keeps_dropKids]

theorem keeps_stopKids {u st} : Keeps s (stopKids s u st) := by
  unfold stopKids
  refine keeps_trans (keeps_foldl fun s v => ?_) keeps_absorbKids
  grind [Keeps, Option.elim.eq_def, keeps_spoilGroup, keeps_dropGroups, keeps_endGroup]

theorem keeps_stopMember {c st} : Keeps s (stopMember s c st) := by
  grind [stopMember, Keeps, keeps_failCmd, keeps_endGroup, keeps_stopKids]

theorem keeps_failMember {c st} : Keeps s (failMember s c st) := by
  grind [failMember, Keeps, keeps_spoilGroup, keeps_stopKids, keeps_stopMember]

theorem keeps_settleMember {c x} (h : Keeps s t) : Keeps s (settleMember s t c x) := by
  grind [settleMember.eq_def, Keeps, keeps_settleStop, keeps_spoilGroup, keeps_endGroup]

theorem keeps_hearFailure {c} : Keeps s (hearFailure s c) := by
  grind [hearFailure, Keeps, keeps_foldl, keeps_dropGroups, keeps_endMember, keeps_failMember]

theorem keeps_endTogether {c f} (hf : ∀ s c, Keeps s (f s c)) : Keeps s (endTogether s c f) := by
  grind [endTogether, Keeps, keeps_dropGroups, keeps_failMember]

theorem keeps_readCounters {k scratch x} : KeepsRun s₀ (readCounters k scratch x) := by
  induction x with
  | nil => exact run_pure
  | cons x xs ih => grind [readCounters, run_pure, run_bind, keeps_readNum]

theorem keeps_joinOne {flow c} : Keeps s (joinOne flow s c) := by
  unfold joinOne
  split
  · exact keeps_refl
  · generalize h : StateT.run (ExceptT.run _) s = r
    have hr : Keeps s r.2 := by
      rw [← h]
      exact keeps_run (by grind [run_bind, keeps_collPlan, keeps_rejectOn, keeps_readCounters, keeps_modColl])
    grind [Keeps, keeps_settleMember]

theorem keeps_joinGroup {c prints} : Keeps s (joinGroup s c prints) := by
  grind [joinGroup, Keeps, keeps_foldl, keeps_failCmd, keeps_rejectCmd, keeps_spoilCmd, keeps_joinOne]

theorem keeps_signalSteps {k p} : KeepsRun s₀ (signalSteps k p) := by
  grind [signalSteps, run_pure, run_bind, keeps_signalOne, keeps_forRows]

theorem keeps_finishMember {vals m} : Keeps s (finishMember vals s m) := by
  unfold finishMember
  split
  · exact keeps_refl
  · split
    · exact keeps_refl
    · split
      · exact keeps_refl
      · generalize h : StateT.run (ExceptT.run _) s = r
        have hr : Keeps s r.2 := by
          rw [← h]
          exact keeps_run (by grind [run_bind, keeps_writeResult, keeps_signalSteps, keeps_spoilBreach])
        grind [Keeps, keeps_doneCmd, keeps_settleMember]

theorem keeps_memberStep {c news peers} : Keeps s (memberStep s c news peers) := by
  unfold memberStep
  split
  · exact keeps_refl
  · generalize h : StateT.run (ExceptT.run _) s = r
    have hr : Keeps s r.2 := by
      rw [← h]
      exact keeps_run (run_bind keeps_collPlan fun _ => run_bind keeps_rejectOn fun _ => keeps_runCollStep)
    grind [Keeps, keeps_doneCmd, keeps_settleMember]

theorem keeps_stepAll {n us} : Keeps s (stepAll n s us) := by
  grind [stepAll, Keeps, keeps_foldl, keeps_memberStep]

theorem keeps_stepRounds {n us x} : Keeps s (stepRounds n us x s) := by
  induction x generalizing s with
  | zero => exact keeps_refl
  | succ n ih => grind [stepRounds, Keeps, keeps_stepAll]

theorem keeps_runCollective {c} : Keeps s (runCollective s c) := by
  grind [runCollective, Keeps, keeps_foldl, keeps_finishMember, keeps_stepRounds]

theorem keeps_writeNotices {k rank v x} : KeepsRun s₀ (writeNotices k rank v x) := by
  induction x with
  | nil => exact run_pure
  | cons x xs ih => grind [writeNotices, run_pure, run_bind, keeps_writeMem]

theorem keeps_agreeYield {c b} : Keeps s (agreeYield s c b) := by
  grind [agreeYield, Keeps, keeps_foldl, keeps_modCmd]

theorem keeps_askYield {c answers} : Keeps s (askYield s c answers) := by
  unfold askYield
  dsimp only
  generalize h : StateT.run (ExceptT.run _) s = r
  have hr : Keeps s r.2 := by
    rw [← h]
    exact keeps_run (by grind [run_pure, run_bind, keeps_collPlan, keeps_writeNotices])
  grind [Keeps, keeps_agreeYield, keeps_settleMember]

theorem keeps_findNotice {k scratch x} : KeepsRun s₀ (findNotice k scratch x) := by
  induction x with
  | nil => exact run_pure
  | cons x xs ih => grind [findNotice, run_pure, run_bind, keeps_readNum]

theorem keeps_serveNotice {c} : Keeps s (serveNotice s c) := by
  unfold serveNotice
  generalize h : StateT.run (ExceptT.run _) s = r
  have hr : Keeps s r.2 := by
    rw [← h]
    refine keeps_run (run_bind keeps_collPlan fun x => run_bind keeps_rejectOn fun _ => run_bind keeps_findNotice fun o => ?_)
    grind [run_pure, run_bind, keeps_writeMem, keeps_modColl]
  grind [keeps_settleMember]

theorem keeps_rowsBytes {k t' x} : KeepsRun s₀ (rowsBytes k t' x) := by
  induction x with
  | nil => exact run_pure
  | cons x xs ih => grind [rowsBytes, run_pure, run_bind, keeps_readRowCodes]

theorem keeps_headBytes {k t' nk tokens g} : KeepsRun s₀ (headBytes k t' nk tokens g) := by
  grind [headBytes, run_pure, run_bind, keeps_rowsBytes]

theorem keeps_headsBytes {k t' nk tokens x} : KeepsRun s₀ (headsBytes k t' nk tokens x) := by
  induction x with
  | nil => exact run_pure
  | cons x xs ih => grind [headsBytes, run_pure, run_bind, keeps_headBytes]

theorem keeps_shardImage {k p tokens} : KeepsRun s₀ (shardImage k p tokens) := by
  grind [shardImage, run_pure, run_bind, keeps_headsBytes]

theorem keeps_chunkBytes {k g p tokens m r c} : KeepsRun s₀ (chunkBytes k g p tokens m r c) := by
  grind [chunkBytes, run_pure, run_bind, keeps_readMem, keeps_shardImage]

theorem keeps_runShardUnit {k q u} : KeepsRun s₀ (runShardUnit k q u) := by
  grind [runShardUnit, run_bind, keeps_unitPartials, keeps_keepPart]

theorem keeps_runShardUnits {k q x} : KeepsRun s₀ (runShardUnits k q x) := by
  induction x with
  | nil => exact run_pure
  | cons x xs ih =>
    grind [runShardUnits, run_pure, run_bind, run_get, run_modify, Keeps, Option.elim.eq_def, keeps_modCmd,
      keeps_runShardUnit]

theorem keeps_ringFinish {k p x z} : KeepsRun s₀ (ringFinish k p x z) := by
  induction x generalizing z with
  | nil => exact run_pure
  | cons y rest ih =>
    cases z with
    | nil => exact run_pure
    | cons r rs =>
      refine run_bind (run_tryCatch keeps_writeAtt fun e => ?_) fun _ => ih
      grind [run_pure, run_throw, run_bind, run_modify, Keeps, keeps_forRows, keeps_spoilRange, keeps_modCmd]

theorem keeps_shardHeld {k q n shard} : KeepsRun s₀ (shardHeld k q n shard) := by
  grind [shardHeld, run_pure, run_bind, run_get, keeps_runShardUnits]

theorem keeps_endShard {k held} : KeepsRun s₀ (endShard k held) := by
  grind [endShard, run_bind, run_modify, Keeps, keeps_modCmd]

theorem keeps_runRingStep {k} : KeepsRun s₀ (runRingStep k) := by
  unfold runRingStep
  refine run_bind keeps_attPlan fun x => run_bind keeps_rejectOn fun _ => run_get fun s h => run_get fun s h => ?_
  refine run_ite run_pure (run_ite ?_ ?_)
  · refine run_bind keeps_chunkBytes fun bs => run_bind keeps_writeMem fun _ => run_ite ?_ ?_
    · exact run_bind keeps_shardHeld fun held => run_bind keeps_writeMem fun _ => run_bind keeps_endShard fun _ =>
        run_bind keeps_modColl fun _ => run_pure
    · exact run_bind keeps_modColl fun _ => run_pure
  · exact run_bind keeps_shardHeld fun held => run_bind keeps_ringFinish fun _ => run_bind keeps_spoilBreach fun _ =>
      run_bind keeps_endShard fun _ => run_bind keeps_modColl fun _ => run_pure

theorem keeps_ringStep {c} : Keeps s (ringStep s c) := by
  grind [ringStep, Keeps, keeps_run, keeps_doneCmd, keeps_settleMember, keeps_runRingStep]

theorem keeps_shardUnits {r c} : KeepsRun s₀ (shardUnits r c) := by
  grind [shardUnits, run_pure, run_bind, keeps_rejectOn, keeps_attPlan]

end Sys2Proof.Laws
end

section
/-!
SUPPORT. The queue and memory's canonical form are kept by MATMUL, MATMUL_LIST and MATMUL_CHAIN.
-/
namespace Sys2Proof.Laws

open Sys2Proof Sys2Proof.Machine

variable {s s₀ t : State}

theorem keeps_writeSpill {k spill rows w r vs rec} : KeepsRun s₀ (writeSpill k spill rows w r vs rec) := by
  grind [writeSpill, run_bind, keeps_writeMem]

theorem keeps_spillStage {k spill rows w r rs} : KeepsRun s₀ (spillStage k spill rows w r rs) := by
  grind [spillStage, run_bind, keeps_addNans, keeps_writeSpill]

theorem keeps_readSpill {k spill rows w r} : KeepsRun s₀ (readSpill k spill rows w r) := by
  grind [readSpill, run_pure, run_bind, keeps_readMem]

theorem keeps_programAt {k lo} : KeepsRun s₀ (programAt k lo) := by
  grind [programAt, run_pure, run_bind, keeps_readProgram]

theorem keeps_bindBlock {k lo} : KeepsRun s₀ (bindBlock k lo) := by
  grind [bindBlock, run_pure, run_bind, keeps_readMem]

theorem keeps_boundTensor {k addr off} : KeepsRun s₀ (boundTensor k addr off) := by
  grind [boundTensor, run_pure, run_bind, keeps_readTensor]

theorem keeps_boundTensors {k off x} : KeepsRun s₀ (boundTensors k off x) := by
  induction x with
  | nil => exact run_pure
  | cons x xs ih => grind [boundTensors, run_pure, run_bind, keeps_boundTensor]

theorem keeps_mmPlanOf {k rowsOf count} (hr : ∀ t, KeepsRun s₀ (rowsOf t)) : KeepsRun s₀ (mmPlanOf k rowsOf count) := by
  unfold mmPlanOf
  refine run_bind keeps_tensorReq fun a => run_bind keeps_tensorReq fun b => run_bind keeps_tensorReq fun c =>
    run_bind keeps_programAt fun epi => run_bind keeps_programAt fun pro => run_bind keeps_bindBlock fun bind =>
    run_bind keeps_boundTensors fun epiIns => run_bind keeps_boundTensors fun proIns => ?_
  exact run_either run_pure keeps_tensorAt fun _ => run_bind (hr _) fun _ => run_get fun _ _ => run_pure

theorem keeps_runRows {k lo cap} : KeepsRun s₀ (runRows k lo cap) := by
  grind [runRows, run_pure, run_bind, keeps_readNum]

theorem keeps_matmulPlan {k} : KeepsRun s₀ (matmulPlan k) := by
  grind [matmulPlan, run_pure, run_bind, run_get, keeps_mmPlanOf, keeps_runRows]

theorem keeps_readEntries {k a x} : KeepsRun s₀ (readEntries k a x) := by
  induction x generalizing k a with
  | zero => exact run_pure
  | succ n ih => grind [readEntries, run_pure, run_bind, keeps_readMem]

theorem keeps_matmulListPlan {k} : KeepsRun s₀ (matmulListPlan k) := by
  unfold matmulListPlan
  exact run_bind keeps_readEntries fun raw => run_bind (keeps_mmPlanOf fun _ => run_pure) fun x => run_get fun _ _ => run_pure

theorem keeps_producerRow {k c desc t' a i} : KeepsRun s₀ (producerRow k c desc t' a i) := by
  unfold producerRow
  refine run_either keeps_readEntries run_pure fun raw => run_bind (keeps_mmPlanOf fun _ => run_pure) fun x => ?_
  grind [run_pure, run_bind, run_get, keeps_readRow, keeps_readSpill, keeps_slotsRow, keeps_addNans]

theorem keeps_streamedRow {k p a link r} : KeepsRun s₀ (streamedRow k p a link r) := by
  unfold streamedRow
  dsimp only
  split
  · refine run_bind keeps_producerRow fun xs => ?_
    grind [run_pure, run_bind, run_get, keeps_slotsRow, keeps_statsAt, keeps_addNans]
  · refine run_bind keeps_readRow fun xs => ?_
    grind [run_pure, run_bind, run_get, keeps_slotsRow, keeps_statsAt, keeps_addNans]

theorem keeps_writeStatsOut {k p red lr vs} : KeepsRun s₀ (writeStatsOut k p red lr vs) := by
  grind [writeStatsOut, run_pure, run_bind, keeps_writeMem, keeps_writeRow]

theorem keeps_writeProduct {k p c r lr c0 accs} : KeepsRun s₀ (writeProduct k p c r lr c0 accs) := by
  grind [writeProduct, run_pure, run_throw, run_bind, run_get, keeps_addNans, keeps_writePart, keeps_slotsRow,
    keeps_writeStatsOut]

theorem keeps_productRow {k p e ei link c0 cols r} : KeepsRun s₀ (productRow k p e ei link c0 cols r) := by
  grind [productRow, run_bind, keeps_streamedRow, keeps_writeProduct]

theorem keeps_spillRow {k p e ei count link cols r} : KeepsRun s₀ (spillRow k p e ei count link cols r) := by
  grind [spillRow, run_pure, run_bind, run_get, keeps_slotsRow, keeps_spillStage, keeps_streamedRow]

theorem keeps_secondRow {k p e ei count r} : KeepsRun s₀ (secondRow k p e ei count r) := by
  unfold secondRow
  split
  · exact run_pure
  · refine run_bind keeps_readSpill fun x => run_bind keeps_slotsRow fun slots => run_get fun _ _ =>
      run_bind keeps_addNans fun _ => run_bind keeps_writeRow fun _ => ?_
    grind [run_pure, keeps_writeStatsOut]

theorem keeps_runProductUnit {k p link u} : KeepsRun s₀ (runProductUnit k p link u) := by
  grind [runProductUnit, run_pure, run_bind, run_get, keeps_forRows, keeps_stationaryRows, keeps_productRow,
    keeps_spillRow, keeps_secondRow]

theorem keeps_startMatmul {k} : KeepsRun s₀ (startMatmul k) := by
  grind [startMatmul, run_pure, run_bind, run_modify, Keeps, keeps_modCmd, keeps_rejectOn, keeps_matmulPlan]

theorem keeps_startMatmulList {k} : KeepsRun s₀ (startMatmulList k) := by
  grind [startMatmulList, run_pure, run_bind, run_modify, Keeps, keeps_modCmd, keeps_rejectOn, keeps_matmulListPlan]

theorem keeps_unitsMatmul {k} : KeepsRun s₀ (unitsMatmul k) := by
  grind [unitsMatmul, run_pure, run_bind, keeps_rejectOn, keeps_matmulPlan]

theorem keeps_unitMatmul {k u} : KeepsRun s₀ (unitMatmul k u) := by
  grind [unitMatmul, run_bind, run_get, keeps_rejectOn, keeps_matmulPlan, keeps_runProductUnit]

theorem keeps_unitsMatmulList {k} : KeepsRun s₀ (unitsMatmulList k) := by
  grind [unitsMatmulList, run_pure, run_bind, keeps_rejectOn, keeps_matmulListPlan]

theorem keeps_unitMatmulList {k u} : KeepsRun s₀ (unitMatmulList k u) := by
  grind [unitMatmulList, run_bind, run_get, keeps_rejectOn, keeps_matmulListPlan, keeps_runProductUnit]

theorem keeps_chainPlan {k} : KeepsRun s₀ (chainPlan k) := by
  unfold chainPlan
  exact run_bind keeps_tensorReq fun a => run_bind keeps_tensorReq fun b1 => run_bind keeps_tensorReq fun b2 =>
    run_bind keeps_tensorReq fun y => run_bind keeps_readProgram fun fn => run_bind keeps_programAt fun epi =>
    run_bind keeps_bindBlock fun bind => run_bind keeps_boundTensors fun fnIns => run_bind keeps_boundTensors fun epiIns =>
    run_bind keeps_runRows fun r => run_get fun _ _ => run_pure

theorem keeps_chainH {k p link cols1 need r} : KeepsRun s₀ (chainH k p link cols1 need r) := by
  grind [chainH.eq_def, run_pure, run_bind, keeps_readRow, keeps_producerRow]

theorem keeps_chainSlots {k p h' r} : KeepsRun s₀ (chainSlots k p h' r) := by
  grind [chainSlots, run_pure, run_bind, keeps_slotsRow]

theorem keeps_chainSpill {k p link cols1 r} : KeepsRun s₀ (chainSpill k p link cols1 r) := by
  grind [chainSpill, run_bind, run_get, keeps_spillStage, keeps_chainH, keeps_chainSlots]

theorem keeps_chainFn {k p link cols1 g r} : KeepsRun s₀ (chainFn k p link cols1 g r) := by
  grind [chainFn, run_pure, run_bind, run_get, keeps_readSpill, keeps_chainH, keeps_chainSlots]

theorem keeps_chainSlice {k p link cols1 g r} : KeepsRun s₀ (chainSlice k p link cols1 g r) := by
  grind [chainSlice, run_pure, run_bind, keeps_addNans, keeps_chainFn]

theorem keeps_chainPartial {k p link cols1 cols2 g r} : KeepsRun s₀ (chainPartial k p link cols1 cols2 g r) := by
  grind [chainPartial, run_pure, run_bind, keeps_chainSlice]

theorem keeps_chainPartials {k p link cols1 cols2 g x} : KeepsRun s₀ (chainPartials k p link cols1 cols2 g x) := by
  induction x with
  | nil => exact run_pure
  | cons x xs ih => grind [chainPartials, run_pure, run_bind, keeps_chainPartial]

theorem keeps_keepSum {k x} : KeepsRun s₀ (keepSum k x) := by
  grind [keepSum, run_bind, run_modify, Keeps, keeps_modCmd]

theorem keeps_chainOut {k p accs r} : KeepsRun s₀ (chainOut k p accs r) := by
  grind [chainOut, run_bind, run_get, keeps_addNans, keeps_writeRow, keeps_slotsRow]

theorem keeps_runChainUnit {k p link cols1 cols2 u} : KeepsRun s₀ (runChainUnit k p link cols1 cols2 u) := by
  grind [runChainUnit, run_pure, run_throw, run_bind, run_get, run_modify, Keeps, keeps_modCmd, keeps_forRows,
    keeps_chainSpill, keeps_chainPartials, keeps_keepSum, keeps_chainOut]

theorem keeps_startChain {k} : KeepsRun s₀ (startChain k) := by
  grind [startChain, run_pure, run_bind, run_modify, Keeps, keeps_modCmd, keeps_rejectOn, keeps_chainPlan]

theorem keeps_unitsChain {k} : KeepsRun s₀ (unitsChain k) := by
  grind [unitsChain, run_pure, run_bind, keeps_rejectOn, keeps_chainPlan]

theorem keeps_unitChain {k u} : KeepsRun s₀ (unitChain k u) := by
  grind [unitChain, run_bind, run_get, keeps_rejectOn, keeps_stationaryRows, keeps_chainPlan, keeps_runChainUnit]

theorem keeps_secondPass {k} : KeepsRun s₀ (secondPass k) := by
  grind [secondPass, run_bind, run_get, keeps_rejectOn, keeps_forRows, keeps_matmulPlan, keeps_matmulListPlan,
    keeps_runProductUnit]

end Sys2Proof.Laws
end

section
/-!
SUPPORT. The queue and memory's canonical form are kept by CONV.
-/
namespace Sys2Proof.Laws

open Sys2Proof Sys2Proof.Machine

variable {s s₀ t : State}

theorem keeps_convPlan {k} : KeepsRun s₀ (convPlan k) := by
  unfold convPlan
  exact run_bind keeps_tensorReq fun x => run_bind keeps_tensorAt fun wt => run_bind keeps_tensorReq fun y =>
    run_bind keeps_programAt fun epi => run_bind keeps_bindBlock fun bind => run_bind keeps_boundTensors fun ins =>
    run_get fun _ _ => run_pure

theorem keeps_gather {k p val x} : KeepsRun s₀ (gather k p val x) := by
  induction x with
  | nil => exact run_pure
  | cons o rest ih =>
    cases o with
    | none => exact run_bind ih fun _ => run_pure
    | some r => exact run_bind keeps_readRow fun xs => run_bind ih fun _ => run_pure

theorem keeps_weightCols {k t'} : KeepsRun s₀ (weightCols k t') := by
  grind [weightCols, run_pure, run_bind, keeps_stationaryRows]

theorem keeps_convPixel {k p cols m} : KeepsRun s₀ (convPixel k p cols m) := by
  grind [convPixel, run_pure, run_bind, keeps_foldl, keeps_readRow32, keeps_gather]

theorem keeps_foldPixel_go {p oh ow row xs} (hr : ∀ i j, KeepsRun s₀ (row i j)) :
    KeepsRun s₀ (foldPixel.go p oh ow row xs) := by
  induction xs with
  | nil => exact run_pure
  | cons y rest ih => exact run_bind (hr _ _) fun x => run_bind ih fun _ => run_pure

theorem keeps_foldPixel {k p m} : KeepsRun s₀ (foldPixel k p m) := by
  grind [foldPixel, run_pure, run_bind, keeps_readRowCodes, keeps_foldPixel_go]

theorem keeps_movedPixel {k p m} : KeepsRun s₀ (movedPixel k p m) := by
  grind [movedPixel, run_pure, run_bind, keeps_readRowCodes, keeps_readRowScales, keeps_foldPixel]

theorem keeps_convRow {k p cols c0 m} : KeepsRun s₀ (convRow k p cols c0 m) := by
  grind [convRow, run_bind, run_get, keeps_addNans, keeps_writePart, keeps_slotsRow, keeps_convPixel, keeps_movedPixel]

theorem keeps_startConv {k} : KeepsRun s₀ (startConv k) := by
  grind [startConv, run_pure, run_bind, keeps_rejectOn, keeps_convPlan]

theorem keeps_unitsConv {k} : KeepsRun s₀ (unitsConv k) := by
  grind [unitsConv, run_pure, run_bind, keeps_rejectOn, keeps_convPlan]

theorem keeps_unitConv {k u} : KeepsRun s₀ (unitConv k u) := by
  grind [unitConv, run_pure, run_bind, keeps_rejectOn, keeps_forRows, keeps_convPlan, keeps_weightCols, keeps_convRow]

end Sys2Proof.Laws
end

section
/-!
SUPPORT. The queue and memory's canonical form are kept by the units of each opcode.
-/
namespace Sys2Proof.Laws

open Sys2Proof Sys2Proof.Machine

variable {s s₀ t : State}

/-- The checks and units of each opcode keep the queue and the canonical form of memory. -/
theorem opSem_elim_keeps {op} : (opSem op).elim True WorkKeeps := by
  unfold opSem
  split
  · exact ⟨run_pure, run_pure, run_pure⟩
  · exact ⟨run_pure, keeps_unitsMove, keeps_unitCopy⟩
  · exact ⟨run_pure, keeps_unitsMove, keeps_unitFill⟩
  · exact ⟨keeps_startMatmul, keeps_unitsMatmul, keeps_unitMatmul⟩
  · exact ⟨keeps_startMatmulList, keeps_unitsMatmulList, keeps_unitMatmulList⟩
  · exact ⟨keeps_startChain, keeps_unitsChain, keeps_unitChain⟩
  · exact ⟨keeps_startConv, keeps_unitsConv, keeps_unitConv⟩
  · exact ⟨keeps_startAttend, keeps_unitsAttend, keeps_unitAttend⟩
  · exact ⟨keeps_startAttendBwd, run_pure, fun {_ _ _ u} => keeps_unitAttendBwd (x := u)⟩
  · exact ⟨keeps_startKvAppend, run_pure, fun {_ _ _ u} => keeps_unitKvAppend (x := u)⟩
  · exact ⟨keeps_startVecchain, keeps_unitsVecchain, keeps_unitVecchain⟩
  · exact ⟨keeps_startReduce, keeps_unitsReduce, keeps_unitReduce⟩
  · exact ⟨run_pure, keeps_unitsRandom, keeps_unitRandom⟩
  · exact ⟨keeps_startSample, keeps_unitsSample, keeps_unitSample⟩
  · exact ⟨keeps_startEncode, run_pure, fun {_ _ _ u} => keeps_unitEncode (x := u)⟩
  · exact ⟨keeps_startDecode, run_pure, fun {_ _ _ u} => keeps_unitDecode (x := u)⟩
  · exact ⟨keeps_startMotion, run_pure, fun {_ _ _ u} => keeps_unitMotion (x := u)⟩
  · trivial

theorem opSem_keeps {op x} (h : opSem op = some x) : WorkKeeps x := by
  have hk := opSem_elim_keeps (op := op)
  rwa [h] at hk

theorem keeps_markUnit {k u} : KeepsRun s₀ (markUnit k u) := by
  grind [markUnit, run_bind, run_modify, Keeps, keeps_modCmd]

theorem keeps_runUnits {x b k us} (hx : WorkKeeps x) : KeepsRun s₀ (runUnits x b k us) := by
  induction us with
  | nil => exact run_pure
  | cons u us ih =>
    rw [runUnits.eq_def]
    exact run_get fun s h => run_ite (run_bind hx.unit fun _ => run_bind keeps_markUnit fun _ => ih) ih

end Sys2Proof.Laws
end

section
/-!
SUPPORT. The queue and memory's canonical form are kept by REFINE.
-/
namespace Sys2Proof.Laws

open Sys2Proof Sys2Proof.Machine

variable {s s₀ t : State}

theorem keeps_rowBits {k table i} : KeepsRun s₀ (rowBits k table i) := by
  grind [rowBits, run_pure, run_bind, keeps_readMem]

theorem keeps_rowsOf {k table off x} : KeepsRun s₀ (rowsOf k table off x) := by
  induction x with
  | nil => exact run_pure
  | cons x xs ih => grind [rowsOf, run_pure, run_bind, keeps_rowBits]

theorem keeps_patchesOf {k a x} : KeepsRun s₀ (patchesOf k a x) := by
  induction x with
  | nil => exact run_pure
  | cons x xs ih => grind [patchesOf, run_pure, run_bind, keeps_readNum]

theorem keeps_slotAtGraph {k graph i} : KeepsRun s₀ (slotAtGraph k graph i) := by
  grind [slotAtGraph, run_pure, run_bind, keeps_readMem]

theorem keeps_graphChecks {k graph len off last x y} : KeepsRun s₀ (graphChecks k graph len off last x y) := by
  induction x generalizing k graph len off last y with
  | zero => exact run_pure
  | succ n ih => grind [graphChecks, run_pure, run_bind, keeps_slotAtGraph]

theorem keeps_warpFields {k height width x y} : KeepsRun s₀ (warpFields k height width x y) := by
  induction x generalizing k height width y with
  | zero => exact run_pure
  | succ n ih => grind [warpFields, run_pure, run_bind, keeps_readMem]

theorem keeps_warpVector {k f y x} : KeepsRun s₀ (warpVector k f y x) := by
  grind [warpVector, run_pure, run_bind, keeps_readNum]

theorem keeps_warpRow {k lat prev fs r} : KeepsRun s₀ (warpRow k lat prev fs r) := by
  grind [warpRow, run_bind, keeps_readRow32, keeps_writeRow, keeps_warpVector]

theorem keeps_warpUnit {k u} : KeepsRun s₀ (warpUnit k u) := by
  grind [warpUnit, run_bind, keeps_readTensor, keeps_forRows, keeps_warpFields, keeps_warpRow]

theorem keeps_updateRow {k lat pred r conv i} : KeepsRun s₀ (updateRow k lat pred r conv i) := by
  grind [updateRow, run_pure, run_bind, keeps_readRow32, keeps_writeRow]

theorem keeps_updateUnit {k src step u} : KeepsRun s₀ (updateUnit k src step u) := by
  grind [updateUnit, run_bind, keeps_readTensor, keeps_forRows, keeps_rowBits, keeps_updateRow]

theorem keeps_latentChecks {k src guide lo po} : KeepsRun s₀ (latentChecks k src guide lo po) := by
  grind [latentChecks, run_pure, run_bind, keeps_readTensor]

theorem keeps_srcChecks {k src og op ot ol opr of_} : KeepsRun s₀ (srcChecks k src og op ot ol opr of_) := by
  grind [srcChecks, run_pure, run_bind, keeps_rowsOf, keeps_patchesOf, keeps_graphChecks, keeps_latentChecks]

theorem keeps_readBallast {k} : KeepsRun s₀ (readBallast k) := by
  grind [readBallast, run_pure, run_bind, run_get, Option.elim.eq_def, keeps_readMem]

theorem keeps_mapEntry {k b e} : KeepsRun s₀ (mapEntry k b e) := keeps_readNum

theorem keeps_mapEntries {k b x} : KeepsRun s₀ (mapEntries k b x) := by
  induction x with
  | nil => exact run_pure
  | cons x xs ih => grind [mapEntries, run_pure, run_bind, keeps_mapEntry]

theorem keeps_ballastChecks {k} : KeepsRun s₀ (ballastChecks k) := by
  grind [ballastChecks, run_pure, run_bind, keeps_tryChecks, keeps_graphChecks, keeps_srcChecks, keeps_readBallast,
    keeps_mapEntries]

theorem keeps_warpChecks {k lat} : KeepsRun s₀ (warpChecks k lat) := by
  grind [warpChecks, run_pure, run_bind, keeps_readTensor, keeps_warpFields]

theorem keeps_graphOf {k p} : KeepsRun s₀ (graphOf k p) := by
  grind [graphOf, run_pure, run_bind, keeps_readBallast]

theorem keeps_formedAt {k g i} : KeepsRun s₀ (formedAt k g i) := by
  grind [formedAt, run_pure, run_bind, keeps_rowBits, keeps_patchesOf, keeps_slotAtGraph]

theorem keeps_commandTables {k d} : KeepsRun s₀ (commandTables k d) := by
  unfold commandTables
  split
  · exact run_pure
  next op hop =>
    refine run_get fun s h => run_bind (run_tryCatch ?_ fun e => ?_) fun r => run_bind (run_set h) fun _ => run_pure
    · exact run_bind (opSem_keeps hop).start fun _ => run_pure
    · grind [run_pure, run_throw]

theorem keeps_graphDescs_rowDescs {k g x y} : KeepsRun s₀ (graphDescs.rowDescs k g x y) := by
  induction x with
  | nil => exact run_pure
  | cons x xs ih => grind [graphDescs.rowDescs, run_pure, run_bind, keeps_formedAt]

theorem keeps_graphDescs {k g rows x y} : KeepsRun s₀ (graphDescs k g rows x y) := by
  induction x generalizing k g rows y with
  | zero => exact run_pure
  | succ n ih => grind [graphDescs, run_pure, run_bind, keeps_slotAtGraph, keeps_graphDescs_rowDescs]

theorem keeps_tablesOf {k x} : KeepsRun s₀ (tablesOf k x) := by
  induction x with
  | nil => exact run_pure
  | cons x xs ih => grind [tablesOf, run_pure, run_bind, keeps_commandTables]

theorem keeps_srcDescs {k src} : KeepsRun s₀ (srcDescs k src) := by
  grind [srcDescs, run_pure, run_bind, keeps_graphDescs]

theorem keeps_startRefine {k} : KeepsRun s₀ (startRefine k) := by
  unfold startRefine
  refine run_get fun s h => run_bind keeps_srcChecks fun x => run_bind (keeps_tryChecks keeps_warpChecks) fun b1 => ?_
  refine run_either (keeps_tryChecks keeps_ballastChecks) run_pure fun b2 => ?_
  refine run_bind keeps_rejectOn fun _ => run_bind keeps_srcDescs fun own => ?_
  split
  · refine run_bind keeps_readBallast fun b => run_bind keeps_srcDescs fun x => run_bind keeps_graphDescs fun y => ?_
    grind [run_pure, run_bind, run_modify, Keeps, keeps_tablesOf, keeps_modCmd]
  · grind [run_pure, run_bind, run_modify, Keeps, keeps_tablesOf, keeps_modCmd]

theorem keeps_addKid {k dies coll} : KeepsRun s₀ (addKid k dies coll) := by
  grind [addKid, run_pure, run_bind, run_get, run_set, Keeps]

theorem keeps_kidPlans {k x} : KeepsRun s₀ (kidPlans k x) := by
  induction x with
  | nil => exact run_pure
  | cons x xs ih => grind [kidPlans, run_pure, run_bind, keeps_collPlan]

theorem keeps_addMembers {k x} : KeepsRun s₀ (addMembers k x) := by
  induction x with
  | nil => exact run_pure
  | cons x xs ih => grind [addMembers, run_pure, run_bind, run_modify, Keeps, keeps_markScratch, keeps_addKid]

theorem keeps_startKids {k} : KeepsRun s₀ (startKids k) := by
  grind [startKids, run_bind, run_get, keeps_rejectOn, keeps_startAttend, keeps_modColl, keeps_addKid, keeps_kidPlans,
    keeps_addMembers]

theorem keeps_ringRounds {x y} : Keeps s (ringRounds x s y) := by
  induction x generalizing s y with
  | zero => exact keeps_refl
  | succ n ih => grind [ringRounds, Keeps, keeps_ringStep]

theorem keeps_runKid {u} : Keeps s (runKid s u) := by
  grind [runKid, Keeps, keeps_endTogether, keeps_joinGroup, keeps_runCollective, keeps_ringRounds]

theorem keeps_takeKids {k} : KeepsRun s₀ (takeKids k) := by
  unfold takeKids
  refine run_get fun s h => run_bind (run_modify fun s h => keeps_trans h keeps_absorbKids) fun _ => ?_
  split
  · exact run_pure
  · exact run_bind (run_modify fun s h => keeps_trans h keeps_modCmd) fun _ => run_throw

theorem keeps_runKids {k} : KeepsRun s₀ (runKids k) := by
  unfold runKids
  refine run_get fun s h => run_when keeps_startKids <| run_get fun s h =>
    run_bind (run_modify fun s h => keeps_trans h (keeps_foldl fun _ _ => keeps_runKid)) fun _ => ?_
  exact run_get fun s h => run_ite (run_bind keeps_takeKids fun _ => run_pure) run_pure

theorem keeps_graphWork {k} : KeepsRun s₀ (graphWork k) := by
  unfold graphWork
  dsimp only
  split
  · exact keeps_runKids
  split
  · exact run_bind keeps_rejectOn fun _ => run_pure
  split
  · exact run_bind keeps_rejectOn fun _ => run_pure
  next m hm =>
    exact run_bind keeps_rejectOn fun _ => run_bind (opSem_keeps hm).start fun _ => run_get fun s h =>
      run_bind (opSem_keeps hm).units fun n => run_bind (keeps_runUnits (opSem_keeps hm)) fun _ => run_pure

theorem keeps_graphSignals {k entries x} : KeepsRun s₀ (graphSignals k entries x) := by
  induction x with
  | zero => exact run_pure
  | succ n ih =>
    refine run_get fun s h => run_ite run_pure ?_
    split
    · exact run_pure
    · exact run_bind (run_modify fun s h => keeps_trans h keeps_modCmd) fun _ => run_bind keeps_signalOne fun _ => ih

theorem keeps_nextGraph {k slots mode link} : KeepsRun s₀ (nextGraph k slots mode link) := by
  grind [nextGraph, run_bind, run_modify, Keeps, keeps_modCmd, keeps_settlePool]

theorem keeps_graphLink {k kc g i} : KeepsRun s₀ (graphLink k kc g i) := by
  unfold graphLink
  refine run_get fun s h => ?_
  dsimp only
  split
  · exact run_pure
  split
  · refine run_bind keeps_formedAt fun next => ?_
    grind [run_pure, run_bind, run_modify, Keeps, keeps_secondPass, keeps_logCmd]
  · exact run_bind keeps_secondPass fun _ => run_bind (run_modify fun s h => keeps_trans h keeps_logCmd) fun _ => run_pure

theorem keeps_graphStep {k c g} : KeepsRun s₀ (graphStep k c g) := by
  unfold graphStep
  refine run_bind keeps_formedAt fun desc => run_either keeps_slotAtGraph run_pure fun sync => ?_
  refine run_ite (run_bind run_pure fun _ => ?_) (run_bind keeps_graphWork fun ended => ?_)
  · grind [run_pure, run_bind, run_get, keeps_graphSignals, keeps_nextGraph]
  · refine run_ite ?_ ?_
    · refine run_bind keeps_graphLink fun link => run_bind (run_modify fun s h => keeps_trans h keeps_modCmd) fun _ => ?_
      grind [run_pure, run_bind, run_get, keeps_graphSignals, keeps_nextGraph]
    · grind [run_pure, run_bind, run_get, keeps_graphSignals, keeps_nextGraph]

theorem keeps_modRefine {u f} : Keeps s (modRefine s u f) := keeps_refl

theorem keeps_copyRow {k src i} : KeepsRun s₀ (copyRow k src i) := by
  grind [copyRow, run_bind, keeps_readMem, keeps_writeMem]

theorem keeps_setPhase {k ph} : KeepsRun s₀ (setPhase k ph) := by
  grind [setPhase, run_bind, run_modify, Keeps, keeps_modRefine]

theorem keeps_enterBallast {k b e v p forced} : KeepsRun s₀ (enterBallast k b e v p forced) := by
  grind [enterBallast, run_bind, run_modify, Keeps, Option.elim.eq_def, keeps_modCmd, keeps_logCmd]

theorem keeps_nextStep {k src b} : KeepsRun s₀ (nextStep k src b) := by
  grind [nextStep, run_bind, run_modify, Keeps, keeps_modRefine, keeps_copyRow, keeps_setPhase]

theorem keeps_costOf {k src i} : KeepsRun s₀ (costOf k src i) := by
  grind [costOf, run_pure, run_bind, keeps_rowBits]

theorem keeps_costSum {k src x} : KeepsRun s₀ (costSum k src x) := by
  induction x with
  | nil => exact run_pure
  | cons x xs ih => grind [costSum, run_pure, run_bind, keeps_costOf]

theorem keeps_estimate {k src p b} : KeepsRun s₀ (estimate k src p b) := by
  grind [estimate, run_pure, run_bind, run_get, keeps_costOf]

theorem keeps_projects {k src est b} : KeepsRun s₀ (projects k src est b) := by
  grind [projects, run_pure, run_bind, run_get, keeps_costSum]

theorem keeps_boundaryStep {k c} : KeepsRun s₀ (boundaryStep k c) := by
  unfold boundaryStep
  refine run_bind (run_modify fun s h => keeps_trans h keeps_modCmd) fun _ => ?_
  refine run_either run_pure keeps_estimate fun x => run_bind (run_modify fun s h => keeps_trans h keeps_modRefine) fun _ => ?_
  refine run_get fun s h => run_ite run_pure <| run_either keeps_projects run_pure fun y => ?_
  grind [run_pure, run_bind, keeps_readBallast, keeps_mapEntry, keeps_nextStep, keeps_enterBallast]

theorem keeps_ballastBoundaryStep {k c} : KeepsRun s₀ (ballastBoundaryStep k c) := by
  grind [ballastBoundaryStep, run_pure, run_bind, run_get, keeps_readBallast, keeps_copyRow, keeps_setPhase]

theorem keeps_rowSem {k p} : KeepsRunTo s₀ (fun o => ∀ x, o = some x → WorkKeeps x) (rowSem k p) := by
  unfold rowSem
  have hwork : ∀ (a : Nat) (f : Nat → CmdM Unit), (∀ s₀ u, KeepsRun s₀ (f u)) → WorkKeeps
      ⟨fun _ => [], fun _ => pure [], fun k => do pure (ceilDiv (← readTensor k a 40).1.rows 64), fun _ _ => f⟩ :=
    fun a f hf => ⟨run_pure, run_bind keeps_readTensor fun _ => run_pure, hf _ _⟩
  split
  · exact runTo_pure fun x e => Option.some.inj e ▸ hwork _ _ fun _ _ => keeps_warpUnit
  · exact runTo_pure fun x e => Option.some.inj e ▸ hwork _ _ fun _ _ => keeps_updateUnit
  · exact runTo_after keeps_readBallast fun b => runTo_pure fun x e =>
      Option.some.inj e ▸ hwork _ _ fun _ _ => keeps_updateUnit
  · exact runTo_pure fun _ e => nomatch e

theorem keeps_runRowPhase {k x} (hx : WorkKeeps x) : KeepsRun s₀ (runRowPhase k x) := by
  unfold runRowPhase
  exact run_bind hx.units fun n => run_bind (keeps_runUnits hx) fun _ =>
    run_modify fun s h => keeps_trans h keeps_modCmd

theorem keeps_refineStepM {k c} : KeepsRun s₀ (refineStepM k c) := by
  unfold refineStepM
  dsimp only
  split
  · exact run_pure
  · refine run_ite ?_ ?_
    · refine run_get fun s h => run_ite run_pure ?_
      grind [run_pure, run_bind, keeps_boundaryStep, keeps_ballastBoundaryStep]
    · refine run_bindTo keeps_rowSem fun o ho => ?_
      split
      · exact run_bind (keeps_runRowPhase (ho _ rfl)) fun _ => run_pure
      · grind [run_pure, run_bind, run_get, keeps_graphOf, keeps_graphStep, keeps_setPhase]

theorem keeps_graphPending {k c} : KeepsRun s₀ (graphPending k c) := by
  grind [graphPending, run_pure, run_bind, keeps_slotAtGraph, keeps_graphOf, keeps_formedAt]

theorem keeps_failedSignal {k e} : Keeps s (failedSignal k s e) := by
  grind [failedSignal, Keeps, keeps_run, keeps_signalOne]

theorem keeps_failGraphSignals {c} : Keeps s (failGraphSignals s c) := by
  grind [failGraphSignals, Keeps, keeps_foldl, keeps_run, keeps_graphPending, keeps_failedSignal]

theorem keeps_spoilRefine {c} : Keeps s (spoilRefine s c) := by
  grind [spoilRefine, Keeps, keeps_run, keeps_spoilRanges, keeps_spoilWork, keeps_graphOf, keeps_formedAt]

theorem keeps_failGraph {u} : Keeps s (failGraph s u) := by
  grind [failGraph, Keeps, keeps_failGraphSignals, keeps_spoilRefine]

theorem keeps_doneRefine {c} : Keeps s (doneRefine s c) := keeps_doneCmd

theorem keeps_refineFails {c e} : Keeps s (refineFails s c e) := by
  grind [refineFails.eq_def, Keeps, keeps_logCmd, keeps_failCmd, keeps_rejectCmd, keeps_stopKids, keeps_failGraph]

theorem keeps_refineOnce {c} : Keeps s (refineOnce s c).1 := by
  grind [refineOnce, Keeps, keeps_run, keeps_missDeadline, keeps_settleStop, keeps_refineStepM, keeps_doneRefine,
    keeps_refineFails]

theorem keeps_refineRow {u kind} : Keeps s (refineRow s u kind) := by
  grind [refineRow, Keeps, keeps_refineOnce]

theorem keeps_passTicks {c d} : Keeps s (passTicks s c d) := by
  grind [passTicks, Keeps]

theorem keeps_refineAll {x y z} : Keeps s (refineAll x s y z) := by
  induction x generalizing s y z with
  | zero => exact keeps_refl
  | succ n ih => grind [refineAll, Keeps, keeps_refineOnce, keeps_passTicks]

end Sys2Proof.Laws
end

section
/-!
SUPPORT. The queue and memory's canonical form are kept by TABLE_LOAD, KV_INDEX, MODEL_BIND and SPOOL_LOAD with their swaps.
-/
namespace Sys2Proof.Laws

open Sys2Proof Sys2Proof.Machine

variable {s s₀ t : State}

theorem keeps_readImage {k t' src len off} : KeepsRun s₀ (readImage k t' src len off) := by
  unfold readImage
  refine run_either run_pure keeps_readMem fun head => run_get fun s h => run_ite ?_ run_pure
  exact run_bind keeps_readMem fun bs => run_pure

theorem keeps_writeShadow {p t' u tag img} : Keeps s (writeShadow s p t' u tag img) := keeps_refl

theorem keeps_dropLoads {u} : Keeps s (dropLoads s u) := by
  grind [dropLoads, Keeps, keeps_foldl, keeps_modTable]

theorem keeps_settleRun {u m} (hm : KeepsRun s m) : Keeps s (settleRun s u m) := by
  grind [settleRun, Keeps, keeps_run, keeps_doneCmd, keeps_settleStop]

theorem keeps_startTableLoad {k} : KeepsRun s₀ (startTableLoad k) := by
  grind [startTableLoad, run_pure, run_bind, keeps_rejectOn, keeps_readImage]

theorem keeps_runTableLoad {c} : Keeps s (runTableLoad s c) := by
  unfold runTableLoad
  dsimp only
  split
  · exact keeps_refl
  · refine keeps_settleRun (run_bind keeps_readImage fun x => run_bind keeps_rejectOn fun _ => ?_)
    exact run_bind (run_modify fun s h => keeps_trans h (keeps_trans keeps_writeShadow keeps_modCmd)) fun _ => run_pure

theorem keeps_runKvIndex {c} : Keeps s (runKvIndex s c) := by
  unfold runKvIndex
  dsimp only
  split
  · split
    · exact keeps_refl
    · exact keeps_settleRun <| run_bind keeps_indexedImage fun img =>
        run_bind (run_modify fun s h => keeps_trans h (keeps_trans keeps_writeShadow keeps_modCmd)) fun _ => run_pure
  split
  · exact keeps_refl
  · exact keeps_trans keeps_modTable keeps_doneCmd

theorem keeps_tableSwapAt {p t'} : Keeps s (tableSwapAt s p t') := by
  grind [tableSwapAt, Keeps, keeps_modTable, keeps_doneCmd]

theorem keeps_setModel {p m rec} : Keeps s (setModel s p m rec) := keeps_refl

theorem keeps_refImages {k off x} : KeepsRun s₀ (refImages k off x) := by
  induction x with
  | nil => exact run_pure
  | cons x xs ih => grind [refImages, run_pure, run_bind, keeps_readImage]

theorem keeps_reloadRef {k off r} : KeepsRun s₀ (reloadRef k off r) := by
  grind [reloadRef, run_pure, run_throw, run_bind, run_get, run_modify, Keeps, keeps_modTable, keeps_rejectOn,
    keeps_readImage]

theorem keeps_reloadRefs {k off x} : KeepsRun s₀ (reloadRefs k off x) := by
  induction x with
  | nil => exact run_pure
  | cons x xs ih => grind [reloadRefs, run_pure, run_bind, keeps_reloadRef]

theorem keeps_bindRecord {k} : KeepsRun s₀ (bindRecord k) := by
  grind [bindRecord, run_pure, run_bind, run_get, keeps_readMem]

theorem keeps_startModelBind {k} : KeepsRun s₀ (startModelBind k) := by
  grind [startModelBind, run_pure, run_bind, keeps_rejectOn, keeps_refImages, keeps_bindRecord]

theorem keeps_writeBinding {k model} : KeepsRun s₀ (writeBinding k model) := by
  grind [writeBinding, run_pure, run_bind, run_get, keeps_cmdRmwSector]

theorem keeps_installModel {c} : Keeps s (installModel s c) := by
  unfold installModel
  refine keeps_settleRun <| run_bind keeps_bindRecord fun x => run_bind keeps_rejectOn fun _ => ?_
  exact run_bind (run_modify fun s h => keeps_trans h (keeps_trans keeps_setModel keeps_modCmd)) fun _ => run_pure

theorem keeps_bindModel {c} : Keeps s (bindModel s c) := by
  unfold bindModel
  exact keeps_settleRun <| run_bind keeps_rejectOn fun _ => run_bind keeps_rejectOn fun _ => run_bind keeps_reloadRefs fun _ =>
    run_bind keeps_writeBinding fun _ => run_pure

theorem keeps_runModelBind {c} : Keeps s (runModelBind s c) := by
  unfold runModelBind
  have ht : Keeps s (if bindInstall c.desc && c.unitsDone.isEmpty then installModel s c else s) := by
    grind [keeps_installModel, keeps_refl]
  dsimp only
  split
  · split
    · exact keeps_trans ht keeps_bindModel
    · exact ht
  · exact ht

theorem keeps_startSpoolLoad {k} : KeepsRun s₀ (startSpoolLoad k) := by
  grind [startSpoolLoad, run_pure, run_bind, keeps_rejectOn, keeps_readMem]

theorem keeps_runSpoolLoad {c} : Keeps s (runSpoolLoad s c) := by
  unfold runSpoolLoad
  dsimp only
  split
  · exact keeps_refl
  · exact keeps_settleRun <| run_bind keeps_readMem fun bs => run_bind keeps_rejectOn fun _ =>
      run_bind (run_modify fun s h => keeps_trans h keeps_refl) fun _ => run_pure

theorem keeps_foldTicks : Keeps s (foldTicks s) := keeps_refl

theorem keeps_swapSpool : Keeps s (swapSpool s) := by
  grind [swapSpool, Keeps, keeps_doneCmd, keeps_foldTicks]

theorem keeps_execSpoolSwap : Stays s (execSpoolSwap s) := by
  grind [execSpoolSwap, Stays, Keeps, keeps_swapSpool]

theorem keeps_execTableSwap {p t'} : Stays s (execTableSwap p t' s) := stays_next keeps_tableSwapAt

end Sys2Proof.Laws
end

section
/-!
SUPPORT. The queue and memory's canonical form are kept by pre-emption and resumption.
-/
namespace Sys2Proof.Laws

open Sys2Proof Sys2Proof.Machine

variable {s s₀ t : State}

theorem keeps_refineWork {k c} : KeepsRunTo s₀ (fun o => ∀ x kc, o = some (x, kc) → WorkKeeps x) (refineWork k c) := by
  unfold refineWork
  refine runTo_bind keeps_rowSem fun o ho => ?_
  split
  · exact runTo_pure fun x kc e => ho x (by grind)
  refine runTo_after keeps_graphOf fun g => ?_
  split
  · exact runTo_pure fun _ _ e => nomatch e
  split
  · exact runTo_pure fun _ _ e => nomatch e
  refine runTo_after keeps_formedAt fun d => runTo_pure fun x kc e => ?_
  split at e
  · cases e
  · obtain ⟨y, hy, he⟩ := Option.map_eq_some_iff.1 e
    exact opSem_keeps ((Prod.mk.inj he).1 ▸ hy)

theorem keeps_progressUnits {k x} (hx : WorkKeeps x) : KeepsRun s₀ (progressUnits k x) := by
  unfold progressUnits
  split
  · exact run_bind keeps_attPlan fun x => run_pure
  · exact run_bind keeps_chainPlan fun x => run_pure
  · exact run_bind keeps_matmulPlan fun x => run_pure
  · exact run_bind keeps_matmulListPlan fun x => run_pure
  · exact run_pure
  · exact run_bind hx.units fun _ => run_pure

theorem keeps_workOf {k c} : KeepsRunTo s₀ (fun o => ∀ x kc, o = some (x, kc) → WorkKeeps x) (workOf k c) := by
  unfold workOf
  dsimp only
  split
  · exact keeps_refineWork
  split
  · exact runTo_pure fun _ _ e => nomatch e
  refine runTo_pure fun x kc e => ?_
  obtain ⟨y, hy, he⟩ := Option.map_eq_some_iff.1 e
  exact opSem_keeps ((Prod.mk.inj he).1 ▸ hy)

theorem keeps_huskUnits {k c} : KeepsRun s₀ (huskUnits k c) := by
  unfold huskUnits
  refine run_bindTo keeps_workOf fun o ho => ?_
  split
  · exact run_pure
  · exact run_bind (keeps_progressUnits (ho _ _ rfl)) fun ps => by grind [run_pure]

theorem keeps_findFreeSlot {k base size x} : KeepsRun s₀ (findFreeSlot k base size x) := by
  induction x with
  | nil => exact run_pure
  | cons x xs ih => grind [findFreeSlot, run_pure, run_bind, keeps_readNum]

theorem keeps_writeHusk {k c parked} : KeepsRun s₀ (writeHusk k c parked) := by
  unfold writeHusk
  refine run_bind keeps_huskUnits fun x => run_get fun s h => run_ite run_pure ?_
  have hslot : ∀ slot : Option Nat, KeepsRun s₀ (match slot with
    | none => pure none
    | some a => do
      writeMem k tcBulk a (huskBytes (← get) c parked x.1 x.2.1 x.2.2)
      pure (some a)) := fun
    | none => run_pure
    | some a => run_get fun s h => run_bind keeps_writeMem fun _ => run_pure
  split
  · exact run_bind run_pure hslot
  · exact run_bind keeps_findFreeSlot hslot

theorem keeps_dropTree {u} : Keeps s (dropTree s u) := by
  grind [dropTree, Keeps, keeps_foldl, keeps_dropGroups]

theorem keeps_endEvicted {c husk noSlot} : Keeps s (endEvicted s c husk noSlot) := by
  grind [endEvicted, Keeps, keeps_modCmd, keeps_logCmd, keeps_logCounts, keeps_failCmd, keeps_absorbKids, keeps_stopKids,
    keeps_stopMember, keeps_dropTree]

theorem keeps_parkKid {x} : Keeps s (parkKid s x) := by
  grind [parkKid, Keeps, Option.elim.eq_def, keeps_modCmd]

theorem keeps_park {c husk} : Keeps s (park s c husk) := by
  grind [park, Keeps, keeps_foldl, keeps_modCmd, keeps_dropTree, keeps_parkKid]

theorem keeps_cutCmd {c} : Keeps s (cutCmd s c) := by
  grind [cutCmd, Keeps, keeps_run, keeps_modTree, keeps_logCmd, keeps_logAborted, keeps_settleStop, keeps_failMember,
    keeps_writeHusk, keeps_dropTree, keeps_endEvicted, keeps_park]

theorem keeps_boundaryOf {u} : Keeps s (boundaryOf s u) := by
  grind [boundaryOf, Keeps, keeps_refineFails, keeps_cutCmd]

theorem keeps_requestSuspend {c} : Keeps s (requestSuspend s c) := by
  grind [requestSuspend, Keeps, keeps_modTree]

theorem keeps_requestEvict {c} : Keeps s (requestEvict s c) := by
  grind [requestEvict, Keeps, keeps_run, keeps_modTree, keeps_setHuskFlags, keeps_settleStop, keeps_endEvicted]

theorem keeps_execHuskWrite {u} : Stays s (execHuskWrite u s) := by
  grind [execHuskWrite, Stays, Keeps, keeps_boundaryOf, keeps_requestEvict]

theorem keeps_rebindAll {k home x} : KeepsRun s₀ (rebindAll k home x) := by
  induction x with
  | nil => exact run_pure
  | cons x xs ih =>
    grind [rebindAll, run_pure, run_throw, run_bind, run_get, run_modify, Keeps, keeps_logCmd, keeps_logCounts]

theorem keeps_resumeCmd {c} : Keeps s (resumeCmd s c) := by
  unfold resumeCmd
  dsimp only
  generalize h : StateT.run (ExceptT.run _) s = r
  have hr : Keeps s r.2 := by
    rw [← h]
    refine keeps_run ?_
    split
    · exact run_modify fun s h => keeps_trans h keeps_modTree
    · refine run_bind keeps_readMem fun bs => run_when keeps_modColl ?_
      exact run_get fun s h => run_bind keeps_rebindAll fun gens => run_modify fun s h => keeps_trans h keeps_modTree
  grind [keeps_settleStop, keeps_failMember, keeps_trans]

theorem keeps_resumeAll : Keeps s (resumeAll s) := by
  grind [resumeAll, Keeps, keeps_foldl, keeps_resumeCmd]

theorem keeps_findHusk {k base size x} : KeepsRun s₀ (findHusk k base size x) := by
  induction x with
  | nil => exact run_pure
  | cons x xs ih => grind [findHusk, run_pure, run_bind, keeps_readMem]

theorem keeps_restoreKid {k st x} : KeepsRun s₀ (restoreKid k st x) := by
  grind [restoreKid, run_pure, run_bind, run_modify, Keeps, keeps_modCmd, keeps_readMem, keeps_attPlan]

theorem keeps_restoreKids {k st c} : KeepsRun s₀ (restoreKids k st c) := by
  unfold restoreKids
  refine run_ite run_pure <| run_bind keeps_graphOf fun o => ?_
  split
  · exact run_pure
  refine run_bind keeps_formedAt fun d => run_ite run_pure ?_
  refine run_bind (run_tryCatch (run_bind keeps_startKids fun _ => run_pure) fun e => ?_) fun ok =>
    run_ite (run_get fun s h => keeps_forRows fun x => keeps_restoreKid) run_pure
  split
  · exact run_throw
  · exact run_pure

theorem keeps_restore {k st done units} : KeepsRun s₀ (restore k st done units) := by
  unfold restore
  have hmod : ∀ f : State → State, (∀ s, Keeps s (f s)) → KeepsRun s₀ (modify f) := fun f hf =>
    run_modify fun s h => keeps_trans h (hf s)
  split
  · refine run_bind (hmod _ fun _ => keeps_modCmd) fun _ => run_get fun s h => ?_
    split
    · exact run_pure
    · refine run_bind keeps_restoreKids fun _ => run_bindTo keeps_workOf fun o ho => ?_
      split
      · exact run_pure
      · exact run_bind (keeps_progressUnits (ho _ _ rfl)) fun ps => hmod _ fun _ => keeps_modCmd
  · exact keeps_modColl
  · refine run_bind keeps_attPlan fun x => run_ite (hmod _ fun _ => keeps_modCmd) ?_
    exact run_bind keeps_readMem fun bs => keeps_modColl
  · exact run_bind keeps_chainPlan fun x => hmod _ fun _ => keeps_modCmd
  · exact hmod _ fun _ => keeps_modCmd

theorem keeps_huskFor {k} : KeepsRun s₀ (huskFor k) := by
  grind [huskFor, run_pure, run_bind, run_get, keeps_findHusk]

theorem keeps_takeHusk {k x} : KeepsRun s₀ (takeHusk k x) := by
  unfold takeHusk
  split
  · exact run_pure
  · exact run_bind keeps_readMem fun bm => run_get fun s h => run_bind keeps_rebindAll fun gens =>
      run_bind keeps_restore fun _ => run_bind keeps_setHuskFlags fun _ => run_pure

end Sys2Proof.Laws
end

section
/-!
SUPPORT. The queue and memory's canonical form are kept by the intake and the start of commands.
-/
namespace Sys2Proof.Laws

open Sys2Proof Sys2Proof.Machine

variable {s s₀ t : State}

theorem keeps_settleWaits {c entries met} (hm : ∀ s, Keeps s (met s)) : Keeps s (settleWaits s c entries met) := by
  grind [settleWaits, Keeps, keeps_run, keeps_modCmd, keeps_failCmd, keeps_settleStop, keeps_readWaits]

theorem keeps_recheckHeader {c} : Keeps s (recheckHeader s c) := by
  grind [recheckHeader, Keeps, keeps_modCmd, keeps_settleWaits]

theorem keeps_recheckOwn {c} : Keeps s (recheckOwn s c) := by
  grind [recheckOwn, Keeps, keeps_doneCmd, keeps_settleWaits]

theorem keeps_admitHead {r c} (ht : admitHead s r = some (c, t)) : Keeps s t := by
  grind [admitHead, Keeps, keeps_setRing]

theorem keeps_fetchHead {r} : Keeps s (fetchHead s r) := by
  grind [fetchHead, Keeps, keeps_modCmd, keeps_logAborted, keeps_failCmd, keeps_rejectCmd, keeps_recheckHeader,
    → keeps_admitHead]

theorem keeps_execCommandFetch {r} : Stays s (execCommandFetch r s) := by
  grind [execCommandFetch, Stays, Keeps, keeps_fetchHead]

theorem keeps_execEventRecheck {u} : Stays s (execEventRecheck u s) := by
  grind [execEventRecheck, Stays, Keeps, keeps_recheckHeader, keeps_recheckOwn]

theorem keeps_execCommandDeadline {u} : Stays s (execCommandDeadline u s) := by
  grind [execCommandDeadline, Stays, Keeps, keeps_missDeadline, keeps_spoilGroup, keeps_endGroup]

theorem keeps_failForward {u dst die reason st} : Keeps s (failForward s u dst die reason st) := by
  grind [failForward, Keeps, keeps_logCmd, keeps_failCmd]

theorem keeps_sendDesc {u dst addr key data n} (ht : sendDesc s u dst addr key data = some (n, t)) : Keeps s t := by
  unfold sendDesc at ht
  split at ht
  · cases ht
  · obtain ⟨r, hr, he⟩ := Option.map_eq_some_iff.1 ht
    obtain ⟨-, rfl⟩ := Prod.mk.inj he
    exact keeps_trans (keeps_sendKeyed hr) keeps_refl

theorem keeps_forwardCmd {c} : Keeps s (forwardCmd s c) := by
  grind [forwardCmd, Keeps, keeps_modCmd, keeps_failForward, → keeps_sendDesc]

theorem keeps_startOf {k} : KeepsRun s₀ (startOf k) := by
  unfold startOf
  split
  · exact keeps_startKvIndex
  · exact keeps_startRefine
  · exact keeps_startCollective
  · exact keeps_startModelBind
  · exact keeps_startTableLoad
  · exact keeps_startSpoolLoad
  · cases e : opSem (opcodeOf k.desc) with
    | none => exact run_pure
    | some x => exact (opSem_keeps e).start

theorem keeps_startBody {c} : KeepsRun s₀ (startBody c) := by
  unfold startBody
  refine run_get fun s₁ h₁ => run_get fun s₂ h₂ => run_get fun s₃ h₃ => run_get fun s₄ h₄ => run_guard ?_
  refine run_either (keeps_tryWith keeps_reloadRefs) run_pure fun b0 => ?_
  refine run_bind (run_modify fun s h => keeps_trans h keeps_modCmd) fun _ =>
    run_bind (keeps_tryWith keeps_startOf) fun b1 => ?_
  refine run_bind keeps_huskFor fun b2 => run_get fun s₅ h₅ => run_bind keeps_rejectOn fun _ =>
    run_get fun s₆ h₆ => run_guard ?_
  refine run_bind keeps_takeHusk fun held => run_get fun s₇ h₇ => run_modify fun s h => ?_
  grind [Keeps, keeps_modCmd]

theorem keeps_startCmd {c} : Keeps s (startCmd s c) := by
  grind [startCmd, Keeps, keeps_run, keeps_doneCmd, keeps_settleStop, keeps_startBody]

theorem keeps_execCommandStart {u} : Stays s (execCommandStart u s) := by
  grind [execCommandStart, Stays, Keeps, keeps_failCmd, keeps_resumeCmd, keeps_forwardCmd, keeps_startCmd]

theorem keeps_runSecond {p} : Keeps s (runSecond s p) := by
  grind [runSecond, Keeps, keeps_run, keeps_logCmd, keeps_doneCmd, keeps_settleStop, keeps_secondPass]

theorem keeps_decideLink {p} : Keeps s (decideLink s p) := by
  grind [decideLink, Keeps, keeps_modCmd, keeps_fetchHead, keeps_runSecond]

theorem keeps_execStatLinkDecision {u} : Stays s (execStatLinkDecision u s) := by
  grind [execStatLinkDecision, Stays, Keeps, keeps_doneCmd, keeps_runSecond, keeps_decideLink]

end Sys2Proof.Laws
end

section
/-!
SUPPORT. The queue and memory's canonical form are kept by submission and completion rings.
-/
namespace Sys2Proof.Laws

open Sys2Proof Sys2Proof.Machine

variable {s s₀ t : State}

theorem keeps_writeSqHead {r} : Keeps s (writeSqHead s r) := keeps_hostWrite

theorem keeps_writeWake {r w} : Keeps s (writeWake s r w) := by
  grind [writeWake, Keeps, keeps_modRing, keeps_hostWrite]

theorem keeps_ringError {r cause} : Keeps s (ringError s r cause) := by
  grind [ringError, Keeps, keeps_setRing, keeps_logEvent]

theorem keeps_readCqHead {r fault} : Keeps s (readCqHead s r fault) := by
  grind [readCqHead, Keeps, keeps_setRing, keeps_ringError]

theorem keeps_execCqHeadRecheck {r fault} : Stays s (execCqHeadRecheck r fault s) := by
  grind [execCqHeadRecheck, Stays, Keeps, keeps_readCqHead]

theorem keeps_fetchSlots {x z} : Keeps s (fetchSlots x s z) := by
  induction x, s, z using fetchSlots.induct with
  | case1 s r => exact keeps_refl
  | case2 s r g d hs => grind [fetchSlots, keeps_refl]
  | case3 s r g d hs => grind [fetchSlots, keeps_setRing]
  | case4 n s r g d h1 hs y ih => grind [fetchSlots, keeps_setRing, keeps_trans]
  | case5 n s r g d h1 hs ih => grind [fetchSlots, keeps_setRing, keeps_trans]

theorem keeps_fetchReads {x y z w} : Keeps s (fetchReads x s y z w) := by
  induction x generalizing s y z w with
  | zero => exact keeps_refl
  | succ n ih => grind [fetchReads, Keeps, keeps_writeSqHead, keeps_ringError, keeps_fetchSlots]

theorem keeps_wakeRing {r fault} : Keeps s (wakeRing s r fault) := by
  grind [wakeRing, Keeps, keeps_setRing, keeps_writeWake, keeps_ringError, keeps_readCqHead, keeps_fetchReads]

theorem keeps_ignoreWake : Keeps s (ignoreWake s) := keeps_refl

theorem keeps_execRingWake {f page fault} : Stays s (execRingWake f page fault s) := by
  grind [execRingWake, Stays, Keeps, keeps_wakeRing, keeps_ignoreWake]

theorem keeps_execRingPoll {r fault} : Stays s (execRingPoll r fault s) := by
  grind [execRingPoll, Stays, Keeps, keeps_wakeRing]

theorem keeps_sendRingIrq {r} : Keeps s (sendRingIrq s r) := by
  grind [sendRingIrq, Keeps, keeps_setRing, keeps_sendMsix]

theorem keeps_countIrq {r} : Keeps s (countIrq s r) := by
  grind [countIrq, Keeps, keeps_setRing, keeps_sendRingIrq]

theorem keeps_writeRecord {r c} : Keeps s (writeRecord s r c) := by
  grind [writeRecord, Keeps, keeps_modRing, keeps_hostWrite, keeps_countIrq]

theorem keeps_postCompletion {r c} : Keeps s (postCompletion s r c) := by
  grind [postCompletion, Keeps, keeps_modRing, keeps_dropCmd, keeps_resumeAll, keeps_writeRecord]

theorem keeps_execCompletionPost {r fault} : Stays s (execCompletionPost r fault s) := by
  grind [execCompletionPost, Stays, Keeps, keeps_clearHusk, keeps_ringError, keeps_postCompletion]

theorem keeps_execIrqDelayExpire {r} : Stays s (execIrqDelayExpire r s) := by
  grind [execIrqDelayExpire, Stays, Keeps, keeps_sendRingIrq]

theorem keeps_execTimeWaitReached {u} : Stays s (execTimeWaitReached u s) := by
  grind [execTimeWaitReached, Stays, Keeps, keeps_doneCmd]

theorem keeps_ringOn {r} : Keeps s (ringOn s r) := by
  grind [ringOn, Keeps, keeps_modRing, keeps_writeSqHead, keeps_writeWake]

theorem keeps_abortSlots {x y} : Keeps s (abortSlots x s y) := by
  induction x generalizing s with
  | zero => exact keeps_refl
  | succ n ih => grind [abortSlots, Keeps, keeps_failCmd, → keeps_admitHead]

theorem keeps_abortUnstarted {r} : Keeps s (abortUnstarted s r) := by
  grind [abortUnstarted, Keeps, keeps_foldl, keeps_failCmd, keeps_abortSlots]

theorem keeps_ringOff {r} : Keeps s (ringOff s r) := by
  grind [ringOff, Keeps, keeps_setRing, keeps_abortUnstarted]

theorem keeps_setRingEnable {r on} : Keeps s (setRingEnable s r on) := by
  grind [setRingEnable, Keeps, keeps_modRing, keeps_ringOn, keeps_ringOff]

theorem keeps_drainRing {r} : Keeps s (drainRing s r) := by
  grind [drainRing, Keeps, keeps_setRing, keeps_ringOn]

end Sys2Proof.Laws
end

section
/-!
SUPPORT. The queue and memory's canonical form are kept by the device commands.
-/
namespace Sys2Proof.Laws

open Sys2Proof Sys2Proof.Machine

variable {s s₀ t : State}

theorem keeps_withRunning {u op f} (hf : ∀ c, Keeps s (f c)) : Keeps s (withRunning s u op f) := by
  grind [withRunning, Keeps]

theorem keeps_finishUnits {u} : Keeps s (finishUnits s u) := by
  grind [finishUnits, Keeps, keeps_modCmd, keeps_logAborted, keeps_doneCmd, keeps_failMember, keeps_endEvicted,
    keeps_cutCmd]

theorem keeps_stopUnits {c e} (h : Keeps s t) : Keeps s (stopUnits s t c e) := by
  grind [stopUnits.eq_def, Keeps, keeps_settleStop, keeps_spoilCmd, keeps_settleMember, keeps_refineFails]

theorem keeps_runWhole {fault c} : Keeps s (runWhole fault s c) := by
  unfold runWhole
  split
  · exact keeps_refl
  next x hx =>
    have hw := opSem_keeps hx
    dsimp only
    generalize h : StateT.run (ExceptT.run _) s = r
    have hr : Keeps s r.2 := by
      rw [← h]
      exact keeps_run (run_bind hw.units fun n => keeps_runUnits hw)
    grind [keeps_finishUnits, keeps_settleStop, keeps_stopUnits, keeps_trans]

theorem keeps_runUnitsRow {op u} : Keeps s (runUnitsRow op u s) := by
  grind [runUnitsRow, Keeps, keeps_withRunning, keeps_runWhole]

theorem keeps_runCodecRow {op u} : Keeps s (runCodecRow op u s) := by
  grind [runCodecRow, Keeps, keeps_withRunning, keeps_runWhole]

theorem keeps_execNop {u} : Stays s (execNop u s) := by
  grind [execNop, Stays, Keeps, keeps_doneCmd, keeps_withRunning]

theorem keeps_execFence {u} : Stays s (execFence u s) := by
  grind [execFence, Stays, Keeps, keeps_failCmd, keeps_doneCmd, keeps_withRunning]

theorem keeps_execEventSignal {u} : Stays s (execEventSignal u s) := by
  grind [execEventSignal, Stays, Keeps, keeps_doneCmd, keeps_withRunning]

theorem keeps_execEventWait {u} : Stays s (execEventWait u s) := by
  grind [execEventWait, Stays, Keeps, keeps_recheckOwn, keeps_withRunning]

theorem keeps_execWaitTime {u} : Stays s (execWaitTime u s) := by
  grind [execWaitTime, Stays, Keeps, keeps_doneCmd, keeps_withRunning]

theorem keeps_execCopy {u hostFault} : Stays s (execCopy u hostFault s) := by
  grind [execCopy, Stays, Keeps, keeps_withRunning, keeps_runWhole]

theorem keeps_execFill {u hostFault} : Stays s (execFill u hostFault s) := by
  grind [execFill, Stays, Keeps, keeps_withRunning, keeps_runWhole]

theorem keeps_execMatmul {u} : Stays s (execMatmul u s) := stays_next keeps_runUnitsRow

theorem keeps_execMatmulList {u} : Stays s (execMatmulList u s) := stays_next keeps_runUnitsRow

theorem keeps_execMatmulChain {u} : Stays s (execMatmulChain u s) := stays_next keeps_runUnitsRow

theorem keeps_execConv {u} : Stays s (execConv u s) := stays_next keeps_runUnitsRow

theorem keeps_execAttend {u} : Stays s (execAttend u s) := by
  grind [execAttend, Stays, Keeps, keeps_ringStep, keeps_withRunning, keeps_runWhole]

theorem keeps_execAttendBwd {u} : Stays s (execAttendBwd u s) := stays_next keeps_runUnitsRow

theorem keeps_execKvAppend {u} : Stays s (execKvAppend u s) := stays_next keeps_runUnitsRow

theorem keeps_execKvIndex {u} : Stays s (execKvIndex u s) := by
  grind [execKvIndex, Stays, Keeps, keeps_runKvIndex, keeps_withRunning]

theorem keeps_execVecchain {u} : Stays s (execVecchain u s) := stays_next keeps_runUnitsRow

theorem keeps_execReduce {u} : Stays s (execReduce u s) := stays_next keeps_runUnitsRow

theorem keeps_execRandom {u} : Stays s (execRandom u s) := stays_next keeps_runUnitsRow

theorem keeps_execSampleTokens {u} : Stays s (execSampleTokens u s) := stays_next keeps_runUnitsRow

theorem keeps_execRefine {u ran} : Stays s (execRefine u ran s) := by
  grind [execRefine, Stays, Keeps, keeps_refineAll, keeps_withRunning]

theorem keeps_memberRow {u op peerFailed f} (hf : ∀ s c, Keeps s (f s c)) : Keeps s (memberRow s u op peerFailed f) := by
  grind [memberRow, Keeps, keeps_hearFailure, keeps_endTogether]

theorem keeps_execCollective {u peerFailed} : Stays s (execCollective u peerFailed s) := by
  grind [execCollective, Stays, Keeps, keeps_runCollective, keeps_memberRow]

theorem keeps_execEncode {u} : Stays s (execEncode u s) := stays_next keeps_runCodecRow

theorem keeps_execDecode {u} : Stays s (execDecode u s) := stays_next keeps_runCodecRow

theorem keeps_execMotion {u} : Stays s (execMotion u s) := stays_next keeps_runCodecRow

theorem keeps_execModelBind {u} : Stays s (execModelBind u s) := by
  grind [execModelBind, Stays, Keeps, keeps_runModelBind, keeps_withRunning]

theorem keeps_execTableLoad {u} : Stays s (execTableLoad u s) := by
  grind [execTableLoad, Stays, Keeps, keeps_runTableLoad, keeps_withRunning]

theorem keeps_execSpoolLoad {u} : Stays s (execSpoolLoad u s) := by
  grind [execSpoolLoad, Stays, Keeps, keeps_runSpoolLoad, keeps_withRunning]

theorem keeps_execRefineGraphCommand {u} : Stays s (execRefineGraphCommand u s) := stays_next keeps_refineRow

theorem keeps_execRefineUpdate {u} : Stays s (execRefineUpdate u s) := stays_next keeps_refineRow

theorem keeps_execRefineStepBoundary {u} : Stays s (execRefineStepBoundary u s) := stays_next keeps_refineRow

theorem keeps_execCollectiveJoin {u prints} : Stays s (execCollectiveJoin u prints s) := by
  grind [execCollectiveJoin, Stays, Keeps, keeps_joinGroup]

theorem keeps_execCollectiveStep {u peer} : Stays s (execCollectiveStep u peer s) := by
  grind [execCollectiveStep, Stays, Keeps, keeps_memberStep, keeps_memberRow]

theorem keeps_execCollectiveYield {u news} : Stays s (execCollectiveYield u news s) := by
  grind [execCollectiveYield, Stays, Keeps, Option.elim.eq_def, keeps_agreeYield, keeps_askYield, keeps_serveNotice]

theorem keeps_execRingAttendStep {turn} : Stays s (execRingAttendStep turn s) := by
  grind [execRingAttendStep, Stays, Keeps, keeps_ringStep, keeps_memberRow]

theorem keeps_execEncodeRelease {u} : Stays s (execEncodeRelease u s) := by
  grind [execEncodeRelease, Stays, Keeps, keeps_modCmd, keeps_advanceEnd]

end Sys2Proof.Laws
end

section
/-!
SUPPORT. The queue and memory's canonical form are kept by dies and partitions as a whole.
-/
namespace Sys2Proof.Laws

open Sys2Proof Sys2Proof.Machine

variable {s s₀ t : State}

theorem keeps_abortCmd {c} : Keeps s (abortCmd s c) := by
  grind [abortCmd, Keeps, keeps_dropGroups, keeps_failMember, keeps_dropLoads]

theorem keeps_abortWith {note f} (hn : ∀ s u, Keeps s (note s u)) : Keeps s (abortWith note s f) := by
  grind [abortWith, Keeps, keeps_foldl, keeps_abortCmd]

theorem keeps_abortAll {f} : Keeps s (abortAll s f) := by
  grind [abortAll, Keeps, keeps_abortWith]

theorem keeps_failDie {d cause} : Keeps s (failDie s d cause) := by
  grind [failDie, Keeps, keeps_modPwrDie, keeps_logEvent, keeps_logAborted, keeps_abortWith]

theorem keeps_quarantine {d k cause} : Keeps s (quarantine s d k cause) := by
  grind [quarantine, Keeps, keeps_modCluster, keeps_logEvent, keeps_failDie]

theorem keeps_mapOut {d k} : Keeps s (mapOut s d k) := by
  grind [mapOut, Keeps, keeps_modCluster, keeps_queueHistory, keeps_logEvent]

theorem keeps_mapOutDie {d} : Keeps s (mapOutDie s d) := by
  grind [mapOutDie, Keeps, keeps_foldl, keeps_mapOut]

theorem keeps_applyModuleId : Keeps s (applyModuleId s) := by
  grind [applyModuleId, Keeps, keeps_flushBuffer, keeps_memberPost]

theorem keeps_quiesceNow {p} : Keeps s (quiesceNow s p) := by
  grind [quiesceNow, Keeps, keeps_foldl, keeps_modPart, keeps_mapOutDie, keeps_applyModuleId]

theorem keeps_execPartitionQuiesce {p} : Stays s (execPartitionQuiesce p s) := by
  grind [execPartitionQuiesce, Stays, Keeps, keeps_resumeAll, keeps_quiesceNow]

end Sys2Proof.Laws
end

section
/-!
SUPPORT. The queue and memory's canonical form are kept by the clusters and their tile groups.
-/
namespace Sys2Proof.Laws

open Sys2Proof Sys2Proof.Machine

variable {s s₀ t : State}

theorem keeps_bumpDie {d k n} : Keeps s (bumpDie s d k n) := keeps_refl

theorem keeps_logCluster {d ev inj d0 d1} : Keeps s (logCluster s d ev inj d0 d1) := keeps_occur

theorem keeps_modGroup {i f} : Keeps s (modGroup s i f) := keeps_refl

theorem keeps_giveUp {c failed mismatch inj} : Keeps s (giveUp s c failed mismatch inj) := by
  grind [giveUp, Keeps, keeps_dropGroups, keeps_logCmd, keeps_failMember, keeps_failGraph, keeps_bumpDie]

theorem keeps_failGroup {g k mismatch inj} : Keeps s (failGroup s g k mismatch inj) := by
  grind [failGroup, Keeps, keeps_modCmd, keeps_bumpDie, keeps_logCluster, keeps_modGroup, keeps_giveUp]

theorem keeps_settleRetry {g} : Keeps s (settleRetry s g) := by
  grind [settleRetry, Keeps, keeps_giveUp]

theorem keeps_countCluster {d k e inj} : Keeps s (countCluster s d k e inj) := by
  grind [countCluster.eq_def, Keeps, keeps_foldl, keeps_setCluster, keeps_quarantine, keeps_bumpDie, keeps_settleRetry]

theorem keeps_illegalAccess {g} : Keeps s (illegalAccess s g) := by
  grind [illegalAccess, Keeps, keeps_dropGroups, keeps_logCmd, keeps_failMember, keeps_failGraph]

theorem keeps_setSpWord {d k a w} : Keeps s (setSpWord s d k a w) := keeps_refl

theorem keeps_freeBit7 : Keeps s (freeBit7 s).2 := by
  grind [freeBit7, Keeps]

theorem keeps_readStored {d k a flips scrub} : Keeps s (readStored s d k a flips scrub).2 := by
  grind [readStored, Keeps, keeps_logCluster, keeps_countCluster, keeps_setSpWord, keeps_freeBit7]

theorem keeps_readWord {d k a flips} : Keeps s (readWord s d k a flips).2 := by
  grind [readWord, Keeps, keeps_failGroup, keeps_readStored]

theorem keeps_touchLine {d k a} : Keeps s (touchLine s d k a) := by
  grind [touchLine, Keeps, keeps_foldl, keeps_modCluster, keeps_setSpWord]

theorem keeps_writeInWord {d k a bs} : Keeps s (writeInWord s d k a bs) := by
  grind [writeInWord, Keeps, keeps_setSpWord, keeps_touchLine]

theorem keeps_injectWord {d k a} : Keeps s (injectWord s d k a) := by
  grind [injectWord, Keeps, keeps_modDie, keeps_setSpWord]

theorem keeps_spStore {d k a bs} : Keeps s (spStore s d k a bs) := by
  grind [spStore, Keeps, keeps_foldl, keeps_writeInWord, keeps_injectWord]

theorem keeps_spLoadWords {x y z w} : Keeps s (spLoadWords x s y z w).2 := by
  induction x generalizing s y z w with
  | zero => exact keeps_refl
  | succ n ih => grind [spLoadWords, Keeps, keeps_readWord]

theorem keeps_spLoad {d k a n} : Keeps s (spLoad s d k a n).2 := by
  grind [spLoad, Keeps, keeps_spLoadWords]

theorem keeps_answer {a} : Keeps s (answer s a) := keeps_refl

theorem keeps_execSpRead {d k addr x flips} : Stays s (execSpRead d k addr x flips s) := by
  grind [execSpRead, Stays, Keeps, keeps_illegalAccess, keeps_readWord, keeps_answer]

theorem keeps_execSpWrite {d k addr data} : Stays s (execSpWrite d k addr data s) := by
  grind [execSpWrite, Stays, Keeps, keeps_foldl, keeps_illegalAccess, keeps_spStore]

theorem keeps_scrubWords {d k base w flips} : Keeps s (scrubWords s d k base w flips) := by
  grind [scrubWords, Keeps, keeps_foldl, keeps_readStored]

theorem keeps_execSpScrubRead {d k word flips} : Stays s (execSpScrubRead d k word flips s) := by
  grind [execSpScrubRead, Stays, Keeps, keeps_modCluster, keeps_bumpDie, keeps_scrubWords]

theorem keeps_beginScrubEpoch {d} : Keeps s (beginScrubEpoch s d) := keeps_refl

theorem keeps_execSpScrubEpochEnd {d} : Stays s (execSpScrubEpochEnd d s) := by
  grind [execSpScrubEpochEnd, Stays, Keeps, keeps_modDie, keeps_logEvent, keeps_beginScrubEpoch]

theorem keeps_execNeighbourAccess {d k dir addr op} : Stays s (execNeighbourAccess d k dir addr op s) := by
  refine stays_next ?_
  split
  · exact keeps_refl
  · exact keeps_illegalAccess
  cases op
  case read m =>
    dsimp only
    split
    · exact keeps_illegalAccess
    · grind [keeps_spLoad, keeps_answer, keeps_trans]
  case write bs =>
    dsimp only
    split
    · exact keeps_illegalAccess
    · exact keeps_spStore

theorem keeps_execNeighbourSignal {d k dir} : Stays s (execNeighbourSignal d k dir s) := by
  grind [execNeighbourSignal, Stays, Keeps, keeps_modCluster, keeps_illegalAccess]

theorem keeps_groupWork {r c} : KeepsRunTo s₀ (fun o => ∀ x y, o = some (x, y) → WorkKeeps x) (groupWork r c) := by
  unfold groupWork
  refine runTo_ite ?_ (runTo_ite ?_ (runTo_ite ?_ ?_))
  · refine runTo_bind keeps_rowSem fun o ho => ?_
    split
    · exact runTo_after (ho _ rfl).units fun n => runTo_pure fun x y e => ho x (by grind)
    refine runTo_bind keeps_refineWork fun o ho => ?_
    split
    · exact runTo_pure fun _ _ e => nomatch e
    have hw := ho _ _ rfl
    refine runTo_ite (runTo_pure fun _ _ e => nomatch e) ?_
    refine runTo_after keeps_rejectOn fun _ => runTo_after hw.start fun _ => runTo_get fun s h => ?_
    exact runTo_after hw.units fun n => runTo_pure fun x y e => (by grind)
  · refine runTo_get fun s h => runTo_after keeps_shardUnits fun o => runTo_pure fun x y e => ?_
    obtain ⟨z, hz, he⟩ := Option.map_eq_some_iff.1 e
    exact (Prod.mk.inj he).1 ▸ ⟨keeps_startAttend, run_pure, keeps_runShardUnit⟩
  · exact runTo_pure fun _ _ e => nomatch e
  · split
    · exact runTo_pure fun _ _ e => nomatch e
    next x hx =>
      have hw := opSem_keeps hx
      exact runTo_after hw.units fun n => runTo_pure fun x y e => (by grind)

theorem keeps_clearClusters {d ks} : Keeps s (clearClusters s d ks) := by
  grind [clearClusters, Keeps, keeps_foldl, keeps_modCluster]

theorem keeps_startGroup {d region ks c g} : Keeps s (startGroup s d region ks c g) := by
  unfold startGroup
  have hw : Keeps s ((groupWork s c).run.run s).2 := keeps_run (run_of_runTo keeps_groupWork)
  grind [Keeps, keeps_clearClusters, keeps_modGroup]

theorem keeps_execTileGroupStart {d region clusters} : Stays s (execTileGroupStart d region clusters s) := by
  grind [execTileGroupStart, Stays, Keeps, keeps_setRound, keeps_startGroup]

theorem keeps_endUnit {r g c} : KeepsRun s₀ (endUnit r g c) := by
  unfold endUnit
  refine run_bindTo keeps_groupWork fun o ho => ?_
  split
  · exact run_pure
  · exact run_bind (ho _ _ rfl).unit fun _ => run_bind keeps_markUnit fun _ => run_get fun s h => run_pure

theorem keeps_execTileGroupEnd {i} : Stays s (execTileGroupEnd i s) := by
  refine stays_next ?_
  split
  · exact keeps_refl
  split
  · exact keeps_refl
  next g hg c hc =>
    generalize h : StateT.run (ExceptT.run _) s = r
    have hr : Keeps s r.2 := by
      rw [← h]
      exact keeps_run keeps_endUnit
    grind [Keeps, keeps_finishUnits, keeps_boundaryOf, keeps_settleStop, keeps_dropGroups, keeps_stopUnits]

theorem keeps_endHealthWindow {d} : Keeps s (endHealthWindow s d) := keeps_refl

theorem keeps_execHealthWindowEnd {d} : Stays s (execHealthWindowEnd d s) := by
  grind [execHealthWindowEnd, Stays, Keeps, keeps_endHealthWindow]

end Sys2Proof.Laws
end

section
/-!
SUPPORT. The queue and memory's canonical form are kept by the matrix array.
-/
namespace Sys2Proof.Laws

open Sys2Proof Sys2Proof.Machine

variable {s s₀ t : State}

theorem keeps_passMismatch {d k inj} : Keeps s (passMismatch s d k inj) := by
  grind [passMismatch, Keeps, keeps_logCluster, keeps_failGroup, keeps_countCluster]

theorem keeps_storeSlots {d k path p m slots} : Keeps s (storeSlots s d k path p m slots) := keeps_spStore

theorem keeps_commitRow {d k t' p m f} : Keeps s (commitRow s d k t' p m f).2 := by
  grind [commitRow, Keeps, keeps_modDie, keeps_bumpDie, keeps_passMismatch, keeps_storeSlots]

theorem keeps_passRows {x y z w v a b} : Keeps s (passRows x y s z w v a b) := by
  induction x generalizing y s with
  | zero => exact keeps_refl
  | succ n ih =>
    unfold passRows
    dsimp only
    split
    · grind [keeps_spLoad]
    next bs s₁ h₁ =>
    have k₁ : Keeps s s₁ := by grind [keeps_spLoad]
    split
    · grind [keeps_spLoad, keeps_trans]
    next xs s₂ h₂ =>
    have k₂ : Keeps s s₂ := by grind [keeps_spLoad, keeps_trans]
    split
    · grind [keeps_spLoad, keeps_trans]
    next accs s₃ h₃ =>
    have k₃ : Keeps s s₃ := by grind [keeps_spLoad, keeps_trans]
    split
    · grind [keeps_commitRow, keeps_trans]
    · grind [keeps_commitRow, keeps_trans]

theorem keeps_loadTile {d k p wf} : Keeps s (loadTile s d k p wf).2 := by
  grind [loadTile, Keeps, Option.elim.eq_def, keeps_modCluster, keeps_spLoad]

theorem keeps_swapTile {d k} : Keeps s (swapTile s d k) := keeps_refl

theorem keeps_checkTile {d k t' p} : Keeps s (checkTile s d k t' p).2 := by
  grind [checkTile, Keeps, keeps_bumpDie, keeps_passMismatch]

theorem keeps_runPass {d k p sf wf} : Keeps s (runPass s d k p sf wf) := by
  grind [runPass, Keeps, keeps_illegalAccess, keeps_passRows, keeps_loadTile, keeps_swapTile, keeps_checkTile]

theorem keeps_execArrayPass {d k p} : Stays s (execArrayPass d k p s) := by
  grind [execArrayPass, Stays, Keeps, keeps_runPass]

end Sys2Proof.Laws
end

section
/-!
SUPPORT. The queue and memory's canonical form are kept by the rows of HBM.
-/
namespace Sys2Proof.Laws

open Sys2Proof Sys2Proof.Machine

variable {s s₀ t : State}

theorem keeps_endFailed {u st} : Keeps s (endFailed s u st) := by
  grind [endFailed, Keeps, keeps_dropGroups, keeps_failMember, keeps_failGraph]

theorem keeps_accessFailed {u off x} : Keeps s (accessFailed s u off x) := by
  grind [accessFailed.eq_def, Keeps, Option.elim.eq_def, keeps_logCmd, keeps_endFailed]

theorem keeps_aboveTop {d off u} : Keeps s (aboveTop s d off u) := by
  grind [aboveTop, Keeps, Option.elim.eq_def, keeps_logCmd, keeps_endFailed]

theorem keeps_execHbmRead {d offset c damage} : Stays s (execHbmRead d offset c damage s) := by
  grind [execHbmRead, Stays, Keeps, keeps_readSector, keeps_answer, keeps_accessFailed, keeps_aboveTop]

theorem keeps_execHbmWrite {d offset data} : Stays s (execHbmWrite d offset data s) := by
  grind [execHbmWrite, Stays, Keeps, keeps_writeSector]

theorem keeps_execHbmRmw {d offset op c damage} : Stays s (execHbmRmw d offset op c damage s) := by
  grind [execHbmRmw, Stays, Keeps, keeps_rmwSector, keeps_answer, keeps_accessFailed, keeps_aboveTop]

theorem keeps_refreshBanks {d stack} : Keeps s (refreshBanks s d stack) := keeps_refl

theorem keeps_execHbmRefresh {d stack} : Stays s (execHbmRefresh d stack s) := by
  grind [execHbmRefresh, Stays, Keeps, keeps_modDie, keeps_refreshBanks]

theorem keeps_execHbmRfm {d stack} : Stays s (execHbmRfm d stack s) := by
  grind [execHbmRfm, Stays, Keeps, keeps_bumpHbm, keeps_refreshBanks]

theorem keeps_execHbmSoftRepair {row spare} : Stays s (execHbmSoftRepair row spare s) := by
  grind [execHbmSoftRepair, Stays, Keeps, keeps_modChan, keeps_bumpHbm, keeps_logEvent, keeps_listRow]

theorem keeps_scrubSector {d c i damage} : Keeps s (scrubSector s d c i damage) := by
  grind [scrubSector, Keeps, keeps_setSector, keeps_readChan]

theorem keeps_execHbmScrubRead {d ch damage} : Stays s (execHbmScrubRead d ch damage s) := by
  grind [execHbmScrubRead, Stays, Keeps, keeps_modChan, keeps_bumpHbm, keeps_scrubSector]

theorem keeps_beginHbmEpoch {d} : Keeps s (beginHbmEpoch s d) := keeps_refl

theorem keeps_execHbmScrubEpochEnd {d} : Stays s (execHbmScrubEpochEnd d s) := by
  grind [execHbmScrubEpochEnd, Stays, Keeps, keeps_modDie, keeps_beginHbmEpoch]

theorem keeps_degradeLane {d c pc l} : Keeps s (degradeLane s d c pc l) := by
  grind [degradeLane, Keeps, keeps_modChan, keeps_queueHistory, keeps_logEvent]

theorem keeps_retrainLane {d c x} : Keeps s (retrainLane s d c x) := by
  grind [retrainLane, Keeps, keeps_fenceChannel, keeps_degradeLane]

theorem keeps_execHbmLaneRetrain {d result} : Stays s (execHbmLaneRetrain d result s) := by
  grind [execHbmLaneRetrain, Stays, Keeps, keeps_foldl, keeps_modChan, keeps_fenceChannel, keeps_retrainLane]

theorem keeps_hardRepair {d spares x} : Keeps s (hardRepair s d spares x) := by
  grind [hardRepair, Keeps, keeps_bumpHbm, keeps_queueHistory, keeps_logEvent]

theorem keeps_readBackBad {d c i} : Keeps s (readBackBad s d c i) := by
  grind [readBackBad, Keeps, keeps_bumpHbm, keeps_occur, keeps_setSector, keeps_markFaulty]

theorem keeps_trainLane {d c pc bad} : Keeps s (trainLane s d c pc bad) := by
  grind [trainLane, Keeps, Option.elim.eq_def, keeps_modChan, keeps_queueHistory, keeps_degradeLane]

theorem keeps_trainChan {d r fill} : Keeps s (trainChan s d r fill) := by
  grind [trainChan, Keeps, keeps_foldl, keeps_readBackBad, keeps_trainLane]

theorem keeps_serveChan {d c} : Keeps s (serveChan s d c) := keeps_refl

theorem keeps_trainStack {d stack r fill} : Keeps s (trainStack s d stack r fill) := by
  grind [trainStack, Keeps, keeps_foldl, keeps_modDie, keeps_modPwrDie, keeps_logEvent, keeps_hardRepair, keeps_trainChan,
    keeps_serveChan]

theorem keeps_settleChan {d n c live} : Keeps s (settleChan s d n c live) := by
  grind [settleChan, Keeps, keeps_modChan, keeps_queueHistory, keeps_logEvent]

theorem keeps_settleMap {d gen} : Keeps s (settleMap s d gen) := by
  grind [settleMap, Keeps, keeps_foldl, keeps_modDie, keeps_failDie, keeps_settleChan]

theorem keeps_zeroFill {d} : Keeps s (zeroFill s d) := ⟨rfl, id, fun w => smWf_smKeep (fun k => k / 2 ^ 33 != d) w⟩

theorem keeps_maintain {d r0 r1} : Keeps s (maintain s d r0 r1) := by
  grind [maintain, Keeps, keeps_modDie, keeps_trainStack, keeps_settleMap, keeps_zeroFill]

end Sys2Proof.Laws
end

section
/-!
SUPPORT. The queue and memory's canonical form are kept by set-up by registers with rows of their own.
-/
namespace Sys2Proof.Laws

open Sys2Proof Sys2Proof.Machine

variable {s s₀ t : State}

theorem keeps_configRequest {f} (hf : Keeps s (f s)) : Keeps s (configRequest s f) := by
  grind [configRequest, Keeps, keeps_answer]

theorem keeps_setupWrite {off value f} (hf : Keeps s (f s)) : Keeps s (setupWrite s off value f) := by
  grind [setupWrite, Keeps, keeps_logIgnored]

theorem keeps_setRingStage {f x} : Keeps s (setRingStage s f x) := by
  grind [setRingStage, Keeps]

theorem keeps_selectRing {f ix} : Keeps s (selectRing s f ix) := by
  grind [selectRing, Keeps, keeps_setVf, keeps_setRingStage]

theorem keeps_selectWindow {ix} : Keeps s (selectWindow s ix) := by
  grind [selectWindow, Keeps]

theorem keeps_selectRingGroup {g m} : Keeps s (selectRingGroup s g m) := by
  grind [selectRingGroup, Keeps]

theorem keeps_execStageSelect {x} : Stays s (execStageSelect x s) := by
  grind [execStageSelect.eq_def, Stays, Keeps, keeps_setupWrite, keeps_selectRing, keeps_selectWindow,
    keeps_selectRingGroup]

theorem keeps_commitRing {f off value} : Keeps s (commitRing s f off value) := by
  grind [commitRing, Keeps, keeps_setRing, keeps_logIgnored, keeps_setRingEnable, keeps_setRingStage]

theorem keeps_execRingConfigCommit {f} : Stays s (execRingConfigCommit f s) := by
  grind [execRingConfigCommit, Stays, Keeps, keeps_setupWrite, keeps_commitRing]

theorem keeps_commitEnable {r on} : Keeps s (commitEnable s r on) := by
  grind [commitEnable, Keeps, keeps_setRingEnable, keeps_setRingStage]

theorem keeps_execRingEnable {r} : Stays s (execRingEnable r s) := by
  grind [execRingEnable, Stays, Keeps, keeps_setupWrite, keeps_commitEnable]

theorem keeps_execRingDisable {r} : Stays s (execRingDisable r s) := by
  grind [execRingDisable, Stays, Keeps, keeps_setupWrite, keeps_commitEnable]

theorem keeps_evictRings {rs} : Keeps s (evictRings s rs) := by
  grind [evictRings, Keeps, keeps_foldl, keeps_requestEvict]

theorem keeps_drainRings {rs} : Keeps s (drainRings s rs) := by
  grind [drainRings, Keeps, keeps_foldl, keeps_setRingEnable, keeps_evictRings]

theorem keeps_drainVf {f} : Keeps s (drainVf s f) := by
  grind [drainVf, Keeps, keeps_setVf, keeps_drainRings]

theorem keeps_execVfFlr {f} : Stays s (execVfFlr f s) := by
  grind [execVfFlr, Stays, Keeps, keeps_configRequest, keeps_drainVf]

theorem keeps_execVfEnable {f} : Stays s (execVfEnable f s) := by
  grind [execVfEnable, Stays, Keeps, keeps_setVf, keeps_configRequest]

theorem keeps_endVfDrain {f} : Keeps s (endVfDrain s f) := by
  grind [endVfDrain, Keeps, keeps_setVf]

theorem keeps_eachCmd {f} (hf : ∀ s c, Keeps s (f s c)) : Keeps s (eachCmd s f) := by
  grind [eachCmd, Keeps, keeps_foldl, Option.elim.eq_def]

theorem keeps_windowChange : Keeps s (windowChange s) := by
  grind [windowChange, Keeps, keeps_requestSuspend, keeps_resumeAll, keeps_eachCmd]

theorem keeps_execSpoolWindowChange : Stays s (execSpoolWindowChange s) := stays_next keeps_windowChange

theorem keeps_writePartMode {m off value} : Keeps s (writePartMode s m off value) := by
  grind [writePartMode, Keeps, keeps_logIgnored, keeps_windowChange]

theorem keeps_execPartModeWrite {m} : Stays s (execPartModeWrite m s) := by
  grind [execPartModeWrite, Stays, Keeps, keeps_setupWrite, keeps_writePartMode]

theorem keeps_writePartCfg {p v off value} : Keeps s (writePartCfg s p v off value) := by
  grind [writePartCfg, Keeps, keeps_setPart, keeps_logIgnored]

theorem keeps_execPartitionConfig {p v} : Stays s (execPartitionConfig p v s) := by
  grind [execPartitionConfig, Stays, Keeps, keeps_setupWrite, keeps_writePartCfg]

theorem keeps_holdPart {p} : Keeps s (holdPart s p) := by
  grind [holdPart, Keeps, keeps_setPart]

theorem keeps_unholdPart {p} : Keeps s (unholdPart s p) := by
  grind [unholdPart, Keeps, keeps_setPart, keeps_resumeAll]

theorem keeps_evictPart {p} : Keeps s (evictPart s p) := by
  grind [evictPart, Keeps, keeps_modPart, keeps_requestEvict, keeps_eachCmd]

theorem keeps_execPartitionHold {p} : Stays s (execPartitionHold p s) := by
  grind [execPartitionHold, Stays, Keeps, keeps_setupWrite, keeps_holdPart]

theorem keeps_execPartitionUnhold {p} : Stays s (execPartitionUnhold p s) := by
  grind [execPartitionUnhold, Stays, Keeps, keeps_setupWrite, keeps_unholdPart]

theorem keeps_execPartitionEvict {p} : Stays s (execPartitionEvict p s) := by
  grind [execPartitionEvict, Stays, Keeps, keeps_setupWrite, keeps_evictPart]

theorem keeps_suspendCtx {tag} : Keeps s (suspendCtx s tag) := by
  grind [suspendCtx, Keeps, keeps_requestSuspend, keeps_eachCmd]

theorem keeps_cancelYield {x} : Keeps s (cancelYield s x) := by
  grind [cancelYield, Keeps, keeps_foldl, keeps_modCmd]

theorem keeps_cancelSuspend {c} : Keeps s (cancelSuspend s c) := by
  grind [cancelSuspend, Keeps, keeps_foldl, keeps_modTree, keeps_cancelYield]

theorem keeps_releaseCtx {tag} : Keeps s (releaseCtx s tag) := by
  grind [releaseCtx, Keeps, keeps_resumeAll, keeps_eachCmd, keeps_cancelSuspend]

theorem keeps_admitCtx {x y z} : Keeps s (admitCtx x s y z) := by
  induction x generalizing s with
  | zero => exact keeps_refl
  | succ n ih => grind [admitCtx, Keeps, keeps_fetchHead]

theorem keeps_evictCtx {tag} : Keeps s (evictCtx s tag) := by
  grind [evictCtx, Keeps, keeps_foldl, keeps_requestEvict, keeps_eachCmd, keeps_admitCtx]

theorem keeps_writePreempt {tag action go off value} : Keeps s (writePreempt s tag action go off value) := by
  grind [writePreempt, Keeps, keeps_logIgnored, keeps_suspendCtx, keeps_releaseCtx, keeps_evictCtx]

theorem keeps_execSuspend {ctx} : Stays s (execSuspend ctx s) := by
  grind [execSuspend, Stays, Keeps, keeps_setupWrite, keeps_writePreempt]

theorem keeps_execRelease {ctx} : Stays s (execRelease ctx s) := by
  grind [execRelease, Stays, Keeps, keeps_setupWrite, keeps_writePreempt]

theorem keeps_execEvict {ctx} : Stays s (execEvict ctx s) := by
  grind [execEvict, Stays, Keeps, keeps_setupWrite, keeps_writePreempt]

theorem keeps_writePartKey {p key} : Keeps s (writePartKey s p key) := by
  grind [writePartKey, Keeps, keeps_modPart]

theorem keeps_execPartKeyWrite {p key} : Stays s (execPartKeyWrite p key s) := by
  grind [execPartKeyWrite, Stays, Keeps, keeps_setupWrite, keeps_writePartKey]

theorem keeps_writeModuleId {id anchor} : Keeps s (writeModuleId s id anchor) := keeps_applyModuleId

theorem keeps_execModuleIdWrite {id anchor byAnchor} : Stays s (execModuleIdWrite id anchor byAnchor s) := by
  grind [execModuleIdWrite, Stays, Keeps, keeps_logIgnored, keeps_writeModuleId]

theorem keeps_commitWindow : Keeps s (commitWindow s) := keeps_refl

theorem keeps_execZwWinCommit : Stays s (execZwWinCommit s) := by
  grind [execZwWinCommit, Stays, Keeps, keeps_setupWrite, keeps_commitWindow]

theorem keeps_commitRingGroup {off value} : Keeps s (commitRingGroup s off value) := by
  grind [commitRingGroup, Keeps, keeps_logIgnored]

theorem keeps_execRingGroupCommit : Stays s (execRingGroupCommit s) := by
  grind [execRingGroupCommit, Stays, Keeps, keeps_setupWrite, keeps_commitRingGroup]

theorem keeps_disableCodec {d} : Keeps s (disableCodec s d) := by
  grind [disableCodec, Keeps, keeps_modCodec, keeps_abortAll]

theorem keeps_enableCodec {d} : Keeps s (enableCodec s d) := keeps_refl

theorem keeps_endCodecDrain {d} : Keeps s (endCodecDrain s d) := by
  grind [endCodecDrain, Keeps, keeps_setCodec]

theorem keeps_execCodecDisable {d} : Stays s (execCodecDisable d s) := by
  grind [execCodecDisable, Stays, Keeps, keeps_setupWrite, keeps_disableCodec]

theorem keeps_execCodecEnable {d} : Stays s (execCodecEnable d s) := by
  grind [execCodecEnable, Stays, Keeps, keeps_setupWrite, keeps_enableCodec]

theorem keeps_writeFence {d ch off value} : Keeps s (writeFence s d ch off value) := by
  grind [writeFence, Keeps, keeps_logIgnored, keeps_fenceChannel]

theorem keeps_execHbmFence {d ch} : Stays s (execHbmFence d ch s) := by
  grind [execHbmFence, Stays, Keeps, keeps_setupWrite, keeps_writeFence]

theorem keeps_requestMaint {d} : Keeps s (requestMaint s d) := keeps_refl

theorem keeps_execHbmMaint {d} : Stays s (execHbmMaint d s) := by
  grind [execHbmMaint, Stays, Keeps, keeps_setupWrite, keeps_requestMaint]

theorem keeps_writeHbmInj {d v off} : Keeps s (writeHbmInj s d v off) := by
  grind [writeHbmInj, Keeps, keeps_modDie, keeps_logIgnored]

theorem keeps_writeCluInj {d v off} : Keeps s (writeCluInj s d v off) := by
  grind [writeCluInj, Keeps, keeps_modDie, keeps_logIgnored]

theorem keeps_execHbmInjArm {d v} : Stays s (execHbmInjArm d v s) := by
  grind [execHbmInjArm, Stays, Keeps, keeps_setupWrite, keeps_writeHbmInj]

theorem keeps_execDieCluInjArm {d v} : Stays s (execDieCluInjArm d v s) := by
  grind [execDieCluInjArm, Stays, Keeps, keeps_setupWrite, keeps_writeCluInj]

end Sys2Proof.Laws
end

section
/-!
SUPPORT. The queue and memory's canonical form are kept by the error ring and the history.
-/
namespace Sys2Proof.Laws

open Sys2Proof Sys2Proof.Machine

variable {s s₀ t : State}

theorem keeps_earlyWrite {off value f} (hf : Keeps s (f s)) : Keeps s (earlyWrite s off value f) := by
  grind [earlyWrite, Keeps, keeps_logIgnored]

theorem keeps_enableErr : Keeps s (enableErr s) := by
  grind [enableErr, Keeps, keeps_flushBuffer]

theorem keeps_disableErr : Keeps s (disableErr s) := keeps_refl

theorem keeps_execErrRingEnable : Stays s (execErrRingEnable s) := by
  grind [execErrRingEnable, Stays, Keeps, keeps_earlyWrite, keeps_enableErr]

theorem keeps_execErrRingDisable : Stays s (execErrRingDisable s) := by
  grind [execErrRingDisable, Stays, Keeps, keeps_earlyWrite, keeps_disableErr]

theorem keeps_execErrHeadReread : Stays s (execErrHeadReread s) := by
  grind [execErrHeadReread, Stays, Keeps, keeps_errReadHead, keeps_errFlush]

theorem keeps_execCoalWindowEnd : Stays s (execCoalWindowEnd s) := by
  grind [execCoalWindowEnd, Stays, Keeps, keeps_endCoalWindow]

theorem keeps_execErrIrq : Stays s (execErrIrq s) := by
  grind [execErrIrq, Stays, Keeps, Option.elim.eq_def, keeps_sendMsix]

theorem keeps_programHistory {w} : Keeps s (programHistory s w) := by
  grind [programHistory.eq_def, Keeps, keeps_logEvent]

theorem keeps_execFlashHistoryWrite {failedAt} : Stays s (execFlashHistoryWrite failedAt s) := by
  grind [execFlashHistoryWrite, Stays, Keeps, keeps_logEvent, keeps_programHistory]

theorem keeps_execClearLog : Stays s (execClearLog s) := by
  grind [execClearLog, Stays, Keeps, keeps_queueHistory, keeps_earlyWrite]

end Sys2Proof.Laws
end

section
/-!
SUPPORT. The queue and memory's canonical form are kept by the timeline.
-/
namespace Sys2Proof.Laws

open Sys2Proof Sys2Proof.Machine

variable {s s₀ t : State}

theorem keeps_setAbsTick {came a} : Keeps s (setAbsTick s came a) := keeps_refl

theorem keeps_tick : Keeps s (tick s) := by
  grind [tick, Keeps, keeps_swapSpool, keeps_setAbsTick]

theorem keeps_stepTimeline {d} : Keeps s (stepTimeline s d) := by
  grind [stepTimeline, Keeps, keeps_modCmd, keeps_logEvent, keeps_swapSpool, keeps_eachCmd, keeps_windowChange,
    keeps_setAbsTick]

theorem keeps_sample {num den ns} : Keeps s (sample s num den ns) := by
  grind [sample, Keeps, keeps_stepTimeline]

theorem keeps_execTbPpsEdge {second} : Stays s (execTbPpsEdge second s) := by
  grind [execTbPpsEdge, Stays, Keeps, keeps_sample]

theorem keeps_execPpsOkLost : Stays s (execPpsOkLost s) := by
  grind [execPpsOkLost, Stays, Keeps]

theorem keeps_execTbRefChange {present} : Stays s (execTbRefChange present s) := by
  grind [execTbRefChange, Stays, Keeps]

theorem keeps_execTimeHoldover : Stays s (execTimeHoldover s) := by
  grind [execTimeHoldover, Stays, Keeps, keeps_logEvent]

theorem keeps_sendTime {p dst m} : Keeps s (sendTime s p dst m) := keeps_refl

theorem keeps_discardMsg : Keeps s (discardMsg s) := keeps_refl

theorem keeps_discardTlvs {m body n} : Keeps s (discardTlvs s m body n) := keeps_refl

theorem keeps_trySample : Keeps s (trySample s) := by
  grind [trySample, Keeps, keeps_sample]

theorem keeps_sendDelayReq {path} : Keeps s (sendDelayReq s path) := by
  grind [sendDelayReq.eq_def, Keeps, keeps_hostWrite, keeps_sendTime]

theorem keeps_slaveMsg {path m n t2} : Keeps s (slaveMsg s path m n t2) := by
  grind [slaveMsg, Keeps, keeps_discardMsg, keeps_discardTlvs, keeps_trySample, keeps_sendDelayReq]

theorem keeps_timeRxGo {len off} : Keeps s (timeRxGo s len off) := by
  grind [timeRxGo, Keeps, keeps_logIgnored, keeps_discardMsg, keeps_slaveMsg]

theorem keeps_execTimeRxGo {len} : Stays s (execTimeRxGo len s) := by
  grind [execTimeRxGo, Stays, Keeps, keeps_earlyWrite, keeps_timeRxGo]

theorem keeps_execPtpSyncSend {p} : Stays s (execPtpSyncSend p s) := by
  grind [execPtpSyncSend, Stays, Keeps, keeps_modPort, keeps_sendTime]

theorem keeps_execPtpAnnounceSend {p} : Stays s (execPtpAnnounceSend p s) := by
  grind [execPtpAnnounceSend, Stays, Keeps, keeps_modPort, keeps_sendTime]

theorem keeps_timeSent {p k} : Keeps s (timeSent s p k) := by
  grind [timeSent, Keeps, keeps_sendTime]

theorem keeps_timePacket {p k} : Keeps s (timePacket s p k) := by
  grind [timePacket, Keeps, keeps_sendTime, keeps_discardMsg, keeps_discardTlvs, keeps_slaveMsg]

end Sys2Proof.Laws
end

section
/-!
SUPPORT. The queue and memory's canonical form are kept by the ends of the requests that a module has sent.
-/
namespace Sys2Proof.Laws

open Sys2Proof Sys2Proof.Machine

variable {s s₀ t : State}

theorem keeps_dropRequest {r} : Keeps s (dropRequest s r) := keeps_refl

theorem keeps_modRequest {r f} : Keeps s (modRequest s r f) := keeps_refl

theorem keeps_advanceAll : Keeps s (advanceAll s) := by
  grind [advanceAll, Keeps, keeps_foldl, Option.elim.eq_def, keeps_memberPost, keeps_advanceEnd]

theorem keeps_failAccess {r reason st} : Keeps s (failAccess s r reason st) := by
  grind [failAccess, Keeps, keeps_modCmd, keeps_dropGroups, keeps_logCmd, keeps_dropPool, keeps_advanceEnd, keeps_failCmd,
    keeps_failMember, keeps_failGraph, keeps_dropLoads]

theorem keeps_memberLost {i} : Keeps s (memberLost s i) := by
  grind [memberLost, Keeps, keeps_setMember, keeps_failForward, keeps_eachCmd]

theorem keeps_endRcfg {st data} : Keeps s (endRcfg s st data) := keeps_refl

theorem keeps_failRequest {r reason st} : Keeps s (failRequest s r reason st) := by
  grind [failRequest, Keeps, Option.elim.eq_def, keeps_failForward, keeps_failAccess, keeps_memberLost, keeps_endRcfg]

theorem keeps_endRequest {r reason st} : Keeps s (endRequest s r reason st) := by
  grind [endRequest, Keeps, keeps_dropRequest, keeps_advanceAll, keeps_failRequest]

theorem keeps_giveUpRequest {r reason st} : Keeps s (giveUpRequest s r reason st) := by
  grind [giveUpRequest, Keeps, keeps_modRequest, keeps_advanceAll, keeps_failRequest]

theorem keeps_timeoutRequest {r} : Keeps s (timeoutRequest s r) := keeps_giveUpRequest

theorem keeps_execRequestTimeout {d tag} : Stays s (execRequestTimeout d tag s) := by
  grind [execRequestTimeout, Stays, Keeps, keeps_timeoutRequest]

theorem keeps_execDescTimeout {u} : Stays s (execDescTimeout u s) := by
  grind [execDescTimeout, Stays, Keeps, keeps_timeoutRequest]

theorem keeps_execRemoteConfigTimeout : Stays s (execRemoteConfigTimeout s) := by
  grind [execRemoteConfigTimeout, Stays, Keeps, keeps_timeoutRequest]

theorem keeps_execMemberProbeTimeout {i} : Stays s (execMemberProbeTimeout i s) := by
  grind [execMemberProbeTimeout, Stays, Keeps, keeps_timeoutRequest]

theorem keeps_execTagReuseTimeout {d tag} : Stays s (execTagReuseTimeout d tag s) := by
  grind [execTagReuseTimeout, Stays, Keeps, keeps_dropRequest, keeps_advanceAll]

theorem keeps_sendConfig {kind write dst addr data} (ht : sendConfig s kind write dst addr data = some (some t)) :
    Keeps s t := by
  unfold sendConfig at ht
  split at ht
  · cases ht
  next v hv =>
    obtain ⟨r, hr, rfl⟩ := Option.map_eq_some_iff.1 (Option.some.inj ht)
    exact keeps_trans (keeps_sendMsg hr) keeps_refl

theorem keeps_execMemberProbe {i} : Stays s (execMemberProbe i s) := by
  grind [execMemberProbe, Stays, Keeps, keeps_setMember, keeps_memberLost, → keeps_sendConfig]

theorem keeps_execQuietPeriodEnd {i} : Stays s (execQuietPeriodEnd i s) := by
  grind [execQuietPeriodEnd, Stays, Keeps, keeps_setMember]

theorem keeps_execAnchorSilence : Stays s (execAnchorSilence s) := by
  grind [execAnchorSilence, Stays, Keeps, keeps_modCmd, keeps_logAborted, keeps_abortCmd, keeps_eachCmd]

theorem keeps_startRcfg : Keeps s (startRcfg s) := by
  grind [startRcfg, Keeps, keeps_endRcfg, → keeps_sendConfig]

theorem keeps_retryRcfg : Keeps s (retryRcfg s) := by
  grind [retryRcfg, Keeps, keeps_startRcfg]

theorem keeps_writeRcfg {v mask off} : Keeps s (writeRcfg s v mask off) := by
  grind [writeRcfg, Keeps, keeps_logIgnored, keeps_startRcfg]

theorem keeps_execRemoteConfigGo {v} : Stays s (execRemoteConfigGo v s) := by
  grind [execRemoteConfigGo, Stays, Keeps, keeps_setupWrite, keeps_writeRcfg]

end Sys2Proof.Laws
end

section
/-!
SUPPORT. The queue and memory's canonical form are kept by packets and their reception.
-/
namespace Sys2Proof.Laws

open Sys2Proof Sys2Proof.Machine

variable {s s₀ t : State}

theorem keeps_bumpPort {p k} : Keeps s (bumpPort s p k) := keeps_refl

theorem keeps_startQuarantine {p} : Keeps s (startQuarantine s p) := by
  grind [startQuarantine, Keeps, keeps_modPort, keeps_logEvent, keeps_bumpPort]

theorem keeps_refuse {p k reason} : Keeps s (refuse s p k reason) := by
  grind [refuse, Keeps, keeps_modPort, keeps_txPush, keeps_bumpPort, keeps_startQuarantine]

theorem keeps_execQuarantineEnd {p} : Stays s (execQuarantineEnd p s) := by
  grind [execQuarantineEnd, Stays, Keeps, keeps_modPort, keeps_logEvent, keeps_startQuarantine]

theorem keeps_execNakWindowEnd {p} : Stays s (execNakWindowEnd p s) := by
  grind [execNakWindowEnd, Stays, Keeps, keeps_modPort]

theorem keeps_oweCredits {p k} : Keeps s (oweCredits s p k) := keeps_refl

theorem keeps_occupy {p k} : Keeps s (occupy s p k) := keeps_refl

theorem keeps_refuseQuarantined {p k} : Keeps s (refuseQuarantined s p k) := by
  grind [refuseQuarantined, Keeps, Option.elim.eq_def, keeps_modPort, keeps_refuse]

theorem keeps_acceptPacket {p k} : Keeps s (acceptPacket s p k) := by
  grind [acceptPacket, Keeps, keeps_modPort, keeps_refuse, keeps_oweCredits, keeps_occupy, keeps_refuseQuarantined]

theorem keeps_takeSlots {t' x y} : Keeps s (takeSlots t' x s y) := by
  induction x generalizing s with
  | nil => exact keeps_refl
  | cons x xs ih => grind [takeSlots, Keeps, keeps_setPort, keeps_acceptPacket]

theorem keeps_takePacket {p f k} (ht : takePacket s p f = some (k, t)) : Keeps s t := by
  grind [takePacket, Keeps, keeps_setPort, keeps_oweCredits]

theorem keeps_forwardPacket {p k} : Keeps s (forwardPacket s p k) := by
  grind [forwardPacket, Keeps, keeps_txPush, keeps_refuse]

theorem keeps_packetRow {p f act} (hact : ∀ s k, Keeps s (act s k)) : Keeps s (packetRow s p f act) := by
  grind [packetRow, Keeps, → keeps_takePacket, keeps_forwardPacket]

end Sys2Proof.Laws
end

section
/-!
SUPPORT. The queue and memory's canonical form are kept by a Zweve port.
-/
namespace Sys2Proof.Laws

open Sys2Proof Sys2Proof.Machine

variable {s s₀ t : State}

theorem keeps_toDetect {p} : Keeps s (toDetect s p) := keeps_refl

theorem keeps_beginPort {p} : Keeps s (beginPort s p) := by
  grind [beginPort, Keeps, keeps_toDetect]

theorem keeps_stageOff {p} : Keeps s (stageOff s p) := keeps_refl

theorem keeps_portOff {p} : Keeps s (portOff s p) := by
  grind [portOff, Keeps, keeps_beginPort, keeps_stageOff]

theorem keeps_failTags {x} : Keeps s (failTags x s) := by
  induction x generalizing s with
  | nil => exact keeps_refl
  | cons x xs ih => grind [failTags, Keeps, keeps_giveUpRequest]

theorem keeps_discardQueues {p} : Keeps s (discardQueues s p) := by
  grind [discardQueues, Keeps, keeps_modPort, keeps_failTags]

theorem keeps_goDown {p cause} : Keeps s (goDown s p cause) := by
  grind [goDown, Keeps, keeps_modPort, keeps_logEvent, keeps_portOff, keeps_discardQueues]

theorem keeps_failAttempt {p} : Keeps s (failAttempt s p) := by
  grind [failAttempt, Keeps, keeps_modPort, keeps_stageOff, keeps_goDown]

theorem keeps_seatCable {p seated} : Keeps s (seatCable s p seated) := by
  grind [seatCable, Keeps, keeps_beginPort, keeps_stageOff]

theorem keeps_detectSignal {p} : Keeps s (detectSignal s p) := by
  grind [detectSignal, Keeps, keeps_setPort]

theorem keeps_execPortDetect {x} : Stays s (execPortDetect x s) := by
  grind [execPortDetect, Stays, Keeps, keeps_seatCable, keeps_detectSignal]

theorem keeps_execPortTrainDone {p lanes} : Stays s (execPortTrainDone p lanes s) := by
  grind [execPortTrainDone, Stays, Keeps, keeps_setPort, keeps_modPort]

theorem keeps_becomeActive {p x w both} : Keeps s (becomeActive s p x w both) := keeps_refl

theorem keeps_showPartner {p x both} : Keeps s (showPartner s p x both) := keeps_refl

theorem keeps_takeNeg {p x} : Keeps s (takeNeg s p x) := by
  grind [takeNeg, Keeps, keeps_occur, keeps_memberPost, keeps_goDown, keeps_failAttempt, keeps_becomeActive,
    keeps_showPartner]

theorem keeps_execNeg {p x} : Stays s (execNeg p x s) := stays_next keeps_takeNeg

theorem keeps_execPortTrainLimit {p} : Stays s (execPortTrainLimit p s) := by
  grind [execPortTrainLimit, Stays, Keeps, keeps_failAttempt]

theorem keeps_execPortDownRetry {p} : Stays s (execPortDownRetry p s) := by
  grind [execPortDownRetry, Stays, Keeps, keeps_modPort, keeps_toDetect]

theorem keeps_retrainPort {p} : Keeps s (retrainPort s p) := by
  grind [retrainPort, Keeps, keeps_setPort, keeps_bumpPort]

theorem keeps_execPortRetrain {p} : Stays s (execPortRetrain p s) := stays_next keeps_retrainPort

theorem keeps_execPortRetrainLimit {p} : Stays s (execPortRetrainLimit p s) := by
  grind [execPortRetrainLimit, Stays, Keeps, keeps_goDown]

theorem keeps_askReplay {p} : Keeps s (askReplay s p) := keeps_refl

theorem keeps_dropCodeword {p lane} : Keeps s (dropCodeword s p lane) := by
  grind [dropCodeword, Keeps, Option.elim.eq_def, keeps_modPort, keeps_bumpPort, keeps_retrainPort, keeps_askReplay]

theorem keeps_takeCodeword {p lane m} : Keeps s (takeCodeword s p lane m) := by
  grind [takeCodeword, Keeps, keeps_modPort, keeps_retrainPort]

theorem keeps_execCodewordReceive {p lane w} : Stays s (execCodewordReceive p lane w s) := by
  grind [execCodewordReceive, Stays, Keeps, keeps_bumpPort, keeps_dropCodeword, keeps_takeCodeword]

theorem keeps_takeAck {p a} : Keeps s (takeAck s p a) := keeps_refl

theorem keeps_settleTimes {p} : Keeps s (settleTimes s p) := by
  grind [settleTimes, Keeps, keeps_foldl, keeps_setPort, keeps_timeSent]

theorem keeps_resend {p} : Keeps s (resend s p) := by
  grind [resend, Keeps, keeps_modPort, keeps_bumpPort, keeps_settleTimes]

theorem keeps_takeNak {p} : Keeps s (takeNak s p) := by
  grind [takeNak, Keeps, keeps_modPort, keeps_retrainPort, keeps_resend]

theorem keeps_takeControl {p f} : Keeps s (takeControl s p f) := by
  grind [takeControl, Keeps, keeps_modPort, keeps_takeAck, keeps_resend, keeps_takeNak]

theorem keeps_takeCredits {p f} : Keeps s (takeCredits s p f) := keeps_refl

theorem keeps_execFlitReceive {p} : Stays s (execFlitReceive p s) := by
  grind [execFlitReceive, Stays, Keeps, Option.elim.eq_def, keeps_setPort, keeps_modPort, keeps_bumpPort, keeps_takeSlots,
    keeps_takeNeg, keeps_askReplay, keeps_takeControl, keeps_takeCredits]

theorem keeps_sendFlits {tag x y} : Keeps s (sendFlits tag x s y) := by
  induction x generalizing s with
  | nil => exact keeps_refl
  | cons x xs ih => grind [sendFlits, Keeps, keeps_modPort]

theorem keeps_sendIdle {p} : Keeps s (sendIdle s p) := keeps_refl

theorem keeps_holdTime {p seq k} : Keeps s (holdTime s p seq k) := by
  grind [holdTime, Keeps, keeps_modPort]

theorem keeps_transmitNext {p} : Keeps s (transmitNext s p) := by
  grind [transmitNext, Keeps, keeps_setPort, keeps_sendFlits, keeps_sendIdle, keeps_holdTime]

theorem keeps_transmit {p} : Keeps s (transmit s p) := by
  grind [transmit, Keeps, keeps_settleTimes, keeps_transmitNext]

theorem keeps_execPacketTransmit {p} : Stays s (execPacketTransmit p s) := by
  grind [execPacketTransmit, Stays, Keeps, keeps_transmit]

theorem keeps_disablePort {p} : Keeps s (disablePort s p) := by
  grind [disablePort, Keeps, keeps_setPort, keeps_modPort, keeps_portOff]

theorem keeps_enablePort {p} : Keeps s (enablePort s p) := by
  grind [enablePort, Keeps, keeps_setPort, keeps_beginPort]

theorem keeps_endPortDrain {p} : Keeps s (endPortDrain s p) := by
  grind [endPortDrain, Keeps, keeps_portOff]

theorem keeps_execPortDisable {p} : Stays s (execPortDisable p s) := by
  grind [execPortDisable, Stays, Keeps, keeps_setupWrite, keeps_disablePort]

theorem keeps_execPortEnable {p} : Stays s (execPortEnable p s) := by
  grind [execPortEnable, Stays, Keeps, keeps_setupWrite, keeps_enablePort]

theorem keeps_execDrainComplete {what} : Stays s (execDrainComplete what s) := by
  grind [execDrainComplete.eq_def, Stays, Keeps, keeps_resumeAll, keeps_drainRing, keeps_quiesceNow, keeps_endVfDrain,
    keeps_endCodecDrain, keeps_endPortDrain]

end Sys2Proof.Laws
end

section
/-!
SUPPORT. The queue and memory's canonical form are kept by supply, thermal control, resets and bring-up.
-/
namespace Sys2Proof.Laws

open Sys2Proof Sys2Proof.Machine

variable {s s₀ t : State}

theorem keeps_blocksReset {es} : Keeps s (blocksReset s es) := ⟨rfl, id, fun _ => rfl⟩

theorem keeps_mapOutAll : Keeps s (mapOutAll s) := by
  grind [mapOutAll, Keeps, keeps_foldl, keeps_mapOutDie]

theorem keeps_settleHistory : Keeps s (settleHistory s) := by
  grind [settleHistory, Keeps, keeps_foldl, keeps_programHistory]

theorem keeps_coldReset {inputMv} : Keeps s (coldReset s inputMv) := by
  grind [coldReset, Keeps, keeps_blocksReset, keeps_mapOutAll, keeps_settleHistory]

theorem keeps_applyPower {inputMv} : Keeps s (applyPower s inputMv) := by
  grind [applyPower, Keeps, keeps_coldReset]

theorem keeps_restorePower {inputMv heldMs dipped} : Keeps s (restorePower s inputMv heldMs dipped) := by
  grind [restorePower, Keeps, keeps_coldReset]

theorem keeps_execColdReset {x} : Stays s (execColdReset x s) := by
  grind [execColdReset.eq_def, Stays, Keeps, keeps_applyPower, keeps_restorePower]

theorem keeps_moduleReset : Keeps s (moduleReset s) := by
  grind [moduleReset, Keeps, keeps_blocksReset, keeps_mapOutAll]

theorem keeps_execModuleReset : Stays s (execModuleReset s) := by
  grind [execModuleReset, Stays, Keeps, keeps_moduleReset]

theorem keeps_execPfFlr : Stays s (execPfFlr s) := by
  grind [execPfFlr, Stays, Keeps, keeps_setVf, keeps_configRequest, keeps_drainRings]

theorem keeps_execBootComplete {fw base} : Stays s (execBootComplete fw base s) := by
  grind [execBootComplete, Stays, Keeps, Option.elim.eq_def]

theorem keeps_railsUp : Keeps s (railsUp s) := by
  grind [railsUp, Keeps]

theorem keeps_startPorts {ps} : Keeps s (startPorts s ps) := by
  grind [startPorts, Keeps, keeps_foldl, keeps_beginPort]

theorem keeps_execSramRepair : Stays s (execSramRepair s) := by
  grind [execSramRepair, Stays, Keeps, keeps_railsUp, keeps_startPorts]

theorem keeps_mapOutFailed {d ks} : Keeps s (mapOutFailed s d ks) := by
  grind [mapOutFailed, Keeps, keeps_foldl, keeps_failDie, keeps_mapOut]

theorem keeps_retestClusters {d failed} : Keeps s (retestClusters s d failed) := by
  grind [retestClusters, Keeps, keeps_foldl, keeps_modCluster, keeps_queueHistory]

theorem keeps_takeDieOff {d} : Keeps s (takeDieOff s d) := by
  grind [takeDieOff, Keeps, keeps_modDie, keeps_modPort, keeps_modPwrDie, keeps_discardQueues]

theorem keeps_comeOn {d} : Keeps s (comeOn s d) := by
  grind [comeOn, Keeps, keeps_modPwrDie, keeps_startPorts, keeps_takeDieOff]

theorem keeps_execClusterSelfTest {d failed} : Stays s (execClusterSelfTest d failed s) := by
  grind [execClusterSelfTest, Stays, Keeps, keeps_modDie, keeps_mapOutFailed, keeps_retestClusters, keeps_comeOn]

theorem keeps_execHbmTraining {d stack result} : Stays s (execHbmTraining d stack result s) := by
  grind [execHbmTraining, Stays, Keeps, keeps_trainStack, keeps_settleMap, keeps_comeOn]

theorem keeps_execHbmMaintenance {d results} : Stays s (execHbmMaintenance d results s) := by
  grind [execHbmMaintenance, Stays, Keeps, keeps_maintain, keeps_comeOn]

theorem keeps_execFunctionalSelfTest {d implicated passed} : Stays s (execFunctionalSelfTest d implicated passed s) := by
  grind [execFunctionalSelfTest, Stays, Keeps, keeps_modPwrDie, keeps_mapOutFailed]

theorem keeps_execSelfTestTimeout {d} : Stays s (execSelfTestTimeout d s) := by
  grind [execSelfTestTimeout, Stays, Keeps, keeps_failDie]

theorem keeps_execManagementWatchdog {d} : Stays s (execManagementWatchdog d s) := by
  grind [execManagementWatchdog, Stays, Keeps, keeps_failDie]

theorem keeps_execModuleReady : Stays s (execModuleReady s) := by
  grind [execModuleReady, Stays, Keeps, keeps_queueHistory]

theorem keeps_writeDieOff {d off value} : Keeps s (writeDieOff s d off value) := by
  grind [writeDieOff, Keeps, keeps_modPwrDie, keeps_logIgnored, keeps_takeDieOff]

theorem keeps_dieReset {d} : Keeps s (dieReset s d) := by
  grind [dieReset, Keeps, keeps_modDie, keeps_setPort, keeps_setCodec, keeps_setZone, keeps_mapOutDie]

theorem keeps_bringDieUp {d} : Keeps s (bringDieUp s d) := by
  grind [bringDieUp, Keeps, keeps_modPwrDie, keeps_dieReset]

theorem keeps_writeDieOn {d} : Keeps s (writeDieOn s d) := by
  grind [writeDieOn, Keeps, keeps_modPwrDie, keeps_bringDieUp]

theorem keeps_endDieOff {d} : Keeps s (endDieOff s d) := by
  grind [endDieOff, Keeps, keeps_modPwrDie, keeps_bringDieUp]

theorem keeps_settlePower : Keeps s (settlePower s) := by
  grind [settlePower, Keeps, keeps_foldl, keeps_railsUp, keeps_endDieOff]

theorem keeps_execDieOff {d} : Stays s (execDieOff d s) := by
  grind [execDieOff, Stays, Keeps, keeps_writeDieOff]

theorem keeps_execDieOn {d} : Stays s (execDieOn d s) := by
  grind [execDieOn, Stays, Keeps, keeps_writeDieOn]

theorem keeps_flushSystem {x y} : Keeps s (flushSystem x s y) := by
  induction x generalizing s with
  | zero => exact keeps_refl
  | succ n ih => grind [flushSystem, Keeps, keeps_transmit]

theorem keeps_shutdown {cause} : Keeps s (shutdown s cause) := by
  grind [shutdown, Keeps, keeps_foldl, keeps_occur, keeps_mapOutAll, keeps_coldReset, keeps_flushSystem]

theorem keeps_execOrderlyShutdown {x} : Stays s (execOrderlyShutdown x s) := by
  grind [execOrderlyShutdown, Stays, Keeps, keeps_shutdown]

theorem keeps_execRequestedShutdown : Stays s (execRequestedShutdown s) := by
  grind [execRequestedShutdown, Stays, Keeps, keeps_shutdown]

theorem keeps_execSpiEnLow : Stays s (execSpiEnLow s) := by
  grind [execSpiEnLow, Stays, Keeps, keeps_shutdown]

theorem keeps_execSpiEnRelease : Stays s (execSpiEnRelease s) := by
  grind [execSpiEnRelease, Stays, Keeps]

theorem keeps_execPerstRelease : Stays s (execPerstRelease s) := by
  grind [execPerstRelease, Stays, Keeps]

theorem keeps_execPowerExtract : Stays s (execPowerExtract s) := by
  grind [execPowerExtract, Stays, Keeps, keeps_shutdown]

theorem keeps_dropGrants : Keeps s (dropGrants s) := keeps_refl

theorem keeps_listFaulty : Keeps s (listFaulty s) := by
  grind [listFaulty, Keeps, keeps_foldl, keeps_listRow]

theorem keeps_execSagEnter {x} : Stays s (execSagEnter x s) := by
  grind [execSagEnter, Stays, Keeps, keeps_logEvent, keeps_dropGrants, keeps_listFaulty]

theorem keeps_execSagClampLift : Stays s (execSagClampLift s) := by
  grind [execSagClampLift, Stays, Keeps]

theorem keeps_execSagInhibitLift : Stays s (execSagInhibitLift s) := by
  grind [execSagInhibitLift, Stays, Keeps, keeps_logEvent]

theorem keeps_readZone {z reading} : Keeps s (readZone s z reading) := by
  grind [readZone, Keeps, Option.elim.eq_def, keeps_modDie, keeps_modPwrDie, keeps_setZone, keeps_logEvent]

theorem keeps_takeReading {z x} : Keeps s (takeReading s z x) := by
  grind [takeReading.eq_def, Keeps, keeps_readZone]

theorem keeps_readZones {x y} : Keeps s (readZones x s y) := by
  induction x generalizing s y with
  | nil => exact keeps_refl
  | cons x xs ih => grind [readZones, Keeps, Option.elim.eq_def, keeps_takeReading]

theorem keeps_governorEpoch {r} : Keeps s (governorEpoch s r) := by
  grind [governorEpoch, Keeps, keeps_foldl, keeps_modPwrDie, keeps_shutdown, keeps_readZones]

theorem keeps_execGovernorEpoch {r} : Stays s (execGovernorEpoch r s) := by
  grind [execGovernorEpoch, Stays, Keeps, keeps_governorEpoch]

theorem keeps_execFastLimiter : Stays s (execFastLimiter s) := by
  grind [execFastLimiter, Stays, Keeps, keeps_dropGrants]

theorem keeps_writeRetest {v} : Keeps s (writeRetest s v) := keeps_refl

theorem keeps_execRetest {v} : Stays s (execRetest v s) := by
  grind [execRetest, Stays, Keeps, keeps_writeRetest]

theorem keeps_execPowerOff : Stays s (execPowerOff s) := by
  grind [execPowerOff, Stays, Keeps, keeps_answer, keeps_shutdown]

theorem keeps_execPowerOn : Stays s (execPowerOn s) := by
  grind [execPowerOn, Stays, Keeps, keeps_answer, keeps_coldReset]

theorem keeps_execSetLimit {x} : Stays s (execSetLimit x s) := by
  grind [execSetLimit.eq_def, Stays, Keeps, keeps_answer]

theorem keeps_execReadStatus : Stays s (execReadStatus s) := stays_next keeps_answer

theorem keeps_execHistRead {sel} : Stays s (execHistRead sel s) := by
  grind [execHistRead, Stays, Keeps, keeps_answer]

end Sys2Proof.Laws
end

section
/-!
SUPPORT. The queue and memory's canonical form are kept by writes of the set-up registers.
-/
namespace Sys2Proof.Laws

open Sys2Proof Sys2Proof.Machine

variable {s s₀ t : State}

theorem keeps_RegWrite_ignore {w} : Keeps s (RegWrite.ignore w s) := keeps_logIgnored

theorem keeps_writeGlb {o w} : Keeps s (writeGlb s o w) := by
  grind [writeGlb.eq_def, Keeps, keeps_writeRcfg, keeps_RegWrite_ignore]

theorem keeps_writePwrCtrl {w} : Keeps s (writePwrCtrl s w) := by
  grind [writePwrCtrl, Keeps, keeps_moduleReset, keeps_shutdown, keeps_writeRetest, keeps_RegWrite_ignore]

theorem keeps_capGrant {d} : Keeps s (capGrant s d) := keeps_refl

theorem keeps_writePwrDie {w} : Keeps s (writePwrDie s w) := by
  grind [writePwrDie, Keeps, keeps_modPwrDie, keeps_writeDieOff, keeps_writeDieOn, keeps_RegWrite_ignore, keeps_capGrant]

theorem keeps_writePwr {o w} : Keeps s (writePwr s o w) := by
  grind [writePwr.eq_def, Keeps, keeps_RegWrite_ignore, keeps_writePwrCtrl, keeps_writePwrDie]

theorem keeps_writeTime {o w} : Keeps s (writeTime s o w) := by
  grind [writeTime.eq_def, Keeps, keeps_timeRxGo, keeps_RegWrite_ignore]

theorem keeps_writeHq {f o w} : Keeps s (writeHq s f o w) := by
  grind [writeHq.eq_def, Keeps, keeps_setRingStage, keeps_selectRing, keeps_commitRing, keeps_RegWrite_ignore]

theorem keeps_writeCtxBase {w} : Keeps s (writeCtxBase s w) := by
  grind [writeCtxBase, Keeps, keeps_RegWrite_ignore]

theorem keeps_writePartReg {o w} : Keeps s (writePartReg s o w) := by
  grind [writePartReg.eq_def, Keeps, keeps_selectRingGroup, keeps_writePartMode, keeps_writePartCfg, keeps_holdPart,
    keeps_unholdPart, keeps_evictPart, keeps_writePreempt, keeps_commitRingGroup, keeps_writeCtxBase]

theorem keeps_writeErrCfg {w} : Keeps s (writeErrCfg s w) := by
  grind [writeErrCfg, Keeps, keeps_enableErr, keeps_disableErr, keeps_RegWrite_ignore]

theorem keeps_writeErr {o w} : Keeps s (writeErr s o w) := by
  grind [writeErr.eq_def, Keeps, Option.elim.eq_def, keeps_queueHistory, keeps_RegWrite_ignore, keeps_writeErrCfg]

theorem keeps_writePortCtrl {w} : Keeps s (writePortCtrl s w) := by
  grind [writePortCtrl, Keeps, keeps_setPort, keeps_disablePort, keeps_enablePort, keeps_RegWrite_ignore]

theorem keeps_writeZw {o w} : Keeps s (writeZw s o w) := by
  grind [writeZw.eq_def, Keeps, keeps_setMember, keeps_memberPost, keeps_selectWindow, keeps_writePartKey,
    keeps_writeModuleId, keeps_commitWindow, keeps_RegWrite_ignore, keeps_writePortCtrl]

theorem keeps_writeCodecReg {o w} : Keeps s (writeCodecReg s o w) := by
  grind [writeCodecReg.eq_def, Keeps, keeps_disableCodec, keeps_enableCodec]

theorem keeps_writeDieReg {d o w} : Keeps s (writeDieReg s d o w) := by
  grind [writeDieReg.eq_def, Keeps, keeps_setDie, keeps_writeCluInj, keeps_RegWrite_ignore]

theorem keeps_writeHbmReg {d o w} : Keeps s (writeHbmReg s d o w) := by
  grind [writeHbmReg.eq_def, Keeps, keeps_setDie, keeps_writeFence, keeps_requestMaint, keeps_writeHbmInj,
    keeps_RegWrite_ignore]

theorem keeps_writeTblReg {d o w} : Keeps s (writeTblReg s d o w) := by
  grind [writeTblReg.eq_def, Keeps, keeps_modDie]

theorem keeps_writeMsix {f base w} : Keeps s (writeMsix s f base w) := by
  unfold writeMsix
  have hsend : ∀ (t : State) (i j : Nat), Keeps s t → Keeps s (sendMsix t i j) := fun t i j h =>
    keeps_trans h keeps_sendMsix
  split
  · exact keeps_refl
  dsimp only
  split
  · exact hsend _ _ _ keeps_refl
  · exact keeps_refl

theorem keeps_writeRegAt {f p base w} : Keeps s (writeRegAt s f p base w) := by
  grind [writeRegAt.eq_def, Keeps, keeps_writeGlb, keeps_writePwr, keeps_writeTime, keeps_writeHq, keeps_writePartReg,
    keeps_writeErr, keeps_writeZw, keeps_writeCodecReg, keeps_writeDieReg, keeps_writeHbmReg, keeps_writeTblReg,
    keeps_writeMsix]

theorem keeps_registerWrite {a off size value} : Keeps s (registerWrite s a off size value) := by
  grind [registerWrite, Keeps, keeps_logIgnored, keeps_writeRegAt]

theorem keeps_execRegisterWrite {f off size value} : Stays s (execRegisterWrite f off size value s) := by
  grind [execRegisterWrite, Stays, Keeps, keeps_registerWrite]

theorem keeps_registerRead {f off size} : Keeps s (registerRead s f off size).2 := by
  grind [registerRead, Keeps]

theorem keeps_execRegisterLowRead {f off size} : Stays s (execRegisterLowRead f off size s) := by
  grind [execRegisterLowRead, Stays, Keeps, keeps_answer, keeps_registerRead]

end Sys2Proof.Laws
end

section
/-!
SUPPORT. The queue and memory's canonical form are kept by packets at their destination.
-/
namespace Sys2Proof.Laws

open Sys2Proof Sys2Proof.Machine

variable {s s₀ t : State}

theorem keeps_sendRsp {k st data} : Keeps s (sendRsp s k st data) := by
  grind [sendRsp, Keeps, keeps_txPush]

theorem keeps_request {k kind n perform} (hp : Keeps s (perform s)) : Keeps s (request s k kind n perform) := by
  grind [request, Keeps, keeps_logFor, keeps_sendRsp]

theorem keeps_reqRead {x} : Keeps s (reqRead x s).2 := by
  induction x generalizing s with
  | nil => exact keeps_refl
  | cons x xs ih => grind [reqRead, Keeps, keeps_readSector]

theorem keeps_reqWrite {x y z} : Keeps s (reqWrite x y z s).2 := by
  induction x generalizing s y z with
  | nil => exact keeps_refl
  | cons x xs ih => grind [reqWrite, Keeps, keeps_foldl, keeps_writeSector, keeps_rmwSector]

theorem keeps_packetTouch {k n} : Keeps s (packetTouch k n s) := keeps_touchFrom

theorem keeps_performWrite {k mask} : Keeps s (performWrite k mask s) := by
  grind [performWrite, Keeps, keeps_sendRsp, keeps_reqWrite, keeps_packetTouch]

theorem keeps_takeRd {k} : Keeps s (takeRd s k) := by
  grind [takeRd, Keeps, keeps_sendRsp, keeps_request, keeps_reqRead]

theorem keeps_execRd {p} : Stays s (execRd p s) := by
  grind [execRd, Stays, Keeps, keeps_packetRow, keeps_takeRd]

theorem keeps_takeWr {k} : Keeps s (takeWr s k) := by
  grind [takeWr, Keeps, keeps_request, keeps_performWrite]

theorem keeps_execWr {p} : Stays s (execWr p s) := by
  grind [execWr, Stays, Keeps, keeps_packetRow, keeps_takeWr]

theorem keeps_takeWrm {k} : Keeps s (takeWrm s k) := by
  grind [takeWrm, Keeps, keeps_request, keeps_performWrite]

theorem keeps_execWrm {p} : Stays s (execWrm p s) := by
  grind [execWrm, Stays, Keeps, keeps_packetRow, keeps_takeWrm]

theorem keeps_takeAtomic {k} : Keeps s (takeAtomic s k) := by
  grind [takeAtomic, Keeps, keeps_atomicLocal, keeps_sendRsp, keeps_request, keeps_packetTouch]

theorem keeps_execAtomic {p} : Stays s (execAtomic p s) := by
  grind [execAtomic, Stays, Keeps, keeps_packetRow, keeps_takeAtomic]

theorem keeps_answered {p k act} (hact : ∀ r, Keeps s (act s r)) : Keeps s (answered s p k act) := by
  grind [answered, Keeps, keeps_dropRequest, keeps_advanceAll, keeps_timeoutRequest, keeps_bumpPort]

theorem keeps_takeOk {k r} : Keeps s (takeOk s k r) := by
  grind [takeOk, Keeps, Option.elim.eq_def, keeps_setMember, keeps_modCmd, keeps_noteWrite, keeps_dropRequest,
    keeps_advanceAll, keeps_endRcfg]

theorem keeps_takeRsp {p k} : Keeps s (takeRsp p s k) := by
  grind [takeRsp, Keeps, keeps_endRequest, keeps_answered, keeps_takeOk]

theorem keeps_execRsp {p} : Stays s (execRsp p s) := by
  grind [execRsp, Stays, Keeps, keeps_packetRow, keeps_takeRsp]

theorem keeps_takeRefusal {p k} : Keeps s (takeRefusal p s k) := by
  grind [takeRefusal, Keeps, keeps_endRequest, keeps_bumpPort, keeps_answered]

theorem keeps_execNak {p} : Stays s (execNak p s) := by
  grind [execNak, Stays, Keeps, keeps_packetRow, keeps_takeRefusal]

theorem keeps_heardAnchor {k} : Keeps s (heardAnchor s k) := by
  grind [heardAnchor, Keeps]

theorem keeps_admitForwarded {p k desc sync} : Keeps s (admitForwarded s p k desc sync) := by
  grind [admitForwarded, Keeps, keeps_logAborted, keeps_failCmd, keeps_rejectCmd, keeps_recheckHeader]

theorem keeps_takeDesc {p k} : Keeps s (takeDesc p s k) := by
  grind [takeDesc, Keeps, keeps_sendRsp, keeps_heardAnchor, keeps_admitForwarded]

theorem keeps_execDesc {p} : Stays s (execDesc p s) := by
  grind [execDesc, Stays, Keeps, keeps_packetRow, keeps_takeDesc]

theorem keeps_memberErrSeq {src u q} : Keeps s (memberErrSeq s src u q) := by
  grind [memberErrSeq, Keeps, keeps_modCmd, keeps_logCmd]

theorem keeps_takeCompletion {p k} : Keeps s (takeCompletion p s k) := by
  grind [takeCompletion, Keeps, keeps_modCmd, keeps_bumpPort, keeps_memberErrSeq]

theorem keeps_execCompletion {p} : Stays s (execCompletion p s) := by
  grind [execCompletion, Stays, Keeps, keeps_packetRow, keeps_takeCompletion]

theorem keeps_takeConfigRd {k} : Keeps s (takeConfigRd s k) := by
  grind [takeConfigRd, Keeps, keeps_registerRead, keeps_sendRsp, keeps_heardAnchor]

theorem keeps_execConfigRd {p} : Stays s (execConfigRd p s) := by
  grind [execConfigRd, Stays, Keeps, keeps_packetRow, keeps_takeConfigRd]

theorem keeps_takeConfigWr {k} : Keeps s (takeConfigWr s k) := by
  grind [takeConfigWr, Keeps, keeps_registerWrite, keeps_sendRsp, keeps_heardAnchor]

theorem keeps_execConfigWr {p} : Stays s (execConfigWr p s) := by
  grind [execConfigWr, Stays, Keeps, keeps_packetRow, keeps_takeConfigWr]

theorem keeps_takeError {k} : Keeps s (takeError s k) := by
  grind [takeError, Keeps, keeps_createRecord]

theorem keeps_execError {p} : Stays s (execError p s) := by
  grind [execError, Stays, Keeps, keeps_packetRow, keeps_takeError]

theorem keeps_execTime {p} : Stays s (execTime p s) := by
  grind [execTime, Stays, Keeps, keeps_timePacket, keeps_packetRow]

end Sys2Proof.Laws
end

section
/-!
SUPPORT. The queue and memory's canonical form are kept by BAR4 and errors of the PCIe port.
-/
namespace Sys2Proof.Laws

open Sys2Proof Sys2Proof.Machine

variable {s s₀ t : State}

theorem keeps_refuseBar4 {off write x} : Keeps s (refuseBar4 s off write x) := by
  grind [refuseBar4.eq_def, Keeps, keeps_bumpHbm, keeps_logEvent]

theorem keeps_execBar4Read {offset n} : Stays s (execBar4Read offset n s) := by
  grind [execBar4Read, Stays, Keeps, keeps_answer, keeps_reqRead, keeps_refuseBar4]

theorem keeps_bar4Spans {x y} : Keeps s (bar4Spans x y s) := by
  induction x generalizing s y with
  | nil => exact keeps_refl
  | cons x xs ih => grind [bar4Spans, Keeps, keeps_writeSector, keeps_rmwSector]

theorem keeps_execBar4Write {offset data} : Stays s (execBar4Write offset data s) := by
  grind [execBar4Write, Stays, Keeps, keeps_touchScratch, keeps_refuseBar4, keeps_bar4Spans]

theorem keeps_execBar4Resize {log2} : Stays s (execBar4Resize log2 s) := by
  grind [execBar4Resize, Stays, Keeps, keeps_logEvent, keeps_configRequest]

theorem keeps_execPcieError {e} : Stays s (execPcieError e s) := by
  grind [execPcieError, Stays, Keeps, keeps_occur]

end Sys2Proof.Laws
end

section
/-!
SUPPORT. The queue and memory's canonical form are kept by an idle tick.
-/
namespace Sys2Proof.Laws

open Sys2Proof Sys2Proof.Machine

variable {s s₀ t : State}

theorem keeps_idle : Keeps s (idle s) := by
  grind [idle, Keeps, keeps_memberPost, keeps_tick, keeps_retryRcfg, keeps_settlePower]

end Sys2Proof.Laws
end

section
/-!
SUPPORT. What every instruction and every step keeps.
-/
namespace Sys2Proof.Laws

open Sys2Proof Sys2Proof.Machine

variable {s t : State}

/-- Each instruction keeps the queue and the canonical form of memory. -/
theorem keeps_exec {i : Instr} : Stays s (exec i s) := by
  cases i with
  | nop _ => exact keeps_execNop
  | fence _ => exact keeps_execFence
  | eventSignal _ => exact keeps_execEventSignal
  | eventWait _ => exact keeps_execEventWait
  | waitTime _ => exact keeps_execWaitTime
  | copy _ _ => exact keeps_execCopy
  | fill _ _ => exact keeps_execFill
  | matmul _ => exact keeps_execMatmul
  | matmulList _ => exact keeps_execMatmulList
  | matmulChain _ => exact keeps_execMatmulChain
  | conv _ => exact keeps_execConv
  | attend _ => exact keeps_execAttend
  | attendBwd _ => exact keeps_execAttendBwd
  | kvAppend _ => exact keeps_execKvAppend
  | kvIndex _ => exact keeps_execKvIndex
  | vecchain _ => exact keeps_execVecchain
  | reduce _ => exact keeps_execReduce
  | random _ => exact keeps_execRandom
  | sampleTokens _ => exact keeps_execSampleTokens
  | refine _ _ => exact keeps_execRefine
  | collective _ _ => exact keeps_execCollective
  | encode _ => exact keeps_execEncode
  | decode _ => exact keeps_execDecode
  | motion _ => exact keeps_execMotion
  | modelBind _ => exact keeps_execModelBind
  | tableLoad _ => exact keeps_execTableLoad
  | spoolLoad _ => exact keeps_execSpoolLoad
  | ringWake _ _ _ => exact keeps_execRingWake
  | ringPoll _ _ => exact keeps_execRingPoll
  | commandFetch _ => exact keeps_execCommandFetch
  | commandStart _ => exact keeps_execCommandStart
  | eventRecheck _ => exact keeps_execEventRecheck
  | commandDeadline _ => exact keeps_execCommandDeadline
  | completionPost _ _ => exact keeps_execCompletionPost
  | cqHeadRecheck _ _ => exact keeps_execCqHeadRecheck
  | irqDelayExpire _ => exact keeps_execIrqDelayExpire
  | timeWaitReached _ => exact keeps_execTimeWaitReached
  | tileGroupStart _ _ _ => exact keeps_execTileGroupStart
  | arrayPass _ _ _ => exact keeps_execArrayPass
  | spRead _ _ _ user _ => exact keeps_execSpRead (x := user)
  | spWrite _ _ _ _ => exact keeps_execSpWrite
  | spScrubRead _ _ _ _ => exact keeps_execSpScrubRead
  | spScrubEpochEnd _ => exact keeps_execSpScrubEpochEnd
  | neighbourAccess _ _ _ _ _ => exact keeps_execNeighbourAccess
  | neighbourSignal _ _ _ => exact keeps_execNeighbourSignal
  | healthWindowEnd _ => exact keeps_execHealthWindowEnd
  | tableSwap _ _ => exact keeps_execTableSwap
  | statLinkDecision _ => exact keeps_execStatLinkDecision
  | refineGraphCommand _ => exact keeps_execRefineGraphCommand
  | refineUpdate _ => exact keeps_execRefineUpdate
  | refineStepBoundary _ => exact keeps_execRefineStepBoundary
  | collectiveJoin _ _ => exact keeps_execCollectiveJoin
  | collectiveStep _ _ => exact keeps_execCollectiveStep
  | collectiveYield _ _ => exact keeps_execCollectiveYield
  | ringAttendStep _ => exact keeps_execRingAttendStep
  | encodeRelease _ => exact keeps_execEncodeRelease
  | spoolSwap => exact keeps_execSpoolSwap
  | spoolWindowChange => exact keeps_execSpoolWindowChange
  | huskWrite _ => exact keeps_execHuskWrite
  | partitionQuiesce _ => exact keeps_execPartitionQuiesce
  | drainComplete _ => exact keeps_execDrainComplete
  | hbmRead _ _ _ _ => exact keeps_execHbmRead
  | hbmWrite _ _ _ => exact keeps_execHbmWrite
  | hbmRmw _ _ _ _ _ => exact keeps_execHbmRmw
  | hbmSoftRepair _ _ => exact keeps_execHbmSoftRepair
  | hbmRefresh _ _ => exact keeps_execHbmRefresh
  | hbmRfm _ _ => exact keeps_execHbmRfm
  | hbmScrubRead _ _ _ => exact keeps_execHbmScrubRead
  | hbmScrubEpochEnd _ => exact keeps_execHbmScrubEpochEnd
  | hbmLaneRetrain _ _ => exact keeps_execHbmLaneRetrain
  | hbmTraining _ _ _ => exact keeps_execHbmTraining
  | hbmMaintenance _ _ => exact keeps_execHbmMaintenance
  | governorEpoch _ => exact keeps_execGovernorEpoch
  | fastLimiter => exact keeps_execFastLimiter
  | sagEnter _ => exact keeps_execSagEnter
  | sagClampLift => exact keeps_execSagClampLift
  | sagInhibitLift => exact keeps_execSagInhibitLift
  | flashHistoryWrite _ => exact keeps_execFlashHistoryWrite
  | orderlyShutdown _ => exact keeps_execOrderlyShutdown
  | coldReset _ => exact keeps_execColdReset
  | moduleReset => exact keeps_execModuleReset
  | pfFlr => exact keeps_execPfFlr
  | vfFlr _ => exact keeps_execVfFlr
  | vfEnable _ => exact keeps_execVfEnable
  | bootComplete _ _ => exact keeps_execBootComplete
  | sramRepair => exact keeps_execSramRepair
  | clusterSelfTest _ _ => exact keeps_execClusterSelfTest
  | functionalSelfTest _ _ _ => exact keeps_execFunctionalSelfTest
  | selfTestTimeout _ => exact keeps_execSelfTestTimeout
  | moduleReady => exact keeps_execModuleReady
  | dieOff _ => exact keeps_execDieOff
  | dieOn _ => exact keeps_execDieOn
  | requestedShutdown => exact keeps_execRequestedShutdown
  | retest _ => exact keeps_execRetest
  | spiEnLow => exact keeps_execSpiEnLow
  | powerExtract => exact keeps_execPowerExtract
  | powerOff => exact keeps_execPowerOff
  | powerOn => exact keeps_execPowerOn
  | setLimit _ => exact keeps_execSetLimit
  | readStatus => exact keeps_execReadStatus
  | histRead _ => exact keeps_execHistRead
  | tbPpsEdge _ => exact keeps_execTbPpsEdge
  | tbRefChange _ => exact keeps_execTbRefChange
  | timeRxGo _ => exact keeps_execTimeRxGo
  | timeHoldover => exact keeps_execTimeHoldover
  | ptpSyncSend _ => exact keeps_execPtpSyncSend
  | ptpAnnounceSend _ => exact keeps_execPtpAnnounceSend
  | portDetect _ => exact keeps_execPortDetect
  | portTrainDone _ _ => exact keeps_execPortTrainDone
  | neg _ _ => exact keeps_execNeg
  | portTrainLimit _ => exact keeps_execPortTrainLimit
  | portDownRetry _ => exact keeps_execPortDownRetry
  | portRetrain _ => exact keeps_execPortRetrain
  | portRetrainLimit _ => exact keeps_execPortRetrainLimit
  | codewordReceive _ _ _ =>
    rw [exec]
    exact keeps_execCodewordReceive
  | flitReceive _ => exact keeps_execFlitReceive
  | packetTransmit _ => exact keeps_execPacketTransmit
  | rd _ => exact keeps_execRd
  | wr _ => exact keeps_execWr
  | wrm _ => exact keeps_execWrm
  | atomic _ => exact keeps_execAtomic
  | rsp _ => exact keeps_execRsp
  | nak _ => exact keeps_execNak
  | quarantineEnd _ => exact keeps_execQuarantineEnd
  | nakWindowEnd _ => exact keeps_execNakWindowEnd
  | requestTimeout _ _ => exact keeps_execRequestTimeout
  | desc _ => exact keeps_execDesc
  | descTimeout _ => exact keeps_execDescTimeout
  | completion _ => exact keeps_execCompletion
  | configRd _ => exact keeps_execConfigRd
  | configWr _ => exact keeps_execConfigWr
  | error _ => exact keeps_execError
  | time _ => exact keeps_execTime
  | memberProbe _ =>
    rw [exec]
    exact keeps_execMemberProbe
  | memberProbeTimeout _ => exact keeps_execMemberProbeTimeout
  | quietPeriodEnd _ => exact keeps_execQuietPeriodEnd
  | anchorSilence => exact keeps_execAnchorSilence
  | remoteConfigGo _ => exact keeps_execRemoteConfigGo
  | remoteConfigTimeout => exact keeps_execRemoteConfigTimeout
  | bar4Read _ _ => exact keeps_execBar4Read
  | bar4Write _ _ => exact keeps_execBar4Write
  | bar4Resize _ => exact keeps_execBar4Resize
  | pcieError _ => exact keeps_execPcieError
  | registerWrite _ _ _ _ => exact keeps_execRegisterWrite
  | registerLowRead _ _ _ => exact keeps_execRegisterLowRead
  | stageSelect _ => exact keeps_execStageSelect
  | ringConfigCommit _ => exact keeps_execRingConfigCommit
  | ringEnable _ => exact keeps_execRingEnable
  | ringDisable _ => exact keeps_execRingDisable
  | zwWinCommit => exact keeps_execZwWinCommit
  | ringGroupCommit => exact keeps_execRingGroupCommit
  | partModeWrite _ => exact keeps_execPartModeWrite
  | partitionConfig _ _ => exact keeps_execPartitionConfig
  | partitionHold _ => exact keeps_execPartitionHold
  | partitionUnhold _ => exact keeps_execPartitionUnhold
  | partitionEvict _ => exact keeps_execPartitionEvict
  | suspend _ => exact keeps_execSuspend
  | release _ => exact keeps_execRelease
  | evict _ => exact keeps_execEvict
  | partKeyWrite _ _ => exact keeps_execPartKeyWrite
  | moduleIdWrite _ _ _ => exact keeps_execModuleIdWrite
  | portDisable _ => exact keeps_execPortDisable
  | portEnable _ => exact keeps_execPortEnable
  | codecDisable _ => exact keeps_execCodecDisable
  | codecEnable _ => exact keeps_execCodecEnable
  | hbmFence _ _ => exact keeps_execHbmFence
  | hbmMaint _ => exact keeps_execHbmMaint
  | hbmInjArm _ _ => exact keeps_execHbmInjArm
  | dieCluInjArm _ _ => exact keeps_execDieCluInjArm
  | clearLog => exact keeps_execClearLog
  | errRingEnable => exact keeps_execErrRingEnable
  | errRingDisable => exact keeps_execErrRingDisable
  | errHeadReread => exact keeps_execErrHeadReread
  | coalWindowEnd => exact keeps_execCoalWindowEnd
  | errIrq => exact keeps_execErrIrq
  | tileGroupEnd _ => exact keeps_execTileGroupEnd
  | tagReuseTimeout _ _ => exact keeps_execTagReuseTimeout
  | managementWatchdog _ => exact keeps_execManagementWatchdog
  | ppsOkLost => exact keeps_execPpsOkLost
  | spiEnRelease => exact keeps_execSpiEnRelease
  | perstRelease => exact keeps_execPerstRelease

theorem keeps_step (h : step s = .next t) : (smWf 0 s.host = true → smWf 0 t.host = true)
    ∧ (smWf Sector.dflt s.hbm = true → smWf Sector.dflt t.hbm = true) := by
  unfold step at h
  split at h
  · obtain ⟨-, hm⟩ := Host.Outcome.next.inj h ▸ keeps_idle (s := s)
    exact hm
  next c rest _ =>
    obtain ⟨-, hm⟩ := keeps_exec (i := c) (s := { s with pending := rest }) t h
    exact hm

end Sys2Proof.Laws
end

section
/-!
PROOF. The canonical form of memory.
-/
namespace Sys2Proof.Proofs

open Sys2Proof Sys2Proof.Machine Sys2Proof.Laws

/-- Settles O59: each function of the model keeps the canonical form, by its own cases and by what its parts keep. -/
theorem everyStepKeepsMemoryCanonical : Obligations.EveryStepKeepsMemoryCanonical := by
  intro s t hhost hhbm hstep
  obtain ⟨hh, hb⟩ := keeps_step hstep
  exact ⟨hh hhost, hb hhbm⟩

end Sys2Proof.Proofs
end

section
/-!
SUPPORT. Facts that the rows of bring-up, requests and the host's port share: folds that change nothing, commands found among those
of the queues, a module without commands, writes that meet a collective's scratch memory, and registers written on some of their
bits (R311, R321, R471).
-/
namespace Sys2Proof.Laws

open Sys2Proof Sys2Proof.Machine

/-- A fold whose steps all leave its start as it is. -/
theorem foldl_eq_self {α β : Type} {f : β → α → β} {b : β} {xs : List α} (h : ∀ x ∈ xs, f b x = b) :
    xs.foldl f b = b := by
  induction xs with
  | nil => rfl
  | cons x xs ih =>
    obtain ⟨hx, hxs⟩ := List.forall_mem_cons.1 h
    rw [List.foldl_cons, hx, ih hxs]

variable {s : State} {a n : Nat}

/-! ### Commands found -/

/-- A command of a queue is found under its number, or another of a queue with the same number is. -/
theorem findCmd_of_mem {c : Cmd} (h : c ∈ s.cmds) : ∃ c' ∈ s.cmds, findCmd s c.uid = some c' := by
  have hs : (s.cmds.find? (fun x => x.uid == c.uid)).isSome = true := List.find?_isSome.2 ⟨c, h, beq_self_eq_true _⟩
  obtain ⟨c', hc'⟩ := Option.isSome_iff_exists.1 hs
  exact ⟨c', List.mem_of_find?_eq_some hc', by rw [findCmd, allCmds, List.find?_append, hc']; rfl⟩

/-- The one command of the queues is found under its number. -/
theorem findCmd_of_single {c : Cmd} (h : s.cmds = [c]) : findCmd s c.uid = some c := by
  simp [findCmd, allCmds, h]

/-- What is done with every command of the queues changes nothing where it changes nothing for each of them. -/
theorem eachCmd_eq_self {f : State → Cmd → State} (h : ∀ c ∈ s.cmds, f s c = s) : eachCmd s f = s :=
  foldl_eq_self fun c hc => by
    obtain ⟨c', hc', hf⟩ := findCmd_of_mem hc
    rw [hf]
    exact h c' hc'

/-- What is done with the one command of the queues. -/
theorem eachCmd_single {f : State → Cmd → State} {c : Cmd} (h : s.cmds = [c]) : eachCmd s f = f s c := by
  rw [eachCmd, h, List.foldl_cons, List.foldl_nil, findCmd_of_single h]
  rfl

/-- A module that is its own anchor and holds no command has nothing to go on with. -/
theorem advanceAll_idle (hc : s.cmds = []) (hk : s.kids = []) (hm : isMember s = false) : advanceAll s = s := by
  simp [advanceAll, allCmds, hc, hk, memberPost, hm]

/-! ### Scratch memory (R321) -/

/-- A write that meets no scratch memory is no breach. -/
theorem breachAt_none {own : Cmd → Bool} (h : ∀ c ∈ allCmds s, scratchHit a n c = false) : breachAt own a n s = s :=
  if_neg (by simpa using h)

/-- A collective that does not run has no scratch memory to meet. -/
theorem scratchHit_of_idle {c : Cmd} (h : liveCollective c = false) : scratchHit a n c = false := by
  simp [scratchHit, h]

/-! ### A register written on some of its bits -/

/-- A field whose bits are all written holds what was written. -/
theorem field_merge {n lo w : Nat} (old v mask : BitVec n) (h : ∀ i < w, mask.getLsbD (lo + i) = true) :
    field ((old &&& ~~~mask) ||| (v &&& mask)) lo w = field v lo w := by
  refine BitVec.eq_of_getLsbD_eq fun i hi => ?_
  simp [getLsbD_field, h i hi]

end Sys2Proof.Laws
end

section
/-!
SUPPORT. The replay buffer: which SEQs an ACK covers, what codewords and timestamps leave of a port, and what a full buffer sends
(R282, R313).
-/
namespace Sys2Proof.Laws

open Sys2Proof Sys2Proof.Machine

/-! ### ACKs -/

/-- The half-range rule, in numbers. -/
theorem covers_iff {a x : BitVec 12} : covers a x = true ↔ (a.toNat + 4096 - x.toNat) % 4096 < 2048 := by
  have hd : (a - x).toNat = (a.toNat + 4096 - x.toNat) % 4096 := by rw [BitVec.toNat_sub]; omega
  rw [covers, decide_eq_true_iff, hd]

/-- An ACK takes what it covers out of the replay buffer, and nothing else. -/
theorem mem_replay_takeAck {s : State} {p : Nat} {a : BitVec 12} {e : BitVec 12 × BitVec 1024 × Option (BitVec 16)} :
    e ∈ (portOf (takeAck s p a) p).replay ↔ e ∈ (portOf s p).replay ∧ covers a e.1 = false := by
  rw [takeAck, modPort_eq, portOf_setPort]
  split
  next => simp
  next h =>
    have hn : ∀ x ∈ (portOf s p).replay, covers a x.1 = false := by simpa using h
    exact ⟨fun he => ⟨he, hn e he⟩, And.left⟩

/-! ### Codewords leave the replay buffer alone -/

/-- Two ports with the same flits, lanes and codewords under way. -/
structure SameWire (q q' : Port) : Prop where
  txFlits : q.txFlits = q'.txFlits
  txWords : q.txWords = q'.txWords
  width : q.width = q'.width
  wire : q.wire = q'.wire

/-- What `formCodewords` makes of a port rests on the flits, lanes and codewords under way. -/
theorem formCodewords_sameWire {n : Nat} {q q' : Port} (h : SameWire q q') :
    SameWire (formCodewords n q) (formCodewords n q') := by
  induction n generalizing q q' with
  | zero => exact h
  | succ n ih =>
    obtain ⟨hf, hn, hw, hx⟩ := h
    simp only [formCodewords, hf, hn, hw, hx]
    split
    · exact ⟨hf, hn, hw, hx⟩
    · exact ih ⟨rfl, rfl, rfl, rfl⟩

theorem putFlits_sameWire {q q' : Port} (h : SameWire q q') (fs : List (BitVec 1024)) :
    SameWire (putFlits q fs) (putFlits q' fs) :=
  formCodewords_sameWire ⟨congrArg (· ++ fs) h.txFlits, h.txWords, h.width, h.wire⟩

/-- The same unacknowledged flits, and the same SEQ for the next. -/
def SameReplay (q q' : Port) : Prop := q.replay = q'.replay ∧ q.txSeq = q'.txSeq

theorem SameReplay.trans {q q' q'' : Port} (h : SameReplay q q') (h' : SameReplay q' q'') : SameReplay q q'' :=
  ⟨h.1.trans h'.1, h.2.trans h'.2⟩

theorem formCodewords_sameReplay (n : Nat) (q : Port) : SameReplay (formCodewords n q) q := by
  induction n generalizing q with
  | zero => exact ⟨rfl, rfl⟩
  | succ n ih =>
    rw [formCodewords]
    split
    · exact ⟨rfl, rfl⟩
    · exact ih _

theorem putFlits_sameReplay (q : Port) (fs : List (BitVec 1024)) : SameReplay (putFlits q fs) q :=
  formCodewords_sameReplay _ _

/-- A payload flit joins the replay buffer under its SEQ, and goes out as any flit does. -/
theorem sendFlits_one (s : State) (p : Nat) (tag : Option (BitVec 16)) (x : List (BitVec 128)) :
    ∃ f, (portOf (sendFlits tag [x] s p) p).replay = (portOf s p).replay ++ [((portOf s p).txSeq, f, tag)]
      ∧ SameWire (portOf (sendFlits tag [x] s p) p) (putFlits (portOf s p) [f]) := by
  simp only [sendFlits, modPort_eq, portOf_setPort]
  refine ⟨_, (putFlits_sameReplay _ _).1, putFlits_sameWire ?_ _⟩
  exact ⟨rfl, rfl, rfl, rfl⟩

/-! ### A full replay buffer (R282) -/

/-- A packet takes a flit at least. -/
theorem packetFlits_pos (k : Packet) : 0 < (chunk7 19 (packetSlots k)).length := Nat.succ_pos _

/-- With 1,024 flits unacknowledged the port sends an idle flit. -/
theorem transmitNext_full {s : State} {p : Nat} (h : 1024 ≤ (portOf s p).replay.length) : transmitNext s p = sendIdle s p := by
  unfold transmitNext
  dsimp only
  split
  · rfl
  · split
    next k _ =>
      have hlt : 1024 < (portOf s p).replay.length + (chunk7 19 (packetSlots k)).length :=
        Nat.lt_of_le_of_lt h (Nat.lt_add_of_pos_right (packetFlits_pos k))
      rw [if_pos hlt]
    next => rw [if_pos (by simp [h])]

theorem sendIdle_sameReplay (s : State) (p : Nat) : SameReplay (portOf (sendIdle s p) p) (portOf s p) := by
  rw [sendIdle, modPort_eq, portOf_setPort]
  exact putFlits_sameReplay _ _

theorem timeSent_sameReplay (s : State) (p : Nat) (k : Packet) : SameReplay (portOf (timeSent s p k) p) (portOf s p) := by
  unfold timeSent
  split
  · exact ⟨rfl, rfl⟩
  · split
    · rw [sendTime, txPush, modPort_eq, portOf_setPort]; exact ⟨rfl, rfl⟩
    · split <;> exact ⟨rfl, rfl⟩
    · exact ⟨rfl, rfl⟩

theorem foldl_timeSent_sameReplay (xs : List (BitVec 12 × Packet)) (s : State) (p : Nat) :
    SameReplay (portOf (xs.foldl (fun s x => timeSent s p x.2) s) p) (portOf s p) := by
  induction xs generalizing s with
  | nil => exact ⟨rfl, rfl⟩
  | cons x xs ih => exact (ih (timeSent s p x.2)).trans (timeSent_sameReplay s p x.2)

/-- The timestamps of packets that have left change the queues of the port, not its replay buffer. -/
theorem settleTimes_sameReplay (s : State) (p : Nat) : SameReplay (portOf (settleTimes s p) p) (portOf s p) := by
  unfold settleTimes
  dsimp only
  split
  · exact ⟨rfl, rfl⟩
  · refine (foldl_timeSent_sameReplay _ _ p).trans ?_
    rw [portOf_setPort]
    exact ⟨rfl, rfl⟩

/-- A port with a full replay buffer keeps it as it is. -/
theorem transmit_full {s : State} {p : Nat} (h : 1024 ≤ (portOf s p).replay.length) :
    SameReplay (portOf (transmit s p) p) (portOf s p) := by
  rw [transmit, transmitNext_full h]
  exact (settleTimes_sameReplay _ p).trans (sendIdle_sameReplay s p)

end Sys2Proof.Laws
end

section
/-!
PROOF. The replay buffer of a port (R282).
-/
namespace Sys2Proof.Proofs

open Sys2Proof Sys2Proof.Machine Sys2Proof.Laws

/-- Settles O50: an ACK filters the buffer, a payload flit is appended to it, and a port whose buffer is full
sends an idle flit; the timestamps that follow leave the buffer alone. -/
theorem replayHoldsUntilAcknowledged : Obligations.ReplayHoldsUntilAcknowledged := by
  refine ⟨fun a x => covers_iff, fun s p a e => mem_replay_takeAck, fun s p tag x => ?_, fun s p h => transmit_full h⟩
  obtain ⟨f, hr, hw⟩ := sendFlits_one s p tag x
  exact ⟨f, hr, hw.wire, hw.txFlits⟩

end Sys2Proof.Proofs
end

section
/-!
PROOF. Wakes and polls of rings (R312, R363, R367, R369).
-/
namespace Sys2Proof.Proofs

open Sys2Proof Sys2Proof.Machine Sys2Proof.Laws Sys2Proof.Claims

section Wakes

variable {s : State} {f : FuncIx} {page : RingIx} {r : Nat}

/-- A page that names a ring is one of a function that is there. -/
theorem pageRing_of_wakeNames (h : WakeNames s f page r) :
    (f.val = 0 ∨ (vfOf s f.val).enabled = true) ∧ pageRing s f.val page.val = some r := by
  obtain ⟨hf, rfl⟩ | ⟨hf, he, hr⟩ := h
  · exact ⟨.inl hf, if_pos hf⟩
  · exact ⟨.inr he, (if_neg hf).trans hr⟩

/-- A member ignores a write to a page of a function that is there. -/
theorem exec_ringWake_member (fault : Option Nat) (hf : f.val = 0 ∨ (vfOf s f.val).enabled = true) (hm : isMember s = true) :
    exec (.ringWake f page fault) s = .next (ignoreWake s) := by
  show execRingWake f page fault s = _
  obtain hf | hf := hf <;> simp [execRingWake, hf, hm]

/-- A page that names no ring is ignored. -/
theorem exec_ringWake_noRing (fault : Option Nat) (hf : f.val = 0 ∨ (vfOf s f.val).enabled = true)
    (hr : pageRing s f.val page.val = none) : exec (.ringWake f page fault) s = .next (ignoreWake s) := by
  show execRingWake f page fault s = _
  simp only [execRingWake, hr]
  obtain hf | hf := hf <;> simp [hf]

/-- A page that names a ring wakes it where it is ON. -/
theorem exec_ringWake_anchor (fault : Option Nat) (h : WakeNames s f page r) (hm : isMember s = false) :
    exec (.ringWake f page fault) s =
      .next (if (ringOf s r).state = .on then wakeRing s r fault else ignoreWake s) := by
  obtain ⟨hf, hr⟩ := pageRing_of_wakeNames h
  show execRingWake f page fault s = _
  simp only [execRingWake, hr]
  obtain hf | hf := hf <;> by_cases ho : (ringOf s r).state = .on <;> simp [hf, hm, ho]

/-- A wake of a ring that is not ON, or on a member, is ignored. -/
theorem exec_ringWake_ignored (fault : Option Nat) (h : WakeNames s f page r)
    (hi : (ringOf s r).state ≠ .on ∨ isMember s = true) : exec (.ringWake f page fault) s = .next (ignoreWake s) := by
  by_cases hm : isMember s = true
  · exact exec_ringWake_member fault (pageRing_of_wakeNames h).1 hm
  · rw [exec_ringWake_anchor fault h (Bool.eq_false_iff.2 hm), if_neg (hi.resolve_right hm)]

end Wakes

/-- Settles O12, clause by clause: the wake page leads to its ring, and only an ON ring of an own anchor acts. -/
theorem ringWakesAndPolls : Obligations.RingWakesAndPolls := by
  refine ⟨fun s f page r hf h ho hm => ?wakes, fun s f page r hf h hi => exec_ringWake_ignored hf h hi,
    fun s f page hf h hm => exec_ringWake_member hf h hm, fun s f page hf h0 he hr => ?noRing, fun s r hf ho hp hm => ?polls⟩
  case wakes => rw [exec_ringWake_anchor hf h hm, if_pos ho]
  case noRing => exact exec_ringWake_noRing hf (.inr he) ((if_neg h0).trans hr)
  case polls => exact congrArg Host.Outcome.next (if_pos (by simp [ho, hp, hm]))

end Sys2Proof.Proofs
end

section
/-!
PROOF. Commits of staged rings, windows and ring groups, and the set-up of partitions (R292, R293, R308, R366, R388, R390, R391,
R443, R482, R496).
-/
namespace Sys2Proof.Proofs

open Sys2Proof Sys2Proof.Machine Sys2Proof.Laws Sys2Proof.Claims

section Commits

variable {s : State} {off value : Nat}

/-- A commit of contents that are in range, share no slot, and leave a running ring all but its ENABLE. `x` is what the function
may write of its stage. -/
theorem commitRing_applies {f r : Nat} {x : BitVec 512} (hr : selectedRing s f = some r)
    (hx : (if f = 0 then ringStage s f else (ringStage s f &&& ~~~pfOnlyMask) ||| ((ringOf s r).cfg &&& pfOnlyMask)) = x)
    (hg : ringRanges x = true) (hs : slotShared s r x = false)
    (ho : (ringOf s r).state = .off ∨ sameButEnable x (ringOf s r).cfg = true) :
    commitRing s f off value
      = setRingEnable (setRingStage (setRing s r { ringOf s r with cfg := x }) f x) r (bit x 384) := by
  have hfree : ((ringOf s r).state != .off && !sameButEnable x (ringOf s r).cfg) = false := by
    obtain ho | ho := ho <;> simp [ho]
  simp only [commitRing, hr, hx, hg, hs, hfree, Bool.not_true, Bool.or_false, Bool.false_eq_true, if_false]

/-- A commit of a group in its range that no started command names. -/
theorem commitRingGroup_applies (hlo : 1 ≤ s.part.rgrpGroup.toNat) (hhi : s.part.rgrpGroup.toNat ≤ 8)
    (hn1 : fieldN s.part.rgrpCfgStage 0 7 ≠ 1) (hn : fieldN s.part.rgrpCfgStage 0 7 ≤ 64)
    (hu : ringGroupUsed s s.part.rgrpGroup.toNat = false) :
    commitRingGroup s off value = { s with part := { s.part with
      rgroups := smSet RingGroup.dflt s.part.rgroups s.part.rgrpGroup.toNat
        ⟨s.part.rgrpCfgStage, smSet 0 (ringGroupOf s s.part.rgrpGroup.toNat).members s.part.rgrpMember.toNat
          s.part.rgrpMemberStage⟩ } } := by
  have h0 : s.part.rgrpGroup.toNat ≠ 0 := Nat.one_le_iff_ne_zero.1 hlo
  simp only [commitRingGroup, h0, hn1, hu, Nat.not_lt.2 hhi, Nat.not_lt.2 hn, decide_false, Bool.or_false, Bool.false_eq_true,
    if_false]

/-- RING_CONFIG_COMMIT of a function that is there. -/
theorem exec_ringConfigCommit_open {f : FuncIx} (h : SetupOpen s) (hf : f.val = 0 ∨ (vfOf s f.val).enabled = true) :
    ∃ off value, exec (.ringConfigCommit f) s = .next (commitRing s f.val off value) := by
  refine ⟨_, _, congrArg Host.Outcome.next ((if_neg ?_).trans (setupWrite_open h))⟩
  obtain hf | hf := hf <;> simp [hf]

end Commits

/-- Settles O20, clause by clause: what a commit does of a ring of the PF, of a ring of a VF, of a window and of a group. -/
theorem commitsApplyTheStage : Obligations.CommitsApplyTheStage := by
  refine ⟨fun s h hg hs ho => ?pf, fun s f r x h hf he hr hx hg hs ho => ?vf,
    fun s h => congrArg Host.Outcome.next (setupWrite_open h), fun s h hlo hhi hn1 hn hu => ?group⟩
  case pf =>
    obtain ⟨off, v, he⟩ := exec_ringConfigCommit_open h (f := 0) (.inl rfl)
    rw [he]
    exact congrArg Host.Outcome.next (commitRing_applies (f := 0) rfl rfl hg hs ho)
  case vf =>
    obtain ⟨off, v, hexec⟩ := exec_ringConfigCommit_open h (.inr he)
    have hx' : (if f.val = 0 then ringStage s f.val
        else (ringStage s f.val &&& ~~~pfOnlyMask) ||| ((ringOf s r).cfg &&& pfOnlyMask)) = x := by
      rw [if_neg hf, ringStage, if_neg hf, hx]
    rw [hexec, commitRing_applies ((if_neg hf).trans hr) hx' hg hs ho]
  case group => exact congrArg Host.Outcome.next ((setupWrite_open h).trans (commitRingGroup_applies hlo hhi hn1 hn hu))

section Partitions

variable {s : State} {p off value : Nat} {v : W32}

/-- The dies that are named are none, or an aligned group that no other partition has. -/
theorem partDies_accepted (hd : field v 0 8 = 0 ∨ alignedGroup (field v 0 8) = true)
    (hs : ∀ q < 8, q ≠ p → (partOf s q).dies &&& field v 0 8 = 0) :
    (field v 0 8 != (0 : Byte) && (!alignedGroup (field v 0 8)
      || (List.range 8).any (fun q => q != p && (partOf s q).dies &&& field v 0 8 != 0))) = false := by
  have hshared : (List.range 8).any (fun q => q != p && (partOf s q).dies &&& field v 0 8 != 0) = false := by
    simpa using hs
  obtain hd | hd := hd
  · simp [hd]
  · rw [hd, hshared]
    exact Bool.and_false _

/-- A write of PART_CFG that keeps the dies and the table area. -/
theorem writePartCfg_stays (hd : field v 0 8 = 0 ∨ alignedGroup (field v 0 8) = true)
    (hs : ∀ q < 8, q ≠ p → (partOf s q).dies &&& field v 0 8 = 0) (ht : field v 12 4 ≠ 0)
    (hdies : field v 0 8 = (partOf s p).dies) (htbl : field v 12 4 = (partOf s p).tblGib) :
    writePartCfg s p v off value = setPart s p { partOf s p with
      dies := field v 0 8, tblGib := field v 12 4, ringEligible := bit v 8, bgReserve := field v 16 4 } := by
  have hmoves : (field v 0 8 != (partOf s p).dies || field v 12 4 != (partOf s p).tblGib) = false := by simp [hdies, htbl]
  simp only [writePartCfg, partDies_accepted hd hs, hmoves, beq_eq_false_iff_ne.2 ht, Bool.false_and, Bool.or_false,
    Bool.false_eq_true, if_false]

/-- A write of PART_CFG that changes the dies or the table area, of a quiesced partition with its rings OFF: its tables and models
are gone. -/
theorem writePartCfg_moves (hd : field v 0 8 = 0 ∨ alignedGroup (field v 0 8) = true)
    (hs : ∀ q < 8, q ≠ p → (partOf s q).dies &&& field v 0 8 = 0) (ht : field v 12 4 ≠ 0)
    (hm : field v 0 8 ≠ (partOf s p).dies ∨ field v 12 4 ≠ (partOf s p).tblGib)
    (hr : partRingsOff s p = true) (hq : quiesced s p = true) :
    writePartCfg s p v off value = { s with part := { s.part with
      parts := smSet Partition.dflt s.part.parts p { partOf s p with
        dies := field v 0 8, tblGib := field v 12 4, ringEligible := bit v 8, bgReserve := field v 16 4 }
      tables := smKeep (fun k => k / 64 != p) s.part.tables
      models := smKeep (fun k => k / 256 != p) s.part.models } } := by
  have hmoves : (field v 0 8 != (partOf s p).dies || field v 12 4 != (partOf s p).tblGib) = true := by simpa using hm
  simp only [writePartCfg, partDies_accepted hd hs, hmoves, hr, hq, beq_eq_false_iff_ne.2 ht, Bool.and_self, Bool.not_true,
    Bool.and_false, Bool.or_false, Bool.false_eq_true, if_false, if_true]
  rfl

/-- MODULE_ID_WRITE of a READY module, by the host or by the anchor. -/
theorem exec_moduleIdWrite_ready {i a : BitVec 12} {b : Bool} (hready : s.pwr.stage = 5)
    (hb : (b = false ∧ hostUp s = true) ∨ (b = true ∧ isMember s = true)) :
    exec (.moduleIdWrite i a b) s = .next (writeModuleId s i a) := by
  show execModuleIdWrite i a b s = _
  have hr : isReady s = true := beq_iff_eq.2 hready
  obtain ⟨rfl, hb⟩ | ⟨rfl, hb⟩ := hb <;> simp [execModuleIdWrite, hb, hr]

/-- A module ID waits while a partition is not quiesced. -/
theorem writeModuleId_held {i a : BitVec 12} (h : allQuiesced s = false) :
    writeModuleId s i a = { s with zw := { s.zw with heldId := some (i, a) } } :=
  if_neg (Bool.eq_false_iff.1 h)

/-- A module ID takes effect where every partition is quiesced. -/
theorem writeModuleId_applies {i a : BitVec 12} (h : allQuiesced s = true) :
    writeModuleId s i a = flushBuffer (memberPost { s with zw := { s.zw with id := i, anchorId := a, heldId := none } }) :=
  if_pos h

end Partitions

/-- Settles O21, clause by clause: each write where set-up is open, by what its operation does in that case. -/
theorem partitionRowsComplete : Obligations.PartitionRowsComplete := by
  refine ⟨fun s m h hoff => ?mode, fun s p v h hd hs ht hdies htbl => ?stays, fun s p v h hd hs ht hm hr hq => ?moves,
    fun s p h hh => ?hold, fun s p h hd => ?opens, fun s p h hd => ?waits,
    fun s p h => congrArg Host.Outcome.next (setupWrite_open h), fun s p key h hq => ?key, fun s p key h hq => ?keyHeld,
    fun s i a b hready hb hq => ?idHeld, fun s i a b hready hb hq => ?id⟩
  case mode => exact congrArg Host.Outcome.next ((setupWrite_open h).trans (if_pos hoff))
  case stays => exact congrArg Host.Outcome.next ((setupWrite_open h).trans (writePartCfg_stays hd hs ht hdies htbl))
  case moves => exact congrArg Host.Outcome.next ((setupWrite_open h).trans (writePartCfg_moves hd hs ht hm hr hq))
  case hold => exact congrArg Host.Outcome.next ((setupWrite_open h).trans (if_neg (Bool.eq_false_iff.1 hh)))
  case opens => exact congrArg Host.Outcome.next ((setupWrite_open h).trans (if_neg (Bool.eq_false_iff.1 hd)))
  case waits => exact congrArg Host.Outcome.next ((setupWrite_open h).trans (if_pos hd))
  case key => exact congrArg Host.Outcome.next ((setupWrite_open h).trans (if_pos hq))
  case keyHeld => exact congrArg Host.Outcome.next ((setupWrite_open h).trans (if_neg (Bool.eq_false_iff.1 hq)))
  case idHeld => rw [exec_moduleIdWrite_ready hready hb, writeModuleId_held hq]
  case id => rw [exec_moduleIdWrite_ready hready hb, writeModuleId_applies hq]

end Sys2Proof.Proofs
end

section
/-!
PROOF. The stages of bring-up (R308, R459, R462, R463, R464, R491).
-/
namespace Sys2Proof.Proofs

open Sys2Proof Sys2Proof.Machine Sys2Proof.Laws Sys2Proof.Claims

section Rows

variable {s : State} {d : DieIx}

/-- BOOT_COMPLETE in BOOT, with the management controller running: what the record, where it is valid, gives. -/
theorem exec_bootComplete_boot {fw : BitVec 16} {base b : Option (List Byte)} (hr : s.pwr.running = true)
    (hs : s.pwr.stage = 0) (he : s.pwr.spiEnN = true) (hb : base.filter baseboardOk = b) :
    exec (.bootComplete fw base) s = .next { s with
      pwr := { s.pwr with
        stage := 1, firmware := fw
        baseId := b.elim 0 (fun b => BitVec.ofNat 12 (bytesToNat (b.take 2)))
        baseAnchor := b.elim 0 (fun b => BitVec.ofNat 12 (bytesToNat ((b.drop 2).take 2)))
        smbusAddr := b.elim 0x58 (fun b => BitVec.ofNat 7 (b.getD 4 0).toNat)
        retest := s.flash.retest, retesting := s.flash.retest }
      zw := { s.zw with
        id := b.elim 0 (fun b => BitVec.ofNat 12 (bytesToNat (b.take 2)))
        anchorId := b.elim 0 (fun b => BitVec.ofNat 12 (bytesToNat ((b.drop 2).take 2))) } } := by
  subst hb
  exact congrArg Host.Outcome.next (if_neg (by simp [hr, hs, he]))

/-- The rails come up at RAILS. -/
theorem railsUp_rails (hr : s.pwr.running = true) (hs : s.pwr.stage = 1) :
    railsUp s = { s with pwr := { s.pwr with stage := 2, railsAt := s.time.now } } :=
  if_pos (by simp [hr, hs])

/-- At SRAM the rails are up. -/
theorem railsUp_sram (hs : s.pwr.stage = 2) : railsUp s = s := if_neg (by simp [hs])

/-- An idle tick at RAILS, with no die that goes OFF, brings the rails up. -/
theorem settlePower_rails (hr : s.pwr.running = true) (hs : s.pwr.stage = 1) (hd : ∀ d < 8, goingOff (pwrDieOf s d) = false) :
    settlePower s = { s with pwr := { s.pwr with stage := 2, railsAt := s.time.now } } := by
  have hoff : (List.range 8).foldl endDieOff s = s := foldl_eq_self fun d hmem => by
    simp [endDieOff, hd d (List.mem_range.1 hmem)]
  rw [settlePower, hoff, railsUp_rails hr hs]

/-- SRAM_REPAIR where the rails are up or come up: TEST begins. -/
theorem exec_sramRepair_of {t : State} (ht : railsUp s = t) (hr : t.pwr.running = true) (hs : t.pwr.stage = 2) :
    exec .sramRepair s = .next (startPorts { t with pwr := { t.pwr with stage := 3 } } (List.range 16)) := by
  subst ht
  exact congrArg Host.Outcome.next (if_pos (by simp [hr, hs]))

/-- CLUSTER_SELF_TEST of a die in the TEST stage; under RETEST what passes is enabled first. -/
theorem exec_clusterSelfTest_testStage (failed : List ClusterIx) (hs : s.pwr.stage = 3) (ht : (dieOf s d.val).tested = false)
    (hx : (pwrDieOf s d.val).state = 0) (ho : (pwrDieOf s d.val).off = false) :
    exec (.clusterSelfTest d failed) s = .next (modDie
      (mapOutFailed (if s.pwr.retesting then retestClusters s d.val failed else s) d.val failed) d.val
      (fun b => { b with tested := true })) := by
  have hcoming : comingOn (pwrDieOf s d.val) = false := by simp [comingOn, hx]
  show execClusterSelfTest d failed s = _
  simp [execClusterSelfTest, ht, hcoming, hs, hx, ho]

/-- CLUSTER_SELF_TEST of a die that is brought up alone. -/
theorem exec_clusterSelfTest_coming (failed : List ClusterIx) (hc : comingOn (pwrDieOf s d.val) = true)
    (ht : (dieOf s d.val).tested = false) :
    exec (.clusterSelfTest d failed) s =
      .next (comeOn (modDie (mapOutFailed s d.val failed) d.val (fun b => { b with tested := true })) d.val) := by
  show execClusterSelfTest d failed s = _
  simp [execClusterSelfTest, ht, hc]

/-- No cluster that failed, and one that is left: nothing is mapped out. -/
theorem mapOutFailed_nil {n : Nat} (h : usableClusters s n ≠ 0) : mapOutFailed s n [] = s := if_neg h

/-- FUNCTIONAL_SELF_TEST that implicates no cluster. -/
theorem exec_functionalSelfTest_clean (passed : Bool) (hs : s.pwr.stage = 3 ∨ s.pwr.stage = 4)
    (ht : (List.range 8).all (testedDie s) = true) (ho : (pwrDieOf s d.val).off = false) (hx : (pwrDieOf s d.val).state = 0)
    (hu : usableClusters s d.val ≠ 0) :
    exec (.functionalSelfTest d [] passed) s = .next
      (if passed then modPwrDie { s with pwr := { s.pwr with stage := 4 } } d.val (fun x => { x with state := 1 })
        else { s with pwr := { s.pwr with stage := 4 } }) := by
  have hmap : mapOutFailed { s with pwr := { s.pwr with stage := 4 } } d.val [] = { s with pwr := { s.pwr with stage := 4 } } :=
    mapOutFailed_nil hu
  have hfail : dieFailed { s with pwr := { s.pwr with stage := 4 } } d.val = false := by
    show ((pwrDieOf s d.val).state == 3) = false
    rw [hx]
    rfl
  have hstage : (s.pwr.stage == 3 || s.pwr.stage == 4) = true := by simpa using hs
  show execFunctionalSelfTest d [] passed s = _
  simp only [execFunctionalSelfTest, hstage, ht, ho, hx, hmap, hfail]
  simp

/-- SELF_TEST_TIMEOUT during a bring-up, of a die that has not passed. -/
theorem exec_selfTestTimeout_bringUp (hb : bringingUp s = true) (ho : (pwrDieOf s d.val).off = false)
    (hx : (pwrDieOf s d.val).state = 0) :
    exec (.selfTestTimeout d) s = .next (if selfTestOver s d.val = true then failDie s d.val 2 else s) := by
  show execSelfTestTimeout d s = _
  simp [execSelfTestTimeout, hb, ho, hx]

theorem selfTestOver_iff {n : Nat} :
    selfTestOver s n = true ↔ 4194304 + (pwrDieOf s n).repairTicks ≤ since s.time.now s.pwr.railsAt := decide_eq_true_iff

/-- MODULE_READY once every die has passed, failed or is OFF. -/
theorem exec_moduleReady_settled (hs : s.pwr.stage = 3 ∨ s.pwr.stage = 4) (h : Settled s) :
    exec .moduleReady s = .next
      (if (List.range 8).any (fun d => (pwrDieOf s d).state == 1) then
        if s.pwr.retesting then
          queueHistory { s with pwr := { s.pwr with stage := 5, retest := false, retesting := false } } (.retest false)
        else { s with pwr := { s.pwr with stage := 5 } }
      else { s with pwr := { s.pwr with stage := 6 } }) := by
  have hstage : (s.pwr.stage == 3 || s.pwr.stage == 4) = true := by simpa using hs
  have hall : ((List.range 8).all fun d =>
      ((pwrDieOf s d).off && (pwrDieOf s d).state == 0) || (pwrDieOf s d).state == 1 || dieFailed s d) = true := by
    simpa [List.all_eq_true, Settled, or_assoc] using h
  show execModuleReady s = _
  simp only [execModuleReady, hstage, hall]
  rfl

/-- Some die is ON. -/
theorem anyOn_iff : (List.range 8).any (fun d => (pwrDieOf s d).state == 1) = true ↔ ∃ d < 8, (pwrDieOf s d).state = 1 := by
  simp

end Rows

/-- Settles O41, clause by clause: each row of the bring-up by what it does at its stage. -/
theorem bringUpRowsComplete : Obligations.BringUpRowsComplete := by
  refine ⟨fun s fw hr hs he => exec_bootComplete_boot hr hs he rfl, fun s fw b hr hs he hb => ?record,
    fun s hr hs hd => settlePower_rails hr hs hd, fun s hr hs => exec_sramRepair_of (railsUp_sram hs) hr hs,
    fun s hr hs => ?rails, fun s d failed hs ht hx ho => ?selfTest,
    fun s d failed hc ht => exec_clusterSelfTest_coming failed hc ht,
    fun s d pass hs ht ho hx hu => exec_functionalSelfTest_clean pass hs ht ho hx hu, fun s d hb ho hx => ?timeout,
    fun s d h => ?watchdog, fun s hs h hon => ?ready, fun s hs h hoff => ?failed⟩
  case rails => rw [exec_sramRepair_of (railsUp_rails hr hs) hr rfl]
  case watchdog => exact congrArg Host.Outcome.next (if_pos h)
  case record =>
    have hf : (some b).filter baseboardOk = some b := by simp [Option.filter, hb]
    exact ⟨_, exec_bootComplete_boot hr hs he hf, rfl, rfl, rfl, rfl, rfl, rfl, rfl, rfl, rfl, rfl, rfl⟩
  case selfTest =>
    rw [exec_clusterSelfTest_testStage failed hs ht hx ho]
    exact ⟨fun h => by rw [h]; rfl, fun h => by rw [h]; rfl⟩
  case timeout =>
    rw [exec_selfTestTimeout_bringUp hb ho hx]
    exact ⟨fun h => by rw [if_pos (selfTestOver_iff.2 h)],
      fun h => by rw [if_neg (mt selfTestOver_iff.1 (Nat.not_le.2 h))]⟩
  case ready =>
    rw [exec_moduleReady_settled hs h, if_pos (anyOn_iff.2 hon)]
    exact ⟨fun hr => by rw [hr]; rfl, fun hr => by rw [hr]; rfl⟩
  case failed =>
    have hnone : ¬ ∃ d < 8, (pwrDieOf s d).state = 1 := fun ⟨d, hd, hx⟩ => hoff d hd hx
    rw [exec_moduleReady_settled hs h, if_neg (mt anyOn_iff.1 hnone)]

end Sys2Proof.Proofs
end

section
/-!
PROOF. Packets at their destination (R284, R289, R293, R296, R303, R309, R310, R321, R436).
-/
namespace Sys2Proof.Proofs

open Sys2Proof Sys2Proof.Machine Sys2Proof.Laws

section Rows

variable {s t u : State} {k : Packet}

/-- The row of the first packet's type performs it here, or moves it on. -/
theorem next_packetRow {p : Nat} {f : Packet → Bool} {act : State → Packet → State} (h : takePacket s p f = some (k, u)) :
    (.next (packetRow s p f act) : Host.Outcome State Fault Refusal)
      = .next (if k.dst = u.zw.id then act u k else forwardPacket u p k) := by
  simp only [packetRow, h]

/-- A packet with no hop left is refused. -/
theorem forwardPacket_spent {p : Nat} (h : k.hops = 0) : forwardPacket s p k = refuse s p k 2 := if_pos h

/-- A packet with a hop left goes out by its route. -/
theorem forwardPacket_routed {p o : Nat} (h : k.hops ≠ 0)
    (hr : routePort s k.dst.toNat k.tc.toNat (k.tag.toNat / 8192) = some o) :
    forwardPacket s p k = txPush s o { k with hops := k.hops - 1 } := by
  simp only [forwardPacket, if_neg h, hr]

/-! #### Requests -/

/-- A request that the checks let pass is performed. -/
theorem request_performed {kind : AccKind} {n : Nat} {perform : State → State}
    (h : requestRefused s kind k.src.toNat k.key (packetAddr k) n = none) : request s k kind n perform = perform s := by
  simp only [request, h]

/-- A request that the window check refuses is answered ACCESS_DENIED. -/
theorem request_window {kind : AccKind} {n w : Nat} {perform : State → State}
    (h : requestRefused s kind k.src.toNat k.key (packetAddr k) n = some (.window w)) :
    request s k kind n perform = sendRsp s k .accessDenied [] := by
  simp only [request, h]

theorem takeRd_ok {n : Nat} {bs : List Byte} (hn : lenBytes k.len = some n)
    (h : requestRefused s .rd k.src.toNat k.key (packetAddr k) n = none)
    (hr : reqRead (sectorSpans (packetAddr k) n) s = (.ok bs, t)) : takeRd s k = sendRsp t k .ok bs := by
  have hg : (lenBytes k.len).getD 0 = n := by rw [hn]; rfl
  simp only [takeRd, hg, request_performed h, hr]

theorem takeRd_window {w : Nat}
    (h : requestRefused s .rd k.src.toNat k.key (packetAddr k) ((lenBytes k.len).getD 0) = some (.window w)) :
    takeRd s k = sendRsp s k .accessDenied [] := by
  simp only [takeRd, request_window h]

theorem performWrite_ok {mask : BitVec 256}
    (h : reqWrite (sectorSpans (packetAddr k) k.data.length) k.data mask (packetTouch k k.data.length s) = (.ok (), t)) :
    performWrite k mask s = sendRsp t k .ok [] := by
  simp only [performWrite, h]

theorem takeAtomic_ok {old : W64} (h : requestRefused s .atom k.src.toNat k.key (packetAddr k) 8 = none)
    (ha : atomicLocal (packetTouch k 8 s) none (packetAddr k) (atomicOf k.op) (bytesToBv 64 (k.data.take 8))
      (bytesToBv 64 ((k.data.drop 8).take 8)) = (.ok old, t)) :
    takeAtomic s k = sendRsp t k .ok (bvToBytes 8 old ++ List.replicate 8 0) := by
  simp only [takeAtomic, request_performed h, ha]

/-- No collective runs: a packet's write touches no command. -/
theorem packetTouch_idle {n : Nat} (h : ∀ c ∈ allCmds s, liveCollective c = false) : packetTouch k n s = s :=
  breachAt_none fun c hc => scratchHit_of_idle (h c hc)

/-- An answer changes the queue of a port at most. -/
theorem sendRsp_frame (st : Status) (data : List Byte) :
    (sendRsp s k st data).hbm = s.hbm ∧ (sendRsp s k st data).host = s.host ∧ (sendRsp s k st data).cmds = s.cmds
      ∧ (sendRsp s k st data).err = s.err ∧ (sendRsp s k st data).hq = s.hq := by
  unfold sendRsp
  dsimp only
  split <;> exact ⟨rfl, rfl, rfl, rfl, rfl⟩

end Rows

/-- Settles O51, clause by clause: the row takes the packet, the checks of its request decide, and an answer touches a port only. -/
theorem packetRowsComplete : Obligations.PacketRowsComplete := by
  refine ⟨fun s p k u => ⟨next_packetRow, next_packetRow, next_packetRow, next_packetRow, next_packetRow, next_packetRow,
      next_packetRow, next_packetRow, next_packetRow, next_packetRow, next_packetRow, next_packetRow⟩,
    fun s p k h => forwardPacket_spent h, fun s p k o h hr => forwardPacket_routed h hr,
    fun s k n bs t hn h hr => takeRd_ok hn h hr, fun s k t h hw => (request_performed h).trans (performWrite_ok hw),
    fun s k t h hw => (request_performed h).trans (performWrite_ok hw), fun s k n h => packetTouch_idle h,
    fun s k old t h ha => takeAtomic_ok h ha, fun s k w h => takeRd_window h, fun s k st data => sendRsp_frame st data⟩

end Sys2Proof.Proofs
end

section
/-!
PROOF. Requests that wait, probes of members, the anchor's silence, and configuration accesses (R298, R310, R311, R428, R478).
-/
namespace Sys2Proof.Proofs

open Sys2Proof Sys2Proof.Machine Sys2Proof.Laws Sys2Proof.Claims

section Requests

variable {s : State} {r : Request}

/-- REQUEST_TIMEOUT of a memory request that has waited too long. -/
theorem exec_requestTimeout_overdue {d : DieIx} {tag : BitVec 13} (hr : findRequest s d.val tag.toNat = some r)
    (hl : r.late = false) (ho : overdue s r 1 = true)
    (hk : r.kind = .read ∨ r.kind = .write ∨ r.kind = .atomic ∨ r.kind = .signal) :
    exec (.requestTimeout d tag) s = .next (timeoutRequest s r) := by
  show execRequestTimeout d tag s = _
  have hkind : (r.kind == .read || r.kind == .write || r.kind == .atomic || r.kind == .signal) = true := by
    simpa [or_assoc] using hk
  simp [execRequestTimeout, hr, hl, ho, hkind]

/-- TAG_REUSE_TIMEOUT of a late request after twice the timeout, on a module with nothing to go on with. -/
theorem exec_tagReuseTimeout_overdue {d : DieIx} {tag : BitVec 13} (hr : findRequest s d.val tag.toNat = some r)
    (hl : r.late = true) (ho : overdue s r 2 = true) (hc : s.cmds = []) (hk : s.kids = []) (hm : isMember s = false) :
    exec (.tagReuseTimeout d tag) s = .next (dropRequest s r) := by
  have hidle : advanceAll (dropRequest s r) = dropRequest s r := advanceAll_idle hc hk hm
  show execTagReuseTimeout d tag s = _
  simp [execTagReuseTimeout, hr, hl, ho, hidle]

theorem exec_descTimeout_overdue {u : Uid}
    (h : s.zw.requests.find? (fun r => r.cmd == some u && r.kind == .desc && !r.late && overdue s r 1) = some r) :
    exec (.descTimeout u) s = .next (timeoutRequest s r) := by
  show execDescTimeout u s = _
  simp only [execDescTimeout, h]

theorem exec_remoteConfigTimeout_overdue
    (h : s.zw.requests.find? (fun r => r.kind == .rcfg && !r.late && overdue s r 1) = some r) :
    exec .remoteConfigTimeout s = .next (timeoutRequest s r) := by
  show execRemoteConfigTimeout s = _
  simp only [execRemoteConfigTimeout, h]

theorem exec_memberProbeTimeout_overdue {i : Fin 64} (h : s.zw.requests.find? (fun r =>
      r.kind == .probe && !r.late && r.dst == (memberOf s i.val).id && overdue s r 1) = some r) :
    exec (.memberProbeTimeout i) s = .next (timeoutRequest s r) := by
  show execMemberProbeTimeout i s = _
  simp only [execMemberProbeTimeout, h]

/-- A configuration access that times out ends with FABRIC_TIMEOUT and keeps its tag. -/
theorem timeoutRequest_rcfg (hr : r.kind = .rcfg) (hc : s.cmds = []) (hk : s.kids = []) (hm : isMember s = false) :
    timeoutRequest s r = endRcfg (modRequest s r (fun x => { x with late := true })) .fabricTimeout none := by
  have hf : failRequest (modRequest s r (fun x => { x with late := true })) r 0 .fabricTimeout
      = endRcfg (modRequest s r (fun x => { x with late := true })) .fabricTimeout none := by
    simp only [failRequest, hr]
  rw [timeoutRequest, giveUpRequest, hf]
  exact advanceAll_idle hc hk hm

end Requests

section Members

variable {s t : State} {i : Fin 64} {c : Cmd}

/-- MEMBER_PROBE of a member that holds an accepted command, with no request out. -/
theorem exec_memberProbe_sends (hm : isMember s = false) (hc : c ∈ s.cmds) (hp : c.phase = .forwarded)
    (hi : c.module.toNat = i.val) (hr : s.zw.requests = []) (hq : (memberOf s i.val).quietUntil = none)
    (hd : probeDue s (memberOf s i.val) = true)
    (hsend : sendConfig s .probe false (memberOf s i.val).id 0 0 = some (some t)) :
    exec (.memberProbe i) s = .next (setMember t i.val { memberOf t i.val with
      probeSent := some s.time.now, lastProbe := some s.time.now }) := by
  have hholds : (s.cmds.any fun c => c.phase == .forwarded && c.module.toNat == i.val) = true :=
    List.any_eq_true.2 ⟨c, hc, by simp [hp, hi]⟩
  show execMemberProbe i s = _
  simp only [execMemberProbe, hr, List.any_nil, Bool.not_false, Bool.and_true, hholds, hm, hq, hd, hsend, Option.isSome_none,
    Bool.not_true, Bool.or_false, Bool.false_eq_true, if_false]

theorem exec_quietPeriodEnd_due {x : Tick} (hq : (memberOf s i.val).quietUntil = some x) (hx : reached s.time.now x = true) :
    exec (.quietPeriodEnd i) s = .next (setMember s i.val { memberOf s i.val with quietUntil := none }) := by
  show execQuietPeriodEnd i s = _
  simp only [execQuietPeriodEnd, hq, hx, if_true]

/-! #### The anchor's silence -/

/-- A member whose anchor has been silent for four timeouts. -/
def AnchorSilent (s : State) : Prop := isMember s = true ∧ 4 * timeoutTicks s < since s.time.now s.zw.anchorHeard

theorem anchorSilent_cond (h : AnchorSilent s) :
    (isMember s && decide (4 * timeoutTicks s < since s.time.now s.zw.anchorHeard)) = true := by
  simp [h.1, h.2]

/-- No command was forwarded here: none ends. -/
theorem exec_anchorSilence_own (h : AnchorSilent s) (ho : ∀ c ∈ s.cmds, c.origin = none) : exec .anchorSilence s = .next s :=
  congrArg Host.Outcome.next ((if_pos (anchorSilent_cond h)).trans (eachCmd_eq_self fun c hc => by simp [ho c hc]))

/-- A forwarded command that has not started ends at once. -/
theorem exec_anchorSilence_issued (h : AnchorSilent s) (hc : s.cmds = [c]) (ho : c.origin ≠ none) (hp : c.phase = .issued) :
    exec .anchorSilence s = .next (abortCmd (logAborted s c.uid) c) :=
  congrArg Host.Outcome.next ((if_pos (anchorSilent_cond h)).trans ((eachCmd_single hc).trans (by simp [ho, hp])))

/-- A forwarded codec command, or one with a tile group that runs, is asked to end. -/
theorem exec_anchorSilence_runs (h : AnchorSilent s) (hc : s.cmds = [c]) (ho : c.origin ≠ none) (hp : c.phase = .started)
    (hr : codecOp (opcodeOf c.desc) = true ∨ groupsRunning s c.uid = true) :
    exec .anchorSilence s = .next (modCmd s c.uid (fun c => { c with aborting := true, orphan := true })) :=
  congrArg Host.Outcome.next ((if_pos (anchorSilent_cond h)).trans ((eachCmd_single hc).trans (by simp [ho, hp, hr])))

end Members

section Access

variable {s t : State} {v : W64} {off : Nat}

/-- `GLB_RCFG_CTRL` after a write of `v` to all its writable bits. -/
def rcfgCtrlAfter (s : State) (v : W64) : W64 := (s.glb.rcfgCtrl &&& ~~~(0x7FFFFF3F : W64)) ||| (v &&& 0x7FFFFF3F)

theorem rcfgCtrlAfter_module : fieldN (rcfgCtrlAfter s v) 0 6 = fieldN v 0 6 :=
  congrArg BitVec.toNat (field_merge _ _ _ (by decide))

theorem rcfgCtrlAfter_write : bit (rcfgCtrlAfter s v) 30 = bit v 30 := by
  simp [rcfgCtrlAfter, bit]

/-- A write of the whole of `GLB_RCFG_CTRL`, case by case. -/
theorem writeRcfg_whole : writeRcfg s v (BitVec.allOnes 64) off =
    if rcfgBusy s = true ∨ fieldN v 0 6 = 0 ∨ (bit v 31 = true ∧ isMember s = true) then logIgnored s off v
    else if bit v 31 = true then
      startRcfg { s with glb := { s.glb with rcfgCtrl := rcfgCtrlAfter s v, rcfgWrite := bit v 30 } }
    else { s with glb := { s.glb with rcfgCtrl := rcfgCtrlAfter s v } } := by
  have hm : (0x7FFFFF3F : W64) &&& BitVec.allOnes 64 = 0x7FFFFF3F := BitVec.and_allOnes
  have hgo : bit (BitVec.allOnes 64) 31 = true := by decide
  have hctrl : (s.glb.rcfgCtrl &&& ~~~(0x7FFFFF3F : W64)) ||| (v &&& 0x7FFFFF3F) = rcfgCtrlAfter s v := rfl
  simp only [writeRcfg, hm, hgo, hctrl, rcfgCtrlAfter_module, rcfgCtrlAfter_write, Bool.and_true, Bool.or_eq_true,
    Bool.and_eq_true, decide_eq_true_eq, or_assoc]

theorem exec_remoteConfigGo_open (h : SetupOpen s) : exec (.remoteConfigGo v) s =
    .next (writeRcfg s (v ||| 0x80000000) (BitVec.allOnes 64) (regAt 0 0x40)) := by
  show execRemoteConfigGo v s = _
  rw [execRemoteConfigGo, setupWrite_open h]

/-- An access to an entry that names no member, or one in its quiet period, fails. -/
theorem startRcfg_unreachable (h : (memberOf s (fieldN s.glb.rcfgCtrl 0 6)).valid = false
      ∨ (memberOf s (fieldN s.glb.rcfgCtrl 0 6)).quietUntil ≠ none) :
    startRcfg s = endRcfg s .fabricUnreachable none := by
  have hout : (!(memberOf s (fieldN s.glb.rcfgCtrl 0 6)).valid
      || (memberOf s (fieldN s.glb.rcfgCtrl 0 6)).quietUntil.isSome) = true := by
    obtain h | h := h
    · rw [h]; rfl
    · rw [Option.isSome_iff_ne_none.2 h, Bool.or_true]
  unfold startRcfg
  rw [if_pos hout]

/-- An access without a free tag waits for one. -/
theorem startRcfg_waits (hv : (memberOf s (fieldN s.glb.rcfgCtrl 0 6)).valid = true)
    (hq : (memberOf s (fieldN s.glb.rcfgCtrl 0 6)).quietUntil = none) (ht : freeForwardTag s = none) :
    startRcfg s = { s with glb := { s.glb with rcfgWaits := true } } := by
  have hin : (!(memberOf s (fieldN s.glb.rcfgCtrl 0 6)).valid
      || (memberOf s (fieldN s.glb.rcfgCtrl 0 6)).quietUntil.isSome) = false := by rw [hv, hq]; rfl
  unfold startRcfg sendConfig
  rw [ht, if_neg (Bool.eq_false_iff.1 hin)]

end Access

/-- Settles O52, clause by clause: what time does to each request, what a member's silence and its anchor's do, and each case of a
write of GLB_RCFG_CTRL. -/
theorem requestRowsComplete : Obligations.RequestRowsComplete := by
  refine ⟨fun s d tag r hr hl ho hk => exec_requestTimeout_overdue hr hl ho hk,
    fun s d tag r hr hl ho hc hk hm => exec_tagReuseTimeout_overdue hr hl ho hc hk hm,
    fun s u r h => exec_descTimeout_overdue h, fun s r h => exec_remoteConfigTimeout_overdue h,
    fun s i r h => exec_memberProbeTimeout_overdue h, fun s r hr hc hk hm => timeoutRequest_rcfg hr hc hk hm,
    fun s i c t hm hc hp hi hr hq hd hsend => exec_memberProbe_sends hm hc hp hi hr hq hd hsend,
    fun s i t hq ht => exec_quietPeriodEnd_due hq ht, fun s hm ht ho => exec_anchorSilence_own ⟨hm, ht⟩ ho,
    fun s c hm ht hc ho hp => exec_anchorSilence_issued ⟨hm, ht⟩ hc ho hp,
    fun s c hm ht hc ho hp hr => exec_anchorSilence_runs ⟨hm, ht⟩ hc ho hp hr,
    fun s v h => exec_remoteConfigGo_open h, fun s v off h => ?noModule, fun s v off h => ?busy,
    fun s v off t hb hf hgo hm ht => ?starts, fun s h => startRcfg_unreachable h, fun s hv hq ht => startRcfg_waits hv hq ht⟩
  case noModule => rw [writeRcfg_whole, if_pos (.inr (.inl h))]
  case busy => rw [writeRcfg_whole, if_pos (.inl h)]
  case starts =>
    rw [writeRcfg_whole, if_neg (by simp [hb, hf, hm]), if_pos hgo, ht]
    rfl

end Sys2Proof.Proofs
end

section
/-!
PROOF. BAR4 and BAR0 of the module's own port, and the errors of the port (R312, R321, R360, R361, R362, R466, R471, R472, R479).
-/
namespace Sys2Proof.Proofs

open Sys2Proof Sys2Proof.Machine Sys2Proof.Laws

/-! ### BAR4 -/

section Bar4

variable {s t : State} {o : BitVec 41} {n : Nat} {bs : List Byte}

/-- A read inside BAR4 of a module that is its own anchor, where nothing refuses it. -/
theorem exec_bar4Read_ok (hb : barReachable s 0 = true) (hin : o.toNat + n ≤ 2 ^ s.io.bar4Log2) (hm : isMember s = false)
    (hn : bar4Refused s (s.hq.bar4Base.toNat + o.toNat) n = none)
    (hr : reqRead (sectorSpans (s.hq.bar4Base.toNat + o.toNat) n) s = (.ok bs, t)) :
    exec (.bar4Read o n) s = .next (answer t (.bytes bs)) := by
  show execBar4Read o n s = _
  simp [execBar4Read, inBar4, hb, hin, hm, hn, hr]

/-- A read that is refused is logged, and answered with Completer Abort. -/
theorem exec_bar4Read_refused {x : Bar4Stop} (hb : barReachable s 0 = true) (hin : o.toNat + n ≤ 2 ^ s.io.bar4Log2)
    (hm : isMember s = false) (hx : bar4Refused s (s.hq.bar4Base.toNat + o.toNat) n = some x) :
    exec (.bar4Read o n) s = .next (answer (refuseBar4 s o.toNat false x) .completerAbort) := by
  show execBar4Read o n s = _
  simp [execBar4Read, inBar4, hb, hin, hm, hx]

/-- A member's BAR4 refuses every read. -/
theorem exec_bar4Read_member (hb : barReachable s 0 = true) (hin : o.toNat + n ≤ 2 ^ s.io.bar4Log2) (hm : isMember s = true) :
    exec (.bar4Read o n) s = .next (answer s .completerAbort) := by
  show execBar4Read o n s = _
  simp [execBar4Read, inBar4, hb, hin, hm]

/-- A write inside BAR4 of a READY module that is its own anchor, where nothing refuses it. -/
theorem exec_bar4Write_ok (hb : barReachable s 0 = true) (hin : o.toNat + bs.length ≤ 2 ^ s.io.bar4Log2)
    (hm : isMember s = false) (hs : s.pwr.stage = 5) (hn : bar4Refused s (s.hq.bar4Base.toNat + o.toNat) bs.length = none) :
    exec (.bar4Write o bs) s = .next (bar4Spans (sectorSpans (s.hq.bar4Base.toNat + o.toNat) bs.length) bs
      (touchScratch s.nextUid (s.zw.id.toNat * 2 ^ 52 + (s.hq.bar4Base.toNat + o.toNat)) bs.length s)) := by
  show execBar4Write o bs s = _
  simp only [execBar4Write, inBar4, isReady, hb, hin, hm, hs, hn]
  rfl

/-- A write before READY is refused and logged. -/
theorem exec_bar4Write_early (hb : barReachable s 0 = true) (hin : o.toNat + bs.length ≤ 2 ^ s.io.bar4Log2)
    (hm : isMember s = false) (hs : s.pwr.stage ≠ 5) :
    exec (.bar4Write o bs) s = .next (refuseBar4 s o.toNat true .outside) := by
  have hready : isReady s = false := beq_eq_false_iff_ne.2 hs
  show execBar4Write o bs s = _
  simp [execBar4Write, inBar4, hready, hb, hin, hm]

/-- A write that is refused is logged. -/
theorem exec_bar4Write_refused {x : Bar4Stop} (hb : barReachable s 0 = true) (hin : o.toNat + bs.length ≤ 2 ^ s.io.bar4Log2)
    (hm : isMember s = false) (hs : s.pwr.stage = 5)
    (hx : bar4Refused s (s.hq.bar4Base.toNat + o.toNat) bs.length = some x) :
    exec (.bar4Write o bs) s = .next (refuseBar4 s o.toNat true x) := by
  show execBar4Write o bs s = _
  simp [execBar4Write, inBar4, isReady, hb, hin, hm, hs, hx]

/-- A new size, and the BASE where it no longer fits. -/
theorem exec_bar4Resize_up {l : Fin 12} (h : hostUp s = true) : exec (.bar4Resize l) s = .next
    (if s.hq.bar4Base.toNat % 2 ^ (30 + l.val) = 0 then { s with io := { s.io with bar4Log2 := 30 + l.val } }
      else logEvent { s with io := { s.io with bar4Log2 := 30 + l.val }, hq := { s.hq with bar4Base := 0 } }
        evBar4BaseCleared 0 (s.hq.bar4Base.zeroExtend 64) (BitVec.ofNat 64 (2 ^ (30 + l.val)))) := by
  show execBar4Resize l s = _
  simp only [execBar4Resize, configRequest, h, aligned, beq_iff_eq, if_true]

end Bar4

/-! ### Registers: `TIME_TX_ADDR` as an RW register (R471, R472) -/

section Registers

variable {s : State}

/-- A write of 8 B to a register of one field of 64 bits reaches every bit of it. -/
theorem reached512_whole {i : Nat} (hi : i < 64) : (reached512 [(0, 64)] 0 8).getLsbD i = true := by
  have hbit : (BitVec.ofNat 512 (fieldMask 0 64)).getLsbD i = true := by
    have hn : i < 512 := by omega
    rw [BitVec.getLsbD_ofNat, fieldMask, Nat.testBit_mul_two_pow, Nat.testBit_two_pow_sub_one]
    simp [hi, hn]
  show ((0 ||| BitVec.ofNat 512 (fieldMask 0 64)) &&& BitVec.ofNat 512 (fieldMask 0 64)).getLsbD i = true
  rw [BitVec.getLsbD_and, BitVec.getLsbD_or, hbit, Bool.or_true, Bool.and_true]

/-- An access of 8 B to `TIME_TX_ADDR`. -/
theorem regAccess_txAddr : regAccess s 0 0x20018 8 = some (8, s.time.txAddr.zeroExtend 512, 0) := by
  simp [regAccess, placeOf, pfPlace, regBase, readReg, readTime, reg64, placeOff, aligned]

/-- A register of 64 bits reads as what it holds. -/
theorem field_zeroExtend (x : W64) : field (x.zeroExtend 512) 0 64 = x := by
  refine BitVec.eq_of_getLsbD_eq fun i hi => ?_
  have hn : i < 512 := by omega
  simp only [getLsbD_field, BitVec.truncate_eq_setWidth, BitVec.getLsbD_setWidth, Nat.zero_add, hi, hn, decide_true, Bool.true_and]

/-- `TIME_TX_ADDR` takes an aligned address, and ignores any other (R418). -/
theorem writeTime_txAddr {w : RegWrite} {v : W64} (h : field (w.on (s.time.txAddr.zeroExtend 512)) 0 64 = v) :
    writeTime s 0x18 w = if v.toNat % 64 = 0 then { s with time := { s.time with txAddr := v } } else w.ignore s := by
  simp only [writeTime, fieldN, h, aligned, beq_iff_eq]

/-- A write of 8 B to `TIME_TX_ADDR` on a module that is its own anchor. -/
theorem registerWrite_txAddr (v : W64) (hm : isMember s = false) : registerWrite s (.own 0) 0x20018 8 v =
    if v.toNat % 64 = 0 then { s with time := { s.time with txAddr := v } } else logIgnored s 0x20018 v := by
  have hallowed : writeAllowed s (.own 0) (.blk 2 0x18) 0x18 = true := by simp [writeAllowed, Accessor.function, hm]
  have hreached : reached512 [(0, 64)] 0 8 ≠ 0 := fun h => by
    have hbit := reached512_whole (i := 0) (by decide)
    rw [h] at hbit
    exact absurd hbit (by simp)
  have hstored : field (RegWrite.on ⟨reached512 [(0, 64)] 0 8, v.zeroExtend 512 <<< (8 * 0), 0x20018, v⟩
      (s.time.txAddr.zeroExtend 512)) 0 64 = v := by
    rw [RegWrite.on, field_merge _ _ _ fun i hi => by rw [Nat.zero_add]; exact reached512_whole hi]
    show field (v.zeroExtend 512 <<< 0) 0 64 = v
    rw [BitVec.shiftLeft_zero, field_zeroExtend]
  have hplace : placeOf 0 0x20018 = .blk 2 0x18 := rfl
  have hbase : regBase (.blk 2 0x18) = 0x18 := rfl
  have hfields : regFields (.blk 2 0x18) 0x18 = [(0, 64)] := rfl
  simp only [registerWrite, Accessor.function, hplace, hbase, hfields, regAccess_txAddr, hallowed, hreached, writeRegAt]
  exact writeTime_txAddr hstored

/-- Reading `TIME_TX_ADDR` answers what it holds. -/
theorem registerRead_txAddr : (registerRead s 0 0x20018 8).1 = s.time.txAddr := by
  simp only [registerRead, regAccess_txAddr]
  exact field_zeroExtend _

end Registers

/-- Settles O53, clause by clause: BAR4 by the checks of its accesses, and BAR0 by what a register takes and answers. -/
theorem hostPortRowsComplete : Obligations.HostPortRowsComplete := by
  refine ⟨fun s o n bs t hb hin hm hn hr => exec_bar4Read_ok hb hin hm hn hr,
    fun s o n x hb hin hm hx => exec_bar4Read_refused hb hin hm hx, fun s o n hb hin hm => exec_bar4Read_member hb hin hm,
    fun s o bs hb hin hm hs hn => exec_bar4Write_ok hb hin hm hs hn, fun s u a n h => breachAt_none h,
    fun s o bs hb hin hm hs => exec_bar4Write_early hb hin hm hs,
    fun s o bs x hb hin hm hs hx => exec_bar4Write_refused hb hin hm hs hx, fun s l h hfit => ?fits, fun s l h hfit => ?cleared,
    fun s e h => congrArg Host.Outcome.next (if_pos h), fun s f off size v h => ?answers, fun s f off size v h => ?silent,
    fun s v hm hv => ?stored, fun s v hm hv => ?ignored⟩
  case fits => rw [exec_bar4Resize_up h, if_pos hfit]
  case cleared => rw [exec_bar4Resize_up h, if_neg hfit]
  case answers => exact ⟨congrArg Host.Outcome.next (if_pos h), congrArg Host.Outcome.next (if_pos h)⟩
  case silent =>
    have hn : ¬ barReachable s f.val = true := Bool.eq_false_iff.1 h
    exact ⟨congrArg Host.Outcome.next (if_neg hn), congrArg Host.Outcome.next (if_neg hn)⟩
  case stored =>
    rw [registerWrite_txAddr v hm, if_pos hv, registerRead_txAddr]
    exact ⟨rfl, rfl⟩
  case ignored => rw [registerWrite_txAddr v hm, if_neg hv]

end Sys2Proof.Proofs
end

section
/-!
SUPPORT. Aborts and evictions that meet no command, and configuration requests before and after the PF is ready (R428, R443, R466).
-/
namespace Sys2Proof.Laws

open Sys2Proof Sys2Proof.Machine

variable {s : State}

/-- An abort that names no command whose work is not yet over changes nothing. -/
theorem abortAll_eq_self {f : Cmd → Bool} (h : ∀ c ∈ s.cmds, unended c = true → f c = false) : abortAll s f = s :=
  foldl_eq_self fun c hc => by
    obtain ⟨c', hc', hf⟩ := findCmd_of_mem hc
    have hno : ¬ (unended c' && f c') = true := fun hb => by
      obtain ⟨hu, hfc⟩ := Bool.and_eq_true_iff.1 hb
      exact Bool.false_ne_true ((h c' hc' hu).symm.trans hfc)
    simp only [hf, if_neg hno]

/-- Rings evict nothing of a module whose queues hold no command. -/
theorem evictRings_noCmds {rs : List Nat} (h : s.cmds = []) : evictRings s rs = s := by
  rw [evictRings, h, List.foldl_nil]

/-- Once the PF is ready a configuration request takes effect. -/
theorem configRequest_up {f : State → State} (h : hostUp s = true) : configRequest s f = f s := if_pos h

/-- Until the PF is ready a configuration request is answered with Request Retry Status. -/
theorem configRequest_early {f : State → State} (ht : portTrains s = true) (h : hostUp s = false) :
    configRequest s f = answer s .retryStatus := by
  rw [configRequest, if_neg (Bool.eq_false_iff.1 h), if_pos ht]

end Sys2Proof.Laws
end

section
/-!
PROOF. Codec engines and functions are switched, and their drains end (R357, R363, R391, R442, R443, R460, R466, R472).
-/
namespace Sys2Proof.Proofs

open Sys2Proof Sys2Proof.Machine Sys2Proof.Laws Sys2Proof.Claims

section Drains

variable {s : State} {f p d : Nat}

/-- The drain of a VF ends when its rings are OFF. -/
theorem endVfDrain_vf (hf : f ≠ 0) (hd : (vfOf s f).draining = true) (hr : ∀ r ∈ ringsOf s f, (ringOf s r).state = .off) :
    endVfDrain s f =
      setVf s f { vfOf s f with draining := false, enabled := (vfOf s f).enableHeld, enableHeld := false } := by
  have hoff : (ringsOf s f).all (fun r => (ringOf s r).state == .off) = true := by simpa using hr
  simp only [endVfDrain, hd, hoff, if_neg hf, Bool.not_true, Bool.false_eq_true, if_false, if_true]

/-- The PF's own reset ends when every ring is OFF: HQ_ is reset, and its snapshots go. -/
theorem endVfDrain_pf (hd : (vfOf s 0).draining = true) (hr : ∀ e ∈ s.hq.rings, e.2.state = .off) :
    endVfDrain s 0 = { s with
      hq := HqBlock.reset, io := { s.io with snapshots := smKeep (fun k => !hqSnapshot k) s.io.snapshots } } := by
  have hoff : allRingsOff s = true := by simpa [allRingsOff] using hr
  simp only [endVfDrain, hd, hoff, Bool.not_true, Bool.false_eq_true, if_false, if_true]

/-- The drain of a codec engine ends when it has no started command and no command holds a slot of its pool. -/
theorem endCodecDrain_done (hd : (codecOf s d).state = .draining)
    (hc : ∀ c ∈ s.cmds, onEngine s d c = false ∧ ∀ x ∈ c.pool, x.1 ≠ d) :
    endCodecDrain s d = setCodec s d { codecOf s d with
      state := (if (codecOf s d).enableHeld then .on else .off), enableHeld := false, slots := [] } := by
  have hfree : s.cmds.any (fun c => onEngine s d c || c.pool.any (fun x => x.1 == d)) = false :=
    List.any_eq_false.2 fun c hmem => by
      obtain ⟨hno, hpool⟩ := hc c hmem
      have hslots : c.pool.any (fun x => x.1 == d) = false :=
        List.any_eq_false.2 fun x hx => mt beq_iff_eq.1 (hpool x hx)
      simp only [hno, hslots, Bool.or_self, Bool.false_eq_true, not_false_eq_true]
  have hstay : ¬ ((codecOf s d).state != .draining
      || s.cmds.any (fun c => onEngine s d c || c.pool.any (fun x => x.1 == d))) = true := by
    rw [hd, hfree]
    decide
  exact if_neg hstay

/-- The drain of a port ends when it has nothing to send and nothing to send again. -/
theorem endPortDrain_done (hd : (portOf s p).stage = .draining) (ht : (portOf s p).txq = []) (hr : (portOf s p).replay = []) :
    endPortDrain s p = portOff s p :=
  if_pos (by rw [hd, ht, hr]; rfl)

end Drains

/-- Settles O18, clause by clause: each function's drain by what it waits for. -/
theorem drainsEnd : Obligations.DrainsEnd := by
  refine ⟨fun s f hf hd hr => congrArg Host.Outcome.next (endVfDrain_vf hf hd hr), fun s f hf hd hr => ?pf,
    fun s p hd hq => congrArg Host.Outcome.next (if_pos (Bool.and_eq_true_iff.2 ⟨hd, hq⟩)),
    fun s d hd hc => congrArg Host.Outcome.next (endCodecDrain_done hd hc),
    fun s p hd ht hr => congrArg Host.Outcome.next (endPortDrain_done hd ht hr)⟩
  case pf =>
    show Host.Outcome.next (endVfDrain s f.val) = _
    rw [hf, endVfDrain_pf hd hr]

section Switches

variable {s : State} {d : Nat} {f : FuncIx}

/-! ### Codec engines (R357) -/

theorem enableCodec_off (h : (codecOf s d).state = .off) :
    enableCodec s d = setCodec s d { codecOf s d with enable := true, state := .on } := by
  simp only [enableCodec, modCodec_eq, h]

/-- An enable is held while the engine drains. -/
theorem enableCodec_draining (h : (codecOf s d).state = .draining) :
    enableCodec s d = setCodec s d { codecOf s d with enable := true, enableHeld := true } := by
  simp only [enableCodec, modCodec_eq, h]

/-- An engine that is ON begins to drain; where none of its commands is yet to start, none is aborted. -/
theorem disableCodec_on (ho : (codecOf s d).state = .on)
    (hc : ∀ c ∈ s.cmds, codecOp (opcodeOf c.desc) = true → c.phase ≠ .waiting ∧ c.phase ≠ .issued) :
    disableCodec s d = modCodec (modCodec s d (fun c => { c with enable := false, enableHeld := false })) d
      (fun c => { c with state := .draining }) := by
  have hon : ¬ ((codecOf (modCodec s d (fun c => { c with enable := false, enableHeld := false })) d).state != .on) = true := by
    rw [modCodec_eq, codecOf_setCodec, ho]
    decide
  refine (if_neg hon).trans (abortAll_eq_self fun c hmem _ => ?_)
  have hstarted : codecOp (opcodeOf c.desc) = true → (c.phase == .waiting || c.phase == .issued) = false := fun hop => by
    simpa using hc c hmem hop
  cases hop : codecOp (opcodeOf c.desc) with
  | false => rw [Bool.and_false, Bool.false_and, Bool.false_and]
  | true => rw [hstarted hop, Bool.and_false]

/-! ### Virtual functions (R363, R442, R443) -/

/-- VF_ENABLE of a VF, which holds it while it drains. -/
theorem exec_vfEnable_up (h : hostUp s = true) (hf : f.val ≠ 0) : exec (.vfEnable f) s =
    .next (if (vfOf s f.val).draining then setVf s f.val { vfOf s f.val with enableHeld := true }
      else setVf s f.val { vfOf s f.val with enabled := true }) :=
  congrArg Host.Outcome.next ((configRequest_up h).trans (if_neg hf))

/-- VF_FLR of a VF drains it. -/
theorem exec_vfFlr_up (h : hostUp s = true) (hf : f.val ≠ 0) : exec (.vfFlr f) s = .next (drainVf s f.val) :=
  congrArg Host.Outcome.next ((configRequest_up h).trans (if_neg hf))

/-- An enabled VF without rings begins to drain, and its MSI-X entries return to their reset state. -/
theorem drainVf_noRings {n : Nat} (hd : (vfOf s n).draining = false) (he : (vfOf s n).enabled = true)
    (hr : ringsOf s n = []) (hc : s.cmds = []) : drainVf s n = { s with hq := { s.hq with
      vfs := smSet VfState.dflt s.hq.vfs n ⟨false, true, false, (vfOf s n).select⟩
      msixMasked := smKeep (fun k => k / 2048 != n) s.hq.msixMasked
      msixEntries := smKeep (fun k => k / 2048 != n) s.hq.msixEntries
      msixPending := smKeep (fun k => k / 2048 != n) s.hq.msixPending } } := by
  simp only [drainVf, hd, he, Bool.not_true, Bool.false_eq_true, if_false]
  exact (congrArg (drainRings _) hr).trans (evictRings_noCmds hc)

end Switches

/-- Settles O23, clause by clause: each switch by the state of what it switches, and every request before the PF is ready by its
answer. -/
theorem functionSwitchesComplete : Obligations.FunctionSwitchesComplete := by
  refine ⟨fun s d h hoff => congrArg Host.Outcome.next ((setupWrite_open h).trans (enableCodec_off hoff)),
    fun s d h hd => congrArg Host.Outcome.next ((setupWrite_open h).trans (enableCodec_draining hd)),
    fun s d h ho hc => ⟨_, congrArg Host.Outcome.next ((setupWrite_open h).trans (disableCodec_on ho hc)), ?disabled⟩,
    fun s f h hf hd => ?enables, fun s f h hf hd => ?held, fun s f l ht h => ?early, fun s f h hf hd he hr hc => ?resets⟩
  case disabled => simp [modCodec_eq]
  case enables => rw [exec_vfEnable_up h hf, if_neg (Bool.eq_false_iff.1 hd)]
  case held => rw [exec_vfEnable_up h hf, if_pos hd]
  case early =>
    have hretry (g : State → State) : (.next (configRequest s g) : Host.Outcome State Fault Refusal)
        = .next (answer s .retryStatus) := congrArg Host.Outcome.next (configRequest_early ht h)
    exact ⟨hretry _, hretry _, hretry _, hretry _⟩
  case resets => exact ⟨_, (exec_vfFlr_up h hf).trans (congrArg Host.Outcome.next (drainVf_noRings hd he hr hc)), rfl, rfl, rfl, rfl⟩

end Sys2Proof.Proofs
end

section
/-!
SUPPORT. Commands that end and commands that wait: the steps of an end that nothing holds back, and what the counters of a waiting
command make of it (R374, R377, R380, R381).
-/
namespace Sys2Proof.Laws

open Sys2Proof Sys2Proof.Machine Sys2Proof.Claims

section Ends

variable {s : State} {u : Uid} {c : Cmd}

/-- A command that is found before a change of it is found changed. -/
theorem findCmd_modCmd_some {f : Cmd → Cmd} (hf : ∀ x, (f x).uid = x.uid) (h : findCmd s u = some c) :
    findCmd (modCmd s u f) u = some (f c) := by
  rw [findCmd_modCmd hf, h, Option.map_some]

/-- A command without counts logs none. -/
theorem logCounts_noCounts (h : findCmd s u = some c) (hn : c.nans = 0) (hi : c.invalid = 0) : logCounts s u = s := by
  rw [logCounts, h, Option.filter_some]
  cases c.parent.isNone
  · rfl
  · simp [hn, hi]

/-- A command without slots to set leaves the pool alone. -/
theorem settlePool_noPool (h : findCmd s u = some c) (hp : c.pool = []) : settlePool s u = s := by
  simp [settlePool, h, hp]

/-- Without a deadline an end is judged by its tick alone. -/
theorem judgeEnd_noDeadline (hd : deadlineOf c.desc = 0) : judgeEnd s c =
    modCmd s c.uid (fun x => { x with unjudged := false, tick := c.lastWrite.getD s.time.now }) := by
  simp [judgeEnd, hd]

/-- An end is judged once everything that the command wrote is answered. -/
theorem judged_answered (h : findCmd s u = some c) (he : c.phase = .ending) (hj : c.unjudged = true)
    (ho : outstanding s u = false) : judged s u = judgeEnd s c := by
  simp [judged, h, he, hj, ho]

/-- An ending command without signals is finished. -/
theorem advance_noSignals {n : Nat} (h : findCmd s u = some c) (he : c.phase = .ending) (ho : outstanding s u = false)
    (hr : heldForRelease c = false) (hs : signalEntries c.desc c.sync = []) :
    advance (n + 1) s u = modCmd s u (fun x => { x with phase := .finished }) := by
  simp [advance, h, he, ho, hr, hs]

/-- A module that is its own anchor posts nothing as a member. -/
theorem memberPost_anchor (h : isMember s = false) : memberPost s = s := if_neg (Bool.eq_false_iff.1 h)

/-- A command that nothing holds back is not held for a release tick. -/
theorem heldForRelease_of_endsQuietly (h : EndsQuietly s c) : heldForRelease c = false := by
  obtain ⟨-, -, -, -, -, -, -, hr | hr, -⟩ := h <;> simp [heldForRelease, hr]

/-- An end that nothing holds back goes to its finish at once. -/
theorem advanceEnd_quiet (h : findCmd s u = some c) (he : c.phase = .ending) (hj : c.unjudged = true)
    (hq : EndsQuietly s c) : advanceEnd s u = modCmd s u (fun x =>
      { x with unjudged := false, tick := c.lastWrite.getD s.time.now, phase := .finished }) := by
  obtain rfl : c.uid = u := findCmd_uid h
  have hr : heldForRelease c = false := heldForRelease_of_endsQuietly hq
  obtain ⟨hs, hd, -, -, -, ho, hp, -, hm⟩ := hq
  have hjudged : judged (settlePool s c.uid) c.uid =
      modCmd s c.uid (fun x => { x with unjudged := false, tick := c.lastWrite.getD s.time.now }) := by
    rw [settlePool_noPool h hp, judged_answered h he hj ho, judgeEnd_noDeadline hd]
  have hfound := findCmd_modCmd_some
    (f := fun x => { x with unjudged := false, tick := c.lastWrite.getD s.time.now }) (fun _ => rfl) h
  rw [advanceEnd, hjudged, maxSignals, advance_noSignals hfound he ho hr hs, modCmd_modCmd]
  · exact memberPost_anchor hm
  · exact fun _ => rfl

/-- Work that ends with nothing to hold it back: nothing is logged, and the changes of the command are one. -/
theorem endWith_quiet {st : Status} {w : Bool} (h : findCmd s u = some c) (hj : c.unjudged = true) (hq : EndsQuietly s c) :
    endWith s u st w = modCmd s u (fun x =>
      { x with status := st, worked := w, unjudged := false, tick := c.lastWrite.getD s.time.now
               mode := (if opcodeOf x.desc = 0x30 then refineMode x else x.mode), phase := .finished, remoteData := []
               written := [], ahead := [] }) := by
  have ⟨_, _, hn, hi, _⟩ := hq
  have hcounts : (if st.silent then s else logCounts s u) = s := by rw [logCounts_noCounts h hn hi, ite_self]
  have hended := findCmd_modCmd_some (f := fun x =>
    { x with status := st, worked := w, mode := if opcodeOf x.desc == 0x30 then refineMode x else x.mode
             tick := x.lastWrite.getD s.time.now, phase := .ending, remoteData := [], written := [], ahead := [] })
    (fun _ => rfl) h
  simp only [endWith, hcounts]
  rw [advanceEnd_quiet hended rfl hj hq, modCmd_modCmd]
  · simp only [beq_iff_eq, modCmd_time]
  · exact fun _ => rfl

end Ends

section Waits

variable {s t : State} {c : Cmd} {es : List (Nat × Nat)} {met : State → State}

/-- Counters that are all met let the command go on, its remote data used. -/
theorem settleWaits_met (h : (readWaits (ctxOf s c) es).run.run s = (.ok .met, t)) :
    settleWaits s c es met = met (forget t c.uid) := by
  simp only [settleWaits, h]
  rfl

/-- A failed counter fails the command. -/
theorem settleWaits_failed (h : (readWaits (ctxOf s c) es).run.run s = (.ok .failed, t)) :
    settleWaits s c es met = failCmd (forget t c.uid) c.uid .dependencyFailed := by
  simp only [settleWaits, h]
  rfl

/-- A command without header waits is issued. -/
theorem recheckHeader_noWaits (h : waitCount c.desc = 0) :
    recheckHeader s c = modCmd (forget s c.uid) c.uid (fun x => { x with phase := .issued }) := by
  have hnone : headerWaits c.desc c.sync = [] := by rw [headerWaits, h]; rfl
  rw [recheckHeader, hnone]
  exact settleWaits_met rfl

end Waits

end Sys2Proof.Laws
end

section
/-!
PROOF. Commands that wait, and the end of a command that nothing holds back (R374, R377, R379 to R383).
-/
namespace Sys2Proof.Proofs

open Sys2Proof Sys2Proof.Machine Sys2Proof.Laws Sys2Proof.Claims

section Rows

variable {s : State} {u : Uid} {op : Nat} {c : Cmd} {f : Cmd → State}

/-- A row of a command that holds no cluster and waits on events or time acts whenever the command has started. -/
theorem withRunning_waitOp (h : Runs s u op c) (hw : waitOp op = true) : withRunning s u op f = f c :=
  withRunning_of h (mayRun_of_runs h (.inr (by rw [hw]; rfl)))

/-- Every earlier command has finished. -/
theorem all_finishedCmd (h : ∀ x ∈ earlierOf s c, x.phase = .finished) : (earlierOf s c).all finishedCmd = true :=
  List.all_eq_true.2 fun x hx => beq_iff_eq.2 (h x hx)

/-- FENCE behind finished commands ends by whether one of them has failed. -/
theorem exec_fence_due (h : Runs s u 0x02 c) (he : ∀ x ∈ earlierOf s c, x.phase = .finished) : exec (.fence u) s =
    .next (if fenceFailed s c then failCmd s u .dependencyFailed else doneCmd s u .ok) := by
  show execFence u s = _
  rw [execFence, withRunning_waitOp h rfl, all_finishedCmd he]
  rfl

/-- EVENT_SIGNAL behind finished commands completes. -/
theorem exec_eventSignal_due (h : Runs s u 0x03 c) (he : ∀ x ∈ earlierOf s c, x.phase = .finished) :
    exec (.eventSignal u) s = .next (doneCmd s u .ok) := by
  show execEventSignal u s = _
  rw [execEventSignal, withRunning_waitOp h rfl, all_finishedCmd he]
  rfl

/-- EVENT_WAIT reads its own counters. -/
theorem exec_eventWait_runs (h : Runs s u 0x04 c) : exec (.eventWait u) s = .next (recheckOwn s c) :=
  congrArg Host.Outcome.next (withRunning_waitOp h rfl)

/-- WAIT_TIME completes at its tick. -/
theorem exec_waitTime_reached (h : Runs s u 0x05 c) (hr : reached s.time.now (waitTick c.desc) = true) :
    exec (.waitTime u) s = .next (doneCmd s u .ok) :=
  congrArg Host.Outcome.next ((withRunning_waitOp h rfl).trans (if_pos hr))

/-- EVENT_RECHECK of a command on the wait list reads its header waits. -/
theorem exec_eventRecheck_waiting (hc : findCmd s u = some c) (hw : c.phase = .waiting) :
    exec (.eventRecheck u) s = .next (recheckHeader s c) := by
  show execEventRecheck u s = _
  simp [execEventRecheck, hc, hw]

/-- COMMAND_DEADLINE of a command on the wait list whose deadline is reached. -/
theorem exec_commandDeadline_waiting (hc : findCmd s u = some c) (hw : c.phase = .waiting) (hd : deadlineOf c.desc ≠ 0)
    (hr : reached s.time.now (deadlineOf c.desc) = true) : exec (.commandDeadline u) s = .next (missDeadline s u false) := by
  have hdue : deadlineReached s c = true := by rw [deadlineReached, bne_iff_ne.2 hd, hr, Bool.or_true, Bool.and_self]
  show execCommandDeadline u s = _
  simp [execCommandDeadline, hc, hw, hdue]

/-- TIME_WAIT_REACHED of a started WAIT_TIME whose tick is reached. -/
theorem exec_timeWaitReached_due (hc : findCmd s u = some c) (hs : c.phase = .started) (hop : opcodeOf c.desc = 0x05)
    (hr : reached s.time.now (waitTick c.desc) = true) : exec (.timeWaitReached u) s = .next (doneCmd s u .ok) := by
  show execTimeWaitReached u s = _
  simp [execTimeWaitReached, hc, hs, hop, hr]

end Rows

/-- Settles O3: the counts log nothing, and each step of the end that follows changes the command alone; the changes are one. -/
theorem quietEndFinishes : Obligations.QuietEndFinishes := by
  intro s u c st hc hq
  have ⟨_, _, _, _, hretry, _⟩ := hq
  have hst : (if (st == .ok && c.retried) = true then Status.okRetried else st) = st := by simp [hretry]
  have hmarked := findCmd_modCmd_some (f := fun x => { x with unjudged := true }) (fun _ => rfl) hc
  simp only [doneCmd, hc, hst]
  rw [endWith_quiet hmarked rfl hq, modCmd_modCmd, finishedNow, hc]
  · rfl
  · exact fun _ => rfl

/-- Settles O1, clause by clause: each row acts on its started command by what that command waits for. -/
theorem waitingCommandsComplete : Obligations.WaitingCommandsComplete := by
  refine ⟨fun s u c h => congrArg Host.Outcome.next (withRunning_waitOp h rfl), fun s u c h he hf => ?fence,
    fun s u c h he hf => ?fenceFailed, fun s u c h he => exec_eventSignal_due h he, fun s u c t h hr => ?met,
    fun s u c t h hr => ?failed, fun s u c h hr => exec_waitTime_reached h hr⟩
  case fence => rw [exec_fence_due h he, hf, if_neg Bool.false_ne_true]
  case fenceFailed => rw [exec_fence_due h he, hf, if_pos rfl]
  case met =>
    obtain rfl : c.uid = u := findCmd_uid h.1
    rw [exec_eventWait_runs h, recheckOwn, settleWaits_met hr]
  case failed =>
    obtain rfl : c.uid = u := findCmd_uid h.1
    rw [exec_eventWait_runs h, recheckOwn, settleWaits_failed hr]

/-- Settles O2, clause by clause: a wait ends by the tick, the counters or the deadline that its row looks at. -/
theorem waitsEnd : Obligations.WaitsEnd := by
  refine ⟨fun s u c hc hs hop hr => exec_timeWaitReached_due hc hs hop hr, fun s u c t hc hw hr => ?met,
    fun s u c t hc hw hr => ?failed, fun s u c hc hw hd hr => exec_commandDeadline_waiting hc hw hd hr⟩
  case met =>
    obtain rfl : c.uid = u := findCmd_uid hc
    rw [exec_eventRecheck_waiting hc hw, recheckHeader, settleWaits_met hr]
  case failed =>
    obtain rfl : c.uid = u := findCmd_uid hc
    rw [exec_eventRecheck_waiting hc hw, recheckHeader, settleWaits_failed hr]

end Sys2Proof.Proofs
end

section
/-!
SUPPORT. Rows of commands that work by units: the single unit of a short COPY or FILL of host memory, and commands that GUARD keeps
from beginning (R374, R384, R399, R411).
-/
namespace Sys2Proof.Laws

open Sys2Proof Sys2Proof.Machine Sys2Proof.Claims

section Movers

variable {s t : State} {u : Uid} {k : Ctx} {c c' : Cmd} {x : OpSem}

/-- A length of at most 1 MiB is one unit. -/
theorem unitsMove_one (hlo : 1 ≤ moveLength k.desc) (hhi : moveLength k.desc ≤ 1048576) :
    (unitsMove k).run.run s = (.ok 1, s) := by
  have h : ceilDiv (moveLength k.desc) mib = 1 := by rw [ceilDiv, mib]; omega
  rw [unitsMove, h]
  rfl

/-- That unit is the whole length. -/
theorem moveBytes_whole {d : BitVec 1024} (h : moveLength d ≤ 1048576) : moveBytes d 0 = moveLength d := by
  rw [moveBytes, mib]
  omega

/-- A COPY unit between ranges of host memory. -/
theorem unitCopy_host {n : Nat} (hd : bit k.desc 296 = true) (hs : bit k.desc 297 = true) (hn : moveBytes k.desc 0 = n) :
    (unitCopy false k 0).run.run s
      = (.ok (), noteWrite k.uid (hostWrite s (fieldN k.desc 128 64) (hostRead s (fieldN k.desc 192 64) n))) := by
  unfold unitCopy moveOut
  rw [hn, Nat.zero_mul]
  simp only [hd, hs, if_true, cmdHostRead, cmdHostWrite]
  rfl

/-- The run of a command whose work is one unit. -/
theorem unitsRun_one (hx : opSem (opcodeOf c.desc) = some x) (hn : (x.units (ctxOf s c)).run.run s = (.ok 1, s))
    (hc : findCmd s c.uid = some c) (hd : c.unitsDone = []) (hu : (x.unit false (ctxOf s c) 0).run.run s = (.ok (), t)) :
    UnitsRun s c x false (modCmd t c.uid (fun c => { c with unitsDone := c.unitsDone ++ [0] })) :=
  ⟨hx, (cmd_bind_ok hn).trans (runUnits_one hc hd hu)⟩

/-- A row of COPY or FILL whose units run to their end. -/
theorem moverRow_of {op : Nat} {f : Bool} (h : RunsOpen s u op c) (hx : UnitsRun s c x f t) (hc : Complete t u c') :
    withRunning s u op (runWhole f s) = doneCmd t u c'.status := by
  obtain ⟨hr, ho⟩ := h
  have ⟨hfound, _⟩ := hr
  rw [withRunning_of hr (mayRun_of_runs hr (.inl ho)), runWhole_of hfound hx hc]

/-- A row of COPY or FILL whose one unit writes `bs` to host memory. -/
theorem moverRow_host {op a : Nat} {bs : List Byte} (h : RunsOpen s u op c) (hop : productOp c.desc = false)
    (hx : opSem (opcodeOf c.desc) = some x) (hn : (x.units (ctxOf s c)).run.run s = (.ok 1, s)) (hd : c.unitsDone = [])
    (hu : (x.unit false (ctxOf s c) 0).run.run s = (.ok (), noteWrite c.uid (hostWrite s a bs))) :
    withRunning s u op (runWhole false s) = doneCmd (modCmd (hostWrite s a bs) u (fun c =>
      { c with lastWrite := some s.time.now, unitsDone := c.unitsDone ++ [0] })) u c.status := by
  obtain ⟨hc, -, -, -, he, ha, -⟩ := h.1
  obtain rfl : c.uid = u := findCmd_uid hc
  have hrun := unitsRun_one hx hn hc hd hu
  rw [noteWrite, modCmd_modCmd (f := fun x => { x with lastWrite := some (hostWrite s a bs).time.now }) fun _ => rfl] at hrun
  refine moverRow_of (c' := { c with lastWrite := some s.time.now, unitsDone := c.unitsDone ++ [0] }) h hrun
    ⟨findCmd_modCmd_some ?_ hc, ?_, ha, he⟩
  · exact fun _ => rfl
  · simp only [isDeferred, hop, Bool.false_and]

end Movers

section Guard

variable {s : State} {u : Uid} {op : Nat} {c : Cmd} {f : Cmd → State}

/-- Opcodes that work in tile groups are cut at their boundaries, and wait on nothing. -/
theorem tileOp_cut (h : tileOp op = true) : codecOp op = false ∧ neverCut op = false ∧ waitOp op = false := by
  have hall : ∀ x ∈ [0x10, 0x11, 0x12, 0x14, 0x18, 0x19, 0x1A, 0x20, 0x21, 0x24, 0x28],
      codecOp x = false ∧ neverCut x = false ∧ waitOp x = false := by decide
  exact hall op (List.contains_iff_mem.1 h)

/-- In the last GUARD ticks of its context a command that works in tile groups does not begin. -/
theorem withRunning_guarded (h : Runs s u op c) (ht : tileOp op = true) (hg : inGuard s c = true) (hr : c.runOn = false)
    (ho : ctxOpen s c = true) : withRunning s u op f = s := by
  obtain ⟨hc, rfl, -⟩ := h
  obtain ⟨h1, h2, h3⟩ := tileOp_cut ht
  have hm : mayRun s c = false := by simp [mayRun, ht, hg, hr, ho, h1, h2, h3]
  simp [withRunning, hc, hm]

end Guard

end Sys2Proof.Laws
end

section
/-!
PROOF. Commands that work by units (R374, R377, R384, R399, R411).
-/
namespace Sys2Proof.Proofs

open Sys2Proof Sys2Proof.Machine Sys2Proof.Laws Sys2Proof.Claims

/-- ATTEND outside a ring group runs as the other commands by units do. -/
theorem exec_attend_alone {s t : State} {u : Uid} {c c' : Cmd} {x : OpSem} (h : RunsOpen s u 0x18 c) (hg : groupCmd c = false)
    (hx : UnitsRun s c x false t) (hc : Complete t u c') : exec (.attend u) s = .next (doneCmd t u c'.status) := by
  obtain ⟨hr, ho⟩ := h
  have ⟨hfound, _⟩ := hr
  show execAttend u s = _
  rw [execAttend, withRunning_of hr (mayRun_of_runs hr (.inl ho)), hg, if_neg Bool.false_ne_true, runWhole_of hfound hx hc]

/-- Settles O4: each row is that of the movers, of the commands by units, or of the codecs, with its own opcode. -/
theorem unitCommandsComplete : Obligations.UnitCommandsComplete := by
  intro s u c x t c' hd hc
  have units {op : Nat} (hx : UnitsRun s c x false t) (h : RunsOpen s u op c) :
      (.next (runUnitsRow op u s) : Host.Outcome State Fault Refusal) = .next (doneCmd t u c'.status) :=
    congrArg Host.Outcome.next (runUnitsRow_of h hd hx hc)
  have codec {op : Nat} (hx : UnitsRun s c x false t) (hop : codecOp op = true) (h : RunsCodec s u op c) :
      (.next (runCodecRow op u s) : Host.Outcome State Fault Refusal) = .next (doneCmd t u c'.status) :=
    congrArg Host.Outcome.next (runCodecRow_of hop h hx hc)
  refine ⟨fun f h hx => congrArg Host.Outcome.next (moverRow_of h hx hc),
    fun f h hx => congrArg Host.Outcome.next (moverRow_of h hx hc),
    fun hx => ⟨units hx, units hx, units hx, units hx, fun h hg => exec_attend_alone h hg hx hc, units hx, units hx, units hx,
      units hx, units hx, units hx, codec hx rfl, codec hx rfl, codec hx rfl⟩, fun hg hr ho => ?guard⟩
  case guard =>
    have held {op : Nat} {f : Cmd → State} (ht : tileOp op = true) (h : Runs s u op c) :
        (.next (withRunning s u op f) : Host.Outcome State Fault Refusal) = .next s :=
      congrArg Host.Outcome.next (withRunning_guarded h ht hg hr ho)
    exact ⟨held rfl, held rfl, held rfl, held rfl, fun h _ => held rfl h, held rfl, held rfl, held rfl, held rfl, held rfl,
      held rfl⟩

/-- The bytes that a FILL writes from its first byte on. -/
theorem map_patternByte_range (d : BitVec 1024) (n : Nat) : (range 0 n).map (patternByte d) =
    (List.range n).map (fun i => BitVec.ofNat 8 (fieldN d 192 64 / 2 ^ (8 * (i % 8)))) := by
  rw [range, List.map_map]
  refine List.map_congr_left fun i _ => ?_
  rw [Function.comp_apply, Nat.zero_add, patternByte]

/-- Settles O5: a length of at most 1 MiB is one unit, which writes its bytes with one write; the last clause is what a write leaves
of each byte. -/
theorem hostMoversWriteTheirRange : Obligations.HostMoversWriteTheirRange := by
  refine ⟨fun s u c h hd hdst hlo hhi => ?fill, fun s u c h hd hdst hsrc hlo hhi => ?copy,
    fun s a bs b => hostWrite_byte s a bs b, fun s a bs => hostWrite_hbm s a bs⟩
  case fill =>
    have ⟨⟨_, hop, _⟩, _⟩ := h
    have hunit := unitFill_host (s := s) (k := ctxOf s c) hdst (moveBytes_whole hhi)
    rw [map_patternByte_range] at hunit
    exact congrArg Host.Outcome.next (moverRow_host (x := ⟨fetchFill, fun _ => pure [], unitsMove, unitFill⟩) h
      (by simp [productOp, hop]) (by rw [hop]; rfl) (unitsMove_one hlo hhi) hd hunit)
  case copy =>
    have ⟨⟨_, hop, _⟩, _⟩ := h
    have hunit := unitCopy_host (s := s) (k := ctxOf s c) hdst hsrc (moveBytes_whole hhi)
    exact congrArg Host.Outcome.next (moverRow_host (x := ⟨fetchCopy, fun _ => pure [], unitsMove, unitCopy⟩) h
      (by simp [productOp, hop]) (by rw [hop]; rfl) (unitsMove_one hlo hhi) hd hunit)

end Sys2Proof.Proofs
end

section
/-!
SUPPORT. Rings: taking slots, posting a record, going ON and draining, and selecting a ring's stage (R366, R367, R373, R377, R378, R387,
R408, R428, R442, R443, R496).
-/
namespace Sys2Proof.Laws

open Sys2Proof Sys2Proof.Machine Sys2Proof.Claims

/-! ### Taking slots (R367) -/

section Fetching

variable {s : State} {r : Nat}

/-- The ring has taken its next slot, which has no sync record. -/
def tookSlot (s : State) (r : Nat) : State :=
  setRing s r { ringOf s r with
    sqHead := ixNext (ringOf s r).sqSize (ringOf s r).sqHead, fetched := (ringOf s r).fetched ++ [⟨slotAhead s r 0, 0⟩] }

theorem fetchSlots_succ {n : Nat} (h : hasSync (slotAhead s r 0) = false) :
    fetchSlots (n + 1) s r = fetchSlots n (tookSlot s r) r := fetchSlots_step h

@[simp] theorem ringOf_tookSlot (s : State) (r : Nat) : ringOf (tookSlot s r) r = { ringOf s r with
    sqHead := ixNext (ringOf s r).sqSize (ringOf s r).sqHead, fetched := (ringOf s r).fetched ++ [⟨slotAhead s r 0, 0⟩] } :=
  ringOf_setRing ..

/-- Places after the new head lie one further on from the old one. -/
theorem headAhead_tookSlot (s : State) (r i : Nat) : headAhead (tookSlot s r) r i = headAhead s r (i + 1) := by
  rw [headAhead, headAhead, ringOf_tookSlot]
  rfl

theorem slotAhead_tookSlot (s : State) (r i : Nat) : slotAhead (tookSlot s r) r i = slotAhead s r (i + 1) := by
  rw [slotAhead, slotAhead, headAhead_tookSlot, ringOf_tookSlot]
  rfl

/-- In `t` ring `r` has taken the next `n` slots of `s`, in order, and memory and commands are as they were. -/
structure Fetched (s t : State) (r n : Nat) : Prop where
  fetched : (ringOf t r).fetched = (ringOf s r).fetched ++ (List.range n).map (fun i => ⟨slotAhead s r i, 0⟩)
  head : (ringOf t r).sqHead = headAhead s r n
  host : t.host = s.host
  hbm : t.hbm = s.hbm
  cmds : t.cmds = s.cmds

/-- Slots without sync records are taken one after another. -/
theorem fetchSlots_takes {n : Nat} (h : ∀ i < n, hasSync (slotAhead s r i) = false) : Fetched s (fetchSlots n s r) r n := by
  induction n generalizing s with
  | zero => exact ⟨by rw [List.range_zero, List.map_nil, List.append_nil]; rfl, rfl, rfl, rfl, rfl⟩
  | succ n ih =>
    have hrest : ∀ i < n, hasSync (slotAhead (tookSlot s r) r i) = false := fun i hi => by
      rw [slotAhead_tookSlot]
      exact h (i + 1) (Nat.succ_lt_succ hi)
    obtain ⟨hf, hh, hhost, hhbm, hcmds⟩ := ih hrest
    rw [fetchSlots_succ (h 0 n.succ_pos)]
    refine ⟨?_, hh.trans (headAhead_tookSlot s r n), hhost, hhbm, hcmds⟩
    rw [hf, ringOf_tookSlot, List.range_succ_eq_map, List.map_cons, List.map_map, List.append_assoc, List.singleton_append]
    simp only [slotAhead_tookSlot, Function.comp_def]

/-- One read of up to 32 slots that brings `m` of them, its write of SQ_HEAD, and the reads that follow. -/
theorem fetchReads_reads {n ahead m : Nat} {fault : Option Nat} {t : State} (ha : ahead ≠ 0) (hf : fault ≠ some 0)
    (ht : t = fetchSlots (min 32 ahead) s r) (hm : m = ixDist (ringOf t r).sqSize (ringOf t r).sqHead (ringOf s r).sqHead)
    (h0 : m ≠ 0) :
    fetchReads (n + 1) s r ahead fault = fetchReads n (writeSqHead t r) r (ahead - m) (fault.map (· - 1)) := by
  subst ht hm
  simp only [fetchReads, if_neg ha, if_neg hf, if_neg h0]

/-- A read that fails puts the ring in ERROR. -/
theorem fetchReads_fails {n ahead : Nat} (ha : ahead ≠ 0) : fetchReads (n + 1) s r ahead (some 0) = ringError s r 2 := by
  simp only [fetchReads, if_neg ha, if_true]

variable {t : State} {c : Cmd}

/-- A slot that a check refuses completes with what the check reports. -/
theorem fetchHead_refused {st : Status} {off : Nat} (ha : admitHead s r = some (c, t))
    (hv : fetchVerdict t r c.desc c.sync = some (st, off)) : fetchHead s r = rejectCmd t c.uid st off := by
  simp only [fetchHead, ha, hv]

/-- Any other slot goes by its placement and its dies. -/
theorem fetchHead_accepted (ha : admitHead s r = some (c, t)) (hv : fetchVerdict t r c.desc c.sync = none) :
    fetchHead s r =
      if c.module != 0 then modCmd t c.uid (fun c => { c with phase := .issued })
      else if (diesOf c.dies).any (dieFailed t) then failCmd (logAborted t c.uid) c.uid .aborted
      else recheckHeader t c := by
  simp only [fetchHead, ha, hv]

end Fetching

/-! ### Records and interrupts (R377, R378) -/

section Records

variable {s : State} {r : Nat} {c : Cmd}

/-- The state `t` has the memory, the commands and the ring's completion index of `s`. -/
structure SameEntries (s t : State) (r : Nat) : Prop where
  host : t.host = s.host
  hbm : t.hbm = s.hbm
  cmds : t.cmds = s.cmds
  next : (ringOf t r).cqNext = (ringOf s r).cqNext

/-- A message changes nothing but messages. -/
theorem sameEntries_sendMsix (s : State) (fn vec r : Nat) : SameEntries s (sendMsix s fn vec) r := by
  unfold sendMsix
  split <;> exact ⟨rfl, rfl, rfl, rfl⟩

theorem sameEntries_setRing {g : Ring} (h : g.cqNext = (ringOf s r).cqNext) : SameEntries s (setRing s r g) r :=
  ⟨rfl, rfl, rfl, by rw [ringOf_setRing, h]⟩

theorem SameEntries.trans {t v : State} (h : SameEntries s t r) (h' : SameEntries t v r) : SameEntries s v r :=
  ⟨h'.host.trans h.host, h'.hbm.trans h.hbm, h'.cmds.trans h.cmds, h'.next.trans h.next⟩

theorem SameEntries.ite {p : Prop} [Decidable p] {t v : State} (h : SameEntries s t r) (h' : SameEntries s v r) :
    SameEntries s (if p then t else v) r := by
  split
  · exact h
  · exact h'

theorem sameEntries_sendRingIrq (s : State) (r : Nat) : SameEntries s (sendRingIrq s r) r := by
  refine SameEntries.trans (sameEntries_setRing ?_) (sameEntries_sendMsix ..)
  rfl

/-- A record counted towards the interrupt changes the ring's count, and may send the message. -/
theorem sameEntries_countIrq (s : State) (r : Nat) : SameEntries s (countIrq s r) r := by
  refine .ite (.trans (sameEntries_setRing ?_) (sameEntries_sendRingIrq ..)) (sameEntries_setRing ?_) <;> rfl

/-- While the function drains a record is discarded and counted. -/
theorem writeRecord_discards (h : discards s r = true) :
    writeRecord s r c = { s with hq := { s.hq with cntFlrDiscard := s.hq.cntFlrDiscard + 1 } } := if_pos h

/-- Otherwise it is written at the completion index, which moves on, and is counted. -/
theorem writeRecord_sameEntries (h : discards s r = false) :
    SameEntries (setRing (hostWrite s ((ringOf s r).cqBase + 32 * fieldN (ringOf s r).cqNext 0 16)
      (bvToBytes 32 (completionRec c (!bit (ringOf s r).cqNext 16)))) r
      { ringOf s r with cqNext := ixNext (ringOf s r).cqSize (ringOf s r).cqNext }) (writeRecord s r c) r := by
  simp only [writeRecord, h, Bool.false_eq_true, if_false, modRing_eq, ringOf_hostWrite]
  exact sameEntries_countIrq _ r

theorem hostWrite_host (s : State) (a : Nat) (bs : List Byte) : (hostWrite s a bs).host = putBytes s.host a bs := rfl

/-- A command without a husk has none to clear. -/
theorem clearHusk_noHusk (h : c.husk = none) : clearHusk s c = s := by
  simp only [clearHusk, h]

/-- Without a husk, and with nothing unanswered, a completion goes out. -/
theorem mayPost_noHusk (hc : findCmd s c.uid = some c) (h : c.husk = none) (ho : outstanding s c.uid = false) :
    mayPost s c.uid = true := by
  simp [mayPost, hc, h, ho]

end Records

/-! ### ON and draining (R367, R442, R443) -/

section States

variable {s : State} {r : Nat}

/-- What the device keeps for a ring that has gone ON. -/
@[simp] theorem ringOf_ringOn (s : State) (r : Nat) : ringOf (ringOn s r) r = { ringOf s r with
    state := .on, enableHeld := false, cause := 0, sqHead := 0, sqTail := 0, cqNext := 0, cqHead := 0, fetched := []
    irqPending := 0, failedSince := false, wakeNeeded := true } := by
  simp [ringOn, writeWake, writeSqHead, modRing_eq]

@[simp] theorem ringOn_hbm (s : State) (r : Nat) : (ringOn s r).hbm = s.hbm := by
  simp [ringOn, writeWake, writeSqHead, modRing_eq]

@[simp] theorem ringOn_cmds (s : State) (r : Nat) : (ringOn s r).cmds = s.cmds := by
  simp [ringOn, writeWake, writeSqHead, modRing_eq]

@[simp] theorem ringOn_ringSel (s : State) (r : Nat) : (ringOn s r).hq.ringSel = s.hq.ringSel := by
  simp [ringOn, writeWake, writeSqHead, modRing_eq]

/-- A ring that goes ON writes SQ_HEAD 0 and WAKE_NEEDED 1 into its control block. -/
theorem ringOn_host (s : State) (r : Nat) : (ringOn s r).host =
    putBytes (putBytes s.host ((ringOf s r).ctrlBase + 8) [0, 0, 0, 0]) ((ringOf s r).ctrlBase + 16) [1, 0, 0, 0] := by
  have hzero : bvToBytes 4 (0 : BitVec 17) = [0, 0, 0, 0] := by decide
  rw [← hzero]
  simp only [ringOn, writeWake, writeSqHead, modRing_eq, ringOf_setRing, ringOf_hostWrite]
  rfl

/-! ### ENABLE (R367, R443, R496) -/

variable {t : State} {on : Bool}

/-- A commit of ENABLE alone leaves what the write of ENABLE leaves, but for the stage: one that selects the ring holds its contents. -/
theorem commitEnable_frame (ht : setRingEnable s r on = t) (hsel : t.hq.ringSel = s.hq.ringSel) :
    ringOf (commitEnable s r on) r = ringOf t r ∧ (commitEnable s r on).host = t.host ∧ (commitEnable s r on).hbm = t.hbm
      ∧ (commitEnable s r on).cmds = t.cmds
      ∧ (s.hq.ringSel.toNat = r → (commitEnable s r on).hq.stage = (ringOf (commitEnable s r on) r).cfg) := by
  subst ht
  rw [← hsel]
  unfold commitEnable
  dsimp only
  split
  · exact ⟨rfl, rfl, rfl, rfl, fun _ => rfl⟩
  next h => exact ⟨rfl, rfl, rfl, rfl, fun hr => absurd hr h⟩

/-- The ring with its ENABLE written. -/
def enableWritten (s : State) (r : Nat) (on : Bool) : State :=
  setRing s r { ringOf s r with cfg := setField (ringOf s r).cfg 384 1 (if on then 1 else 0) }

@[simp] theorem ringOf_enableWritten (s : State) (r : Nat) (on : Bool) : ringOf (enableWritten s r on) r =
    { ringOf s r with cfg := setField (ringOf s r).cfg 384 1 (if on then 1 else 0) } := ringOf_setRing ..

@[simp] theorem enableWritten_host (s : State) (r : Nat) (on : Bool) : (enableWritten s r on).host = s.host := rfl
@[simp] theorem enableWritten_hbm (s : State) (r : Nat) (on : Bool) : (enableWritten s r on).hbm = s.hbm := rfl
@[simp] theorem enableWritten_cmds (s : State) (r : Nat) (on : Bool) : (enableWritten s r on).cmds = s.cmds := rfl
@[simp] theorem enableWritten_ringSel (s : State) (r : Nat) (on : Bool) :
    (enableWritten s r on).hq.ringSel = s.hq.ringSel := rfl

/-- An OFF ring that is enabled goes ON. -/
theorem setRingEnable_off (h : (ringOf s r).state = .off) : setRingEnable s r true = ringOn (enableWritten s r true) r := by
  simp only [setRingEnable, enableWritten, modRing_eq, ringOf_setRing, h, if_true]

/-- An enable of a ring that drains is held. -/
theorem setRingEnable_draining (h : (ringOf s r).state = .draining) : setRingEnable s r true =
    setRing (enableWritten s r true) r { ringOf (enableWritten s r true) r with enableHeld := true } := by
  simp only [setRingEnable, enableWritten, modRing_eq, ringOf_setRing, h, if_true]

/-- A ring's control block lies where it lay. -/
theorem ctrlBase_enableWritten (s : State) (r : Nat) (on : Bool) :
    (ringOf (enableWritten s r on) r).ctrlBase = (ringOf s r).ctrlBase := by
  rw [ringOf_enableWritten]
  exact congrArg BitVec.toNat (field_setField_apart _ _ (.inl (by decide)))

/-- The drain of a ring with nothing left ends OFF, and ON where an enable is held. -/
theorem drainRing_empty (hd : (ringOf s r).state = .draining) (he : ringEmpty s r = true) : drainRing s r =
    if (ringOf s r).enableHeld then ringOn (setRing s r { ringOf s r with state := .off, enableHeld := false }) r
    else setRing s r { ringOf s r with state := .off, enableHeld := false } := by
  simp only [drainRing, hd, he, bne_self_eq_false, Bool.not_true, Bool.or_self, Bool.false_eq_true, if_false]

/-! ### A disable with nothing to abort (R442, R443) -/

section Disables

variable (hf : (ringOf s r).fetched = [])
    (hc : ∀ c ∈ s.cmds, c.ring = r → c.origin = none → c.phase ≠ .waiting ∧ c.phase ≠ .issued)

include hf hc

/-- Commands of a ring that have all started, and no fetched slot: there is nothing to abort. -/
theorem abortUnstarted_none : abortUnstarted s r = s := by
  have hfold : s.cmds.foldl (fun s c => if c.ring == r && c.origin.isNone && (c.phase == .waiting || c.phase == .issued)
      then failCmd s c.uid .aborted else s) s = s := by
    refine foldl_eq_self fun c hmem => if_neg fun h => ?_
    simp only [Bool.and_eq_true, Bool.or_eq_true, beq_iff_eq, Option.isNone_iff_eq_none] at h
    obtain ⟨⟨hr, ho⟩, hp⟩ := h
    obtain ⟨hw, hi⟩ := hc c hmem hr ho
    exact hp.elim hw hi
  rw [abortUnstarted, hfold, hf]
  rfl

/-- A ring that is ON or in ERROR, with nothing to abort, begins to drain. -/
theorem ringOff_drains (hs : (ringOf s r).state = .on ∨ (ringOf s r).state = .error) :
    ringOff s r = setRing s r { ringOf s r with state := .draining, enableHeld := false, cause := 0 } := by
  have hnone := abortUnstarted_none (s := setRing s r { ringOf s r with state := .draining, enableHeld := false, cause := 0 })
    (r := r) (by rw [ringOf_setRing]; exact hf) hc
  obtain hs | hs := hs <;> simp only [ringOff, hs, hnone]

/-- A ring that is ON or in ERROR, with nothing to abort, begins to drain when it is disabled. -/
theorem setRingEnable_drains (hs : (ringOf s r).state = .on ∨ (ringOf s r).state = .error) :
    setRingEnable s r false = setRing (enableWritten s r false) r
      { ringOf (enableWritten s r false) r with state := .draining, enableHeld := false, cause := 0 } := by
  have hring := ringOf_enableWritten s r false
  exact ringOff_drains (s := enableWritten s r false) (by rw [hring]; exact hf) hc (by rw [hring]; exact hs)

end Disables

end States

/-! ### Selectors (R366) -/

/-- A VF that selects another slot loads the contents of the ring there. -/
theorem selectRing_vf {s : State} {f : Nat} {ix : BitVec 12} (hf : f ≠ 0) (hs : (vfOf s f).select ≠ ix) :
    selectRing s f ix = setRingStage (setVf s f { vfOf s f with select := ix }) f (loadedRing s f ix.toNat) :=
  (if_neg hf).trans (if_neg hs)

end Sys2Proof.Laws
end

section
/-!
PROOF. Slots fetched, their checks and issue, and the records of completed commands (R367, R369, R370, R373, R377 to R379, R385, R387,
R408, R428, R441, R442).
-/
namespace Sys2Proof.Proofs

open Sys2Proof Sys2Proof.Machine Sys2Proof.Laws Sys2Proof.Claims

/-- Settles O13: the slots by induction on their number, and a read by whether it is the one that fails. -/
theorem fetchTakesEverySlot : Obligations.FetchTakesEverySlot := by
  refine ⟨fun n s r h => ?slots, fun n s r ahead m t ha ht hm h0 => ?reads, fun n s r ahead ha => fetchReads_fails ha⟩
  case slots =>
    obtain ⟨hf, hh, hhost, hhbm, hcmds⟩ := fetchSlots_takes h
    exact ⟨hf, hh, hhost, hhbm, hcmds⟩
  case reads => exact ⟨fetchReads_reads ha (by simp) ht hm h0, fun k => fetchReads_reads ha (by simp) ht hm h0⟩

/-- COMMAND_FETCH of a ring whose wait list has room takes the next slot. -/
theorem exec_commandFetch_room {s : State} {r : RingIx} (hw : waitList s r.val < 64) (hm : isMember s = false) :
    exec (.commandFetch r) s = .next (fetchHead s r.val) :=
  congrArg Host.Outcome.next (if_pos (by simp [hw, hm]))

/-- Settles O14, clause by clause: the verdict on the slot, its module, its dies and its waits. -/
theorem fetchedCommandsIssue : Obligations.FetchedCommandsIssue := by
  intro s r c t hw hm ha
  rw [exec_commandFetch_room hw hm]
  refine ⟨fun st off hv => congrArg Host.Outcome.next (fetchHead_refused ha hv), fun hv hplaced => ?placed,
    fun hv hhere hfailed => ?aborted, fun hv hhere hdies hwaits => ?issued⟩
  case placed => rw [fetchHead_accepted ha hv, if_pos (bne_iff_ne.2 hplaced)]
  case aborted =>
    have hany : (diesOf c.dies).any (dieFailed t) = true := List.any_eq_true.2 hfailed
    simp only [fetchHead_accepted ha hv, hhere, hany, bne_self_eq_false, Bool.false_eq_true, if_false, if_true]
  case issued =>
    have hany : (diesOf c.dies).any (dieFailed t) = false := List.any_eq_false.2 fun d hd => by simp [hdies d hd]
    simp only [fetchHead_accepted ha hv, hhere, hany, bne_self_eq_false, Bool.false_eq_true, if_false,
      recheckHeader_noWaits hwaits]

section Posts

variable {s : State} {r : RingIx} {c c' : Cmd}

/-- COMPLETION_POST of a finished command whose record fits or is discarded, once its husk is cleared. -/
theorem exec_completionPost_posts (hn : nextPost s r.val = some c) (hf : c.phase = .finished)
    (ho : (ringOf s r.val).state = .on ∨ (ringOf s r.val).state = .draining)
    (hh : completionHeld s r.val = false ∨ discards s r.val = true) (hm : isMember s = false)
    (hp : mayPost (clearHusk s c) c.uid = true) (hc : findCmd (clearHusk s c) c.uid = some c') :
    exec (.completionPost r false) s = .next (postCompletion (clearHusk s c) r.val c') := by
  have hserves : ((ringOf s r.val).state == .on || (ringOf s r.val).state == .draining) = true := by simpa using ho
  have hroom : (completionHeld s r.val && !discards s r.val) = false := by obtain hh | hh := hh <;> simp [hh]
  have hfin : finishedCmd c = true := beq_iff_eq.2 hf
  show execCompletionPost r false s = _
  simp [execCompletionPost, hn, hm, hfin, hserves, hroom, hp, hc]

/-- CQ_HEAD_RECHECK of a full ring takes a head that names one of its entries and does not run ahead of what was written. -/
theorem exec_cqHeadRecheck_valid {h : BitVec 17} (ho : (ringOf s r.val).state = .on ∨ (ringOf s r.val).state = .draining)
    (hheld : completionHeld s r.val = true) (hm : isMember s = false)
    (hread : h = bytesToBv 17 (hostRead s ((ringOf s r.val).ctrlBase + 12) 4))
    (hin : fieldN h 0 16 < (ringOf s r.val).cqSize) (hle : ixDist (ringOf s r.val).cqSize h (ringOf s r.val).cqHead
      ≤ ixDist (ringOf s r.val).cqSize (ringOf s r.val).cqNext (ringOf s r.val).cqHead) :
    exec (.cqHeadRecheck r false) s = .next (setRing s r.val { ringOf s r.val with cqHead := h }) := by
  have hserves : ((ringOf s r.val).state == .on || (ringOf s r.val).state == .draining) = true := by simpa using ho
  show execCqHeadRecheck r false s = _
  simp [execCqHeadRecheck, hserves, hheld, hm, readCqHead, ← hread, hin, hle]

/-- IRQ_DELAY_EXPIRE of a ring whose delay has passed since the first record that its message is to tell of. -/
theorem exec_irqDelayExpire_due (he : (ringOf s r.val).irqEn = true) (hd : (ringOf s r.val).irqDelay ≠ 0)
    (hp : (ringOf s r.val).irqPending ≠ 0) (hl : (ringOf s r.val).irqDelay ≤ elapsed s.time.now (ringOf s r.val).irqFirst) :
    exec (.irqDelayExpire r) s = .next (sendRingIrq s r.val) :=
  congrArg Host.Outcome.next (if_pos (by simp [he, hd, hp, hl]))

end Posts

/-- Settles O16, clause by clause: the post by the husk, the record by the function's drain, and what a record leaves by the write of
it and its count. -/
theorem completionRowsComplete : Obligations.CompletionRowsComplete := by
  refine ⟨fun s r c hn hf ho hh hm => ⟨fun hhusk hout hc => ?noHusk, fun t c' ht hp hc => ?cleared⟩,
    fun s r c h => writeRecord_discards h, fun s r c hfn hpf => ?written,
    fun s r h ho hheld hm hread hin hle => exec_cqHeadRecheck_valid ho hheld hm hread hin hle,
    fun s r he hd hp hl => exec_irqDelayExpire_due he hd hp hl⟩
  case noHusk =>
    have hclear : clearHusk s c = s := clearHusk_noHusk hhusk
    have hpost := exec_completionPost_posts (c' := c) hn hf ho hh hm
    rw [hclear] at hpost
    exact hpost (mayPost_noHusk hc hhusk hout) hc
  case cleared =>
    subst ht
    exact exec_completionPost_posts hn hf ho hh hm hp hc
  case written =>
    have hkept : discards s r = false := by rw [discards, hfn, hpf]; rfl
    obtain ⟨hhost, hhbm, hcmds, hnext⟩ := writeRecord_sameEntries (c := c) hkept
    rw [setRing_host, hostWrite_host] at hhost
    rw [setRing_hbm, hostWrite_hbm] at hhbm
    rw [setRing_cmds, hostWrite_cmds] at hcmds
    rw [ringOf_setRing] at hnext
    exact ⟨hhost, hnext, hhbm, hcmds⟩

end Sys2Proof.Proofs
end

section
/-!
PROOF. Rings are enabled and disabled, and selectors load their stages (R366, R367, R442, R443, R496).
-/
namespace Sys2Proof.Proofs

open Sys2Proof Sys2Proof.Machine Sys2Proof.Laws Sys2Proof.Claims

/-- RING_ENABLE where set-up writes are performed. -/
theorem exec_ringEnable_open {s : State} {r : RingIx} (h : SetupOpen s) :
    exec (.ringEnable r) s = .next (commitEnable s r.val true) := congrArg Host.Outcome.next (setupWrite_open h)

/-- RING_DISABLE where set-up writes are performed. -/
theorem exec_ringDisable_open {s : State} {r : RingIx} (h : SetupOpen s) :
    exec (.ringDisable r) s = .next (commitEnable s r.val false) := congrArg Host.Outcome.next (setupWrite_open h)

/-- Settles O17, clause by clause: each enable, disable and end of a drain by the ring's state, and the stage by its selector. -/
theorem ringEnableAndDisable : Obligations.RingEnableAndDisable := by
  refine ⟨fun s r h hoff => ⟨_, exec_ringEnable_open h, ?goesOn⟩, fun s r h hd => ⟨_, exec_ringEnable_open h, ?held⟩,
    fun s r h hs hf hc => ⟨_, exec_ringDisable_open h, ?drains⟩,
    fun s r hd he hh => congrArg Host.Outcome.next ((drainRing_empty hd he).trans (if_neg (Bool.eq_false_iff.1 hh))),
    fun s r hd he hh => congrArg Host.Outcome.next ((drainRing_empty hd he).trans (if_pos hh))⟩
  case goesOn =>
    obtain ⟨hring, hhost, hhbm, hcmds, hstage⟩ := commitEnable_frame (setRingEnable_off hoff) (by simp)
    rw [ringOf_ringOn] at hring
    rw [ringOn_host, ctrlBase_enableWritten, enableWritten_host] at hhost
    rw [ringOn_hbm, enableWritten_hbm] at hhbm
    rw [ringOn_cmds, enableWritten_cmds] at hcmds
    rw [hring]
    exact ⟨rfl, rfl, rfl, rfl, hhost, hhbm, hcmds, fun hr => by rw [hstage hr, hring]⟩
  case held =>
    obtain ⟨hring, hhost, hhbm, hcmds, hstage⟩ := commitEnable_frame (setRingEnable_draining hd) (by simp)
    rw [ringOf_setRing, ringOf_enableWritten] at hring
    rw [hring]
    exact ⟨hd, rfl, hhost, hhbm, hcmds, fun hr => by rw [hstage hr, hring]⟩
  case drains =>
    obtain ⟨hring, hhost, hhbm, hcmds, hstage⟩ := commitEnable_frame (setRingEnable_drains hf hc hs) (by simp)
    rw [ringOf_setRing] at hring
    rw [hring]
    exact ⟨rfl, rfl, hhost, hhbm, hcmds, fun hr => by rw [hstage hr, hring]⟩

/-- STAGE_SELECT of a ring by a function that is there. -/
theorem exec_stageSelect_ring {s : State} {f : FuncIx} (ix : BitVec 12) (h : SetupOpen s)
    (hf : f.val = 0 ∨ (vfOf s f.val).enabled = true) :
    exec (.stageSelect (.ring f ix)) s = .next (selectRing s f.val ix) := by
  refine congrArg Host.Outcome.next ((if_neg ?_).trans (setupWrite_open h))
  obtain hf | hf := hf <;> simp [hf]

/-- Settles O19, clause by clause: whether the selection changes, and what the function's selector loads. -/
theorem stageSelectLoads : Obligations.StageSelectLoads := by
  refine ⟨fun s ix h hs => ?loads, fun s ix h hs => ?same, fun s f ix h hf he hs => ?vf, fun s ix h hs => ?window,
    fun s g m h hs => ?group⟩
  case loads => exact (exec_stageSelect_ring (f := 0) ix h (.inl rfl)).trans (congrArg Host.Outcome.next (if_neg hs))
  case same => exact (exec_stageSelect_ring (f := 0) ix h (.inl rfl)).trans (congrArg Host.Outcome.next (if_pos hs))
  case vf =>
    rw [exec_stageSelect_ring ix h (.inr he), selectRing_vf hf hs, setRingStage, if_neg hf, loadedRing, if_neg hf]
    rfl
  case window => exact congrArg Host.Outcome.next ((setupWrite_open h).trans (if_neg hs))
  case group =>
    have hother : ¬ (s.part.rgrpGroup = g && s.part.rgrpMember = m) = true := fun hb => by
      simp only [Bool.and_eq_true, decide_eq_true_eq] at hb
      exact hs.elim (fun hg => hg hb.1) fun hm => hm hb.2
    exact congrArg Host.Outcome.next ((setupWrite_open h).trans (if_neg hother))

end Sys2Proof.Proofs
end

section
/-!
PROOF. The queue of waiting commands.
-/
namespace Sys2Proof.Proofs

open Sys2Proof Sys2Proof.Machine Sys2Proof.Laws

/-- Settles O57: the queue is among what each instruction keeps. -/
theorem commandsLeaveTheQueue : Obligations.CommandsLeaveTheQueue := by
  intro c s t h
  obtain ⟨hqueue, -, -⟩ := keeps_exec (i := c) t h
  exact hqueue

end Sys2Proof.Proofs
end

section
/-!
PROOF. Memory at reset, and the commands that answer no next state (R447, R460, R493).
-/
namespace Sys2Proof.Proofs

open Sys2Proof Sys2Proof.Machine

/-- Settles O60: at reset no byte of host memory and no sector is listed. -/
theorem resetMemoryIsCanonical : Obligations.ResetMemoryIsCanonical := ⟨rfl, rfl⟩

/-- COLD_RESET answers a next state up to 60 V. -/
theorem exec_coldReset_answers {s : State} {x : PowerReturn} (h : returnMv x ≤ 60000) :
    ∃ t, exec (.coldReset x) s = .next t :=
  ⟨_, if_neg (Nat.not_lt.2 h)⟩

/-- GOVERNOR_EPOCH answers a next state up to 60 V. -/
theorem exec_governorEpoch_answers {s : State} {r : EpochReadings} (h : r.inputMv ≤ 60000) :
    ∃ t, exec (.governorEpoch r) s = .next t :=
  ⟨_, if_neg (Nat.not_lt.2 h)⟩

/-- Settles O58: of all commands only COLD_RESET and GOVERNOR_EPOCH carry an input voltage that may lie beyond 60 V; the meaning of
every other one is written as a next state. -/
theorem stopsOnlyBeyondRatings : Obligations.StopsOnlyBeyondRatings := by
  refine ⟨fun s x h => if_pos h, fun s r h => if_pos h, fun c s hcold hgov => ?answers⟩
  case answers =>
    cases c with
    | coldReset x => exact exec_coldReset_answers (hcold x rfl)
    | governorEpoch r => exact exec_governorEpoch_answers (hgov r rfl)
    | _ => exact ⟨_, rfl⟩

end Sys2Proof.Proofs
end

section
/-!
SUPPORT. Writes of the host that arrive at the module's own port, and resumptions that find nothing to resume (R398, R408, R466,
R475).
-/
namespace Sys2Proof.Laws

open Sys2Proof Sys2Proof.Machine

variable {s : State} {off v : Nat} {f : State → State}

/-- A set-up write that the module does not take is logged. -/
theorem setupWrite_closed (hu : hostUp s = true) (hc : s.pwr.stage ≠ 5 ∨ isMember s = true) :
    setupWrite s off v f = logIgnored s off (BitVec.ofNat 64 v) := by
  have hclosed : (isReady s && !isMember s) = false := by
    obtain hc | hc := hc
    · rw [isReady, beq_false_of_ne hc, Bool.false_and]
    · rw [hc, Bool.not_true, Bool.and_false]
  rw [setupWrite, hu, hclosed]
  rfl

/-- A write to ERR_ or TIME_ on a module that is its own anchor is performed. -/
theorem earlyWrite_own (hu : hostUp s = true) (hm : isMember s = false) : earlyWrite s off v f = f s := by
  rw [earlyWrite, hu, hm]
  rfl

/-- With nothing suspended nothing resumes. -/
theorem resumeAll_noneSuspended (h : ∀ c ∈ s.cmds, c.phase ≠ .suspended) : resumeAll s = s :=
  foldl_eq_self fun c hc => by
    obtain ⟨c', hc', hf⟩ := findCmd_of_mem hc
    have hno : mayResume s c' = false := by simp [mayResume, h c' hc']
    simp [hf, hno]

/-- Without commands nothing resumes. -/
theorem resumeAll_noCmds (h : s.cmds = []) : resumeAll s = s := resumeAll_noneSuspended (by simp [h])

/-- What is done with every command changes nothing where there is none. -/
theorem eachCmd_noCmds {g : State → Cmd → State} (h : s.cmds = []) : eachCmd s g = s := eachCmd_eq_self (by simp [h])

end Sys2Proof.Laws
end

section
/-!
PROOF. Suspension, release, eviction and the windows of the spool (R398, R405, R408, R409).
-/
namespace Sys2Proof.Proofs

open Sys2Proof Sys2Proof.Machine Sys2Proof.Laws Sys2Proof.Claims

section Preemption

variable {s : State} {tag : CtxTag} {action : BitVec 2} {off v : Nat}

/-- A write of PART_PREEMPT while the last action is in progress. -/
theorem writePreempt_busy (hb : preemptBusy s = true) :
    writePreempt s tag action true off v = logIgnored s off (BitVec.ofNat 64 v) := if_pos hb

/-- A write of PART_PREEMPT that begins an action. -/
theorem writePreempt_free (hb : preemptBusy s = false) : writePreempt s tag action true off v =
    match action.toNat with
    | 1 => suspendCtx { s with part := { s.part with preemptCtx := tag, preemptAction := action } } tag.toNat
    | 2 => releaseCtx { s with part := { s.part with preemptCtx := tag, preemptAction := action } } tag.toNat
    | 3 => evictCtx { s with part := { s.part with preemptCtx := tag, preemptAction := action } } tag.toNat
    | _ => { s with part := { s.part with preemptCtx := tag, preemptAction := action } } := by
  rw [writePreempt, if_neg (by simp [hb])]
  rfl

/-- SUSPEND of a context of a module without commands. -/
theorem suspendCtx_noCmds {n : Nat} (h : s.cmds = []) : suspendCtx s n =
    { s with part := { s.part with suspended := smSet false s.part.suspended n true, preempted := [] } } := by
  refine (eachCmd_noCmds (by exact h)).trans ?_
  rw [h]
  rfl

/-- RELEASE of a context of a module without commands. -/
theorem releaseCtx_noCmds {n : Nat} (h : s.cmds = []) : releaseCtx s n =
    { s with part := { s.part with suspended := smSet false s.part.suspended n false, preempted := [] } } := by
  refine (congrArg resumeAll (eachCmd_noCmds (by exact h))).trans ((resumeAll_noCmds (by exact h)).trans ?_)
  rw [h]
  rfl

/-- A change of windows that closes no started command's context and finds none suspended. -/
theorem windowChange_eq_self
    (h : ∀ c ∈ s.cmds, (c.phase = .started → runsHere c = true → ctxOpen s c = true) ∧ c.phase ≠ .suspended) :
    windowChange s = s := by
  have hopen : ∀ c ∈ s.cmds,
      (if c.phase == .started && runsHere c && !ctxOpen s c then requestSuspend s c else s) = s := fun c hc => by
    obtain ⟨ho, -⟩ := h c hc
    exact if_neg (by simpa using ho)
  rw [windowChange, eachCmd_eq_self hopen]
  exact resumeAll_noneSuspended fun c hc => (h c hc).2

end Preemption

/-- Settles O22, clause by clause: what an action does where none is in progress, and where one is. -/
theorem preemptionRowsComplete : Obligations.PreemptionRowsComplete := by
  refine ⟨fun s ctx h hb => ?free, fun s ctx h hb => ?busy, fun s tag h => suspendCtx_noCmds h,
    fun s tag h => releaseCtx_noCmds h, fun s => rfl, fun s h => windowChange_eq_self h⟩
  case free =>
    have hrow : ∀ {a : BitVec 2} {v : Nat}, setupWrite s 0x40030 v (fun s => writePreempt s ctx a true 0x40030 v) = _ :=
      (setupWrite_open h).trans (writePreempt_free hb)
    exact ⟨congrArg Host.Outcome.next hrow, congrArg Host.Outcome.next hrow, congrArg Host.Outcome.next hrow⟩
  case busy =>
    have hrow : ∀ {a : BitVec 2} {v : Nat}, setupWrite s 0x40030 v (fun s => writePreempt s ctx a true 0x40030 v) = _ :=
      (setupWrite_open h).trans (writePreempt_busy hb)
    exact ⟨congrArg Host.Outcome.next hrow, congrArg Host.Outcome.next hrow, congrArg Host.Outcome.next hrow⟩

end Sys2Proof.Proofs
end

section
/-!
PROOF. Set-up writes that a module does not take (R466, R475).
-/
namespace Sys2Proof.Proofs

open Sys2Proof Sys2Proof.Machine Sys2Proof.Laws

section Registers

variable {s : State} {f : FuncIx}

/-- Where a register of a die's HBM_ block, and of its DIE_ block, lies in BAR0. -/
theorem dieRegAt_hbm (d off : Nat) : dieRegAt d 1 off = 0x1010000 + off + d * 0x100000 := by
  rw [dieRegAt]
  omega

theorem dieRegAt_die (d off : Nat) : dieRegAt d 0 off = 0x1000000 + off + d * 0x100000 := by
  rw [dieRegAt]
  omega

/-- STAGE_SELECT of a ring by a function that is there is a set-up write. -/
theorem exec_stageSelect_ring_write (ix : BitVec 12) (hf : f.val = 0 ∨ (vfOf s f.val).enabled = true) :
    exec (.stageSelect (.ring f ix)) s =
      .next (setupWrite s (if f.val = 0 then regAt 3 0 else 0) ix.toNat (fun s => selectRing s f.val ix)) := by
  refine congrArg Host.Outcome.next (if_neg ?_)
  obtain hf | hf := hf <;> simp [hf]

/-- RING_CONFIG_COMMIT by a function that is there is a set-up write. -/
theorem exec_ringConfigCommit_write {off v : Nat} (hf : f.val = 0 ∨ (vfOf s f.val).enabled = true)
    (ho : (if f.val = 0 then regAt 3 0 else 0) = off)
    (hv : (if f.val = 0 then s.hq.ringSel.toNat else (vfOf s f.val).select.toNat) + 2 ^ 31 = v) :
    exec (.ringConfigCommit f) s = .next (setupWrite s off v (fun s => commitRing s f.val off v)) := by
  subst ho hv
  refine congrArg Host.Outcome.next (if_neg ?_)
  obtain hf | hf := hf <;> simp [hf]

end Registers

/-- Settles O25: each of these rows is a set-up write of its register, which the module does not take. -/
theorem setupClosedWritesAreLogged : Obligations.SetupClosedWritesAreLogged := by
  intro s hu hc
  have hlog : ∀ {off off' v v' : Nat} {f : State → State}, off = off' → v = v' →
      Host.Outcome.next (setupWrite s off v f) = (.next (logIgnored s off' (BitVec.ofNat 64 v')) :
        Host.Outcome State Fault Refusal) := fun ho hv => ho ▸ hv ▸ congrArg _ (setupWrite_closed hu hc)
  refine ⟨fun r => ⟨hlog rfl rfl, hlog rfl rfl⟩, fun ix => (exec_stageSelect_ring_write ix (.inl rfl)).trans (hlog rfl rfl),
    fun f ix hf he => ?vf, fun ix => hlog rfl rfl, fun g m => hlog rfl rfl,
    (exec_ringConfigCommit_write (.inl rfl) rfl rfl).trans (hlog rfl rfl), hlog rfl rfl, hlog rfl rfl,
    fun p => ⟨hlog rfl rfl, hlog rfl rfl, hlog rfl rfl⟩, fun p v => ⟨hlog rfl rfl, hlog ?key rfl⟩, fun m => hlog rfl rfl,
    fun ctx => ⟨hlog rfl rfl, hlog rfl rfl, hlog rfl rfl⟩,
    fun d => ⟨hlog rfl rfl, hlog rfl rfl, hlog (dieRegAt_hbm _ _) rfl⟩,
    fun d v => ⟨hlog (dieRegAt_hbm _ _) rfl, hlog (dieRegAt_die _ _) rfl⟩, fun d ch => hlog (dieRegAt_hbm _ _) rfl,
    fun p => ⟨hlog rfl rfl, hlog rfl rfl⟩, fun v => hlog rfl rfl⟩
  case vf =>
    exact ⟨(exec_stageSelect_ring_write ix (.inr he)).trans (hlog (if_neg hf) rfl),
      (exec_ringConfigCommit_write (.inr he) (if_neg hf) (congrArg (· + _) (if_neg hf))).trans (hlog rfl rfl)⟩
  case key =>
    rw [regAt]
    omega

end Sys2Proof.Proofs
end

section
/-!
PROOF. The error ring, its coalescing windows and its message, and the history in flash (R431, R434, R435, R438, R444, R445, R489).
-/
namespace Sys2Proof.Proofs

open Sys2Proof Sys2Proof.Machine Sys2Proof.Laws Sys2Proof.Claims

section ErrorRing

variable {s : State}

/-- A window's end passes over the trackers without repeats. -/
theorem endCoalWindow_eq : endCoalWindow s = (s.err.trackers.filter (fun t => t.count ≠ 0)).foldl
    (fun s t => createRecord s (trackerRec s t) true)
    { s with err := { s.err with trackers := [], coalLog2 := coalAfter s, coalBegan := s.time.now } } := by
  rw [List.foldl_filter, endCoalWindow]
  congr 1
  funext t x
  by_cases hx : x.count = 0 <;> simp [hx]

/-- ERR_HEAD_REREAD while a record is held or a summary pending. -/
theorem exec_errHeadReread_waits (he : errEnabled s = true) (hm : isMember s = false)
    (h : s.err.held ≠ [] ∨ s.err.summary ≠ none) : exec .errHeadReread s = .next (errFlush (errReadHead s)) := by
  have hwaits : (!s.err.held.isEmpty || s.err.summary.isSome) = true := by
    obtain h | h := h
    · rw [List.isEmpty_eq_false_iff.2 h]
      rfl
    · rw [Option.isSome_iff_ne_none.2 h, Bool.or_true]
  exact congrArg Host.Outcome.next (if_pos (by rw [he, hm, hwaits]; rfl))

/-- An MSI-X message of a vector that is not masked is sent. -/
theorem sendMsix_unmasked {fn vec : Nat} (h : smGet true s.hq.msixMasked (fn * 2048 + vec) = false) :
    sendMsix s fn vec = { s with io := { s.io with msix := s.io.msix ++ [(fn, vec)] } } := if_neg (by simp [h])

/-- The last message, if there was one, lies 2^10 ticks back. -/
theorem errIrqDue (h : ∀ t, s.err.irqLast = some t → 1024 ≤ since s.time.now t) :
    s.err.irqLast.elim true (fun t => decide (1024 ≤ since s.time.now t)) = true := by
  cases hl : s.err.irqLast with
  | none => rfl
  | some t => exact decide_eq_true (h t hl)

/-- ERR_IRQ when the message is due. -/
theorem exec_errIrq_due (he : errEnabled s = true) (hirq : bit s.err.cfg 27 = true) (howed : s.err.irqOwed ≠ 0)
    (hlast : ∀ t, s.err.irqLast = some t → 1024 ≤ since s.time.now t)
    (hmask : smGet true s.hq.msixMasked (fieldN s.err.cfg 16 11) = false) :
    exec .errIrq s = .next { s with
      err := { s.err with irqOwed := 0, irqLast := some s.time.now }
      io := { s.io with msix := s.io.msix ++ [(0, fieldN s.err.cfg 16 11)] } } := by
  have hdue := errIrqDue hlast
  have hsend := sendMsix_unmasked (s := s) (fn := 0) (vec := fieldN s.err.cfg 16 11) (by rwa [Nat.zero_mul, Nat.zero_add])
  show execErrIrq s = _
  simp [execErrIrq, he, hirq, howed, hdue, hsend]

end ErrorRing

/-- Settles O36, clause by clause: the ring's switches, what waits for its head, a window's end, and the message that is due. -/
theorem errorRingRowsComplete : Obligations.ErrorRingRowsComplete := by
  refine ⟨fun s hu hm he => ?enable, fun s hu hm => congrArg Host.Outcome.next (earlyWrite_own hu hm),
    fun s he hm h => exec_errHeadReread_waits he hm h, fun s h => ?boundary, fun s hold hnew => ?within,
    fun s he hirq howed hlast hmask => exec_errIrq_due he hirq howed hlast hmask⟩
  case enable => exact congrArg Host.Outcome.next ((earlyWrite_own hu hm).trans (if_neg (by simp [he])))
  case boundary =>
    rw [← endCoalWindow_eq]
    exact congrArg Host.Outcome.next (if_pos (epochEnds_iff.2 h.symm))
  case within => exact congrArg Host.Outcome.next (if_neg (mt epochEnds_iff.1 (not_or.2 ⟨hnew, hold⟩)))

section History

variable {s : State} {w : HistWrite} {ws : List HistWrite}

/-- FLASH_HISTORY_WRITE while the history is programmed: its oldest write leaves the queue, and the flash takes it or fails. -/
theorem exec_flashHistoryWrite_runs (failedAt : Option W64) (hq : s.flash.queue = w :: ws) (hi : s.pwr.inhibit = false)
    (hr : s.pwr.running = true) (he : s.pwr.spiEnN = true) :
    exec (.flashHistoryWrite failedAt) s = .next (match failedAt with
      | none => programHistory { s with flash := { s.flash with queue := ws } } w
      | some a => logEvent { s with flash := { s.flash with queue := ws } } evFlashFailed 0 a 0) := by
  have hmay : (s.pwr.inhibit || !s.pwr.running || !s.pwr.spiEnN) = false := by rw [hi, hr, he]; rfl
  show execFlashHistoryWrite failedAt s = _
  simp only [execFlashHistoryWrite, hq, hmay]
  rfl

/-- FLASH_HISTORY_WRITE under the inhibit, or while the management controller does not run. -/
theorem exec_flashHistoryWrite_held (failedAt : Option W64)
    (h : s.pwr.inhibit = true ∨ s.pwr.running = false ∨ s.pwr.spiEnN = false) :
    exec (.flashHistoryWrite failedAt) s = .next s := by
  have hheld : (s.pwr.inhibit || !s.pwr.running || !s.pwr.spiEnN) = true := by
    obtain h | h | h := h <;> simp [h]
  show execFlashHistoryWrite failedAt s = _
  rw [execFlashHistoryWrite]
  cases s.flash.queue with
  | nil => rfl
  | cons w ws => exact congrArg Host.Outcome.next (if_pos hheld)

end History

/-- Settles O38, clause by clause: whether the history is programmed, and whether the flash takes the write. -/
theorem flashRowsComplete : Obligations.FlashRowsComplete :=
  ⟨fun _ _ _ hq hi hr he => exec_flashHistoryWrite_runs none hq hi hr he,
    fun _ _ _ a hq hi hr he => exec_flashHistoryWrite_runs (some a) hq hi hr he,
    fun _ fa h => exec_flashHistoryWrite_held fa h, fun _ hu hm => congrArg Host.Outcome.next (earlyWrite_own hu hm)⟩

end Sys2Proof.Proofs
end

section
/-!
PROOF. The commands of the shelf, and RETEST (R444, R446, R451, R459, R492).
-/
namespace Sys2Proof.Proofs

open Sys2Proof Sys2Proof.Machine

section Shelf

variable {s : State}

/-- POWER_ON after a shutdown of cause 1 or 2 restarts the module. -/
theorem exec_powerOn_restarts (hr : s.pwr.running = false) (hp : s.pwr.presN = true)
    (hc : s.pwr.lastCause = 1 ∨ s.pwr.lastCause = 2) :
    exec .powerOn s = .next (answer (coldReset s s.pwr.inputMv.toNat) .none) := by
  have hcause : (s.pwr.lastCause == 1 || s.pwr.lastCause == 2) = true := by simpa using hc
  exact congrArg (fun t => Host.Outcome.next (answer t .none)) (if_pos (by rw [hr, hp, hcause]; rfl))

/-- POWER_ON of a module that runs. -/
theorem exec_powerOn_runs (hr : s.pwr.running = true) : exec .powerOn s = .next (answer s .none) :=
  congrArg (fun t => Host.Outcome.next (answer t .none)) (if_neg (by simp [hr]))

/-- Which limits the shelf may set. -/
theorem limitOk_iff {w : Nat} : limitOk w = true ↔ w = 0 ∨ (1200 ≤ w ∧ w ≤ 2000) := by
  simp [limitOk]

/-- SET_LIMIT of a limit that the shelf may set. -/
theorem exec_setLimit_ok {w : Nat} (hc : controllerOn s = true) (hw : limitOk w = true) :
    exec (.setLimit (.limit w)) s = .next (answer
      { s with pwr := { s.pwr with shelfLimitW := BitVec.ofNat 11 (if w = 0 then 2000 else w) } } .none) :=
  congrArg Host.Outcome.next (if_neg (by simp [hc, hw]))

/-- SET_LIMIT of another limit. -/
theorem exec_setLimit_refused {w : Nat} (hw : limitOk w = false) :
    exec (.setLimit (.limit w)) s = .next (answer s .nack) := congrArg Host.Outcome.next (if_pos (by simp [hw]))

/-- HIST_READ of a part that the history has. -/
theorem exec_histRead_part {sel : BitVec 16} (hc : controllerOn s = true) (hp : fieldN sel 0 2 ≠ 3)
    (hb : bit sel 15 = false) : exec (.histRead sel) s =
      .next (answer s (.bytes (bvToBytes 64 (historyEntry s (fieldN sel 0 2) (fieldN sel 2 13))))) :=
  congrArg Host.Outcome.next (if_neg (by simp [hc, hp, hb]))

end Shelf

/-- Settles O45, clause by clause: whether the management controller answers, and what the shelf asks for. -/
theorem shelfRowsComplete : Obligations.ShelfRowsComplete := by
  refine ⟨fun s hc => congrArg Host.Outcome.next (if_pos hc), fun s hc => congrArg Host.Outcome.next (if_neg (by simp [hc])),
    fun s hr hp hc => exec_powerOn_restarts hr hp hc, fun s hr => exec_powerOn_runs hr, fun s w hc hlo hhi => ?limit,
    fun s hc => exec_setLimit_ok hc rfl, fun s w h0 hw => ?refused, fun s => rfl, fun s => rfl,
    fun s sel hc hp hb => exec_histRead_part hc hp hb, fun s v hu => congrArg Host.Outcome.next (if_pos hu)⟩
  case limit =>
    have h0 : w ≠ 0 := by omega
    rw [exec_setLimit_ok hc (limitOk_iff.2 (.inr ⟨hlo, hhi⟩)), if_neg h0]
  case refused =>
    refine exec_setLimit_refused (Bool.eq_false_iff.2 fun h => ?_)
    have hok := limitOk_iff.1 h
    omega

end Sys2Proof.Proofs
end

section
/-!
PROOF. Power-on counts as the end of a sag (R448, R449).
-/
namespace Sys2Proof.Proofs

open Sys2Proof Sys2Proof.Machine Sys2Proof.Claims

section Supply

variable {s : State} {n : Nat}

/-- The model's check of a held input is the statements' `HeldFor`. -/
theorem inputHeld_iff : inputHeld s n = true ↔ HeldFor s n := decide_eq_true_iff

/-- COLD_RESET where power is applied within the operating range to a module that is without power or runs. -/
theorem exec_coldReset_applied {mv : Nat} (hlo : 40000 ≤ mv) (hhi : mv ≤ 60000)
    (h : s.pwr.running = true ∨ s.pwr.presN = false) : exec (.coldReset (.applied mv)) s = .next (coldReset s mv) := by
  have happly : applyPower s mv = coldReset s mv := if_neg (by
    obtain h | h := h <;> simp [h, hlo])
  exact (if_neg (Nat.not_lt.2 hhi)).trans (congrArg Host.Outcome.next happly)

/-- When SAG_INHIBIT_LIFT is due. -/
theorem inhibitLift_due (hr : s.pwr.running = true) (hi : s.pwr.inhibit = true) (hc : s.pwr.clamp = false)
    (hh : HeldFor s 104858) : ¬ (!s.pwr.running || !s.pwr.inhibit || s.pwr.clamp || !inputHeld s 104858) = true := by
  simp [hr, hi, hc, inputHeld_iff.2 hh]

/-- SAG_INHIBIT_LIFT after power-on: the inhibit lifts and nothing is logged. -/
theorem exec_sagInhibitLift_powerOn (hr : s.pwr.running = true) (hi : s.pwr.inhibit = true) (hc : s.pwr.clamp = false)
    (hh : HeldFor s 104858) (hx : s.pwr.sagSince = none) :
    exec .sagInhibitLift s = .next { s with pwr := { s.pwr with inhibit := false } } := by
  show execSagInhibitLift s = _
  rw [execSagInhibitLift, if_neg (inhibitLift_due hr hi hc hh)]
  simp only [hx]

/-- SAG_INHIBIT_LIFT after a sag: its record gives how long it lasted. -/
theorem exec_sagInhibitLift_sag {x : Tick} (hr : s.pwr.running = true) (hi : s.pwr.inhibit = true) (hc : s.pwr.clamp = false)
    (hh : HeldFor s 104858) (hx : s.pwr.sagSince = some x) :
    exec .sagInhibitLift s = .next (logEvent { s with pwr := { s.pwr with inhibit := false, sagSince := none } }
      evSagCleared 0 (BitVec.ofNat 64 (since s.time.now x)) 0) := by
  show execSagInhibitLift s = _
  rw [execSagInhibitLift, if_neg (inhibitLift_due hr hi hc hh)]
  simp only [hx]

/-- SAG_INHIBIT_LIFT under the clamp, or before the input has held long enough. -/
theorem exec_sagInhibitLift_early (h : s.pwr.clamp = true ∨ ¬ HeldFor s 104858) : exec .sagInhibitLift s = .next s := by
  refine congrArg Host.Outcome.next (if_pos ?_)
  obtain h | h := h
  · simp [h]
  · simp [Bool.eq_false_iff.2 (mt inputHeld_iff.1 h)]

end Supply

/-- Settles O39, clause by clause: what power-on leaves, and when the clamp and the inhibit lift. -/
theorem powerOnCountsAsASag : Obligations.PowerOnCountsAsASag := by
  refine ⟨⟨rfl, rfl, rfl, rfl, rfl⟩,
    fun s mv hlo hhi h => ⟨_, exec_coldReset_applied hlo hhi h, rfl, rfl, rfl, rfl, rfl, rfl⟩, fun s hr hc hh => ?clamp,
    fun s hh => ?early, fun s hr hi hc hh hx => exec_sagInhibitLift_powerOn hr hi hc hh hx,
    fun s x hr hi hc hh hx => exec_sagInhibitLift_sag hr hi hc hh hx,
    fun s h => exec_sagInhibitLift_early h⟩
  case clamp => exact congrArg Host.Outcome.next (if_pos (by rw [hr, hc, inputHeld_iff.2 hh]; rfl))
  case early => exact congrArg Host.Outcome.next (if_neg (by simp [Bool.eq_false_iff.2 (mt inputHeld_iff.1 hh)]))

end Sys2Proof.Proofs
end

section
/-!
SUPPORT. What a key of a sparse map reads as once values of the map have been changed.
-/
namespace Sys2Proof.Laws

open Sys2Proof Sys2Proof.Machine

/-- What holds of the default and of every changed value holds of each key whose values are changed. -/
theorem smGet_smMap_of {α : Type} [DecidableEq α] {d : α} {P : α → Prop} {p : Nat → Bool} {f : α → α} {k : Nat}
    (hk : p k = true) (hd : P d) (hf : ∀ v, P (f v)) (m : SMap α) : P (smGet d (smMap d p f m) k) := by
  induction m with
  | nil => exact hd
  | cons x m ih =>
    obtain ⟨i, v⟩ := x
    by_cases hv : (if p i then f v else v) = d
    · have hdrop : smMap d p f ((i, v) :: m) = smMap d p f m := by
        rw [smMap, List.map_cons, List.filter_cons_of_neg (by simpa using hv)]
        rfl
      rw [hdrop]
      exact ih
    · have hkeep : smMap d p f ((i, v) :: m) = (i, if p i then f v else v) :: smMap d p f m := by
        rw [smMap, List.map_cons, List.filter_cons_of_pos (by simpa using hv)]
        rfl
      rw [hkeep, smGet]
      split
      next hi => rw [← hi, hk, if_pos rfl]; exact hf v
      next => exact ih

end Sys2Proof.Laws
end

section
/-!
PROOF. Dies go OFF and ON (R460, R461).
-/
namespace Sys2Proof.Proofs

open Sys2Proof Sys2Proof.Machine Sys2Proof.Laws

section Dies

variable {s : State} {d : Nat}

/-- What a change of a die's power state makes of it. -/
theorem pwrDieOf_modPwrDie (f : PwrDie → PwrDie) : pwrDieOf (modPwrDie s d f) d = f (pwrDieOf s d) :=
  pwrDieOf_setPwrDie s d _

/-- A die that begins to go OFF reads CHANGING, with OFF as written. -/
theorem pwrDieOf_takeDieOff :
    (pwrDieOf (takeDieOff s d) d).state = 2 ∧ (pwrDieOf (takeDieOff s d) d).off = true := by
  rw [takeDieOff, pwrDieOf_modPwrDie]
  exact ⟨rfl, rfl⟩

/-- Its stacks enter self refresh. -/
theorem dieOf_takeDieOff : (dieOf (takeDieOff s d) d).selfRefresh = true := by
  rw [takeDieOff, modPwrDie, dieOf_setPwrDie, modDie, dieOf_setDie]

section Writes

variable {d : DieIx}

/-- DIE_OFF of a die of no partition. -/
theorem exec_dieOff_free (hu : hostUp s = true) (hp : partOfDie s d.val = none) (ho : (pwrDieOf s d.val).off = false) :
    exec (.dieOff d) s = .next
      (if (pwrDieOf s d.val).state == 3 then modPwrDie s d.val (fun x => { x with off := true })
        else if (pwrDieOf s d.val).state == 2 then modPwrDie s d.val (fun x => { x with off := true, held := !x.held })
        else takeDieOff s d.val) := by
  show execDieOff d s = _
  rw [execDieOff, if_pos hu, writeDieOff]
  simp only [hp, ho]
  rfl

/-- DIE_OFF of a die of a partition. -/
theorem exec_dieOff_used {p : Nat} (hu : hostUp s = true) (hp : partOfDie s d.val = some p) :
    exec (.dieOff d) s = .next (logIgnored s 0x10018 (BitVec.ofNat 64 (256 + (pwrDieOf s d.val).cap.toNat))) :=
  congrArg Host.Outcome.next ((if_pos hu).trans (if_pos (by rw [hp]; rfl)))

/-- DIE_ON of a die that is OFF, or told to go OFF. -/
theorem exec_dieOn_off (hu : hostUp s = true) (ho : (pwrDieOf s d.val).off = true) :
    exec (.dieOn d) s = .next
      (if (pwrDieOf s d.val).state == 3 then modPwrDie s d.val (fun x => { x with off := false })
        else if (pwrDieOf s d.val).state == 2 then modPwrDie s d.val (fun x => { x with off := false, held := !x.held })
        else bringDieUp s d.val) := by
  show execDieOn d s = _
  rw [execDieOn, if_pos hu, writeDieOn]
  simp only [ho]
  rfl

end Writes

/-- The clusters of a die whose change to OFF has ended. -/
def darkClusters (s : State) (d : Nat) : SMap Cluster :=
  smMap Cluster.dflt (fun k => k / 8192 == d)
    (fun c => { c with words := [], written := [], signals := [], tile := none, shadow := none }) s.clusters

/-- The end of a change to OFF, without a held write. -/
theorem endDieOff_dark (hs : (pwrDieOf s d).state = 2) (ho : (pwrDieOf s d).off = true) (hh : (pwrDieOf s d).held = false) :
    endDieOff s d = modPwrDie { s with clusters := darkClusters s d } d (fun x => { x with state := 0, held := false }) := by
  have hgoing : goingOff (pwrDieOf s d) = true := by simp [goingOff, hs, ho, hh]
  simp only [endDieOff, hgoing, hh]
  rfl

/-- A cluster without power holds nothing. -/
theorem darkClusters_empty {k : Nat} (hk : k < 8192) :
    (smGet Cluster.dflt (darkClusters s d) (d * 8192 + k)).words = []
      ∧ (smGet Cluster.dflt (darkClusters s d) (d * 8192 + k)).tile = none := by
  have hdie : (d * 8192 + k) / 8192 = d := by omega
  exact smGet_smMap_of (P := fun c : Cluster => c.words = [] ∧ c.tile = none) (p := fun k => k / 8192 == d)
    (beq_iff_eq.2 hdie) ⟨rfl, rfl⟩ (fun _ => ⟨rfl, rfl⟩) s.clusters

end Dies

/-- Settles O42, clause by clause: by the die's partition and state, and by the end of its change. -/
theorem diesGoOffAndOn : Obligations.DiesGoOffAndOn := by
  refine ⟨fun s d hu hp ho => ⟨fun h3 h2 => ?goes, fun h2 => ?cancels, fun h3 => ?keeps⟩,
    fun s d p hu hp => exec_dieOff_used hu hp,
    fun s d hu ho => ⟨fun h2 => ?heldOn, fun h3 => ?failedOn, fun h2 h3 => ?up⟩, fun s d hu ho => ?isOn,
    fun s d hs ho hh => ?ends, fun s d hg => ?stays⟩
  case goes =>
    rw [exec_dieOff_free hu hp ho, if_neg (by simpa using h3), if_neg (by simpa using h2)]
    obtain ⟨hstate, hoff⟩ := pwrDieOf_takeDieOff (s := s) (d := d.val)
    exact ⟨rfl, hstate, hoff, dieOf_takeDieOff⟩
  case cancels => rw [exec_dieOff_free hu hp ho, h2]; rfl
  case keeps => rw [exec_dieOff_free hu hp ho, h3]; rfl
  case heldOn => rw [exec_dieOn_off hu ho, h2]; rfl
  case failedOn => rw [exec_dieOn_off hu ho, h3]; rfl
  case up => rw [exec_dieOn_off hu ho, if_neg (by simpa using h3), if_neg (by simpa using h2)]; rfl
  case isOn => exact congrArg Host.Outcome.next ((if_pos hu).trans (if_pos (by rw [ho]; rfl)))
  case ends =>
    refine ⟨_, rfl, ?_⟩
    rw [endDieOff_dark hs ho hh, pwrDieOf_modPwrDie]
    exact ⟨rfl, ho, rfl, rfl, fun k hk => darkClusters_empty hk, rfl⟩
  case stays => exact if_neg (by simp [hg])

end Sys2Proof.Proofs
end

section
/-!
PROOF. Ticks of TL40 and the checks that compare them (R372, R422).
-/
namespace Sys2Proof.Proofs

open Sys2Proof Sys2Proof.Machine Sys2Proof.Laws

section Ticks

variable {a b v now : Tick}

/-- Ticks from one to another, modulo 2^40, as a number. -/
theorem toNat_tickSub (a b : Tick) : (a - b).toNat = (a.toNat + 2 ^ 40 - b.toNat) % 2 ^ 40 := by
  have hb := b.isLt
  rw [BitVec.toNat_sub]
  omega

theorem later_iff : later a b = true ↔
    0 < (a.toNat + 2 ^ 40 - b.toNat) % 2 ^ 40 ∧ (a.toNat + 2 ^ 40 - b.toNat) % 2 ^ 40 < 2 ^ 39 := by
  simp only [later, toNat_tickSub, Bool.and_eq_true, decide_eq_true_eq]

theorem reached_iff : reached a b = true ↔ (a.toNat + 2 ^ 40 - b.toNat) % 2 ^ 40 < 2 ^ 39 := by
  simp only [reached, toNat_tickSub, decide_eq_true_eq]

theorem validTick_iff : validTick v now = true ↔
    (v.toNat + 2 ^ 40 - now.toNat) % 2 ^ 40 < 2 ^ 39 ∨ (now.toNat + 2 ^ 40 - v.toNat) % 2 ^ 40 ≤ 2 ^ 38 := by
  simp only [validTick, toNat_tickSub, Bool.or_eq_true, decide_eq_true_eq]

/-- A valid tick lies ahead or has been reached. -/
theorem later_or_reached (h : validTick v now = true) : later v now = true ∨ reached now v = true := by
  have hv := v.isLt
  have hnow := now.isLt
  rw [validTick_iff] at h
  rw [later_iff, reached_iff]
  omega

/-- A valid tick that lies in the past lies there by 2^38 ticks at most. -/
theorem validTick_past (h : validTick v now = true) (hp : later now v = true) :
    reached now v = true ∧ (now.toNat + 2 ^ 40 - v.toNat) % 2 ^ 40 ≤ 2 ^ 38 := by
  have hv := v.isLt
  have hnow := now.isLt
  rw [validTick_iff] at h
  rw [later_iff] at hp
  rw [reached_iff]
  omega

/-- Ticks from a tick of the past to now. -/
theorem now_sub_past {n : Nat} (hn : n ≤ 2 ^ 38) (now : Tick) :
    (now.toNat + 2 ^ 40 - (now - BitVec.ofNat 40 n).toNat) % 2 ^ 40 = n := by
  have hnow := now.isLt
  rw [toNat_tickSub, BitVec.toNat_ofNat]
  omega

end Ticks

section Checks

/-- The checks of an address and of the value behind it report bytes from the address on. -/
theorem addressChecks_offset {p q : Bool} {off : Nat} {x : Bad} (h : x ∈ need p off ++ need q (off + 8)) : off ≤ x.2 := by
  obtain h | h := List.mem_append.1 h
  · obtain ⟨-, rfl⟩ := mem_need.1 h
    exact Nat.le_refl _
  · obtain ⟨-, rfl⟩ := mem_need.1 h
    exact Nat.le_add_right _ _

/-- So do the checks of an entry, whether it counts or not. -/
theorem entryChecks_offset {d : BitVec 1024} {lo off count i : Nat} {signal : Bool} {x : Bad}
    (h : x ∈ entryChecks d lo off count i signal) : off ≤ x.2 := by
  dsimp only [entryChecks] at h
  split at h <;> exact addressChecks_offset h

/-- The checks of a sync record report bytes of the record. -/
theorem syncChecks_offset {d y : BitVec 1024} {x : Bad} (h : x ∈ syncChecks d y) : 128 ≤ x.2 := by
  simp only [syncChecks, List.mem_append, mem_needZero, mem_need, List.mem_flatMap] at h
  obtain (((((⟨-, rfl⟩ | ⟨-, rfl⟩) | ⟨-, rfl⟩) | ⟨-, rfl⟩) | ⟨-, rfl⟩) | ⟨i, -, hw⟩) | ⟨i, -, hs⟩ := h
  case inl.inr => have := entryChecks_offset hw; omega
  case inr => have := entryChecks_offset hs; omega
  all_goals decide

/-- WAIT_TIME is refused for its tick exactly where that is not valid. -/
theorem fetchWaitTime_tick {now : Tick} {d : BitVec 1024} :
    (Status.illegalDescriptor, 16) ∈ fetchWaitTime now d ↔ validTick (waitTick d) now = false := by
  simp [fetchWaitTime, reserved, mem_need, mem_needZero]

/-- A header is refused for its deadline exactly where it has one that is not valid: no other check names the deadline's byte. -/
theorem headerChecks_deadline {s : State} {r : Nat} {d y : BitVec 1024} :
    (Status.illegalDescriptor, 8) ∈ headerChecks s r d y ↔
      deadlineOf d ≠ 0 ∧ validTick (deadlineOf d) s.time.now = false := by
  have hsync : (Status.illegalDescriptor, 8) ∉ syncChecks d y := fun h => absurd (syncChecks_offset h) (by decide)
  have hplaced : 8 ≠ (if placedFlag d then 129 else 0xFFFF) := by split <;> decide
  simp [headerChecks, mem_need, mem_needZero, hsync, hplaced]

end Checks

/-- Settles O46, clause by clause. -/
theorem ticksCompareByHalfRange : Obligations.TicksCompareByHalfRange := by
  refine ⟨fun a b => ⟨later_iff, reached_iff⟩, fun v now => validTick_iff, fun v now h => later_or_reached h,
    fun v now h hp => validTick_past h hp, fun n hn now => ?past, fun now d => fetchWaitTime_tick,
    fun s r d y => headerChecks_deadline⟩
  case past =>
    have hsub := now_sub_past hn now
    rw [validTick_iff, reached_iff, hsub]
    exact ⟨.inr hn, by omega⟩

end Sys2Proof.Proofs
end

section
/-!
SUPPORT. The governor's budget: which step it lowers, and what lowering steps one by one comes to (R453).
-/
namespace Sys2Proof.Laws

open Sys2Proof Sys2Proof.Machine

/-! ### A list of steps with one of them lowered -/

/-- Lowering one step lowers none of the others, and raises none. -/
theorem getD_lowered_le (w : List Nat) (i j : Nat) : (w.set i (w.getD i 0 - 1)).getD j 0 ≤ w.getD j 0 := by
  induction w generalizing i j with
  | nil => exact Nat.le_refl _
  | cons x w ih =>
    cases i with
    | zero => cases j with
      | zero => exact Nat.sub_le x 1
      | succ j => exact Nat.le_refl _
    | succ i => cases j with
      | zero => exact Nat.le_refl _
      | succ j => exact ih i j

/-- Lowering a step above 0 takes one from the sum. -/
theorem sum_lowered {w : List Nat} {i : Nat} (h : 0 < w.getD i 0) : (w.set i (w.getD i 0 - 1)).sum + 1 = w.sum := by
  induction w generalizing i with
  | nil => exact absurd h (by simp)
  | cons x w ih =>
    cases i with
    | zero =>
      have hx : 0 < x := h
      simp only [List.set_cons_zero, List.getD_cons_zero, List.sum_cons]
      omega
    | succ i =>
      have hi := ih (i := i) h
      simp only [List.set_cons_succ, List.getD_cons_succ, List.sum_cons]
      omega

/-- The choice of a largest step of a list of dies, from a first candidate. -/
def largestOf (w ds : List Nat) (b : Nat) : Nat := ds.foldl (fun b d => if w.getD b 0 ≤ w.getD d 0 then d else b) b

theorem le_largestOf (w ds : List Nat) (b : Nat) :
    w.getD b 0 ≤ w.getD (largestOf w ds b) 0 ∧ ∀ d ∈ ds, w.getD d 0 ≤ w.getD (largestOf w ds b) 0 := by
  induction ds generalizing b with
  | nil => exact ⟨Nat.le_refl _, by simp⟩
  | cons d ds ih =>
    obtain ⟨hb, hds⟩ := ih (if w.getD b 0 ≤ w.getD d 0 then d else b)
    have ⟨hfirst, hnew⟩ : w.getD b 0 ≤ w.getD (if w.getD b 0 ≤ w.getD d 0 then d else b) 0
        ∧ w.getD d 0 ≤ w.getD (if w.getD b 0 ≤ w.getD d 0 then d else b) 0 := by
      split
      next hle => exact ⟨hle, Nat.le_refl _⟩
      next hlt => exact ⟨Nat.le_refl _, Nat.le_of_not_le hlt⟩
    exact ⟨hfirst.trans hb, List.forall_mem_cons.2 ⟨hnew.trans hb, hds⟩⟩

/-- Where some step is above 0, the largest one is. -/
theorem largest_pos {w : List Nat} (h : w.any (fun x => decide (0 < x)) = true) : 0 < w.getD (largest w) 0 := by
  obtain ⟨x, hx, hpos⟩ := List.any_eq_true.1 h
  obtain ⟨i, hi, rfl⟩ := List.getElem_of_mem hx
  obtain ⟨-, hall⟩ := le_largestOf w (List.range w.length) 0
  have hle := hall i (List.mem_range.2 hi)
  rw [List.getD_eq_getElem _ _ hi] at hle
  exact (of_decide_eq_true hpos).trans_le hle

/-! ### The budget -/

section Budget

variable {epoch n : Nat} {budget : Int} {w : List Nat}

theorem length_fitBudget : (fitBudget epoch budget n w).length = w.length := by
  induction n generalizing w with
  | zero => rfl
  | succ n ih =>
    rw [fitBudget]
    split
    next => rw [ih, List.length_set]
    next => rfl

/-- No step is raised. -/
theorem getD_fitBudget_le (d : Nat) : (fitBudget epoch budget n w).getD d 0 ≤ w.getD d 0 := by
  induction n generalizing w with
  | zero => exact Nat.le_refl _
  | succ n ih =>
    rw [fitBudget]
    split
    next => exact ih.trans (getD_lowered_le w _ d)
    next => exact Nat.le_refl _

/-- With turns enough the prediction fits the budget, or every step is lowered to 0. -/
theorem fitBudget_fits (h : w.sum ≤ n) : (Config.predict epoch (fitBudget epoch budget n w) : Int) ≤ budget - 20
    ∨ ∀ g ∈ fitBudget epoch budget n w, g = 0 := by
  induction n generalizing w with
  | zero => exact .inr (List.sum_eq_zero_iff.1 (Nat.le_zero.1 h))
  | succ n ih =>
    rw [fitBudget]
    split
    next hover =>
      obtain ⟨-, hany⟩ := Bool.and_eq_true_iff.1 hover
      have hsum := sum_lowered (largest_pos hany)
      exact ih (by omega)
    next hfits =>
      rw [Bool.and_eq_true, not_and_or, decide_eq_true_eq, Int.not_lt] at hfits
      exact hfits.imp id fun hnone => by simpa using hnone

end Budget

/-! ### The grants of an epoch -/

section Grants

variable {s : State} {d : Nat}

/-- The steps that the governor starts from: four more than granted, up to the ceiling. -/
def wanted (s : State) : List Nat := (List.range 8).map (fun d => min (dieCeil s d) ((pwrDieOf s d).grant.toNat + 4))

theorem computeGrants_eq (s : State) (o : Nat) : computeGrants s o =
    fitBudget (s.time.now.toNat / 1024) (Int.ofNat (powerLimit s) - Int.ofNat o) 512 (wanted s) := rfl

/-- A ceiling is a step of six bits. -/
theorem dieCeil_lt : dieCeil s d < 64 := by
  rw [dieCeil]
  split
  next => decide
  next => exact (Nat.min_le_left _ _).trans_lt (pwrDieOf s d).cap.isLt

theorem getD_wanted (hd : d < 8) : (wanted s).getD d 0 = min (dieCeil s d) ((pwrDieOf s d).grant.toNat + 4) := by
  simp [wanted, List.getD_eq_getElem?_getD, hd]

/-- The turns of the governor are enough for eight dies. -/
theorem sum_wanted_le : (wanted s).sum ≤ 512 := by
  have hle : ∀ x ∈ wanted s, x ≤ 64 := fun x hx => by
    obtain ⟨d, -, rfl⟩ := List.mem_map.1 hx
    exact (Nat.min_le_left _ _).trans dieCeil_lt.le
  have hlen : (wanted s).length = 8 := rfl
  simpa [hlen] using List.sum_le_card_nsmul _ _ hle

end Grants

end Sys2Proof.Laws
end

section
/-!
PROOF. The rows of the governor (R448, R452 to R454).
-/
namespace Sys2Proof.Proofs

open Sys2Proof Sys2Proof.Machine Sys2Proof.Laws Sys2Proof.Claims

section Governor

variable {s : State}

/-- A drop leaves every die at step 0. -/
theorem grant_dropGrants (s : State) (d : Nat) : (pwrDieOf (dropGrants s) d).grant = 0 :=
  smGet_smMap_of (d := PwrDie.dflt) (P := fun x => x.grant = 0) (p := fun _ => true) (f := fun x => { x with grant := 0 })
    (k := d) rfl rfl (fun _ => rfl) s.pwr.dies

/-- SAG_ENTER of a running module below 42.0 V. -/
theorem exec_sagEnter_low {x : SagSamples} (hr : s.pwr.running = true) (hx : x.latestMv < 42000) :
    exec (.sagEnter x) s = .next (logEvent (listFaulty (dropGrants { s with pwr := { s.pwr with
      clamp := true, inhibit := true, sagSince := some (s.pwr.sagSince.getD s.time.now), lowAt := s.time.now
      inputMv := BitVec.ofNat 16 (x.latestMv / 10 * 10) } })) evSupplySag 0
      (BitVec.ofNat 64 (min x.lowestMv x.latestMv / 10 * 10)) 0) :=
  congrArg Host.Outcome.next (if_neg (by simp [hr, hx]))

/-- GOVERNOR_EPOCH within the ratings, at a boundary and elsewhere. -/
theorem exec_governorEpoch_boundary {r : EpochReadings} (hv : r.inputMv ≤ 60000) (hr : s.pwr.running = true)
    (h : AtTick s 10 s.pwr.epochBegan) : exec (.governorEpoch r) s = .next (governorEpoch s r) :=
  (if_neg (Nat.not_lt.2 hv)).trans (congrArg Host.Outcome.next (if_pos (by rw [hr, atBoundary_iff.2 h]; rfl)))

theorem exec_governorEpoch_within {r : EpochReadings} (hv : r.inputMv ≤ 60000)
    (h : ¬ AtTick s 10 s.pwr.epochBegan) : exec (.governorEpoch r) s = .next s :=
  (if_neg (Nat.not_lt.2 hv)).trans (congrArg Host.Outcome.next
    (if_neg (by simp [Bool.eq_false_iff.2 (mt atBoundary_iff.1 h)])))

end Governor

/-- Settles O43, clause by clause; the grants of an epoch are what is left of the wanted steps once the budget is fitted. -/
theorem governorRowsComplete : Obligations.GovernorRowsComplete := by
  refine ⟨fun s x hr hx => exec_sagEnter_low hr hx, fun s x hx => congrArg Host.Outcome.next (if_pos (by simp [hx])),
    fun s hr => congrArg Host.Outcome.next (if_pos hr), grant_dropGrants,
    fun s r hv hr h => exec_governorEpoch_boundary hv hr h, fun s r hv h => exec_governorEpoch_within hv h, fun s w => ?grants⟩
  case grants =>
    rw [computeGrants_eq]
    exact ⟨length_fitBudget, fun d hd => getD_wanted hd ▸ getD_fitBudget_le d, fitBudget_fits sum_wanted_le⟩

end Sys2Proof.Proofs
end

section
/-!
SUPPORT. What the operations on records leave of the PWR_ block: all of it but the alert pin, which a POWER record pulls low (R430
to R438, R492).
-/
namespace Sys2Proof.Laws

open Sys2Proof Sys2Proof.Machine

/-- The PWR_ block of `t` is that of `s`, but for the alert pin. -/
def AlertOnly (s t : State) : Prop := ∃ a, t.pwr = { s.pwr with alertN := a }

section Supply

variable {s t u : State}

theorem alertOnly_of_eq (h : t.pwr = s.pwr) : AlertOnly s t := ⟨s.pwr.alertN, h⟩

theorem AlertOnly.trans (h : AlertOnly s t) (h' : AlertOnly t u) : AlertOnly s u := by
  obtain ⟨a, ha⟩ := h
  obtain ⟨b, hb⟩ := h'
  exact ⟨b, by rw [hb, ha]⟩

theorem alertOnly_foldl {α : Type} {f : State → α → State} (hf : ∀ s x, AlertOnly s (f s x)) (xs : List α) :
    AlertOnly s (xs.foldl f s) := by
  induction xs generalizing s with
  | nil => exact alertOnly_of_eq rfl
  | cons x xs ih => exact (hf s x).trans ih

/-! ### Records on their way -/

@[simp] theorem sendMsix_pwr (s : State) (fn vec : Nat) : (sendMsix s fn vec).pwr = s.pwr := by
  rw [sendMsix]
  split <;> rfl

@[simp] theorem queueHistory_pwr (s : State) (w : HistWrite) : (queueHistory s w).pwr = s.pwr := by
  dsimp only [queueHistory]
  split <;> split <;> rfl

@[simp] theorem errReadHead_pwr (s : State) : (errReadHead s).pwr = s.pwr := by
  dsimp only [errReadHead]
  split <;> rfl

@[simp] theorem errPut_pwr (s : State) (r : ErrRec) : (errPut s r).pwr = s.pwr := by
  dsimp only [errPut]
  split <;> simp

@[simp] theorem errPutHeld_pwr (rs : List ErrRec) (s : State) : (errPutHeld rs s).pwr = s.pwr := by
  induction rs generalizing s with
  | nil => rfl
  | cons r rs ih =>
    rw [errPutHeld]
    split
    next => rw [ih, errPut_pwr]
    next => rfl

@[simp] theorem errFlush_pwr (s : State) : (errFlush s).pwr = s.pwr := by
  dsimp only [errFlush]
  split
  next => simp
  next => split <;> simp

@[simp] theorem errPrepare_pwr (s : State) (fatal : Bool) : (errPrepare s fatal).pwr = s.pwr := by
  dsimp only [errPrepare]
  rw [apply_ite State.pwr]
  simp

@[simp] theorem countDrop_pwr (s : State) (r : ErrRec) : (countDrop s r).pwr = s.pwr := rfl

@[simp] theorem errSubmit_pwr (s : State) (r : ErrRec) : (errSubmit s r).pwr = s.pwr := by
  rw [errSubmit]
  split
  next =>
    split
    next => exact errPut_pwr s r
    next => split <;> rfl
  next =>
    split
    next => exact errPut_pwr s r
    next => rfl

@[simp] theorem errBuffer_pwr (s : State) (r : ErrRec) : (errBuffer s r).pwr = s.pwr := by
  rw [errBuffer]
  split
  next => rfl
  next =>
    split
    next => split <;> rfl
    next => rfl

theorem sendMsg_pwr {kind : BitVec 4} {dst : BitVec 12} {tag : BitVec 16} {addr : BitVec 38} {data : List Byte}
    (h : sendMsg s kind dst tag addr data = some t) : t.pwr = s.pwr := by
  obtain ⟨p, -, rfl⟩ := Option.map_eq_some_iff.1 h
  rfl

@[simp] theorem sendRecords_pwr (rs : List ErrRec) (s : State) : (sendRecords rs s).pwr = s.pwr := by
  induction rs generalizing s with
  | nil => rfl
  | cons r rs ih =>
    rw [sendRecords]
    split
    next ht => rw [ih, sendMsg_pwr ht]
    next => rfl

@[simp] theorem memberFlush_pwr (s : State) : (memberFlush s).pwr = s.pwr := by
  dsimp only [memberFlush]
  split
  next =>
    split
    next => simp
    next => split <;> simp
  next => rfl

/-! ### Records as they are created -/

theorem alertOnly_createRecord (s : State) (r : ErrRec) (log : Bool) : AlertOnly s (createRecord s r log) := by
  dsimp only [createRecord, AlertOnly]
  rw [memberFlush_pwr]
  split
  next => exact ⟨false, by simp [apply_ite State.pwr]⟩
  next => exact ⟨s.pwr.alertN, by simp [apply_ite State.pwr]⟩

theorem alertOnly_leaveCoalWindow (s : State) : AlertOnly s (leaveCoalWindow s) := by
  rw [leaveCoalWindow]
  split
  next =>
    exact alertOnly_foldl (s := { s with err := _ }) (fun s t => by
      split
      next => exact alertOnly_of_eq rfl
      next => exact alertOnly_createRecord s _ true) s.err.trackers
  next => exact alertOnly_of_eq rfl

theorem alertOnly_occurInWindow (s : State) (r : ErrRec) (log : Bool) : AlertOnly s (occurInWindow s r log) := by
  dsimp only [occurInWindow]
  split
  next => exact alertOnly_of_eq rfl
  next => split <;> exact alertOnly_createRecord _ r log

/-- An event of no command. -/
theorem alertOnly_logEvent (s : State) (ev : Event) (die : Nat) (a b : W64) : AlertOnly s (logEvent s ev die a b) := by
  rw [logEvent, occur]
  split
  next => exact alertOnly_createRecord s _ true
  next => exact (alertOnly_leaveCoalWindow s).trans (alertOnly_occurInWindow _ _ true)

end Supply

end Sys2Proof.Laws
end

section
/-!
SUPPORT. What the readings of an epoch leave of the zones: each reading counts for its own zone, and keeps the module running (R450,
R452, R455, R458).
-/
namespace Sys2Proof.Laws

open Sys2Proof Sys2Proof.Machine Sys2Proof.Claims

/-- The zones of `t` are those of `s`, and it runs where `s` does. -/
def ZonesKept (s t : State) : Prop := t.pwr.zones = s.pwr.zones ∧ t.pwr.running = s.pwr.running

section Zones

variable {s t u : State} {z : Nat}

theorem zonesKept_refl : ZonesKept s s := ⟨rfl, rfl⟩

theorem ZonesKept.trans (h : ZonesKept s t) (h' : ZonesKept t u) : ZonesKept s u :=
  ⟨h'.1.trans h.1, h'.2.trans h.2⟩

theorem AlertOnly.zonesKept (h : AlertOnly s t) : ZonesKept s t := by
  obtain ⟨a, ha⟩ := h
  exact ⟨by rw [ha], by rw [ha]⟩

theorem zonesKept_foldl {α : Type} {f : State → α → State} (hf : ∀ s x, ZonesKept s (f s x)) (xs : List α) :
    ZonesKept s (xs.foldl f s) := by
  induction xs generalizing s with
  | nil => exact zonesKept_refl
  | cons x xs ih => exact (hf s x).trans ih

theorem ZonesKept.zoneOf_eq (h : ZonesKept s t) (z : Nat) : zoneOf t z = zoneOf s z :=
  congrArg (fun m => smGet _ m z) h.1

/-- The zone as a reading leaves it. -/
def zoneRead (o : Zone) (z t : Nat) : Zone where
  temp := BitVec.ofNat 8 t
  max := if o.max.toNat < t then BitVec.ofNat 8 t else o.max
  critical := decide (criticalC z ≤ t)
  read := true
  hotReads := if (shutdownC z).elim false (fun c => decide (c ≤ t)) then o.hotReads + 1 else 0

/-- A reading changes its own zone; what else it does leaves the zones. -/
theorem readZone_zones (s : State) (z : Nat) (x : Int) :
    ZonesKept (setZone s z (zoneRead (zoneOf s z) z (min 255 x.toNat))) (readZone s z x) := by
  have hlog : ∀ {s : State} {p : Prop} [Decidable p], ZonesKept s
      (if p then logEvent s evCriticalTemp 0 (BitVec.ofNat 64 (z + 256 * min 255 x.toNat)) 0 else s) := by
    intro s p _
    split
    next => exact (alertOnly_logEvent ..).zonesKept
    next => exact zonesKept_refl
  dsimp only [readZone]
  split
  next => exact hlog
  next =>
    split
    next => exact hlog
    next => split <;> exact hlog

theorem readZone_running (x : Int) : (readZone s z x).pwr.running = s.pwr.running := (readZone_zones s z x).2

theorem zoneOf_readZone_self (x : Int) : zoneOf (readZone s z x) z = zoneRead (zoneOf s z) z (min 255 x.toNat) :=
  ((readZone_zones s z x).zoneOf_eq z).trans (zoneOf_setZone s z _)

theorem zoneOf_readZone_ne {z' : Nat} (x : Int) (h : z' ≠ z) : zoneOf (readZone s z x) z' = zoneOf s z' :=
  ((readZone_zones s z x).zoneOf_eq z').trans (zoneOf_setZone_ne s _ h)

/-- The zones with a shutdown temperature, and the range in which that lies. -/
theorem shutdownC_range {c : Nat} (h : shutdownC z = some c) : z < 30 ∧ 0 < c ∧ c ≤ 255 := by
  rw [shutdownC] at h
  split_ifs at h <;> cases h <;> omega

/-- A reading of a zone with a shutdown temperature is counted where it is as hot as that, and starts the count again where it is
not. -/
theorem hotReads_readZone {c : Nat} (x : Int) (hc : shutdownC z = some c) :
    (zoneOf (readZone s z x) z).hotReads = if (c : Int) ≤ x then (zoneOf s z).hotReads + 1 else 0 := by
  obtain ⟨-, hpos, hle⟩ := shutdownC_range hc
  have hiff : c ≤ min 255 x.toNat ↔ (c : Int) ≤ x := by omega
  rw [zoneOf_readZone_self, zoneRead, hc]
  simp only [Option.elim_some, decide_eq_true_eq, hiff]

theorem takeReading_running (r : ZoneReading) : (takeReading s z r).pwr.running = s.pwr.running := by
  rw [takeReading.eq_def]
  split
  next => exact readZone_running _
  next =>
    split
    next => exact readZone_running _
    next => rfl

theorem zoneOf_takeReading_ne {z' : Nat} (r : ZoneReading) (h : z' ≠ z) : zoneOf (takeReading s z r) z' = zoneOf s z' := by
  rw [takeReading.eq_def]
  split
  next => exact zoneOf_readZone_ne _ h
  next =>
    split
    next => exact zoneOf_readZone_ne _ h
    next => rfl

/-- Every zone's turn keeps the module running. -/
theorem readZones_running (rs : List (Option ZoneReading)) : (readZones rs s z).pwr.running = s.pwr.running := by
  induction rs generalizing s z with
  | nil => rfl
  | cons r rs ih =>
    rw [readZones, ih]
    cases r with
    | none => rfl
    | some r => exact takeReading_running r

/-- A zone whose turn has passed stays as it is. -/
theorem zoneOf_readZones_past {z' : Nat} (rs : List (Option ZoneReading)) (h : z' < z) :
    zoneOf (readZones rs s z) z' = zoneOf s z' := by
  induction rs generalizing s z with
  | nil => rfl
  | cons r rs ih =>
    rw [readZones, ih (Nat.lt_succ_of_lt h)]
    cases r with
    | none => rfl
    | some r => exact zoneOf_takeReading_ne r (Nat.ne_of_lt h)

/-- A zone's turn comes once: its reading counts as it does alone. -/
theorem hotReads_readZones {rs : List (Option ZoneReading)} {i c : Nat} {x : Int} (hc : shutdownC (z + i) = some c)
    (hr : rs[i]? = some (some (.celsius x))) : (zoneOf (readZones rs s z) (z + i)).hotReads =
      if (c : Int) ≤ x then (zoneOf s (z + i)).hotReads + 1 else 0 := by
  induction rs generalizing s z i with
  | nil => simp at hr
  | cons r rs ih =>
    rw [readZones]
    cases i with
    | zero =>
      obtain rfl : r = some (.celsius x) := by simpa using hr
      simp only [Nat.add_zero] at hc ⊢
      rw [zoneOf_readZones_past rs (Nat.lt_succ_self z)]
      exact hotReads_readZone x hc
    | succ i =>
      have hnext : z + (i + 1) = z + 1 + i := by omega
      rw [hnext] at hc ⊢
      rw [ih hc (by simpa using hr)]
      cases r with
      | none => rfl
      | some r => rw [Option.elim_some, zoneOf_takeReading_ne r (by omega)]

/-! ### The end of an epoch -/

/-- An orderly shutdown of a running module takes it down. -/
theorem shutdown_down (h : s.pwr.running = true) (cause : Nat) : Down (shutdown s cause) cause := by
  rw [shutdown, if_neg (by simp [h])]
  exact ⟨rfl, rfl, rfl, rfl, rfl, rfl⟩

theorem zonesKept_modPwrDie {d : Nat} {f : PwrDie → PwrDie} : ZonesKept s (modPwrDie s d f) := ⟨rfl, rfl⟩

/-- The state of an epoch once the sensors have been read. -/
def epochRead (s : State) (r : EpochReadings) : State :=
  { readZones r.zones s 0 with pwr := { (readZones r.zones s 0).pwr with
    epochBegan := (readZones r.zones s 0).time.now
    lowAt := if r.inputMv < 44000 then (readZones r.zones s 0).time.now else (readZones r.zones s 0).pwr.lowAt
    inputMv := BitVec.ofNat 16 (measured r.inputMv), inputW := BitVec.ofNat 12 r.inputW, fastLimit := false } }

/-- The state of an epoch once the grants have been given. -/
def epochGranted (s : State) (r : EpochReadings) : State :=
  (List.range 8).foldl (fun t d => modPwrDie t d (fun x =>
    { x with grant := BitVec.ofNat 6 ((computeGrants (epochRead s r) r.otherW).getD d 0)
             powerW := BitVec.ofNat 16 (r.dieW.getD d 0) })) (epochRead s r)

/-- An epoch reads, grants, and shuts the module down where a zone has been hot for the third time. -/
theorem governorEpoch_eq (s : State) (r : EpochReadings) : governorEpoch s r =
    if (List.range 32).any (fun z => decide (3 ≤ (zoneOf (epochGranted s r) z).hotReads)) then shutdown (epochGranted s r) 1
    else epochGranted s r := rfl

/-- The zones of an epoch are those of its readings. -/
theorem zonesKept_epochGranted (r : EpochReadings) : ZonesKept (readZones r.zones s 0) (epochGranted s r) := by
  have hread : ZonesKept (readZones r.zones s 0) (epochRead s r) := ⟨rfl, rfl⟩
  exact hread.trans (zonesKept_foldl (fun _ _ => zonesKept_modPwrDie) (List.range 8))

/-- An epoch at which a zone is hot takes the module down, where that is the third time, or counts it. -/
theorem governorEpoch_hot {r : EpochReadings} {c : Nat} {x : Int} (hrun : s.pwr.running = true) (hc : shutdownC z = some c)
    (hr : r.zones[z]? = some (some (.celsius x))) (hx : (c : Int) ≤ x) :
    Down (governorEpoch s r) 1
      ∨ (zoneOf (governorEpoch s r) z).hotReads = (zoneOf s z).hotReads + 1 ∧ (zoneOf s z).hotReads < 2 := by
  obtain ⟨hz, -, -⟩ := shutdownC_range hc
  have hkept := zonesKept_epochGranted (s := s) r
  rw [governorEpoch_eq]
  have hhot : (zoneOf (epochGranted s r) z).hotReads = (zoneOf s z).hotReads + 1 := by
    have hread := hotReads_readZones (s := s) (z := 0) (i := z) (by rwa [Nat.zero_add]) hr
    rw [Nat.zero_add, if_pos hx] at hread
    rw [hkept.zoneOf_eq, hread]
  split
  next => exact .inl (shutdown_down (hkept.2.trans ((readZones_running _).trans hrun)) 1)
  next hnone =>
    refine .inr ⟨hhot, Nat.lt_of_not_le fun h2 => hnone (List.any_eq_true.2 ⟨z, List.mem_range.2 (by omega), ?_⟩)⟩
    exact decide_eq_true (by omega)

end Zones

end Sys2Proof.Laws
end

section
/-!
PROOF. Three readings at the shutdown temperature (R452, R458).
-/
namespace Sys2Proof.Proofs

open Sys2Proof Sys2Proof.Machine Sys2Proof.Laws Sys2Proof.Claims

section Hot

variable {s t : State} {r : EpochReadings} {z c : Nat} {x : Int}

/-- What GOVERNOR_EPOCH answers at a boundary is the epoch's end. -/
theorem governorEpoch_of_exec (hrun : s.pwr.running = true) (hb : AtTick s 10 s.pwr.epochBegan)
    (h : exec (.governorEpoch r) s = .next t) : t = governorEpoch s r := by
  have hv : r.inputMv ≤ 60000 := Nat.not_lt.1 fun hv => by
    have hfault : exec (.governorEpoch r) s = .fault .beyondRatings := if_pos hv
    rw [hfault] at h
    cases h
  rw [exec_governorEpoch_boundary hv hrun hb] at h
  cases h
  rfl

/-- A third hot reading in a row takes the module down. -/
theorem down_of_thirdHot (hrun : s.pwr.running = true) (hb : AtTick s 10 s.pwr.epochBegan) (hc : shutdownC z = some c)
    (hr : r.zones[z]? = some (some (.celsius x))) (hx : (c : Int) ≤ x) (h2 : 2 ≤ (zoneOf s z).hotReads)
    (h : exec (.governorEpoch r) s = .next t) : Down t 1 := by
  rw [governorEpoch_of_exec hrun hb h]
  obtain hdown | ⟨-, hlt⟩ := governorEpoch_hot hrun hc hr hx
  · exact hdown
  · omega

/-- A hot reading that leaves the module running has been counted. -/
theorem hotReads_of_running (hrun : s.pwr.running = true) (hb : AtTick s 10 s.pwr.epochBegan) (hc : shutdownC z = some c)
    (hr : r.zones[z]? = some (some (.celsius x))) (hx : (c : Int) ≤ x) (hrun' : t.pwr.running = true)
    (h : exec (.governorEpoch r) s = .next t) : (zoneOf t z).hotReads = (zoneOf s z).hotReads + 1 := by
  rw [governorEpoch_of_exec hrun hb h] at hrun' ⊢
  obtain ⟨hstops, -⟩ | ⟨hcount, -⟩ := governorEpoch_hot hrun hc hr hx
  · rw [hstops] at hrun'
    cases hrun'
  · exact hcount

end Hot

/-- Settles O44: each hot reading counts, the third one takes the module down, and so do three from any state. -/
theorem threeHotReadingsShutDown : Obligations.ThreeHotReadingsShutDown := by
  refine ⟨fun s r z c t hc hr => ?counted, fun s s' r z c t hrun hb hc hr hx h2 h => down_of_thirdHot hrun hb hc hr hx h2 h,
    fun s s1 u1 s2 u2 s3 r1 r2 r3 z c t1 t2 t3 hs hs1 hs2 hu1 hu2 hz1 hz2 hb hb1 hb2 hc hr1 hr2 hr3 hx1 hx2 hx3 h1 h2 h3 =>
      ?inARow⟩
  case counted =>
    have hread := hotReads_readZones (s := s) (z := 0) (i := z) (by rwa [Nat.zero_add]) hr
    rwa [Nat.zero_add] at hread
  case inARow =>
    have hfirst := hotReads_of_running hs hb hc hr1 hx1 hs1 h1
    have hsecond := hotReads_of_running hu1 hb1 hc hr2 hx2 hs2 h2
    refine down_of_thirdHot hu2 hb2 hc hr3 hx3 ?_ h3
    rw [hz2, hsecond, hz1, hfirst]
    omega

end Sys2Proof.Proofs
end

section
/-!
SUPPORT. The timeline: one tick of the reference, what else an idle step does, pulses, and where a sample leads (R415, R419, R421).
-/
namespace Sys2Proof.Laws

open Sys2Proof Sys2Proof.Machine

section Ticks

variable {s : State}

/-- A tick while no offset is slewed advances the timeline by one, and the count of the reference with it. -/
theorem tick_unslewed (h : s.time.slew = 0) :
    tick s = setAbsTick { s with time := { s.time with refCount := s.time.refCount + 1 } } s.time.now (absTick s + 1) := by
  have hone : (if s.time.refCount + 1 = 0 then (if 0 < s.time.slew then 2 else if s.time.slew < 0 then 0 else 1) else 1) = 1 := by
    simp [h]
  dsimp only [tick]
  rw [hone]
  simp

/-- With no die that goes OFF, and after RAILS or before it, power has nothing to settle. -/
theorem settlePower_idle (hd : ∀ d < 8, goingOff (pwrDieOf s d) = false) (hs : s.pwr.stage ≠ 1) : settlePower s = s := by
  have hoff : (List.range 8).foldl endDieOff s = s := foldl_eq_self fun d hmem => by
    simp [endDieOff, hd d (List.mem_range.1 hmem)]
  rw [settlePower, hoff]
  exact if_neg (by simpa using fun _ => hs)

/-- What a change of the timeline leaves. -/
theorem setAbsTick_frame (x : TimeBlock) (came : Tick) (a : Nat) :
    (setAbsTick { s with time := x } came a).pwr = s.pwr ∧ (setAbsTick { s with time := x } came a).glb = s.glb
      ∧ (setAbsTick { s with time := x } came a).zw = s.zw ∧ (setAbsTick { s with time := x } came a).cmds = s.cmds
      ∧ (setAbsTick { s with time := x } came a).host = s.host ∧ (setAbsTick { s with time := x } came a).hbm = s.hbm
      ∧ (setAbsTick { s with time := x } came a).err = s.err ∧ (setAbsTick { s with time := x } came a).hq = s.hq :=
  ⟨rfl, rfl, rfl, rfl, rfl, rfl, rfl, rfl⟩

/-- What such a tick leaves. -/
theorem tick_frame (h : s.time.slew = 0) : (tick s).pwr = s.pwr ∧ (tick s).glb = s.glb ∧ (tick s).zw = s.zw
    ∧ (tick s).cmds = s.cmds ∧ (tick s).host = s.host ∧ (tick s).hbm = s.hbm ∧ (tick s).err = s.err
    ∧ (tick s).hq = s.hq := by
  rw [tick_unslewed h]
  exact setAbsTick_frame _ _ _

/-- A module that is its own anchor, with nothing else that time brings to its end, only ticks. -/
theorem idle_unslewed (hm : isMember s = false) (hw : s.glb.rcfgWaits = false) (hd : ∀ d < 8, goingOff (pwrDieOf s d) = false)
    (hs : s.pwr.stage ≠ 1) (hslew : s.time.slew = 0) : idle s = tick s := by
  obtain ⟨hpwr, hglb, hzw, -⟩ := tick_frame hslew
  have hpower : settlePower (tick s) = tick s :=
    settlePower_idle (fun d h8 => by rw [pwrDieOf, hpwr]; exact hd d h8) (by rwa [hpwr])
  have hrcfg : retryRcfg (tick s) = tick s := if_neg (by simp [hglb, hw])
  have hmember : isMember (tick s) = false := by rw [isMember, hzw]; exact hm
  rw [idle, hpower, hrcfg, memberPost_anchor hmember]

end Ticks

/-! ### Samples and pulses -/

section Samples

variable {s : State} {num ns : Int} {den : Nat}

/-- The discipline as a sample leaves it, with `n` good samples in a row. -/
def disciplined (s : State) (n : Nat) (ns : Int) : State :=
  { s with time := { s.time with
    goodSamples := n, locked := decide (8 ≤ n), holdover := false, offsetNs := satNs ns, sampled := true, exchange := none } }

/-- After a first sample the mark of it stays. -/
theorem disciplined_eq (hs : s.time.sampled = true) (n : Nat) : disciplined s n ns = { s with time := { s.time with
    goodSamples := n, locked := decide (8 ≤ n), holdover := false, offsetNs := satNs ns, exchange := none } } :=
  congrArg (fun b => { s with time := { s.time with
    goodSamples := n, locked := decide (8 ≤ n), holdover := false, offsetNs := satNs ns, sampled := b
    exchange := none } }) hs.symm

/-- The good samples in a row that a sample makes. -/
def goodAfter (s : State) (num : Int) (den : Nat) : Nat :=
  if decide (-16 * (den : Int) ≤ num) && decide (num ≤ 16 * (den : Int)) then min 8 (s.time.goodSamples + 1) else 0

/-- The timeline where a sample after the first one leads: it steps where it is far off and may step, and slews otherwise. -/
def ledTimeline (t : State) (num : Int) (den : Nat) : State :=
  if num ≤ -16384 * (den : Int) && bit t.time.cfg 5 then stepTimeline t ((-num) / (den : Int))
  else if 16384 * (den : Int) ≤ num && noRingOn t then stepTimeline t ((-num) / (den : Int))
  else { t with time := { t.time with slew := (-num) / (den : Int) } }

theorem ledTimeline_slews {t : State} (hback : ¬ num ≤ -16384 * (den : Int)) (hahead : ¬ 16384 * (den : Int) ≤ num) :
    ledTimeline t num den = { t with time := { t.time with slew := (-num) / (den : Int) } } :=
  (if_neg (by simp only [hback, decide_false, Bool.false_and]; decide)).trans
    (if_neg (by simp only [hahead, decide_false, Bool.false_and]; decide))

/-- The sample's tick is that of the timeline where it leads. -/
def sampledNow (t : State) : State := { t with time := { t.time with lastSample := t.time.now } }

/-- A sample after the first one. -/
theorem sample_later (hs : s.time.sampled = true) : sample s num den ns =
    sampledNow (ledTimeline (disciplined s (goodAfter s num den) ns) num den) := by
  have hfirst : ¬ (!s.time.sampled && noRingOn (disciplined s (goodAfter s num den) ns)) = true := by simp [hs]
  exact congrArg sampledNow (if_neg hfirst)

/-- A sample within 16 ticks is a good one, and the timeline slews. -/
theorem sample_near (hd : 0 < den) (hs : s.time.sampled = true) (hlo : -16 * (den : Int) ≤ num) (hhi : num ≤ 16 * (den : Int)) :
    sample s num den ns = { s with time := { s.time with
      goodSamples := min 8 (s.time.goodSamples + 1), locked := decide (8 ≤ min 8 (s.time.goodSamples + 1)), holdover := false
      offsetNs := satNs ns, exchange := none, slew := (-num) / (den : Int), lastSample := s.time.now } } := by
  have hgood : goodAfter s num den = min 8 (s.time.goodSamples + 1) :=
    if_pos (Bool.and_eq_true_iff.2 ⟨decide_eq_true hlo, decide_eq_true hhi⟩)
  have hback : ¬ num ≤ -16384 * (den : Int) := by omega
  have hahead : ¬ 16384 * (den : Int) ≤ num := by omega
  rw [sample_later hs, hgood, ledTimeline_slews hback hahead, disciplined_eq hs]
  rfl

/-- One that lies further ahead of the timeline, but not so far that it steps, is no good one, and the timeline slews. -/
theorem sample_slews (hs : s.time.sampled = true) (hhi : num < -16 * (den : Int))
    (hlo : -16384 * (den : Int) < num) : sample s num den ns = { s with time := { s.time with
      goodSamples := 0, locked := false, holdover := false
      offsetNs := satNs ns, exchange := none, slew := (-num) / (den : Int), lastSample := s.time.now } } := by
  have hbad : goodAfter s num den = 0 := if_neg (by simp; omega)
  have hahead : ¬ 16384 * (den : Int) ≤ num := by omega
  rw [sample_later hs, hbad, ledTimeline_slews (Int.not_le.2 hlo) hahead, disciplined_eq hs]
  rfl

/-- One that lies 2^14 ticks ahead or more steps the timeline, where it may step. -/
theorem sample_steps {t : State} (hd : 0 < den) (hs : s.time.sampled = true) (hfar : num ≤ -16384 * (den : Int))
    (hcfg : bit s.time.cfg 5 = true)
    (ht : t = stepTimeline { s with time := { s.time with
      goodSamples := 0, locked := false, holdover := false, offsetNs := satNs ns, exchange := none } } ((-num) / (den : Int))) :
    sample s num den ns = { t with time := { t.time with lastSample := t.time.now } } := by
  have hbad : goodAfter s num den = 0 := if_neg (by simp; omega)
  have hstep : ledTimeline (disciplined s 0 ns) num den = t := by
    rw [ht, ledTimeline, disciplined_eq hs]
    exact if_pos (Bool.and_eq_true_iff.2 ⟨decide_eq_true hfar, hcfg⟩)
  rw [sample_later hs, hbad, hstep]
  rfl

/-- A pulse came in the last second, or in the one before. -/
theorem ppsIn_iff {n : Nat} : ppsIn s n = true ↔ ∃ t ∈ s.time.pps, since s.time.now t / 1048576 = n := by
  simp [ppsIn]

/-- Pulses come in order where one came in each of the last two seconds. -/
theorem ppsOk_iff : ppsOk s = true ↔ (∃ t ∈ s.time.pps, since s.time.now t < 1048576)
    ∧ (∃ t ∈ s.time.pps, 1048576 ≤ since s.time.now t ∧ since s.time.now t < 2097152) := by
  have hlast : ∀ n : Nat, n / 1048576 = 0 ↔ n < 1048576 := by omega
  have hbefore : ∀ n : Nat, n / 1048576 = 1 ↔ 1048576 ≤ n ∧ n < 2097152 := by omega
  simp only [ppsOk, Bool.and_eq_true, ppsIn_iff, hlast, hbefore]

end Samples

end Sys2Proof.Laws
end

section
/-!
PROOF. The rows of the timeline (R415, R417 to R419, R421, R481, R488).
-/
namespace Sys2Proof.Proofs

open Sys2Proof Sys2Proof.Machine Sys2Proof.Laws

section Rows

variable {s : State}

/-- The tick of a whole second. -/
theorem tickOfTime_second (n : Nat) : tickOfTime n 0 = n * 1048576 := by
  rw [tickOfTime]
  omega

/-- The timeline with a pulse more. -/
def pulsed (s : State) : State :=
  { s with time := { s.time with
    pps := s.time.pps.filter (fun t => decide (since s.time.now t < 2097152)) ++ [s.time.now] } }

/-- How far the timeline is ahead of the second that a pulse marks: under FREE the nearest one, else second `n`. -/
def pulseOffset (s : State) (n : Nat) : Int :=
  (absTick s : Int) - ((if timeSource s = 0 then (absTick s + 524288) / 1048576 else n) * 1048576 : Nat)

/-- TB_PPS_EDGE: the pulse is kept, and is a sample where the edges count. -/
theorem exec_tbPpsEdge (s : State) (n : Nat) : exec (.tbPpsEdge n) s = .next
    (if ppsEn s then sample (pulsed s) (pulseOffset s n) 1 (pulseOffset s n * 1000000000 / 1048576) else pulsed s) := by
  rw [pulseOffset, ← tickOfTime_second]
  rfl

/-- TIME_RX_GO of a length that a message may have, with the host path selected. -/
theorem exec_timeRxGo_host {len : BitVec 7} (hu : hostUp s = true) (hm : isMember s = false) (hlo : 34 ≤ len.toNat)
    (hhi : len.toNat ≤ 64) (hsrc : timeSource s = 1) : exec (.timeRxGo len) s = .next
      (slaveMsg s .host (padTo 64 ((bvToBytes 64 s.time.rxData).take len.toNat)) len.toNat (fineNow s)) := by
  have hlen : ¬ (len.toNat < 34 || 64 < len.toNat) = true := by simp; omega
  exact congrArg Host.Outcome.next ((earlyWrite_own hu hm).trans ((if_neg hlen).trans (if_neg (by simp [hsrc]))))

/-- TIME_RX_GO of any other length. -/
theorem exec_timeRxGo_ignored {len : BitVec 7} (hu : hostUp s = true) (hm : isMember s = false)
    (hlen : len.toNat < 34 ∨ 64 < len.toNat) :
    exec (.timeRxGo len) s = .next (logIgnored s 0x20020 (BitVec.ofNat 64 len.toNat)) :=
  congrArg Host.Outcome.next ((earlyWrite_own hu hm).trans (if_pos (by simpa using hlen)))

/-- A message that leaves a port leaves its partner. -/
theorem partnerId_stamped {p : Nat} {f : Port → Port} {x : TimeBlock}
    (hf : (f (portOf s p)).partnerId = (portOf s p).partnerId) :
    (portOf { modPort s p f with time := x } p).partnerId = (portOf s p).partnerId :=
  (congrArg Port.partnerId (portOf_setPort s p (f (portOf s p)))).trans hf

/-- PTP_SYNC_SEND when it is due. -/
theorem exec_ptpSyncSend_due {p : PortIx} {t : State} (hm : masterPort s p.val = true)
    (hd : sendDue s 16 (portOf s p.val).syncAt = true)
    (ht : t = { modPort s p.val (fun q => { q with syncAt := some s.time.now }) with
      time := { s.time with syncSeq := s.time.syncSeq + 1 } }) :
    exec (.ptpSyncSend p) s =
      .next (sendTime t p.val (portOf s p.val).partnerId (syncMsg t (p.val + 1) (s.time.syncSeq + 1))) := by
  have hpartner : (portOf t p.val).partnerId = (portOf s p.val).partnerId :=
    ht ▸ partnerId_stamped rfl
  rw [← hpartner]
  subst ht
  exact congrArg Host.Outcome.next (if_pos (by rw [hm, hd]; rfl))

/-- PTP_ANNOUNCE_SEND when it is due. -/
theorem exec_ptpAnnounceSend_due {p : PortIx} {t : State} (hm : masterPort s p.val = true)
    (hd : sendDue s 20 (portOf s p.val).announceAt = true)
    (ht : t = { modPort s p.val (fun q => { q with announceAt := some s.time.now }) with
      time := { s.time with announceSeq := s.time.announceSeq + 1 } }) :
    exec (.ptpAnnounceSend p) s =
      .next (sendTime t p.val (portOf s p.val).partnerId (announceMsg t (p.val + 1) (s.time.announceSeq + 1))) := by
  have hpartner : (portOf t p.val).partnerId = (portOf s p.val).partnerId :=
    ht ▸ partnerId_stamped rfl
  rw [← hpartner]
  subst ht
  exact congrArg Host.Outcome.next (if_pos (by rw [hm, hd]; rfl))

end Rows

/-- Settles O47, clause by clause: ticks, pulses, where samples lead, and messages. -/
theorem timelineRowsComplete : Obligations.TimelineRowsComplete := by
  refine ⟨fun s h => ?empty, fun s => rfl, fun s hm hw hd hs hslew => idle_unslewed hm hw hd hs hslew, fun s h => ?ticks,
    fun s n t ht => ?edge, fun s num den ns hd hs hlo hhi => sample_near hd hs hlo hhi,
    fun s num den ns _ hs hhi hlo => sample_slews hs hhi hlo,
    fun s num den ns t hs hfar hd hcfg ht => sample_steps hd hs hfar hcfg ht, fun s => ppsOk_iff, fun s h => ?lost,
    fun s b => rfl, fun s hh hl => ?holdover, fun s len hu hm hlo hhi hsrc => exec_timeRxGo_host hu hm hlo hhi hsrc,
    fun s len hu hm hlen => exec_timeRxGo_ignored hu hm hlen, fun s p t hm hd ht => exec_ptpSyncSend_due hm hd ht,
    fun s p t hm hd ht => exec_ptpAnnounceSend_due hm hd ht⟩
  case empty => rw [step, h]
  case ticks =>
    obtain ⟨-, -, -, hcmds, hhost, hhbm, herr, hhq⟩ := tick_frame h
    refine ⟨?_, ?_, hcmds, hhost, hhbm, herr, hhq⟩
    · rw [tick_unslewed h, absTick_setAbsTick]
    · rw [tick_unslewed h, setAbsTick]
  case edge =>
    obtain rfl : t = pulsed s := ht
    rw [exec_tbPpsEdge]
    exact ⟨fun he => by rw [he]; rfl, fun he hsrc => by rw [if_pos he, pulseOffset, if_neg hsrc],
      fun he hsrc => by rw [if_pos he, pulseOffset, if_pos hsrc]⟩
  case lost =>
    have hnone : ¬ ppsIn s 0 = true := fun h0 => by
      obtain ⟨t, ht, hlast⟩ := ppsIn_iff.1 h0
      have hlong := h t ht
      omega
    exact congrArg Host.Outcome.next (if_neg hnone)
  case holdover => exact congrArg Host.Outcome.next (if_pos (by simp [hh, hl]))

end Sys2Proof.Proofs
end
